-- ==== Sys2Proof/Word.lean ====
section
/-! DEFINITION. Word and line types of the slice: bytes, register words, 128 B lines with their byte masks, and the
identifiers the spec gives a width (R10, R13, R137). -/
namespace Sys2Proof

/-- A byte (R10). -/
abbrev Byte := BitVec 8
/-- A 32-bit register word (R463). -/
abbrev Word := BitVec 32
/-- A 128 B line, little-endian: byte i is bits [8i + 7 : 8i] (R10, R13). -/
abbrev Line := BitVec 1024
/-- A byte mask of a line: bit i enables byte i (R138, WrP). -/
abbrev Mask := BitVec 128
/-- A line index L = A[51:7] (R74). -/
abbrev LineIx := BitVec 45
/-- An agent ID (R137). -/
abbrev AgentId := BitVec 12
/-- The 16 B header of a UCF message as it travels (R137). -/
abbrev Hdr := BitVec 128
/-- A region index set, one bit per region (R373, R385). -/
abbrev RegionSet := BitVec 256

end Sys2Proof
end

