-- ==== Sys2Proof/Syntax.lean ====
section
/-! DEFINITION. The commands of the slice: one constructor of `Instr` per row of spec/opcode_table.json, with the
operands that arrive with it. A message row carries its header as the 128 bits of R137; a descriptor row names an
open-command context (R292); an answer row carries what the outside returned. -/
namespace Sys2Proof

/-- A port that carries UCF messages (R22): agent, near fabric or far fabric. -/
inductive Port where
  | agent (n : Fin 32)
  | near (n : Fin 4)
  | far (n : Fin 2)
  deriving DecidableEq, Repr, Inhabited

/-- Any external port with a sleep handshake (R445). -/
inductive SleepPort where
  | agent (n : Fin 32)
  | near (n : Fin 4)
  | far (n : Fin 2)
  | backing (n : Fin 8)
  deriving DecidableEq, Repr, Inhabited

/-- The half, A or B (R12). -/
inductive Half where
  | a | b
  deriving DecidableEq, Repr, Inhabited

/-- The links with a beat window and credits (R440, R441): agent and near fabric ports. -/
inductive LinkId where
  | agent (n : Fin 32)
  | near (n : Fin 4)
  deriving DecidableEq, Repr, Inhabited

/-- A link that sends its beats again: an agent or near fabric link, or a backing port (R328, R441). -/
inductive BeatLink where
  | link (l : LinkId)
  | backing (n : Fin 8)
  deriving DecidableEq, Repr, Inhabited

/-- What asks for the replay of flits on a far port: a flit that comes in with a CRC and the bytes that it covers, a gap in the
sequence of those that come in, or the partner, for flits of this slice (R328). -/
inductive FlitFail where
  | crc (seq : Nat) (header : BitVec 96) (payload : BitVec 8192) (crc : BitVec 32)
  | gap (seq : Nat)
  | asked (seq : Nat)
  deriving DecidableEq, Repr, Inhabited

/-- A unit that can suffer a lasting fault (R331, R335, R336), as the hardware has it: physical bank 256 + s is the spare bank of
shelf s, mats 2048 to 2079 of a bank are its spare mats S0 to S31, its rows 2048 to 2063 the spare tag rows, ways 16 and 17 of
a directory set the spare ways (R12, R17; log 13). A mat names the rows whose words fail; a word of a copy of the management state
store is named by the copy and its place (R339). -/
inductive FaultUnit where
  | mat (bank : Fin 272) (mat : Fin 2080) (rows : List (Fin 256))
  | bank (bank : Fin 272)
  | periphery (bank : Fin 272)
  | tagRow (bank : Fin 272) (row : Fin 2064)
  | dirWay (shelf : Fin 16) (set : Fin 16384) (way : Fin 18)
  | auuLane (shelf : Fin 16) (lane : Fin 64)
  | farLane (port : Fin 2) (lane : Fin 18)
  | mgmtCore
  | storeWord (copy : Fin 2) (word : Fin 524288)
  | sequencer (half : Half)
  | seamLane (lane : Fin 8)
  | crossbarPort (shelf : Fin 16)
  | pairLink (n : Fin 8)
  | agentPort (n : Fin 32)
  | nearPort (n : Fin 4)
  | backingPort (n : Fin 8)
  | lifeRecord
  deriving DecidableEq, Repr, Inhabited

/-- What a read of one row by the wedging pass finds (R327 to R329): the two reads of a row, columns and all, whose parity decides;
or a finding named as such; or that the test of a retired unit fails (R337). -/
inductive Finding where
  | pass
  | transient (u : FaultUnit)
  | lasting (u : FaultUnit)
  | failedTest (u : FaultUnit)
  | reads (u : FaultUnit) (first second : BitVec 66)
  deriving DecidableEq, Repr, Inhabited

/-- The contents of a HELLO frame (R373). `soloSet` and `mapEmpty` are its resync-map state. -/
structure Hello where
  ver : BitVec 8
  minVer : BitVec 8
  digest : BitVec 384
  leases : RegionSet
  writers : RegionSet
  mapEmpty : Bool
  soloSet : RegionSet
  deriving DecidableEq, Repr, Inhabited

/-- A write that a twin forwards (MFWD, R377): the original WrL, WrP or Atom. -/
structure FwdWrite where
  hdr : Hdr
  mask : Mask
  data : Line
  plen : Nat
  deriving DecidableEq, Repr, Inhabited

/-- The event counts of one 1 µs interval (R419, EW0 to EW3). -/
structure PowerCounts where
  firing : Nat
  banks : Nat
  beats : Nat
  auu : Nat
  deriving DecidableEq, Repr, Inhabited

/-- A segment of the IEEE 1687 network and the access made to it (R450, R466). -/
inductive TapAccess where
  | bypass
  | idcode
  | identSegment
  | selfTestRead (n : Nat)
  | selfTestWrite (n : Nat) (v : BitVec 64)
  | spareRead (n : Nat)
  | arrayRead (addr : BitVec 30)
  | registerRead (addr : BitVec 18)
  deriving DecidableEq, Repr, Inhabited

/-- The commands, in the order of spec/opcode_table.json. -/
inductive Instr where
  | reset (sliceBase : BitVec 21) (jtagMfg : BitVec 11)
  | eclkValid
  | fuseRdAck (data : BitVec 32)
  | mclkOk (coreAOk coreBOk : Bool)
  | bootGo (port : Fin 8)
  | romImageChecked (image : List Byte) (ue : Bool)
  | selfTest
  | selfTestDone (failing : List FaultUnit)
  | baseLoad
  | baseLoadDone (stream : List Byte) (ue : Bool)
  | rds (port : Port) (h : Hdr) (tied : Bool)
  | rdx (port : Port) (h : Hdr) (tied : Bool)
  | upg (port : Port) (h : Hdr) (tied : Bool)
  | rdv (port : Port) (h : Hdr) (tied : Bool)
  | rdnc (port : Port) (h : Hdr) (tied : Bool)
  | wrl (port : Port) (h : Hdr) (data : Line) (tied : Bool)
  | wrp (port : Port) (h : Hdr) (mask : Mask) (data : Line) (tied : Bool)
  | atom (port : Port) (h : Hdr) (plen : Nat) (data : Line) (tied : Bool)
  | puts (port : Port) (h : Hdr)
  | pute (port : Port) (h : Hdr)
  | putm (port : Port) (h : Hdr) (data : Line)
  | puto (port : Port) (h : Hdr) (data : Line)
  | admitReq (line : LineIx) (lookupPending : Bool)
  | fwdack (h : Hdr)
  | invack (h : Hdr)
  | datam (h : Hdr) (data : Line)
  | datas (h : Hdr) (data : Line)
  | cmp (h : Hdr)
  | lookupComplete (line : LineIx) (corrupt : Option (Fin 18))
  | greenwareDeadline (line : LineIx)
  | deadAgentTimeout (line : LineIx) (agent : AgentId)
  | backingReadData (bp : Fin 8) (tag : Fin 64) (data : Line) (ue : Bool)
  | backingWriteAck (bp : Fin 8) (tag : Fin 64)
  | backingSlotGrant (bp : Fin 8) (rdRdy wrRdy : Bool)
  | backingOccReport (bp : Fin 8) (occ : BitVec 4)
  | backingFbLost (bp : Fin 8)
  | creditReturn (link : LinkId) (vc : BitVec 2)
  | linkReplayRequest (link : BeatLink) (seq : BitVec 7)
  | linkBeatError (link : BeatLink)
  | farFlitCrcFail (port : Fin 2) (flit : FlitFail)
  | farFlitAck (port : Fin 2) (seq : Nat)
  | descriptorFetch (ring : Fin 16)
  | doorbell (ring : Fin 16)
  | ringPoll (ring : Fin 16)
  | rngKick (ring : Fin 16)
  | ringEnable (ring : Fin 16) (cfg : Word)
  | ringDisable (ring : Fin 16) (cfg : Word)
  | cqErrClear (ring : Fin 16)
  | commandComplete (ctx : Fin 256)
  | nop (ctx : Fin 256)
  | copy (ctx : Fin 256)
  | fill (ctx : Fin 256)
  | clean (ctx : Fin 256)
  | inval (ctx : Fin 256)
  | cleanInval (ctx : Fin 256)
  | reclaim (ctx : Fin 256)
  | pin (ctx : Fin 256)
  | unpin (ctx : Fin 256)
  | rangeSlotAllocate
  | rangeLineOp (slot : Fin 16) (half : Half)
  | rangeActivityDone (slot : Fin 16)
  | lineopClean
  | lineopInval
  | lineopCleanInval
  | lineopDone
  | cacheEnClear (bank : Fin 256)
  | cacheEnSet (bank : Fin 256)
  | bankCleanDone (bank : Fin 256)
  | tagInv (bank : Fin 256)
  | tagInvDone (bank : Fin 256)
  | agentJoin
  | agentLeave
  | agentRead
  | agentOpDone
  | kilnLoad (ctx : Fin 256)
  | kilnFire (ctx : Fin 256)
  | kilnPassStart (bank : Fin 256)
  | accumSlotTimeout (half : Half)
  | streamHeadPoll (ctx : Fin 256)
  | kilnReloadDone (entry : Fin 4096)
  | glbKpeerValid (window : Fin 8)
  | atomBatch (ctx : Fin 256)
  | tallyWait (ctx : Fin 256)
  | tallyWaitMet (ctx : Fin 256)
  | tallyWaitTimeout (ctx : Fin 256)
  | tallySet (ctx : Fin 256)
  | fence (ctx : Fin 256)
  | epochClose (ctx : Fin 256)
  | epochInput
  | forcedClose
  | epochSweepDone
  | quenchInput
  | quenchWaitExpiry
  | qstepDone
  | qstepGo
  | fltQuenchForce
  | fltQuenchAccept
  | overlayApply (ctx : Fin 256)
  | glazePointStart
  | glazeStreamReadDone
  | glazeDrainDone
  | glazePrepareDone
  | fwBlock (ctx : Fin 256)
  | fwActivate (ctx : Fin 256)
  | fwVerifyDone
  | fwLoadDone
  | fwStandbyReady
  | fwBootFail
  | fwQuiesceDone
  | fwFlipRetry (shelf : Fin 16)
  | fusePgAck (err : Bool)
  | spareSwap (ctx : Fin 256)
  | scrub (ctx : Fin 256)
  | wedgingRead (found : Finding)
  | spareDone
  | transStorm (u : FaultUnit)
  | heartbeatTimeout (lasting : Bool)
  | lifeRecordWrite (verified : Bool)
  | helloSend
  | hello (h : Hello)
  | mwr (line : LineIx) (mask : Mask) (data : Line) (tag : Nat) (result : Option (BitVec 128))
  | mfwd (w : FwdWrite) (tag : Nat)
  | mack (tag : Nat)
  | mreclaim (line : LineIx) (tag : Nat)
  | mpoison (tag : Nat)
  | mrsync (line : LineIx) (data : Line)
  | mcfg (region : Fin 256) (entry : BitVec 256)
  | mirrorTimeout
  | soloDelayExpiry
  | fenceWalkDone (region : Fin 256)
  | leaseExpiry (region : Fin 256)
  | leaseUpdate (ctx : Fin 256)
  | parFullResync
  | muxSelect (half : Half) (sel : Bool)
  | muxSwitchDone (half : Half)
  | muxHung (half : Half)
  | fclkLost (half : Half)
  | ckpClkenWrite (second : Bool) (value : Word)
  | shelfDoze (shelf : Fin 16)
  | shelfWakeDone (shelf : Fin 16)
  | halfRetentionStart (half : Half)
  | xSlpAck (port : SleepPort)
  | xSlpNak (port : SleepPort)
  | retentionEntryDone (half : Half)
  | xWake (port : SleepPort)
  | halfWake (half : Half)
  | hlfVok (half : Half)
  | hlfPllok (half : Half)
  | halfWakeDone (half : Half)
  | mgmtRetention
  | skipRatioChange (half : Half) (k : BitVec 6)
  | droopAssert (half : Half)
  | droopDeassert (half : Half)
  | droopHoldExpiry (half : Half)
  | activityEstimate (n : PowerCounts) (meas : BitVec 16) (measValid : Bool)
  | calibration
  | driftClear
  | sensorRead (va vb : BitVec 10) (ta tb : BitVec 8)
  | coolantStopAssert
  | coolantStopDeassert
  | coolantHoldExpiry
  | coneWindowEnd (cone : Fin 8)
  | thrashWindowEnd (shelf : Fin 16)
  | streamExpiry (shelf : Fin 16) (index : Fin 32)
  | shfAuuSeed (shelf : Fin 16) (seed : Word)
  | pmuCycLoRead (priv : Bool)
  | pmcLoRead (n : Fin 8) (priv : Bool)
  | pmcLoWrite (n : Fin 8) (value : Word) (priv : Bool)
  | pmcWrap (n : Fin 8)
  | pmuWindowEnd
  | pmuWinCfgWrite (value : Word)
  | evtPop
  | evtStatRead
  | shfUcfStatRead (shelf : Fin 16)
  | tlyUnroutedRead
  | shfAuditCntRead (shelf : Fin 16)
  | shfGwStatRead (shelf : Fin 16)
  | shfAuuRejRead (shelf : Fin 16)
  | fltTransRead (kind : Fin 16)
  | farLaneUp (port : Fin 2) (lanes : BitVec 18)
  | farTrainDone (port : Fin 2) (passing : BitVec 18)
  | farTrainRetry (port : Fin 2)
  | regWrite (addr : BitVec 18) (value : Word) (priv : Bool) (strb : BitVec 4)
  | peerResponse (h : Hdr) (data : Line)
  | backingPortReady (bp : Fin 8) (writes : Bool)
  | fwFlipHoldExpiry (shelf : Fin 16)
  | standbyRebootDone
  | invalidUcfMessage (port : Port) (h : Hdr)
  | regRead (addr : BitVec 18) (priv : Bool)
  | ijtagAccess (a : TapAccess)
  | apbReset
  | resetAssert
  deriving DecidableEq, Repr, Inhabited

end Sys2Proof
end

