-- ==== Sys2Proof/Config.lean ====
section
/-! DEFINITION. What one slice's silicon fixes, and the free values: constants without a body where the spec leaves a
value open (log 7), and functions the spec names but does not give (log 10). -/
namespace Sys2Proof.Config

/-- Free 64-bit values, one per draw of the counter `State.free` (log 7). -/
opaque freeBits : Nat → BitVec 64

/-- Silicon revision n of GLB_REV, 0 to 31 (R467). -/
opaque siliconRev : BitVec 5

/-- Boot ROM version of GLB_REV (R467). -/
opaque romVersion : BitVec 8

/-- The digest over the M-class region entries, taken index by index, that HELLO carries; the spec names it and gives
no algorithm (R373, log 10). -/
opaque regionDigest : List (Nat × BitVec 256) → BitVec 384

/-- Contents of a self-test controller segment of the IEEE 1687 network; the spec gives none (R450, log 11). -/
opaque selfTestSegment : Nat → BitVec 64

/-- The value, among the values the banks wrote, that remains when two outputs of one firing job from different banks
map to one byte (R275): the free order in which two banks' writes land (log 9). -/
opaque bankOrder : Nat → Nat → Bool

/-- PART of GLB_ID (R467). -/
def partId : BitVec 16 := 0xD601#16

/-- The undo-log group size in bytes (R356). -/
def undoGroup : Nat := 640

/-- Entries of an undo-log stripe for UNDO_SIZE u (R356). -/
def stripeCapacity (u : Nat) : Nat := 4 * (u * 33554432 / undoGroup)

end Sys2Proof.Config
end

