-- ==== Sys2Proof/Machine/Bits.lean ====
section
/-! DEFINITION. Bit-field, byte-order and sparse-table helpers that the meanings share (R10). -/
namespace Sys2Proof.Machine

/-- Bits [hi:lo] of a number. -/
def bits (v hi lo : Nat) : Nat := (v >>> lo) % 2 ^ (hi - lo + 1)

/-- Bit i of a number. -/
def bit (v i : Nat) : Bool := Nat.testBit v i

/-- 1 for true, 0 for false. -/
def b2n (b : Bool) : Nat := if b then 1 else 0

/-- A set of indexes with index i put in or taken out, as a bit vector. -/
def setBit {n : Nat} (v : BitVec n) (i : Nat) (b : Bool) : BitVec n :=
  if b then v ||| (1#n <<< i) else v &&& ~~~(1#n <<< i)

/-- Add without wrap, held at the field's maximum (the saturating counters of R11). -/
def satAdd {n : Nat} (v : BitVec n) (k : Nat) : BitVec n :=
  if v.toNat + k < 2 ^ n then BitVec.ofNat n (v.toNat + k) else BitVec.allOnes n

/-- The number of 1 bits. -/
def popCount {n : Nat} (v : BitVec n) : Nat :=
  (List.range n).foldl (fun c i => c + b2n (v.getLsbD i)) 0

/-- Indexes below n whose bit is 1, ascending. -/
def onesOf {n : Nat} (v : BitVec n) : List Nat := (List.range n).filter (fun i => v.getLsbD i)

/-- Little-endian bytes of a number (R10). -/
def bytesLE : Nat → Nat → List Byte
  | 0, _ => []
  | n + 1, v => BitVec.ofNat 8 v :: bytesLE n (v / 256)

/-- Big-endian bytes of a number (R40). -/
def bytesBE (n v : Nat) : List Byte := (bytesLE n v).reverse

/-- The number that little-endian bytes spell (R10). -/
def leNat : List Byte → Nat
  | [] => 0
  | b :: r => b.toNat + 256 * leNat r

/-- The number that big-endian bytes spell (R40). -/
def beNat (bs : List Byte) : Nat := leNat bs.reverse

/-- n bytes at an offset, and the little-endian number there; bytes past the end read 0. -/
def slice (bs : List Byte) (off n : Nat) : List Byte := (bs.drop off).take n
def leAt (bs : List Byte) (off n : Nat) : Nat := leNat (slice bs off n)

/-- Byte i of a line. -/
def byteOf (l : Line) (i : Nat) : Byte := l.extractLsb' (8 * i) 8

/-- The bytes of a line, ascending. -/
def lineBytes (l : Line) : List Byte := bytesLE 128 l.toNat

/-- A line from its first bytes; bytes not given are 0. -/
def lineOfBytes (bs : List Byte) : Line := BitVec.ofNat 1024 (leNat (bs.take 128))

/-- 32-bit word i of a line (R94). -/
def wordOf (l : Line) (i : Nat) : Word := l.extractLsb' (32 * i) 32

/-- The bit mask of a byte mask: eight ones for each enabled byte. -/
def widen (m : Mask) : Line :=
  (List.range 128).foldl (fun acc i => if m.getLsbD i then acc ||| (0xFF#1024 <<< (8 * i)) else acc) 0

/-- The old line with the enabled bytes of the new one (WrP, R138). -/
def merge (old new : Line) (m : Mask) : Line := (old &&& ~~~(widen m)) ||| (new &&& widen m)

/-- The mask of the bytes from lo, n of them. -/
def maskOf (lo n : Nat) : Mask := ((1#128 <<< n) - 1) <<< lo
/-- Every byte enabled. -/
def fullMask : Mask := BitVec.allOnes 128

/-- The byte mask of a set of sectors: bit j covers bytes 32j to 32j + 31 (R89). -/
def sectorMask (sv : BitVec 4) : Mask :=
  (List.range 4).foldl (fun acc j => if sv.getLsbD j then acc ||| maskOf (32 * j) 32 else acc) 0

/-- Sectors all of whose bytes are enabled, and sectors with some byte enabled (R92). -/
def coveredSectors (m : Mask) : BitVec 4 :=
  (List.range 4).foldl (fun acc j => setBit acc j (m &&& maskOf (32 * j) 32 == maskOf (32 * j) 32)) 0
def touchedSectors (m : Mask) : BitVec 4 :=
  (List.range 4).foldl (fun acc j => setBit acc j (m &&& maskOf (32 * j) 32 != 0)) 0

/-- A table that lists only what differs from a default, by rising key. -/
abbrev Table (α : Type) := List (Nat × α)

/-- The entry at a key; the default where none is listed. -/
def tget {α : Type} (d : α) : Table α → Nat → α
  | [], _ => d
  | (i, v) :: r, k => if i = k then v else tget d r k

/-- Put an entry in its place. -/
def tins {α : Type} : Table α → Nat → α → Table α
  | [], k, v => [(k, v)]
  | (i, w) :: r, k, v =>
    if i < k then (i, w) :: tins r k v else if i = k then (k, v) :: r else (k, v) :: (i, w) :: r

/-- Take an entry out. -/
def tdel {α : Type} (t : Table α) (k : Nat) : Table α := t.filter (fun p => p.1 != k)

/-- Set the entry at a key; the default is not listed. -/
def tset {α : Type} [DecidableEq α] (d : α) (t : Table α) (k : Nat) (v : α) : Table α :=
  if v = d then tdel t k else tins t k v

/-- Change the entry at a key. -/
def tmod {α : Type} [DecidableEq α] (d : α) (t : Table α) (k : Nat) (f : α → α) : Table α :=
  tset d t k (f (tget d t k))

/-- The canonical form of a table: keys strictly rising, no default listed. -/
def twf {α : Type} [DecidableEq α] (d : α) (t : Table α) : Bool :=
  t.all (fun p => decide (p.2 ≠ d)) && decide (t.Pairwise (fun p q => p.1 < q.1))

/-- The first element that satisfies a test, changed; the rest as they are. -/
def modFirst {α : Type} (p : α → Bool) (f : α → α) : List α → List α
  | [] => []
  | a :: r => if p a then f a :: r else a :: modFirst p f r

/-- The list without the first element that satisfies a test. -/
def dropFirst {α : Type} (p : α → Bool) : List α → List α
  | [] => []
  | a :: r => if p a then r else a :: dropFirst p r

/-- Insertion sort by a key, stable. -/
def insBy {α : Type} (key : α → Nat) (a : α) : List α → List α
  | [] => [a]
  | b :: r => if key a < key b then a :: b :: r else b :: insBy key a r
def sortBy {α : Type} (key : α → Nat) (l : List α) : List α := l.foldl (fun acc a => insBy key a acc) []

/-- The element of the least key, the first on a tie. -/
def minBy {α : Type} (key : α → Nat) : List α → Option α
  | [] => none
  | a :: r => some (r.foldl (fun m b => if key b < key m then b else m) a)

/-- The list without repeats, first occurrences kept. -/
def dedup {α : Type} [DecidableEq α] (l : List α) : List α :=
  l.foldl (fun acc a => if a ∈ acc then acc else acc ++ [a]) []

/-! ### Parity and CRC (R15, R16, R328) -/

/-- The parity bit of a 32-bit word: with it the 33 bits hold an even number of ones (R16). -/
def parityBit (w : BitVec 32) : Bool := (List.range 32).foldl (fun p i => p ^^ w.getLsbD i) false
/-- A word passes with the parity bit that came with it (R16, R327). -/
def parityOk (w : BitVec 32) (p : Bool) : Bool := parityBit w == p
/-- The 66 columns of a mat row that holds two words: each with its parity bit above it (R15). -/
def matRow (w0 w1 : BitVec 32) : BitVec 66 :=
  BitVec.ofNat 66 (w0.toNat + b2n (parityBit w0) * 2 ^ 32 + w1.toNat * 2 ^ 33 + b2n (parityBit w1) * 2 ^ 65)
/-- Word k of a row, and the 64 data bits that a read of it returns (R15). -/
def rowWord (r : BitVec 66) (k : Nat) : BitVec 32 := r.extractLsb' (33 * k) 32
def rowData (r : BitVec 66) : BitVec 64 := BitVec.ofNat 64 ((rowWord r 0).toNat + (rowWord r 1).toNat * 2 ^ 32)
/-- Both words of a row pass (R16, R327). -/
def rowOk (r : BitVec 66) : Bool := parityOk (rowWord r 0) (r.getLsbD 32) && parityOk (rowWord r 1) (r.getLsbD 65)

end Sys2Proof.Machine
end

