-- ==== Sys2Proof/Machine/State.lean ====
section
/-! DEFINITION. The state of the slice as plain data: every register, array, queue, table, mode and pin the spec gives
it, in groups by chapter, the queue of waiting commands, and the state after reset. Large arrays are tables that list
only what differs from the reset content. -/
namespace Sys2Proof.Machine

/-! ### Arrays, tags, directory (01, 04, 05) -/

/-- STATE of a tag slot (R89). -/
inductive TagState where
  | invalid | live | dead | deadStrict
  deriving DecidableEq, Repr, Inhabited

/-- A tag slot (R89). -/
structure Tag where
  state : TagState
  tag : BitVec 34
  frame : BitVec 4
  fstart : BitVec 2
  csize : BitVec 2
  glz : BitVec 2
  sv : BitVec 4
  sd : BitVec 4
  ep : Bool
  pin : Bool
  dup : Bool
  cone : BitVec 3
  deriving DecidableEq, Repr, Inhabited

/-- An invalid slot. -/
def Tag.empty : Tag := ⟨.invalid, 0, 0, 0, 0, 0, 0, 0, false, false, false, 0⟩

/-- The bank arrays. `bytes` is addressed by global bank × 2²² + offset (R69); `poison` by saggar line (R332); tags by
(bank × 2048 + set) × 32 + slot, trees by bank × 2048 + set (R99). -/
structure Arrays where
  bytes : List Host.Cell
  poison : Table Bool
  tags : Table Tag
  frameTree : Table (BitVec 16)
  tagTree : Table (BitVec 32)
  deriving DecidableEq, Repr, Inhabited

/-- HSTATE of a directory entry (R132, R133). -/
inductive HState where
  | free | ds | dx | dO
  deriving DecidableEq, Repr, Inhabited

/-- A directory entry (R132). `sharers` holds the exact pointers, `groups` the coarse vector. -/
structure DirEntry where
  hstate : HState
  t : Bool
  coarse : Bool
  dtag : BitVec 31
  owner : AgentId
  tstate : BitVec 6
  sharers : List AgentId
  groups : BitVec 64
  deriving DecidableEq, Repr, Inhabited

def DirEntry.empty : DirEntry := ⟨.free, false, false, 0, 0, 0, [], 0⟩

/-- The directory: ways at (shelf × 16384 + set) × 16 + way, trees at shelf × 16384 + set, retired ways (R131, R135,
R336). -/
structure Directory where
  ways : Table DirEntry
  trees : Table (BitVec 16)
  retired : Table Bool
  deriving DecidableEq, Repr, Inhabited

/-! ### Requests and transactions (05, 06, 08) -/

/-- What a request asks of the home. `callIn` and `inv` are the requests without a requester of the leave walk, the
epoch cut, the fence walk and the maintenance engine (R158, R352, R382, R120). -/
inductive ReqOp where
  | rdS | rdX | upg | rdV | rdNC | wrL | wrP | atom | callIn | inv
  deriving DecidableEq, Repr, Inhabited

/-- A completion record: its two halves, whether it raises an interrupt, and the context that it ends (R302, R303). -/
structure Rec where
  lo : BitVec 64
  hi : BitVec 64
  irq : Bool
  ctx : Nat
  deriving DecidableEq, Repr, Inhabited

/-- Who a request's answer goes to. -/
inductive Who where
  | agent (id : AgentId) (port : Port)
  | cmd (ctx : Nat)
  | desc (ctx : Nat)
  | ctl (ring : Nat)
  | enable (ring : Nat) (cq : Bool)
  | post
  | ctlOut (ring : Nat)
  | record (cring : Nat) (last : Bool)
  | result (ctx : Nat)
  | walk
  | cut
  | fenceWalk
  | victim
  | maint (slot : Nat)
  | lineop
  | recover
  | mirror (tag : Nat) (fwd : Bool) (result : Option (BitVec 128))
  | resync
  | mfwd (tag : Nat) (id : AgentId)
  | reload (entry : Nat)
  | head (ctx : Nat)
  | input (ctx shelf : Nat)
  | sum (ctx bank : Nat)
  deriving DecidableEq, Repr, Inhabited

/-- A request at the home (R137, R154). `born` is the FCLK count of its port's half at entry (R324); `target` the agent
a walk's request is for; `waited` says that it was not admitted in the cycle it arrived
(R202); `index` is the entry of an ATOM_BATCH that it performs. -/
structure Req where
  op : ReqOp
  who : Who
  line : LineIx
  txn : BitVec 11
  cone : BitVec 3
  scope : BitVec 2
  mask : Mask
  data : Line
  plen : Nat
  aop : BitVec 8
  pour : Bool
  plain : Bool
  target : AgentId
  group : BitVec 6
  born : Nat
  waited : Bool
  index : Nat
  deriving DecidableEq, Repr, Inhabited

/-- The change that a transaction makes to the entry at its close (R140, R161). -/
inductive Plan where
  | same
  | owner
  | share
  | downgrade
  | clear
  | drop
  | lost
  deriving DecidableEq, Repr, Inhabited

/-- What the home itself still does in a transaction once the flags it waits on are clear (R160); `lookup` waits for the
directory lookup (R205), `refuse` answers with Poison once every holder has answered. -/
inductive Work where
  | none
  | lookup
  | data
  | grant
  | perform
  | refuse
  deriving DecidableEq, Repr, Inhabited

/-- Greenware state of a transaction (R204 to R206): none sent, sent and unresolved, fired, cracked. -/
inductive Green where
  | none | sent | fired | cracked
  deriving DecidableEq, Repr, Inhabited

/-- A Put held in the deferred slot (R164). -/
structure Put where
  code : BitVec 6
  src : AgentId
  port : Port
  txn : BitVec 11
  cone : BitVec 3
  line : LineIx
  data : Line
  deriving DecidableEq, Repr, Inhabited

/-- A transaction record (R156, R159). `tstate` holds C F I R B V at bits 0 to 5. `fetched` is the line that a miss, a
forward to the home or a Recall brought; `invTo` the agents sent Inv, `invDone` those of them that have answered; `fetch` says
that the line is being fetched for the transaction, `filled` that it has been (R160); `had` that the directory recorded a holder at admission (R114); `mack` the
mirror frame its Ack waits for (R376); `victimFor` the request that waits for the way a Recall frees (R166). -/
structure Txn where
  req : Req
  tstate : BitVec 6
  invLeft : Nat
  invTo : List AgentId
  invDone : List AgentId
  coarse : Bool
  fetch : Bool
  filled : Bool
  fwd : Option AgentId
  noxfer : Bool
  recallTo : Option AgentId
  dirty : Bool
  had : Bool
  sent : Bool
  work : Work
  plan : Plan
  green : Green
  fetched : Option Line
  mack : Option Nat
  result : Option (BitVec 128)
  deferred : Option Put
  victimFor : Option Req
  deriving DecidableEq, Repr, Inhabited

/-- A UCF message that the slice sends, with the fields of R137 it uses. `born` is the entry time of the request that it is the last
answer to (R324). -/
structure Msg where
  port : Option Port
  code : BitVec 6
  toHome : Bool
  src : AgentId
  dst : AgentId
  line : LineIx
  txn : BitVec 11
  cone : BitVec 3
  scope : BitVec 2
  spec : Bool
  wait : Bool
  req : AgentId
  noxfer : Bool
  nocache : Bool
  reqHome : Bool
  aop : BitVec 8
  data : Option Line
  mask : Mask
  result : Option (BitVec 128)
  born : Option Nat
  deriving DecidableEq, Repr, Inhabited

/-- A message that waits in the seam bridge for a half that sleeps (R27): a Put that came in on a port, an answer with the
data it carries, or a message of a home shelf for a port. -/
inductive Crossing where
  | put (port : Port) (h : Hdr) (data : Line)
  | answer (h : Hdr) (data : Line)
  | out (shelf : Nat) (m : Msg)
  deriving DecidableEq, Repr, Inhabited

/-- The home's queues: conflict queues in arrival order, REQs still in their channel, held requests, messages in the seam
bridge with the half each waits for, open records (R27, R60, R154, R156, R313, R410). -/
structure Home where
  cq : List Req
  vc : List Req
  held : List Req
  bridge : List (Half × Crossing)
  txns : List Txn
  deriving DecidableEq, Repr, Inhabited

/-! ### Backing (04, 13, 15, 20) -/

/-- Who waits for a write to backing to be acknowledged. -/
inductive Waiter where
  | nobody
  | txn (line : LineIx)
  | range (slot : Nat)
  | lineop
  | clean (bank : Nat)
  | sweep
  | stamp
  deriving DecidableEq, Repr, Inhabited

/-- What a backing request is for (R315); the write of data carries the SRC of R356, which tells a writeback from a write
that goes through. -/
inductive Why where
  | miss (bank : Nat)
  | abandoned
  | undoOld (job : Nat)
  | undoLog (job : Nat)
  | data (w : Waiter) (src : Nat)
  | undoNew (w : Waiter) (src : Nat)
  | replayHdr (stripe : Nat)
  | replayData (stripe : Nat)
  | replayWrite (stripe : Nat)
  deriving DecidableEq, Repr, Inhabited

/-- A backing request (R442): waiting for a slot, holding one but not accepted, or sent with its tag. `addr` is the
address in lines, `born` the FCLK count of the port's half (R314). -/
structure BReq where
  bp : Nat
  write : Bool
  addr : Nat
  mask : Mask
  data : Line
  cone : BitVec 3
  why : Why
  slot : Option Nat
  sent : Bool
  born : Nat
  deriving DecidableEq, Repr, Inhabited

/-- A use of the line that a miss entry fetches (R104, R110). -/
inductive MissUse where
  | txn
  | pin (slot : Nat)
  deriving DecidableEq, Repr, Inhabited

/-- A miss entry, with its merged uses in arrival order (R104). -/
structure Miss where
  bank : Nat
  line : LineIx
  cone : BitVec 3
  alloc : Bool
  uses : List MissUse
  deriving DecidableEq, Repr, Inhabited

/-- An undo-log job between the old line's read and the new data's write (R357). `stage` 0 waits for room in the
stripe, 1 reads the old line, 2 writes the entry. -/
structure UndoJob where
  id : Nat
  line : LineIx
  mask : Mask
  data : Line
  cone : BitVec 3
  src : Nat
  w : Waiter
  stage : Nat
  left : Nat
  deriving DecidableEq, Repr, Inhabited

/-- Backing side of the slice. -/
structure Backing where
  reqs : List BReq
  miss : List Miss
  missWait : List Miss
  jobs : List UndoJob
  nextJob : Nat
  headers : Table Line
  deriving DecidableEq, Repr, Inhabited

/-! ### Shelves (04, 06, 07, 08, 09) -/

/-- A tracked stream (R108). -/
structure Stream where
  agent : AgentId
  desc : Bool
  next : Nat
  len : Nat
  cone : BitVec 3
  deriving DecidableEq, Repr, Inhabited

/-- An audit-table entry (R188); `twin` says that the releasing agent is one of the twin chip's (R377). -/
structure Audit where
  line : LineIx
  agent : AgentId
  twin : Bool
  scope : BitVec 2
  deriving DecidableEq, Repr, Inhabited

/-- An AUU line buffer with the number of operations it has taken (R236). -/
structure LineBuf where
  line : LineIx
  data : Line
  ops : Nat
  deriving DecidableEq, Repr, Inhabited

/-- Agent-table state of an ID (R150). -/
inductive Joined where
  | no | joining | yes | leaving
  deriving DecidableEq, Repr, Inhabited

/-- An agent-table entry: the bits of GLB_AGENT_CFG, with GROUP the assigned one, and the port it was last heard on
(log 16). -/
structure Agent where
  st : Joined
  cfg : BitVec 21
  port : Option Port
  deriving DecidableEq, Repr, Inhabited

def Agent.absent : Agent := ⟨.no, 0, .none⟩

/-- A shelf's registers and small state. Bit k of a 16-bit vector belongs to local bank k. `auuTurn` says that lane group 0 has
taken a line operation in the running cycle (R230); `agents` is the shelf's copy of the agent table, and `agentsOld` says that
it is still to be updated when the shelf wakes (R37, R151). -/
structure Shelf where
  bankEn : BitVec 16
  invDone : BitVec 16
  tagInv : BitVec 16
  cleaning : BitVec 16
  retired : BitVec 16
  pinRefused : LineIx
  pinValid : Bool
  thresh : BitVec 16
  pour : BitVec 8
  thrash : Table Nat
  calm : Table Nat
  prio : BitVec 6
  tie : List Req
  tiePrio : BitVec 6
  txnHwm : BitVec 9
  cqHwm : BitVec 10
  audit : List Audit
  auditCnt : BitVec 16
  gwDis : Bool
  fireCnt : BitVec 16
  crackCnt : BitVec 16
  auuSeed : Word
  auuOvf : Bool
  auuInv : Bool
  auuRej : BitVec 16
  auuCause : BitVec 4
  lanes : List (BitVec 32)
  auuGroups : BitVec 2
  auuTurn : Bool
  lineBufs : List LineBuf
  streams : List Stream
  spareLocal : BitVec 4
  table : BitVec 8
  flipped : Bool
  flipHold : Bool
  agents : Table Agent
  agentsOld : Bool
  deriving DecidableEq, Repr, Inhabited

/-- One lane generator loaded from a seed (R227). -/
def laneSeed (seed : Word) (j : Nat) : BitVec 32 :=
  let v := seed ^^^ (0x9E3779B9#32 * BitVec.ofNat 32 (j + 1))
  if v = 0 then 1 else v

/-- All 64 lane generators as a write of the seed loads them (R227). -/
def laneSeeds (seed : Word) : List (BitVec 32) := (List.range 64).map (laneSeed seed)

def Shelf.reset : Shelf :=
  { bankEn := 0, invDone := 0, tagInv := 0, cleaning := 0, retired := 0, pinRefused := 0, pinValid := false,
    thresh := 64, pour := 0, thrash := [], calm := [], prio := 0, tie := [], tiePrio := 0, txnHwm := 0, cqHwm := 0,
    audit := [], auditCnt := 0, gwDis := false, fireCnt := 0, crackCnt := 0, auuSeed := 1, auuOvf := false,
    auuInv := false, auuRej := 0, auuCause := 0, lanes := laneSeeds 1, auuGroups := 3, auuTurn := false, lineBufs := [], streams := [],
    spareLocal := 0, table := 0, flipped := false, flipHold := false, agents := [], agentsOld := false }

/-! ### Configuration and glaze point (02) -/

/-- A configuration: the sections of a Sybin stream (R42 to R50). Entries are kept as their bytes read little-endian. -/
structure Cfg where
  modes : Table (BitVec 8)
  hash : BitVec 8
  seed : BitVec 64
  homing : List Nat
  regions : Table (BitVec 256)
  cones : Table (BitVec 128)
  protocol : BitVec 64
  hops : Table (BitVec 256)
  placeN : Nat
  places : Table (BitVec 256)
  protect : BitVec 128
  pair : BitVec 128
  deriving DecidableEq, Repr, Inhabited

def Cfg.empty : Cfg := ⟨[], 0, 0, [], [], [], 0, [], 0, [], 0, 0⟩

/-- SYB_STATUS.STATE. -/
inductive SybState where
  | config | loading | active | error
  deriving DecidableEq, Repr, Inhabited

structure Sybin where
  state : SybState
  err : BitVec 8
  src : BitVec 52
  len : Word
  serial : Word
  ovlGen : Word
  digest : BitVec 128
  cfg : Cfg
  loadDefault : Bool
  loadLen : Word
  deriving DecidableEq, Repr, Inhabited

/-- Steps of an open glaze point (R60). -/
inductive GlazeStep where
  | idle | reading | draining | preparing
  deriving DecidableEq, Repr, Inhabited

/-- An open glaze point: its command, the configuration to come, the affected banks, the areas of the affected region entries before
and after (R59), the mats to zero, the banks whose mode changes, and the kiln commands that it holds. -/
structure Glaze where
  step : GlazeStep
  ctx : Nat
  next : Cfg
  banks : List Nat
  areas : List (Nat × Nat)
  zeroMats : List (Nat × Nat × Nat)
  drains : List Nat
  waiting : List Nat
  deriving DecidableEq, Repr, Inhabited
/-- No glaze point is open. -/
def Glaze.closed : Glaze := ⟨.idle, 0, Cfg.empty, [], [], [], [], []⟩

/-! ### Agents (05) -/

/-- The agent registers and the master agent table (R37, R150, R151). `opId` is the ID that the running operation was started
for. -/
structure Agents where
  id : AgentId
  cfg : BitVec 21
  table : Table Agent
  op : BitVec 2
  opId : AgentId
  busy : Bool
  result : BitVec 3
  deriving DecidableEq, Repr, Inhabited

/-! ### Rings and commands (12) -/

/-- A ring. `reading` says that its control line is to be read, `flight` how many such reads are under way, `void` how many of them
were under way when the ring was enabled, so that their tail does not count, `stale` the reads of an enable that was given up;
`read` is what a read returned and is still to be judged (R289, R307). `held` are the records that completion ring n is still
to write, in order, and `putting` how far the first has come: 1 and 3 while its second and its first 8 bytes are being written,
2 between (R303, R309); `ctlDue` says that SQ_HEAD and CQ_TAIL are to be written (R288). `engine` and `windows` are the peer ID
and windows that its areas were checked against (R309). -/
structure Ring where
  sqBase : BitVec 52
  cqBase : BitVec 52
  ctl : BitVec 52
  sqLog : BitVec 4
  cqLog : BitVec 4
  cq : BitVec 4
  priv : BitVec 2
  poll : BitVec 4
  irqSel : BitVec 2
  errIrq : Bool
  en : Bool
  enabling : Bool
  checksLeft : Nat
  checkBad : Bool
  active : Bool
  watched : Bool
  overrun : Bool
  fetchErr : Bool
  cqErr : Bool
  cfgErr : Bool
  tail : Word
  sqHead : Word
  cqTail : Word
  cqHead : Word
  reading : Bool
  flight : Nat
  void : Nat
  stale : Nat
  read : Option (Option Word × Word)
  held : List Rec
  putting : Nat
  ctlDue : Bool
  engine : AgentId
  windows : List (Nat × Nat)
  deriving DecidableEq, Repr, Inhabited

def Ring.reset : Ring :=
  { sqBase := 0, cqBase := 0, ctl := 0, sqLog := 6, cqLog := 6, cq := 0, priv := 0, poll := 4, irqSel := 0,
    errIrq := true, en := false, enabling := false, checksLeft := 0, checkBad := false, active := false, watched := false, overrun := false,
    fetchErr := false, cqErr := false, cfgErr := false, tail := 0, sqHead := 0, cqTail := 0, cqHead := 0,
    reading := false, flight := 0, void := 0, stale := 0, read := none, held := [], putting := 0, ctlDue := false,
    engine := 0, windows := [] }

/-- Phase of an open-command context (R302): free; fetched and not decoded; decoded and waiting to start; gathering
the lines it reads; acting; performed in full or halted, its record still to make; its record being written. -/
inductive Phase where
  | free | fetched | waiting | gathering | acting | done | recording
  deriving DecidableEq, Repr, Inhabited

/-- An open-command context (R292). `need` lists the line addresses still to be read, `inbuf` those read; `out` counts
writes and line operations not yet acknowledged. `rolled` marks a command submitted before a restart (R366); `engine` and
`windows` keep the peer ID and the peer windows it was checked against (R285); `cring` is the completion ring that it reserved a
record of, and `late` says that its ring was enabled again while its descriptor was under way (R292, R307). -/
structure Ctx where
  phase : Phase
  ring : Nat
  index : Word
  order : Nat
  desc : BitVec 512
  need : List Nat
  inbuf : Table Line
  out : Nat
  begun : Bool
  rolled : Bool
  progress : Nat
  status : BitVec 8
  detail : BitVec 64
  poison : Option Nat
  stage : Nat
  results : List (Nat × BitVec 64)
  engine : AgentId
  windows : List (Nat × Nat)
  cring : Nat
  late : Bool
  deriving DecidableEq, Repr, Inhabited

def Ctx.free : Ctx := ⟨.free, 0, 0, 0, 0, [], [], 0, false, false, 0, 0, 0, none, 0, [], 0, [], 0, false⟩

structure Cmds where
  ctxs : Table Ctx
  next : Nat
  round : List Nat
  rolledTail : Table Word
  irqStat : BitVec 16
  irqEn : BitVec 16
  deriving DecidableEq, Repr, Inhabited

/-! ### Maintenance (04) -/

inductive RangeKind where
  | clean | inval | cleanInval | reclaim | pin | unpin | bankClean (bank : Nat) | drain
  deriving DecidableEq, Repr, Inhabited
/-- What a glaze-point drain cleans: an affected cache region, or a bank that leaves cache mode (R61). -/
inductive DrainPart where
  | region (base len : Nat)
  | bank (b : Nat)
  deriving DecidableEq, Repr, Inhabited

/-- A range activity: lines base to base + len − 1, the next line of each half part, whether each part is done, the
lowest refused line and the lines processed (R111, R120 to R123). A glaze-point drain goes through its parts in order, each half
part for itself (R61). -/
structure RangeAct where
  kind : RangeKind
  base : Nat
  len : Nat
  ctx : Option Nat
  parts : List DrainPart
  partA : Nat
  partB : Nat
  order : Nat
  posA : Nat
  posB : Nat
  doneA : Bool
  doneB : Bool
  refused : Option Nat
  processed : Nat
  deriving DecidableEq, Repr, Inhabited

def RangeAct.drain (a : RangeAct) : Bool := a.kind == RangeKind.drain

/-- The by-address operation that runs, and whether it has acted on its line (R127). -/
structure LineOp where
  kind : RangeKind
  line : LineIx
  order : Nat
  acted : Bool
  deriving DecidableEq, Repr, Inhabited

structure Ranges where
  slots : Table (Option RangeAct)
  waiting : List RangeAct
  next : Nat
  lineop : Option LineOp
  addr : BitVec 52
  deriving DecidableEq, Repr, Inhabited

/-! ### Tallies, cones, counters (03, 07, 13, 19) -/

structure Tallies where
  count : Table (BitVec 64)
  dflt : BitVec 10
  dfltEn : Bool
  unrouted : Word
  routes : Table Word
  deriving DecidableEq, Repr, Inhabited

/-- A guarantee monitor: the counts of the running window and the last judged ones (R322 to R325). -/
structure Mon where
  bytes : Nat
  reqs : Nat
  late : Nat
  spoiled : Bool
  outBytes : BitVec 48
  outReqs : Word
  outOver : Word
  deriving DecidableEq, Repr, Inhabited

def Mon.reset : Mon := ⟨0, 0, 0, false, 0, 0, 0⟩

/-- Cone regulation. `sawWait` and `sawIdle` say for each cone whether, in its running window, a time was seen in which a
request of it waited, and one in which none did (R323). -/
structure Cones where
  monEn : Bool
  irqSel : BitVec 2
  throttle : Word
  occ : Word
  stale : BitVec 8
  miss : BitVec 16
  irqEn : BitVec 16
  sawWait : BitVec 8
  sawIdle : BitVec 8
  mons : Table Mon
  deriving DecidableEq, Repr, Inhabited

/-- A programmable counter (R429 to R431). -/
structure Pmc where
  count : BitVec 48
  evt : BitVec 10
  flt : BitVec 17
  agent : BitVec 28
  abase : BitVec 52
  alim : BitVec 52
  deriving DecidableEq, Repr, Inhabited

def Pmc.reset : Pmc := ⟨0, 0, 0x1FFE7, 0, 0, 0⟩

/-- What an event carries for the filters (R430, R431). -/
structure Attr where
  priv : Nat
  agent : Option AgentId
  line : Option LineIx
  cone : Option (BitVec 3)
  cls : Option Nat
  shelf : Option Nat
  deriving DecidableEq, Repr, Inhabited

/-- The counters. `skid` is a sample still to be taken: its counter, the admissions left and the shelf (R432). -/
structure Pmu where
  userEn : Bool
  irqSel : BitVec 2
  ovf : BitVec 8
  latchUser : Word
  latchPriv : Word
  cyc : BitVec 64
  sampAddr : BitVec 52
  sampInfo : Word
  winUs : BitVec 20
  winSeq : Word
  winFclk : Word
  runFclk : Nat
  pmcs : Table Pmc
  skid : Option (Nat × Nat × Nat)
  portIn : Table Nat
  portOut : Table Nat
  outIn : Table Word
  outOut : Table Word
  deriving DecidableEq, Repr, Inhabited

/-! ### Kiln (10, 11) -/

/-- Entry states (R268). -/
inductive KState where
  | unloaded | loaded | reloading | lost
  deriving DecidableEq, Repr, Inhabited

structure KEntry where
  st : KState
  reloads : BitVec 8
  record : Option (BitVec 384)
  deriving DecidableEq, Repr, Inhabited

def KEntry.reset : KEntry := ⟨.unloaded, 0, none⟩

/-- One pass of a firing job on a bank: the token and the entries that fire in it (R274). -/
structure Pass where
  token : Nat
  fires : List Nat
  deriving DecidableEq, Repr, Inhabited

/-- An open firing job (R274, R279): its schedule per bank from the placement map at decode, the map itself, the tokens whose
vector each shelf's broadcaster has asked for, the lines of them still to come as shelf, token and address, the bank that
wrote each output word (R275), and the stream counters. -/
structure Job where
  ctx : Nat
  desc : BitVec 512
  kfmt : Nat
  places : Table (BitVec 256)
  left : Table (List Pass)
  asked : List (Nat × Nat)
  need : List (Nat × Nat × Nat)
  wrote : Table Nat
  headSeen : BitVec 64
  headReading : Bool
  tailOut : BitVec 64
  deriving DecidableEq, Repr, Inhabited

/-- A slot of an accumulation assembler: a target line, the token, and which of its 32 positions hold a sum (R276). -/
structure AsmSlot where
  ctx : Nat
  token : Nat
  line : Nat
  have32 : BitVec 32
  data : Line
  deriving DecidableEq, Repr, Inhabited

/-- A half of a bank's input buffer: the vector of a token of a job, as the lines that have come (R242, R256). -/
structure InHalf where
  ctx : Nat
  token : Nat
  lines : Table Line
  deriving DecidableEq, Repr, Inhabited

/-- The firing periphery of a bank (R242, R257): the halves of its input buffer in use, two of 32 KiB at most; the active and the
filling latches of its mats by coil × 256 + mat, 128 bits and the activation scale above them; its output queue, as the command,
the line and the sums of each write that has not been taken. -/
structure Periphery where
  halves : List InHalf
  active : Table (BitVec 136)
  filling : Table (BitVec 136)
  outq : List (Nat × Nat × Nat)
  deriving DecidableEq, Repr, Inhabited

def Periphery.reset : Periphery := ⟨[], [], [], []⟩

/-- A bank's progress record (R281). -/
structure Progress where
  ctx : Nat
  token : Nat
  pass : Nat
  row : Nat
  deriving DecidableEq, Repr, Inhabited

/-- A reload from the record of an entry: the mats to rewrite, the source lines still to read and those read, and
whether a read was answered with Poison (R269, R284). -/
structure Reload where
  entry : Nat
  mats : List Nat
  need : List Nat
  lines : Table Line
  bad : Bool
  deriving DecidableEq, Repr, Inhabited

structure Peer where
  base : BitVec 52
  size : Word
  valid : Bool
  err : Bool
  deriving DecidableEq, Repr, Inhabited

structure Kiln where
  idx : BitVec 12
  engine : AgentId
  engineValid : Bool
  peers : Table Peer
  entries : Table KEntry
  order : List Nat
  queues : Table (List Nat)
  jobs : List Job
  asmA : List AsmSlot
  asmB : List AsmSlot
  progress : Table (Option Progress)
  peri : Table Periphery
  spareServes : Option Half
  deadSeqs : List Half
  reloads : List Reload
  peerOut : List (Nat × Req)
  peerWait : List (AgentId × Req)
  deriving DecidableEq, Repr, Inhabited

/-! ### Faults, epochs, quench (14, 15) -/

/-- Sparing work in progress: the place that it is for, the spare that is fitted there, and whether a command waits for it (R335,
R340). -/
structure SpareWork where
  unit : FaultUnit
  spare : Nat
  ctx : Option Nat
  deriving DecidableEq, Repr, Inhabited

/-- Spares in service (R17, R18, R335): by place, one more than the number of the mat, tag row or directory way that was fitted
there, where another than its first serves; by shelf, one more than the bank that its spare bank serves as; and how many lanes,
sequencers and cores are taken. -/
structure Spares where
  mats : Table Nat
  banks : Table Nat
  tagRows : Table Nat
  dirWays : Table Nat
  lanes : Table Nat
  farLanes : Table Nat
  seq : Nat
  core : Nat
  deriving DecidableEq, Repr, Inhabited

/-- A unit out of service under test: its consecutive passes, and whether the running pass has failed it (R337). -/
structure Trial where
  unit : FaultUnit
  passed : Nat
  bad : Bool
  deriving DecidableEq, Repr, Inhabited

/-- Faults. `rows` counts the rows that the wedging pass has read in each physical bank, and in each directory slice at 272 + its
shelf; `scrubs` those of each SCRUB. `gone` are the mats, tag rows, directory ways and banks out of service, `back` those that have
passed their tests and wait in their pools, `returned` those that have ever done so, which are not tested again (R337). `lost`
are the lines whose dirty data was lost and is to come from an agent (R331). -/
structure Faults where
  storm : BitVec 16
  ovf : Bool
  noStandby : Bool
  sparesLow : Bool
  wedgeInterval : BitVec 5
  wedgeEn : Bool
  passes : BitVec 16
  logIdx : BitVec 8
  logSeq : Word
  log : Table (BitVec 256)
  unread : Table Bool
  trans : Table Word
  peHdr : BitVec 128
  peDir : BitVec 128
  spares : Spares
  retired : List FaultUnit
  work : List SpareWork
  perUnit : List (FaultUnit × Nat)
  scrubs : List (Nat × Table Nat)
  rows : Table Nat
  testing : List Trial
  gone : List FaultUnit
  back : List FaultUnit
  returned : List FaultUnit
  lost : List LineIx
  portsDown : List FaultUnit
  serving : Bool
  deriving DecidableEq, Repr, Inhabited

/-- Replay of one stripe in quench step 5: entries left, the header line and the old data awaited (R363). -/
structure Replay where
  stripe : Nat
  left : Nat
  hdr : Option Line
  writing : Nat
  deriving DecidableEq, Repr, Inhabited

structure Epoch where
  num : Word
  cur : Bool
  cutStep : Nat
  cutDone : Bool
  cutBy : List Nat
  nextBy : List Nat
  askForced : Bool
  sweep : Bool
  forced : Bool
  fill : Table Nat
  step : Nat
  stepDone : Bool
  goWaits : Bool
  cause : BitVec 4
  isLocal : Bool
  incomplete : Bool
  quenches : BitVec 16
  restored : Word
  dead : List AgentId
  deadFirst : AgentId
  deadCount : BitVec 13
  later : List Nat
  waited : Bool
  replays : List Replay
  spareAt6 : List FaultUnit
  deriving DecidableEq, Repr, Inhabited

/-! ### Pair, firmware, Life Record (14, 16, 17) -/

/-- A mirror frame sent by the slice (R372). -/
inductive MFrame where
  | hello (h : Hello)
  | mwr (line : LineIx) (mask : Mask) (data : Line) (tag : Nat) (result : Option (BitVec 128))
  | mfwd (w : FwdWrite) (tag : Nat)
  | mack (tag : Nat)
  | mreclaim (line : LineIx) (tag : Nat)
  | mpoison (tag : Nat)
  | mrsync (line : LineIx) (data : Line)
  | mcfg (region : Nat) (entry : BitVec 256)
  deriving DecidableEq, Repr, Inhabited

/-- An unanswered mirror frame and who waits for it (R376, R377, R115, R387). -/
inductive MWait where
  | write (line : LineIx)
  | forward (r : Req)
  | reclaim (line : LineIx) (slot : Nat)
  | saggar (r : Req) (result : Option (BitVec 128))
  | resync (granule : Nat)
  deriving DecidableEq, Repr, Inhabited

/-- A granule that the source copies: the lines of it that have been read, and the one whose read is under way (R387). -/
structure Sync where
  granule : Nat
  next : Nat
  reading : Option LineIx
  deriving DecidableEq, Repr, Inhabited

/-- Pair mode. `assign` is the set of mirror ports that frames are spread over, `held` the frames that wait for a change
of it (R372). `walking` marks fenced regions whose fence walk runs (R382), `ever` the regions whose last writer was this slice
(R374), `told` the leases of the last HELLO sent, `delayed` that the delay of R382 is over, `expired` the leases that ran out
during a quench (R369), `twinM` the region entries that the twin last sent (R65), and `sync` the granule being resynchronised (R387). -/
structure Pair where
  link : BitVec 2
  ports : BitVec 2
  assign : BitVec 2
  held : List (LineIx × MFrame)
  mismatch : Bool
  conflict : Bool
  twinVer : BitVec 8
  twin : Option Hello
  lost : Bool
  everLost : Bool
  solo : RegionSet
  soloReady : RegionSet
  fenced : RegionSet
  unmatched : RegionSet
  walking : RegionSet
  writer : RegionSet
  ever : RegionSet
  leases : Table Nat
  seq : BitVec 64
  seqAny : Bool
  full : Bool
  map : Table Bool
  waits : List (Nat × MWait)
  nextTag : Nat
  told : RegionSet
  delayed : Bool
  expired : RegionSet
  sync : Option Sync
  twinM : Table (BitVec 256)
  deriving DecidableEq, Repr, Inhabited

/-- Staging states (R393). -/
inductive Stage where
  | empty | loading | rejected
  deriving DecidableEq, Repr, Inhabited

/-- An active part: ID, type and version (R391). -/
structure Part where
  id : BitVec 8
  type : BitVec 8
  version : Word
  deriving DecidableEq, Repr, Inhabited

structure Firmware where
  stage : Stage
  staging : List Host.Cell
  cover : Table Bool
  header : List Byte
  step : BitVec 3
  trail : BitVec 6
  noStandby : Bool
  bootFail : Bool
  fuseFail : Bool
  partIdx : BitVec 8
  parts : List Part
  imageVer : Word
  mirrorVer : BitVec 8
  mirrorMin : BitVec 8
  defaultBase : List Byte
  nextImage : List Byte
  ctx : Option Nat
  queue : List Nat
  verifying : Bool
  burnTo : Nat
  flipNext : Nat
  pauses : Bool
  deriving DecidableEq, Repr, Inhabited

/-- The Life Record: its 128 KiB, and the working counts not yet written (R344 to R346). `stressMs` counts the milliseconds
of each half and bin since the slot was taken, `clocked` that a half was clocked in the running hour. -/
structure Life where
  bytes : List Host.Cell
  slot : BitVec 3
  fail : Bool
  idx : BitVec 15
  writeSeq : Word
  age : Word
  poh : Word
  arb : Word
  histNext : Word
  fwNext : Word
  fwSeq : Word
  trans : Table Word
  lasting : Table Word
  spares : Table Word
  stress : Table Word
  hist : List (BitVec 256)
  fwHist : List (BitVec 512)
  stressMs : Table Nat
  clocked : Bool
  changed : Bool
  deriving DecidableEq, Repr, Inhabited

/-! ### Clocks, power, boot, links, outputs (18, 20) -/

/-- Sleep state of a half (R411 to R413). -/
inductive HalfState where
  | awake | asking | entering | retained | vddUp | locking | restoring
  deriving DecidableEq, Repr, Inhabited

structure HalfClk where
  st : HalfState
  sel : Bool
  switching : Bool
  cur : Bool
  hung : Bool
  lost : Bool
  recovering : Bool
  wakeAsked : Bool
  acks : List SleepPort
  k : BitVec 6
  droop : Bool
  hold : Bool
  v : BitVec 10
  t : BitVec 8
  fclk : Nat
  pulse : Nat
  deriving DecidableEq, Repr, Inhabited

def HalfClk.reset : HalfClk :=
  ⟨.awake, false, false, false, false, false, false, false, [], 0, false, false, 0, 0, 0, 0⟩

structure Clocks where
  clken0 : BitVec 16
  clken1 : BitVec 22
  lock0 : BitVec 16
  lock1 : BitVec 22
  a : HalfClk
  b : HalfClk
  dozeIdle : BitVec 16
  retCfg : BitVec 19
  doze : BitVec 16
  mgmtRet : Bool
  droopSkip : BitVec 6
  est : BitVec 16
  raw : BitVec 16
  meas : BitVec 16
  measValid : Bool
  window : List (BitVec 16 × BitVec 16 × Bool)
  calK : BitVec 16
  calMiss : BitVec 5
  calHold : Bool
  margin : BitVec 16
  drift : Bool
  holdMs : BitVec 10
  coolStop : Bool
  coolActive : Bool
  coolSeen : Bool
  coolHolding : Bool
  thermHigh : Bool
  ew : Table (BitVec 16)
  eclk : Nat
  deriving DecidableEq, Repr, Inhabited

/-- Steps of the reset sequence and the boot (R452 to R456). `rom` is a ROM boot in progress. -/
inductive BootStep where
  | held | eclkStart | fuses | waitMclk | rom | booting | testing | running | unusable
  deriving DecidableEq, Repr, Inhabited

structure Boot where
  step : BootStep
  sliceBase : BitVec 21
  jtagMfg : BitVec 11
  fuseAddr : BitVec 7
  fuses : BitVec 4096
  port : BitVec 3
  src : BitVec 52
  reading : Bool
  err : BitVec 8
  bistDone : Bool
  bistRetired : Bool
  bistFails : BitVec 16
  scratch : Word
  coreOk : BitVec 2
  tdo : BitVec 64
  deriving DecidableEq, Repr, Inhabited

/-- An agent or near fabric link: credits the partner gave per channel, whether the slice has advertised, the slice's own buffers
that the partner may still fill per channel (R145, R440), the next sequence numbers, the messages of its last 64 beats, those that wait for a credit, and a pending NAK (R440, R441, R328). -/
structure Link where
  credits : Table Nat
  advertised : Bool
  given : Table Nat
  rxSeq : BitVec 7
  txSeq : BitVec 7
  window : List (BitVec 7 × Msg)
  waiting : List Msg
  nak : Option (BitVec 7)
  replays : Nat
  discarding : Bool
  deriving DecidableEq, Repr, Inhabited

def Link.reset : Link := ⟨[], false, [], 0, 0, [], [], none, 0, false⟩

/-- A backing port: the next sequence numbers, the requests of its last 64 beats, and a pending NAK (R328, R441; log 56). -/
structure BackLink where
  rxSeq : BitVec 7
  txSeq : BitVec 7
  window : List (BitVec 7 × BReq)
  nak : Option (BitVec 7)
  replays : Nat
  discarding : Bool
  deriving DecidableEq, Repr, Inhabited

def BackLink.reset : BackLink := ⟨0, 0, [], none, 0, false⟩

/-- A far port: trained lanes, training in progress, its flits not yet acknowledged and the first of them that has not been sent, and
the flit whose replay it waits for (R444, R328). -/
structure FarLink where
  train : BitVec 18
  lanes : BitVec 18
  active : List Nat
  up : Bool
  retry : Bool
  txSeq : Nat
  buffer : List (Nat × MFrame)
  unsent : Nat
  replayFrom : Option Nat
  deriving DecidableEq, Repr, Inhabited

def FarLink.reset : FarLink := ⟨0, 0, [], false, false, 0, [], 0, none⟩

structure Links where
  agent : Table Link
  near : Table Link
  far : Table FarLink
  back : Table BackLink
  deriving DecidableEq, Repr, Inhabited

/-- The event queue (R448). -/
structure Events where
  irqSel : BitVec 2
  irqEn : Bool
  queue : List (BitVec 256)
  dropped : BitVec 16
  head : BitVec 256
  deriving DecidableEq, Repr, Inhabited

/-- An APB access held with PREADY low for a wake (R414): its address, the value of a write, PPROT[0]. -/
structure Held where
  addr : BitVec 18
  write : Option Word
  priv : Bool
  deriving DecidableEq, Repr, Inhabited

/-- The APB slave's last answer, and the access it holds for a wake (R446, R414). -/
structure Apb where
  rdata : Word
  slverr : Bool
  held : Option Held
  deriving DecidableEq, Repr, Inhabited

/-- What the slice has sent and drives: messages and mirror frames in the order sent, fuse requests, and output levels
(R438 table, R451, R445). -/
structure Out where
  msgs : List Msg
  mirror : List (Nat × MFrame)
  fuseBurn : Option (BitVec 12)
  quenchReq : Bool
  epochReq : Bool
  qstepDone : Bool
  slpReq : List SleepPort
  vreqA : BitVec 2
  vreqB : BitVec 2
  pllA : BitVec 2
  pllB : BitVec 2
  deriving DecidableEq, Repr, Inhabited

/-- The state of the slice and its queue of waiting commands. -/
structure State where
  pending : List Instr
  free : Nat
  boot : Boot
  apb : Apb
  evt : Events
  syb : Sybin
  glaze : Glaze
  agents : Agents
  shelves : Table Shelf
  arr : Arrays
  dir : Directory
  home : Home
  back : Backing
  rings : Table Ring
  cmds : Cmds
  ranges : Ranges
  tly : Tallies
  cone : Cones
  pmu : Pmu
  kiln : Kiln
  flt : Faults
  ep : Epoch
  pair : Pair
  fw : Firmware
  life : Life
  ckp : Clocks
  links : Links
  out : Out
  deriving DecidableEq, Repr

/-- Faults: none of the slice's commands stops it; the type is kept for the interface. -/
inductive Fault where
  /-- Never raised: the spec names no condition that stops the slice. Safe. -/
  | none
  deriving DecidableEq, Repr

/-- Refusals. -/
inductive Refusal where
  /-- A row without a meaning. Raised by an arm of `exec` that has none; safe. -/
  | notModelled (mnemonic : String)
  /-- A write to a self-test controller of the IEEE 1687 network, whose effect the spec does not give (R450, log 11).
  Raised by IJTAG_ACCESS on that access alone; safe. -/
  | selfTestController
  deriving DecidableEq, Repr

def Boot.reset : Boot :=
  { step := .held, sliceBase := 0, jtagMfg := 0, fuseAddr := 0, fuses := 0, port := 0, src := 0, reading := false,
    err := 0, bistDone := false, bistRetired := false, bistFails := 0, scratch := 0, coreOk := 0, tdo := 0 }

def Clocks.reset : Clocks :=
  { clken0 := 0, clken1 := 0, lock0 := 0, lock1 := 0, a := HalfClk.reset, b := HalfClk.reset, dozeIdle := 1024,
    retCfg := 0x30064, doze := 0, mgmtRet := false, droopSkip := 32, est := 0, raw := 0, meas := 0,
    measValid := false, window := [], calK := 0x4000, calMiss := 0, calHold := false, margin := 1200, drift := false,
    holdMs := 100, coolStop := false, coolActive := false, coolSeen := false, coolHolding := false,
    thermHigh := false,
    ew := [(0, 398), (1, 104), (2, 70), (3, 208), (4, 9000), (5, 1000), (6, 2000)], eclk := 0 }

def Life.blank : Life :=
  { bytes := [], slot := 0, fail := false, idx := 0, writeSeq := 0, age := 0, poh := 0, arb := 0, histNext := 0,
    fwNext := 0, fwSeq := 0, trans := [], lasting := [], spares := [], stress := [], hist := [], fwHist := [],
    stressMs := [], clocked := false, changed := false }

/-- The slice right after reset: every register at the value its table gives, nothing queued, no base, no agent, the
arrays as log 1 names them, the Life Record's contents as log 12 names them. -/
def State.reset : State :=
  { pending := [], free := 0, boot := Boot.reset, apb := ⟨0, false, none⟩, evt := ⟨0, false, [], 0, 0⟩,
    syb := { state := .config, err := 0, src := 0, len := 0, serial := 0, ovlGen := 0, digest := 0, cfg := Cfg.empty,
             loadDefault := false, loadLen := 0 },
    glaze := Glaze.closed,
    agents := ⟨0, 0x1000, [], 0, 0, false, 0⟩,
    shelves := [], arr := ⟨[], [], [], [], []⟩, dir := ⟨[], [], []⟩, home := ⟨[], [], [], [], []⟩,
    back := ⟨[], [], [], [], 0, []⟩, rings := [], cmds := ⟨[], 0, [], [], 0, 0⟩, ranges := ⟨[], [], 0, none, 0⟩,
    tly := ⟨[], 0, false, 0, []⟩,
    cone := ⟨true, 0, 0xFEDCBA98, 0, 0, 0, 0, 0, 0, []⟩,
    pmu := { userEn := false, irqSel := 0, ovf := 0, latchUser := 0, latchPriv := 0, cyc := 0, sampAddr := 0,
             sampInfo := 0, winUs := 1000, winSeq := 0, winFclk := 0, runFclk := 0, pmcs := [], skid := none,
             portIn := [], portOut := [], outIn := [], outOut := [] },
    kiln := { idx := 0, engine := 0, engineValid := false, peers := [], entries := [], order := [], queues := [],
              jobs := [], asmA := [], asmB := [], progress := [], peri := [], spareServes := none, deadSeqs := [], reloads := [],
              peerOut := [], peerWait := [] },
    flt := { storm := 1000, ovf := false, noStandby := false, sparesLow := false, wedgeInterval := 12, wedgeEn := true,
             passes := 0, logIdx := 0, logSeq := 0, log := [], unread := [], trans := [], peHdr := 0, peDir := 0,
             spares := ⟨[], [], [], [], [], [], 0, 0⟩, retired := [], work := [], perUnit := [], scrubs := [],
             rows := [], testing := [], gone := [], back := [], returned := [], lost := [], portsDown := [], serving := true },
    ep := { num := 0, cur := false, cutStep := 0, cutDone := false, cutBy := [], nextBy := [], askForced := false,
            sweep := false, forced := false, fill := [], step := 0, stepDone := false, goWaits := false, cause := 0, isLocal := false,
            incomplete := false, quenches := 0, restored := 0, dead := [], deadFirst := 0, deadCount := 0, later := [],
            waited := false, replays := [], spareAt6 := [] },
    pair := { link := 0, ports := 0, assign := 0, held := [], mismatch := false, conflict := false, twinVer := 0, twin := none, lost := false,
              everLost := false, solo := 0, soloReady := 0, fenced := 0, unmatched := 0, walking := 0, writer := 0,
              ever := 0, leases := [], seq := 0, seqAny := false, full := false, map := [], waits := [], nextTag := 0,
              told := 0, delayed := false, expired := 0, sync := none, twinM := [] },
    fw := { stage := .empty, staging := [], cover := [], header := [], step := 0, trail := 0, noStandby := false,
            bootFail := false, fuseFail := false, partIdx := 0, parts := [], imageVer := 0, mirrorVer := 0,
            mirrorMin := 0, defaultBase := [], nextImage := [], ctx := none, queue := [], verifying := false,
            burnTo := 0, flipNext := 0, pauses := false },
    life := Life.blank, ckp := Clocks.reset, links := ⟨[], [], [], []⟩,
    out := { msgs := [], mirror := [], fuseBurn := none, quenchReq := false, epochReq := false, qstepDone := false,
             slpReq := [], vreqA := 2, vreqB := 2, pllA := 0, pllB := 0 } }

end Sys2Proof.Machine
end

