-- ==== Sys2Proof/Machine/Operands.lean ====
section
/-! DEFINITION. The operand forms of the commands: the fields of a message header (R137) with its check (R138), of a
region-table, cone-table and placement entry (R44, R45, R76, R247), and of the configuration that they make up. -/
namespace Sys2Proof.Machine

/-! ### Message headers (R137, R138) -/

def Hdr.msg (h : Hdr) : Nat := bits h.toNat 5 0
def Hdr.srcHome (h : Hdr) : Bool := bit h.toNat 6
def Hdr.dstHome (h : Hdr) : Bool := bit h.toNat 7
def Hdr.src (h : Hdr) : AgentId := h.extractLsb' 8 12
def Hdr.dst (h : Hdr) : AgentId := h.extractLsb' 20 12
def Hdr.line (h : Hdr) : LineIx := h.extractLsb' 32 45
def Hdr.txn (h : Hdr) : BitVec 11 := h.extractLsb' 77 11
def Hdr.cone (h : Hdr) : BitVec 3 := h.extractLsb' 88 3
def Hdr.scope (h : Hdr) : BitVec 2 := h.extractLsb' 91 2
def Hdr.spec (h : Hdr) : Bool := bit h.toNat 93
def Hdr.wait (h : Hdr) : Bool := bit h.toNat 94
def Hdr.dirty (h : Hdr) : Bool := bit h.toNat 95
def Hdr.req (h : Hdr) : AgentId := h.extractLsb' 96 12
def Hdr.noxfer (h : Hdr) : Bool := bit h.toNat 108
def Hdr.nocache (h : Hdr) : Bool := bit h.toNat 109
def Hdr.reqHome (h : Hdr) : Bool := bit h.toNat 110
def Hdr.aop (h : Hdr) : BitVec 8 := h.extractLsb' 112 8

/-- Message codes (R138). -/
def mRdS : Nat := 0x00
def mRdX : Nat := 0x01
def mUpg : Nat := 0x02
def mRdV : Nat := 0x03
def mRdNC : Nat := 0x04
def mWrL : Nat := 0x05
def mWrP : Nat := 0x06
def mAtom : Nat := 0x07
def mPutS : Nat := 0x10
def mPutE : Nat := 0x11
def mPutM : Nat := 0x12
def mPutO : Nat := 0x13
def mFwdS : Nat := 0x20
def mFwdX : Nat := 0x21
def mInv : Nat := 0x22
def mRecall : Nat := 0x23
def mDataS : Nat := 0x30
def mDataE : Nat := 0x31
def mDataM : Nat := 0x32
def mAck : Nat := 0x33
def mInvAck : Nat := 0x34
def mFwdAck : Nat := 0x35
def mWbAck : Nat := 0x36
def mWbAckStale : Nat := 0x37
def mCmp : Nat := 0x38
def mFire : Nat := 0x39
def mCrack : Nat := 0x3A
def mPoison : Nat := 0x3B

/-- The codes that R138 lists. -/
def knownCodes : List Nat :=
  [mRdS, mRdX, mUpg, mRdV, mRdNC, mWrL, mWrP, mAtom, mPutS, mPutE, mPutM, mPutO, mFwdS, mFwdX, mInv, mRecall,
   mDataS, mDataE, mDataM, mAck, mInvAck, mFwdAck, mWbAck, mWbAckStale, mCmp, mFire, mCrack, mPoison]

/-- Class of a message: 0 REQ, 1 WBK, 2 FWD, 3 RSP (R137). -/
def classOf (code : Nat) : Nat := bits code 5 4

/-- A flag that is set stands on a code that uses it. -/
def usedOn (v : Bool) (code : Nat) (codes : List Nat) : Bool := !v || codes.contains code

/-- A header keeps R137: the code is known, a home end carries no ID, reserved bits and every field that the message
does not use are 0. What answers a Recall carries no requester and no WAIT, only a DataM to the home or a FwdAck carries DIRTY,
and no agent's message to the home is marked as greenware. SCOPE and CONE may stand on any message (log 17). -/
def headerKeeps (h : Hdr) : Bool :=
  let c := Hdr.msg h
  knownCodes.contains c
  && (!Hdr.srcHome h || Hdr.src h == 0) && (!Hdr.dstHome h || Hdr.dst h == 0)
  && usedOn (Hdr.spec h) c [mDataS, mDataM] && usedOn (Hdr.wait h) c [mDataM, mFwdX]
  && usedOn (Hdr.dirty h) c [mFwdAck, mDataM] && usedOn (Hdr.noxfer h) c [mFwdS]
  && usedOn (Hdr.nocache h) c [mDataS] && usedOn (Hdr.reqHome h) c [mFwdS, mDataS, mFwdAck]
  && usedOn (Hdr.req h != 0) c [mFwdS, mFwdX, mDataS, mDataM, mFwdAck] && (Hdr.req h == 0 || !Hdr.reqHome h)
  && !(Hdr.dstHome h && c == mDataM && (Hdr.req h != 0 || Hdr.wait h)) && !(Hdr.dstHome h && Hdr.spec h)
  && !(Hdr.dirty h && c == mDataM && !Hdr.dstHome h)
  && usedOn (Hdr.aop h != 0) c [mAtom] && !bit h.toNat 111 && bits h.toNat 127 120 == 0

/-- A header that an agent sends to a home with code c: R137 holds and DST_HOME alone marks a home (R138). -/
def toHomeOk (h : Hdr) (c : Nat) : Bool :=
  headerKeeps h && Hdr.msg h == c && Hdr.dstHome h && !Hdr.srcHome h

/-! ### Region entries (R44, R76) -/

abbrev Region := BitVec 256

def Region.base (r : Region) : Nat := bits r.toNat 63 0
def Region.size (r : Region) : Nat := bits r.toNat 127 64
def Region.space (r : Region) : Nat := bits r.toNat 135 128
def Region.pclass (r : Region) : Nat := bits r.toNat 143 136
def Region.valid (r : Region) : Bool := bit r.toNat 144
def Region.attr (r : Region) : Nat := bits r.toNat 191 160
def Region.wpol (r : Region) : Nat := bits (Region.attr r) 1 0
def Region.glazeEn (r : Region) : Bool := bit (Region.attr r) 2
def Region.specOk (r : Region) : Bool := bit (Region.attr r) 3
def Region.strictDead (r : Region) : Bool := bit (Region.attr r) 4
def Region.pinOk (r : Region) : Bool := bit (Region.attr r) 5
def Region.half (r : Region) : Nat := bits (Region.attr r) 7 6
def Region.sliceWays (r : Region) : Nat := bits (Region.attr r) 10 8
def Region.slicePos (r : Region) : Nat := bits (Region.attr r) 14 11
def Region.redOp (r : Region) : Nat := bits (Region.attr r) 18 16
def Region.redFmt (r : Region) : Nat := bits (Region.attr r) 21 19
def Region.redSr (r : Region) : Bool := bit (Region.attr r) 22
def Region.access (r : Region) : Nat := bits (Region.attr r) 25 24
def Region.kfmt (r : Region) : Nat := bits (Region.attr r) 29 26

def Region.holds (r : Region) (a : Nat) : Bool :=
  Region.valid r && decide (Region.base r ≤ a) && decide (a < Region.base r + Region.size r)

/-- Spaces (R44) and protection classes (R79). -/
def spCache : Nat := 0
def spSaggar : Nat := 1
def spKiln : Nat := 2
def pcP : Nat := 1
def pcM : Nat := 2
def pcE : Nat := 3

/-! ### Cone entries (R45) -/

def Cfg.cone (c : Cfg) (i : Nat) : Nat := (tget 0 c.cones i).toNat
def Cfg.frameShare (c : Cfg) (i : Nat) : Nat := bits (c.cone i) 7 0
def Cfg.queueShare (c : Cfg) (i : Nat) : Nat := bits (c.cone i) 15 8
def Cfg.backingShare (c : Cfg) (i : Nat) : Nat := bits (c.cone i) 23 16
def Cfg.pourLen (c : Cfg) (i : Nat) : Nat := bits (c.cone i) 31 24
def Cfg.minBw (c : Cfg) (i : Nat) : Nat := bits (c.cone i) 63 32
def Cfg.latTarget (c : Cfg) (i : Nat) : Nat := bits (c.cone i) 79 64
def Cfg.latPctl (c : Cfg) (i : Nat) : Nat := bits (c.cone i) 87 80
def Cfg.window (c : Cfg) (i : Nat) : Nat := bits (c.cone i) 95 88

/-! ### The other sections (R42 to R50) -/

def modeCache : Nat := 0
def modeSaggar : Nat := 1
def modeKiln : Nat := 2

def Cfg.mode (c : Cfg) (bank : Nat) : Nat := (tget 0 c.modes bank).toNat
def Cfg.region (c : Cfg) (i : Nat) : Region := tget 0 c.regions i
def Cfg.specEn (c : Cfg) : Bool := bit c.protocol.toNat 8
def Cfg.scopeAudit (c : Cfg) : Bool := bit c.protocol.toNat 9
def Cfg.protocolId (c : Cfg) : Nat := bits c.protocol.toNat 7 0
/-- Hop distance from location a to location b (R47). -/
def Cfg.hop (c : Cfg) (a b : Nat) : Nat := bits (tget 0 c.hops a).toNat (4 * b + 3) (4 * b)
def Cfg.undoBase (c : Cfg) : Nat := bits c.protect.toNat 63 0
def Cfg.undoSize (c : Cfg) : Nat := bits c.protect.toNat 71 64
def Cfg.pairEn (c : Cfg) : Bool := bits c.pair.toNat 7 0 == 1
def Cfg.mirrorPorts (c : Cfg) : Nat := bits c.pair.toNat 9 8
def Cfg.twinId (c : Cfg) : Nat := bits c.pair.toNat 27 16
def Cfg.witnessId (c : Cfg) : Nat := bits c.pair.toNat 63 32
def Cfg.mirrorTimeout (c : Cfg) : Nat := bits c.pair.toNat 79 64

/-- The region of a space that holds an address. No two valid regions of one space overlap (R52). -/
def Cfg.find (c : Cfg) (space a : Nat) : Option (Nat × Region) :=
  c.regions.find? (fun p => Region.space p.2 == space && Region.holds p.2 a)

/-- A line of a cache region is homed in this slice (R72). -/
def homedHere (r : Region) (a : Nat) : Bool :=
  Region.sliceWays r == 0 || (a >>> 12) % 2 ^ Region.sliceWays r == Region.slicePos r

/-- The 15-bit hash of a line index (R74). -/
def Cfg.lineHash (c : Cfg) (l : Nat) : Nat :=
  let x := (l ^^^ c.seed.toNat) % 2 ^ 45
  bits x 14 0 ^^^ bits x 29 15 ^^^ bits x 44 30

/-- The candidate list of a region's lines (R74). -/
def Cfg.candidates (c : Cfg) (r : Region) : List Nat :=
  if c.hash == 1 && Region.half r == 1 then c.homing.filter (· < 8)
  else if c.hash == 1 && Region.half r == 2 then c.homing.filter (8 ≤ ·)
  else c.homing

/-- Home shelf and home bank of a line of a region (R74). -/
def Cfg.homeShelf (c : Cfg) (r : Region) (l : Nat) : Nat :=
  let cs := c.candidates r
  cs.getD (c.lineHash l % cs.length) 0
def Cfg.homeBank (c : Cfg) (r : Region) (l : Nat) : Nat := 16 * c.homeShelf r l + bits (c.lineHash l) 7 4

/-- Where an address lies (R66 to R71): a cache region whose line is homed here, a saggar or kiln region, a tally, or
nothing that the slice serves. -/
inductive Place where
  | cache (i : Nat) (r : Region)
  | saggar (i : Nat) (r : Region)
  | kiln (i : Nat) (r : Region)
  | tally (t : Nat)
  | nowhere
  deriving DecidableEq, Repr, Inhabited

/-- The place of byte address a, for the slice window at base b (R67, R68, R71, R72). -/
def Cfg.place (c : Cfg) (b a : Nat) : Place :=
  if b ≤ a && a < b + 2 ^ 31 then
    let o := a - b
    if o < 2 ^ 30 then
      match c.find spSaggar a with
      | some (i, r) => .saggar i r
      | none => match c.find spKiln a with
        | some (i, r) => .kiln i r
        | none => .nowhere
    else if o < 2 ^ 30 + 8192 then .tally ((o - 2 ^ 30) / 8) else .nowhere
  else match c.find spCache a with
    | some (i, r) => if homedHere r a then .cache i r else .nowhere
    | none => .nowhere

/-! ### Placement entries (R247) and agent-table entries (R150) -/

def Agent.loc (a : Agent) : Nat := bits a.cfg.toNat 5 0
def Agent.group (a : Agent) : Nat := bits a.cfg.toNat 11 6
def Agent.caching (a : Agent) : Bool := bit a.cfg.toNat 13
def Agent.specOk (a : Agent) : Bool := bit a.cfg.toNat 14
def Agent.bdirect (a : Agent) : Bool := bit a.cfg.toNat 15
def Agent.die (a : Agent) : Nat := bits a.cfg.toNat 19 16
def Agent.remote (a : Agent) : Bool := bit a.cfg.toNat 20

/-- Set and tag of a line in its home bank, and the line of a tag and set (R88). -/
def foldSet (l : Nat) : Nat := bits l 10 0 ^^^ bits l 21 11 ^^^ bits l 32 22 ^^^ bits l 43 33
def lineTag (l : Nat) : Nat := bits l 44 11
def lineOfTag (tag set : Nat) : Nat :=
  let hi := tag <<< 11
  hi + (set ^^^ bits hi 21 11 ^^^ bits hi 32 22 ^^^ bits hi 43 33)

/-- Directory set and tag of a line (R131). -/
def dirSet (l : Nat) : Nat := bits l 13 0 ^^^ bits l 27 14 ^^^ bits l 41 28 ^^^ bits l 44 42
def dirTag (l : Nat) : Nat := bits l 44 14
def lineOfDir (tag set : Nat) : Nat :=
  let hi := tag <<< 14
  hi + (set ^^^ bits hi 27 14 ^^^ bits hi 41 28 ^^^ bits hi 44 42)

/-- The half of a shelf (R12). -/
def shelfHalf (s : Nat) : Half := if s < 8 then .a else .b

end Sys2Proof.Machine

namespace Sys2Proof

/-- The half of a port (R22). -/
def Port.half : Port → Half
  | .agent n => if n.val < 16 then .a else .b
  | .near n => if n.val < 2 then .a else .b
  | .far n => if n.val < 1 then .a else .b

/-- The shelf at which a port attaches (R22). -/
def Port.shelf : Port → Nat
  | .agent n => n.val / 2
  | .near n => 4 * n.val + 1
  | .far n => 8 * n.val + 3

/-- Index of a port in the byte counters (R435). -/
def Port.index : Port → Nat
  | .agent n => n.val
  | .near n => 40 + n.val
  | .far n => 44 + n.val

end Sys2Proof
end

