-- ==== Sys2Proof/Machine/Ops.lean ====
section
/-! DEFINITION. The named operations over the state that the meanings share: free values, access to shelves, agents and
arrays, events, counting, messages out with credits, tallies and interrupt bookkeeping. A block has no exception entry;
an event and an interrupt line are how it reports (R447, R448). -/
namespace Sys2Proof.Machine

/-- Draw the next free value (log 7). -/
def State.draw (s : State) : BitVec 64 × State := (Config.freeBits s.free, { s with free := s.free + 1 })

/-! ### Records of the state -/

def State.shelf (s : State) (i : Nat) : Shelf := tget Shelf.reset s.shelves i
def State.modShelf (s : State) (i : Nat) (f : Shelf → Shelf) : State :=
  { s with shelves := tmod Shelf.reset s.shelves i f }

def State.agent (s : State) (id : AgentId) : Agent := tget Agent.absent s.agents.table id.toNat
def State.setAgent (s : State) (id : AgentId) (a : Agent) : State :=
  { s with agents := { s.agents with table := tset Agent.absent s.agents.table id.toNat a } }
/-- The agent has joined, and its entry is not being removed (R150, R153). -/
def State.joined (s : State) (id : AgentId) : Bool := (s.agent id).st == .yes
/-- Agents that must still answer FWD messages (R153). -/
def State.present (s : State) (id : AgentId) : Bool := (s.agent id).st == .yes || (s.agent id).st == .leaving

def State.ring (s : State) (i : Nat) : Ring := tget Ring.reset s.rings i
def State.modRing (s : State) (i : Nat) (f : Ring → Ring) : State :=
  { s with rings := tmod Ring.reset s.rings i f }
def State.ctx (s : State) (i : Nat) : Ctx := tget Ctx.free s.cmds.ctxs i
def State.modCtx (s : State) (i : Nat) (f : Ctx → Ctx) : State :=
  { s with cmds := { s.cmds with ctxs := tmod Ctx.free s.cmds.ctxs i f } }

/-- The firing job of a command, the kiln commands of a bank in kiln order, and its periphery (R242, R261, R279). -/
def State.job (s : State) (c : Nat) : Option Job := s.kiln.jobs.find? (fun j => j.ctx == c)
def State.modJob (s : State) (c : Nat) (f : Job → Job) : State :=
  { s with kiln := { s.kiln with jobs := modFirst (fun j => j.ctx == c) f s.kiln.jobs } }
def State.bankQueue (s : State) (b : Nat) : List Nat := tget [] s.kiln.queues b
def State.peri (s : State) (b : Nat) : Periphery := tget Periphery.reset s.kiln.peri b
def State.modPeri (s : State) (b : Nat) (f : Periphery → Periphery) : State :=
  { s with kiln := { s.kiln with peri := tmod Periphery.reset s.kiln.peri b f } }

def State.cfg (s : State) : Cfg := s.syb.cfg
/-- A base is active (R53, R54). -/
def State.active (s : State) : Bool := s.syb.state == .active
/-- A quench is in progress: its step is not 0 (R363). -/
def State.quenching (s : State) : Bool := s.ep.step != 0

/-- Base of the slice window (R67). -/
def State.window (s : State) : Nat := s.boot.sliceBase.toNat * 2 ^ 31
def State.place (s : State) (a : Nat) : Place := s.cfg.place s.window a
def lineAddr (l : LineIx) : Nat := l.toNat * 128
def lineIx (a : Nat) : LineIx := BitVec.ofNat 45 (a / 128)

/-- The cache region of a line that is homed here. -/
def State.regionOf (s : State) (l : LineIx) : Option (Nat × Region) :=
  match s.place (lineAddr l) with
  | .cache i r => some (i, r)
  | _ => none
def State.homeShelf (s : State) (l : LineIx) : Nat :=
  match s.regionOf l with
  | some (_, r) => s.cfg.homeShelf r l.toNat
  | none => 0
def State.homeBank (s : State) (l : LineIx) : Nat :=
  match s.regionOf l with
  | some (_, r) => s.cfg.homeBank r l.toNat
  | none => 0
def State.pclass (s : State) (l : LineIx) : Nat :=
  match s.regionOf l with
  | some (_, r) => Region.pclass r
  | none => 0
def State.half (s : State) : Half → HalfClk
  | .a => s.ckp.a
  | .b => s.ckp.b
def State.setHalf (s : State) (h : Half) (c : HalfClk) : State :=
  match h with
  | .a => { s with ckp := { s.ckp with a := c } }
  | .b => { s with ckp := { s.ckp with b := c } }

/-- The shelf is awake: it does not doze, and its half is not asleep (R410, R411). -/
def State.shelfUp (s : State) (sh : Nat) : Bool := !s.ckp.doze.getLsbD sh && (s.half (shelfHalf sh)).st == .awake

/-! ### The shelves' copies of the agent table (R37, R151) -/

/-- Every awake shelf updates its copy of the agent table; the copy of one that sleeps is updated when it wakes (R37, R151). -/
def State.spreadAgents (s : State) : State :=
  (List.range 16).foldl (fun st i => st.modShelf i (fun h =>
    if st.shelfUp i then { h with agents := s.agents.table, agentsOld := false } else { h with agentsOld := true })) s
/-- A shelf that has woken updates its copy before it serves a request (R151). -/
def State.freshAgents (s : State) : State :=
  (List.range 16).foldl (fun st i => if st.shelfUp i && (st.shelf i).agentsOld then
    st.modShelf i (fun h => { h with agents := s.agents.table, agentsOld := false }) else st) s
/-- The entry of an agent in the copy of a shelf. -/
def State.agentAt (s : State) (sh : Nat) (id : AgentId) : Agent := tget Agent.absent (s.shelf sh).agents id.toNat

/-! ### The arrays (R13, R69, R332) -/

/-- Write bytes from an address up; the bytes of the mask that are clear keep their value. -/
def setBytes (t : List Host.Cell) (base : Nat) : List Byte → Mask → Nat → List Host.Cell
  | [], _, _ => t
  | b :: r, m, i => setBytes (if m.getLsbD i then tset 0 t (base + i) b else t) base r m (i + 1)

def State.arrByte (s : State) (a : Nat) : Byte := tget 0 s.arr.bytes a
/-- The 128 bytes of the arrays from address a. -/
def State.arrLine (s : State) (a : Nat) : Line :=
  lineOfBytes ((List.range 128).map (fun i => s.arrByte (a + i)))
def State.setArr (s : State) (a : Nat) (l : Line) (m : Mask) : State :=
  { s with arr := { s.arr with bytes := setBytes s.arr.bytes a (lineBytes l) m 0 } }
def State.poisoned (s : State) (ix : Nat) : Bool := tget false s.arr.poison ix
def State.setPoison (s : State) (ix : Nat) (b : Bool) : State :=
  { s with arr := { s.arr with poison := tset false s.arr.poison ix b } }
/-- Zero every byte whose address satisfies a test; POISON of the lines that satisfy theirs is cleared. -/
def State.zeroArr (s : State) (p : Nat → Bool) : State :=
  { s with arr := { s.arr with bytes := s.arr.bytes.filter (fun c => !p c.1)
                               poison := s.arr.poison.filter (fun c => !p (c.1 * 128)) } }

/-! ### Events (R448, R468) -/

/-- The two words of an address field. -/
def addrWords (a : Nat) : List Nat := [a % 2 ^ 32, a / 2 ^ 32]
/-- Source 0xFF: the slice. -/
def srcSlice : Nat := 0xFF
def srcHalf : Half → Nat
  | .a => 0x10
  | .b => 0x11
def halfIx : Half → Nat
  | .a => 0
  | .b => 1
/-- The agent-ID field of an event that no agent's request caused. -/
def noAgent : Nat := 0xFFFFFFFF

/-- The 256-bit entry of an event. -/
def eventEntry (code src stamp : Nat) (fields : List Nat) : BitVec 256 :=
  BitVec.ofNat 256 ((code + src * 2 ^ 16) + (stamp % 2 ^ 32) * 2 ^ 32 +
    leNat ((fields.take 6).flatMap (fun w => bytesLE 4 (w % 2 ^ 32))) * 2 ^ 64)

/-- Raise an event: queue it, or count it as dropped when 512 are queued (R448). -/
def State.event (s : State) (code src : Nat) (fields : List Nat) : State :=
  if s.evt.queue.length < 512 then
    { s with evt := { s.evt with queue := s.evt.queue ++ [eventEntry code src s.ckp.eclk fields] } }
  else { s with evt := { s.evt with dropped := satAdd s.evt.dropped 1 } }

/-! ### Performance counters (R429 to R433) -/

def Attr.internal : Attr := ⟨2, .none, .none, .none, .none, .none⟩
/-- Internal activity on a line. -/
def Attr.ofLine (l : LineIx) (c : BitVec 3) : Attr := ⟨2, .none, some l, some c, .none, .none⟩
def Pmc.code (p : Pmc) : Nat := bits p.evt.toNat 7 0
def Pmc.en (p : Pmc) : Bool := bit p.evt.toNat 8
def Pmc.ovfIrq (p : Pmc) : Bool := bit p.evt.toNat 9

/-- The filters of a counter (R430). -/
def Pmc.passes (p : Pmc) (a : Attr) : Bool :=
  let f := p.flt.toNat
  (bits f 2 0 == 7 || bit f a.priv)
  && (!bit f 3 || match a.agent with
      | some id => (id.toNat ^^^ bits p.agent.toNat 11 0) &&& bits p.agent.toNat 27 16 == 0
      | none => false)
  && (!bit f 4 || match a.line with
      | some l => decide (p.abase.toNat / 128 ≤ l.toNat) && decide (l.toNat ≤ p.alim.toNat / 128)
      | none => false)
  && (bits f 12 5 == 0xFF || match a.cone with
      | some c => bit f (5 + c.toNat)
      | none => false)
  && (bits f 16 13 == 0xF || match a.cls with
      | some m => bit f (13 + m)
      | none => false)

/-- Take the sample of counter n from a request (R432). -/
def State.sample (s : State) (n : Nat) (a : Attr) : State :=
  let addr := match a.line with
    | some l => l.toNat * 128
    | none => 0
  let who := match a.agent with
    | some id => id.toNat + ((a.cone.getD 0).toNat <<< 12) + ((a.cls.getD 0) <<< 15) + 2 ^ 25
    | none => 0
  let lost := bits s.pmu.sampInfo.toNat 30 30
  { s with pmu := { s.pmu with sampAddr := BitVec.ofNat 52 addr
                               sampInfo := BitVec.ofNat 32 (who + (n <<< 17) + ((a.shelf.getD 0) <<< 20)
                                 + (b2n a.line.isSome <<< 24) + (lost <<< 30) + 2 ^ 31) } }

/-- Counter n wraps: OVF is set, and with OVF_IRQ a sample is taken of this request or of one of the next 16 admitted
at its shelf, a free choice, or LOST is set (R429, R432). -/
def State.wrapPmc (s : State) (n : Nat) (a : Attr) : State :=
  let s1 := { s with pmu := { s.pmu with ovf := setBit s.pmu.ovf n true } }
  if !(tget Pmc.reset s.pmu.pmcs n).ovfIrq then s1
  else if bit s1.pmu.sampInfo.toNat 31 || s1.pmu.skid.isSome then
    { s1 with pmu := { s1.pmu with sampInfo := s1.pmu.sampInfo ||| 0x40000000#32 } }
  else match a.agent, a.shelf with
    | some _, some sh =>
      let (v, s2) := s1.draw
      if v.toNat % 17 = 0 then s2.sample n a
      else { s2 with pmu := { s2.pmu with skid := some (n, v.toNat % 17, sh) } }
    | _, _ => s1.sample n a

/-- Counter n takes an occurrence of an event (R429). -/
def State.countOn (s : State) (n code : Nat) (a : Attr) (inc : Nat) : State :=
  let p := tget Pmc.reset s.pmu.pmcs n
  if p.en && p.code == code && p.passes a then
    let s1 := { s with pmu := { s.pmu with
      pmcs := tset Pmc.reset s.pmu.pmcs n { p with count := p.count + BitVec.ofNat 48 inc } } }
    if p.count.toNat + inc < 2 ^ 48 then s1 else s1.wrapPmc n a
  else s

/-- Every counter takes an occurrence of an event (R429, R431). -/
def State.count (s : State) (code : Nat) (a : Attr) (inc : Nat) : State :=
  (s.pmu.pmcs.map Prod.fst).foldl (fun s n => s.countOn n code a inc) s

/-- A request admitted at a shelf, as the skid of a pending sample counts them (R432). -/
def State.skidStep (s : State) (a : Attr) : State :=
  match s.pmu.skid, a.shelf with
  | some (n, k, sh), some sh' =>
    if sh = sh' then
      if k ≤ 1 then { s.sample n a with pmu := { (s.sample n a).pmu with skid := none } }
      else { s with pmu := { s.pmu with skid := some (n, k - 1, sh) } }
    else s
  | _, _ => s

/-! ### Messages out (R138, R435, R439 to R441) -/

def Msg.empty : Msg :=
  { port := none, code := 0, toHome := false, src := 0, dst := 0, line := 0, txn := 0, cone := 0, scope := 0,
    spec := false, wait := false, req := 0, noxfer := false, nocache := false, reqHome := false, aop := 0,
    data := none, mask := 0, result := none, born := none }

/-- Payload bytes of a message (R138). -/
def Msg.payload (m : Msg) : Nat :=
  (if m.data.isSome then 128 else 0) + (if m.result.isSome then 16 else 0) + (if m.code.toNat == mWrP then 16 else 0)

/-- Beats of a message on its link, outward (R439). -/
def beatsOut (p : Port) (m : Msg) : Nat :=
  let w := match p with
    | .agent _ => 128
    | _ => 512
  max 1 ((m.payload + w - 1) / w)

def State.link (s : State) : Port → Link
  | .agent n => tget Link.reset s.links.agent n.val
  | .near n => tget Link.reset s.links.near n.val
  | .far _ => Link.reset
def State.setLink (s : State) (p : Port) (l : Link) : State :=
  match p with
  | .agent n => { s with links := { s.links with agent := tset Link.reset s.links.agent n.val l } }
  | .near n => { s with links := { s.links with near := tset Link.reset s.links.near n.val l } }
  | .far _ => s

def State.portOutBytes (s : State) (k n : Nat) : State :=
  { s with pmu := { s.pmu with portOut := tmod 0 s.pmu.portOut k (· + n) } }
def State.portInBytes (s : State) (k n : Nat) : State :=
  { s with pmu := { s.pmu with portIn := tmod 0 s.pmu.portIn k (· + n) } }

def State.mon (s : State) (c : Nat) : Mon := tget Mon.reset s.cone.mons c
def State.modMon (s : State) (c : Nat) (f : Mon → Mon) : State :=
  { s with cone := { s.cone with mons := tmod Mon.reset s.cone.mons c f } }
/-- A guarantee window of cone c starts; it will be discarded if it overlaps a quench, a coolant stop or a time without
MON_EN (R322). -/
def State.newWindow (s : State) (c : Nat) : State :=
  let bad := !s.cone.monEn || s.quenching || s.ckp.coolActive
  let s1 := s.modMon c (fun m => { m with bytes := 0, reqs := 0, late := 0, spoiled := bad })
  { s1 with cone := { s1.cone with sawWait := setBit s1.cone.sawWait c false, sawIdle := setBit s1.cone.sawIdle c false } }
/-- Data bytes carried or moved for a cone (R323). -/
def State.coneBytes (s : State) (c : BitVec 3) (n : Nat) : State :=
  if n = 0 then s else s.modMon c.toNat (fun m => { m with bytes := m.bytes + n })

/-! ### Latency (R324) -/

/-- A request of a cone is answered on a port: N counts it, and X when it took more than LAT_TARGET cycles of the
port's half. -/
def State.answered (s : State) (c : BitVec 3) (p : Port) (born : Nat) : State :=
  let lat := (s.half p.half).fclk - born
  s.modMon c.toNat (fun m => { m with reqs := m.reqs + 1
                                      late := m.late + b2n (decide (s.cfg.latTarget c.toNat < lat)) })

/-- The message leaves on its port, after every earlier one (log 6): it joins the sent messages, its data bytes are
counted, a last answer ends its request's latency, and on a link it takes sequence numbers and stays in the replay window of 64
beats (R324, R328, R435, R441). -/
def State.transmit (s : State) (p : Port) (m : Msg) : State :=
  let n := beatsOut p m
  let s := match m.born with
    | some b => s.answered m.cone p b
    | none => s
  let d := (if m.data.isSome then 128 else 0) + (if m.result.isSome then 16 else 0)
  let s1 := { s with out := { s.out with msgs := s.out.msgs ++ [m] } }
  let s2 := (s1.portOutBytes p.index m.payload).coneBytes m.cone d
  let l := s2.link p
  s2.setLink p { l with txSeq := l.txSeq + BitVec.ofNat 7 n
                        window := (l.window ++ (List.range n).map (fun i => (l.txSeq + BitVec.ofNat 7 i, m))).reverse.take 64
                          |>.reverse }

/-- The slice's reserved buffers of each channel of an agent port and of a near fabric port (R145). -/
def bufferCount (p : Port) (vc : Nat) : Nat :=
  match p with
  | .agent _ => [16, 8, 16, 32].getD vc 0
  | _ => [32, 16, 32, 64].getD vc 0
/-- A message that stays in its channel keeps one of the slice's buffers. -/
def State.holdBuffer (s : State) (p : Port) (vc : Nat) : State :=
  s.setLink p { s.link p with given := tmod 0 (s.link p).given vc (· - 1) }
/-- A message has left its channel: the credit of its buffer, and of no other channel, goes back to the partner (R145, R440). -/
def State.giveBack (s : State) (p : Port) (vc : Nat) : State :=
  s.setLink p { s.link p with given := tmod 0 (s.link p).given vc (· + 1) }

/-- Credits that the partner gave the slice for a channel of a link. -/
def Link.credit (l : Link) (vc : Nat) : Nat := tget 0 l.credits vc

/-- The port is down: nothing passes it (R336). -/
def State.portDown (s : State) (p : Port) : Bool :=
  match p with
  | .agent n => s.flt.portsDown.contains (.agentPort n)
  | .near n => s.flt.portsDown.contains (.nearPort n)
  | .far _ => false

/-- A message for its port: sent at once on a far port or against a credit of its channel, else it waits for one in its
channel's order (R144, R440). A message whose port the slice does not know stays among the sent ones with no port
(log 16). -/
def State.emit (s : State) (m : Msg) : State :=
  match m.port with
  | none => { s with out := { s.out with msgs := s.out.msgs ++ [m] } }
  | some (.far n) => s.transmit (.far n) m
  | some p =>
    let l := s.link p
    let vc := classOf m.code.toNat
    if l.waiting.all (fun w => classOf w.code.toNat != vc) && 0 < l.credit vc && !s.portDown p then
      (s.setLink p { l with credits := tmod 0 l.credits vc (· - 1) }).transmit p m
    else s.setLink p { l with waiting := l.waiting ++ [m] }

/-! ### Tallies (R81, R82, R196, R197) -/

def State.tally (s : State) (t : Nat) : BitVec 64 := tget 0 s.tly.count t
def State.setTally (s : State) (t : Nat) (v : BitVec 64) : State :=
  { s with tly := { s.tly with count := tset 0 s.tly.count t v } }

/-- The tally that a remote agent's writes increment: the lowest valid route that names it, else the default. -/
def State.tallyFor (s : State) (id : AgentId) : Option Nat :=
  match s.tly.routes.find? (fun p => bit p.2.toNat 31 && bits p.2.toNat 11 0 == id.toNat) with
  | some p => some (bits p.2.toNat 21 12)
  | none => if s.tly.dfltEn then some s.tly.dflt.toNat else none

/-- A write of a remote agent has been performed: n bytes (R196). -/
def State.tallyWrite (s : State) (id : AgentId) (n : Nat) : State :=
  match s.tallyFor id with
  | some t => s.setTally t (s.tally t + BitVec.ofNat 64 n)
  | none => { s with tly := { s.tly with unrouted := satAdd s.tly.unrouted 1 } }.event 0x0702 srcSlice [id.toNat]

/-! ### Physical units (R12, R17, R18) -/

/-- Shelf of a physical bank; 256 + s is the spare bank of shelf s (log 13). -/
def bankShelf (p : Nat) : Nat := if p < 256 then p / 16 else p - 256
/-- The physical bank that serves as bank b. -/
def State.physBank (s : State) (b : Nat) : Nat := if tget 0 s.flt.spares.banks (b / 16) = b + 1 then 256 + b / 16 else b
/-- The bank that a physical bank serves as. -/
def State.bankServed (s : State) (p : Nat) : Option Nat :=
  let k := tget 0 s.flt.spares.banks (bankShelf p)
  if p < 256 then (if k = p + 1 then none else some p) else if k = 0 then none else some (k - 1)
/-- A spare is being fitted in the bank: it waits (R335). -/
def State.fitting (s : State) (b : Nat) : Bool :=
  s.flt.work.any (fun w => match w.unit with
    | .mat p _ _ => s.bankServed p.val == some b
    | .bank k => k.val == b
    | .periphery k => k.val == b
    | _ => false)

end Sys2Proof.Machine
end

