-- ==== Sys2Proof/Machine/Sha.lean ====
section
/-! DEFINITION. The functions that the spec takes from published standards: SHA-384 and ECDSA P-384 (R40, R390) and
the CRC-32 of IEEE 802.3 (R328, R356). Their constants are the standards' (log 8); the CRC's form is log 20. -/
namespace Sys2Proof.Machine

/-- The round constants of SHA-384, ten by ten. -/
def shaK0 : List (BitVec 64) :=
  [0x428a2f98d728ae22#64, 0x7137449123ef65cd#64, 0xb5c0fbcfec4d3b2f#64, 0xe9b5dba58189dbbc#64, 0x3956c25bf348b538#64,
   0x59f111f1b605d019#64, 0x923f82a4af194f9b#64, 0xab1c5ed5da6d8118#64, 0xd807aa98a3030242#64, 0x12835b0145706fbe#64]
def shaK1 : List (BitVec 64) :=
  [0x243185be4ee4b28c#64, 0x550c7dc3d5ffb4e2#64, 0x72be5d74f27b896f#64, 0x80deb1fe3b1696b1#64, 0x9bdc06a725c71235#64,
   0xc19bf174cf692694#64, 0xe49b69c19ef14ad2#64, 0xefbe4786384f25e3#64, 0x0fc19dc68b8cd5b5#64, 0x240ca1cc77ac9c65#64]
def shaK2 : List (BitVec 64) :=
  [0x2de92c6f592b0275#64, 0x4a7484aa6ea6e483#64, 0x5cb0a9dcbd41fbd4#64, 0x76f988da831153b5#64, 0x983e5152ee66dfab#64,
   0xa831c66d2db43210#64, 0xb00327c898fb213f#64, 0xbf597fc7beef0ee4#64, 0xc6e00bf33da88fc2#64, 0xd5a79147930aa725#64]
def shaK3 : List (BitVec 64) :=
  [0x06ca6351e003826f#64, 0x142929670a0e6e70#64, 0x27b70a8546d22ffc#64, 0x2e1b21385c26c926#64, 0x4d2c6dfc5ac42aed#64,
   0x53380d139d95b3df#64, 0x650a73548baf63de#64, 0x766a0abb3c77b2a8#64, 0x81c2c92e47edaee6#64, 0x92722c851482353b#64]
def shaK4 : List (BitVec 64) :=
  [0xa2bfe8a14cf10364#64, 0xa81a664bbc423001#64, 0xc24b8b70d0f89791#64, 0xc76c51a30654be30#64, 0xd192e819d6ef5218#64,
   0xd69906245565a910#64, 0xf40e35855771202a#64, 0x106aa07032bbd1b8#64, 0x19a4c116b8d2d0c8#64, 0x1e376c085141ab53#64]
def shaK5 : List (BitVec 64) :=
  [0x2748774cdf8eeb99#64, 0x34b0bcb5e19b48a8#64, 0x391c0cb3c5c95a63#64, 0x4ed8aa4ae3418acb#64, 0x5b9cca4f7763e373#64,
   0x682e6ff3d6b2b8a3#64, 0x748f82ee5defb2fc#64, 0x78a5636f43172f60#64, 0x84c87814a1f0ab72#64, 0x8cc702081a6439ec#64]
def shaK6 : List (BitVec 64) :=
  [0x90befffa23631e28#64, 0xa4506cebde82bde9#64, 0xbef9a3f7b2c67915#64, 0xc67178f2e372532b#64, 0xca273eceea26619c#64,
   0xd186b8c721c0c207#64, 0xeada7dd6cde0eb1e#64, 0xf57d4f7fee6ed178#64, 0x06f067aa72176fba#64, 0x0a637dc5a2c898a6#64]
def shaK7 : List (BitVec 64) :=
  [0x113f9804bef90dae#64, 0x1b710b35131c471b#64, 0x28db77f523047d84#64, 0x32caab7b40c72493#64, 0x3c9ebe0a15c9bebc#64,
   0x431d67c49c100d4c#64, 0x4cc5d4becb3e42b6#64, 0x597f299cfc657e2a#64, 0x5fcb6fab3ad6faec#64, 0x6c44198c4a475817#64]
def shaK : List (BitVec 64) := shaK0 ++ shaK1 ++ shaK2 ++ shaK3 ++ shaK4 ++ shaK5 ++ shaK6 ++ shaK7
/-- The initial hash value of SHA-384. -/
def shaInit : List (BitVec 64) :=
  [0xcbbb9d5dc1059ed8#64, 0x629a292a367cd507#64, 0x9159015a3070dd17#64, 0x152fecd8f70e5939#64,
   0x67332667ffc00b31#64, 0x8eb44a8768581511#64, 0xdb0c2e0d64f98fa7#64, 0x47b5481dbefa4fa4#64]

/-- The padded message: 0x80, zeros, and the bit length in 16 bytes. -/
def shaPad (m : List Byte) : List Byte :=
  m ++ [0x80#8] ++ List.replicate ((239 - m.length % 128) % 128) 0 ++ bytesBE 16 (8 * m.length)

/-- One word of the message schedule from the sixteen before it, newest first. -/
def shaNext (w : List (BitVec 64)) : BitVec 64 :=
  let x := w.getD 1 0
  let y := w.getD 14 0
  (x.rotateRight 19 ^^^ x.rotateRight 61 ^^^ (x >>> 6)) + w.getD 6 0
    + (y.rotateRight 1 ^^^ y.rotateRight 8 ^^^ (y >>> 7)) + w.getD 15 0

/-- The eighty words of a block's schedule, newest first. -/
def shaSchedule (block : List Byte) : List (BitVec 64) :=
  let first := (List.range 16).map (fun i => BitVec.ofNat 64 (beNat (slice block (8 * i) 8)))
  (List.range 64).foldl (fun w _ => shaNext w :: w) first.reverse

/-- One round on the eight working words. -/
def shaRound (s : List (BitVec 64)) (kw : BitVec 64 × BitVec 64) : List (BitVec 64) :=
  match s with
  | [a, b, c, d, e, f, g, h] =>
    let t1 := h + (e.rotateRight 14 ^^^ e.rotateRight 18 ^^^ e.rotateRight 41)
      + ((e &&& f) ^^^ (~~~e &&& g)) + kw.1 + kw.2
    let t2 := (a.rotateRight 28 ^^^ a.rotateRight 34 ^^^ a.rotateRight 39)
      + ((a &&& b) ^^^ (a &&& c) ^^^ (b &&& c))
    [t1 + t2, a, b, c, d + t1, e, f, g]
  | _ => s

def shaBlock (h : List (BitVec 64)) (block : List Byte) : List (BitVec 64) :=
  let r := (shaK.zip (shaSchedule block).reverse).foldl shaRound h
  h.zipWith (· + ·) r

def shaBlocks : Nat → List Byte → List (BitVec 64) → List (BitVec 64)
  | 0, _, h => h
  | n + 1, m, h => shaBlocks n (m.drop 128) (shaBlock h (m.take 128))

/-- SHA-384 of a message, 48 bytes (R40, R54, R391). -/
def sha384 (m : List Byte) : List Byte :=
  let p := shaPad m
  ((shaBlocks (p.length / 128) p shaInit).take 6).flatMap (fun w => bytesBE 8 w.toNat)

/-- CRC-32 of IEEE 802.3 (R328): reflected, initial value and final xor all ones (log 20). -/
def crcBit (c : BitVec 32) : BitVec 32 := if c.getLsbD 0 then (c >>> 1) ^^^ 0xEDB88320#32 else c >>> 1
def crcByte (c : BitVec 32) (b : Byte) : BitVec 32 :=
  (List.range 8).foldl (fun x _ => crcBit x) (c ^^^ b.setWidth 32)
def crc32 (m : List Byte) : BitVec 32 := ~~~(m.foldl crcByte 0xFFFFFFFF#32)
/-- The CRC of a flit: over header bytes 0 to 11, then the 1,024 payload bytes (R328). -/
def flitCrc (header : BitVec 96) (payload : BitVec 8192) : BitVec 32 := crc32 (bytesLE 12 header.toNat ++ bytesLE 1024 payload.toNat)

/-- The field and the group order of P-384, and its coefficient b and base point. -/
def p384p : Nat := 2 ^ 384 - 2 ^ 128 - 2 ^ 96 + 2 ^ 32 - 1
def p384n : Nat :=
  0xffffffffffffffffffffffffffffffffffffffffffffffffc7634d81f4372ddf581a0db248b0a77aecec196accc52973
def p384b : Nat :=
  0xb3312fa7e23ee7e4988e056be3f82d19181d9c6efe8141120314088f5013875ac656398d8a2ed19d2a85c8edd3ec2aef
def p384gx : Nat :=
  0xaa87ca22be8b05378eb1c71ef320ad746e1d3b628ba79b9859f741e082542a385502f25dbf55296c3a545e3872760ab7
def p384gy : Nat :=
  0x3617de4a96262c6f5d9e98bf9292dc29f8f41dbd289a147ce9da3113b5f0b8c00a60b1ce1d7e819d7a431d7c90ea0e5f

/-- Powers modulo m, bit by bit over a 384-bit exponent. -/
def powMod (m b e : Nat) : Nat :=
  (List.range 384).foldr (fun i acc => if e.testBit i then acc * acc % m * b % m else acc * acc % m) (1 % m)
/-- The inverse modulo a prime. -/
def invMod (m a : Nat) : Nat := powMod m (a % m) (m - 2)
def subMod (m a b : Nat) : Nat := (a % m + (m - b % m)) % m

/-- Points of P-384; none is the point at infinity. -/
abbrev Point := Option (Nat × Nat)

def pAdd (P Q : Point) : Point :=
  match P, Q with
  | none, q => q
  | q, none => q
  | some (x1, y1), some (x2, y2) =>
    if x1 = x2 ∧ (y1 + y2) % p384p = 0 then none
    else
      let l := if x1 = x2 then subMod p384p (3 * x1 * x1) 3 * invMod p384p (2 * y1) % p384p
               else subMod p384p y2 y1 * invMod p384p (subMod p384p x2 x1) % p384p
      let x3 := subMod p384p (subMod p384p (l * l) x1) x2
      some (x3, subMod p384p (l * subMod p384p x1 x3) y1)

def pMul (k : Nat) (P : Point) : Point :=
  (List.range 384).foldr (fun i acc => let d := pAdd acc acc; if k.testBit i then pAdd d P else d) none

/-- The hash of a public key in its uncompressed point encoding (R40). -/
def keyHash (x y : Nat) : List Byte := sha384 (0x04#8 :: bytesBE 48 x ++ bytesBE 48 y)

/-- A key Q verifies the signature (r, s) of a digest e, as ECDSA defines it. -/
def ecdsaVerify (q : Nat × Nat) (e r s : Nat) : Bool :=
  let w := invMod p384n s
  match pAdd (pMul (e * w % p384n) (some (p384gx, p384gy))) (pMul (r * w % p384n) (some q)) with
  | none => false
  | some (x, _) => x % p384n == r

/-- The keys under which (r, s) can be a signature of e: at most two points for each candidate abscissa. -/
def ecdsaKeys (e r s : Nat) : List (Nat × Nat) :=
  let xs := if r + p384n < p384p then [r, r + p384n] else [r]
  xs.flatMap (fun x =>
    let rhs := subMod p384p (x * x % p384p * x + p384b) (3 * x)
    let y := powMod p384p rhs ((p384p + 1) / 4)
    if y * y % p384p ≠ rhs then [] else
      [y, subMod p384p 0 y].filterMap (fun yy =>
        pMul (invMod p384n r)
          (pAdd (pMul s (some (x, yy))) (pMul (p384n - e % p384n) (some (p384gx, p384gy))))))

/-- The signature of R40 and R390: r then s, 48 B each, big-endian, over the SHA-384 of the message, under the public
key whose hash stands in the key slot. The stream carries no key, so the key is one of those the signature admits. -/
def signatureOk (hash message sig : List Byte) : Bool :=
  let r := beNat (slice sig 0 48)
  let s := beNat (slice sig 48 48)
  let e := beNat (sha384 message)
  if r = 0 ∨ r ≥ p384n ∨ s = 0 ∨ s ≥ p384n then false
  else (ecdsaKeys e r s).any (fun q => keyHash q.1 q.2 == hash && ecdsaVerify q e r s)

end Sys2Proof.Machine
end

