-- ==== Sys2Proof/Machine/FwImage.lean ====
section
/-! DEFINITION. The firmware image and its manifest (R390, R391), the staging area (R393), firmware-history entries (R344,
R399). -/
namespace Sys2Proof.Machine

/-! ### The image (R390 to R392, R395) -/

def imgPart (h : List Byte) : Nat := leAt h 6 1
def imgSlot (h : List Byte) : Nat := leAt h 7 1
def imgLen (h : List Byte) : Nat := leAt h 8 4
def imgArb (h : List Byte) : Nat := leAt h 0x14 2
def imgMirrorVer (h : List Byte) : Nat := leAt h 0x16 1
def imgMirrorMin (h : List Byte) : Nat := leAt h 0x1C 1
def imgFuse (h : List Byte) : Bool := bit (leAt h 0x17 1) 0
def imgVer (h : List Byte) : Nat := leAt h 0x18 4

/-- n bytes of the staging area. -/
def State.staged (s : State) (off n : Nat) : List Byte := (List.range n).map (fun i => tget 0 s.fw.staging (off + i))

/-- Manifest entries, 64 bytes each. -/
def manifestOf (img : List Byte) : List (List Byte) := (List.range (imgPart img)).map (fun k => slice img (256 + 64 * k) 64)
def State.manifest (s : State) : List (List Byte) :=
  (List.range (imgPart s.fw.header)).map (fun k => s.staged (256 + 64 * k) 64)
def mfId (e : List Byte) : Nat := leAt e 0 1
def mfType (e : List Byte) : Nat := leAt e 1 1
def mfOff (e : List Byte) : Nat := leAt e 8 4
def mfSize (e : List Byte) : Nat := leAt e 12 4
/-- A firmware-history entry of a manifest (R344, R399). -/
def State.fwEntry (s : State) (m : List Byte) (st : BitVec 8) : State :=
  let e := bytesLE 4 s.life.fwSeq.toNat ++ bytesLE 4 s.life.age.toNat ++ bytesLE 4 st.toNat
    ++ bytesLE 4 s.life.arb.toNat ++ sha384 m
  { s with life := { s.life with fwHist := s.life.fwHist ++ [BitVec.ofNat 512 (leNat e)], fwSeq := s.life.fwSeq + 1
                                 changed := true } }
/-- A firmware-history entry of the staged image. -/
def State.fwHistory (s : State) (st : BitVec 8) : State := s.fwEntry (s.staged 256 (64 * imgPart s.fw.header)) st

end Sys2Proof.Machine
end

