-- ==== Sys2Proof/Machine/Backing.lean ====
section
/-! DEFINITION. Requests to backing DRAM: reads through miss entries (R104, R106), writes with the undo log of E-class
data (R355 to R358), issue slots (R315, R316), and the triggers of a quench that they can raise (R359). -/
namespace Sys2Proof.Machine

/-- Every running guarantee window is spoiled and will be discarded (R322). -/
def State.spoilWindows (s : State) : State :=
  (List.range 8).foldl (fun st c => st.modMon c (fun m => { m with spoiled := true })) s

/-- Step 1 of a quench abandons a cut that has not flipped; one at or past the flip stands and ends (R368). -/
def State.cutEnd (s : State) : State :=
  let sweep := s.ep.sweep || decide (5 ≤ s.ep.cutStep)
  { s with ep := { s.ep with cutStep := 0, cutDone := false, cutBy := [], nextBy := [], askForced := false, sweep := sweep }
           out := { s.out with epochReq := false } }

/-- The half of a port (R22, R445). -/
def sleepHalf : SleepPort → Half
  | .agent n => if n.val < 16 then .a else .b
  | .near n => if n.val < 2 then .a else .b
  | .far n => if n.val = 0 then .a else .b
  | .backing n => if n.val < 4 then .a else .b
/-- SLP_REQ falls on the ports of a half. -/
def State.dropSlp (s : State) (h : Half) : State :=
  { s with out := { s.out with slpReq := s.out.slpReq.filter (fun p => sleepHalf p != h) } }
/-- A half is awake, and asks no port to sleep (R411, R445). -/
def State.stayAwake (s : State) (h : Half) : State :=
  (s.setHalf h { s.half h with st := .awake, acks := [], wakeAsked := false }).dropSlp h
/-- A wake of a half is asked for. It ends an attempt at retention; an entry ends at once while FCLK still runs, which is a
free choice (log 7), else the wake follows it; a coolant stop lets none end (R411, R412, R422). -/
def State.wakeHalf (s : State) (h : Half) : State :=
  let c := s.half h
  match c.st with
  | .awake => s
  | .asking => s.stayAwake h
  | .entering =>
    if c.wakeAsked || s.ckp.coolActive then s.setHalf h { c with wakeAsked := true }
    else
      let (v, s1) := s.draw
      if v.getLsbD 0 then s1.stayAwake h else s1.setHalf h { c with wakeAsked := true }
  | _ => s.setHalf h { c with wakeAsked := true }
/-- A wake of both halves is asked for: step 1 of a quench needs them awake (R424). -/
def State.wakeAll (s : State) : State := (s.wakeHalf .a).wakeHalf .b

/-- A trigger of a quench (R359). Outside a quench, QUENCH_REQ rises and step 1 begins; before step 6 it joins the
quench; from step 6 on, and while a firmware handover pauses commands or flips tables (R370), it waits. -/
def State.trigger (s : State) (cause : Nat) : State :=
  if s.ep.step = 0 then
    if s.fw.pauses then { s with ep := { s.ep with later := s.ep.later ++ [cause] } }
    else
      let ep := { s.ep with step := 1, stepDone := false, cause := BitVec.ofNat 4 cause, isLocal := cause != 7,
                            waited := false, quenches := satAdd s.ep.quenches 1 }
      { s with ep := ep, out := { s.out with quenchReq := true, qstepDone := false } }.cutEnd.spoilWindows.wakeAll
  else if s.ep.step < 6 then s
  else { s with ep := { s.ep with later := s.ep.later ++ [cause] } }

/-- Backing port of a shelf (R22), and the port that a line's requests take. -/
def portOfShelf (sh : Nat) : Nat := sh / 2
def State.backPort (s : State) (l : LineIx) : Nat := portOfShelf (s.homeShelf l)

/-- The half of a backing port: its shelves' half (R22). -/
def portHalf (bp : Nat) : Half := shelfHalf (2 * bp)

/-- Queue a request to backing; it waits for a slot (R316). -/
def State.backReq (s : State) (bp : Nat) (write : Bool) (addr : Nat) (mask : Mask) (data : Line) (cone : BitVec 3)
    (why : Why) : State :=
  { s with back := { s.back with reqs := s.back.reqs ++ [⟨bp, write, addr, mask, data, cone, why, none, false, (s.half (portHalf bp)).fclk⟩] } }

/-! ### Undo log (R355 to R358) -/

/-- First line of stripe n, in lines. -/
def stripeLine (c : Cfg) (n : Nat) : Nat := (c.undoBase + n * c.undoSize * 33554432) / 128
/-- Entries logged or being logged in a stripe. -/
def State.stripeUsed (s : State) (n : Nat) : Nat :=
  tget 0 s.ep.fill n + (s.back.jobs.filter (fun j => s.backPort j.line == n && j.stage == 1)).length
def State.capacity (s : State) : Nat := Config.stripeCapacity s.cfg.undoSize

/-- Stage 0 to 1: once no earlier job of the line is open, and with room in the stripe, the old line is read; a full stripe
makes the write wait, and during a cut between steps 1 and 5 it quenches with cause 6 (R357, R358). -/
def State.jobStart (s : State) (id : Nat) : State :=
  match s.back.jobs.find? (fun j => j.id == id && j.stage == 0) with
  | none => s
  | some j =>
    let bp := s.backPort j.line
    if s.back.jobs.any (fun k => k.line == j.line && decide (k.id < id)) then s
    else if s.stripeUsed bp < s.capacity then
      let jobs := modFirst (fun k => k.id == id) (fun k => { k with stage := 1 }) s.back.jobs
      { s with back := { s.back with jobs := jobs } }.backReq bp false j.line.toNat fullMask 0 j.cone (.undoOld id)
    else if 1 ≤ s.ep.cutStep && s.ep.cutStep ≤ 5 && s.capacity ≤ tget 0 s.ep.fill bp then s.trigger 6 else s

/-- The 32 B header of an entry, without and with its CRC (R356). -/
def undoHeader (addr epoch seq smask src : Nat) : List Byte :=
  bytesLE 8 addr ++ bytesLE 4 epoch ++ bytesLE 4 seq ++ bytesLE 1 smask ++ bytesLE 1 src ++ bytesLE 10 0
def undoEntry (h : List Byte) (old : Line) (bad : Bool) : List Byte :=
  let c := crc32 (h ++ lineBytes old)
  h ++ bytesLE 4 (if bad then (~~~c).toNat else c.toNat)

/-- Stage 1 to 2: the old line has been read; the entry's data line and its group's header line are written (R356,
R357). An uncorrectable old line makes an entry that never verifies. -/
def State.jobLog (s : State) (id : Nat) (old : Line) (ue : Bool) : State :=
  match s.back.jobs.find? (fun j => j.id == id && j.stage == 1) with
  | none => s
  | some j =>
    let bp := s.backPort j.line
    let k := tget 0 s.ep.fill bp
    let entry := undoEntry (undoHeader (lineAddr j.line) s.ep.num.toNat k (touchedSectors j.mask).toNat j.src) old ue
    let before := if k % 4 = 0 then (0 : Line) else tget 0 s.back.headers bp
    let header := before ||| (lineOfBytes entry <<< (256 * (k % 4)))
    let g := stripeLine s.cfg bp + 5 * (k / 4)
    let s1 := { s with
      ep := { s.ep with fill := tset 0 s.ep.fill bp (k + 1) }
      back := { s.back with
        headers := tset 0 s.back.headers bp header
        jobs := modFirst (fun x => x.id == id) (fun x => { x with stage := 2, left := 2 }) s.back.jobs } }
    let s2 := s1.backReq bp true (g + 1 + k % 4) fullMask old j.cone (.undoLog id)
    let s3 := (s2.backReq bp true g fullMask header j.cone (.undoLog id)).count 0x17 (Attr.ofLine j.line j.cone) 1
    if s.capacity ≤ k + 1 && 1 ≤ s.ep.cutStep && s.ep.cutStep ≤ 4 then s3.trigger 6 else s3

/-- Stage 2 ends: both log writes are answered, and the new data is written (R357). -/
def State.jobAck (s : State) (id : Nat) : State :=
  match s.back.jobs.find? (fun j => j.id == id && j.stage == 2) with
  | none => s
  | some j =>
    if j.left ≤ 1 then
      let s1 := ({ s with back := { s.back with jobs := dropFirst (fun x => x.id == id) s.back.jobs } }).backReq
        (s.backPort j.line) true j.line.toNat j.mask j.data j.cone (.undoNew j.w j.src)
      match s1.back.jobs.find? (fun k => k.line == j.line) with
      | some k => s1.jobStart k.id
      | none => s1
    else
      { s with back := { s.back with jobs := modFirst (fun x => x.id == id) (fun x => { x with left := x.left - 1 })
                                       s.back.jobs } }

/-- SRC of an undo entry (R356). -/
def srcWriteback : Nat := 1
def srcThrough : Nat := 2
def srcAtomic : Nat := 3
def srcRecall : Nat := 4

/-- Write the enabled bytes of a line to backing; `prior` marks prior-epoch data. Current-epoch E-class data is logged
first (R351, R357). `w` waits for the acknowledgement. -/
def State.backWrite (s : State) (l : LineIx) (mask : Mask) (data : Line) (cone : BitVec 3) (src : Nat) (prior : Bool)
    (w : Waiter) : State :=
  let s1 := s.count 0x07 (Attr.ofLine l cone) 1
  if s1.pclass l = pcE && !prior then
    let id := s1.back.nextJob
    let jobs := s1.back.jobs ++ [⟨id, l, mask, data, cone, src, w, 0, 0⟩]
    { s1 with back := { s1.back with jobs := jobs, nextJob := id + 1 } }.jobStart id
  else s1.backReq (s1.backPort l) true l.toNat mask data cone (.data w src)

/-! ### Miss entries (R104 to R106) -/

/-- A line has an open miss entry. -/
def State.missing (s : State) (l : LineIx) : Bool := s.back.miss.any (fun m => m.line == l)

/-- Open a miss entry, merge into the open one (16 requests at most), or wait (R104, R106). -/
def State.openMiss (s : State) (bank : Nat) (l : LineIx) (cone : BitVec 3) (alloc : Bool) (agent : Option AgentId)
    (u : MissUse) : State :=
  match s.back.miss.find? (fun m => m.line == l) with
  | some m =>
    if m.uses.length < 16 then
      let more := fun (x : Miss) => { x with uses := x.uses ++ [u], alloc := x.alloc || alloc }
      { s with back := { s.back with miss := modFirst (fun x => x.line == l) more s.back.miss } }
    else { s with back := { s.back with missWait := s.back.missWait ++ [⟨bank, l, cone, alloc, [u]⟩] } }
  | none =>
    if (s.back.miss.filter (fun m => m.bank == bank)).length < 64 then
      let s1 : State := { s with back := { s.back with miss := s.back.miss ++ [⟨bank, l, cone, alloc, [u]⟩] } }
      (s1.backReq (portOfShelf (bank / 16)) false l.toNat fullMask 0 cone (.miss bank)).count 0x06
        ⟨if agent.isSome then 0 else 2, agent, some l, some cone, none, none⟩ 1
    else { s with back := { s.back with missWait := s.back.missWait ++ [⟨bank, l, cone, alloc, [u]⟩] } }

/-- A miss entry has closed: waiting misses of its bank are tried again in arrival order (R104, R106). -/
def State.missRetry (s : State) (bank : Nat) : State :=
  let ws := s.back.missWait.filter (fun m => m.bank == bank)
  let s1 := { s with back := { s.back with missWait := s.back.missWait.filter (fun m => m.bank != bank) } }
  ws.foldl (fun st m => m.uses.foldl (fun st u => st.openMiss bank m.line m.cone m.alloc none u) st) s1

end Sys2Proof.Machine
end

