-- ==== Sys2Proof/Machine/Compress.lean ====
section
/-! DEFINITION. Glaze compression of a line (R94, R95): the three encodings, their stored forms, the choice between them
and the way back. -/
namespace Sys2Proof.Machine

def glzRaw : BitVec 2 := 0
def glzRep : BitVec 2 := 1
def glzBdi : BitVec 2 := 2
def glzSparse : BitVec 2 := 3

/-- REP: P where the line is 16 repetitions of one 8 B value. -/
def repForm (l : Line) : Option Line :=
  let p := l.extractLsb' 0 64
  if (List.range 16).all (fun i => l.extractLsb' (64 * i) 64 == p) then some (p.zeroExtend 1024) else none
def repBack (st : Line) : Line :=
  (List.range 16).foldl (fun acc i => acc ||| ((st.extractLsb' 0 64).zeroExtend 1024 <<< (64 * i))) 0

/-- Width in bits of a BDI delta code (R94). -/
def bdiWidth : Nat → Nat
  | 0 => 4
  | 1 => 8
  | _ => 16
/-- Delta of word i from word 0, and whether it fits in w signed bits. -/
def bdiDelta (l : Line) (i : Nat) : Word := wordOf l i - wordOf l 0
def bdiFits (l : Line) (w : Nat) : Bool :=
  (List.range 32).all (fun i => ((bdiDelta l i).extractLsb' 0 w).signExtend 32 == bdiDelta l i)
/-- BDI with delta code k: W in byte 0, B in bytes 1 to 4, the deltas from byte 5. -/
def bdiForm (l : Line) (k : Nat) : Line :=
  let w := bdiWidth k
  (List.range 32).foldl
    (fun acc i => acc ||| (((bdiDelta l i).extractLsb' 0 w).zeroExtend 1024 <<< (40 + w * i)))
    (BitVec.ofNat 1024 k ||| ((wordOf l 0).zeroExtend 1024 <<< 8))
def bdiBack (st : Line) : Line :=
  let w := bdiWidth (st.extractLsb' 0 8).toNat
  let b : Word := st.extractLsb' 8 32
  (List.range 32).foldl
    (fun acc i => acc ||| ((b + (st.extractLsb' (40 + w * i) w).signExtend 32).zeroExtend 1024 <<< (32 * i))) 0
/-- The narrowest delta code that holds the line, and its sectors (R95). -/
def bdiCode (l : Line) : Option (Nat × Nat) :=
  if bdiFits l 4 then some (0, 1) else if bdiFits l 8 then some (1, 2) else if bdiFits l 16 then some (2, 3) else none

/-- Non-zero words, ascending. -/
def sparseWords (l : Line) : List Nat := (List.range 32).filter (fun i => wordOf l i != 0)
/-- SPARSE: the mask of non-zero words, then those words. -/
def sparseForm (l : Line) : Line :=
  let ws := sparseWords l
  let mask : Nat := ws.foldl (fun m i => m + 2 ^ i) 0
  BitVec.ofNat 1024 (mask + leNat (ws.flatMap (fun i => bytesLE 4 (wordOf l i).toNat)) * 2 ^ 32)
def sparseBack (st : Line) : Line :=
  let mask : Word := st.extractLsb' 0 32
  ((onesOf mask).zipIdx).foldl
    (fun acc p => acc ||| ((st.extractLsb' (32 * (p.2 + 1)) 32).zeroExtend 1024 <<< (32 * p.1))) 0
def sparseSectors (l : Line) : Nat := (4 + 4 * (sparseWords l).length + 31) / 32

/-- A stored form: encoding, sectors, and the bytes from the first sector. -/
structure Stored where
  glz : BitVec 2
  sectors : Nat
  bytes : Line
  deriving DecidableEq, Repr, Inhabited

/-- The raw form. -/
def rawForm (l : Line) : Stored := ⟨glzRaw, 4, l⟩

/-- The encoding with the fewest sectors, REP before BDI before SPARSE; RAW where none saves a sector (R95). -/
def compress (l : Line) : Stored :=
  let rep := match repForm l with
    | some st => [Stored.mk glzRep 1 st]
    | none => []
  let bdi := match bdiCode l with
    | some (k, n) => [Stored.mk glzBdi n (bdiForm l k)]
    | none => []
  let sp := if sparseSectors l < 4 then [Stored.mk glzSparse (sparseSectors l) (sparseForm l)] else []
  (minBy Stored.sectors (rep ++ bdi ++ sp)).getD (rawForm l)

/-- The line of a stored form (R93, R96). -/
def decompress (glz : BitVec 2) (st : Line) : Line :=
  if glz = glzRep then repBack st else if glz = glzBdi then bdiBack st
  else if glz = glzSparse then sparseBack st else st

/-- A line is compressed only where its region allows it, all sectors are valid and it is not pinned (R94). -/
def storedForm (glazeEn : Bool) (sv : BitVec 4) (pin : Bool) (l : Line) : Stored :=
  if glazeEn && sv == 15 && !pin then compress l else rawForm l

end Sys2Proof.Machine
end

