-- ==== Sys2Proof/Machine/Cache.lean ====
section
/-! DEFINITION. The cache arrays: tag slots, sectors, the pseudo-LRU trees, allocation, eviction, writes and duplicates
(R87 to R103, R107, R116, R117, R333, R334). -/
namespace Sys2Proof.Machine

/-! ### Slots -/

/-- A slot's place: global bank, set, index (R89). -/
structure Slot where
  bank : Nat
  set : Nat
  ix : Nat
  deriving DecidableEq, Repr, Inhabited

def setKey (bank set : Nat) : Nat := bank * 2048 + set
def Slot.key (x : Slot) : Nat := setKey x.bank x.set * 32 + x.ix

def State.tag (s : State) (x : Slot) : Tag := tget Tag.empty s.arr.tags x.key
def State.setTag (s : State) (x : Slot) (t : Tag) : State :=
  { s with arr := { s.arr with tags := tset Tag.empty s.arr.tags x.key t } }

/-- The slots of a set, ascending. -/
def slotsOf (bank set : Nat) : List Slot := (List.range 32).map (fun i => ⟨bank, set, i⟩)

/-- Byte address in the arrays of the first sector that a tag names (R69, R97). -/
def tagAddr (bank set : Nat) (t : Tag) : Nat :=
  bank * 4194304 + set * 2048 + t.frame.toNat * 128 + t.fstart.toNat * 32

/-- The line of a slot (R88). -/
def slotLine (x : Slot) (t : Tag) : LineIx := BitVec.ofNat 45 (lineOfTag t.tag.toNat x.set)

/-- The bytes of the sectors that a slot uses, from the first (R94, R97). -/
def State.slotBytes (s : State) (x : Slot) : Line :=
  let t := s.tag x
  s.arrLine (tagAddr x.bank x.set t) &&& widen (maskOf 0 (32 * (t.csize.toNat + 1)))
/-- The AUU's line buffer that holds the line of a slot (R236). -/
def State.bufferAt (s : State) (sh : Nat) (l : LineIx) : Option LineBuf := (s.shelf sh).lineBufs.find? (fun b => b.line == l)
/-- The line's data: the line buffer's where one holds it, else the bank's; a raw line holds sector j at sector j. -/
def State.slotData (s : State) (x : Slot) : Line :=
  match if (s.tag x).dup then none else s.bufferAt (x.bank / 16) (slotLine x (s.tag x)) with
  | some b => b.data
  | none => decompress (s.tag x).glz (s.slotBytes x)

/-- Write a stored form under a tag: the sectors it names hold the form's bytes. -/
def State.store (s : State) (x : Slot) (t : Tag) (f : Stored) : State :=
  let t' := { t with glz := f.glz, csize := BitVec.ofNat 2 (f.sectors - 1) }
  let s1 := (s.setArr (tagAddr x.bank x.set t') f.bytes (maskOf 0 (32 * f.sectors))).setTag x t'
  if t.dup then s1 else { s1 with flt := { s1.flt with lost := s1.flt.lost.filter (· != slotLine x t) } }

/-- A bank caches: cache mode, CACHE_EN set and not retired (R75, R118, R336). -/
def State.caches (s : State) (bank : Nat) : Bool :=
  s.cfg.mode bank == modeCache && (s.shelf (bank / 16)).bankEn.getLsbD (bank % 16)
    && !(s.shelf (bank / 16)).retired.getLsbD (bank % 16)

/-- The slot of a line in a bank: live or dead, with the given DUP mark (R89, R90). -/
def State.slotIn (s : State) (bank : Nat) (l : LineIx) (dup : Bool) : Option Slot :=
  (slotsOf bank (foldSet l.toNat)).find? (fun x =>
    let t := s.tag x
    t.state != .invalid && t.dup == dup && t.tag.toNat == lineTag l.toNat)
/-- The line's own slot in its home bank, while the bank caches. -/
def State.slotOf (s : State) (l : LineIx) : Option Slot :=
  if s.caches (s.homeBank l) then s.slotIn (s.homeBank l) l false else none
/-- The line's slot when it is present (R91). -/
def State.liveSlot (s : State) (l : LineIx) : Option Slot :=
  (s.slotOf l).filter (fun x => (s.tag x).state == .live)
/-- Present with all four sectors valid: a read hits (R91). -/
def State.hit (s : State) (l : LineIx) : Option Slot :=
  (s.liveSlot l).filter (fun x => (s.tag x).sv == 15 && !s.flt.lost.contains l)
/-- Cone of the line's slot, cone 0 where it has none (R311). -/
def State.slotCone (s : State) (l : LineIx) : BitVec 3 :=
  match s.slotOf l with
  | some x => (s.tag x).cone
  | none => 0

/-! ### Trees (R99) -/

/-- Nodes from leaf i of a tree of depth d up: each points away from the leaf. -/
def touchNode {n : Nat} : Nat → BitVec n → Nat → BitVec n
  | 0, t, _ => t
  | d + 1, t, i => touchNode d (setBit t (i / 2) (i % 2 == 0)) (i / 2)
def touchTree {n : Nat} (d : Nat) (t : BitVec n) (i : Nat) : BitVec n := touchNode d t (2 ^ d + i)

/-- Descend one level; `h` levels lie below the node. -/
def victimNode {n : Nat} (d : Nat) (t : BitVec n) (ok : List Nat) : Nat → Nat → Nat
  | 0, i => i
  | h + 1, i =>
    let pref := 2 * i + b2n (t.getLsbD i)
    let other := 2 * i + 1 - b2n (t.getLsbD i)
    victimNode d t ok h (if ok.any (fun j => (2 ^ d + j) / 2 ^ h == pref) then pref else other)
def victimTree {n : Nat} (d : Nat) (t : BitVec n) (ok : List Nat) : Option Nat :=
  if ok.isEmpty then none else some (victimNode d t ok d 1 - 2 ^ d)

def State.touch (s : State) (x : Slot) : State :=
  let k := setKey x.bank x.set
  let f := (s.tag x).frame.toNat
  { s with arr := { s.arr with tagTree := tmod 0 s.arr.tagTree k (fun t => touchTree 5 t x.ix)
                               frameTree := tmod 0 s.arr.frameTree k (fun t => touchTree 4 t f) } }

/-! ### Eviction (R93, R101, R333) -/

/-- The writeback of a slot's dirty data: mask and data (R93). -/
def State.dirtyOf (s : State) (x : Slot) : Mask × Line :=
  let t := s.tag x
  (if t.glz = glzRaw then sectorMask t.sd else fullMask, s.slotData x)

/-- Prior-epoch data: a dirty E-class line whose EP is not the current bit (R350). -/
def State.priorEpoch (s : State) (x : Slot) : Bool :=
  let t := s.tag x
  t.state == .live && t.sd != 0 && t.ep != s.ep.cur && s.pclass (slotLine x t) == pcE

/-- Partner shelf of a home shelf (R80). -/
def Cfg.partner (c : Cfg) (sh : Nat) : Nat :=
  let own := c.homing.filter (fun i => shelfHalf i == shelfHalf sh && i != sh)
  let other := c.homing.filter (fun i => shelfHalf i != shelfHalf sh)
  match own.find? (sh < ·) with
  | some i => i
  | none => own.headD (other.headD sh)

/-- Bank of the second copy of a P-class line (R333). -/
def State.dupBank (s : State) (l : LineIx) : Option Nat :=
  let sh := s.cfg.partner (s.homeShelf l)
  let h := bits (s.cfg.lineHash l.toNat) 7 4
  ((List.range 16).map (fun i => 16 * sh + (h + i) % 16)).find? (fun b =>
    s.cfg.mode b == modeCache && !(s.shelf (b / 16)).retired.getLsbD (b % 16))
def State.dupSlot (s : State) (l : LineIx) : Option Slot :=
  match s.dupBank l with
  | some b => s.slotIn b l true
  | none => none

/-- Free the second copy of a line (R333). -/
def State.freeDup (s : State) (l : LineIx) : State :=
  match s.dupSlot l with
  | some x => s.setTag x Tag.empty
  | none => s

/-- Write a slot's dirty data back under its class; the slot keeps its other fields with SD clear (R93, R120, R351). -/
def State.cleanSlot (s : State) (x : Slot) (src : Nat) (w : Waiter) : State :=
  let t := s.tag x
  let l := slotLine x t
  if t.state = .live ∧ t.sd ≠ 0 then
    let (m, d) := s.dirtyOf x
    ((s.backWrite l m d t.cone src (s.priorEpoch x) w).freeDup l).setTag x { t with sd := 0 }
  else s

/-- The line buffer of a line no longer holds it. -/
def State.dropBuffer (s : State) (sh : Nat) (l : LineIx) : State :=
  s.modShelf sh (fun h => { h with lineBufs := h.lineBufs.filter (fun b => b.line != l) })
/-- Evict the line of a slot: dirty data is written back, and the slot becomes invalid (R102). -/
def State.evict (s : State) (x : Slot) : State :=
  ((s.cleanSlot x srcWriteback .nobody).dropBuffer (x.bank / 16) (slotLine x (s.tag x))).setTag x Tag.empty

/-- A miss, a writeback or a maintenance operation is under way on the line (R101); a line whose data is lost and to come from an
agent counts as under maintenance (log 63). -/
def State.lineBusy (s : State) (l : LineIx) : Bool :=
  s.missing l || s.back.jobs.any (fun j => j.line == l && j.src == srcWriteback)
  || s.back.reqs.any (fun r => r.write && r.addr == l.toNat &&
      match r.why with
      | .data _ src => src == srcWriteback
      | .undoNew _ src => src == srcWriteback
      | _ => false)
  || s.home.txns.any (fun t => t.req.line == l &&
      match t.req.who with
      | .maint _ => true
      | .lineop => true
      | _ => false)
  || s.flt.lost.contains l

/-! ### Allocation (R97, R101, R102, R312) -/

/-- Live slots of a set with their tags. -/
def State.liveOf (s : State) (bank set : Nat) : List (Slot × Tag) :=
  ((slotsOf bank set).map (fun x => (x, s.tag x))).filter (fun p => p.2.state == .live)

/-- Sectors of frame f that its lines use, as bits. -/
def usedSectors (ls : List (Slot × Tag)) (f : Nat) : BitVec 4 :=
  ls.foldl (fun u p => if p.2.frame.toNat = f then
    (List.range (p.2.csize.toNat + 1)).foldl (fun v j => setBit v (p.2.fstart.toNat + j) true) u else u) 0
/-- The frame is free, or its lines carry cone c. -/
def frameOf (ls : List (Slot × Tag)) (f : Nat) : List (Slot × Tag) := ls.filter (fun p => p.2.frame.toNat == f)
def frameFree (ls : List (Slot × Tag)) (f : Nat) : Bool := (frameOf ls f).isEmpty
def frameHolds (ls : List (Slot × Tag)) (f : Nat) (c : BitVec 3) : Bool := (frameOf ls f).any (fun p => p.2.cone == c)
/-- A frame with a pinned line or a second copy (R97, R334). -/
def framePinned (ls : List (Slot × Tag)) (f : Nat) : Bool := (frameOf ls f).any (fun p => p.2.pin || p.2.dup)

/-- Free runs of a frame: first sector and length of each maximal run. -/
def freeRuns (u : BitVec 4) : List (Nat × Nat) :=
  (List.range 4).filterMap (fun i =>
    if u.getLsbD i || (i != 0 && !u.getLsbD (i - 1)) then none
    else some (i, ((List.range (4 - i)).takeWhile (fun j => !u.getLsbD (i + j))).length))

/-- The run to use: shortest that holds n sectors, then lowest frame, then lowest first sector (R102). -/
def chooseRun (ls : List (Slot × Tag)) (c : BitVec 3) (n : Nat) : Option (Nat × Nat) :=
  let runs := (List.range 16).flatMap (fun f =>
    if frameFree ls f || frameHolds ls f c then (freeRuns (usedSectors ls f)).map (fun r => (f, r.1, r.2)) else [])
  (minBy (fun r => r.2.2) (runs.filter (fun r => n ≤ r.2.2))).map (fun r => (r.1, r.2.1))

/-- Frame victims for cone c (R101, R312). `no` is a frame that may not be taken (R98). -/
def State.frameVictims (s : State) (ls : List (Slot × Tag)) (c : BitVec 3) (no : Option Nat) : List Nat :=
  let share := s.cfg.frameShare c.toNat
  let held := ((List.range 16).filter (fun f => frameHolds ls f c)).length
  (List.range 16).filter (fun f =>
    share != 0 && some f != no && !framePinned ls f && (frameOf ls f).all (fun p => !s.lineBusy (slotLine p.1 p.2))
      && (held < share || frameHolds ls f c))

/-- Space step: a place for n sectors, after the frame's lines are evicted where one has to go (R102). -/
def State.space (s : State) (bank set : Nat) (c : BitVec 3) (n : Nat) (own : Option Slot) : Option (Nat × Nat) × State :=
  let all := s.liveOf bank set
  let ls := all.filter (fun p => some p.1 != own)
  match chooseRun ls c n with
  | some r => (some r, s)
  | none =>
    let no := own.map (fun x => (s.tag x).frame.toNat)
    match victimTree 4 (tget 0 s.arr.frameTree (setKey bank set)) (s.frameVictims all c no) with
    | none => (none, s)
    | some f => (some (f, 0), (frameOf ls f).foldl (fun st p => st.evict p.1) s)

/-- Tag step: a slot for a line, and whether it held a dead-strict line (R102, R117). -/
def State.tagStep (s : State) (bank : Nat) (l : LineIx) (c : BitVec 3) (dup : Bool) : Option Slot × State :=
  let set := foldSet l.toNat
  let xs := slotsOf bank set
  let own := if dup then none else (s.slotIn bank l false).filter (fun x => (s.tag x).state != .live)
  match own, xs.find? (fun x => (s.tag x).state == .invalid), xs.find? (fun x => (s.tag x).state == .dead) with
  | some x, _, _ => (some x, s)
  | none, some x, _ => (some x, s)
  | none, none, some x => (some x, s)
  | none, none, none =>
    let ok := if s.cfg.frameShare c.toNat = 0 then [] else
      (s.liveOf bank set).filter (fun p => !p.2.pin && !p.2.dup && !s.lineBusy (slotLine p.1 p.2))
    match victimTree 5 (tget 0 s.arr.tagTree (setKey bank set)) (ok.map (fun p => p.1.ix)) with
    | some i => (some ⟨bank, set, i⟩, s.evict ⟨bank, set, i⟩)
    | none =>
      match xs.find? (fun x => (s.tag x).state == .deadStrict) with
      | some x => (some x, s.event 0x0401 srcSlice (addrWords (lineAddr (slotLine x (s.tag x)))))
      | none => (none, s)

/-- One more refusal or no_allocate of a cone at a shelf. The one that reaches THRESH in a window raises THRASH and marks the cone
pour-through (R113). -/
def State.thrashCount (s : State) (sh : Nat) (c : BitVec 3) : State :=
  let h := s.shelf sh
  let n := tget 0 h.thrash c.toNat
  let t := h.thresh.toNat
  let s1 := s.modShelf sh (fun h => { h with thrash := tmod 0 h.thrash c.toNat (· + 1) })
  if t ≠ 0 ∧ n < t ∧ t ≤ n + 1 then
    (s1.modShelf sh (fun h => { h with pour := setBit h.pour c.toNat true, calm := tset 0 h.calm c.toNat 0 })).event 0x0402 sh
      [c.toNat]
  else s1

/-- An allocation returned no_allocate: it counts for the thrash detector and the counters (R113, R431). -/
def State.noAllocate (s : State) (bank : Nat) (l : LineIx) (c : BitVec 3) : State :=
  (s.thrashCount (bank / 16) c).count 0x1D (Attr.ofLine l c) 1

/-- Allocate a line: its stored form goes to a new place under a new tag (R102). None is no_allocate. -/
def State.allocate (s : State) (bank : Nat) (l : LineIx) (t : Tag) (f : Stored) : Option Slot × State :=
  let set := foldSet l.toNat
  if !s.caches bank then (none, s) else
  match s.space bank set t.cone f.sectors none with
  | (none, s1) => (none, s1.noAllocate bank l t.cone)
  | (some (fr, st), s1) =>
    match s1.tagStep bank l t.cone t.dup with
    | (none, s2) => (none, s2.noAllocate bank l t.cone)
    | (some x, s2) =>
      let t' := { t with frame := BitVec.ofNat 4 fr, fstart := BitVec.ofNat 2 st }
      let s3 := s2.store x t' f
      (some x, if t.dup then s3 else s3.touch x)

/-- A fresh live tag of a line. -/
def newTag (l : LineIx) (sv sd : BitVec 4) (ep pin dup : Bool) (cone : BitVec 3) : Tag :=
  { state := .live, tag := BitVec.ofNat 34 (lineTag l.toNat), frame := 0, fstart := 0, csize := 3, glz := 0, sv := sv,
    sd := sd, ep := ep, pin := pin, dup := dup, cone := cone }

/-- Store new contents in a line that is present, in place when they fit, else moved (R98). None: there is no room. -/
def State.restore (s : State) (x : Slot) (t : Tag) (f : Stored) : Option State :=
  let old := s.tag x
  if f.sectors ≤ old.csize.toNat + 1 then some (s.store x { t with frame := old.frame, fstart := old.fstart } f)
  else match s.space x.bank x.set t.cone f.sectors (some x) with
    | (none, _) => none
    | (some (fr, st), s1) => some (s1.store x { t with frame := BitVec.ofNat 4 fr, fstart := BitVec.ofNat 2 st } f)

/-- The AUU writes the line buffer of a line to its bank: the line keeps its dirty sectors and its epoch (R98, R236). -/
def State.writeBuffer (s : State) (sh : Nat) (l : LineIx) : State :=
  match s.bufferAt sh l, s.liveSlot l, s.regionOf l with
  | none, _, _ => s
  | some b, some x, some (_, r) =>
    let t := s.tag x
    let s1 := s.dropBuffer sh l
    match s1.restore x t (storedForm (Region.glazeEn r) t.sv t.pin b.data) with
    | some s2 => s2
    | none => ((s1.freeDup l).backWrite l fullMask b.data t.cone srcWriteback (s.priorEpoch x) .nobody).setTag x Tag.empty
  | some _, _, _ => s.dropBuffer sh l

/-- An atomic whose result the line buffer keeps: the line is dirty in the epoch now open, and the bank is written later (R236). -/
def State.bufferResult (s : State) (sh : Nat) (x : Slot) (l : LineIx) (m : Mask) (d : Line) (n : Nat) : State :=
  let s0 := if s.priorEpoch x then s.cleanSlot x srcWriteback .nobody else s
  let t := s0.tag x
  let s1 := (s0.dropBuffer sh l).setTag x { t with sd := t.sd ||| touchedSectors m, ep := s0.ep.cur }
  (s1.modShelf sh (fun h => { h with lineBufs := h.lineBufs ++ [⟨l, d, n⟩] })).touch x

/-- Make or update the second copy of a P-class line (R333). None: it has no room (R334). -/
def State.writeDup (s : State) (l : LineIx) (t : Tag) (d : Line) : Option State :=
  let f := if t.glz = glzRaw then rawForm d else compress d
  let td := { t with dup := true, pin := false }
  match s.dupBank l with
  | none => none
  | some b =>
    match s.slotIn b l true with
    | some x => match s.restore x td f with
      | some s1 => some s1
      | none => none
    | none => match s.allocate b l td f with
      | (some _, s1) => some s1
      | (none, _) => none

/-- Where a write ended: done in the bank, waiting for the acknowledgement of backing, or needing the line first. -/
inductive Wrote where
  | done | acked | fetch
  deriving DecidableEq, Repr, Inhabited

/-- The line of a P-class write has no room for its second copy: the write goes through to backing and the line stays
clean, with no copy (R334). -/
def State.writeClean (s : State) (x : Slot) (l : LineIx) (m : Mask) (d : Line) (src : Nat) (w : Waiter) : Wrote × State :=
  let t := s.tag x
  (.acked, ((s.freeDup l).setTag x { t with sd := 0 }).backWrite l
    (m ||| (if t.glz = glzRaw then sectorMask t.sd else fullMask)) d t.cone src false w)

/-- After a line was written in its bank with SD set: P-class data gets its second copy (R333, R334). -/
def State.afterDirty (s : State) (x : Slot) (l : LineIx) (m : Mask) (d : Line) (src : Nat) (w : Waiter) : Wrote × State :=
  if s.pclass l = pcP then
    match s.writeDup l (s.tag x) d with
    | some s1 => (.done, s1)
    | none => s.writeClean x l m d src w
  else (.done, s)

/-- Write bytes of a line that is present (R92, R98, R107, R350, R351). `through` writes backing too and leaves SD
clear; the sectors touched become valid; a hit that carries the pour-through `mark` touches nothing (R100, R109). -/
def State.writePresent (s : State) (x : Slot) (r : Region) (l : LineIx) (m : Mask) (d : Line) (through mark : Bool)
    (src : Nat) (w : Waiter) : Wrote × State :=
  let t0 := s.tag x
  if touchedSectors m &&& ~~~(t0.sv ||| coveredSectors m) ≠ 0 then (.fetch, s) else
  let s0 := if s.priorEpoch x then s.cleanSlot x srcWriteback .nobody else s
  let t := s0.tag x
  let new := merge (s0.slotData x) d m
  let s0 := s0.dropBuffer (x.bank / 16) l
  let sv := t.sv ||| touchedSectors m
  let sd := if through then t.sd else t.sd ||| touchedSectors m
  let t' := { t with sv := sv, sd := sd, ep := if through then t.ep else s0.ep.cur }
  let f := storedForm (Region.glazeEn r) sv t.pin new
  match s0.restore x t' f with
  | some s1 =>
    let s2 := if mark then s1 else s1.touch x
    if through then (.acked, s2.backWrite l m d t.cone src false w)
    else s2.afterDirty x l m new src w
  | none =>
    let s1 := if sd = 0 then s0 else
      (s0.freeDup l).backWrite l fullMask new t.cone srcWriteback false (if through then .nobody else w)
    let s2 := s1.setTag x Tag.empty
    if through then (.acked, s2.backWrite l m d t.cone src false w) else (.acked, s2)

/-- Counts of RECLAIM_HIT (R116). -/
def State.reclaimHit (s : State) (l : LineIx) (c : BitVec 3) (a : Option AgentId) : State :=
  s.count 0x09 ⟨if a.isSome then 0 else 2, a, some l, some c, none, none⟩ 1

/-- A write of a line to its home under the region's policy (R92, R103, R107, R109, R116): the slice's half of R141
and of the write rows of R140. `mark` is the pour-through mark of the request, `pour` says that a miss does not allocate. -/
def State.writeHome (s : State) (r : Region) (l : LineIx) (m : Mask) (d : Line) (cone : BitVec 3) (mark pour : Bool)
    (src : Nat) (w : Waiter) : Wrote × State :=
  let bank := s.homeBank l
  let wp := Region.wpol r
  let out := fun (st : State) => (Wrote.acked, st.backWrite l m d cone src false w)
  match s.slotOf l with
  | some x =>
    if (s.tag x).state = .live then s.writePresent x r l m d (wp == 1) mark src w
    else if wp == 1 || wp == 2 || pour then out (s.setTag x Tag.empty)
    else if m ≠ fullMask then (.fetch, s)
    else
      let f := storedForm (Region.glazeEn r) 15 false d
      match s.allocate bank l (newTag l 15 15 s.ep.cur false false cone) f with
      | (some y, s1) => s1.afterDirty y l m d src w
      | (none, s1) => out (s1.setTag x Tag.empty)
  | none =>
    if wp == 1 || wp == 2 || pour || !s.caches bank then out s
    else
      let cov := coveredSectors m
      if touchedSectors m &&& ~~~cov ≠ 0 then (.fetch, s)
      else
        let f := storedForm (Region.glazeEn r) cov false d
        match s.allocate bank l (newTag l cov cov s.ep.cur false false cone) f with
        | (some y, s1) => s1.afterDirty y l m d src w
        | (none, s1) => out s1

/-- A read by a request touches the trees unless it pours through (R100, R109). -/
def State.readHit (s : State) (x : Slot) (pour : Bool) : State := if pour then s else s.touch x

/-- A fetched line arrives: merged under the valid sectors of a present line, whose second copy follows, or allocated when the miss
allocates (R91, R102, R103, R116, R333). The answer is the line's value. -/
def State.fill (s : State) (r : Region) (l : LineIx) (d : Line) (cone : BitVec 3) (alloc : Bool) :
    Line × Option Slot × State :=
  match s.liveSlot l with
  | some x =>
    let t := s.tag x
    let new := merge d (s.slotData x) (sectorMask t.sv)
    if t.sv = 15 then (new, some x, s) else
    let f := storedForm (Region.glazeEn r) 15 t.pin new
    match s.restore x { t with sv := 15 } f with
    | some s1 => (new, some x, if t.sd = 0 then s1 else (s1.afterDirty x l 0 new srcWriteback .nobody).2)
    | none => (new, some x, s)
  | none =>
    if !alloc || !s.caches (s.homeBank l) then (d, none, s) else
    let f := storedForm (Region.glazeEn r) 15 false d
    match s.allocate (s.homeBank l) l (newTag l 15 0 false false false cone) f with
    | (some x, s1) =>
      (d, some x, if f.glz = glzRaw then s1 else s1.count 0x08 (Attr.ofLine l cone) 1)
    | (none, s1) => (d, none, s1)

/-- Every slot of a bank invalid and both trees of every set zero (R99, R119). -/
def State.tagInvalidate (s : State) (bank : Nat) : State :=
  let lo := bank * 2048
  { s with arr := { s.arr with
      tags := s.arr.tags.filter (fun p => !(decide (lo * 32 ≤ p.1) && decide (p.1 < (lo + 2048) * 32)))
      frameTree := s.arr.frameTree.filter (fun p => !(decide (lo ≤ p.1) && decide (p.1 < lo + 2048)))
      tagTree := s.arr.tagTree.filter (fun p => !(decide (lo ≤ p.1) && decide (p.1 < lo + 2048))) } }

end Sys2Proof.Machine
end

