-- ==== Sys2Proof/Machine/Float.lean ====
section
/-! DEFINITION. Floating-point arithmetic of the AUU and the kiln (R225, R226, R229, R247, R249, R250). A finite value
is a sign and a magnitude counted in the smallest subnormal of its format, so sums and products are exact integers and
are rounded once. -/
namespace Sys2Proof.Machine

/-- What the largest exponent field codes: infinities and NaNs (IEEE 754), one NaN only (E4M3), or plain numbers. -/
inductive FmtTop where
  | ieee | nanOnly | plain
  deriving DecidableEq, Repr, Inhabited

/-- A binary format: exponent and mantissa widths, bias, and its top code (R76 RED_FMT, R222, R247). -/
structure Fmt where
  ebits : Nat
  mbits : Nat
  bias : Nat
  top : FmtTop
  nan : Nat
  deriving DecidableEq, Repr, Inhabited

def fp64 : Fmt := ⟨11, 52, 1023, .ieee, 0x7FF8000000000000⟩
def fp32 : Fmt := ⟨8, 23, 127, .ieee, 0x7FC00000⟩
def bf16 : Fmt := ⟨8, 7, 127, .ieee, 0x7FC0⟩
def fp16 : Fmt := ⟨5, 10, 15, .ieee, 0x7E00⟩
def e5m2 : Fmt := ⟨5, 2, 15, .ieee, 0x7E⟩
def e4m3 : Fmt := ⟨4, 3, 7, .nanOnly, 0x7F⟩
def e2m1 : Fmt := ⟨2, 1, 1, .plain, 0⟩
def e2m3 : Fmt := ⟨2, 3, 1, .plain, 0⟩
def e3m2 : Fmt := ⟨3, 2, 3, .plain, 0⟩

/-- Bits of a value of the format. -/
def Fmt.width (f : Fmt) : Nat := 1 + f.ebits + f.mbits
/-- The smallest subnormal is 2^(−f.scale). -/
def Fmt.scale (f : Fmt) : Nat := f.bias + f.mbits - 1

/-- A decoded value. -/
inductive Fv where
  | nan
  | inf (neg : Bool)
  | fin (neg : Bool) (mag : Nat)
  deriving DecidableEq, Repr, Inhabited

def Fmt.decode (f : Fmt) (v : Nat) : Fv :=
  let m := v % 2 ^ f.mbits
  let e := (v / 2 ^ f.mbits) % 2 ^ f.ebits
  let neg := v.testBit (f.ebits + f.mbits)
  let num := Fv.fin neg (if e = 0 then m else (2 ^ f.mbits + m) * 2 ^ (e - 1))
  if e = 2 ^ f.ebits - 1 then
    match f.top with
    | .ieee => if m = 0 then .inf neg else .nan
    | .nanOnly => if m = 2 ^ f.mbits - 1 then .nan else num
    | .plain => num
  else num

/-- The largest finite magnitude, in smallest subnormals. -/
def Fmt.maxMag (f : Fmt) : Nat :=
  match f.top with
  | .ieee => (2 ^ (f.mbits + 1) - 1) * 2 ^ (2 ^ f.ebits - 3)
  | .nanOnly => (2 ^ (f.mbits + 1) - 2) * 2 ^ (2 ^ f.ebits - 2)
  | .plain => (2 ^ (f.mbits + 1) - 1) * 2 ^ (2 ^ f.ebits - 2)

/-- The code of a magnitude that the format represents or that lies above it (R225): overflow gives infinity, in E4M3
the largest value. The second part says that it overflowed or saturated. -/
def Fmt.encode (f : Fmt) (neg : Bool) (mag : Nat) : Nat × Bool :=
  let s := b2n neg * 2 ^ (f.ebits + f.mbits)
  let code (m : Nat) : Nat :=
    if m < 2 ^ f.mbits then m
    else
      let d := Nat.log2 m - f.mbits
      (d + 1) * 2 ^ f.mbits + (m / 2 ^ d - 2 ^ f.mbits)
  if mag ≤ f.maxMag then (s + code mag, false)
  else
    match f.top with
    | .ieee => (s + (2 ^ f.ebits - 1) * 2 ^ f.mbits, true)
    | _ => (s + code f.maxMag, true)

/-- How a result is rounded: to nearest even, or stochastically with a 16-bit draw (R226). -/
inductive Rounding where
  | nearest
  | draw (r : BitVec 16)
  deriving DecidableEq, Repr, Inhabited

/-- Low bits to drop so that v, counted in 2^(−k), fits the format's precision. -/
def Fmt.dropBits (f : Fmt) (v k : Nat) : Nat :=
  let sh := k - f.scale
  let n := v >>> sh
  sh + (Nat.log2 n - f.mbits)

/-- The rounded magnitude, in smallest subnormals, of v counted in 2^(−k), k at least the format's scale. -/
def Fmt.roundMag (f : Fmt) (v k : Nat) (m : Rounding) : Nat :=
  let d := f.dropBits v k
  let q := v >>> d
  let rem := v % 2 ^ d
  let up := match m with
    | .nearest => decide (2 * rem > 2 ^ d) || (2 * rem == 2 ^ d && q % 2 == 1)
    | .draw r => decide (65536 * rem / 2 ^ d + r.toNat ≥ 65536)
  (q + b2n up) * 2 ^ (d - (k - f.scale))

/-- A result with what it raises (R225): overflow or saturation, invalid, and whether it took a draw (R226). -/
structure FResult where
  val : Nat
  overflow : Bool
  invalid : Bool
  drew : Bool
  deriving DecidableEq, Repr, Inhabited

/-- Is v (in 2^(−k)) representable (R226)? -/
def Fmt.exact (f : Fmt) (v k : Nat) : Bool := v % 2 ^ f.dropBits v k == 0 && decide (f.roundMag v k .nearest ≤ f.maxMag)
/-- Round an exact signed value counted in 2^(−k) into the format. -/
def Fmt.roundTo (f : Fmt) (neg : Bool) (v k : Nat) (m : Rounding) : FResult :=
  let e := f.encode neg (f.roundMag v k m)
  let drew := match m with | .nearest => false | .draw _ => !f.exact v k
  ⟨e.1, e.2, false, drew⟩

/-- The signed integer of a finite value. -/
def signed (neg : Bool) (mag : Nat) : Int := if neg then -(mag : Int) else (mag : Int)

/-- Sum in the format (R225): a sum of exactly zero is +0 unless both operands are −0. -/
def Fmt.add (f : Fmt) (a b : Nat) (m : Rounding) : FResult :=
  match f.decode a, f.decode b with
  | .nan, _ => ⟨f.nan, false, false, false⟩
  | _, .nan => ⟨f.nan, false, false, false⟩
  | .inf s, .inf t => if s = t then ⟨(2 ^ f.ebits - 1) * 2 ^ f.mbits + b2n s * 2 ^ (f.ebits + f.mbits), false, false, false⟩
      else ⟨f.nan, false, true, false⟩
  | .inf s, _ => ⟨(2 ^ f.ebits - 1) * 2 ^ f.mbits + b2n s * 2 ^ (f.ebits + f.mbits), false, false, false⟩
  | _, .inf s => ⟨(2 ^ f.ebits - 1) * 2 ^ f.mbits + b2n s * 2 ^ (f.ebits + f.mbits), false, false, false⟩
  | .fin s x, .fin t y =>
    let v := signed s x + signed t y
    if v = 0 then ⟨b2n (s && t) * 2 ^ (f.ebits + f.mbits), false, false, false⟩
    else f.roundTo (decide (v < 0)) v.natAbs f.scale m

/-- Is a at most b, −0 below +0, infinities at the ends? Neither is a NaN. -/
def Fv.le : Fv → Fv → Bool
  | .inf true, _ => true
  | _, .inf true => false
  | _, .inf false => true
  | .inf false, _ => false
  | .fin s x, .fin t y =>
    let a := signed s x
    let b := signed t y
    decide (a < b) || (decide (a = b) && (s || !t))
  | _, _ => true

/-- minimumNumber and maximumNumber (R222, R225). -/
def Fmt.minMax (f : Fmt) (wantMax : Bool) (a b : Nat) : Nat :=
  match f.decode a, f.decode b with
  | .nan, .nan => f.nan
  | .nan, _ => b
  | _, .nan => a
  | x, y => if (x.le y) != wantMax then a else b

/-- One element operation of a reduction: RED_OP 0 add, 1 min, 2 max (R76, R228). -/
def Fmt.reduce (f : Fmt) (op old carried : Nat) (m : Rounding) : FResult :=
  if op = 0 then f.add old carried m
  else ⟨f.minMax (op == 2) old carried, false, false, false⟩

/-- The exact value of an MXFP8 element under scale X, counted in 2^(−136): element × 2^(X − 127) (R229 step 2). -/
def mxValue (x code : Nat) : Fv :=
  match e4m3.decode code with
  | .fin s m => .fin s (m * 2 ^ x)
  | v => v

/-- One exact pairwise operation of R229 step 3. -/
def mxOp (op : Nat) (a b : Fv) : Fv :=
  match a, b with
  | .fin s x, .fin t y =>
    if op = 0 then
      let v := signed s x + signed t y
      if v = 0 then .fin (s && t) 0 else .fin (decide (v < 0)) v.natAbs
    else if (a.le b) != (op == 2) then a else b
  | .nan, .nan => .nan
  | .nan, _ => if op = 0 then .nan else b
  | _, .nan => if op = 0 then .nan else a
  | _, _ => a

/-- floor(log₂ a) − 8 + 127 where a is counted in 2^(−136): log2 − 17, held at 0 (R229 step 4). -/
def mxNewScale (rs : List Fv) : Nat :=
  let a := rs.foldl (fun m r => match r with | .fin _ x => max m x | _ => m) 0
  if a = 0 then 0 else min 254 (Nat.log2 a - 17)

end Sys2Proof.Machine
end

