-- ==== Sys2Proof/Machine/Auu.lean ====
section
/-! DEFINITION. The atomic-update unit: operand checks, scalar and vector operations, reductions, the lane generators and
the line buffer (R215 to R236). -/
namespace Sys2Proof.Machine

/-! ### Lane generators (R227, R230) -/

/-- One step of a generator. -/
def laneStep (v : BitVec 32) : BitVec 32 := if v.getLsbD 0 then (v >>> 1) ^^^ 0x80200003#32 else v >>> 1
/-- A draw takes the low 16 bits and steps 16 times. -/
def laneDraw (v : BitVec 32) : BitVec 16 × BitVec 32 :=
  (v.extractLsb' 0 16, (List.range 16).foldl (fun x _ => laneStep x) v)

/-- What a line operation carries along: the line, the generators, the flags it raises and the elements it updates. -/
structure AuuSt where
  line : Line
  lanes : List (BitVec 32)
  ovf : Bool
  inv : Bool
  updates : Nat
  deriving DecidableEq, Repr, Inhabited

/-- Take a rounded result for element i: a result that drew steps the generator of its lane position (R226, R230). -/
def AuuSt.round (a : AuuSt) (g i : Nat) (sr : Bool) (f : Rounding → FResult) : Nat × AuuSt :=
  let j := 32 * g + i % 32
  let v := a.lanes.getD j 1
  let r := if sr then f (.draw (laneDraw v).1) else f .nearest
  (r.val, { a with ovf := a.ovf || r.overflow, inv := a.inv || r.invalid
                   lanes := if r.drew then a.lanes.set j (laneDraw v).2 else a.lanes })

/-! ### Scalar operations (R220 to R223) -/

/-- Two's-complement value of w bits. -/
def asSigned (w v : Nat) : Int := if v.testBit (w - 1) then (v : Int) - 2 ^ w else v

/-- The integer operations: new value of w bits from the old one and the operand. -/
def intOp (w sop old b : Nat) : Nat :=
  if sop = 0 then (old + b) % 2 ^ w
  else if sop = 2 then if asSigned w old ≤ asSigned w b then old else b
  else if sop = 3 then if asSigned w old ≤ asSigned w b then b else old
  else if sop = 4 then min old b
  else if sop = 5 then max old b
  else if sop = 8 then old &&& b
  else if sop = 9 then old ||| b
  else if sop = 10 then old ^^^ b
  else b

/-- Every scalar operation but CAS (R222): new value and the effect on flags and generators. -/
def scalarOp (a : AuuSt) (g : Nat) (w64 : Bool) (sop : Nat) (sr : Bool) (old b : Nat) : Nat × AuuSt :=
  let f := if w64 then fp64 else fp32
  if sop = 1 then a.round g 0 sr (fun m => f.add old b m)
  else if sop = 6 then (f.minMax false old b, a)
  else if sop = 7 then (f.minMax true old b, a)
  else (intOp (if w64 then 64 else 32) sop old b, a)

/-- The old value of a scalar target, and the line with a new one. -/
def targetOf (l : Line) (word : Nat) (w64 : Bool) : Nat :=
  (l.extractLsb' (32 * word) 64).toNat % (if w64 then 2 ^ 64 else 2 ^ 32)
def setTarget (l : Line) (word : Nat) (w64 : Bool) (v : Nat) : Line :=
  merge l (BitVec.ofNat 1024 v <<< (32 * word)) (maskOf (4 * word) (if w64 then 8 else 4))

/-- A result of R223: the old value and SUCCESS. -/
def resultOf (old : Nat) (success : Bool) : BitVec 128 := BitVec.ofNat 128 (old + b2n success * 2 ^ 64)

/-- A scalar atomic on a line (R222, R223): `opa` the operand or compare value, `opb` the new value of a CAS. -/
def auuScalar (a : AuuSt) (g word : Nat) (w64 cas : Bool) (sop : Nat) (sr fetch : Bool) (opa opb : Nat) :
    AuuSt × Option (BitVec 128) :=
  let old := targetOf a.line word w64
  if cas then
    if old = opa then ({ a with line := setTarget a.line word w64 opb, updates := 1 }, some (resultOf old true))
    else ({ a with updates := 1 }, some (resultOf old false))
  else
    let r := scalarOp a g w64 sop sr old opa
    ({ r.2 with line := setTarget a.line word w64 r.1, updates := 1 },
     if fetch then some (resultOf old false) else none)

/-! ### Vector elements (R228 to R231) -/

def fmtOf (code : Nat) : Fmt :=
  if code = 0 then fp32 else if code = 1 then bf16 else if code = 2 then fp16 else if code = 3 then e4m3 else e5m2
def elemBytes (code : Nat) : Nat := if code = 0 then 4 else if code ≤ 2 then 2 else 1

/-- The byte mask of element i, or of MXFP8 block i with its scale byte. -/
def elemMask (code i : Nat) : Mask :=
  if code = 5 then maskOf (32 * i) 32 ||| maskOf (96 + i) 1 else maskOf (elemBytes code * i) (elemBytes code)
def elemCount (code : Nat) : Nat := if code = 5 then 3 else 128 / elemBytes code

/-- Element or block i takes part; some element or block is enabled in part (R231). -/
def takesPart (code : Nat) (m : Mask) (i : Nat) : Bool := m &&& elemMask code i == elemMask code i
def partElement (code : Nat) (m : Mask) : Bool :=
  (List.range (elemCount code)).any (fun i => !takesPart code m i && m &&& elemMask code i != 0)

/-- The code of element i of n bits. -/
def elemAt (l : Line) (bytes i : Nat) : Nat := (l >>> (8 * bytes * i)).toNat % 2 ^ (8 * bytes)
def setElem (l : Line) (bytes i v : Nat) : Line :=
  merge l (BitVec.ofNat 1024 v <<< (8 * bytes * i)) (maskOf (bytes * i) bytes)

/-- Reduce the carried elements that take part into the stored ones (R228). -/
def auuElements (a : AuuSt) (g code op : Nat) (sr : Bool) (carried : Line) (m : Mask) : AuuSt :=
  let n := elemBytes code
  (List.range (elemCount code)).foldl (fun st i =>
    if takesPart code m i then
      let (v, st') := st.round g i sr (fun r => (fmtOf code).reduce op (elemAt a.line n i) (elemAt carried n i) r)
      { st' with line := setElem st'.line n i v, updates := st'.updates + 1 }
    else st) { a with updates := 0 }

/-- Reduce one MXFP8 block (R229). -/
def mxBlock (a : AuuSt) (g op : Nat) (sr : Bool) (carried : Line) (k : Nat) : AuuSt :=
  let x := (byteOf a.line (96 + k)).toNat
  let y := (byteOf carried (96 + k)).toNat
  let es := (List.range 32).map (fun e => 32 * k + e)
  if x = 255 ∨ y = 255 then
    { a with line := merge a.line (BitVec.ofNat 1024 255 <<< (8 * (96 + k))) (elemMask 5 k), updates := a.updates + 32 }
  else
    let rs := es.map (fun i => mxOp op (mxValue x (byteOf a.line i).toNat) (mxValue y (byteOf carried i).toNat))
    let x' := mxNewScale rs
    let st := (es.zip rs).foldl (fun st p =>
      match p.2 with
      | .fin s v =>
        let (c, st') := st.round g p.1 sr (fun r => e4m3.roundTo s v (9 + x') r)
        { st' with line := setElem st'.line 1 p.1 c }
      | _ => { st with line := setElem st.line 1 p.1 0x7F }) a
    { st with line := setElem st.line 1 (96 + k) x', updates := st.updates + 32 }

/-- A line of MXFP8: each block that takes part; bytes 99 to 127 become 0 when one does (R228, R229). -/
def auuMx (a : AuuSt) (g op : Nat) (sr : Bool) (carried : Line) (m : Mask) : AuuSt :=
  let ks := (List.range 3).filter (takesPart 5 m)
  let st := ks.foldl (fun st k => mxBlock st g op sr carried k) { a with updates := 0 }
  if ks.isEmpty then st else { st with line := st.line &&& widen (maskOf 0 99) }

/-- A vector operation or reduction (R228). -/
def auuVector (a : AuuSt) (g code op : Nat) (sr : Bool) (carried : Line) (m : Mask) : AuuSt :=
  if code = 5 then auuMx a g op sr carried m else auuElements a g code op sr carried m

/-! ### Atoms and their checks (R220, R221, R224) -/

/-- The cause with which an Atom is rejected: 2 for an odd WORD with W64, 1 for every other breach. -/
def atomCause (aop : BitVec 8) (plen : Nat) (d : Line) : Option Nat :=
  let v := aop.toNat
  let p := d.toNat
  if bit v 7 then
    if plen ≠ 128 ∨ 5 < bits v 5 3 ∨ 2 < bits v 2 0 then some 1 else none
  else
    let w64 := bit v 6
    if w64 && bit v 1 then some 2
    else if plen ≠ 16 then some 1
    else if bit v 0 then
      if !w64 && (bits p 63 32 != 0 || bits p 127 96 != 0) then some 1 else none
    else if 0x0B < bits p 71 64 ∨ bits p 79 74 ≠ 0 ∨ bits p 127 80 ≠ 0 then some 1
    else if !w64 && bits p 63 32 != 0 then some 1
    else if bit p 73 && bits p 71 64 != 1 then some 1 else none

/-- Perform an Atom that passes its check on a line (R222, R228). -/
def auuAtom (a : AuuSt) (g : Nat) (aop : BitVec 8) (d : Line) : AuuSt × Option (BitVec 128) :=
  let v := aop.toNat
  let p := d.toNat
  if bit v 7 then (auuVector a g (bits v 5 3) (bits v 2 0) (bit v 6) d fullMask, none)
  else
    let w64 := bit v 6
    let w := if w64 then 64 else 32
    if bit v 0 then auuScalar a g (bits v 5 1) w64 true 0x0C false true (bits p (w - 1) 0) (bits p (63 + w) 64)
    else auuScalar a g (bits v 5 1) w64 false (bits p 71 64) (bit p 73) (bit p 72) (bits p (w - 1) 0) 0

/-- Bytes that an Atom covers (R196), and its byte mask. -/
def atomWidth (aop : BitVec 8) : Nat := if bit aop.toNat 7 then 128 else if bit aop.toNat 6 then 8 else 4
def atomMask (aop : BitVec 8) : Mask :=
  if bit aop.toNat 7 then fullMask else maskOf (4 * bits aop.toNat 5 1) (atomWidth aop)

/-! ### The unit in its shelf -/

/-- A lane group of the shelf works (R230, R336). -/
def Shelf.group (h : Shelf) : Option Nat :=
  if h.auuGroups.getLsbD 0 then some 0 else if h.auuGroups.getLsbD 1 then some 1 else none

/-- A spare lane is being fitted in a group (R335). -/
def State.groupBusy (s : State) (sh g : Nat) : Bool :=
  s.flt.work.any (fun w => match w.unit with
    | .auuLane k l => k.val == sh && l.val / 32 == g
    | _ => false)

/-- The group that takes the next line operation: in each cycle the first goes to group 0 and the second to group 1 (R230).
Whether an operation comes in the cycle of the one before it is free (log 18). -/
def State.takeGroup (s : State) (sh : Nat) : Nat × State :=
  match [0, 1].filter (fun g => (s.shelf sh).auuGroups.getLsbD g && !s.groupBusy sh g) with
  | [] => (0, s)
  | [g] => (g, s)
  | _ =>
    if (s.shelf sh).auuTurn then
      let (v, s1) := s.draw
      if v.getLsbD 0 then (1, s1.modShelf sh (fun h => { h with auuTurn := false })) else (0, s1)
    else (0, s.modShelf sh (fun h => { h with auuTurn := true }))

/-- Start of a line operation on a line in a shelf. -/
def State.auuStart (s : State) (sh : Nat) (l : Line) : AuuSt := ⟨l, (s.shelf sh).lanes, false, false, 0⟩
/-- End of one: generators and flags are kept, and it is counted (R225, R431). -/
def State.auuEnd (s : State) (sh : Nat) (a : AuuSt) (l : LineIx) (c : BitVec 3) (who : Option AgentId) : State :=
  let at' : Attr := ⟨if who.isSome then 0 else 2, who, some l, some c, none, some sh⟩
  ((s.modShelf sh (fun h => { h with lanes := a.lanes, auuOvf := h.auuOvf || a.ovf, auuInv := h.auuInv || a.inv })).count
    0x10 at' 1).count 0x11 at' a.updates

/-- A rejection: the count, the cause, the event (R224, R231, R233). -/
def State.auuReject (s : State) (sh cause : Nat) (who : Nat) (a : Nat) : State :=
  (s.modShelf sh (fun h => { h with auuRej := satAdd h.auuRej 1, auuCause := BitVec.ofNat 4 cause })).event 0x0901 sh
    ([cause, who] ++ addrWords a)

end Sys2Proof.Machine
end

