-- ==== Sys2Proof/Machine/PairOps.lean ====
section
/-! DEFINITION. Pair-mode operations that other families use: a region's role (R374, R381 to R383), mirror frames out
(R372), and the resync map (R384). -/
namespace Sys2Proof.Machine

/-- What this slice may do in a region: a region of no pair; writer twin; the other twin writes; solo; solo within the
delay; no writer yet; fenced. -/
inductive Role where
  | single | writer | forward | solo | soloWait | wait | fenced
  deriving DecidableEq, Repr, Inhabited

/-- The role for region i with entry r. -/
def State.role (s : State) (i : Nat) (r : Region) : Role :=
  let p := s.pair
  if !s.cfg.pairEn || (Region.pclass r != pcM && !p.unmatched.getLsbD i) then .single
  else if p.fenced.getLsbD i || p.unmatched.getLsbD i then (if p.walking.getLsbD i then .wait else .fenced)
  else if p.solo.getLsbD i then (if p.soloReady.getLsbD i then .solo else .soloWait)
  else if p.link = 0 then .wait
  else if p.writer.getLsbD i then .writer
  else match p.twin with
    | some h => if h.writers.getLsbD i then .forward else .wait
    | none => .wait

/-- Payload bytes of a frame (R372, R435). -/
def fwdPayload (w : FwdWrite) : Nat :=
  if Hdr.msg w.hdr = mWrP then 144 else if Hdr.msg w.hdr = mWrL then 128 else w.plen
def MFrame.payload : MFrame → Nat
  | .hello _ => 128
  | .mwr _ _ _ _ res => 144 + (if res.isSome then 16 else 0)
  | .mfwd w _ => fwdPayload w
  | .mrsync _ _ => 128
  | .mcfg _ _ => 32
  | .mack _ => 0
  | .mreclaim _ _ => 0
  | .mpoison _ => 0
def MFrame.isHello : MFrame → Bool
  | .hello _ => true
  | _ => false

def State.far (s : State) (n : Nat) : FarLink := tget FarLink.reset s.links.far n
def State.modFar (s : State) (n : Nat) (f : FarLink → FarLink) : State :=
  { s with links := { s.links with far := tmod FarLink.reset s.links.far n f } }

/-- TRAIN is raised on all lanes of a far port (R444). -/
def State.farTrain (s : State) (n : Nat) : State :=
  s.modFar n (fun l => { l with train := BitVec.allOnes 18, lanes := 0, retry := false })
/-- The mirror ports that are up change: without any the link is down, and not yet lost (R373, R380). -/
def State.mirrorPorts (s : State) (v : BitVec 2) : State :=
  { s with pair := { s.pair with ports := v, link := if v = 0 then 0 else s.pair.link } }
/-- The clock enables take new values: a far port that is enabled trains, one that is disabled is down (R404, R444). -/
def State.setEnables (s : State) (e0 : BitVec 16) (e1 : BitVec 22) : State :=
  let old := s.ckp.clken1
  let s1 : State := { s with ckp := { s.ckp with clken0 := e0, clken1 := e1 } }
  [0, 1].foldl (fun st n =>
    if e1.getLsbD (20 + n) = old.getLsbD (20 + n) then st
    else if e1.getLsbD (20 + n) then st.farTrain n
    else
      let st1 := st.modFar n (fun l => { l with train := 0, up := false, active := [], retry := false })
      st1.mirrorPorts (setBit st1.pair.ports n false)) s1

/-- Credits of the mirror channel, in frames of one direction (R372). -/
def frameCredits : Nat := 64
/-- The half of a far port runs. -/
def State.farOn (s : State) (n : Nat) : Bool :=
  let st := (s.half (Port.far (Fin.ofNat 2 n)).half).st
  st == .awake || st == .asking
/-- The flits of far port n that have not been sent go out, but for the time in which one of its lanes is replaced or its half does not
run, and no more than the channel has credits for: a credit returns as its frame is acknowledged (R328, R335, R372, R389; log 74). -/
def State.farPump (s : State) (n : Nat) : State :=
  let l := s.far n
  let out := (l.buffer.take frameCredits).filter (fun p => decide (l.unsent ≤ p.1))
  let wait := s.flt.work.any (fun w => match w.unit with
    | .farLane k _ => k.val == n
    | _ => false)
  if wait || !s.farOn n || out.isEmpty then s else
  let s1 := { s with out := { s.out with mirror := s.out.mirror ++ out.map (fun p => (n, p.2)) } }
  out.foldl (fun st p => (st.modFar n (fun l => { l with unsent := p.1 + 1 })).portOutBytes (44 + n) p.2.payload) s1
/-- Put a frame on far port n: it takes the next flit number and stays in the replay buffer until it is acknowledged (R328). -/
def State.farSend (s : State) (n : Nat) (f : MFrame) : State :=
  (s.modFar n (fun l => { l with txSeq := l.txSeq + 1, buffer := l.buffer ++ [(l.txSeq, f)] })).farPump n
/-- The partner asks for flits again, from the first that failed: those that it has not acknowledged are sent again, and counted once
only (R328, R435). -/
def State.farReplay (s : State) (n seq : Nat) : State :=
  let l := s.far n
  let again := l.buffer.filter (fun p => decide (seq ≤ p.1) && decide (p.1 < l.unsent))
  { s with out := { s.out with mirror := s.out.mirror ++ again.map (fun p => (n, p.2)) } }

/-- The port of a line's frames, under the assignment in use (R372). -/
def State.mirrorPort (s : State) (l : LineIx) : Option Nat :=
  let ups := onesOf s.pair.assign
  if ups.isEmpty then none else some (ups.getD (l.toNat % ups.length) 0)

/-- Frames of the old assignment still unacknowledged (R372). -/
def State.mirrorBusy (s : State) : Bool :=
  [0, 1].any (fun n => (s.far n).buffer.any (fun p => !p.2.isHello))

/-- Send the held frames once no frame of the old assignment is unacknowledged (R372). -/
def State.mirrorFlush (s : State) : State :=
  if s.pair.assign ≠ s.pair.ports ∧ s.mirrorBusy then s
  else
    let s1 := { s with pair := { s.pair with assign := s.pair.ports } }
    if s1.pair.assign = 0 then s1 else
    s.pair.held.foldl (fun st p => match st.mirrorPort p.1 with
      | some n => st.farSend n p.2
      | none => st) { s1 with pair := { s1.pair with held := [] } }

/-- Send a frame of a line, in order; nothing is sent while the link is lost (R372, R380). -/
def State.mirrorSend (s : State) (l : LineIx) (f : MFrame) : State :=
  if s.pair.lost then s
  else { s with pair := { s.pair with held := s.pair.held ++ [(l, f)] } }.mirrorFlush

/-- Tags of forwarded writes lie apart from those of mirrored ones (log 21). -/
def fwdTags : Nat := 2 ^ 40

/-- A frame that is answered: a fresh tag, which `waits` ties to what waits for the answer. -/
def State.mirrorAsk (s : State) (w : MWait) : Nat × State :=
  let n := s.pair.nextTag
  (n, { s with pair := { s.pair with nextTag := n + 1, waits := s.pair.waits ++ [(n, w)] } })

/-- M-class regions in index order (R384). -/
def Cfg.mRegions (c : Cfg) : List (Nat × Region) :=
  c.regions.filter (fun p => Region.valid p.2 && Region.pclass p.2 == pcM)
def Cfg.mSize (c : Cfg) : Nat := (c.mRegions.map (fun p => Region.size p.2)).foldl (· + ·) 0
/-- g of R384. -/
def Cfg.gshift (c : Cfg) : Nat :=
  ((List.range 32).find? (fun g => decide (c.mSize ≤ 2097152 * 4096 * 2 ^ g))).getD 31
/-- The M-class regions by their address. -/
def Cfg.mByBase (c : Cfg) : List Region := sortBy Region.base (c.mRegions.map Prod.snd)
/-- Granule of an M-class address: the regions' bytes counted through in address order, so that a walk over the granules is one over
ascending addresses (R384, R387). -/
def Cfg.granule (c : Cfg) (a : Nat) : Option Nat :=
  match c.mByBase.find? (fun r => Region.holds r a) with
  | some r =>
    let before := ((c.mByBase.filter (fun q => Region.base q < Region.base r)).map Region.size).foldl (· + ·) 0
    some ((before + (a - Region.base r)) / (4096 * 2 ^ c.gshift))
  | none => none
/-- Granules of the map (R384). -/
def Cfg.granules (c : Cfg) : Nat := (c.mSize + 4096 * 2 ^ c.gshift - 1) / (4096 * 2 ^ c.gshift)

/-- Mark a line in the resync map (R382). -/
def State.markLine (s : State) (l : LineIx) : State :=
  match s.cfg.granule (lineAddr l) with
  | some g => { s with pair := { s.pair with map := tset false s.pair.map g true } }
  | none => s

/-- PAIR_FENCED for a line and the agent that asked (R383). -/
def State.fencedEvent (s : State) (who : Nat) (l : LineIx) : State :=
  s.event 0x1003 srcSlice (who :: addrWords (lineAddr l))

end Sys2Proof.Machine
end

