-- ==== Sys2Proof/Machine/Deliver.lean ====
section
/-! DEFINITION. Answers to requests: the message to an agent (R138 to R140), or what an answer does for the part of the
slice that asked: a command, a ring, a mirror frame, the resynchronisation (R191, R192, R289, R307, R309, R378, R387). -/
namespace Sys2Proof.Machine

/-- The final answer to a request. -/
inductive Answer where
  | data (l : Line)
  | ack (result : Option (BitVec 128))
  | poison
  deriving DecidableEq, Repr, Inhabited

/-- Send a message from the home shelf; one whose port lies in the other half crosses the seam, and waits in its bridge while that
half sleeps, which is asked to wake (R23, R27, R431). -/
def State.sendFrom (s : State) (sh : Nat) (m : Msg) : State :=
  match m.port with
  | some p =>
    let s1 := s.wakeHalf p.half
    if (s1.half p.half).st ≠ .awake then { s1 with home := { s1.home with bridge := s1.home.bridge ++ [(p.half, .out sh m)] } }
    else if p.half = shelfHalf sh then s1.emit m
    else (s1.emit m).count 0x14 ⟨2, some m.dst, some m.line, some m.cone, some (classOf m.code.toNat), some sh⟩ 1
  | none => s.emit m

/-- A message to an agent about a line. -/
def msgTo (port : Option Port) (id : AgentId) (l : LineIx) (txn : BitVec 11) (cone : BitVec 3) (code : Nat) : Msg :=
  { Msg.empty with port := port, code := BitVec.ofNat 6 code, dst := id, line := l, txn := txn, cone := cone }

/-- A response to the agent that made a request. -/
def State.respond (s : State) (sh : Nat) (r : Req) (code : Nat) (f : Msg → Msg) : State :=
  match r.who with
  | .agent id p => s.sendFrom sh (f (msgTo (some p) id r.line r.txn r.cone code))
  | _ => s
/-- The last answer to an agent's request: its latency ends when it departs (R324). -/
def State.lastAnswer (s : State) (sh : Nat) (r : Req) (code : Nat) (f : Msg → Msg) : State :=
  s.respond sh r code (fun m => { f m with born := some r.born })
/-- The answer of an agent's request comes from another agent, so that no message of the slice ends its latency: it ends here (R324;
log 71). -/
def State.finish (s : State) (r : Req) : State :=
  match r.who with
  | .agent _ p => s.answered r.cone p r.born
  | _ => s

/-- Poison to the agent that made a request (R138). -/
def State.poisonAgent (s : State) (sh : Nat) (r : Req) : State := s.lastAnswer sh r mPoison id

/-- Ring n stops fetching on a Poison: FETCH_ERR and RING_FETCH_ERR (R309). -/
def State.fetchError (s : State) (n : Nat) : State :=
  (s.modRing n (fun r => { r with active := false, fetchErr := true, reading := false, flight := r.flight - 1, void := r.void - 1 })).event 0x0C04 srcSlice [n]

/-- CQ_ERR of completion ring m, and RING_CQ_ERR (R290, R309). -/
def State.cqError (s : State) (m : Nat) : State :=
  (s.modRing m (fun r => { r with cqErr := true })).event 0x0C02 srcSlice [m]

/-- Completion ring of submission ring n (R286). -/
def State.cqOf (s : State) (n : Nat) : Nat := (s.ring n).cq.toNat
/-- No fetched command of ring n is open (R308). -/
def State.ringIdle (s : State) (n : Nat) : Bool := s.cmds.ctxs.all (fun p => p.2.ring != n)
/-- Completion ring m is in use (R308). -/
def State.cqUsed (s : State) (m : Nat) : Bool :=
  (List.range 16).any (fun n => s.cqOf n == m && (s.ring n).en) || s.cmds.ctxs.any (fun p => p.2.cring == m)

/-- An enable ends: the ring runs, or CFG_ERR is set. A control-line read under way returns no tail for it, and a descriptor under way
does not move its SQ_HEAD (R307). -/
def State.enableEnd (s : State) (n : Nat) (bad : Bool) : State :=
  if bad then
    (s.modRing n (fun r => { r with en := false, enabling := false, cfgErr := true })).event 0x0C03 srcSlice [n]
  else
    let m := s.cqOf n
    let fresh := !(List.range 16).any (fun k => k != n && s.cqOf k == m && (s.ring k).en) && !s.cmds.ctxs.any (fun p => p.2.cring == m)
    let late := fun (p : Nat × Ctx) => (p.1, { p.2 with late := p.2.late || (p.2.ring == n && p.2.phase == Phase.fetched && !p.2.need.isEmpty) })
    let s0 : State := { s with cmds := { s.cmds with ctxs := s.cmds.ctxs.map late } }
    let s1 := s0.modRing n (fun r =>
      { r with enabling := false, active := true, tail := 0, sqHead := 0, void := r.flight, read := r.read.map (fun p => (none, p.2)) })
    if fresh then s1.modRing m (fun r => { r with cqTail := 0, cqHead := 0 }) else s1

/-- One control-line word of an enable has been read; those of an enable that was given up count for nothing (R307). -/
def State.enableRead (s : State) (n : Nat) (bad : Bool) : State :=
  let r := s.ring n
  if 0 < r.stale then s.modRing n (fun r => { r with stale := r.stale - 1 })
  else if !r.enabling then s
  else if r.checksLeft ≤ 1 then s.enableEnd n (r.checkBad || bad)
  else s.modRing n (fun r => { r with checksLeft := r.checksLeft - 1, checkBad := r.checkBad || bad })

/-- Bytes 0 to 15 of a control line have been read (R289). -/
def State.controlRead (s : State) (n : Nat) (l : Line) : State :=
  s.modRing n (fun g => { g with reading := false, flight := g.flight - 1, void := g.void - 1
                                 read := some (if g.void = 0 then some (wordOf l 0) else none, wordOf l 2) })

/-- Byte address of the descriptor at index i of ring n (R286, R288). -/
def State.descAddr (s : State) (n : Nat) (i : Word) : Nat :=
  (s.ring n).sqBase.toNat + 64 * (i.toNat % 2 ^ (s.ring n).sqLog.toNat)

/-- A descriptor has arrived in context c: SQ_HEAD passes its index, and the control line is to show it (R288, R291, R302). -/
def State.descArrived (s : State) (c : Nat) (l : Line) : State :=
  let x := s.ctx c
  let off := s.descAddr x.ring x.index % 128
  let s1 := s.modCtx c (fun x => { x with need := [], desc := l.extractLsb' (8 * off) 512 })
  if x.late then s1 else s1.modRing x.ring (fun r => { r with sqHead := x.index + 1, ctlDue := true })

/-- The first record of completion ring m has been written: CQ_TAIL passes it, its interrupt bit is set after it, and its context
is free (R302, R305). -/
def State.recordDone (s : State) (m : Nat) : State :=
  match (s.ring m).held with
  | [] => s
  | r :: rest =>
    let s1 := s.modRing m (fun g => { g with held := rest, putting := 0, cqTail := g.cqTail + 1, ctlDue := true })
    let s2 := s1.modCtx r.ctx (fun _ => Ctx.free)
    if r.irq || (bits r.lo.toNat 39 32 != 0 && (s.ring m).errIrq) then
      { s2 with cmds := { s2.cmds with irqStat := setBit s2.cmds.irqStat m true } }
    else s2

/-- Tag under which an MRSYNC of a line is acknowledged: the frame carries none (R372, log 21). -/
def syncTag (l : LineIx) : Nat := 2 ^ 48 + l.toNat

/-- A line of the granule being resynchronised has been read: its copy goes to the twin (R387). -/
def State.syncRead (s : State) (l : LineIx) (d : Option Line) : State :=
  match s.pair.sync.filter (fun p => p.reading == some l), d with
  | some p, some v =>
    { s with pair := { s.pair with sync := some { p with reading := none }
                                   waits := s.pair.waits ++ [(syncTag l, MWait.resync p.granule)] } }.mirrorSend l (.mrsync l v)
  | some p, none => { s with pair := { s.pair with sync := some { p with reading := none } } }
  | none, _ => s

/-- The frame wait with a tag, and the waits without it. -/
def State.mwait (s : State) (tag : Nat) (p : MWait → Bool) : Option MWait :=
  (s.pair.waits.find? (fun w => w.1 == tag && p w.2)).map Prod.snd
def State.dropWait (s : State) (tag : Nat) (p : MWait → Bool) : State :=
  { s with pair := { s.pair with waits := dropFirst (fun w => w.1 == tag && p w.2) s.pair.waits } }
def MWait.isForward : MWait → Bool
  | .forward _ => true
  | _ => false

/-- Change the reload of entry n (R284). -/
def State.modReload (s : State) (n : Nat) (f : Reload → Reload) : State :=
  { s with kiln := { s.kiln with reloads := modFirst (fun x => x.entry == n) f s.kiln.reloads } }

/-- HEAD of a job's input stream has been read (R272). -/
def State.headRead (s : State) (c : Nat) (v : Option (BitVec 64)) : State :=
  let got := fun (j : Job) => { j with headReading := false, headSeen := v.getD j.headSeen }
  { s with kiln := { s.kiln with jobs := modFirst (fun j => j.ctx == c) got s.kiln.jobs } }

/-- What an answer does for a command's context (R191). The lowest poisoned address is kept. -/
def State.deliverCmd (s : State) (c : Nat) (r : Req) (a : Answer) : State :=
  let ad := lineAddr r.line
  s.modCtx c (fun x => if x.phase = Phase.free then x else match a with
    | .data l => { x with need := x.need.erase ad, inbuf := tset 0 x.inbuf ad l }
    | .ack res => { x with out := x.out - 1, begun := true, progress := x.progress + popCount r.mask, results := match res with
        | some v => x.results ++ [(r.index, v.extractLsb' 0 64)]
        | none => x.results }
    | .poison => { x with need := x.need.erase ad, out := if r.op = .rdNC then x.out else x.out - 1
                          poison := some (match x.poison with
                            | some b => min ad b
                            | none => ad) })

/-- A line of an input vector has reached a shelf's broadcaster: it goes into the buffer half of every bank of the shelf that awaits
it (R256, R279). -/
def State.inputTake (s : State) (c sh a : Nat) (l : Line) : State :=
  match (s.job c).bind (fun j => j.need.find? (fun n => n.1 == sh && n.2.2 == a)) with
  | none => s
  | some n =>
    let put := fun (h : InHalf) => if h.ctx = c ∧ h.token = n.2.1 then { h with lines := tset 0 h.lines a l } else h
    (List.range 16).foldl (fun st k => if (st.peri (16 * sh + k)).halves.isEmpty then st
        else st.modPeri (16 * sh + k) (fun p => { p with halves := p.halves.map put }))
      (s.modJob c (fun j => { j with need := j.need.erase n }))
/-- The write of a bank's sums has been answered: they leave its output queue (R257). -/
def State.sumOut (s : State) (c b : Nat) (l : LineIx) : State :=
  s.modPeri b (fun p => { p with outq := dropFirst (fun q => q.1 == c && q.2.1 == lineAddr l) p.outq })

/-- An answer reaches the part of the slice that asked. -/
def State.deliver (s : State) (sh : Nat) (r : Req) (a : Answer) : State :=
  match r.who, a with
  | .agent _ _, .data l => s.lastAnswer sh r mDataS (fun m => { m with nocache := true, data := some l })
  | .agent _ _, .ack res => s.lastAnswer sh r mAck (fun m => { m with result := res })
  | .agent _ _, .poison => s.poisonAgent sh r
  | .cmd c, _ => (s.deliverCmd c r a).coneBytes r.cone (match a with
      | .data _ => 128
      | .ack _ => popCount r.mask
      | .poison => 0)
  | .input c n, .data l => (s.inputTake c n (lineAddr r.line) l).coneBytes r.cone 128
  | .input c _, _ => s.deliverCmd c r .poison
  | .sum c b, .ack _ => ((s.sumOut c b r.line).deliverCmd c r a).coneBytes r.cone (popCount r.mask)
  | .sum c b, _ => (s.sumOut c b r.line).deliverCmd c r .poison
  | .desc c, .data l => s.descArrived c l
  | .desc c, _ => (s.modCtx c (fun _ => Ctx.free)).fetchError (s.ctx c).ring
  | .ctl n, .data l => s.controlRead n l
  | .ctl n, _ => s.fetchError n
  | .enable n cq, .data l => s.enableRead n (if cq then wordOf l 2 != 0 else wordOf l 0 != 0)
  | .enable n _, _ => s.enableRead n true
  | .ctlOut _, _ => s
  | .record m last, .ack _ => if last then s.recordDone m else s.modRing m (fun g => { g with putting := 2 })
  | .record m _, _ => (s.modRing m (fun g => { g with putting := 0 })).cqError m
  | .result c, _ => s.deliverCmd c r a
  | .mirror tag _ _, _ => s.mirrorSend r.line (.mack tag)
  | .mfwd tag _, .poison => s.mirrorSend r.line (.mpoison tag)
  | .mfwd _ _, _ => s
  | .resync, .data l => s.syncRead r.line (some l)
  | .resync, _ => s.syncRead r.line none
  | .post, _ => s
  | .walk, _ => s
  | .cut, _ => s
  | .fenceWalk, _ => s
  | .victim, _ => s
  | .maint _, _ => s
  | .lineop, _ => s
  | .recover, _ => s
  | .reload n, .data l => s.modReload n (fun x => { x with need := x.need.erase (lineAddr r.line)
                                                           lines := tset 0 x.lines (lineAddr r.line) l })
  | .reload n, _ => s.modReload n (fun x => { x with need := x.need.erase (lineAddr r.line), bad := true })
  | .head c, .data l => (s.headRead c (some (l.extractLsb' 0 64))).coneBytes r.cone 128
  | .head c, _ => (s.headRead c none).deliverCmd c r .poison

/-- A write of a remote agent has been performed: its tally counts the bytes it covers (R196). -/
def State.tallyReq (s : State) (r : Req) : State :=
  match r.who with
  | .agent id _ =>
    let n := match r.op with
      | .wrL => 128
      | .wrP => popCount r.mask
      | _ => if bit r.aop.toNat 7 then 128 else if bit r.aop.toNat 6 then 8 else 4
    if (s.agent id).remote then s.tallyWrite id n else s
  | _ => s

/-- A write forwarded to the twin is answered: the one who asked here gets the answer (R377). -/
def State.answerForward (s : State) (tag : Nat) (a : Answer) : State :=
  match s.mwait tag MWait.isForward with
  | some (.forward r) =>
    let s1 := s.dropWait tag MWait.isForward
    (match a with
      | .ack _ => s1.tallyReq r
      | _ => s1).deliver (s.homeShelf r.line) r a
  | _ => s

/-- Poison answers a request; a mirrored copy of a forwarded write answers with it the one who forwarded it. -/
def State.refuseReq (s : State) (sh : Nat) (r : Req) : State :=
  match r.who with
  | .mirror tag true _ => (s.answerForward tag .poison).deliver sh r .poison
  | _ => s.deliver sh r .poison

/-- A write has been performed and its answer goes out: the tally of a remote agent first (R196, R197), then the answer;
a mirrored copy of a forwarded write answers the one who forwarded it, whose slice counts it (R377, log 77). -/
def State.performed (s : State) (sh : Nat) (r : Req) (res : Option (BitVec 128)) : State :=
  match r.who with
  | .agent _ _ => (s.tallyReq r).deliver sh r (.ack res)
  | .mirror tag fwd mres =>
    let s1 := if fwd then s.answerForward tag (.ack mres) else s
    s1.deliver sh r (.ack none)
  | _ => s.deliver sh r (.ack res)

end Sys2Proof.Machine
end

