-- ==== Sys2Proof/Machine/FaultOps.lean ====
section
/-! DEFINITION. The fault log and protocol errors (R149, R330, R342, R343), shared by every family that can raise one. -/
namespace Sys2Proof.Machine

/-- Kind code of a unit's fault (R330). -/
def kindOf : FaultUnit → Nat
  | .mat .. => 0x01
  | .bank _ => 0x04
  | .periphery _ => 0x08
  | .tagRow .. => 0x02
  | .dirWay .. => 0x03
  | .auuLane .. => 0x07
  | .farLane .. => 0x06
  | .mgmtCore => 0x09
  | .storeWord _ _ => 0x09
  | .sequencer _ => 0x0A
  | .seamLane _ => 0x04
  | .crossbarPort _ => 0x04
  | .pairLink _ => 0x04
  | .agentPort _ => 0x05
  | .nearPort _ => 0x05
  | .backingPort _ => 0x05
  | .lifeRecord => 0x0B

/-- UNIT and ELEMENT of a unit, as SPARE_SWAP numbers it. Of internal datapaths other than a bank's the spec gives no number: ELEMENT
1, 2 and 3 mark a seam lane, a crossbar port and a pair link (R340, R342; log 70). -/
def unitOf : FaultUnit → Nat × Nat
  | .mat b m _ => (b.val, m.val)
  | .bank b => (b.val, 0)
  | .periphery b => (b.val, 0)
  | .tagRow b row => (b.val, row.val)
  | .dirWay sh set w => (set.val, sh.val * 4096 + w.val)
  | .auuLane sh l => (sh.val, l.val)
  | .farLane p l => (p.val, l.val)
  | .mgmtCore => (0, 0)
  | .storeWord k _ => (0, 1 + k.val)
  | .sequencer h => (match h with
      | .a => 0
      | .b => 1, 0)
  | .seamLane k => (k.val, 1)
  | .crossbarPort k => (k.val, 2)
  | .pairLink k => (k.val, 3)
  | .agentPort n => (n.val, 0)
  | .nearPort n => (40 + n.val, 0)
  | .backingPort n => (32 + n.val, 0)
  | .lifeRecord => (0, 0)

/-- The three words of a unit in an event (R468). -/
def unitWords (u : FaultUnit) : List Nat := [kindOf u, (unitOf u).1, (unitOf u).2]

/-! ### Places and the units that serve them (R18, R335) -/

/-- The place among n that unit m of a group serves, by the table of replaced places: its own, one that it was fitted in, or none. -/
def placeIn (t : Table Nat) (base n m : Nat) : Option Nat :=
  if m < n ∧ tget 0 t (base + m) = 0 then some m
  else (t.find? (fun e => decide (base ≤ e.1) && decide (e.1 < base + n) && e.2 == m + 1)).map (fun e => e.1 - base)
/-- The unit that serves a place among n; a spare's number names itself. -/
def unitIn (t : Table Nat) (base n q : Nat) : Nat := if n ≤ q ∨ tget 0 t (base + q) = 0 then q else tget 0 t (base + q) - 1

/-- Keys of the tables of replaced places: of a bank's mats, its tag rows, and a directory set's ways. -/
def matKey (p : Nat) : Nat := p * 2048
def rowKey (p : Nat) : Nat := p * 2048
def wayKey (sh set : Nat) : Nat := (sh * 16384 + set) * 16

/-- The place that a unit serves: a mat or tag row of its physical bank, a way of its set, the bank that a physical bank serves as;
none while it is out of service or an unused spare. -/
def State.placeOf (s : State) (u : FaultUnit) : Option FaultUnit :=
  let p := s.flt.spares
  let there := fun (b : Fin 272) => 256 ≤ b.val || (s.bankServed b.val).isSome
  match u with
  | .mat b m rows => if there b then (placeIn p.mats (matKey b.val) 2048 m.val).map (fun q => .mat b (Fin.ofNat _ q) rows) else none
  | .tagRow b r => if there b then (placeIn p.tagRows (rowKey b.val) 2048 r.val).map (fun q => .tagRow b (Fin.ofNat _ q)) else none
  | .dirWay sh set w => (placeIn p.dirWays (wayKey sh.val set.val) 16 w.val).map (fun q => .dirWay sh set (Fin.ofNat _ q))
  | .bank b => (s.bankServed b.val).map (fun k => .bank (Fin.ofNat _ k))
  | .periphery b => (s.bankServed b.val).map (fun k => .periphery (Fin.ofNat _ k))
  | _ => some u
/-- The unit that serves a place; of a bank's parts the bank. -/
def State.unitAt (s : State) (v : FaultUnit) : FaultUnit :=
  let p := s.flt.spares
  match v with
  | .mat b q _ => .mat b (Fin.ofNat _ (unitIn p.mats (matKey b.val) 2048 q.val)) []
  | .tagRow b q => .tagRow b (Fin.ofNat _ (unitIn p.tagRows (rowKey b.val) 2048 q.val))
  | .dirWay sh set q => .dirWay sh set (Fin.ofNat _ (unitIn p.dirWays (wayKey sh.val set.val) 16 q.val))
  | .bank b => .bank (Fin.ofNat _ (s.physBank b.val))
  | .periphery b => .bank (Fin.ofNat _ (s.physBank b.val))
  | _ => v
/-- The name of a place in records: that of SPARE_SWAP, by the bank that its physical bank serves as (R342). -/
def State.named (s : State) (v : FaultUnit) : FaultUnit :=
  let bank := fun (b : Fin 272) => match s.bankServed b.val with
    | some k => Fin.ofNat 272 k
    | none => b
  match v with
  | .mat b q rows => .mat (bank b) q rows
  | .tagRow b q => .tagRow (bank b) q
  | _ => v
/-- The place that such a name stands for (R340). -/
def State.placeNamed (s : State) (u : FaultUnit) : FaultUnit :=
  let bank := fun (b : Fin 272) => if b.val < 256 then Fin.ofNat 272 (s.physBank b.val) else b
  match u with
  | .mat b q rows => .mat (bank b) q rows
  | .tagRow b q => .tagRow (bank b) q
  | _ => u

/-- What a storm of transients is counted for, if anything: a bank, a directory slice, a port or an AUU (R330). -/
def stormUnit : FaultUnit → Option FaultUnit
  | .mat b _ _ => some (.bank b)
  | .tagRow b _ => some (.bank b)
  | .bank b => some (.bank b)
  | .periphery b => some (.bank b)
  | .dirWay sh _ _ => some (.dirWay sh 0 0)
  | .auuLane sh _ => some (.auuLane sh 0)
  | .farLane n _ => some (.farLane n 0)
  | .agentPort n => some (.agentPort n)
  | .nearPort n => some (.nearPort n)
  | .backingPort n => some (.backingPort n)
  | _ => none
/-- ECLK cycles of an hour, at 50 MHz (R401). -/
def hourCycles : Nat := 180000000000
/-- A transient fault: counted for its kind, and for its bank, directory slice, port or AUU within the last hour (R329, R330). -/
def State.transient (s : State) (u : FaultUnit) : State :=
  let k := kindOf u
  let recent := s.flt.perUnit.filter (fun p => decide (s.ckp.eclk < p.2 + hourCycles))
  { s with flt := { s.flt with trans := tmod 0 s.flt.trans k (fun v => satAdd v 1), perUnit := recent ++ ((stormUnit (s.named ((s.placeOf u).getD u))).toList.map (·, s.ckp.eclk)) }
           life := { s.life with trans := tmod 0 s.life.trans k (· + 1), changed := true } }.count 0x18 Attr.internal 1

/-- OUTCOME codes (R342). -/
def outRepeated : Nat := 0
def outRefetched : Nat := 1
def outOther : Nat := 2
def outCopy : Nat := 3
def outTwin : Nat := 4
def outPoisoned : Nat := 5
def outQuenched : Nat := 6
def outReloaded : Nat := 7
def outSpared : Nat := 8
def outRetired : Nat := 9
def outFailover : Nat := 10
def flSpared : Nat := 1
def flNoSpare : Nat := 2
def flQuench : Nat := 4

/-- The 256-bit fault-log entry (R342). -/
def faultEntry (kind pclass outcome flags unit element addr stamp poh seq : Nat) : BitVec 256 :=
  BitVec.ofNat 256 (leNat (bytesLE 1 kind ++ bytesLE 1 pclass ++ bytesLE 1 outcome ++ bytesLE 1 flags ++
    bytesLE 2 unit ++ bytesLE 2 element ++ bytesLE 8 addr ++ bytesLE 8 stamp ++ bytesLE 4 poh ++ bytesLE 4 seq))

/-- Write a fault-log entry; overwriting one not read sets OVF; it joins the history not yet written (R342). -/
def State.logFault (s : State) (kind pclass outcome flags : Nat) (ue : Nat × Nat) (addr : Nat) : State :=
  let seq := s.flt.logSeq + 1
  let slot := seq.toNat % 256
  let e := faultEntry kind pclass outcome flags ue.1 ue.2 addr s.ckp.eclk s.life.poh.toNat seq.toNat
  { s with flt := { s.flt with logSeq := seq, log := tset 0 s.flt.log slot e
                               ovf := s.flt.ovf || tget false s.flt.unread slot
                               unread := tset false s.flt.unread slot true }
           life := { s.life with hist := s.life.hist ++ [e], changed := true } }

/-- The 128 bits of a directory entry (R132). -/
def DirEntry.bits (e : DirEntry) : BitVec 128 :=
  let hs := match e.hstate with
    | .free => 0
    | .ds => 1
    | .dx => 2
    | .dO => 3
  let ptrs := ((e.sharers.take 4).zipIdx).foldl (fun acc p => acc + p.1.toNat * 2 ^ (64 + 12 * p.2)) 0
  BitVec.ofNat 128 (hs + b2n e.t * 4 + b2n e.coarse * 8 + e.dtag.toNat * 16 +
    (if e.coarse then 0 else e.sharers.length) * 2 ^ 35 + e.owner.toNat * 2 ^ 38 +
    (if e.t then e.tstate.toNat else 0) * 2 ^ 50 + (if e.coarse then e.groups.toNat * 2 ^ 64 else ptrs))

/-! ### Directory lookup (R131) -/

def dirKey (sh set way : Nat) : Nat := (sh * 16384 + set) * 16 + way
def State.way (s : State) (k : Nat) : DirEntry := tget DirEntry.empty s.dir.ways k
def State.setWay (s : State) (k : Nat) (e : DirEntry) : State :=
  { s with dir := { s.dir with ways := tset DirEntry.empty s.dir.ways k e } }
/-- A way holds an entry, or is taken by an open transaction. -/
def DirEntry.used (e : DirEntry) : Bool := e.hstate != .free || e.t
/-- Key of the way of a line at a shelf. -/
def State.wayOf (s : State) (sh : Nat) (l : LineIx) : Option Nat :=
  ((List.range 16).map (dirKey sh (dirSet l.toNat))).find? (fun k =>
    (s.way k).used && (s.way k).dtag.toNat == dirTag l.toNat)
/-- The directory entry of a line: that of its way, else empty. -/
def State.entryOf (s : State) (l : LineIx) : DirEntry :=
  match s.wayOf (s.homeShelf l) l with
  | some k => s.way k
  | none => DirEntry.empty

/-- A protocol error (R149): the header and the entry are recorded, the fault log takes an entry, and a quench is
triggered. Messages discarded during a quench are never protocol errors (R359). -/
def State.protocolError (s : State) (h : Hdr) : State :=
  if s.quenching then s else
  let e := (s.entryOf (Hdr.line h)).bits
  ({ s with flt := { s.flt with peHdr := h, peDir := e } }.logFault 0x0C 0xFF outQuenched flQuench (0, 0) 0).trigger 2

end Sys2Proof.Machine
end

