-- ==== Sys2Proof/Machine/HomeOps.lean ====
section
/-! DEFINITION. Requests on their way to a home: the streams of a shelf (R108, R109), the conflict queues and their ties
(R154 to R157, R313), saggar and kiln accesses (R69, R78, R217, R332), and what makes a request wait before its home (R27,
R60, R243, R335, R382, R410). -/
namespace Sys2Proof.Machine

/-! ### Requests -/

def Req.agentId (r : Req) : Option AgentId :=
  match r.who with
  | .agent id _ => some id
  | _ => none

/-- Privilege of what caused a request (R430). -/
def State.reqPriv (s : State) (r : Req) : Nat :=
  match r.who with
  | .agent _ _ => 0
  | .cmd c => (s.ring (s.ctx c).ring).priv.toNat
  | .input c _ => (s.ring (s.ctx c).ring).priv.toNat
  | .sum c _ => (s.ring (s.ctx c).ring).priv.toNat
  | _ => 2

/-- What an event of a request carries. -/
def State.reqAttr (s : State) (r : Req) (sh : Nat) (cls : Option Nat) : Attr :=
  ⟨s.reqPriv r, r.agentId, some r.line, some r.cone, cls, some sh⟩

/-- The agent ID in an event about a request. -/
def Req.eventId (r : Req) : Nat :=
  match r.agentId with
  | some id => id.toNat
  | none => noAgent

def opOfCode (code : Nat) : ReqOp :=
  if code = mRdS then .rdS else if code = mRdX then .rdX else if code = mUpg then .upg else if code = mRdV then .rdV
  else if code = mRdNC then .rdNC else if code = mWrL then .wrL else if code = mWrP then .wrP else .atom
def ReqOp.isRead : ReqOp → Bool
  | .rdS => true
  | .rdX => true
  | .rdV => true
  | .rdNC => true
  | _ => false
def ReqOp.isWrite : ReqOp → Bool
  | .wrL => true
  | .wrP => true
  | .atom => true
  | _ => false
/-- RdS, RdX or Upg: the requests that end with a Cmp (R139, R157). -/
def ReqOp.keeps : ReqOp → Bool
  | .rdS => true
  | .rdX => true
  | .upg => true
  | _ => false

/-- A request of the slice itself. -/
def mkReq (op : ReqOp) (who : Who) (l : LineIx) (cone : BitVec 3) : Req :=
  { op := op, who := who, line := l, txn := 0, cone := cone, scope := 0, mask := 0, data := 0, plen := 0, aop := 0,
    pour := false, plain := false, target := 0, group := 0, born := 0, waited := false, index := 0 }

/-! ### Streams (R108, R109) -/

/-- A request passes the stream detector: the pour-through mark it carries. -/
def State.streamStep (s : State) (sh : Nat) (id : AgentId) (l : LineIx) (c : BitVec 3) : Bool × State :=
  let h := s.shelf sh
  let n := l.toNat
  match h.streams.find? (fun x => x.agent == id && x.next == n) with
  | some x =>
    let y := { x with next := if x.desc then n - 1 else n + 1, len := x.len + 1, cone := c }
    let pl := s.cfg.pourLen c.toNat
    (pl != 0xFF && decide (2 ^ pl ≤ x.len), s.modShelf sh (fun h => { h with streams := dropFirst (· == x) h.streams ++ [y] }))
  | none =>
    -- the last index of an ascending stream is next − 1, of a descending one next + 1
    match h.streams.find? (fun x => x.agent == id && (if x.desc then x.next + 1 else x.next - 1) == n + 1) with
    | some x =>
      let y := { x with desc := true, next := n - 1, len := 2, cone := c }
      (false, s.modShelf sh (fun h => { h with streams := dropFirst (· == x) h.streams ++ [y] }))
    | none =>
      let keep := if h.streams.length < 32 then h.streams else h.streams.drop 1
      (false, s.modShelf sh (fun h => { h with streams := keep ++ [⟨id, false, n + 1, 1, c⟩] }))

/-! ### The conflict store (R154 to R157, R313) -/

/-- A transaction is open on the line, or a request for it waits for a directory way (R154, R166). -/
def Txn.on (t : Txn) (l : LineIx) : Bool :=
  t.req.line == l || (match t.victimFor with
    | some r => r.line == l
    | none => false)
def State.lineOpen (s : State) (l : LineIx) : Bool := s.home.txns.any (fun t => t.on l)
def State.txnOf (s : State) (l : LineIx) : Option Txn := s.home.txns.find? (fun t => t.req.line == l)
def State.modTxn (s : State) (l : LineIx) (f : Txn → Txn) : State :=
  { s with home := { s.home with txns := modFirst (fun t => t.req.line == l) f s.home.txns } }
def State.dropTxn (s : State) (l : LineIx) : State :=
  { s with home := { s.home with txns := dropFirst (fun t => t.req.line == l) s.home.txns } }

/-- A request takes an entry of the conflict store: those of the maintenance engines do not (R313). -/
def Who.stored : Who → Bool
  | .victim => false
  | .maint _ => false
  | .lineop => false
  | .recover => false
  | _ => true

/-- A write of a twin or of the slice's own upkeep is performed here whatever the role. -/
def Who.isMirror : Who → Bool
  | .mirror _ _ _ => true
  | .resync => true
  | .recover => true
  | .walk => true
  | .cut => true
  | .fenceWalk => true
  | .victim => true
  | .maint _ => true
  | .lineop => true
  | _ => false

/-- A write that the twin forwarded (R377). -/
def Who.isForwarded : Who → Bool
  | .mfwd _ _ => true
  | _ => false

/-- Requests that hold a store entry at a shelf: queued, and open until their transaction closes (R313). -/
def State.stored (s : State) (sh : Nat) : List Req :=
  (s.home.cq ++ s.home.txns.map Txn.req ++ s.home.txns.filterMap Txn.victimFor).filter
    (fun r => s.homeShelf r.line == sh && r.who.stored)

/-- A cone may take one more store entry (R313). -/
def State.storeRoom (s : State) (sh : Nat) (c : BitVec 3) : Bool :=
  let rs := s.stored sh
  let held := fun (k : Nat) => (rs.filter (fun r => r.cone.toNat == k)).length
  let sum := (List.range 8).foldl (fun a k => a + s.cfg.queueShare k) 0
  let shared := (List.range 8).foldl (fun a k => a + (held k - 8 * s.cfg.queueShare k)) 0
  decide (held c.toNat < 8 * s.cfg.queueShare c.toNat) || decide (shared < 8 * (64 - sum))
/-- Records open at a shelf, of 256 (R156). -/
def State.records (s : State) (sh : Nat) : Nat := (s.home.txns.filter (fun t => s.homeShelf t.req.line == sh)).length

/-- Note the occupancy in the high-water marks (R464). -/
def State.marks (s : State) (sh : Nat) : State :=
  let n := s.records sh
  let q := (s.stored sh).length
  s.modShelf sh (fun h => { h with txnHwm := if h.txnHwm.toNat < n then BitVec.ofNat 9 n else h.txnHwm
                                   cqHwm := if h.cqHwm.toNat < q then BitVec.ofNat 10 q else h.cqHwm })

/-- The same request, whether or not it has waited since. -/
def Req.same (a b : Req) : Bool := { a with waited := true } == { b with waited := true }
/-- Order of a tie: agents by rotated group, then ID, and the request from the internal input last (R155). -/
def tieKey (prio : BitVec 6) (r : Req) : Nat :=
  match r.agentId with
  | some id => (r.group - prio).toNat * 4096 + id.toNat
  | none => 64 * 4096

/-- Order the requests that one shelf took in one cycle, line by line (R155). -/
def State.retie (s : State) (sh : Nat) : State :=
  let h := s.shelf sh
  let lines := sortBy id (dedup (h.tie.map (fun r => r.line.toNat)))
  lines.foldl (fun st l =>
    let rs := st.home.cq.filter (fun r => r.line.toNat == l && h.tie.any r.same)
    if rs.length < 2 then st
    else
      let prio := (st.shelf sh).prio
      let ord := sortBy (tieKey prio) rs
      let st1 := { st with home := { st.home with cq := st.home.cq.filter (fun r => !rs.contains r) ++ ord } }
      match ord.find? (fun r => r.agentId.isSome) with
      | some r => st1.modShelf sh (fun h => { h with prio := r.group + 1 })
      | none => st1) (s.modShelf sh (fun h => { h with prio := h.tiePrio }))

/-- A request joins the conflict queue of its line; a tied one came in the same cycle as the one before (R154, R155). -/
def State.enqueue (s : State) (r : Req) (tied : Bool) : State :=
  let sh := s.homeShelf r.line
  let s1 := { s with home := { s.home with cq := s.home.cq ++ [r] } }
  let s2 := if s.lineOpen r.line then s1.count 0x0D (s.reqAttr r sh (some 0)) 1 else s1
  let s3 := s2.modShelf sh (fun h =>
    if tied then { h with tie := h.tie ++ [r] } else { h with tie := [r], tiePrio := h.prio })
  (if tied then s3.retie sh else s3).marks sh

/-- Two requests wait in one channel: the same port, or both inside (R156, R313). -/
def sameChannel (a b : Req) : Bool :=
  match a.who, b.who with
  | .agent _ p, .agent _ q => p == q
  | .agent _ _, _ => false
  | _, .agent _ _ => false
  | _, _ => true

/-- The half whose cycles a request's wait is counted in: its port's, or its home shelf's for the slice's own (R314). -/
def State.reqHalf (s : State) (r : Req) : HalfClk :=
  match r.who with
  | .agent _ p => s.half p.half
  | _ => s.half (shelfHalf (s.homeShelf r.line))
/-- Effective cone of something that has waited n FCLK cycles (R314). -/
def effCone (c : BitVec 3) (n : Nat) : Nat := min 7 (c.toNat + n / 512)

/-- A request reaches its home: it enters the store, or stays in its channel (R156, R313). -/
def State.arrive (s : State) (r0 : Req) (tied : Bool) : State :=
  let r := if r0.agentId.isSome then r0 else { r0 with born := (s.reqHalf r0).fclk }
  let sh := s.homeShelf r.line
  let behind := s.home.vc.any (fun q => sameChannel q r && s.homeShelf q.line == sh)
  if !behind && s.storeRoom sh r.cone && decide (s.records sh < 256) then s.enqueue r tied
  else
    let s1 := { s with home := { s.home with vc := s.home.vc ++ [{ r with waited := true }] } }
    match r.who with
    | .agent _ p => s1.holdBuffer p 0
    | _ => s1

/-- A request in a channel may enter the store: it is at the channel's head, and there is room. -/
def State.mayArrive (s : State) (r : Req) : Bool :=
  let sh := s.homeShelf r.line
  let ahead := (s.home.vc.takeWhile (· != r)).any (fun q => sameChannel q r && s.homeShelf q.line == sh)
  !ahead && s.storeRoom sh r.cone && decide (s.records sh < 256)
/-- A request has left its channel: its buffer is free (R145). -/
def State.leaveChannel (s : State) (r : Req) : State :=
  match r.who with
  | .agent _ p => s.giveBack p 0
  | _ => s
/-- Up to n requests enter from the channels, each time the one of the highest effective cone, then the oldest (R313, R314). -/
def State.drainChannels : Nat → State → State
  | 0, s => s
  | n + 1, s =>
    match minBy (fun r => 7 - effCone r.cone ((s.reqHalf r).fclk - r.born)) (s.home.vc.filter s.mayArrive) with
    | some r =>
      let s1 := ({ s with home := { s.home with vc := dropFirst (· == r) s.home.vc } }).enqueue r false
      drainChannels n (s1.leaveChannel r)
    | none => s
/-- Entries were freed: the requests in the channels are tried again. -/
def State.retryChannels (s : State) : State := s.drainChannels s.home.vc.length

/-! ### What a request waits for before its home -/

/-- The shelf's backing port failed again after a restart: its two shelves are not served (R336). -/
def State.shelfLost (s : State) (sh : Nat) : Bool :=
  2 ≤ (s.flt.portsDown.filter (fun u => match u with
    | .backingPort n => n.val == portOfShelf sh
    | _ => false)).length
/-- The shelf or its half sleeps (R27, R410), or it is lost. -/
def State.asleep (s : State) (sh : Nat) : Bool :=
  s.ckp.doze.getLsbD sh || (s.half (shelfHalf sh)).st != .awake || s.shelfLost sh
/-- A firing job holds the bank: it heads the bank's queue and has started (R243, R261; log 4). -/
def State.bankFires (s : State) (b : Nat) : Bool :=
  match s.bankQueue b with
  | c :: _ => (s.job c).isSome && (s.ctx c).phase == Phase.acting
  | [] => false
/-- The bank fires, or a spare is being fitted in it (R243, R335). -/
def State.bankBusy (s : State) (b : Nat) : Bool := s.bankFires b || s.fitting b
/-- A spare is being fitted for the tag row or the directory set of a cache line (R335). -/
def State.setBusy (s : State) (l : LineIx) : Bool :=
  s.flt.work.any (fun w => match w.unit with
    | .tagRow p set => s.bankServed p.val == some (s.homeBank l) && set.val == foldSet l.toNat
    | .dirWay sh set _ => sh.val == s.homeShelf l && set.val == dirSet l.toNat
    | _ => false)
/-- Spare lanes are being fitted in every group that could serve a shelf's line operations (R335). -/
def State.laneBusy (s : State) (sh : Nat) : Bool :=
  let up := [0, 1].filter (fun g => (s.shelf sh).auuGroups.getLsbD g)
  !up.isEmpty && up.all (s.groupBusy sh)
/-- A spare tag row is being fitted where a saggar line has its POISON bit (R332, R335). -/
def State.poisonBusy (s : State) (bank off : Nat) : Bool :=
  s.flt.work.any (fun w => match w.unit with
    | .tagRow p set => s.bankServed p.val == some bank && set.val == off % 4194304 / 2048
    | _ => false)
/-- Byte offset of an address in the saggar window. -/
def State.winOff (s : State) (a : Nat) : Nat := a - s.window

/-- Bank of a line: its home bank, or the bank that the window names (R69, R74). -/
def State.bankOf (s : State) (l : LineIx) : Nat :=
  match s.place (lineAddr l) with
  | .cache _ r => s.cfg.homeBank r l.toNat
  | .saggar _ _ => s.winOff (lineAddr l) / 4194304
  | .kiln _ _ => s.winOff (lineAddr l) / 4194304
  | .tally t => if t < 512 then 0 else 128
  | .nowhere => 0

/-- An address lies in an area that an open glaze point affects, from the hold to the resumption, or in such a bank (R59, R60). -/
def State.glazeAt (s : State) (a bank : Nat) : Bool :=
  (s.glaze.step == .draining || s.glaze.step == .preparing)
    && (s.glaze.banks.contains bank || s.glaze.areas.any (fun p => decide (p.1 ≤ a) && decide (a < p.1 + p.2)))
/-- Kiln jobs on the bank wait for the glaze point, or it for them (R60, R63). -/
def State.glazeBank (s : State) (b : Nat) : Bool := s.glazeAt (s.window + b * 4194304) b
/-- Requests to the line are held by an open glaze point (R60). A bank of the window counts by its place there, also while no region
lies over it. -/
def State.glazeHolds (s : State) (l : LineIx) : Bool :=
  let a := lineAddr l
  s.glazeAt a (match s.place a with
    | .nowhere => if s.window ≤ a then s.winOff a / 4194304 else 256
    | .tally _ => 256
    | _ => s.bankOf l)

/-- The request waits outside its home for a wake, a spare, a firing bank, a glaze point, a writer twin, or behind one that waits for the same line. -/
def State.mustWait (s : State) (r : Req) : Bool :=
  let a := lineAddr r.line
  let bank := s.bankOf r.line
  let own := r.who.isMirror
  (!own && (s.glazeHolds r.line || s.home.held.any (fun q => q.line == r.line))) ||
  (match s.place a with
    | .cache _ _ => s.asleep (bank / 16) || s.bankBusy bank
    | .saggar _ _ => s.asleep (bank / 16) || s.bankBusy bank || s.poisonBusy bank (s.winOff a)
        || (r.op == .atom && s.laneBusy (bank / 16))
        || (s.quenching && !own && (match r.who with
          | .ctl _ => false
          | .record _ _ => s.ep.step != 7
          | .ctlOut _ => s.ep.step != 7
          | .post => s.ep.step != 7
          | _ => true))
    | .kiln _ _ => s.asleep (bank / 16) || s.bankBusy bank || s.quenching
    | .tally _ => (s.half (shelfHalf (bank / 16))).st != .awake || s.quenching
    | .nowhere => false)

def State.holdReq (s : State) (r : Req) : State :=
  { s with home := { s.home with held := s.home.held ++ [{ r with waited := true }] } }

/-- A message waits for a sleeping half: its wake is asked for (R27, R414). -/
def State.askWake (s : State) (sh : Nat) : State :=
  s.wakeHalf (shelfHalf sh)

/-- A request of the slice's own is placed at its home; one that sleeps is woken (R35). -/
def State.placeOwn (s : State) (r : Req) : State := (s.askWake (s.homeShelf r.line)).arrive r false

/-- A range activity has an operation pending at a bank (R125, R353). -/
def State.rangePending (s : State) (b : Nat) : Bool :=
  (s.home.cq ++ s.home.vc ++ s.home.held ++ s.home.txns.map Txn.req).any (fun r => (match r.who with
    | .maint _ => true
    | _ => false) && s.homeBank r.line == b)

/-! ### Pair mode at the entrance (R374, R377, R382, R383) -/

/-- The entry of an M-class region that an address lies in. -/
def State.regionAt (s : State) (a : Nat) : Option (Nat × Region) :=
  match s.place a with
  | .cache i r => some (i, r)
  | .saggar i r => some (i, r)
  | .kiln i r => some (i, r)
  | _ => none
def State.roleAt (s : State) (a : Nat) : Role :=
  match s.regionAt a with
  | some (i, r) => s.role i r
  | none => .single

/-- The header of a write that is forwarded (R372): that of the original message. -/
def fwdHdr (r : Req) : Hdr :=
  let code := match r.op with
    | .wrL => mWrL
    | .wrP => mWrP
    | _ => mAtom
  let src := match r.agentId with
    | some id => id.toNat
    | none => 0
  BitVec.ofNat 128 (code + 2 ^ 7 + src * 2 ^ 8 + r.line.toNat * 2 ^ 32 + r.txn.toNat * 2 ^ 77 + r.cone.toNat * 2 ^ 88
    + r.scope.toNat * 2 ^ 91 + r.aop.toNat * 2 ^ 112)

/-- Send a write to the writer twin, its data counted for its cone (R323, R377). -/
def State.forward (s : State) (r : Req) : State :=
  let s := s.coneBytes r.cone (if r.op = .atom then r.plen else 128)
  let tag := fwdTags + s.pair.nextTag
  let pair := { s.pair with nextTag := s.pair.nextTag + 1, waits := s.pair.waits ++ [(tag, MWait.forward r)] }
  { s with pair := pair }.mirrorSend r.line (.mfwd ⟨fwdHdr r, r.mask, r.data, r.plen⟩ tag)

/-- Answer a request to a fenced region (R383). -/
def State.answerFenced (s : State) (r : Req) : State :=
  let s1 := if r.agentId.isSome then s.fencedEvent r.eventId r.line else s
  s1.deliver (s.bankOf r.line / 16) r .poison

/-! ### Saggar and kiln space (R69, R78, R217, R332) -/

/-- A control line in this saggar line is watched, and its first 16 bytes are written by an agent: the front end reads it
(R289). -/
def State.watchWrite (s : State) (r : Req) : State :=
  if r.agentId.isSome && r.mask &&& 0xFFFF ≠ 0 then
    (List.range 16).foldl (fun st n =>
      let g := st.ring n
      if g.watched && g.ctl.toNat / 128 == r.line.toNat && (g.en || st.cqUsed n) then
        st.modRing n (fun g => { g with reading := true })
      else st) s
  else s

/-- A write to a saggar line is in the bank: mirrored in an M-class region, else answered (R175, R376, R382). -/
def State.saggarDone (s : State) (r : Req) (m : Mask) (res : Option (BitVec 128)) : State :=
  let sh := s.bankOf r.line / 16
  let s1 := s.watchWrite r
  if r.who.isMirror then s1.performed sh r res else
  match s.roleAt (lineAddr r.line) with
  | .writer =>
    let s1 := s1.coneBytes r.cone 128
    let d := s.arrLine (s.winOff (lineAddr r.line))
    match r.who with
    | .mfwd tag _ =>
      ({ s1 with pair := { s1.pair with waits := s1.pair.waits ++ [(tag, MWait.saggar r res)] } }).mirrorSend r.line
        (.mwr r.line m d tag res)
    | _ =>
      let (tag, s2) := s1.mirrorAsk (.saggar r res)
      s2.mirrorSend r.line (.mwr r.line m d tag res)
  | .solo => (s1.markLine r.line).performed sh r res
  | _ => s1.performed sh r res

/-- An access to a saggar line at its bank. -/
def State.saggarAccess (s : State) (r : Req) : State :=
  let a := s.winOff (lineAddr r.line)
  let ix := a / 128
  let sh := a / 4194304 / 16
  if (s.shelf sh).retired.getLsbD (a / 4194304 % 16) then s.refuseReq sh r
  else match r.op with
  | .wrL => ((s.setArr a r.data fullMask).setPoison ix false).saggarDone r fullMask none
  | .wrP =>
    if s.poisoned ix && r.mask != fullMask then s.refuseReq sh r
    else ((s.setArr a r.data r.mask).setPoison ix false).saggarDone r r.mask none
  | .atom =>
    match atomCause r.aop r.plen r.data, (s.shelf sh).group with
    | some c, _ => (s.auuReject sh c r.eventId (lineAddr r.line)).refuseReq sh r
    | none, none => s.refuseReq sh r
    | none, some _ =>
      -- nothing queues at a saggar bank, so no Atom heads a queue at the close and the line buffer is written at once (R236)
      if s.poisoned ix then s.refuseReq sh r else
      let (g, s) := s.takeGroup sh
      let (u, res) := auuAtom (s.auuStart sh (s.arrLine a)) g r.aop r.data
      ((s.setArr a u.line fullMask).auuEnd sh u r.line r.cone r.agentId).saggarDone r (atomMask r.aop) res
  | _ => if s.poisoned ix then s.refuseReq sh r else s.deliver sh r (.data (s.arrLine a))

/-- A read of a kiln line at its bank (R78). -/
def State.kilnRead (s : State) (r : Req) : State :=
  let a := s.winOff (lineAddr r.line)
  s.deliver (a / 4194304 / 16) r (.data (s.arrLine a))

/-! ### Dispatch -/

/-- The values of the 16 tallies of a tally line (R81, R82). -/
def State.tallyLine (s : State) (a : Nat) : Line :=
  let t0 := (a - s.window - 2 ^ 30) / 8
  lineOfBytes ((List.range 16).flatMap (fun i => bytesLE 8 (s.tally (t0 + i)).toNat))

/-- After an incomplete rollback every access to an E-class region is answered with Poison (R364). -/
def State.lostEpoch (s : State) (r : Req) : Bool :=
  s.ep.incomplete && !s.quenching && s.pclass r.line == pcE && !r.who.isMirror

/-- A request that passed the checks of its port or its command goes on to its home. -/
def State.dispatch (s : State) (r : Req) (tied : Bool) : State :=
  if s.lostEpoch r then s.deliver (s.homeShelf r.line) r .poison
  else if s.mustWait r then (s.holdReq r).askWake (s.bankOf r.line / 16) else
  let rl := s.roleAt (lineAddr r.line)
  if rl = .fenced && !r.who.isMirror then s.answerFenced r
  else if r.op.isWrite && !r.who.isMirror && !r.who.isForwarded && rl = .forward then s.forward r
  else if r.op.isWrite && !r.who.isMirror && (rl = .wait || rl = .soloWait || rl = .forward) then s.holdReq r
  else match s.place (lineAddr r.line) with
    | .cache _ _ => s.arrive r tied
    | .saggar _ _ => s.saggarAccess r
    | .kiln _ _ => s.kilnRead r
    | .tally t => s.deliver (if t < 512 then 0 else 8) r (.data (s.tallyLine (lineAddr r.line)))
    | .nowhere => s.refuseReq 0 r

/-- A request of an agent that a rule refuses: Poison and ADDR_MISS (R71, R78). -/
def State.missAnswer (s : State) (r : Req) : State :=
  (s.poisonAgent 0 r).event 0x0301 srcSlice (addrWords (lineAddr r.line) ++ [r.eventId])

/-- The access table of R78 for an agent's request to a region. -/
def accessOk (op : ReqOp) (space acc : Nat) : Bool :=
  match op with
  | .rdS => acc != 2
  | .rdV => acc != 2
  | .rdNC => acc != 2
  | .rdX => acc == 0 || (acc == 1 && space != spCache)
  | .upg => acc == 0 && space == spCache
  | _ => acc == 0 && space != spKiln

/-- The configuration has no place for this request of an agent, or no access to it (R71, R78). -/
def State.missed (s : State) (r : Req) : Bool :=
  r.agentId.isSome && (match s.place (lineAddr r.line) with
    | .nowhere => true
    | .tally _ => r.op == .atom || r.op == .upg
    | .cache _ g => !accessOk r.op spCache (Region.access g)
    | .saggar _ g => !accessOk r.op spSaggar (Region.access g)
    | .kiln _ g => !accessOk r.op spKiln (Region.access g))

/-- What held requests waited for may have ended: each is dispatched again, in arrival order, under the configuration that
now stands; what a glaze point holds waits for its end, whether its region is there or not (R60). -/
def State.releaseHeld (s : State) : State :=
  s.home.held.foldl (fun st r =>
    if st.missed r then (if st.glazeHolds r.line then st.holdReq r else st.missAnswer r) else st.dispatch r false)
    { s.freshAgents with home := { s.home with held := [] } }

/-- When a glaze point begins to hold, the requests that wait in the conflict queues and channels of affected lines are held with
those that come later, in their order, and arrive again at its end (R60). -/
def State.unqueueHeld (s : State) : State :=
  let hit := fun (r : Req) => !r.who.isMirror && s.glazeHolds r.line
  let out := (s.home.cq.filter hit ++ s.home.vc.filter hit).map (fun r => { r with waited := true })
  let home := { s.home with held := s.home.held ++ out,
                            cq := s.home.cq.filter (fun r => !hit r), vc := s.home.vc.filter (fun r => !hit r) }
  (s.home.vc.filter hit).foldl (fun st r => st.leaveChannel r) { s with home := home }

/-- The agent has an RdS, RdX or Upg queued or open on the line (R157). -/
def State.breaks157 (s : State) (r : Req) : Bool :=
  r.op.keeps && (s.home.cq ++ s.home.vc ++ s.home.held ++ s.home.txns.map Txn.req ++ s.home.txns.filterMap Txn.victimFor).any
    (fun q => q.op.keeps && q.line == r.line && q.agentId == r.agentId)

/-- Beats of a message on its link, inward (R28, R439). -/
def beatsIn (p : Port) (payload : Nat) : Nat :=
  let w := match p with
    | .agent _ => 64
    | _ => 512
  max 1 ((payload + w - 1) / w)
/-- The unit of a port's beats. -/
def portUnit (p : Port) : Option FaultUnit :=
  match p with
  | .agent n => some (.agentPort n)
  | .near n => some (.nearPort n)
  | .far _ => none
/-- A message has come in on a port: its payload bytes are counted, its beats take the next sequence numbers, and a beat that
was resent has passed (R329, R435, R439, R441). -/
def State.comeIn (s : State) (p : Port) (payload : Nat) : State :=
  let s0 := if (s.half p.half).st = .asking then s.stayAwake p.half else s
  let s1 := s0.portInBytes p.index payload
  let l := s1.link p
  let s2 := s1.setLink p { l with rxSeq := l.rxSeq + BitVec.ofNat 7 (beatsIn p payload), discarding := false, nak := none }
  match l.discarding, portUnit p with
  | true, some u => s2.transient u
  | _, _ => s2

/-- Payload bytes of a request, as its port counts them (R435). -/
def reqPayload (op : ReqOp) (plen : Nat) : Nat :=
  match op with
  | .wrL => 128
  | .wrP => 144
  | .atom => plen
  | _ => 0

/-- Steps 1 to 3 of a quench: requests of the domain's agents get Poison (R363). -/
def State.halting (s : State) : Bool := 1 ≤ s.ep.step && s.ep.step ≤ 3

/-- A message that enters on a port of the half in which its home shelf does not lie crosses the seam (R23, R431). -/
def State.crossIn (s : State) (p : Port) (sh : Nat) (id : AgentId) (l : LineIx) (c : BitVec 3) (cls : Nat) : State :=
  if p.half = shelfHalf sh then s else s.count 0x14 ⟨0, some id, some l, some c, some cls, some sh⟩ 1
/-- A request goes from its port to its home shelf. -/
def State.route (s : State) (p : Port) (r : Req) (tied : Bool) : State :=
  (s.crossIn p (s.bankOf r.line / 16) (r.agentId.getD 0) r.line r.cone 0).dispatch r tied

/-- The request that a REQ message of the given code spells (R137). -/
def State.reqOf (s : State) (port : Port) (h : Hdr) (code : Nat) (mask : Mask) (data : Line) (plen : Nat) : Req :=
  let op := opOfCode code
  { op := op, who := .agent (Hdr.src h) port, line := Hdr.line h, txn := Hdr.txn h, cone := Hdr.cone h, scope := Hdr.scope h,
    mask := if op = .wrL then fullMask else if op = .atom then atomMask (Hdr.aop h) else mask, data := data,
    plen := plen, aop := Hdr.aop h, pour := false, plain := false, target := 0,
    group := BitVec.ofNat 6 (s.agent (Hdr.src h)).group, born := (s.half port.half).fclk, waited := false, index := 0 }

/-- A request of an agent that has not joined gets Poison, with an event unless it is leaving (R150). -/
def State.fromStranger (s : State) (port : Port) (r : Req) (id : AgentId) : State :=
  let s1 := s.poisonAgent port.shelf r
  if (s.agent id).st = .leaving then s1 else s1.event 0x0302 srcSlice [id.toNat]

/-- The pour-through mark that a request gets from the stream detector of its port's shelf, which reads, WrL and WrP pass, Upg and
Atom do not (R108, R109; log 67). -/
def State.pourMark (s : State) (port : Port) (r : Req) (id : AgentId) : Bool × State :=
  if r.op.isRead || r.op = .wrL || r.op = .wrP then
    let (pour, s1) := s.streamStep port.shelf id r.line r.cone
    (pour, if pour then s1.count 0x05 (s1.reqAttr { r with pour := pour } port.shelf (some 0)) 1 else s1)
  else (false, s)

/-- A request goes where its line lies; one without a place that its opcode may reach is missed (R71, R78, R157). -/
def State.placed (s : State) (port : Port) (r : Req) (h : Hdr) (tied : Bool) : State :=
  if s.missed r then (if s.glazeHolds r.line then s.holdReq r else s.missAnswer r) else
  match s.place (lineAddr r.line) with
  | .tally _ => if r.op.isRead then s.route port r tied else s.poisonAgent port.shelf r
  | .cache i g =>
    if s.role i g = .fenced then s.answerFenced r
    else if s.breaks157 r then s.protocolError h
    else s.route port r tied
  | .saggar i g => if s.role i g = .fenced then s.answerFenced r else s.route port r tied
  | _ => s.route port r tied

/-- A request of a joined agent, heard on a port: a quench answers Poison to its domain's agents (R363). -/
def State.fromJoined (s : State) (port : Port) (r : Req) (h : Hdr) (tied : Bool) : State :=
  let id := Hdr.src h
  let s1 := s.coneBytes r.cone (if r.op = .atom then r.plen else if r.op.isWrite then 128 else 0)
  let (pour, s2) := s1.pourMark port r id
  let r1 := { r with pour := pour }
  if s2.halting && !(s.agent id).remote then s2.poisonAgent port.shelf r1
  else (s2.setAgent id { s.agent id with port := some port }).placed port r1 h tied

/-- A REQ message enters on a port that is up: whether its sender has joined is judged first, then what a quench does with it, then
its line's place (R71, R78, R149, R150, R363). -/
def State.request (s : State) (port : Port) (h : Hdr) (code : Nat) (mask : Mask) (data : Line) (plen : Nat)
    (tied : Bool) : State :=
  if s.portDown port then s else
  let s0 := s.comeIn port (reqPayload (opOfCode code) plen)
  let r := s0.reqOf port h code mask data plen
  if !toHomeOk h code then s0.protocolError h
  else if (s0.agent (Hdr.src h)).st ≠ .yes then s0.fromStranger port r (Hdr.src h)
  else s0.fromJoined port r h tied

end Sys2Proof.Machine
end

