-- ==== Sys2Proof/Machine/Recover.lean ====
section
/-! DEFINITION. Recovering the dirty data of a cache line that a lasting fault took (R331, R333). A line whose data is to come from
an agent is lost until it is here; where no agent gives it, its class decides. -/
namespace Sys2Proof.Machine

/-- The line is no longer waiting for its data. -/
def State.found (s : State) (l : LineIx) : State := { s with flt := { s.flt with lost := s.flt.lost.filter (· != l) } }

/-- Data that a sharer returned goes into the spared unit, whole (R331). -/
def State.recoverData (s : State) (l : LineIx) (d : Line) : State :=
  let s0 := s.found l
  match s0.liveSlot l, s0.regionOf l with
  | some x, some (_, r) =>
    let t := s0.tag x
    (match s0.restore x { t with sv := 15 } (storedForm (Region.glazeEn r) 15 t.pin d) with
      | some s1 => if t.sd = 0 then s1 else (s1.afterDirty x l 0 d srcWriteback .nobody).2
      | none => ((s0.freeDup l).backWrite l fullMask d t.cone srcWriteback (s0.priorEpoch x) .nobody).setTag x Tag.empty)
  | _, _ => s0

/-- The line's only copy is gone: its slot is dead-strict, and the loss is reported (R331). -/
def State.loseLine (s : State) (x : Slot) (l : LineIx) : State :=
  let t := s.tag x
  (((s.freeDup l).dropBuffer (x.bank / 16) l).setTag x { Tag.empty with state := .deadStrict, tag := t.tag, cone := t.cone }).event
    0x0E03 srcSlice (addrWords (lineAddr l) ++ [s.pclass l])
/-- The twin can give back what this slice lost. -/
def State.twinThere (s : State) : Bool := s.cfg.pairEn && s.pair.link != 0 && !s.pair.lost

/-- The rows of R331 by class, for dirty data that no private cache returned: the OUTCOME and the state. What the second copy or the
twin holds is what the slot held, so the slot stays as it is. -/
def State.recoverClass (s : State) (l : LineIx) : Nat × State :=
  let s0 := s.found l
  match (s0.liveSlot l).filter (fun x => (s0.tag x).sd != 0) with
  | none => (outOther, s0)
  | some x =>
    let pc := s0.pclass l
    if pc = pcP && (s0.dupSlot l).isSome then (outCopy, s0)
    else if pc = pcM && s0.twinThere then (outTwin, s0)
    else if pc = pcE then (outQuenched, if s0.quenching then s0 else s0.trigger 3)
    else (outPoisoned, s0.loseLine x l)

/-- A line still lost is recovered by its class (R331). -/
def State.resolveLost (s : State) (l : LineIx) : State := if s.flt.lost.contains l then (s.recoverClass l).2 else s

end Sys2Proof.Machine
end

