-- ==== Sys2Proof/Machine/Txn.lean ====
section
/-! DEFINITION. Transactions at a home: the directory's entries (R131 to R136), the messages of admission (R140, R143,
R160, R162), performing a write, closing (R161), directory victims (R166), and Puts (R141, R164, R165). -/
namespace Sys2Proof.Machine

/-! ### Wait flags (R159) -/

def fC : BitVec 6 := 1
def fF : BitVec 6 := 2
def fI : BitVec 6 := 4
def fR : BitVec 6 := 8
def fB : BitVec 6 := 16
def fV : BitVec 6 := 32
def Txn.has (t : Txn) (f : BitVec 6) : Bool := t.tstate &&& f != 0
def Txn.put (t : Txn) (f : BitVec 6) : Txn := { t with tstate := t.tstate ||| f }
def Txn.clr (t : Txn) (f : BitVec 6) : Txn := { t with tstate := t.tstate &&& ~~~f }

def Txn.open (r : Req) : Txn :=
  { req := r, tstate := 0, invLeft := 0, invTo := [], invDone := [], coarse := false, fetch := false, filled := false, fwd := none, noxfer := false, recallTo := none,
    dirty := false, had := false, sent := false, work := .none, plan := .same, green := .none, fetched := none,
    mack := none, result := none, deferred := none, victimFor := none }

/-! ### The directory -/

/-- While a transaction is open on the line, its entry has T set and shows the record's flags (R132, R159; log 64). -/
def State.syncEntry (s : State) (l : LineIx) : State :=
  match s.wayOf (s.homeShelf l) l, s.txnOf l with
  | some k, some t => s.setWay k { s.way k with t := true, tstate := t.tstate }
  | _, _ => s

/-- Members of the marked groups, by the shelf's copy of the agent table (R35, R140, R152). -/
def State.members (s : State) (sh : Nat) (g : BitVec 64) : List AgentId :=
  ((s.shelf sh).agents.filter (fun p => (p.2.st == .yes || p.2.st == .leaving) && g.getLsbD (Agent.group p.2))).map
    (fun p => BitVec.ofNat 12 p.1)
/-- The owner of an entry. -/
def DirEntry.ownerId (e : DirEntry) : Option AgentId :=
  match e.hstate with
  | .dx => some e.owner
  | .dO => some e.owner
  | _ => none
/-- The agents that an Inv to "the sharers" reaches (R162). -/
def State.sharersOf (s : State) (sh : Nat) (e : DirEntry) : List AgentId :=
  match e.hstate with
  | .ds => if e.coarse then s.members sh e.groups else e.sharers
  | .dO => (if e.coarse then s.members sh e.groups else e.sharers).filter (· != e.owner)
  | _ => []
/-- An exact sharer (R140). -/
def DirEntry.exactSharer (e : DirEntry) (id : AgentId) : Bool :=
  (e.hstate == HState.ds || e.hstate == HState.dO) && !e.coarse && e.sharers.contains id

/-- Set the bit of an agent's group. -/
def State.markGroup (s : State) (g : BitVec 64) (id : AgentId) : BitVec 64 := setBit g (s.agent id).group true
/-- An Upg of this agent is granted without data (R140). -/
def DirEntry.grants (e : DirEntry) (id : AgentId) : Bool := e.exactSharer id || (e.hstate == HState.dO && e.owner == id)

/-- Add a sharer; the fifth makes the entry coarse (R134). -/
def State.addSharer (s : State) (e : DirEntry) (id : AgentId) : DirEntry :=
  let e' := { e with hstate := if e.hstate = HState.free then HState.ds else e.hstate }
  if e'.coarse then { e' with groups := s.markGroup e'.groups id }
  else if e'.sharers.contains id then e'
  else if e'.sharers.length < 4 then { e' with sharers := e'.sharers ++ [id] }
  else { e' with coarse := true, sharers := [], groups := (e'.sharers ++ [id]).foldl s.markGroup 0 }
/-- One owner, nobody else. -/
def DirEntry.toOwner (e : DirEntry) (id : AgentId) : DirEntry :=
  { e with hstate := .dx, owner := id, coarse := false, sharers := [], groups := 0 }
/-- Nobody. -/
def DirEntry.toNone (e : DirEntry) : DirEntry :=
  { e with hstate := .free, owner := 0, coarse := false, sharers := [], groups := 0 }
/-- No owner and no sharer is recorded; without sharers the entry is exact (R134). -/
def DirEntry.settle (e : DirEntry) : DirEntry :=
  let bare := if e.coarse then e.groups == 0 else e.sharers.isEmpty
  match e.hstate with
  | .free => e.toNone
  | .ds => if bare then e.toNone else e
  | .dx => { e with coarse := false, sharers := [], groups := 0 }
  | .dO => if bare then { e with coarse := false, sharers := [], groups := 0 } else e
/-- The owner leaves. -/
def DirEntry.dropOwner (e : DirEntry) : DirEntry :=
  match e.hstate with
  | .dx => e.toNone
  | .dO => { e with hstate := .ds, owner := 0 }
  | _ => e
/-- The holders that a transaction invalidated leave the entry, where its request ends with Poison: in coarse mode only the
requester, which is not sent Inv, can still hold the line (R161, R162). -/
def State.loseHolders (s : State) (t : Txn) (e : DirEntry) : DirEntry :=
  let r := t.req.agentId.getD 0
  let e1 := if e.ownerId.any (fun o => t.invTo.contains o || t.recallTo == some o || t.fwd == some o) then e.dropOwner else e
  if t.invTo.isEmpty then e1
  else if e1.coarse then
    { e1 with groups := if t.req.op.keeps && e1.groups.getLsbD (s.agent r).group then s.markGroup 0 r else 0 }
  else { e1 with sharers := e1.sharers.filter (fun a => !t.invTo.contains a) }
/-- An agent leaves the entry: as owner, or as an exact sharer. -/
def DirEntry.dropAgent (e : DirEntry) (id : AgentId) : DirEntry :=
  if e.ownerId = some id then e.dropOwner
  else if e.exactSharer id then { e with sharers := e.sharers.filter (· != id) } else e

/-- The change of a transaction to the entry as it stands (R140, R161). -/
def State.planned (s : State) (t : Txn) (e : DirEntry) : DirEntry :=
  let r := t.req.agentId.getD 0
  match t.plan with
  | .same => e
  | .owner => e.toOwner r
  | .share => s.addSharer e r
  | .downgrade =>
    if e.hstate = .dx then
      if t.dirty then s.addSharer { e with hstate := .dO, sharers := [] } r
      else s.addSharer { e with hstate := .ds, owner := 0, sharers := [e.owner] } r
    else s.addSharer e r
  | .clear => e.toNone
  | .drop => e.dropAgent t.req.target
  | .lost => s.loseHolders t e

/-- Ways of a line's directory set (R131). -/
def State.waysOf (s : State) (l : LineIx) : List Nat := (List.range 16).map (dirKey (s.homeShelf l) (dirSet l.toNat))
def State.retiredWay (s : State) (k : Nat) : Bool := tget false s.dir.retired k
/-- The lowest-numbered working way that holds nothing (log 75). -/
def State.freeWay (s : State) (l : LineIx) : Option Nat :=
  (s.waysOf l).find? (fun k => !(s.way k).used && !s.retiredWay k)
/-- Take a way for a line: it holds its tag with T set until the transaction closes. -/
def State.takeWay (s : State) (k : Nat) (l : LineIx) : State :=
  s.setWay k { DirEntry.empty with t := true, dtag := BitVec.ofNat 31 (dirTag l.toNat) }
/-- A transaction that completes on an entry touches its way (R135). -/
def State.touchWay (s : State) (k : Nat) : State :=
  { s with dir := { s.dir with trees := tmod 0 s.dir.trees (k / 16) (fun t => touchTree 4 t (k % 16)) } }

/-- Entries of a line's set that are transient, and their limit (R136, R336). -/
def State.transients (s : State) (l : LineIx) : Nat := ((s.waysOf l).filter (fun k => (s.way k).t)).length
def State.transientLimit (s : State) (l : LineIx) : Nat :=
  let w := ((s.waysOf l).filter (fun k => !s.retiredWay k)).length
  if w = 16 then 12 else w - 4

/-! ### Messages of a transaction -/

/-- A FWD message of a transaction (R137, R138). -/
def State.sendFwd (s : State) (sh : Nat) (r : Req) (dst : AgentId) (code : Nat) (f : Msg → Msg) : State :=
  (s.sendFrom sh (f (msgTo (s.agent dst).port dst r.line r.txn r.cone code))).count 0x0C (s.reqAttr r sh (some 2)) 1

/-- Send Inv to agents and await their answers: flag I. -/
def State.invalidate (s : State) (sh : Nat) (l : LineIx) (dst : List AgentId) (coarse : Bool) : State :=
  match s.txnOf l with
  | none => s
  | some t =>
    if dst.isEmpty then s
    else (dst.foldl (fun st id => st.sendFwd sh t.req id mInv (fun m => m)) s).modTxn l (fun t =>
      { t with tstate := t.tstate ||| fI, invLeft := dst.length, invTo := dst, invDone := [], coarse := coarse })

/-- Send a Recall to the owner: flag R. -/
def State.sendRecall (s : State) (sh : Nat) (l : LineIx) (o : AgentId) : State :=
  match s.txnOf l with
  | none => s
  | some t => (s.sendFwd sh t.req o mRecall (fun m => m)).modTxn l (fun t =>
      { t with tstate := t.tstate ||| fR, recallTo := some o })

/-- The supplier of a read for a reader at a location; none is the home (R143). -/
def State.supplier (s : State) (e : DirEntry) (l : LineIx) (loc : Nat) : Option AgentId :=
  let owner := e.ownerId.toList.map (fun o => (1, s.cfg.hop (s.agent o).loc loc, some o))
  let shs := if e.coarse then [] else
    e.sharers.map (fun a => (2, s.cfg.hop (s.agent a).loc loc, some a))
  let home := (0, s.cfg.hop 0 loc, (none : Option AgentId))
  let cands := match e.hstate with
    | .free => [home]
    | .ds => if e.coarse then [home] else (if (s.hit l).isSome then [home] else []) ++ shs
    | .dx => owner
    | .dO => owner ++ shs
  let near := cands.filter (fun p => p.1 == 1 || p.2.1 != 0xF)
  match minBy (fun p => p.2.1 * 2 ^ 20 + p.1 * 2 ^ 16 + (match p.2.2 with
      | some a => a.toNat
      | none => 0)) near with
  | some p => p.2.2
  | none => none

/-- The cone is marked pour-through at the shelf (R113). -/
def State.pouring (s : State) (sh : Nat) (c : BitVec 3) : Bool := (s.shelf sh).pour.getLsbD c.toNat

/-- The line is dead, so that a request for its data counts RECLAIM_HIT (R116). -/
def State.deadHit (s : State) (r : Req) : State :=
  match s.slotOf r.line with
  | some x => if (s.tag x).state = .live then s else s.reclaimHit r.line r.cone r.agentId
  | none => s

/-- Open a miss for a transaction: flag B (R104, R160). -/
def State.fetchFor (s : State) (r : Req) (alloc : Bool) : State :=
  ((s.deadHit r).openMiss (s.homeBank r.line) r.line r.cone alloc r.agentId .txn).modTxn r.line
    (fun t => { t.put fB with fetch := true, filled := false })

/-- The home supplies the line: from the bank when it is present with all sectors valid, else through a miss (R91, R100,
R140). -/
def State.supplyHome (s : State) (sh : Nat) (r : Req) (reg : Region) : State :=
  match s.hit r.line with
  | some x =>
    let d := s.slotData x
    ((s.readHit x r.pour).count 0x03 (s.reqAttr r sh (some 0)) 1).modTxn r.line (fun t => { t with fetched := some d })
  | none =>
    let alloc := Region.wpol reg != 2 && s.caches (s.homeBank r.line) && !r.pour && !s.pouring sh r.cone
    (s.count 0x04 (s.reqAttr r sh (some 0)) 1).fetchFor r alloc

/-! ### Serving a request (R140, R160) -/

/-- RdS, RdV, RdNC. -/
def State.serveRead (s : State) (sh : Nat) (r : Req) (reg : Region) (e : DirEntry) : State :=
  let loc := match r.agentId with
    | some id => (s.agent id).loc
    | none => 0
  let keep := r.op == .rdS
  let c := if keep then fC else 0
  match s.supplier e r.line loc with
  | none =>
    let plan := if !keep then Plan.same else if e.hstate = .free && Region.pclass reg != pcM then .owner else .share
    if r.who = Who.recover then s.resolveLost r.line else
    (s.modTxn r.line (fun t => { t.put c with work := .data, plan := plan })).supplyHome sh r reg
  | some o =>
    let own := r.agentId.isNone
    let s1 := s.sendFwd sh r o mFwdS (fun m => { m with req := r.agentId.getD 0, reqHome := own, noxfer := !keep })
    s1.modTxn r.line (fun t =>
      { t.put (c ||| fF ||| (if own then fB else 0)) with
        fwd := some o, noxfer := !keep, sent := true, work := if own then .data else .none
        plan := if !keep then .same else if e.hstate = .dx then .downgrade else .share })

/-- RdX, Upg. -/
def State.serveOwn (s : State) (sh : Nat) (r : Req) (reg : Region) (e : DirEntry) : State :=
  let id := r.agentId.getD 0
  let s0 := s.modTxn r.line (fun t => { t.put fC with plan := .owner })
  let others := (s.sharersOf sh e).filter (· != id)
  match e.hstate with
  | .free => (s0.modTxn r.line (fun t => { t with work := .data })).supplyHome sh r reg
  | .ds =>
    if r.op = .upg ∧ e.grants id then
      (s0.modTxn r.line (fun t => { t with work := .grant })).invalidate sh r.line others e.coarse
    else
      ((s0.modTxn r.line (fun t => { t with work := .data })).invalidate sh r.line others e.coarse).supplyHome sh r reg
  | .dx =>
    (s0.sendFwd sh r e.owner mFwdX (fun m => { m with req := id })).modTxn r.line (fun t =>
      { t.put fF with fwd := some e.owner, sent := true })
  | .dO =>
    if r.op = .upg ∧ e.grants id then
      let dst := if e.owner = id then others else e.owner :: others
      (s0.modTxn r.line (fun t => { t with work := .grant })).invalidate sh r.line dst e.coarse
    else
      ((s0.sendFwd sh r e.owner mFwdX (fun m => { m with req := id, wait := true })).modTxn r.line (fun t =>
        { t.put fF with fwd := some e.owner, work := .grant })).invalidate sh r.line others e.coarse

/-- The write is reduced into the line (R231, R232). -/
def reduces (reg : Region) (r : Req) : Bool :=
  Region.wpol reg == 3 && !r.plain && !r.who.isMirror && (r.op == ReqOp.wrL || r.op == ReqOp.wrP)
/-- The AUU performs the request. -/
def usesAuu (reg : Region) (r : Req) : Bool := r.op == ReqOp.atom || reduces reg r

/-- A plain write that misses does not allocate (R75, R107, R109, R113). -/
def State.passesBy (s : State) (sh : Nat) (r : Req) (reg : Region) : Bool :=
  Region.wpol reg == 1 || Region.wpol reg == 2 || r.pour || s.pouring sh r.cone || !s.caches (s.homeBank r.line)

/-- The write needs the line before it can be performed: an operation of the AUU on a line with a sector that is not valid, a WrP
of part of such a sector, a WrP to a dead line (R92, R116, R216). -/
def State.wantsLine (s : State) (sh : Nat) (r : Req) (reg : Region) : Bool :=
  if usesAuu reg r then (s.hit r.line).isNone
  else r.op == .wrP && (match s.slotOf r.line with
    | some x =>
      let t := s.tag x
      t.state != .live || touchedSectors r.mask &&& ~~~(t.sv ||| coveredSectors r.mask) != 0
    | none => !s.passesBy sh r reg && touchedSectors r.mask &&& ~~~(coveredSectors r.mask) != 0)
/-- The line that a write fetches is allocated (R107, R116, R216). -/
def State.fetchAllocates (s : State) (sh : Nat) (r : Req) (reg : Region) : Bool :=
  if usesAuu reg r then Region.wpol reg != 2 && s.caches (s.homeBank r.line) else !s.passesBy sh r reg
/-- The write's Ack waits for backing (R107, R216). -/
def State.throughDue (s : State) (sh : Nat) (r : Req) (reg : Region) : Bool :=
  Region.wpol reg == 1 || !s.caches (s.homeBank r.line)
  || ((s.liveSlot r.line).isNone && (if usesAuu reg r then Region.wpol reg == 2 else s.passesBy sh r reg))

/-- WrL, WrP, Atom: flag B is set at admission for a fetch or for the acknowledgement of backing (R160). -/
def State.serveWrite (s : State) (sh : Nat) (r : Req) (reg : Region) (e : DirEntry) : State :=
  let s0 := s.modTxn r.line (fun t => { t with work := .perform, plan := .clear })
  let s1 := match e.ownerId with
    | none => s0.invalidate sh r.line (s.sharersOf sh e) e.coarse
    | some o =>
      if r.op = ReqOp.wrL then s0.invalidate sh r.line (o :: s.sharersOf sh e) e.coarse
      else (s0.sendRecall sh r.line o).invalidate sh r.line (s.sharersOf sh e) e.coarse
  let s2 := if s1.throughDue sh r reg then s1.modTxn r.line (fun t => t.put fB) else s1
  if s2.wantsLine sh r reg then s2.fetchFor r (s2.fetchAllocates sh r reg) else s2

/-- Kind of the maintenance operation that a request is part of. -/
def State.maintKind (s : State) (w : Who) : Option RangeKind :=
  match w with
  | .maint n => (tget none s.ranges.slots n).map RangeAct.kind
  | .lineop => s.ranges.lineop.map LineOp.kind
  | _ => none

/-- The slice's own transactions: what each sends to the line's holders (R114, R120, R153, R158, R352, R382). -/
def State.serveOwnWork (s : State) (sh : Nat) (r : Req) (e : DirEntry) : State :=
  let all := e.ownerId.toList ++ s.sharersOf sh e
  let dropOwner := fun (st : State) => match e.ownerId with
    | some o => (st.modTxn r.line (fun t => { t with plan := .drop, req := { t.req with target := o } })).sendRecall sh r.line o
    | none => st
  let clearAll := fun (st : State) =>
    let st1 := st.modTxn r.line (fun t => { t with plan := .clear })
    match e.ownerId with
    | some o => (st1.sendRecall sh r.line o).invalidate sh r.line (s.sharersOf sh e) e.coarse
    | none => st1.invalidate sh r.line (s.sharersOf sh e) e.coarse
  let invAll := fun (st : State) =>
    (st.modTxn r.line (fun t => { t with plan := .clear })).invalidate sh r.line all e.coarse
  match r.who with
  | .walk =>
    let st := s.modTxn r.line (fun t => { t with plan := .drop })
    if e.ownerId = some r.target then st.sendRecall sh r.line r.target
    else if e.exactSharer r.target then st.invalidate sh r.line [r.target] false else st
  | .fenceWalk => invAll s
  | .mirror _ _ _ => invAll s
  | .cut => dropOwner s
  | .recover => dropOwner s
  | w =>
    match s.maintKind w with
    | some .inval => clearAll s
    | some .cleanInval => clearAll s
    | some .drain => clearAll s
    | some .reclaim => invAll s
    | some .pin => s
    | some .unpin => s
    | some _ => dropOwner s
    | none => s

/-- Serve the request of the line's transaction from the state its entry shows. -/
def State.serve (s : State) (l : LineIx) : State :=
  match s.txnOf l, s.regionOf l with
  | some t, some (_, reg) =>
    let sh := s.homeShelf l
    let r := t.req
    let e := s.entryOf l
    let s0 := s.modTxn l (fun t => { t with work := .none, had := e.hstate != .free })
    let s1 := match r.op with
      | .rdS => s0.serveRead sh r reg e
      | .rdV => s0.serveRead sh r reg e
      | .rdNC => s0.serveRead sh r reg e
      | .rdX => s0.serveOwn sh r reg e
      | .upg => s0.serveOwn sh r reg e
      | .wrL => s0.serveWrite sh r reg e
      | .wrP => s0.serveWrite sh r reg e
      | .atom => s0.serveWrite sh r reg e
      | .callIn => s0.serveOwnWork sh r e
      | .inv => s0.serveOwnWork sh r e
    s1.syncEntry l
  | _, _ => s

/-! ### Performing a write (R107, R141, R216, R231, R376) -/

/-- The write has been made locally: mirror it, its data counted for its cone, or mark it, as the region's role says (R323, R376,
R382). -/
def State.mirrorWrite (s : State) (r : Req) (m : Mask) (d : Line) (res : Option (BitVec 128)) : State :=
  if r.who.isMirror then s else
  match s.roleAt (lineAddr r.line) with
  | .writer =>
    let s := s.coneBytes r.cone 128
    match r.who with
    | .mfwd tag _ =>
      let s1 := { s with pair := { s.pair with waits := s.pair.waits ++ [(tag, MWait.write r.line)] } }
      (s1.modTxn r.line (fun t => { t with mack := some tag })).mirrorSend r.line (.mwr r.line m d tag res)
    | _ =>
      let (tag, s1) := s.mirrorAsk (.write r.line)
      (s1.modTxn r.line (fun t => { t with mack := some tag })).mirrorSend r.line (.mwr r.line m d tag none)
  | .solo => s.markLine r.line
  | _ => s

/-- The bytes a write stores, given the line where it is known, and the lane group that performs it: the mask, the data, the
result, and the AUU's state. Bytes 99 to 127 of an MXFP8 line are written where a block takes part (R228). -/
def State.compute (s : State) (sh g : Nat) (r : Req) (reg : Region) (cur : Line) : Mask × Line × Option (BitVec 128) × AuuSt :=
  let u := s.auuStart sh cur
  if r.op = .atom then
    let (v, res) := auuAtom u g r.aop r.data
    (atomMask r.aop, v.line, res, v)
  else
    let v := auuVector u g (Region.redFmt reg) (Region.redOp reg) (Region.redSr reg) r.data r.mask
    let tail : Mask := if Region.redFmt reg == 5 && (List.range 3).any (takesPart 5 r.mask) then maskOf 99 29 else 0
    (r.mask ||| tail, v.line, none, v)

/-- The writeHome of a transaction's bytes, and what follows from where it ended: flag B stands while backing has not
acknowledged. -/
def State.land (s : State) (r : Req) (reg : Region) (m : Mask) (d : Line) (res : Option (BitVec 128)) (pour : Bool)
    (src : Nat) : State :=
  match s.writeHome reg r.line m d r.cone r.pour pour src (.txn r.line) with
  | (.done, s1) => (s1.modTxn r.line (fun t => { t.clr fB with work := .grant, result := res })).mirrorWrite r m d res
  | (.acked, s1) => (s1.modTxn r.line (fun t => { t.put fB with work := .grant, result := res })).mirrorWrite r m d res
  | (.fetch, s1) =>
    -- a partial write of a sector that is not valid: the line is fetched first (R92)
    s1.fetchFor r (Region.wpol reg == 0 || Region.wpol reg == 3)

/-- The request that comes next in the line's conflict queue is an Atom (R236). -/
def State.atomNext (s : State) (l : LineIx) : Bool := (s.home.cq.find? (fun q => q.line == l)).any (fun q => q.op == .atom)

/-- The slot whose line the AUU's line buffer may keep after this operation: an Atom follows, fewer than 16 operations have been
made in the buffer, and the bank alone is to have the result (R236; a line of class P is written at each operation, log 19). -/
def State.keepsBuffer (s : State) (sh : Nat) (r : Req) (reg : Region) : Option Slot :=
  let n := ((s.bufferAt sh r.line).map LineBuf.ops).getD 0
  if r.op == .atom && s.atomNext r.line && decide (n + 1 < 16) && Region.wpol reg != 1 && Region.pclass reg != pcP then s.hit r.line
  else none

/-- The slot of the line is dead-strict, and the request needs its data (R116). -/
def State.deadTo (s : State) (r : Req) : Bool :=
  (match s.slotOf r.line with
    | some x => (s.tag x).state == .deadStrict
    | none => false) && (r.op.isRead || r.op == ReqOp.atom || r.op == ReqOp.wrP)

/-- Perform a write once no holder remains: merge recalled data, fetch what is missing, reduce or operate, store. Data that a fault took
meanwhile is recovered by its class, or refused (R331). -/
def State.performStep (s : State) (l : LineIx) : State :=
  match s.txnOf l, s.regionOf l with
  | some t, some (_, reg) =>
    if t.work ≠ .perform ∨ t.has (fI ||| fR) ∨ t.fetch then s else
    let sh := s.homeShelf l
    let r := t.req
    let s := if t.dirty then s else s.resolveLost l
    if !t.dirty && s.deadTo r then s.modTxn l (fun t => { t.clr fB with work := .refuse }) else
    let back := if t.dirty then t.fetched else none
    let present := s.hit l
    let cur := match back, present with
      | some d, _ => some d
      | none, some x => some (s.slotData x)
      | none, none => t.fetched
    let part := t.filled && present.isNone && (s.liveSlot l).isSome
    let absent := t.filled && (s.liveSlot l).isNone
    if usesAuu reg r then
      match cur with
      | none => s.fetchFor r (s.fetchAllocates sh r reg)
      | some d =>
        let (g, s0) := s.takeGroup sh
        let (m, d', res, u) := s0.compute sh g r reg d
        let s1 := s0.auuEnd sh u l r.cone r.agentId
        match if back.isSome then none else s1.keepsBuffer sh r reg with
        | some x =>
          let n := ((s.bufferAt sh l).map LineBuf.ops).getD 0
          ((s1.bufferResult sh x l m d' (n + 1)).modTxn l (fun t => { t.clr fB with work := .grant, result := res })).mirrorWrite
            r m d' res
        | none =>
          -- an atomic that goes to backing writes the line there (R216)
          let whole := back.isSome || part || (r.op == .atom && (absent || Region.wpol reg == 1))
          s1.land r reg (if whole then fullMask else m) d' res absent srcAtomic
    else
      let pour := r.pour || absent || s.pouring sh r.cone
      match back with
      | some d => s.land r reg fullMask (merge d r.data r.mask) none pour srcThrough
      | none =>
        if part then s.land r reg fullMask (merge (t.fetched.getD 0) r.data r.mask) none pour srcThrough
        else s.land r reg r.mask r.data none pour srcThrough
  | _, _ => s

/-! ### Sending answers -/

/-- Send the data once the invalidations and the fetch are done (R160). -/
def State.dataStep (s : State) (l : LineIx) : State :=
  match s.txnOf l with
  | some t =>
    if t.work ≠ .data ∨ t.has (fI ||| fB) then s else
    let sh := s.homeShelf l
    let r := t.req
    let d := t.fetched.getD 0
    let s1 := match r.op with
      | .rdS => s.lastAnswer sh r (if t.plan = Plan.owner then mDataE else mDataS) (fun m => { m with data := some d })
      | .rdX => s.lastAnswer sh r mDataM (fun m => { m with data := some d })
      | .upg => s.lastAnswer sh r mDataM (fun m => { m with data := some d })
      | _ => if r.who = Who.recover then s.recoverData l d else s.deliver sh r (.data d)
    s1.modTxn l (fun t => { t with work := .none, sent := true })
  | none => s

/-- Send the Ack once everything it waits for is done (R160, R175). -/
def State.grantStep (s : State) (l : LineIx) : State :=
  match s.txnOf l with
  | some t =>
    if t.work ≠ .grant ∨ t.has (fF ||| fI ||| fR ||| fB) ∨ t.mack.isSome then s else
    let sh := s.homeShelf l
    let r := t.req
    let s1 := if r.op.keeps then s.lastAnswer sh r mAck (fun m => m) else s.performed sh r t.result
    s1.modTxn l (fun t => { t with work := .none, sent := true })
  | none => s

/-! ### Puts (R141, R164, R165) -/

/-- Answer a Put. -/
def State.putAnswer (s : State) (sh : Nat) (p : Put) (code : Nat) : State :=
  s.sendFrom sh (msgTo (some p.port) p.src p.line p.txn p.cone code)

/-- The header of a Put, as a protocol error records it. -/
def putHdr (p : Put) : Hdr :=
  BitVec.ofNat 128 (p.code.toNat + 2 ^ 7 + p.src.toNat * 2 ^ 8 + p.line.toNat * 2 ^ 32 + p.txn.toNat * 2 ^ 77
    + p.cone.toNat * 2 ^ 88)

/-- Data of a Put or a Recall is written to the home as a whole line (R141, R311); `w` waits for it to reach backing, where it goes
there. -/
def State.writeBackHome (s : State) (l : LineIx) (d : Line) (src : Nat) (w : Waiter) : State :=
  match s.regionOf l with
  | some (_, reg) => (s.writeHome reg l fullMask d (s.slotCone l) false false src w).2
  | none => s

/-- What a Put meets in the entry: a match, a stale Put, or a protocol error (R141, R165). -/
inductive PutCase where
  | fits | stale | error
  deriving DecidableEq, Repr, Inhabited
def State.putCase (s : State) (e : DirEntry) (code : Nat) (id : AgentId) : PutCase :=
  let shared := e.hstate = .ds ∨ e.hstate = .dO
  if e.hstate = .free then .stale
  else if code = mPutS ∧ shared ∧ (e.exactSharer id ∨ (e.coarse ∧ e.groups.getLsbD (s.agent id).group
      ∧ e.ownerId ≠ some id)) then .fits
  else if code = mPutE ∧ e.hstate = .dx ∧ e.owner = id then .fits
  else if code = mPutM ∧ e.hstate = .dx ∧ e.owner = id then .fits
  else if code = mPutO ∧ e.hstate = .dO ∧ e.owner = id then .fits
  else if e.coarse then .stale
  else if e.exactSharer id then (if code = mPutE then .stale else .error)
  else if e.hstate = .dx ∧ e.owner = id then .error
  else if e.hstate = .dO ∧ e.owner = id then (if code = mPutM then .stale else .error)
  else .stale

/-- Write an entry back after a change: its way is freed when nobody is left, unless a transaction is open (R134,
R161). -/
def State.putEntry (s : State) (k : Nat) (e : DirEntry) : State :=
  let e' := e.settle
  if e'.hstate = .free ∧ !e'.t then s.setWay k DirEntry.empty else s.setWay k e'

/-- A Put against the entry as it stands. -/
def State.putStable (s : State) (p : Put) : State :=
  let sh := s.homeShelf p.line
  let e := s.entryOf p.line
  match s.putCase e p.code.toNat p.src with
  | .error => s.protocolError (putHdr p)
  | .stale => s.putAnswer sh p mWbAckStale
  | .fits =>
    let code := p.code.toNat
    let s1 := if code = mPutM ∨ code = mPutO then s.writeBackHome p.line p.data srcThrough .nobody else s
    let e' := if code = mPutS then (if e.coarse then e else e.dropAgent p.src) else e.dropOwner
    let s2 := match s1.wayOf sh p.line with
      | some k => s1.putEntry k e'
      | none => s1
    s2.putAnswer sh p mWbAck

/-! ### Maintenance of the slice's copy (R114, R118, R120) -/

/-- The slice's copy of a line under a maintenance operation. `had`: the directory recorded a holder; `dirty`: an owner
returned data; `w` waits for the writeback. -/
def State.maintLine (s : State) (k : RangeKind) (l : LineIx) (c : BitVec 3) (had dirty : Bool) (w : Waiter) : State :=
  let drop := fun (st : State) (x : Slot) => (st.cleanSlot x srcWriteback w).setTag x Tag.empty
  match s.slotOf l, k with
  | some x, .clean => s.cleanSlot x srcWriteback w
  | some x, .cleanInval => drop s x
  | some x, .drain => drop s x
  | some x, .inval =>
    let t := s.tag x
    let s1 := if dirty || (t.state == .live && t.sd != 0) then s.event 0x0404 srcSlice (addrWords (lineAddr l)) else s
    drop s1 x
  | none, .inval => if dirty then s.event 0x0404 srcSlice (addrWords (lineAddr l)) else s
  | some x, .reclaim =>
    let t := s.tag x
    let st := match s.regionOf l with
      | some (_, r) => if Region.strictDead r then TagState.deadStrict else .dead
      | none => .dead
    if t.state = .live then
      (s.freeDup l).setTag x { Tag.empty with state := st, tag := t.tag, cone := t.cone }
    else if had then s.setTag x { t with state := st }
    else s
  | none, .reclaim =>
    let b := s.homeBank l
    if had && s.caches b then
      let st := match s.regionOf l with
        | some (_, r) => if Region.strictDead r then TagState.deadStrict else .dead
        | none => .dead
      match s.tagStep b l c false with
      | (some x, s1) => s1.setTag x { Tag.empty with state := st, tag := BitVec.ofNat 34 (lineTag l.toNat), cone := c }
      | (none, s1) => s1
    else s
  | some x, .unpin => s.setTag x { s.tag x with pin := false }
  | _, _ => s

def RangeAct.part (a : RangeAct) : Half → Nat
  | .a => a.partA
  | .b => a.partB
/-- First line and length of what a half part walks through: the range, or the region of its part of a drain. -/
def RangeAct.area (a : RangeAct) (h : Half) : Nat × Nat :=
  match a.parts.drop (a.part h) with
  | .region b n :: _ => (b, n)
  | .bank _ :: _ => (0, 0)
  | [] => (a.base, a.len)
/-- Half A or B of a range activity moves past offset k. -/
def State.rangeStep (s : State) (n : Nat) (hf : Half) (k : Nat) : State :=
  { s with ranges := { s.ranges with slots := tmod none s.ranges.slots n (fun o => o.map (fun a =>
      match hf with
      | .a => { a with posA := k + 1, processed := a.processed + 1 }
      | .b => { a with posB := k + 1, processed := a.processed + 1 })) } }

/-- The line of a maintenance request has no holder in the way any more: the slice's copy is treated, and the half part
moves on; a reclaim of an M-class line waits for the twin first (R115). -/
def State.maintEnd (s : State) (t : Txn) : State :=
  let l := t.req.line
  match t.req.who with
  | .maint n =>
    match tget none s.ranges.slots n with
    | some a =>
      let s1 := s.maintLine a.kind l t.req.cone t.had t.dirty (.range n)
      let hf := shelfHalf (s.homeShelf l)
      let k := l.toNat - (a.area hf).1
      if a.kind = .reclaim ∧ (s1.roleAt (lineAddr l) = .writer ∨ s1.roleAt (lineAddr l) = .forward) then
        let (tag, s2) := s1.mirrorAsk (.reclaim l n)
        s2.mirrorSend l (.mreclaim l tag)
      else
        let s2 := if a.kind = .reclaim ∧ s1.roleAt (lineAddr l) = .solo then s1.markLine l else s1
        s2.rangeStep n hf k
    | none => s
  | .lineop =>
    match s.ranges.lineop with
    | some o => s.maintLine o.kind l t.req.cone t.had t.dirty .lineop
    | none => s
  | .recover => if t.req.op = .callIn && !t.dirty then s.resolveLost l else s
  | .mirror tag _ _ =>
    if t.req.op = .inv then (s.maintLine .reclaim l t.req.cone t.had t.dirty .nobody).mirrorSend l (.mack tag) else s
  | _ => s

/-! ### Close (R159, R161, R166) -/

/-- Take a way for a request: a free one, or a victim's, whose Recall transaction then holds the request (R135, R166). -/
def State.wayFor (s : State) (r : Req) : Option State :=
  let l := r.line
  let sh := s.homeShelf l
  match s.freeWay l with
  | some k => some (s.takeWay k l)
  | none =>
    let ok := (s.waysOf l).filter (fun k => !(s.way k).t && !s.retiredWay k)
    match victimTree 4 (tget 0 s.dir.trees (dirKey sh (dirSet l.toNat) 0 / 16)) (ok.map (· % 16)) with
    | none => none
    | some w =>
      let e := s.way (dirKey sh (dirSet l.toNat) w)
      let v : LineIx := BitVec.ofNat 45 (lineOfDir e.dtag.toNat (dirSet l.toNat))
      let vr := mkReq .callIn .victim v (s.slotCone v)
      let t : Txn := { Txn.open vr with tstate := fV, plan := .clear, victimFor := some r }
      let s1 := ({ s with home := { s.home with txns := s.home.txns ++ [t] } }).count 0x0A (Attr.ofLine v vr.cone) 1
      let s2 := match e.ownerId with
        | some o => s1.sendRecall sh v o
        | none => s1
      some ((s2.invalidate sh v (s.sharersOf sh e) e.coarse).syncEntry v)

/-- The request needs a way and the line has none (R135). -/
def State.needsWay (s : State) (r : Req) : Bool := r.op.keeps && (s.wayOf (s.homeShelf r.line) r.line).isNone

/-- Serve the line's transaction, taking a way for it first. A request that waits for a victim leaves its record. -/
def State.begin (s : State) (l : LineIx) : State :=
  match s.txnOf l with
  | none => s
  | some t =>
    if s.needsWay t.req then
      match s.freeWay l with
      | some k => (s.takeWay k l).serve l
      | none => match (s.dropTxn l).wayFor t.req with
        | some s1 => s1
        | none => s
    else s.serve l

/-- Close a transaction: the entry takes its final state, its way is freed or touched, a deferred Put is answered, and a
victim's way goes to the request that waits for it. -/
def State.close (s : State) (l : LineIx) : State :=
  match s.txnOf l with
  | none => s
  | some t =>
    let sh := s.homeShelf l
    let s1 := s.dropTxn l
    let own := s1.wayOf sh l
    let s2 := match own with
      | some k =>
        let e0 := s1.way k
        let e := s1.planned t e0
        let s2 := if e.coarse && !e0.coarse then s1.count 0x0B (Attr.ofLine l t.req.cone) 1 else s1
        (s2.putEntry k { e with t := false, tstate := 0 }).touchWay k
      | none => s1
    let s3 := if s2.atomNext l then s2 else s2.writeBuffer sh l
    let s4 := match t.deferred with
      | some p => s3.putStable p
      | none => s3
    let s5 := s4.maintEnd t
    match t.victimFor with
    | some r =>
      let s6 := { s5 with home := { s5.home with txns := s5.home.txns ++ [Txn.open r] } }
      (match own.filter (fun k => !(s6.way k).used) with
        | some k => (((s6.takeWay k r.line).serve r.line).dataStep r.line).syncEntry r.line
        | none => s6).retryChannels
    | none => s5.retryChannels

/-- The line could not be fetched: its request is answered with Poison once every holder that was sent a message has answered
(R160, R442). -/
def State.refuseStep (s : State) (l : LineIx) : State :=
  match s.txnOf l with
  | some t =>
    if t.work ≠ .refuse ∨ t.has (fF ||| fI ||| fR ||| fB) then s
    else (s.refuseReq (s.homeShelf l) t.req).modTxn l (fun t => { t with plan := .lost, tstate := 0, work := .none })
  | none => s

/-- Everything that a cleared flag lets the transaction do, in order. -/
def State.advance (s : State) (l : LineIx) : State :=
  let s1 := (((s.dataStep l).performStep l).grantStep l).refuseStep l
  let s2 := match s1.txnOf l with
    | some t => if t.tstate = fV then s1.modTxn l (fun t => t.clr fV) else s1
    | none => s1
  let s3 := s2.syncEntry l
  match s3.txnOf l with
  | some t => if t.tstate = 0 ∧ t.work = .none ∧ t.mack.isNone then s3.close l else s3
  | none => s3

/-- Answer the line's transaction with Poison and close it (R160). -/
def State.poisonTxn (s : State) (l : LineIx) : State :=
  match s.txnOf l with
  | none => s
  | some t =>
    let s1 := s.refuseReq (s.homeShelf l) t.req
    (s1.modTxn l (fun t => { t with plan := .same, tstate := 0, work := .none })).close l

/-! ### Admission (R136, R154, R352) -/

/-- A cut holds this request: steps 1 to 5, an E-class line, and not the slice's own work (R352). -/
def State.cutHolds (s : State) (r : Req) : Bool :=
  1 ≤ s.ep.cutStep && s.ep.cutStep ≤ 5 && s.pclass r.line == pcE && !r.who.isMirror

/-- The set of the line has room for one more transient entry, the earlier requests that wait for it first (R136). -/
def State.setRoom (s : State) (r : Req) : Bool :=
  let sh := s.homeShelf r.line
  let inSet := fun (q : Req) => s.homeShelf q.line == sh && dirSet q.line.toNat == dirSet r.line.toNat
  let takes := fun (q : Req) => s.needsWay q || (s.wayOf sh q.line).isSome
  let ahead := (s.home.cq.takeWhile (· != r)).filter (fun q => inSet q && takes q && !s.lineOpen q.line)
  let looking := s.home.txns.filter (fun t => t.work == .lookup && inSet t.req && s.needsWay t.req)
  !takes r || decide (s.transients r.line + looking.length + ahead.length < s.transientLimit r.line)

/-- A request in its queue that a quench, a cut or an open glaze point holds; step 7 of a quench writes records. It lets the slice's own requests for the line pass
(R60, R352, R363). -/
def State.heldBack (s : State) (r : Req) : Bool :=
  let twin := match r.who with
    | .mirror _ _ _ => true
    | .mfwd _ _ => true
    | .record _ _ => s.ep.step == 7
    | .ctlOut _ => s.ep.step == 7
    | .post => s.ep.step == 7
    | _ => false
  (s.quenching && !twin) || s.cutHolds r
    || (s.glazeHolds r.line && !r.who.isMirror)

/-- A write of class P waits while the bank of its second copy is being spared (R347). -/
def State.dupBusy (s : State) (r : Req) : Bool := r.op.isWrite && s.pclass r.line == pcP && (s.dupBank r.line).any s.fitting

/-- The head of a line's queue that may be admitted now (R154). -/
def State.admissible (s : State) (l : LineIx) : Option Req :=
  match s.home.cq.find? (fun r => r.line == l && !s.heldBack r) with
  | none => none
  | some r =>
    let sh := s.homeShelf l
    let sums := match s.regionOf l with
      | some (_, g) => r.op == ReqOp.atom || reduces g r
      | none => false
    let lanes := sums && s.laneBusy sh
    if s.lineOpen l || (s.shelf sh).flipHold || s.asleep sh || s.bankBusy (s.homeBank l) || s.setBusy l || lanes || s.dupBusy r || !s.setRoom r || 256 ≤ s.records sh
    then none else some r

/-- Every request that waits in its queue and could not be admitted now has waited (R202, R203). -/
def State.markWaits (s : State) : State :=
  { s with home := { s.home with cq := s.home.cq.map (fun r =>
      if r.waited || s.admissible r.line == some r then r else { r with waited := true }) } }

end Sys2Proof.Machine
end

