-- ==== Sys2Proof/Machine/Answers.lean ====
section
/-! DEFINITION. What agents send to a home beside requests: Puts (R141, R164), the answers to its messages (R139, R140, R164),
and the messages that wait in the seam bridge for a half that sleeps (R27). -/
namespace Sys2Proof.Machine

/-! ### Puts (R71, R141, R164, R363) -/

/-- The open transaction sent the agent a FwdX, an Inv or a Recall that takes its copy, answered or not; or a FwdS (R164). -/
def Txn.took (t : Txn) (id : AgentId) : Bool :=
  t.recallTo == some id || t.invTo.contains id || (t.fwd == some id && (t.req.op == .rdX || t.req.op == .upg))
def Txn.asked (t : Txn) (id : AgentId) : Bool := t.fwd == some id && !(t.req.op == .rdX || t.req.op == .upg)

/-- A message for a shelf that sleeps waits in the seam bridge, and its wake is asked for (R27, R35). -/
def State.bridged (s : State) (sh : Nat) (c : Crossing) : State :=
  { s with home := { s.home with bridge := s.home.bridge ++ [(shelfHalf sh, c)] } }.askWake sh

/-- A Put at its home. -/
def State.putHome (s : State) (p : Put) : State :=
  match s.txnOf p.line with
  | some t =>
    if t.req.agentId = some p.src then s.protocolError (putHdr p)
    else if t.took p.src then s.putAnswer (s.homeShelf p.line) p mWbAckStale
    else if t.asked p.src then s.modTxn p.line (fun t => { t with deferred := some p })
    else s.putStable p
  | none => s.putStable p

/-- A Put of a cached line reaches its home, or the bridge to it (R23, R27). -/
def State.putHomeward (s : State) (port : Port) (h : Hdr) (p : Put) : State :=
  let sh := s.homeShelf p.line
  let s1 := s.crossIn port sh p.src p.line p.cone 1
  if s1.shelfUp sh then s1.putHome p else s1.bridged sh (.put port h p.data)
/-- A Put whose bytes are counted is taken, or answered as stale: in a quench (R363), and where its line is in no cache region. -/
def State.putTaken (s : State) (port : Port) (h : Hdr) (code : Nat) (data : Line) : State :=
  if !toHomeOk h code then s.protocolError h else
  let p : Put := ⟨BitVec.ofNat 6 code, Hdr.src h, port, Hdr.txn h, Hdr.cone h, Hdr.line h, data⟩
  if s.halting then s.putAnswer port.shelf p mWbAckStale else
  match s.place (lineAddr p.line) with
  | .cache _ _ => s.putHomeward port h p
  | _ => (s.putAnswer port.shelf p mWbAckStale).event 0x0301 srcSlice (addrWords (lineAddr p.line) ++ [p.src.toNat])

/-- A Put enters on a port. -/
def State.putIn (s : State) (port : Port) (h : Hdr) (code : Nat) (data : Line) : State :=
  let n := if code = mPutM ∨ code = mPutO then 128 else 0
  if s.portDown port then s else
  ((s.comeIn port n).coneBytes (Hdr.cone h) n).putTaken port h code data

/-! ### Answers (R139, R140, R164) -/

/-- A RSP message to the home is one that R137 and its code allow. -/
def rspOk (h : Hdr) (code : Nat) : Bool := headerKeeps h && Hdr.msg h == code && Hdr.dstHome h && !Hdr.srcHome h

/-- FwdAck clears F, from the forwarder alone; DIRTY is kept for the close (R140, R164). A request that the forwarder alone answered has
its answer now (R324). -/
def State.fwdAckTo (s : State) (h : Hdr) (t : Txn) : Option State :=
  if t.has fF && t.fwd == some (Hdr.src h) then
    some ((if t.work = .none then s.finish t.req else s).modTxn (Hdr.line h) (fun t => { (t.clr fF) with dirty := Hdr.dirty h && t.plan == .downgrade }))
  else none

/-- InvAck counts down I, or clears R for an owner in E (R164). -/
def State.invAckTo (s : State) (h : Hdr) (t : Txn) : Option State :=
  let id := Hdr.src h
  if t.has fR && t.recallTo == some id then some (s.modTxn (Hdr.line h) (fun t => t.clr fR))
  else if t.has fI && (t.coarse || t.invTo.contains id) then
    some (s.modTxn (Hdr.line h) (fun t =>
      let t' := { t with invLeft := t.invLeft - 1, invDone := t.invDone ++ [id] }
      if t.invLeft ≤ 1 then t'.clr fI else t'))
  else none

/-- What waits for the data of a line's holder that a maintenance operation called back (R121, R127). -/
def Req.waiter (r : Req) : Waiter :=
  match r.who with
  | .maint n => .range n
  | .lineop => .lineop
  | _ => .nobody
/-- DataM from a Recall target clears R; its data is written, or merged under the transaction's own write (R140, R141, R164). -/
def State.dataMTo (s : State) (h : Hdr) (data : Line) (t : Txn) : Option State :=
  if t.has fR && t.recallTo == some (Hdr.src h) then
    let l := Hdr.line h
    let s1 := s.modTxn l (fun t => { (t.clr fR) with dirty := true, fetched := some data })
    some (if t.work = .perform then s1 else s1.writeBackHome l data srcRecall t.req.waiter)
  else none

/-- DataS for a read that the home made for itself clears B (R140, R164). -/
def State.dataSTo (s : State) (h : Hdr) (data : Line) (t : Txn) : Option State :=
  if t.has fB && Hdr.reqHome h && t.fwd == some (Hdr.src h) && t.req.agentId.isNone then
    some (s.modTxn (Hdr.line h) (fun t => { (t.clr fB) with fetched := some data }))
  else none

/-- Cmp from the requester clears C (R139, R164). -/
def State.cmpTo (s : State) (h : Hdr) (t : Txn) : Option State :=
  if t.has fC && t.sent && t.req.agentId == some (Hdr.src h) && t.req.txn == Hdr.txn h then
    some (s.modTxn (Hdr.line h) (fun t => t.clr fC))
  else none

/-- An answer at its line's transaction, by its code; one that nothing awaits is a protocol error (R164). -/
def State.answerHome (s : State) (h : Hdr) (data : Line) : State :=
  match s.txnOf (Hdr.line h) with
  | none => s.protocolError h
  | some t =>
    let m := Hdr.msg h
    match if m = mFwdAck then s.fwdAckTo h t else if m = mInvAck then s.invAckTo h t else if m = mDataM then s.dataMTo h data t
      else if m = mDataS then s.dataSTo h data t else s.cmpTo h t with
    | some s1 => s1.advance (Hdr.line h)
    | none => s.protocolError h

/-- An answer of the given code comes in on its agent's port with n bytes of data: discarded in a quench (R363), else taken at the
home, or in the bridge to it (R27, R164, R323, R435). -/
def State.answerIn (s : State) (h : Hdr) (code : Nat) (data : Line) (n : Nat) : State :=
  match (s.agent (Hdr.src h)).port.filter s.portDown with
  | some _ => s
  | none =>
  let s0 := s.coneBytes (Hdr.cone h) n
  let sh := s0.homeShelf (Hdr.line h)
  let s1 := match (s0.agent (Hdr.src h)).port with
    | some p => (s0.comeIn p n).crossIn p sh (Hdr.src h) (Hdr.line h) (Hdr.cone h) 3
    | none => s0
  if s1.halting then s1
  else if !rspOk h code then s1.protocolError h
  else if s1.shelfUp sh then s1.answerHome h data
  else s1.bridged sh (.answer h data)

/-! ### The seam bridge (R27) -/

/-- A message of the bridge may go on. -/
def State.bridgeReady (s : State) : Half × Crossing → Bool
  | (_, .put _ h _) => s.shelfUp (s.homeShelf (Hdr.line h))
  | (_, .answer h _) => s.shelfUp (s.homeShelf (Hdr.line h))
  | (hf, .out _ _) => (s.half hf).st == .awake
/-- It goes on. A Put of an agent of the domain that a quench meets is answered as stale, an answer discarded (R363). -/
def State.bridgeGo (s : State) (c : Crossing) : State :=
  match c with
  | .put port h data =>
    let p : Put := ⟨BitVec.ofNat 6 (Hdr.msg h), Hdr.src h, port, Hdr.txn h, Hdr.cone h, Hdr.line h, data⟩
    if s.halting then s.putAnswer port.shelf p mWbAckStale else s.putHome p
  | .answer h data => if s.halting then s else s.answerHome h data
  | .out sh m => s.sendFrom sh m
/-- The messages of the bridge whose half is awake go on, in the order they came (R25, R27). -/
def State.releaseBridge (s : State) : State :=
  (s.home.bridge.filter s.bridgeReady).foldl (fun st c => st.bridgeGo c.2)
    { s with home := { s.home with bridge := s.home.bridge.filter (fun c => !s.bridgeReady c) } }

end Sys2Proof.Machine
end

