-- ==== Sys2Proof/Machine/CmdOps.lean ====
section
/-! DEFINITION. Commands: descriptor fields (R295, R296), the places of operands (R287, R300), requests that a command makes
(R260, R310), order on a ring (R178, R179), decode checks (R293, R294), and completion records (R301 to R306). -/
namespace Sys2Proof.Machine

/-! ### Status codes (R306) -/

def stOk : BitVec 8 := 0x00
def stZeroLen : BitVec 8 := 0x01
def stBounds : BitVec 8 := 0x10
def stAlign : BitVec 8 := 0x11
def stPriv : BitVec 8 := 0x12
def stBadOp : BitVec 8 := 0x13
def stCeiling : BitVec 8 := 0x20
def stNoSpare : BitVec 8 := 0x21
def stTimeout : BitVec 8 := 0x22
def stHdrReject : BitVec 8 := 0x30
def stHashFail : BitVec 8 := 0x31
def stSigFail : BitVec 8 := 0x32
def stFenced : BitVec 8 := 0x40
def stQuenched : BitVec 8 := 0x41
def stRolledBack : BitVec 8 := 0x42

/-- A DETAIL that names a field of the descriptor, and one that also names an entry (R306). -/
def fieldAt (off : Nat) : BitVec 64 := BitVec.ofNat 64 (off + 0xFFFFFFFF * 2 ^ 32)
def fieldOf (off entry : Nat) : BitVec 64 := BitVec.ofNat 64 (off % 256 + entry * 2 ^ 32)

/-- A refusal at decode: status and DETAIL. -/
abbrev Refuse := Option (BitVec 8 × BitVec 64)
/-- The first failure of a list of checks. -/
def firstOf (l : List (Bool × BitVec 8 × BitVec 64)) : Refuse := (l.find? (fun c => c.1)).map Prod.snd

/-! ### Descriptor fields (R295, R296) -/

/-- n bytes at offset off of the descriptor, and its bit i. -/
def dField (d : BitVec 512) (off n : Nat) : Nat := bits d.toNat (8 * off + 8 * n - 1) (8 * off)
def dOp (d : BitVec 512) : Nat := dField d 0 1
def dIrq (d : BitVec 512) : Bool := bit d.toNat 8
def dCone (d : BitVec 512) : BitVec 3 := d.extractLsb' 16 3
def dLen (d : BitVec 512) : Nat := dField d 4 4
def dAddr (d : BitVec 512) : Nat := dField d 8 8

def opNop : Nat := 0x00
def opCopy : Nat := 0x01
def opFill : Nat := 0x02
def opClean : Nat := 0x08
def opInval : Nat := 0x09
def opCleanInval : Nat := 0x0A
def opReclaim : Nat := 0x0B
def opPin : Nat := 0x0C
def opUnpin : Nat := 0x0D
def opKilnLoad : Nat := 0x10
def opKilnFire : Nat := 0x11
def opAtomBatch : Nat := 0x18
def opTallyWait : Nat := 0x20
def opTallySet : Nat := 0x21
def opEpochClose : Nat := 0x28
def opFence : Nat := 0x29
def opOverlay : Nat := 0x30
def opFwBlock : Nat := 0x38
def opFwActivate : Nat := 0x39
def opSpareSwap : Nat := 0x40
def opScrub : Nat := 0x41
def opLease : Nat := 0x48

/-- Lowest privilege of an opcode; none for an unknown one (R296). -/
def opPriv (op : Nat) : Option Nat :=
  if [opNop, opCopy, opFill, opClean, opCleanInval, opKilnLoad, opKilnFire, opAtomBatch, opTallyWait, opFence].contains op
  then some 0
  else if [opInval, opReclaim, opPin, opUnpin, opTallySet, opEpochClose, opOverlay, opScrub].contains op then some 1
  else if [opFwBlock, opFwActivate, opSpareSwap, opLease].contains op then some 2 else none

/-- Bytes of the descriptor from 16 on that an opcode names, as offset and length (R296, R263, R270). -/
def opNamed (op : Nat) : List (Nat × Nat) :=
  if op = opCopy ∨ op = opFill ∨ op = opAtomBatch then [(16, 8)]
  else if op = opKilnLoad then [(16, 44)]
  else if op = opKilnFire then [(16, 48)]
  else if op = opTallyWait then [(16, 2), (24, 12)]
  else if op = opTallySet then [(16, 2), (24, 8)]
  else if op = opFwBlock then [(16, 4)]
  else if op = opSpareSwap then [(16, 1), (18, 4)]
  else if op = opScrub then [(16, 4)]
  else if op = opLease then [(16, 48)] else []

/-- LEN and ADDR are operands of the opcode; else they are 0 (R296). -/
def opRanged (op : Nat) : Bool :=
  [opCopy, opFill, opClean, opInval, opCleanInval, opReclaim, opPin, opUnpin, opAtomBatch, opOverlay, opFwBlock].contains op

/-- The reserved bytes of the operands are 0. -/
def firstReserved (op : Nat) (d : BitVec 512) : Option Nat :=
  (List.range 48).map (· + 16) |>.find? (fun i =>
    dField d i 1 != 0 && !(opNamed op).any (fun p => decide (p.1 ≤ i) && decide (i < p.1 + p.2)))

/-- Checks 1 to 4 of R294, for a ring of privilege `priv`. -/
def headCheck (op : Nat) (d : BitVec 512) (priv : Nat) : Refuse :=
  match opPriv op with
  | none => some (stBadOp, fieldAt 0)
  | some p =>
    if priv < p then some (stPriv, BitVec.ofNat 64 priv)
    else if bits (dField d 1 1) 7 1 ≠ 0 then some (stBadOp, fieldAt 1)
    else if bits (dField d 2 1) 7 3 ≠ 0 then some (stBadOp, fieldAt 2)
    else if dField d 3 1 ≠ 0 then some (stBadOp, fieldAt 3)
    else if bits (dAddr d) 63 52 ≠ 0 then some (stBadOp, fieldAt 8)
    else if !opRanged op && dLen d ≠ 0 then some (stBadOp, fieldAt 4)
    else if !opRanged op && dAddr d ≠ 0 then some (stBadOp, fieldAt 8)
    else if opRanged op && dLen d = 0 then some (stZeroLen, 0) else none
/-- The last of the opcode's own checks: the operand bytes that it does not name are 0 (R294). -/
def tailCheck (op : Nat) (d : BitVec 512) : Refuse := (firstReserved op d).map (fun i => (stBadOp, fieldAt i))

/-! ### Places (R259, R287, R300) -/

/-- Where an operand lies wholly. -/
inductive Spot where
  | cache (i : Nat) (r : Region)
  | saggar (i : Nat) (r : Region)
  | kiln (i : Nat) (r : Region)
  | peer
  | tally
  | nowhere
  deriving DecidableEq, Repr, Inhabited

def Peer.none : Peer := ⟨0, 0, false, false⟩
/-- The valid peer window that holds a range. -/
def State.peerOf (s : State) (a n : Nat) : Option Nat :=
  (List.range 8).find? (fun i =>
    let p := tget Peer.none s.kiln.peers i
    p.valid && decide (p.base.toNat ≤ a) && decide (a + n ≤ p.base.toNat + p.size.toNat * 4096))

/-- The place of the range of n bytes at a. A cache range that leaves its granule in a shared region lies nowhere. -/
def State.spot (s : State) (a n : Nat) : Spot :=
  let last := a + n - 1
  let fits := fun (r : Region) => decide (last < Region.base r + Region.size r)
  if 2 ^ 52 ≤ last then .nowhere
  else match s.place a with
    | .cache i r => if fits r && (Region.sliceWays r == 0 || a >>> 12 == last >>> 12) then .cache i r else .nowhere
    | .saggar i r => if fits r then .saggar i r else .nowhere
    | .kiln i r => if fits r then .kiln i r else .nowhere
    | .tally _ => (match s.place last with
      | .tally _ => .tally
      | _ => .nowhere)
    | .nowhere => if s.kiln.engineValid && (s.peerOf a n).isSome then .peer else .nowhere
/-- One of the places of R287. -/
def Spot.ok : Spot → Bool
  | .cache _ _ => true
  | .saggar _ _ => true
  | .peer => true
  | _ => false

/-- The field that a range fails by: ADDR-like `off` when its first byte lies nowhere, LEN when it runs past (R300). -/
def State.boundsAt (s : State) (a off : Nat) : BitVec 64 := fieldAt (if (s.spot a 1).ok then 4 else off)

/-- Addresses of the lines that n bytes at a touch, ascending. -/
def linesOf (a n : Nat) : List Nat :=
  if n = 0 then [] else (List.range ((a + n - 1) / 128 - a / 128 + 1)).map (fun i => (a / 128 + i) * 128)

/-! ### Requests of the slice (R260, R287, R310) -/

/-- Send a request to the slice that serves a peer range (R260). It waits while all 2,048 values of TXN are taken (R137). -/
def State.sendPeer (s : State) (id : AgentId) (r : Req) : State :=
  match (List.range 2048).find? (fun t => !s.kiln.peerOut.any (fun p => p.1 == t)) with
  | none => { s with kiln := { s.kiln with peerWait := s.kiln.peerWait ++ [(id, r)] } }
  | some t =>
  let code := match r.op with
    | .rdV => mRdV
    | .rdNC => mRdNC
    | .atom => mAtom
    | _ => mWrP
  let m : Msg := { Msg.empty with
    code := BitVec.ofNat 6 code, toHome := true, src := id, line := r.line, txn := BitVec.ofNat 11 t,
    cone := r.cone, aop := r.aop, mask := r.mask, data := if r.op.isWrite then some r.data else none }
  { s with kiln := { s.kiln with peerOut := s.kiln.peerOut ++ [(t, r)] } }.emit m

/-- The ranges of the valid peer windows: base and size in bytes. -/
def State.peerRanges (s : State) : List (Nat × Nat) :=
  (List.range 8).filterMap (fun i =>
    let p := tget Peer.none s.kiln.peers i
    if p.valid then some (p.base.toNat, p.size.toNat * 4096) else none)
/-- The agent ID that a request to an address of no region of this slice carries to a peer, if a window holds it: a decoded
command's windows and ID are those it was checked against, a ring's those that its areas were checked against, until it is no
longer in use (R260, R285, R309). -/
def State.peerId (s : State) (r : Req) : Option AgentId :=
  let now := if s.kiln.engineValid && (s.peerOf (lineAddr r.line) 128).isSome then some s.kiln.engine else none
  let kept := fun (c : Nat) =>
    let x := s.ctx c
    if x.phase == Phase.free || x.phase == Phase.fetched then now
    else if x.windows.any (fun p => decide (p.1 ≤ lineAddr r.line) && decide (lineAddr r.line + 128 ≤ p.1 + p.2)) then some x.engine
    else none
  let ringKept := fun (n : Nat) =>
    let g := s.ring n
    if !(g.en || s.cqUsed n) then now
    else if g.windows.any (fun p => decide (p.1 ≤ lineAddr r.line) && decide (lineAddr r.line + 128 ≤ p.1 + p.2)) then some g.engine
    else none
  match r.who with
  | .cmd c => kept c
  | .head c => kept c
  | .input c _ => kept c
  | .sum c _ => kept c
  | .result c => kept c
  | .desc c => ringKept (s.ctx c).ring
  | .ctl n => ringKept n
  | .ctlOut n => ringKept n
  | .record m _ => ringKept m
  | _ => now
/-- A command has been checked: it keeps the peer ID and windows of this moment (R285). -/
def State.keepPeers (s : State) (c : Nat) : State :=
  s.modCtx c (fun x => { x with engine := s.kiln.engine, windows := if s.kiln.engineValid then s.peerRanges else [] })

/-- Send a request of the slice itself to where its line lies. -/
def State.issue (s : State) (r : Req) : State :=
  match s.place (lineAddr r.line), s.peerId r with
  | .nowhere, some id => s.sendPeer id r
  | _, _ => s.dispatch r false

/-- A read of one line. -/
def State.readLine (s : State) (w : Who) (op : ReqOp) (a : Nat) (cone : BitVec 3) (pour : Bool) : State :=
  s.issue { mkReq op w (lineIx a) cone with pour := pour }

/-- A write of bytes of one line. -/
def State.writeLine (s : State) (w : Who) (a : Nat) (m : Mask) (d : Line) (cone : BitVec 3) (plain : Bool) : State :=
  s.issue { mkReq (if m = fullMask then .wrL else .wrP) w (lineIx a) cone with mask := m, data := d, plain := plain }

/-- A write of bytes within one line, at a byte address. -/
def State.writeBytes (s : State) (w : Who) (a : Nat) (bs : List Byte) (cone : BitVec 3) (plain : Bool) : State :=
  s.writeLine w (a / 128 * 128) (maskOf (a % 128) bs.length) (lineOfBytes bs <<< (8 * (a % 128))) cone plain

/-- Command c reads lines: each is in `need` until it arrives. -/
def State.gather (s : State) (c : Nat) (as : List Nat) (pour : Bool) : State :=
  let s1 := s.modCtx c (fun x => { x with need := x.need ++ as })
  as.foldl (fun st a => st.readLine (.cmd c) .rdNC a (dCone (s.ctx c).desc) pour) s1

/-- Command c writes bytes of one line; the write is outstanding until it is answered. -/
def State.cmdWrite (s : State) (c a : Nat) (m : Mask) (d : Line) (plain : Bool) : State :=
  (s.modCtx c (fun x => { x with out := x.out + 1, begun := true })).writeLine (.cmd c) a m d (dCone (s.ctx c).desc) plain

/-- A byte, and n bytes, of the lines a command has read. -/
def Ctx.byteAt (x : Ctx) (a : Nat) : Byte := byteOf (tget 0 x.inbuf (a / 128 * 128)) (a % 128)
def Ctx.bytesAt (x : Ctx) (a n : Nat) : List Byte := (List.range n).map (fun i => x.byteAt (a + i))

/-! ### Completion records (R290 to R292, R301 to R305) -/

def ringSize (g : Ring) : Nat := 2 ^ g.sqLog.toNat
def cqSize (g : Ring) : Nat := 2 ^ g.cqLog.toNat

/-- The ticket of index i on ring n (R301). -/
def State.ticketOf (s : State) (n : Nat) (i : Word) : Nat :=
  let z := ringSize (s.ring n)
  n % 16 * 2 ^ 28 + i.toNat % z * 2 ^ 16 + i.toNat / z % 65536

/-- Records of completion ring m that are reserved, or written and not consumed (R292). -/
def State.recordsTaken (s : State) (m : Nat) : Nat :=
  (s.cmds.ctxs.filter (fun p => p.2.cring == m)).length + ((s.ring m).cqTail - (s.ring m).cqHead).toNat

/-- The slice's half of the control line of ring index n (R288). -/
def State.writeControl (s : State) (n : Nat) : State :=
  let g := s.ring n
  let bs := bytesLE 4 g.sqHead.toNat ++ bytesLE 4 g.cqTail.toNat ++ bytesLE 56 0
  s.writeBytes (.ctlOut n) (g.ctl.toNat + 64) bs 0 true

/-- Bytes 0 to 7 of a record that is written at index k of a ring of z records (R303, R304). -/
def Rec.low (r : Rec) (k : Word) (z : Nat) : BitVec 64 :=
  BitVec.ofNat 64 (r.lo.toNat % 2 ^ 48 + (r.lo.toNat / 2 ^ 49) * 2 ^ 49 + (k.toNat / z + 1) % 2 * 2 ^ 48)
/-- The first record of completion ring m goes on: bytes 8 to 15 are written, and bytes 0 to 7 once those have been performed; CQ_ERR
stops it (R192, R290, R303). -/
def State.recordMove (s : State) (m : Nat) : State :=
  let g := s.ring m
  let k := g.cqTail
  let a := g.cqBase.toNat + 16 * (k.toNat % cqSize g)
  match g.held with
  | [] => s
  | r :: _ =>
    let cone := dCone (s.ctx r.ctx).desc
    if g.cqErr then s
    else if g.putting = 0 then
      (s.modRing m (fun g => { g with putting := 1 })).writeBytes (.record m false) (a + 8) (bytesLE 8 r.hi.toNat) cone true
    else if g.putting = 2 then
      (s.modRing m (fun g => { g with putting := 3 })).writeBytes (.record m true) a (bytesLE 8 (r.low k (cqSize g)).toNat) cone true
    else s
/-- The records of completion ring n go on as far as their writes are answered, in order, and its control line is brought up to date
(R288, R302). -/
def State.pumpRing (s : State) (n : Nat) : State :=
  let s1 := (List.range (2 * (s.ring n).held.length)).foldl (fun st _ => st.recordMove n) s
  if (s1.ring n).ctlDue then (s1.modRing n (fun g => { g with ctlDue := false })).writeControl n else s1
/-- All rings do, but for steps 1 to 6 of a quench (R363). -/
def State.pumpRings (s : State) : State :=
  if s.quenching && s.ep.step != 7 then s else (s.rings.map Prod.fst).foldl State.pumpRing s

/-- The record of a command (R303). -/
def State.recordOf (s : State) (c : Nat) : Rec :=
  let x := s.ctx c
  { lo := BitVec.ofNat 64 (s.ticketOf x.ring x.index + x.status.toNat * 2 ^ 32 + dOp x.desc * 2 ^ 40
      + b2n (dIrq x.desc) * 2 ^ 49)
    hi := x.detail, irq := dIrq x.desc, ctx := c }

/-- The command's record joins those that its completion ring is to write; its context is free once it is written (R302). -/
def State.completeCtx (s : State) (c : Nat) : State :=
  let x := s.ctx c
  ((s.modRing x.cring (fun g => { g with held := g.held ++ [s.recordOf c] })).modCtx c (fun x => { x with phase := .recording })).count 0x1B
    ⟨(s.ring x.ring).priv.toNat, none, none, some (dCone x.desc), none, none⟩ 1

/-- The command has been performed or halted: its record is still to be written. -/
def State.endCtx (s : State) (c : Nat) (st : BitVec 8) (detail : BitVec 64) : State :=
  s.modCtx c (fun x => { x with phase := .done, status := st, detail := detail, need := [], out := 0 })

/-- A refused command changes nothing; its record is written at once (R294). -/
def State.refuseCtx (s : State) (c : Nat) (r : BitVec 8 × BitVec 64) : State := (s.endCtx c r.1 r.2).completeCtx c

/-- Decode of context c ends: the command is refused or waits to start (R294, R302). -/
def State.decodeEnd (s : State) (c : Nat) (r : Refuse) : State :=
  match r with
  | some v => s.refuseCtx c v
  | none => (s.keepPeers c).modCtx c (fun x => { x with phase := .waiting })

/-! ### Order on a ring (R178, R179) -/

/-- Placement entries of the map (R251). -/
abbrev Entry := BitVec 256
def Entry.layer (e : Entry) : Nat := bits e.toNat 15 0
def Entry.bank (e : Entry) : Nat := bits e.toNat 23 16
def Entry.coil (e : Entry) : Nat := bits e.toNat 26 24
def Entry.chain (e : Entry) : Bool := bit e.toNat 27
def Entry.firstMat (e : Entry) : Nat := bits e.toNat 47 32
def Entry.nmat (e : Entry) : Nat := bits e.toNat 63 48
def Entry.rows (e : Entry) : Nat := bits e.toNat 79 64
def Entry.inBase (e : Entry) : Nat := bits e.toNat 127 96
def Entry.outBase (e : Entry) : Nat := bits e.toNat 159 128
def State.entry (s : State) (i : Nat) : Entry := tget 0 s.cfg.places i

/-- Banks that a KILN_LOAD's run, or a layer, uses. -/
def State.loadBanks (s : State) (d : BitVec 512) : List Nat :=
  dedup (((List.range (dField d 18 2)).map (fun i => s.entry (dField d 16 2 + i))).filter (· != 0) |>.map Entry.bank)
def State.layerEntries (s : State) (layer : Nat) : List (Nat × Entry) :=
  s.cfg.places.filter (fun p => p.2 != 0 && Entry.layer p.2 == layer)
def State.fireBanks (s : State) (d : BitVec 512) : List Nat :=
  dedup ((s.layerEntries (bits (dField d 16 2) 11 0)).map (fun p => Entry.bank p.2))
def State.bankRange (s : State) (b : Nat) : Nat × Nat := (s.window + b * 4194304, 4194304)

/-- Byte of output outBase + r of token t of a KILN_FIRE (R273). -/
def fireOut (d : BitVec 512) (outBase t r : Nat) : Nat :=
  let n := outBase + r - dField d 56 4
  let blk := if dField d 48 4 = 0 then 1024 else dField d 48 4
  dField d 32 8 + t * dField d 44 4 + n / 256 * blk + 4 * (n % 256)
/-- Output span of a KILN_FIRE: from the lowest byte that R273 gives, its length. -/
def State.fireSpan (s : State) (d : BitVec 512) : Nat × Nat :=
  let es := (s.layerEntries (bits (dField d 16 2) 11 0)).filter (fun p => !Entry.chain p.2)
  let last := dField d 20 4 - 1
  let as := es.flatMap (fun p =>
    let at' := fun t r => fireOut d (Entry.outBase p.2) t r
    (List.range (Entry.rows p.2)).flatMap (fun r => [at' 0 r, at' last r]))
  let lo := as.foldl min (as.headD 0)
  (lo, as.foldl max 0 + 4 - lo)
def fireIn (d : BitVec 512) : Nat × Nat :=
  (dField d 24 8, if bit (dField d 19 1) 0 then 128 + 2 ^ bits (dField d 19 1) 5 2 * dField d 40 4
    else dField d 20 4 * dField d 40 4)

/-- The targets of an ATOM_BATCH whose list has been read: 8 bytes with W64, else 4 (R178, R238). -/
def batchTargets (x : Ctx) : List (Nat × Nat) :=
  (List.range (dLen x.desc / 32)).map (fun i => (leNat (x.bytesAt (dAddr x.desc + 32 * i) 8), if bit (leNat (x.bytesAt (dAddr x.desc + 32 * i + 9) 1)) 0 then 8 else 4))

/-- Ranges that a command reads and writes (R178). -/
def State.ctxReads (s : State) (x : Ctx) : List (Nat × Nat) :=
  let d := x.desc
  let op := dOp d
  if op = opCopy then [(dField d 16 8, dLen d)]
  else if op = opKilnLoad then [(dField d 32 8, dField d 48 4), (dField d 40 8, dField d 56 4)]
  else if op = opKilnFire then fireIn d :: (s.fireBanks d).map s.bankRange
  else if op = opAtomBatch then batchTargets x else []
def State.ctxWrites (s : State) (x : Ctx) : List (Nat × Nat) :=
  let d := x.desc
  let op := dOp d
  if op = opCopy ∨ op = opFill ∨ (opClean ≤ op ∧ op ≤ opUnpin) then [(dAddr d, dLen d)]
  else if op = opKilnLoad then (s.loadBanks d).map s.bankRange
  else if op = opKilnFire then [s.fireSpan d]
  else if op = opAtomBatch then batchTargets x else []

/-- Two ranges touch one 128 B line. -/
def touches (p q : Nat × Nat) : Bool :=
  p.2 != 0 && q.2 != 0 && decide (p.1 / 128 ≤ (q.1 + q.2 - 1) / 128) && decide (q.1 / 128 ≤ (p.1 + p.2 - 1) / 128)
def anyTouch (as bs : List (Nat × Nat)) : Bool := as.any (fun a => bs.any (touches a))
/-- A later command y overlaps an earlier one x, and one of them writes the common lines. -/
def State.overlaps (s : State) (x y : Ctx) : Bool :=
  let wx := s.ctxWrites x
  let wy := s.ctxWrites y
  anyTouch wx wy || anyTouch wx (s.ctxReads y) || anyTouch (s.ctxReads x) wy

/-- Ring barriers (R179). -/
def isBarrier (op : Nat) : Bool := op == opFence || op == opTallyWait || op == opEpochClose || op == opOverlay

/-- Open commands of a ring before one of order k. -/
def State.earlier (s : State) (n k : Nat) : List Ctx :=
  (s.cmds.ctxs.filter (fun p => p.2.ring == n && decide (p.2.order < k))).map Prod.snd

/-- A command of ring n may be decoded: its descriptor is here, every earlier one is decoded, and no overlay before it is open:
what is submitted after an overlay is checked against what it leaves (R64, R292, R294; log 30). -/
def State.decodable (s : State) (c : Nat) (op : Nat) : Bool :=
  let x := s.ctx c
  x.phase == Phase.fetched && x.stage == 0 && !x.rolled && x.need.isEmpty && dOp x.desc == op && !s.quenching && s.fw.step != 3
  && (s.earlier x.ring x.order).all (fun y => y.phase != Phase.fetched && dOp y.desc != opOverlay)

/-- A decoded command may start: no barrier and no overlapping command is before it (R178, R179). -/
def State.mayStart (s : State) (x : Ctx) : Bool :=
  let es := s.earlier x.ring x.order
  let op := dOp x.desc
  !s.quenching && es.all (fun y => !isBarrier (dOp y.desc))
  && (if isBarrier op && op != opTallyWait then es.isEmpty else es.all (fun y => !s.overlaps y x))

/-- Lowest fenced line of a command's ranges (R383). -/
def State.fencedIn (s : State) (rs : List (Nat × Nat)) : Option Nat :=
  (rs.flatMap (fun p => linesOf p.1 p.2)).foldl (fun m a =>
    if s.roleAt a = .fenced then some (match m with
      | some b => min a b
      | none => a) else m) none

/-- Command c has done what it does: the status that its answers leave (R260, R306, R383). -/
def State.finishCtx (s : State) (c : Nat) (detail : BitVec 64) : State :=
  let x := s.ctx c
  match x.poison with
  | none => s.endCtx c stOk detail
  | some a =>
    if s.roleAt a = .fenced then s.endCtx c stFenced (BitVec.ofNat 64 a)
    else s.endCtx c stBounds (fieldAt (if dOp x.desc = opCopy && x.stage = 0 then 16
      else if dOp x.desc = opKilnLoad then 32 else if dOp x.desc = opKilnFire then 24 else 8))

/-- RESULT of an ATOM_BATCH: where its results go (R238). -/
def batchResult (d : BitVec 512) : Nat := dField d 16 8
/-- Write the results that have come, as plain writes also into a WPOL 3 region (R240; log 68). -/
def State.batchResults (s : State) (c : Nat) (w : Who) : State :=
  let x := s.ctx c
  x.results.foldl (fun st p =>
    let a := batchResult x.desc + 8 * p.1
    (st.modCtx c (fun x => { x with out := x.out + 1 })).writeBytes w a (bytesLE 8 p.2.toNat) (dCone x.desc) true)
    (s.modCtx c (fun x => { x with results := [] }))

end Sys2Proof.Machine
end

