-- ==== Sys2Proof/Machine/KilnOps.lean ====
section
/-! DEFINITION. Kiln operations: formats and bank layout (R244 to R254), loads and reloads (R263 to R269, R284), firing jobs,
passes and accumulation (R270 to R281). -/
namespace Sys2Proof.Machine

/-! ### Formats (R245 to R247) -/

/-- 4-bit elements; MX formats; elements of a mat row. -/
def fmt4 (k : Nat) : Bool := k == 0 || k == 1
def fmtMx (k : Nat) : Bool := k != 0 && k != 2
def perRow (k : Nat) : Nat := if fmt4 k then 16 else 8
def elemBits (k : Nat) : Nat := if fmt4 k then 4 else 8

/-- The value of an element code, counted in 2^(−fracOf k) (R247). Bits 7 and 6 of an MXFP6 container are not used (R245, log 76). -/
def elemVal (k v : Nat) : Fv :=
  if k = 0 then (let i := asSigned 4 (v % 16); .fin (decide (i < 0)) i.natAbs)
  else if k = 1 then e2m1.decode (v % 16)
  else if k = 2 ∨ k = 3 then (let i := asSigned 8 v; .fin (decide (i < 0)) i.natAbs)
  else if k = 4 then e4m3.decode v
  else if k = 5 then e5m2.decode v
  else if k = 6 then e2m3.decode (v % 64)
  else e3m2.decode (v % 64)
def fracOf (k : Nat) : Nat :=
  if k = 0 ∨ k = 2 then 0 else if k = 3 then 6 else if k = 1 then e2m1.scale else if k = 4 then e4m3.scale
  else if k = 5 then e5m2.scale else if k = 6 then e2m3.scale else e3m2.scale

/-- A row partial (R249): weights and activations with their scales, rounded once to FP32. -/
def rowPartial (kw ka xw xa : Nat) (ps : List (Nat × Nat)) : Nat :=
  let vs := ps.map (fun p => (elemVal kw p.1, elemVal ka p.2))
  let isFin := fun (v : Fv) => match v with
    | .fin _ _ => true
    | _ => false
  if xw = 255 ∨ xa = 255 ∨ vs.any (fun v => !isFin v.1 || !isFin v.2) then fp32.nan
  else
    let sum := vs.foldl (fun (acc : Int) v => match v with
      | (.fin s x, .fin t y) => acc + signed s x * signed t y
      | _ => acc) 0
    if sum = 0 then 0
    else (fp32.roundTo (decide (sum < 0)) (sum.natAbs * 2 ^ (xw + xa)) (fracOf kw + fracOf ka + 254) .nearest).val

/-- Sum of a list of 2^n leaves in a binary tree, adjacent pairs first (R250). -/
def pairSums : List Nat → List Nat
  | a :: b :: r => (fp32.add a b .nearest).val :: pairSums r
  | l => l
def treeSum (n : Nat) (l : List Nat) : Nat := ((List.range n).foldl (fun l _ => pairSums l) l).headD 0

/-! ### Layout (R244, R246, R252) -/

/-- Byte offset in a bank of byte i of mat q of a coil at a row (R244). -/
def kilnOff (row coil q i : Nat) : Nat := row * 16384 + coil * 2048 + q * 8 + i
def State.kilnByte (s : State) (bank row coil q i : Nat) : Byte := s.arrByte (bank * 4194304 + kilnOff row coil q i)

/-- Element mats of a coil, and the scale mat that serves an element mat (R246). -/
def elemMats (k : Nat) : Nat := if !fmtMx k then 256 else if k = 1 then 240 else 248
def scaleMat (k q : Nat) : Nat := if k = 1 then 240 + q / 16 else 248 + q / 32
def firstScale (k : Nat) : Nat := if k = 1 then 240 else 248
/-- Element mats that one block covers. -/
def matsPerBlock (k : Nat) : Nat := if k = 1 then 2 else 4

/-- Element mats of an entry, its scale mats, all it claims, and the pad bytes its load clears (R252, R265). -/
def Entry.mats (e : Entry) : List Nat := (List.range (Entry.nmat e)).map (Entry.firstMat e + ·)
def Entry.scales (e : Entry) (k : Nat) : List Nat :=
  if fmtMx k then dedup ((Entry.mats e).map (scaleMat k)) else []
def Entry.claims (e : Entry) (k : Nat) : List Nat := Entry.mats e ++ Entry.scales e k
def Entry.empty (e : Entry) : Bool := e == 0

/-- KFMT of the kiln region that holds a bank (R76, R252). -/
def State.kfmtOf (s : State) (bank : Nat) : Nat :=
  match s.cfg.find spKiln (s.window + bank * 4194304) with
  | some (_, r) => Region.kfmt r
  | none => 0

/-! ### Loads (R263 to R268) -/

/-- Operand fields, read from bytes 16 to 63 at offset 16 of the descriptor or of a record of R268. -/
def ldFirst (d : BitVec 512) : Nat := dField d 16 2
def ldCount (d : BitVec 512) : Nat := dField d 18 2
def ldOut0 (d : BitVec 512) : Nat := dField d 20 4
def ldIn0 (d : BitVec 512) : Nat := dField d 24 4
def ldStride (d : BitVec 512) : Nat := dField d 28 4
def ldSrc (d : BitVec 512) : Nat := dField d 32 8
def ldScale (d : BitVec 512) : Nat := dField d 40 8
def ldSrcLen (d : BitVec 512) : Nat := dField d 48 4
def ldScaleStride (d : BitVec 512) : Nat := dField d 52 4
def ldScaleLen (d : BitVec 512) : Nat := dField d 56 4

/-- The entries of a run, empty ones passed over (R252). -/
def State.runOf (s : State) (d : BitVec 512) : List (Nat × Entry) :=
  ((List.range (ldCount d)).map (fun i => (ldFirst d + i, s.entry (ldFirst d + i)))).filter (fun p => !Entry.empty p.2)

/-- Byte offsets, from SRC and from SCALE_SRC, of the weight and scale of output n and input i (R264). -/
def srcOff (d : BitVec 512) (k n i : Nat) : Nat := (n - ldOut0 d) * ldStride d + (i - ldIn0 d) * elemBits k / 8
def scaleOff (d : BitVec 512) (n i : Nat) : Nat := (n - ldOut0 d) * ldScaleStride d + (i - ldIn0 d) / 32

/-- Every byte of R264 for an entry lies in its area. -/
def loadFits (d : BitVec 512) (k : Nat) (e : Entry) : Bool :=
  let n1 := Entry.outBase e + Entry.rows e - 1
  let i1 := Entry.inBase e + perRow k * Entry.nmat e - 1
  decide (ldOut0 d ≤ Entry.outBase e) && decide (ldIn0 d ≤ Entry.inBase e) && decide (srcOff d k n1 i1 < ldSrcLen d)
  && (!fmtMx k || decide (scaleOff d n1 i1 < ldScaleLen d))

/-- A place of R267 for a source area. -/
def State.sourceOk (s : State) (a n : Nat) : Bool := (s.spot a n).ok
/-- It lies in kiln or tally space. -/
def Spot.barred : Spot → Bool
  | .kiln _ _ => true
  | .tally => true
  | _ => false

/-- The checks of R267, with the DETAIL field of each. -/
def State.loadCheck (s : State) (d : BitVec 512) : Refuse :=
  let es := s.runOf d
  let own := fun (p : Nat × Entry) => s.kfmtOf (Entry.bank p.2)
  let k := (es.map own).headD (s.kfmtOf 0)
  let mx := es.any (fun p => fmtMx (own p))
  let plain := !mx || es.any (fun p => !fmtMx (own p))
  let a1 := s.spot (ldSrc d) (ldSrcLen d)
  let a2 := s.spot (ldScale d) (ldScaleLen d)
  let bad := fun (a n off : Nat) => (!s.sourceOk a n && !(s.spot a n).barred && !(!s.kiln.engineValid && (s.peerOf a n).isSome), stBounds, fieldAt off)
  firstOf [
    (ldCount d == 0, stZeroLen, 0), (ldSrcLen d == 0, stZeroLen, 0),
    (ldIn0 d % 32 != 0, stAlign, fieldAt 24), (ldSrc d % 8 != 0, stAlign, fieldAt 32),
    (ldScale d % 8 != 0, stAlign, fieldAt 40), (ldStride d % 8 != 0, stAlign, fieldAt 28),
    (ldScaleStride d % 8 != 0, stAlign, fieldAt 52),
    (es.any (fun p => !loadFits d (own p) p.2), stBounds, fieldAt 48),
    bad (ldSrc d) (ldSrcLen d) 32,
    ((bad (ldScale d) (ldScaleLen d) 40).1 && mx, stBounds, fieldAt 40),
    (decide (s.cfg.placeN < ldFirst d + ldCount d), stBadOp, fieldAt 18),
    (es.any (fun p => own p != k), stBadOp, fieldAt 16),
    (plain && ldScale d != 0, stBadOp, fieldAt 40), (plain && ldScaleStride d != 0, stBadOp, fieldAt 52),
    (plain && ldScaleLen d != 0, stBadOp, fieldAt 56),
    (a1.barred, stBadOp, fieldAt 32), (mx && a2.barred, stBadOp, fieldAt 40),
    (!s.sourceOk (ldSrc d) (ldSrcLen d), stBadOp, fieldAt 32),
    (mx && !s.sourceOk (ldScale d) (ldScaleLen d), stBadOp, fieldAt 40),
    (bits (ldSrc d) 63 52 != 0, stBadOp, fieldAt 32), (bits (ldScale d) 63 52 != 0, stBadOp, fieldAt 40),
    (dField d 60 4 != 0, stBadOp, fieldAt 60)]

/-- Source lines that row r of an entry's mats needs: those of its element bytes, and those of the scale bytes of its scale mats
(R264 to R266). -/
def rowLines (d : BitVec 512) (k : Nat) (e : Entry) (r : Nat) : List Nat :=
  let n := Entry.outBase e + r
  let o := scaleOff d n (Entry.inBase e)
  linesOf (ldSrc d + srcOff d k n (Entry.inBase e)) (8 * Entry.nmat e)
    ++ linesOf (ldScale d + o) (min (8 * (Entry.scales e k).length) (if fmtMx k then ldScaleLen d - o else 0))
/-- Source lines of a load: each line that a bank write of the run needs, once (R266). -/
def State.loadLines (s : State) (d : BitVec 512) : List Nat :=
  dedup ((s.runOf d).flatMap (fun p => (List.range (Entry.rows p.2)).flatMap (rowLines d (s.kfmtOf (Entry.bank p.2)) p.2)))

/-- The bytes that a load writes into mat q at row r: element bytes, scale bytes, or zeros; `src` reads the source, and a
scale byte past its area is not stated by R265 and is `fb` (log 24). -/
def loadRow (d : BitVec 512) (k : Nat) (e : Entry) (src : Nat → Byte) (fb : Byte) (r q : Nat) : List Byte :=
  let n := Entry.outBase e + r
  if Entry.rows e ≤ r then List.replicate 8 0
  else if q < elemMats k then
    let a := ldSrc d + srcOff d k n (Entry.inBase e + perRow k * (q - Entry.firstMat e))
    (List.range 8).map (fun i => src (a + i))
  else
    let pad := if k = 1 then 8 else if q = 255 then 6 else 8
    let blocks := 8 * (q - firstScale k)
    let b0 := Entry.firstMat e / matsPerBlock k
    let o := scaleOff d n (Entry.inBase e)
    (List.range 8).map (fun i =>
      if pad ≤ i then 0
      else if blocks + i < b0 then fb
      else if o + (blocks + i - b0) < ldScaleLen d then src (ldScale d + o + (blocks + i - b0)) else fb)

/-- Write mats of an entry from its source (R265): those in `ms`, and with scale mats the pad bytes. -/
def State.writeMats (s : State) (d : BitVec 512) (k : Nat) (e : Entry) (src : Nat → Byte) (fb : Byte) (ms : List Nat) :
    State :=
  let at' := fun (q r i : Nat) => Entry.bank e * 4194304 + kilnOff r (Entry.coil e) q i
  let put := fun (t : List Host.Cell) (q r : Nat) (bs : List Byte) => setBytes t (at' q r 0) bs (maskOf 0 8) 0
  let cells := ms.foldl (fun t q => (List.range 256).foldl (fun t r => put t q r (loadRow d k e src fb r q)) t) s.arr.bytes
  let pads := if ms.any (elemMats k ≤ ·) then
      (List.range 256).foldl (fun t r =>
        if k = 1 then put t 255 r (List.replicate 8 0)
        else setBytes t (at' 255 r 6) (List.replicate 2 0) (maskOf 0 8) 0) cells
    else cells
  { s with arr := { s.arr with bytes := pads } }

/-! ### Entry states and queues (R261, R268) -/

def State.kentry (s : State) (i : Nat) : KEntry := tget KEntry.reset s.kiln.entries i
def State.modEntry (s : State) (i : Nat) (f : KEntry → KEntry) : State :=
  { s with kiln := { s.kiln with entries := tmod KEntry.reset s.kiln.entries i f } }
def State.modQueue (s : State) (b : Nat) (f : List Nat → List Nat) : State :=
  { s with kiln := { s.kiln with queues := tmod [] s.kiln.queues b f } }
/-- A command joins the queues of its banks, in kiln order (R261). -/
def State.joinBanks (s : State) (c : Nat) (bs : List Nat) : State :=
  bs.foldl (fun st b => st.modQueue b (· ++ [c])) { s with kiln := { s.kiln with order := s.kiln.order ++ [c] } }
/-- A command has finished with a bank, or gives it up: its progress record and its input go, and what waited for the bank goes on
(R243, R261, R281). -/
def State.leaveBank (s : State) (c b : Nat) : State :=
  let s1 := (s.modQueue b (fun q => q.erase c)).modPeri b (fun p => { p with halves := p.halves.filter (fun h => h.ctx != c) })
  (if (tget none s1.kiln.progress b).any (fun p => p.ctx == c) then { s1 with kiln := { s1.kiln with progress := tdel s1.kiln.progress b } }
  else s1).releaseHeld
/-- It has left all of them. -/
def State.leaveBanks (s : State) (c : Nat) : State :=
  let bs := (s.kiln.queues.filter (fun p => p.2.contains c)).map Prod.fst
  let s1 := bs.foldl (fun st b => st.leaveBank c b) s
  { s1 with kiln := { s1.kiln with order := s1.kiln.order.erase c } }
/-- Open kiln commands on banks of a half (R279). -/
def State.seqOpen (s : State) (h : Half) : Nat :=
  (s.kiln.order.filter (fun c => s.kiln.queues.any (fun p => shelfHalf (p.1 / 16) == h && p.2.contains c))).length

/-- The status NO_SPARE that a lost bank leaves on the commands that head for it (R283). -/
def Ctx.noSpare (x : Ctx) : Bool := 256 ≤ x.stage

/-- An entry of the bank is being reloaded: it heads the bank's queue (R283, R284). -/
def State.reloading (s : State) (b : Nat) : Bool :=
  s.cfg.places.any (fun p => !Entry.empty p.2 && Entry.bank p.2 == b && (s.kentry p.1).st == .reloading)

/-- A load writes the entries of each bank whose queue it heads, once its source is here (R261, R265). -/
def State.loadStep (s : State) (c : Nat) : State :=
  let x := s.ctx c
  let d := x.desc
  if x.phase != Phase.gathering || !x.need.isEmpty || x.poison.isSome then s else
  let (v, s0) := s.draw
  let fb : Byte := v.extractLsb' 0 8
  let bs := (s0.kiln.queues.filter (fun p => p.2.head? == some c)).map Prod.fst
  bs.foldl (fun st b =>
    if st.fitting b || st.reloading b || (st.half (shelfHalf (b / 16))).st != .awake then st else
    let es := (st.runOf d).filter (fun p => Entry.bank p.2 == b)
    let k := st.kfmtOf b
    let s1 := es.foldl (fun st p => st.writeMats d k p.2 x.byteAt fb (Entry.claims p.2 k)) st
    let done := fun (y : Ctx) => { y with begun := true, progress := y.progress + (es.map (fun p => 2048 * (Entry.claims p.2 k).length)).foldl (· + ·) 0
                                          results := y.results ++ es.map (fun p => (p.1, (0 : BitVec 64))) }
    (s1.modCtx c done).leaveBank c b) s0

/-- What the end of a KILN_LOAD does to its entries: LOADED with their record, or LOST (R260, R268). -/
def State.kilnClose (s : State) (c : Nat) : State :=
  let x := s.ctx c
  let s1 := if dOp x.desc = opKilnLoad ∨ dOp x.desc = opKilnFire then s.leaveBanks c else s
  let s2 := { s1 with kiln := { s1.kiln with jobs := s1.kiln.jobs.filter (fun j => j.ctx != c)
                                             asmA := s1.kiln.asmA.filter (fun a => a.ctx != c)
                                             asmB := s1.kiln.asmB.filter (fun a => a.ctx != c)
                                             peri := s1.kiln.peri.map (fun p => (p.1, { p.2 with
                                               outq := p.2.outq.filter (fun q => q.1 != c) })) } }
  if dOp x.desc ≠ opKilnLoad ∨ x.phase ≠ .done then s2
  else if x.status = stOk then
    (s2.runOf x.desc).foldl (fun st p => st.modEntry p.1 (fun e =>
      { e with st := .loaded, reloads := 0, record := some (x.desc.extractLsb' 128 384) })) s2
  else
    let hit := if x.poison.isSome && x.stage = 1 then (s2.runOf x.desc).map Prod.fst else x.results.map Prod.fst
    hit.foldl (fun st i => st.modEntry i (fun e => { e with st := .lost, reloads := 0 })) s2

/-- End of a running command: its kiln part, then its record. -/
def State.closeCtx (s : State) (c : Nat) : State := (s.kilnClose c).completeCtx c

/-! ### Reloads (R269, R284) -/

/-- Operands of a reload record, at their descriptor offsets. -/
def recordDesc (r : BitVec 384) : BitVec 512 := r.zeroExtend 512 <<< 128

/-- Source lines of the reload of some of an entry's mats: those that the rows of each need (R284). -/
def reloadLines (d : BitVec 512) (k : Nat) (e : Entry) (ms : List Nat) : List Nat :=
  let line := fun (q r : Nat) =>
    let n := Entry.outBase e + r
    if q < elemMats k then linesOf (ldSrc d + srcOff d k n (Entry.inBase e + perRow k * (q - Entry.firstMat e))) 8
    else
      let o := scaleOff d n (Entry.inBase e) + (8 * (q - firstScale k) - Entry.firstMat e / matsPerBlock k)
      linesOf (ldScale d + o) (min 8 (ldScaleLen d - o))
  dedup ((List.range (Entry.rows e)).flatMap (fun r => ms.flatMap (fun q => line q r)))

/-- Start the reload of the given mats of an entry, or add them to the one that runs: it is RELOADING, counted and reported (R284). -/
def State.reloadStart (s : State) (i : Nat) (mats : List Nat) : State :=
  let e := s.entry i
  let s1 := (s.modEntry i (fun x => { x with st := .reloading, reloads := satAdd x.reloads 1 })).event 0x0B02 srcSlice [i]
  match (s.kentry i).record with
  | none => s1
  | some r =>
    let d := recordDesc r
    if (s.loadCheck (BitVec.ofNat 512 (d.toNat - ldFirst d * 2 ^ 128 - ldCount d * 2 ^ 144 + i * 2 ^ 128 + 2 ^ 144))).isSome then
      if s1.kiln.reloads.any (fun x => x.entry == i) then s1.modReload i (fun x => { x with bad := true })
      else { s1 with kiln := { s1.kiln with reloads := s1.kiln.reloads ++ [⟨i, mats, [], [], true⟩] } }
    else
      let ls := reloadLines d (s.kfmtOf (Entry.bank e)) e mats
      let more := fun (x : Reload) => { x with mats := dedup (x.mats ++ mats), need := x.need ++ ls }
      let s2 := if s1.kiln.reloads.any (fun x => x.entry == i) then s1.modReload i more
        else { s1 with kiln := { s1.kiln with reloads := s1.kiln.reloads ++ [⟨i, mats, ls, [], false⟩] } }
      ls.foldl (fun st a => st.readLine (.reload i) .rdNC a 0 true) s2

/-- The reload of an entry ends: LOADED, or LOST with KILN_RELOAD_FAIL (R269); one that was lost meanwhile stays so (R283). -/
def State.reloadEnd (s : State) (i : Nat) : State :=
  match s.kiln.reloads.find? (fun x => x.entry == i) with
  | none => s
  | some x =>
    if !x.need.isEmpty then s else
    let s1 := { s with kiln := { s.kiln with reloads := dropFirst (fun x => x.entry == i) s.kiln.reloads } }
    if (s.kentry i).st ≠ .reloading then s1 else
    match x.bad, (s.kentry i).record with
    | false, some r =>
      let e := s.entry i
      let k := s.kfmtOf (Entry.bank e)
      let (v, s2) := s1.draw
      let src := fun (a : Nat) => byteOf (tget 0 x.lines (a / 128 * 128)) (a % 128)
      (s2.writeMats (recordDesc r) k e src (v.extractLsb' 0 8) x.mats).modEntry i (fun y => { y with st := .loaded })
    | _, _ => (s1.modEntry i (fun y => { y with st := .lost })).event 0x0B03 srcSlice [i]

/-- Entries of a bank that hold weights are reloaded, in whole or for one mat (R283, R284); one without a record is as
R268 leaves it. -/
def State.reloadBank (s : State) (b : Nat) (mat : Option (Nat × Nat)) : State :=
  (s.cfg.places.filter (fun p => !Entry.empty p.2 && Entry.bank p.2 == b)).foldl (fun st p =>
    let k := st.kfmtOf b
    let ms := match mat with
      | none => Entry.claims p.2 k
      | some (coil, q) => if Entry.coil p.2 == coil then (Entry.claims p.2 k).filter (· == q) else []
    if ms.isEmpty || (st.kentry p.1).record.isNone || (st.kentry p.1).st == .lost then st else st.reloadStart p.1 ms) s

/-! ### Firing (R270 to R279) -/

def frLayer (d : BitVec 512) : Nat := bits (dField d 16 2) 11 0
def frAfmt (d : BitVec 512) : Nat := bits (dField d 18 1) 3 0
def frStream (d : BitVec 512) : Bool := bit (dField d 19 1) 0
def frAccum (d : BitVec 512) : Bool := bit (dField d 19 1) 1
def frRing (d : BitVec 512) : Nat := bits (dField d 19 1) 5 2
def frNtok (d : BitVec 512) : Nat := dField d 20 4
def frSrc (d : BitVec 512) : Nat := dField d 24 8
def frDst (d : BitVec 512) : Nat := dField d 32 8
def frInStride (d : BitVec 512) : Nat := dField d 40 4
def frOutStride (d : BitVec 512) : Nat := dField d 44 4
def frBlock (d : BitVec 512) : Nat := dField d 48 4
def frIn0 (d : BitVec 512) : Nat := dField d 52 4
def frOut0 (d : BitVec 512) : Nat := dField d 56 4
def frInK (d : BitVec 512) : Nat := dField d 60 4

/-- Bytes of an input vector: elements, then scales (R271). -/
def vecElems (d : BitVec 512) : Nat := frInK d * elemBits (frAfmt d) / 8
def vecBytes (d : BitVec 512) : Nat := vecElems d + (if fmtMx (frAfmt d) then frInK d / 32 else 0)

/-- An area lies in one permitted region or one peer window (R277). -/
def State.fireSpot (s : State) (p : Nat × Nat) (out acc : Bool) : Bool :=
  match s.spot p.1 p.2 with
  | .saggar _ _ => true
  | .peer => true
  | .cache _ _ => out && acc
  | _ => false

/-- The checks of R277. -/
def State.fireCheck (s : State) (d : BitVec 512) : Refuse :=
  let es := s.layerEntries (frLayer d)
  let k := s.kfmtOf ((es.map (fun p => Entry.bank p.2)).headD 0)
  let em := es.filter (fun p => !Entry.chain p.2)
  let inA := fireIn d
  let outA := s.fireSpan d
  let cacheOut := match s.spot outA.1 outA.2 with
    | .cache _ r => if frAccum d then Region.wpol r == 3 else true
    | _ => false
  let peerOff := fun (p : Nat × Nat) => !s.kiln.engineValid && (s.peerOf p.1 p.2).isSome
  firstOf [
    (frNtok d == 0, stZeroLen, 0),
    (frSrc d % 128 != 0, stAlign, fieldAt 24), (frDst d % 128 != 0, stAlign, fieldAt 32),
    (frInStride d == 0 || frInStride d % 128 != 0, stAlign, fieldAt 40), (frOutStride d % 4 != 0, stAlign, fieldAt 44),
    (frBlock d % 4 != 0, stAlign, fieldAt 48), (frIn0 d % 32 != 0, stAlign, fieldAt 52),
    (frInK d == 0 || frInK d % 32 != 0, stAlign, fieldAt 60),
    (decide (frInStride d < vecBytes d), stBounds, fieldAt 40),
    (es.any (fun p => decide (Entry.inBase p.2 < frIn0 d) ||
      decide (frIn0 d + frInK d < Entry.inBase p.2 + perRow (s.kfmtOf (Entry.bank p.2)) * Entry.nmat p.2)), stBounds, fieldAt 52),
    (em.any (fun p => decide (Entry.outBase p.2 < frOut0 d)), stBounds, fieldAt 56),
    (!s.fireSpot inA false false && !peerOff inA, stBounds, fieldAt 24),
    (!em.isEmpty && !s.fireSpot outA true true && !peerOff outA, stBounds, fieldAt 32),
    (es.isEmpty, stBadOp, fieldAt 16), (es.any (fun p => (s.kentry p.1).st == .lost), stBadOp, fieldAt 16),
    (es.any (fun p => s.kfmtOf (Entry.bank p.2) != k), stBadOp, fieldAt 16),
    (decide (7 < dField d 18 1), stBadOp, fieldAt 18),
    (frStream d && (frRing d == 0 || decide (12 < frRing d)), stBadOp, fieldAt 19),
    (cacheOut, stBadOp, fieldAt 32), (peerOff inA, stBadOp, fieldAt 24), (peerOff outA, stBadOp, fieldAt 32),
    (bits (dField d 16 2) 15 12 != 0, stBadOp, fieldAt 16), (bits (dField d 19 1) 7 6 != 0, stBadOp, fieldAt 19),
    (bits (frSrc d) 63 52 != 0, stBadOp, fieldAt 24), (bits (frDst d) 63 52 != 0, stBadOp, fieldAt 32)]

/-- The pass schedule of a bank (R274): for each token, the k-th entry of every coil. -/
def State.schedule (s : State) (d : BitVec 512) (b : Nat) : List Pass :=
  let es := (s.layerEntries (frLayer d)).filter (fun p => Entry.bank p.2 == b)
  let on := fun (c : Nat) => (es.filter (fun p => Entry.coil p.2 == c)).map Prod.fst
  let most := ((List.range 8).map (fun c => (on c).length)).foldl max 0
  (List.range (frNtok d)).flatMap (fun t => (List.range most).map (fun k => ⟨t, (List.range 8).filterMap (fun c => (on c)[k]?)⟩))


/-- Address of token t's vector (R271, R272). -/
def vecAddr (d : BitVec 512) (t : Nat) : Nat :=
  if frStream d then frSrc d + 128 + t % 2 ^ frRing d * frInStride d else frSrc d + t * frInStride d
def vecLines (d : BitVec 512) (t : Nat) : List Nat := linesOf (vecAddr d t) (vecBytes d)

/-- Tokens that the banks of a job fire next. -/
def Job.nextTokens (j : Job) : List Nat := dedup (j.left.filterMap (fun p => (p.2.head?).map Pass.token))
/-- A token's vector may be read: with STREAM, HEAD has passed it (R272). -/
def Job.ready (j : Job) (t : Nat) : Bool := !frStream j.desc || decide (t < j.headSeen.toNat)
/-- Banks of a shelf in which a job still fires a token. -/
def Job.banksFor (j : Job) (sh t : Nat) : List Nat :=
  (j.left.filter (fun p => p.1 / 16 == sh && p.2.any (fun q => q.token == t))).map Prod.fst
/-- A bank has a free half of its input buffer for a job; one that does not head its queue takes no second half (R242, R279). -/
def State.inputRoom (s : State) (c b : Nat) : Bool :=
  let hs := (s.peri b).halves
  let head := fun (k : Nat) => (s.bankQueue b).head? == some k
  decide (hs.length < 2) && (head c || hs.all (fun h => head h.ctx))
/-- A shelf's broadcaster fetches a token's vector, once for all banks of the shelf that use it (R256, R279). -/
def State.fetchInput (s : State) (c : Nat) (j : Job) (sh t : Nat) : State :=
  let as := vecLines j.desc t
  let s1 := (j.banksFor sh t).foldl (fun st b => st.modPeri b (fun p => { p with halves := p.halves ++ [⟨c, t, []⟩] })) s
  let s2 := s1.modJob c (fun j => { j with asked := j.asked ++ [(sh, t)], need := j.need ++ as.map (fun a => (sh, t, a)) })
  as.foldl (fun st a => st.readLine (.input c sh) .rdNC a (dCone j.desc) false) s2
/-- Read the vectors that the banks of a job need next, into every shelf whose banks have room (R279). -/
def State.fireAsk (s : State) (c : Nat) : State :=
  match s.job c with
  | none => s
  | some j0 =>
    let want := fun (sh : Nat) => dedup ((j0.left.filter (fun p => p.1 / 16 == sh)).filterMap (fun p => (p.2.head?).map Pass.token))
    (List.range 16).foldl (fun st sh => (sortBy id (want sh)).foldl (fun st t =>
      match st.job c with
      | some j => if j.ready t && !j.asked.contains (sh, t) && (j.banksFor sh t).all (st.inputRoom c) then st.fetchInput c j sh t
        else st
      | none => st) st) s
/-- The buffer half of a bank that holds a token's vector of a job. -/
def State.inHalf (s : State) (c b t : Nat) : Option InHalf := (s.peri b).halves.find? (fun h => h.ctx == c && h.token == t)
/-- The bank's next vector is here whole (R256). -/
def State.inputHere (s : State) (j : Job) (b t : Nat) : Bool :=
  (s.inHalf j.ctx b t).isSome && !j.need.any (fun n => n.1 == b / 16 && n.2.1 == t)

/-- Read HEAD of a streamed input; at a peer as RdNC (R260, R272). -/
def State.askHead (s : State) (c : Nat) : State :=
  match s.job c with
  | some j =>
    let op := if s.place (frSrc j.desc) = .nowhere then ReqOp.rdNC else .rdV
    (s.modJob c (fun j => { j with headReading := true })).readLine (.head c) op (frSrc j.desc) (dCone j.desc) false
  | none => s

/-- Make the job of a decoded KILN_FIRE on the placement map of this moment (R64, R279). -/
def State.fireMake (s : State) (c : Nat) : State :=
  let d := (s.ctx c).desc
  let bs := s.fireBanks d
  let j : Job := { ctx := c, desc := d, kfmt := s.kfmtOf (bs.headD 0), places := s.cfg.places,
                   left := sortBy Prod.fst (bs.map (fun b => (b, s.schedule d b))), asked := [], need := [], wrote := [],
                   headSeen := 0, headReading := false, tailOut := 0 }
  { s with kiln := { s.kiln with jobs := s.kiln.jobs.filter (fun x => x.ctx != c) ++ [j] } }

/-- A job starts: it joins its banks' queues, and its inputs are read. -/
def State.fireStart (s : State) (c : Nat) : State :=
  match s.job c with
  | none => s
  | some j =>
    let s1 := (s.joinBanks c (j.left.map Prod.fst)).modCtx c (fun x => { x with phase := .acting })
    if frStream j.desc then (s1.askHead c).fireAsk c else s1.fireAsk c

/-! ### A pass (R249, R250, R253, R254) -/

/-- Element and scale of input index i in a vector at address v whose bytes are `rd` (R271). -/
def actElem (rd : Nat → Byte) (d : BitVec 512) (v i : Nat) : Nat :=
  let p := i - frIn0 d
  if fmt4 (frAfmt d) then (rd (v + p / 2)).toNat / (if p % 2 = 0 then 1 else 16) % 16 else (rd (v + p)).toNat
def actScale (rd : Nat → Byte) (d : BitVec 512) (v i : Nat) : Nat :=
  if fmtMx (frAfmt d) then (rd (v + vecElems d + (i - frIn0 d) / 32)).toNat else 127
/-- The latch of mat q of a firing entry: its input elements from bit 0 up, and their scale at bit 128 (R242, R253). -/
def latchOf (rd : Nat → Byte) (d : BitVec 512) (k : Nat) (e : Entry) (v q : Nat) : BitVec 136 :=
  let i0 := Entry.inBase e + perRow k * (q - Entry.firstMat e)
  let els := (List.range (perRow k)).foldl (fun n i => n + actElem rd d v (i0 + i) * 2 ^ (elemBits (frAfmt d) * i)) 0
  BitVec.ofNat 136 (els + actScale rd d v i0 * 2 ^ 128)
/-- The latches of bank b for a pass, filled from its input buffer; those of unclaimed mats are 0 (R242, R279). -/
def State.latches (s : State) (j : Job) (b : Nat) (p : Pass) : Table (BitVec 136) :=
  let ls := match s.inHalf j.ctx b p.token with
    | some h => h.lines
    | none => []
  let rd := fun (a : Nat) => byteOf (tget 0 ls (a / 128 * 128)) (a % 128)
  (p.fires.map (fun i => tget 0 j.places i)).foldl (fun t e =>
    (Entry.mats e).foldl (fun t q => tset 0 t (Entry.coil e * 256 + q) (latchOf rd j.desc j.kfmt e (vecAddr j.desc p.token) q)) t) []

/-- The weights of a mat row, and their scale (R245, R246). -/
def State.weights (s : State) (k bank coil q r : Nat) : List Nat :=
  let bs := (List.range 8).map (fun i => (s.kilnByte bank r coil q i).toNat)
  if fmt4 k then bs.flatMap (fun b => [b % 16, b / 16]) else bs
def State.weightScale (s : State) (k bank coil q r : Nat) : Nat :=
  if !fmtMx k then 127
  else
    let blk := q / matsPerBlock k
    (s.kilnByte bank r coil (firstScale k + blk / 8) (blk % 8)).toNat

/-- The sum of a coil for row r, firing entry e on the latches `act` (R249, R250, R253). -/
def State.coilSum (s : State) (act : Table (BitVec 136)) (j : Job) (e : Entry) (r : Nat) : Nat :=
  let k := j.kfmt
  let w := elemBits (frAfmt j.desc)
  let leaf := fun (q : Nat) =>
    if Entry.firstMat e ≤ q ∧ q < Entry.firstMat e + Entry.nmat e then
      let l := (tget 0 act (Entry.coil e * 256 + q)).toNat
      let ws := s.weights k (Entry.bank e) (Entry.coil e) q r
      rowPartial k (frAfmt j.desc) (s.weightScale k (Entry.bank e) (Entry.coil e) q r) (l / 2 ^ 128)
        (ws.zipIdx.map (fun p => (p.1, bits l (w * p.2 + w - 1) (w * p.2))))
    else 0
  treeSum 8 ((List.range 256).map leaf)

/-- The sums that a pass emits, as entry and row values, chains added coil by coil (R250, R253). -/
def State.passSums (s : State) (act : Table (BitVec 136)) (j : Job) (p : Pass) : List (Entry × List Nat) :=
  let es := sortBy Entry.coil (p.fires.map (fun i => tget 0 j.places i))
  (es.foldl (fun (acc : Option (List Nat) × List (Entry × List Nat)) e =>
    let own := (List.range (Entry.rows e)).map (s.coilSum act j e)
    let tot := match acc.1 with
      | some c => (c.zip own).map (fun q => (fp32.add q.1 q.2 .nearest).val)
      | none => own
    if Entry.chain e then (some tot, acc.2) else (none, acc.2 ++ [(e, tot)])) (none, [])).2

/-! ### Output (R273, R275, R276) -/

/-- Words of one line, as a byte mask and its data. -/
def wordsOf (ws : List (Nat × Nat)) : Mask × Line :=
  ws.foldl (fun acc p => (acc.1 ||| maskOf (p.1 % 128) 4,
    acc.2 ||| (BitVec.ofNat 1024 (p.2 % 2 ^ 32) <<< (8 * (p.1 % 128))))) (0, 0)

/-- Groups of n elements. -/
def chunksOf {α : Type} (n : Nat) (l : List α) : List (List α) :=
  (List.range ((l.length + n - 1) / n)).map (fun i => (l.drop (n * i)).take n)

/-- The output queue of a bank gives up the sums of one line as a write; they leave it once the write has been answered (R257). -/
def State.sumWrite (s : State) (c b a n : Nat) (m : Mask) (d : Line) : State :=
  ((s.modCtx c (fun x => { x with out := x.out + 1, begun := true })).modPeri b (fun p => { p with outq := p.outq ++ [(c, a, n)] })).writeLine
    (.sum c b) a m d (dCone (s.ctx c).desc) true
/-- The output queue holds fewer than its 64 sums, so that a pass may start (R256, R257). -/
def State.outRoom (s : State) (b : Nat) : Bool := decide (((s.peri b).outq.map (fun q => q.2.2)).foldl (· + ·) 0 < 64)

/-- Write the sums of one entry: eight rows at a time, one write a line. A word that another bank wrote keeps the value
that the free order of the two banks leaves (R275, log 9). -/
def State.writeSums (s : State) (c : Nat) (j : Job) (b t : Nat) (e : Entry) (sums : List Nat) : State :=
  let outs := sums.zipIdx.map (fun p => (fireOut j.desc (Entry.outBase e) t p.2, p.1))
  let keeps := fun (a : Nat) => match tget 0 j.wrote a with
    | 0 => true
    | n + 1 => n == b || Config.bankOrder n b
  let s1 := s.modJob c (fun j => { j with wrote := outs.foldl (fun w p => if keeps p.1 then tset 0 w p.1 (b + 1) else w) j.wrote })
  (chunksOf 8 outs).foldl (fun st g =>
    (dedup (g.map (fun p => p.1 / 128))).foldl (fun st l =>
      let ws := g.filter (fun p => p.1 / 128 == l && keeps p.1)
      if ws.isEmpty then st else
      let (m, d) := wordsOf ws
      st.sumWrite c b (l * 128) ws.length m d) st) s1

/-- A vector Atom of FP32 add on a line for command c (R215, R260, R276). -/
def State.sendSlot (s : State) (a : AsmSlot) : State :=
  let neg := (List.range 32).foldl (fun (l : Line) i =>
    if a.have32.getLsbD i then l else l ||| (0x80000000#1024 <<< (32 * i))) a.data
  let r := { mkReq .atom (.cmd a.ctx) (lineIx (a.line * 128)) (dCone (s.ctx a.ctx).desc) with
    mask := fullMask, data := neg, plen := 128, aop := 0x80 }
  (s.modCtx a.ctx (fun x => { x with out := x.out + 1, begun := true })).issue r

def State.asm (s : State) : Half → List AsmSlot
  | .a => s.kiln.asmA
  | .b => s.kiln.asmB
def State.setAsm (s : State) (h : Half) (l : List AsmSlot) : State :=
  match h with
  | .a => { s with kiln := { s.kiln with asmA := l } }
  | .b => { s with kiln := { s.kiln with asmB := l } }

/-- One sum enters the accumulation assembler of a half (R276). A position that holds a sum already sends its slot first
(log 25). -/
def State.assemble (s : State) (h : Half) (c t a v : Nat) : State :=
  let l := a / 128
  let i := a % 128 / 4
  let is := fun (x : AsmSlot) => x.ctx == c && x.token == t && x.line == l
  let put := fun (x : AsmSlot) => { x with have32 := setBit x.have32 i true
                                           data := x.data ||| (BitVec.ofNat 1024 (v % 2 ^ 32) <<< (32 * i)) }
  let s1 := match (s.asm h).find? is with
    | some x => if x.have32.getLsbD i then (s.setAsm h (dropFirst is (s.asm h))).sendSlot x else s
    | none => s
  if (s1.asm h).any is then
    let xs := modFirst is put (s1.asm h)
    match xs.find? (fun x => is x && x.have32 == BitVec.allOnes 32) with
    | some x => (s1.setAsm h (dropFirst is xs)).sendSlot x
    | none => s1.setAsm h xs
  else
    let s2 := match s1.asm h with
      | x :: r => if r.length < 127 then s1 else (s1.setAsm h r).sendSlot x
      | [] => s1
    s2.setAsm h (s2.asm h ++ [put ⟨c, t, l, 0, 0⟩])

/-- Vectors that every bank of the job has latched (R272). -/
def Job.latched (j : Job) : Nat :=
  let ts := j.left.map (fun p => match p.2.head? with
    | some q => q.token
    | none => frNtok j.desc)
  ts.foldl min (frNtok j.desc)

/-- Write TAIL when it has grown (R272). -/
def State.writeTail (s : State) (c : Nat) : State :=
  match s.job c with
  | none => s
  | some j =>
    if !frStream j.desc || j.latched ≤ j.tailOut.toNat then s else
    let s1 := s.modJob c (fun j => { j with tailOut := BitVec.ofNat 64 j.latched })
    s1.cmdWrite c (frSrc j.desc) (maskOf 64 8) (BitVec.ofNat 1024 j.latched <<< 512) true

/-- A pass of bank b's head job runs on the latches that its input buffer fills: its sums leave through the output queue or for the
assembler, its record is kept, the buffer half of a token that is done is free, and the next latches fill (R253, R256, R281). -/
def State.firePass (s : State) (j : Job) (b : Nat) (p : Pass) (rest : List Pass) : State :=
  let c := j.ctx
  let act := s.latches j b p
  let sums := s.passSums act j p
  let n := match tget none s.kiln.progress b with
    | some r => if r.ctx = c then r.pass + 1 else 0
    | none => 0
  let s1 := (s.modCtx c (fun x => { x with begun := true })).modJob c (fun j => { j with left := tins j.left b rest })
  let s2 := { s1 with kiln := { s1.kiln with progress := tset none s1.kiln.progress b (some ⟨c, p.token, n, 255⟩) } }
  let s3 := sums.foldl (fun st q =>
    if frAccum j.desc then
      q.2.zipIdx.foldl (fun st v =>
        st.assemble (shelfHalf (b / 16)) c p.token (fireOut j.desc (Entry.outBase q.1) p.token v.2) v.1) st
    else match st.job c with
      | some j' => st.writeSums c j' b p.token q.1 q.2
      | none => st) s2
  let over' := (rest.head?).all (fun q => q.token != p.token)
  let next := match rest with
    | q :: _ => if s3.inputHere j b q.token then s3.latches j b q else []
    | [] => []
  let s4 := s3.modPeri b (fun x => { x with active := act, filling := next
                                            halves := if over' then x.halves.filter (fun h => !(h.ctx == c && h.token == p.token))
                                              else x.halves })
  let s5 := (s4.writeTail c).fireAsk c
  if rest.isEmpty then s5.leaveBank c b else s5

/-- The spare sequencer has taken over a half: it fetches the current inputs of its banks again (R281). -/
def State.refetch (s : State) (h : Half) : State :=
  let mine := fun (sh : Nat) => shelfHalf sh == h
  let job := fun (j : Job) => { j with asked := j.asked.filter (fun a => !mine a.1), need := j.need.filter (fun n => !mine n.1) }
  { s with kiln := { s.kiln with
      jobs := s.kiln.jobs.map job
      peri := s.kiln.peri.map (fun p => if mine (p.1 / 16) then (p.1, { p.2 with halves := [], filling := [] }) else p) } }

/-- A bank that is lost to a job, or a half without a sequencer: the job's passes there are dropped, and it will complete
with NO_SPARE (R283, R336). -/
def State.loseBank (s : State) (b : Nat) : State :=
  (s.bankQueue b).foldl (fun st c =>
    ((st.modCtx c (fun x => { x with stage := 256 + b })).modJob c (fun j => { j with left := tins j.left b [] })).leaveBank c b) s

end Sys2Proof.Machine
end

