-- ==== Sys2Proof/Machine/SpareOps.lean ====
section
/-! DEFINITION. Lasting faults: recovering what the failed unit held (R331), sparing (R335), what happens without a spare
(R336), the end of sparing work, and management-core failover (R338). -/
namespace Sys2Proof.Machine

/-! ### The spare pools (R17, R335) -/

/-- KIND of R340 for a unit that has a spare pool. -/
def swapKind : FaultUnit → Nat
  | .mat .. => 0
  | .bank _ => 1
  | .periphery _ => 1
  | .dirWay .. => 2
  | .tagRow .. => 3
  | .auuLane .. => 4
  | .farLane .. => 5
  | .mgmtCore => 6
  | .sequencer _ => 7
  | _ => 15

/-- Two places have one spare pool. -/
def samePool (u v : FaultUnit) : Bool :=
  match u, v with
  | .mat b _ _, .mat c _ _ => b == c
  | .tagRow b _, .tagRow c _ => b == c
  | .dirWay sh set _, .dirWay sh' set' _ => sh == sh' && set == set'
  | _, _ => (bankOf' u).isSome && (bankOf' u).map (· / 16) == (bankOf' v).map (· / 16)
where bankOf' : FaultUnit → Option Nat
  | .bank b => some b.val
  | .periphery b => some b.val
  | _ => none
/-- Key of the lanes' pools. -/
def laneKey (sh : Fin 16) (lane : Fin 64) : Nat := sh.val * 2 + lane.val / 32

/-- The free spares of a place's pool, the lowest first and the units returned to it last: mats, tag rows, ways and banks by their
numbers (R17, R335, R337). A spare bank has mats and tag rows, and pools, of its own (R12). -/
def State.freeSpares (s : State) (v : FaultUnit) : List Nat :=
  let f := s.flt
  let p := f.spares
  let free := fun (n k : Nat) (t : Table Nat) (base : Nat) (unit : Nat → FaultUnit) =>
    ((List.range k).map (n + ·)).filter (fun m =>
      !t.any (fun e => decide (base ≤ e.1) && decide (e.1 < base + n) && e.2 == m + 1)
      && !f.work.any (fun w => samePool w.unit v && w.spare == m) && !f.gone.contains (unit m))
  let bank := fun (b : Nat) => if tget 0 p.banks (b / 16) = 0 && !f.work.any (fun w => samePool w.unit v)
    && !f.gone.contains (.bank (Fin.ofNat _ (256 + b / 16))) then [256 + b / 16] else []
  let count := fun (n k : Nat) => (List.range n).drop k
  match v with
  | .mat b _ _ => free 2048 32 p.mats (matKey b.val) (fun m => .mat b (Fin.ofNat _ m) []) ++ f.back.filterMap (fun u => match u with
      | .mat c m _ => if c = b then some m.val else none
      | _ => none)
  | .tagRow b _ => free 2048 16 p.tagRows (rowKey b.val) (fun m => .tagRow b (Fin.ofNat _ m)) ++ f.back.filterMap (fun u => match u with
      | .tagRow c m => if c = b then some m.val else none
      | _ => none)
  | .dirWay sh set _ => free 16 2 p.dirWays (wayKey sh.val set.val) (fun m => .dirWay sh set (Fin.ofNat _ m))
      ++ f.back.filterMap (fun u => match u with
        | .dirWay sh' set' m => if sh' = sh ∧ set' = set then some m.val else none
        | _ => none)
  | .bank b => bank b.val
  | .periphery b => bank b.val
  | .auuLane sh l => count 2 (tget 0 p.lanes (laneKey sh l))
  | .farLane n _ => count 2 (tget 0 p.farLanes n.val)
  | .sequencer _ => count 1 p.seq
  | .mgmtCore => count 1 p.core
  | _ => []
/-- Lanes, sequencers and cores are taken by count. -/
def bump (p : Spares) (u : FaultUnit) : Spares :=
  match u with
  | .auuLane sh l => { p with lanes := tmod 0 p.lanes (laneKey sh l) (· + 1) }
  | .farLane n _ => { p with farLanes := tmod 0 p.farLanes n.val (· + 1) }
  | .sequencer _ => { p with seq := p.seq + 1 }
  | .mgmtCore => { p with core := p.core + 1 }
  | _ => p
/-- Unit number m of a place's pool. -/
def poolUnit (v : FaultUnit) (m : Nat) : FaultUnit :=
  match v with
  | .mat b _ _ => .mat b (Fin.ofNat _ m) []
  | .tagRow b _ => .tagRow b (Fin.ofNat _ m)
  | .dirWay sh set _ => .dirWay sh set (Fin.ofNat _ m)
  | _ => v

/-- A unit without the rows that a fault names. -/
def bare : FaultUnit → FaultUnit
  | .mat b m _ => .mat b m []
  | u => u
/-- A mat, tag row, directory way or bank goes out of service. All but banks are tested then, unless they have been returned before
(R337). -/
def State.underTest (s : State) (u : FaultUnit) : State :=
  let v := bare u
  let out := { s with flt := { s.flt with gone := s.flt.gone ++ [v] } }
  let mark := { out with flt := { out.flt with
    testing := s.flt.testing ++ (if s.flt.returned.contains v then [] else [⟨v, 0, false⟩]) } }
  match v with
  | .mat .. => mark
  | .tagRow .. => mark
  | .dirWay .. => mark
  | .bank _ => out
  | _ => s
/-- A pass over the slice has ended: units that passed 16 tests in a row join their spare pools (R337). -/
def State.testsDone (s : State) : State :=
  let ts := s.flt.testing.map (fun t => { t with passed := if t.bad then 0 else t.passed + 1, bad := false })
  let good := (ts.filter (fun t => 16 ≤ t.passed)).map Trial.unit
  { s with flt := { s.flt with testing := ts.filter (fun t => t.passed < 16), back := s.flt.back ++ good
                               returned := s.flt.returned ++ good, gone := s.flt.gone.filter (fun u => !good.contains u) } }

/-- Take the first free spare of a place's pool: counted, SPARES_LOW when no other is left (R343, R345). -/
def State.takeSpare (s : State) (v : FaultUnit) : Nat × State :=
  match s.freeSpares v with
  | [] => (0, s)
  | m :: rest =>
    let s1 := { s with flt := { s.flt with spares := bump s.flt.spares v, back := s.flt.back.filter (· != poolUnit v m) }
                       life := { s.life with spares := tmod 0 s.life.spares (swapKind v) (· + 1), changed := true } }
    (m, if rest.isEmpty then { s1 with flt := { s1.flt with sparesLow := true } }.event 0x0E08 srcSlice (unitWords (s.named v))
      else s1)

/-- The place that a fault spares: a mat or tag row without a spare spares its bank (R335, R336). -/
def State.sparable (s : State) (v : FaultUnit) : Option FaultUnit :=
  let free := fun (u : FaultUnit) => !(s.freeSpares u).isEmpty
  let bank := fun (p : Fin 272) => ((s.bankServed p.val).map (fun b => FaultUnit.bank (Fin.ofNat _ b))).filter free
  match v with
  | .mat p _ _ => if free v then some v else bank p
  | .tagRow p _ => if free v then some v else bank p
  | .mgmtCore => none
  | _ => if free v then some v else none

/-- Begin sparing work for a place; a command may wait for it (R335, R340). -/
def State.spareBegin (s : State) (v : FaultUnit) (ctx : Option Nat) : State :=
  let (m, s1) := (s.underTest (s.unitAt v)).takeSpare v
  { s1 with flt := { s1.flt with work := s1.flt.work ++ [⟨v, m, ctx⟩] } }

/-! ### Without a spare (R336) -/

/-- The primary of a second copy that is gone gets another, or is written through (R333, R334). -/
def State.copyAgain (s : State) (l : LineIx) : State :=
  match s.liveSlot l with
  | some y => if (s.tag y).sd = 0 then s else (s.afterDirty y l 0 (s.slotData y) srcWriteback .nobody).2
  | none => s

/-- A bank is retired and keeps its mode. A cache bank's lines are cleaned; second copies that it held are made again elsewhere. -/
def State.retireBank (s : State) (b : Nat) : State :=
  let sh := b / 16
  let s1 := { s with flt := { s.flt with retired := s.flt.retired ++ [FaultUnit.bank (Fin.ofNat _ b)] } }
  let s2 := if s.cfg.mode b = modeCache then
      let xs := (s1.arr.tags.filter (fun p => decide (b * 65536 ≤ p.1) && decide (p.1 < (b + 1) * 65536))).map
        (fun p => (⟨b, p.1 / 32 % 2048, p.1 % 32⟩ : Slot))
      let copies := (xs.filter (fun x => (s1.tag x).dup)).map (fun x => slotLine x (s1.tag x))
      let st := xs.foldl (fun st x => if (st.tag x).dup then st.setTag x Tag.empty else st.evict x) s1
      copies.foldl State.copyAgain (st.modShelf sh (fun h => { h with retired := setBit h.retired (b % 16) true }))
    else if s.cfg.mode b = modeKiln then
      (s1.cfg.places.filter (fun p => !Entry.empty p.2 && Entry.bank p.2 == b)).foldl
        (fun st p => st.modEntry p.1 (fun e => { e with st := .lost })) (s1.loseBank b)
    else s1
  s2.modShelf sh (fun h => { h with retired := setBit h.retired (b % 16) true
                                    bankEn := if s.cfg.mode b = modeCache then setBit h.bankEn (b % 16) false else h.bankEn })

/-- Working lanes of a far port change (R336, R444): it runs on 16 or on 8 lanes, or it is down. -/
def State.farLanes (s : State) (n : Nat) (ls : List Nat) : State :=
  let act := if 16 ≤ ls.length then ls.take 16 else if 8 ≤ ls.length then ls.take 8 else []
  let s1 := s.modFar n (fun l => { l with active := act, up := !act.isEmpty, lanes := ls.foldl (fun v i => setBit v i true) 0 })
  (s1.mirrorPorts (setBit s1.pair.ports n (!act.isEmpty && bit s1.cfg.mirrorPorts n))).mirrorFlush

/-- The unit at a place is retired (R336). -/
def State.retire (s : State) (u : FaultUnit) : State :=
  let bank := fun (p : Fin 272) =>
    let st := s.underTest (s.unitAt u)
    match s.bankServed p.val with
    | some b => st.retireBank b
    | none => st.underTest (.bank p)
  match u with
  | .mat p _ _ => bank p
  | .tagRow p _ => bank p
  | .bank b => s.retireBank b.val
  | .periphery b => s.retireBank b.val
  | .dirWay sh set w =>
    let s0 := s.underTest (s.unitAt u)
    let s1 := { s0 with dir := { s0.dir with retired := tset false s0.dir.retired (dirKey sh.val set.val w.val) true }
                        flt := { s0.flt with retired := s0.flt.retired ++ [u] } }
    let left := ((List.range 16).filter (fun i => !tget false s1.dir.retired (dirKey sh.val set.val i))).length
    if left < 8 then s1.event 0x0E06 srcSlice (unitWords u) else s1
  | .auuLane sh l => s.modShelf sh.val (fun h => { h with auuGroups := setBit h.auuGroups (l.val / 32) false })
  | .farLane n l => s.farLanes n.val (((onesOf (s.far n.val).lanes).filter (· != l.val)))
  | .sequencer h =>
    let bs := (s.kiln.queues.filter (fun p => shelfHalf (p.1 / 16) == h)).map Prod.fst
    bs.foldl (fun st b => st.loseBank b) { s with kiln := { s.kiln with deadSeqs := s.kiln.deadSeqs ++ [h] } }
  | .agentPort _ => { s with flt := { s.flt with portsDown := s.flt.portsDown ++ [u] } }
  | .nearPort _ => { s with flt := { s.flt with portsDown := s.flt.portsDown ++ [u] } }
  | .mgmtCore => { s with flt := { s.flt with serving := false } }
  | .lifeRecord => s
  | _ => { s with flt := { s.flt with retired := s.flt.retired ++ [u] } }

/-- Spare a place, or act without a spare: the flags of its log entry. NO_SPARE is raised when no spare of the right kind remains, also
where a mat or tag row has its bank spared (R335, R336). -/
def State.spareOr (s : State) (v : FaultUnit) : Nat × State :=
  let none' := fun (st : State) => st.event 0x0E05 srcSlice (unitWords (s.named v))
  match s.sparable v with
  | some u =>
    let s1 := match v with
      | .sequencer h => { s with kiln := { s.kiln with deadSeqs := s.kiln.deadSeqs ++ [h] } }
      | _ => s
    if u = v then (flSpared, s1.spareBegin u none) else (flSpared + flNoSpare, none' (s1.spareBegin u none))
  | none => (flNoSpare, none' (s.retire v))

/-! ### Recovery (R331) -/

/-- What a fault cost and where: OUTCOME, PCLASS, address, whether a quench recovers it. -/
structure Cost where
  outcome : Nat
  pclass : Nat
  addr : Nat
  quench : Bool
  deriving DecidableEq, Repr, Inhabited
def noData : Cost := ⟨outSpared, 0xFF, 0, false⟩

/-- A request of the recovery goes to the front of the home's queue. -/
def State.recoverReq (s : State) (op : ReqOp) (l : LineIx) (cone : BitVec 3) : State :=
  { s with home := { s.home with cq := mkReq op .recover l cone :: s.home.cq } }

/-- A sharer of the line can give it: exact, near enough, and not being invalidated by the line's open transaction (R331). -/
def State.sharerGives (s : State) (l : LineIx) : Bool :=
  let e := s.entryOf l
  e.hstate == HState.ds && !e.coarse && !(s.txnOf l).any (fun t => !t.invTo.isEmpty)
    && e.sharers.any (fun a => s.cfg.hop (s.agent a).loc 0 != 0xF)
/-- The line's data is to come from an agent: until it is here nothing uses the slot's (R331). -/
def State.seek (s : State) (op : ReqOp) (l : LineIx) (cone : BitVec 3) : State :=
  ({ s with flt := { s.flt with lost := s.flt.lost ++ [l] } }).recoverReq op l cone
/-- The word of a cache bank in a set, frame and sector: the line that used it loses its copy (R331). A line whose newest value the
AUU's line buffer holds loses nothing. -/
def State.loseWord (s : State) (bank set frame sector : Nat) : Cost × State :=
  let hit := (s.liveOf bank set).find? (fun p => p.2.frame.toNat == frame && decide (p.2.fstart.toNat ≤ sector)
    && decide (sector ≤ p.2.fstart.toNat + p.2.csize.toNat))
  match hit with
  | none => (noData, s)
  | some (x, t) =>
    let l := slotLine x t
    let a := lineAddr l
    let pc := s.pclass l
    if t.dup then (⟨outCopy, pc, a, false⟩, (s.setTag x Tag.empty).copyAgain l)
    else if t.sd = 0 then (⟨outRefetched, pc, a, false⟩, s.setTag x Tag.empty)
    else if (s.bufferAt (bank / 16) l).isSome then (⟨outRepeated, pc, a, false⟩, s)
    else if (s.entryOf l).ownerId.isSome then (⟨outOther, pc, a, false⟩, s.seek .callIn l t.cone)
    else if s.sharerGives l then (⟨outOther, pc, a, false⟩, s.seek .rdNC l t.cone)
    else
      let (o, s1) := s.recoverClass l
      (⟨o, pc, a, o == outQuenched⟩, s1)

/-- The word of a saggar line (R331, R332). -/
def State.loseSaggar (s : State) (bank set frame : Nat) : Cost × State :=
  let ix := bank * 32768 + set * 16 + frame
  let a := s.window + ix * 128
  let pc := match s.regionAt a with
    | some (_, r) => Region.pclass r
    | none => 0
  if pc = pcM && s.twinThere then (⟨outTwin, pc, a, false⟩, s)
  else (⟨outPoisoned, pc, a, false⟩, (s.setPoison ix true).event 0x0E03 srcSlice (addrWords a ++ [pc]))

/-- What a lasting fault of mat m costs in one of its rows (R332, R333). -/
def State.loseRow (s : State) (b m r : Nat) : Cost × State :=
  let set := 8 * r + m / 256
  let frame := m / 16 % 16
  if s.cfg.mode b = modeCache then s.loseWord b set frame (m % 16 / 4)
  else if s.cfg.mode b = modeSaggar then s.loseSaggar b set frame
  else (⟨outReloaded, 0, s.window + b * 4194304 + set * 2048 + frame * 128, false⟩, s)
/-- The failing rows of a mat, the first one's cost logged (R14, R331, R342). -/
def State.loseMat (s : State) (b m : Nat) (rows : List Nat) : Cost × State :=
  rows.foldl (fun acc r =>
    let (c, st) := acc.2.loseRow b m r
    (if acc.1 = noData then c else { acc.1 with quench := acc.1.quench || c.quench }, st)) (noData, s)

/-- The first cost that is one. -/
def Cost.firstOf (a b : Cost) : Cost := if a = noData then b else a
/-- A tag row of a cache bank quenches. In a saggar bank its POISON bits are lost: a line that may have been poisoned has no data to
answer with, and counts as lost (R6, R331; log 72). -/
def State.loseTags (s : State) (b set : Nat) : Cost × State :=
  if s.cfg.mode b = modeCache then (⟨outQuenched, 0xFF, 0, true⟩, s.trigger 4)
  else if s.cfg.mode b = modeSaggar then
    (List.range 16).foldl (fun acc f =>
      let p := acc.2.loseSaggar b set f
      (acc.1.firstOf p.1, p.2)) (noData, s)
  else (noData, s)

/-! ### Management-core failover (R338) -/

/-- Abandon an open glaze point before its commit (R63): its holds end, its drain ends, its ticket takes a status. -/
def State.glazeDrop (s : State) (st : BitVec 8) (detail : BitVec 64) : State :=
  let c := s.glaze.ctx
  let open' := s.glaze.step == .reading || s.glaze.step == .draining
  if !open' then s else
  let slots := s.ranges.slots.filter (fun p => match p.2 with
    | some a => !a.drain
    | none => true)
  ({ s with glaze := Glaze.closed
            ranges := { s.ranges with slots := slots, waiting := s.ranges.waiting.filter (fun a => !a.drain) } }.endCtx c st
    detail).releaseHeld

/-- No standby core can take over: it has taken over before, or it is being rebooted (R338, R400). -/
def State.alone (s : State) : Bool := s.flt.noStandby || (s.fw.noStandby && s.fw.step != 2)

/-- An FW_ACTIVATE that has reached check 3 ends with QUENCHED: the firmware history records it (R399). -/
def State.activateLost (s : State) : State :=
  if s.fw.verifying || (s.fw.step != 0 && s.fw.step != 6) then s.fwHistory stQuenched else s

/-- Firmware commands that have ended lose their turn (R393). -/
def Firmware.keepTurns (f : Firmware) (s : State) : Firmware :=
  let on := fun (c : Nat) => (s.ctx c).phase != Phase.done && (s.ctx c).phase != Phase.recording && (s.ctx c).phase != Phase.free
  { f with queue := f.queue.filter on, verifying := false, ctx := f.ctx.filter on }

/-- Commands of an opcode that run are halted (R338). -/
def State.haltOps (s : State) (ops : List Nat) : State :=
  (s.cmds.ctxs.filter (fun p => ops.contains (dOp p.2.desc) && (p.2.phase == Phase.acting || p.2.phase == Phase.gathering))).foldl
    (fun st p => st.endCtx p.1 stQuenched (BitVec.ofNat 64 p.2.progress)) s

/-- The standby core takes over (R338, R339): 1 fault, 2 heartbeat, 3 SPARE_SWAP. Sparing work goes on without its command (R347). -/
def State.failover (s : State) (cause : Nat) : State :=
  let s1 := s.glazeDrop stQuenched 0
  let s2 := s1.haltOps (if s1.fw.pauses then [opSpareSwap, opLease] else [opFwBlock, opFwActivate, opSpareSwap, opLease])
  let s3 := if s2.fw.pauses then s2 else
    let h := s2.activateLost
    { h with fw := { h.fw.keepTurns h with step := if h.fw.trail = 0 then 0 else 6, nextImage := [] } }
  let s4 := if s3.syb.state = .loading then { s3 with syb := { s3.syb with state := .error, err := 0x41 } } else s3
  let work := s4.flt.work.map (fun w => { w with ctx := w.ctx.map (fun _ => 256) })
  ((({ s4 with flt := { s4.flt with noStandby := true, work := work }, fw := { s4.fw with noStandby := true } }).takeSpare .mgmtCore).2.event
    0x0E09 srcSlice [cause])

/-! ### A lasting fault (R329) -/

/-- What the fault of a unit at its place costs, and the state after what it does at once (R331, R338). Whether a quench follows is the
cost's. -/
def State.costOf (s : State) (v : FaultUnit) : Cost × State :=
  let kiln := fun (b : Nat) => (if s.cfg.mode b = modeKiln then { noData with outcome := outReloaded } else noData, s)
  let repeated := ({ noData with outcome := outRepeated }, s)
  match v with
  | .mat p m rows => (match s.bankServed p.val with
    | some b => s.loseMat b m.val (rows.map Fin.val)
    | none => (noData, s))
  | .tagRow p set => (match s.bankServed p.val with
    | some b => s.loseTags b set.val
    | none => (noData, s))
  | .dirWay _ _ _ => (⟨outQuenched, 0xFF, 0, true⟩, s.trigger 4)
  | .bank b => kiln b.val
  | .periphery b => kiln b.val
  | .auuLane _ _ => repeated
  | .seamLane _ => repeated
  | .crossbarPort _ => repeated
  | .pairLink _ => repeated
  | .backingPort n =>
    let again := s.flt.portsDown.contains v
    if again && s.quenching then ({ noData with outcome := outQuenched }, s) else
    let s1 := { s with flt := { s.flt with portsDown := s.flt.portsDown ++ [FaultUnit.backingPort n] } }
    if again then (noData, s1.event 0x0E07 srcSlice (unitWords v)) else (⟨outQuenched, 0xFF, 0, true⟩, s1.trigger 5)
  | .mgmtCore => ({ noData with outcome := outFailover }, if s.alone then s else s.failover 1)
  | _ => (noData, s)

/-- A word of one copy of the management state store is spared while the other copy serves; where the other copy's word at the same
place is failing too, the core counts as lost with no standby (R336, R339). -/
def State.storeFault (s : State) (k : Fin 2) (word : Fin 524288) : Nat × State :=
  if s.flt.work.any (fun w => match w.unit with
      | .storeWord j v => j != k && v == word
      | _ => false)
  then (flNoSpare, (s.retire .mgmtCore).event 0x0E05 srcSlice (unitWords .mgmtCore))
  else (flSpared, { s with flt := { s.flt with work := s.flt.work ++ [⟨.storeWord k word, 0, none⟩] } })

/-- A quench that is to come spares the place at its step 6 (R363). -/
def State.waitsStep6 (s : State) : Bool := s.quenching && (s.ep.step < 6 || !s.ep.later.isEmpty)
/-- The place is spared, or acted on without a spare: the flags of the log entry. What a quench recovers is spared at its step 6, with
the spare that is free then (R336, R342, R363). -/
def State.takeOut (s : State) (v : FaultUnit) (quench : Bool) : Nat × State :=
  match v with
  | .backingPort _ => (flNoSpare, s.event 0x0E05 srcSlice (unitWords v))
  | .mgmtCore => if s.alone then (flNoSpare, (s.retire v).event 0x0E05 srcSlice (unitWords v)) else (flSpared, s)
  | .storeWord k w => s.storeFault k w
  | .lifeRecord => (0, s)
  | _ =>
    if quench && s.waitsStep6 then
      let then' := s.ep.spareAt6.foldl (fun st u => (st.spareOr u).2) s
      ((then'.spareOr v).1, { s with ep := { s.ep with spareAt6 := s.ep.spareAt6 ++ [v] } })
    else s.spareOr v

/-- The unit is taken out of service, its data recovered, the fault logged (R329, R331, R335, R336, R342). A unit that serves no place
goes without a spare. -/
def State.lastingFault (s : State) (u : FaultUnit) : State :=
  let s0 := { s with life := { s.life with lasting := tmod 0 s.life.lasting (kindOf u) (· + 1), changed := true } }
  let log := fun (st : State) (c : Cost) (out fl : Nat) (v : FaultUnit) =>
    let st1 := st.logFault (kindOf u) c.pclass out (fl + (if c.quench then flQuench else 0)) (unitOf v) c.addr
    st1.event 0x0E02 srcSlice [st1.flt.logSeq.toNat]
  match s0.placeOf u with
  | none => log (if s0.flt.gone.contains (bare u) then s0 else s0.underTest u) noData outRetired 0 u
  | some v =>
    let alone := v == FaultUnit.mgmtCore && s0.alone
    let (c, s1) := s0.costOf v
    let (fl, s2) := if v == FaultUnit.mgmtCore && !alone then (flSpared, s1) else s1.takeOut v c.quench
    log s2 c (if fl = flNoSpare && (c.outcome = outSpared || alone) then outRetired else c.outcome) fl (s0.named v)

/-- Every slot of a lost tag row's set is invalid: E lines of the open epoch return by rollback, P and M lines from their
copies, prior-epoch lines by their writeback; dirty lines of class none are lost, and those of class M whose twin cannot be
reached with them. Second copies of other lines are made again (R331). -/
def State.clearTagSet (s : State) (b set : Nat) : State :=
  let ls := s.liveOf b set
  let kept := fun (x : Slot) (l : LineIx) => s.pclass l == pcP || (s.pclass l == pcM && s.twinThere) || s.priorEpoch x
  let lost := ls.any (fun p => let l := slotLine p.1 p.2
    p.2.sd != 0 && !p.2.dup && !kept p.1 l && s.pclass l != pcE)
  let s1 := ls.foldl (fun st p => if !p.2.dup && kept p.1 (slotLine p.1 p.2) then st.evict p.1 else st.setTag p.1 Tag.empty) s
  let s2 := (slotsOf b set).foldl (fun st x => st.setTag x Tag.empty) s1
  let s3 := (ls.filter (fun p => p.2.dup)).foldl (fun st p => st.copyAgain (slotLine p.1 p.2)) s2
  if lost then s3.event 0x0E04 srcSlice [b, set] else s3

/-- Step 6 of a quench spares the units whose faults triggered it (R363). -/
def State.spareDue (s : State) : State :=
  s.ep.spareAt6.foldl (fun st u =>
    let st1 := match u with
      | .tagRow p set => (match st.bankServed p.val with
        | some b => st.clearTagSet b set.val
        | none => st)
      | _ => st
    (st1.spareOr u).2) { s with ep := { s.ep with spareAt6 := [] } }

/-! ### Sparing work ends (R335) -/

/-- The spare is in service at the place (R18). -/
def State.install (s : State) (w : SpareWork) : State :=
  let p := s.flt.spares
  let put := fun (q : Spares) => { s with flt := { s.flt with spares := q } }
  match w.unit with
  | .mat b q _ => put { p with mats := tset 0 p.mats (matKey b.val + q.val) (w.spare + 1) }
  | .tagRow b q => put { p with tagRows := tset 0 p.tagRows (rowKey b.val + q.val) (w.spare + 1) }
  | .dirWay sh set q => put { p with dirWays := tset 0 p.dirWays (wayKey sh.val set.val + q.val) (w.spare + 1) }
  | .bank b => put { p with banks := tset 0 p.banks (b.val / 16) (b.val + 1) }
  | .periphery b => put { p with banks := tset 0 p.banks (b.val / 16) (b.val + 1) }
  | _ => s
/-- The spare sequencer serves a half, enabled and locked (R36, R281). -/
def State.seqServes (s : State) (h : Half) : State :=
  let s0 := s.refetch h
  let kiln := { s0.kiln with spareServes := some h, deadSeqs := s.kiln.deadSeqs.filter (· != h) }
  let ckp := { s0.ckp with clken1 := s.ckp.clken1 ||| 0x40#22, lock1 := s.ckp.lock1 ||| 0x40#22 }
  { s0 with kiln := kiln, ckp := ckp }.event 0x0B04 (srcHalf h) [halfIx h]
/-- A far port's spare lane runs in place of one of its lanes (R328, R335). -/
def State.laneServes (s : State) (n : Nat) (l : Nat) : State :=
  let fl := s.far n
  let spare := (onesOf fl.lanes).find? (fun i => !fl.active.contains i && i != l)
  (s.modFar n (fun k => { k with active := sortBy id (k.active.filter (· != l) ++ spare.toList)
                                 lanes := setBit k.lanes l false })).farPump n
/-- What the spare of a place does as it comes into service: kiln content that the work was for is reloaded, an AUU lane is seeded
(R227, R284, R335). -/
def State.fitted (s : State) (w : SpareWork) : State :=
  let bankIn := fun (b : Nat) (mat : Option (Nat × Nat)) =>
    if w.ctx.isNone && s.cfg.mode b == modeKiln then s.reloadBank b mat else s
  match w.unit with
  | .mat p m _ => (match s.bankServed p.val with
    | some b => bankIn b (some (m.val / 256, m.val % 256))
    | none => s)
  | .bank b => bankIn b.val none
  | .periphery b => bankIn b.val none
  | .auuLane sh l => s.modShelf sh.val (fun h => { h with lanes := h.lanes.set l.val (laneSeed h.auuSeed l.val) })
  | .sequencer h => s.seqServes h
  | .farLane n l => s.laneServes n.val l.val
  | _ => s
/-- The oldest work ends: the spare takes the unit's place, and a command that waited for it is done. -/
def State.spareEnd (s : State) : State :=
  match s.flt.work with
  | [] => s
  | w :: rest =>
    let s2 := ({ s with flt := { s.flt with work := rest } }.install w).fitted w
    let s3 := match w.ctx with
      | some c => if (s2.ctx c).phase = Phase.acting then s2.endCtx c stOk 0 else s2
      | none => s2
    s3.releaseHeld

end Sys2Proof.Machine
end

