-- ==== Sys2Proof/Machine/QuenchOps.lean ====
section
/-! DEFINITION. The steps of a cut (R352 to R354) and of a quench (R363 to R369): what each does when it begins, and when it is
finished. -/
namespace Sys2Proof.Machine

/-! ### The cut (R352) -/

/-- An E-class line. -/
def State.isE (s : State) (l : LineIx) : Bool := s.pclass l == pcE

/-- Step 1 begins: new E-class requests are held, and the closes that asked have begun. -/
def State.cutBegin (s : State) : State :=
  let s1 := { s with ep := { s.ep with cutStep := 1, cutDone := false, askForced := false }
                     out := { s.out with epochReq := false, qstepDone := false } }
  let s2 := s1.ep.cutBy.foldl (fun st c => st.modCtx c (fun x => { x with begun := true })) s1
  if (List.range 8).any (fun n => decide (0 < s2.capacity) && decide (s2.capacity ≤ tget 0 s2.ep.fill n)) then s2.trigger 6 else s2

/-- Recall every owner of an E-class line (step 3). -/
def State.cutRecall (s : State) : State :=
  s.dir.ways.foldl (fun st p =>
    let sh := p.1 / 262144
    let l : LineIx := BitVec.ofNat 45 (lineOfDir p.2.dtag.toNat (p.1 / 16 % 16384))
    if p.2.ownerId.isSome && st.isE l && st.homeShelf l == sh then st.placeOwn (mkReq .callIn .cut l (st.slotCone l))
    else st) s

/-- A backing request that the flip leaves: the log's own that are not sent go, and a write that waited on the log is a plain one
(R351, R358). -/
def BReq.flipped (r : BReq) : Option BReq :=
  if r.sent then some r else match r.why with
    | .undoOld _ => none
    | .undoLog _ => none
    | .undoNew w src => some { r with why := .data w src }
    | _ => some r

/-- The flip (step 5, R349, R350): the bit, the number, empty stripes; waiting writes become unlogged (R351, R358). -/
def State.cutFlip (s : State) : State :=
  let n : Word := if s.ep.num = 0xFFFFFFFF then 1 else s.ep.num + 1
  let jobs := s.back.jobs
  let s1 := { s with ep := { s.ep with cur := !s.ep.cur, num := n, fill := [] }
                     back := { s.back with jobs := [], headers := [], reqs := s.back.reqs.filterMap BReq.flipped } }
  let s2 := jobs.foldl (fun st j =>
    st.backReq (st.backPort j.line) true j.line.toNat j.mask j.data j.cone (.data j.w j.src)) s1
  s2.ep.cutBy.foldl (fun st c => st.modCtx c (fun x => { x with stage := 1 })) s2

/-- Slots that hold prior-epoch data. -/
def State.priorSlots (s : State) : List Slot :=
  (s.arr.tags.map (fun p => (⟨p.1 / 65536, p.1 / 32 % 2048, p.1 % 32⟩ : Slot))).filter s.priorEpoch
/-- The sweep writes back prior-epoch lines where no range activity has an operation pending at the bank, or a lock on the line
(R125, R353). -/
def State.sweepLines (s : State) : State :=
  s.priorSlots.foldl (fun st x => if st.rangePending x.bank || s.flt.lost.contains (slotLine x (s.tag x)) then st else st.cleanSlot x srcWriteback .sweep) s
def State.sweepBusy (s : State) : Bool :=
  s.back.reqs.any (fun r => match r.why with
    | .data .sweep _ => true
    | _ => false)

/-- Step n of a cut begins. -/
def State.cutEnter (s : State) (n : Nat) : State :=
  let s1 := { s with ep := { s.ep with cutStep := n, cutDone := false }, out := { s.out with qstepDone := false } }
  if n = 3 then s1.cutRecall
  else if n = 5 then s1.cutFlip
  else if n = 6 then ({ s1 with ep := { s1.ep with sweep := true } }).sweepLines
  else s1

/-- The step of the cut is finished (R352). -/
def State.cutFinished (s : State) : Bool :=
  let open' := fun (p : Req → Bool) => s.home.txns.any (fun t => p t.req)
  let agentE := fun (r : Req) => s.isE r.line && !r.who.isMirror
  if s.ep.cutStep = 2 then !(open' agentE || s.home.txns.any (fun t => t.victimFor.any agentE))
  else if s.ep.cutStep = 3 then !(open' (fun r => r.who == .cut) || (s.home.cq ++ s.home.vc ++ s.home.held).any (fun r => r.who == .cut))
  else if s.ep.cutStep = 4 then !s.ep.sweep
  else true

/-- Step 6 has run: EPOCH_CLOSE completes, and a close that was asked for meanwhile, by a command or by a full stripe, starts (R352,
R354, R358). -/
def State.cutClose (s : State) : State :=
  let s1 := s.ep.cutBy.foldl (fun st c => st.endCtx c stOk (st.ep.num.zeroExtend 64)) s
  let more := !s.ep.nextBy.isEmpty || s.ep.askForced
  { s1 with ep := { s1.ep with cutStep := 0, cutDone := false, cutBy := s1.ep.nextBy, nextBy := [] }
            out := { s1.out with epochReq := more || s1.out.epochReq } }

/-! ### Quench steps 2 to 4 (R363) -/

/-- Step 2: CRACK for every greenware answer not fired. -/
def State.crackAll (s : State) : State :=
  s.home.txns.foldl (fun st t =>
    if t.green = Green.sent then
      let sh := st.homeShelf t.req.line
      let s1 := (st.modShelf sh (fun h => { h with crackCnt := satAdd h.crackCnt 1 })).respond sh t.req mCrack (fun m => m)
      (s1.count 0x0F (st.reqAttr t.req sh none) 1).modTxn t.req.line (fun t => { t with green := .cracked, work := .none })
    else st) s

/-- What step 3 does with a request (R363, R366, R369): twin writes go on, the front end's own accesses are made again after
the restart, everything else is abandoned. -/
inductive Fate where
  | keep | again | drop
  deriving DecidableEq, Repr, Inhabited
def Who.fate : Who → Fate
  | .mirror _ _ _ => .keep
  | .mfwd _ _ => .keep
  | .desc _ => .again
  | .ctl _ => .again
  | .enable _ _ => .again
  | .post => .again
  | .record _ _ => .again
  | .ctlOut _ => .again
  | .result _ => .again
  | .resync => .again
  | .reload _ => .again
  | _ => .drop

/-- The result of a batch's entry that was performed is written even though the batch ends with the restart (R241). -/
def Req.afterHalt (r : Req) : Req :=
  match r.who with
  | .result _ => { r with who := .post }
  | _ => r

/-- A remote agent lies outside the domain (R348). -/
def State.outsider (s : State) (r : Req) : Bool :=
  match r.agentId with
  | some id => (s.agent id).remote
  | none => false

/-- Step 3: queues emptied, transactions abandoned with their reads of backing, the directory freed (R167, R363). -/
def State.invalidateAll (s : State) : State :=
  let kept := s.home.txns.filter (fun t => t.req.who.fate == .keep || t.mack.isSome)
  let gone := s.home.txns.filter (fun t => !(t.req.who.fate == .keep || t.mack.isSome))
  let back := ((gone.map Txn.req ++ s.home.cq ++ s.home.vc).filter (fun r => r.who.fate == .again)).map Req.afterHalt
  let denied := (s.home.vc ++ s.home.held).filter (fun r => r.agentId.isSome && !s.outsider r)
  let clear := fun (t : Txn) => { t with tstate := t.tstate &&& fB, invLeft := 0, invTo := [], invDone := [], coarse := false, fwd := none,
                                         recallTo := none, plan := Plan.same, deferred := none, victimFor := none }
  let home : Home :=
    { cq := s.home.cq.filter (fun r => r.who.fate == .keep)
      vc := s.home.vc.filter (fun r => r.who.fate == .keep || s.outsider r)
      held := (s.home.held.filter (fun r => r.who.fate == .keep || r.who.fate == .again || s.outsider r)).map Req.afterHalt ++ back
      bridge := s.home.bridge
      txns := kept.map clear }
  let stays := fun (l : LineIx) => kept.any (fun t => t.req.line == l)
  let reqs := s.back.reqs.filterMap (fun r => match r.why with
    | .miss _ => if stays (BitVec.ofNat 45 r.addr) then some r else if r.sent then some { r with why := .abandoned } else none
    | _ => some r)
  let orphan := fun (w : Nat × MWait) => match w.2 with
    | .forward r => (w.1, MWait.forward { r with who := if r.who.fate == .drop && r.agentId.isNone then .post else r.who })
    | .saggar r v => (w.1, MWait.saggar { r with who := if r.who.fate == .drop && r.agentId.isNone then .post else r.who } v)
    | _ => w
  let kiln := { s.kiln with
    peerOut := s.kiln.peerOut.map (fun p => if p.2.who.fate = .drop then (p.1, { p.2 with who := .post }) else p)
    peerWait := s.kiln.peerWait.filter (fun p => p.2.who.fate != .drop) }
  let s1 : State := { s with
    home := home, dir := { s.dir with ways := [], trees := [] }, kiln := kiln
    back := { s.back with reqs := reqs, miss := s.back.miss.filter (fun m => stays m.line)
                          missWait := s.back.missWait.filter (fun m => stays m.line) }
    pair := { s.pair with waits := s.pair.waits.map orphan, walking := 0 } }
  let s2 : State := denied.foldl (fun st r => st.poisonAgent (st.bankOf r.line / 16) r) s1
  let s3 := s2.flt.lost.foldl State.resolveLost s2
  kept.foldl (fun st t => st.advance t.req.line) s3

/-- A write to backing that step 4 discards: current-epoch data not yet sent (R358, R363). -/
def BReq.discarded (r : BReq) : Bool :=
  !r.sent && match r.why with
    | .undoOld _ => true
    | .undoNew _ _ => true
    | _ => false

/-- Step 4: E-class slots become invalid but for prior-epoch dirty lines; E-class line buffers are dropped. -/
def State.discardE (s : State) : State :=
  let slotOf := fun (k : Nat) => (⟨k / 65536, k / 32 % 2048, k % 32⟩ : Slot)
  let keep := fun (p : Nat × Tag) => !s.isE (slotLine (slotOf p.1) p.2) || s.priorEpoch (slotOf p.1)
  let drop := fun (h : Shelf) => { h with lineBufs := h.lineBufs.filter (fun b => !s.isE b.line) }
  let s1 := { s with arr := { s.arr with tags := s.arr.tags.filter keep }
                     back := { s.back with jobs := [], reqs := s.back.reqs.filter (fun r => !r.discarded) } }
  (s.shelves.map Prod.fst).foldl (fun st i => st.modShelf i drop) s1

/-! ### Replay (step 5, R363, R364) -/

/-- Line of a stripe, in lines of backing, for entry j's header and data (R356). -/
def State.headerLine (s : State) (n j : Nat) : Nat := stripeLine s.cfg n + 5 * (j / 4)
def State.entryLine (s : State) (n j : Nat) : Nat := s.headerLine n j + 1 + j % 4

def State.replay (s : State) (n : Nat) : Option Replay := s.ep.replays.find? (fun r => r.stripe == n)
def State.modReplay (s : State) (n : Nat) (f : Replay → Replay) : State :=
  { s with ep := { s.ep with replays := modFirst (fun r => r.stripe == n) f s.ep.replays } }

/-- Read what the newest entry left needs: its group's header line, then its data line. A stripe with nothing left and no
write under way is empty. -/
def State.replayNext (s : State) (n : Nat) : State :=
  match s.replay n with
  | none => s
  | some r =>
    if r.left = 0 then
      if r.writing = 0 then
        { s with ep := { s.ep with replays := s.ep.replays.filter (fun x => x.stripe != n), fill := tset 0 s.ep.fill n 0 }
                 back := { s.back with headers := tset 0 s.back.headers n 0 } }
      else s
    else if r.hdr.isNone then s.backReq n false (s.headerLine n (r.left - 1)) fullMask 0 0 (.replayHdr n)
    else s.backReq n false (s.entryLine n (r.left - 1)) fullMask 0 0 (.replayData n)

/-- Replay of stripe n starts, from the newest entry. -/
def State.replayStart (s : State) (n : Nat) : State :=
  let k := tget 0 s.ep.fill n
  if k = 0 then s
  else ({ s with ep := { s.ep with replays := s.ep.replays ++ [(⟨n, k, none, 0⟩ : Replay)] } }).replayNext n

/-- The rollback is incomplete at a group of a stripe (R364). -/
def State.replayBad (s : State) (n j : Nat) : State :=
  ({ s with ep := { s.ep with incomplete := true } }).event 0x0F01 srcSlice [n, j / 4]

/-- A header line has been read; an uncorrectable one loses its group's entries. -/
def State.replayHeader (s : State) (n : Nat) (l : Line) (ue : Bool) : State :=
  match s.replay n with
  | none => s
  | some r =>
    if ue then ((s.replayBad n (r.left - 1)).modReplay n (fun r => { r with left := (r.left - 1) / 4 * 4 })).replayNext n
    else (s.modReplay n (fun r => { r with hdr := some l })).replayNext n

/-- An entry's data line has been read: its SMASK sectors go back to ADDR when the CRC holds. -/
def State.replayEntry (s : State) (n : Nat) (l : Line) (ue : Bool) : State :=
  match s.replay n with
  | none => s
  | some r =>
    let j := r.left - 1
    let h := slice (lineBytes (r.hdr.getD 0)) (32 * (j % 4)) 32
    let good := !ue && (crc32 (h.take 28 ++ lineBytes l)).toNat == leAt h 28 4
    let next := fun (w : Nat) (st : State) =>
      (st.modReplay n (fun r => { r with left := j, hdr := if j % 4 = 0 then none else r.hdr, writing := r.writing + w })).replayNext n
    if good then
      let m := sectorMask (BitVec.ofNat 4 (leAt h 16 1))
      next 1 (s.backReq n true (leAt h 0 8 / 128) m l 0 (.replayWrite n))
    else next 0 (s.replayBad n j)

/-- A replayed write is answered; after the last one the stripe is empty. -/
def State.replayAck (s : State) (n : Nat) : State :=
  let s1 := s.modReplay n (fun r => { r with writing := r.writing - 1 })
  if (s1.replay n).any (fun r => r.left == 0) then s1.replayNext n else s1

/-! ### Steps 6 and 7 (R363, R366) -/

/-- Step 6: dead agents are removed, a leave ends (R153), the units that triggered are spared. -/
def State.repair (s : State) : State :=
  let n := s.ep.dead.length
  let first := match minBy BitVec.toNat s.ep.dead with
    | some a => a
    | none => 0
  let s1 := s.ep.dead.foldl (fun st a => st.setAgent a Agent.absent) s
  let s2 := { s1 with ep := { s1.ep with deadFirst := first, deadCount := BitVec.ofNat 13 n, dead := [] } }
  let s3 := if s2.agents.busy && s2.agents.op == 2 then
      let s4 := s2.setAgent s2.agents.opId Agent.absent
      { s4 with agents := { s4.agents with busy := false, op := 0, result := 0 } }
    else s2
  s3.spreadAgents.spareDue

/-- How the restart ends one command (R366). -/
def State.restartCtx (s : State) (c : Nat) : State :=
  let x := s.ctx c
  let op := dOp x.desc
  let back := (stRolledBack, s.ep.num.zeroExtend 64)
  let fin := fun (v : BitVec 8 × BitVec 64) => (s.endCtx c v.1 v.2).closeCtx c
  match x.phase with
  | .free => s
  | .recording => s
  | .done => s.closeCtx c
  | .fetched => if x.need.isEmpty || x.stage == 1 then fin back else s.modCtx c (fun x => { x with rolled := true })
  | .waiting => fin back
  | _ =>
    if op = opOverlay ∧ s.glaze.step = .preparing ∧ s.glaze.ctx = c then s
    else if op = opEpochClose ∧ x.stage = 1 then fin (stOk, s.ep.num.zeroExtend 64)
    else if op = opFwActivate then (if x.begun then s else fin (stQuenched, 0))
    else if op = opTallyWait ∨ op = opFence ∨ !x.begun then fin back
    else
      let s1 := if op = opAtomBatch then s.batchResults c .post else s
      (s1.endCtx c stQuenched (BitVec.ofNat 64 x.progress)).closeCtx c

/-- Ranges of commands and drains end with the halt; bank cleans resume (R118, R126). -/
def State.dropRanges (s : State) : State :=
  let keep := fun (a : RangeAct) => a.ctx.isNone && !a.drain
  let mark := fun (st : State) (a : RangeAct) => match a.ctx with
    | some c => st.modCtx c (fun x => { x with begun := decide (0 < a.processed), progress := a.processed })
    | none => st
  let s1 := s.ranges.slots.foldl (fun st p => match p.2 with
    | some a => mark st a
    | none => st) s
  { s1 with ranges := { s1.ranges with
      slots := s1.ranges.slots.filter (fun p => match p.2 with
        | some a => keep a
        | none => false)
      waiting := s1.ranges.waiting.filter keep } }

/-- Step 7: the records of R366, written before QUENCH_REQ falls. Sparing for a command goes on without it. -/
def State.restart (s : State) : State :=
  let s1 := s.dropRanges.glazeDrop stQuenched 0
  let work := s1.flt.work.map (fun w => { w with ctx := w.ctx.map (fun _ => 256) })
  let s2 : State := { s1 with flt := { s1.flt with work := work, scrubs := [] } }
  let s3 : State := (s2.cmds.ctxs.map Prod.fst).foldl (fun (st : State) c => st.restartCtx c) s2
  let tails := (List.range 16).foldl (fun (t : Table Word) n =>
    if (s3.ring n).sqHead = (s3.ring n).tail then tdel t n else tins t n (s3.ring n).tail) s3.cmds.rolledTail
  let s4 := if s3.fw.verifying then s3.fwHistory stQuenched else s3
  { s4 with cmds := { s4.cmds with rolledTail := tails }
            fw := s4.fw.keepTurns s4
            ep := { s4.ep with restored := s3.ep.num } }.releaseHeld

/-- Step n of a quench begins. -/
def State.quenchEnter (s : State) (n : Nat) : State :=
  let s1 := { s with ep := { s.ep with step := n, stepDone := false }, out := { s.out with qstepDone := false } }
  if n = 2 then s1.crackAll
  else if n = 3 then (if s1.ep.waited then s1.invalidateAll else s1)
  else if n = 4 then s1.discardE
  else if n = 5 then (List.range 8).foldl (fun st k => st.replayStart k) s1
  else if n = 6 then s1.repair
  else if n = 7 then s1.restart
  else s1

/-- An M-class write that the twin has not answered (R363, R369). -/
def MWait.isWrite : MWait → Bool
  | .write _ => true
  | .saggar _ _ => true
  | _ => false
/-- Under a coolant stop the running step of a quench or a cut pauses while a half is not awake (R368). -/
def State.stepPaused (s : State) : Bool := s.ckp.coolActive && !((s.half .a).st == .awake && (s.half .b).st == .awake)
/-- The write of a completion record. -/
def Who.isRecord : Who → Bool
  | .record _ _ => true
  | _ => false
/-- The step of the quench is finished (R363): step 1 needs both halves awake, step 6 the recovery of
a hung half (R409, R424), and the last one the records written. -/
def State.quenchFinished (s : State) : Bool :=
  if s.stepPaused then false
  else if s.ep.step = 1 then
    !s.back.reqs.any (fun r => r.sent && r.write) && !s.pair.waits.any (fun w => w.2.isWrite)
      && (s.half .a).st == .awake && (s.half .b).st == .awake
  else if s.ep.step = 3 then s.ep.waited
  else if s.ep.step = 5 then s.ep.replays.isEmpty
  else if s.ep.step = 6 then !(s.half .a).recovering && !(s.half .b).recovering
  else if s.ep.step = 7 then !(s.home.cq ++ s.home.txns.map Txn.req).any (fun r => r.who.isRecord)
  else true

/-- The triggers that wait start one quench now; those behind the first join it (R359, R370). -/
def State.runLater (s : State) : State :=
  match s.ep.later with
  | [] => s
  | c :: r =>
    if s.ep.step = 0 && !s.fw.pauses then r.foldl (fun st k => st.trigger k) (({ s with ep := { s.ep with later := [] } }).trigger c) else s

/-- Step 7 has run: QUENCH_REQ falls, QUENCH_DONE is raised, requests are admitted again; a later trigger starts at once, and the agents
are not released in between (R359, R363). -/
def State.quenchEnd (s : State) : State :=
  let s1 := ({ s with ep := { s.ep with step := 0, stepDone := false, waited := false }
                      out := { s.out with quenchReq := !s.ep.later.isEmpty } }).event 0x0F02 srcSlice
    [s.ep.cause.toNat, s.ep.num.toNat, s.ep.deadCount.toNat]
  let s2 := if s1.ep.sweep then s1.sweepLines else s1
  (s2.runLater.releaseHeld).retryChannels

end Sys2Proof.Machine
end

