-- ==== Sys2Proof/Machine/FwOps.lean ====
section
/-! DEFINITION. Firmware: fuses (R449), the image header and manifest (R390 to R392, R395), staging (R393, R394),
verification (R396), the handover (R397 to R399). -/
namespace Sys2Proof.Machine

/-! ### Fuses (R449) -/

def State.fuseBits (s : State) (lo n : Nat) : Nat := bits s.boot.fuses.toNat (lo + n - 1) lo
/-- Hash of a key slot as its 48 bytes, and whether the slot is programmed and not revoked. `fwSlot`: a firmware slot. -/
def State.keyHashOf (s : State) (fwSlot : Bool) (n : Nat) : List Byte :=
  bytesLE 48 (s.fuseBits ((if fwSlot then 1540 else 0) + 384 * n) 384)
def State.keyOk (s : State) (fwSlot : Bool) (n : Nat) : Bool :=
  decide (n < 4) && s.fuseBits ((if fwSlot then 1540 else 0) + 384 * n) 384 != 0
    && !bit s.boot.fuses.toNat ((if fwSlot then 3076 else 1536) + n)
/-- The fused anti-rollback count. -/
def State.fusedCount (s : State) : Nat := popCount (s.boot.fuses.extractLsb' 3080 63)
/-- The rollback floor (R395). -/
def State.arbFloor (s : State) : Nat := max s.fusedCount s.life.arb.toNat
/-- Ask for the burn of the lowest 0 bit of the thermometer. -/
def State.burnNext (s : State) : State :=
  match (List.range 63).find? (fun i => !s.boot.fuses.getLsbD (3080 + i)) with
  | some i => { s with out := { s.out with fuseBurn := some (BitVec.ofNat 12 (3080 + i)) } }
  | none => s

/-! ### Checks of the image (R391, R392, R395) -/

/-- The header checks of R395: the offset of the first field that fails. -/
def State.headerBad (s : State) (h : List Byte) : Option Nat :=
  let checks : List (Bool × Nat) := [
    (slice h 0 4 != [0x46, 0x57, 0x49, 0x4D], 0), (leAt h 4 2 != 1, 4), (bits (leAt h 0x17 1) 7 1 != 0, 0x17),
    (leAt h 0x1D 131 != 0, 0x1D), (imgPart h == 0 || decide (16 < imgPart h), 6),
    (imgLen h % 64 != 0 || decide (imgLen h < 256 + 64 * imgPart h) || decide (8388608 < imgLen h), 8),
    (decide (imgMirrorVer h < imgMirrorMin h), 0x1C),
    (leAt h 0x0C 4 != Config.partId.toNat, 0x0C), (!bit (leAt h 0x10 4) Config.siliconRev.toNat, 0x10),
    (!s.keyOk true (imgSlot h), 7),
    (decide (imgArb h < s.arbFloor), 0x14)]
  (checks.find? Prod.fst).map Prod.snd

/-- Largest size of a type (R392). -/
def mfLimit (t : Nat) : Nat :=
  if t = 1 ∨ t = 5 then 1048576 else if t = 2 then 262144 else if t = 3 then 65536 else 131072

/-- The first manifest entry that breaks R391 or R392; a wrong number of a type is laid to the last entry (log 26). -/
def manifestBad (len : Nat) (ms : List (List Byte)) : Option Nat :=
  let stop := 256 + 64 * ms.length
  let count := fun (t : Nat) => (ms.filter (fun e => mfType e == t)).length
  let one := fun (k : Nat) (e : List Byte) =>
    let before := ms.take k
    mfId e == 0 || before.any (fun f => mfId f == mfId e) || mfType e == 0 || decide (5 < mfType e) || leAt e 2 2 != 0
      || mfOff e % 64 != 0 || decide (mfOff e < stop) || mfSize e == 0 || decide (mfLimit (mfType e) < mfSize e)
      || decide (len < mfOff e + mfSize e)
      || before.any (fun f => decide (mfOff f < mfOff e + mfSize e) && decide (mfOff e < mfOff f + mfSize f))
  match (ms.zipIdx.find? (fun p => one p.2 p.1)).map Prod.snd with
  | some k => some k
  | none =>
    if count 1 ≠ 1 ∨ count 2 ≠ 1 ∨ count 3 ≠ 1 ∨ count 5 ≠ 1 ∨ count 4 = 0 ∨ 8 < count 4 then some (ms.length - 1) else none

/-! ### Staging (R393 to R395) -/

/-- FW_BLOCK and FW_ACTIVATE are performed one at a time, in decode order (R393). -/
def State.fwTurn (s : State) (c : Nat) : Bool := s.fw.queue.head? == some c
def State.fwDone (s : State) (c : Nat) : State :=
  { s with fw := { s.fw with queue := s.fw.queue.erase c, ctx := if s.fw.ctx = some c then none else s.fw.ctx } }

/-- Write a block and mark its granules. -/
def State.stageWrite (s : State) (off : Nat) (bs : List Byte) : State :=
  let put := fun (t : List Host.Cell) (p : Byte × Nat) => tset 0 t (off + p.2) p.1
  { s with fw := { s.fw with
      staging := bs.zipIdx.foldl put s.fw.staging
      cover := (List.range (bs.length / 64)).foldl (fun t g => tset false t (off / 64 + g) true) s.fw.cover } }

/-- A block starts: refused by the state (R394), or its source is read. -/
def State.blockStart (s : State) (c : Nat) : State :=
  let d := (s.ctx c).desc
  let off := dField d 16 4
  if off ≠ 0 ∧ s.fw.stage ≠ .loading then (s.endCtx c stHdrReject (fieldAt 0)).fwDone c
  else if off ≠ 0 ∧ imgLen s.fw.header < off + dLen d then (s.endCtx c stBounds (fieldAt 16)).fwDone c
  else (s.modCtx c (fun x => { x with phase := .gathering })).gather c (linesOf (dAddr d) (dLen d)) false

/-- Its bytes are here (R394, R395). -/
def State.blockWrite (s : State) (c : Nat) : State :=
  let x := s.ctx c
  let d := x.desc
  let off := dField d 16 4
  if x.poison.isSome then (s.finishCtx c 0).fwDone c else
  let bs := x.bytesAt (dAddr d) (dLen d)
  if off ≠ 0 then ((s.stageWrite off bs).endCtx c stOk 0).fwDone c
  else
    let fresh := { s with fw := { s.fw with cover := [], stage := .rejected } }
    match if dLen d < 256 then some 8 else s.headerBad (bs.take 256) with
    | some o => (fresh.endCtx c stHdrReject (fieldAt o)).fwDone c
    | none =>
      let s1 := { fresh with fw := { fresh.fw with stage := .loading, header := bs.take 256 } }
      ((s1.stageWrite 0 bs).endCtx c stOk 0).fwDone c

/-! ### Activation (R396, R399) -/

/-- First uncovered granule up to LENGTH. -/
def State.uncovered (s : State) : Option Nat :=
  if s.fw.stage ≠ .loading then some 0
  else (List.range (imgLen s.fw.header / 64)).find? (fun g => !tget false s.fw.cover g)
/-- A DETAIL whose bits [63:32] hold a value. -/
def highDetail (v : Nat) : BitVec 64 := BitVec.ofNat 64 (v * 2 ^ 32)

/-- Bytes that the signature covers: header bytes 0x00 to 0x9F and the manifest (R390). -/
def State.signed (s : State) : List Byte := s.staged 0 0xA0 ++ s.staged 256 (64 * imgPart s.fw.header)

/-- An activation ends with a status: its turn is over. -/
def State.activateEnd (s : State) (c : Nat) (st : BitVec 8) (detail : BitVec 64) : State :=
  ({ s with fw := { s.fw with verifying := false, step := if s.fw.trail = 0 then 0 else 6, nextImage := [] } }.endCtx c st
    detail).fwDone c

/-- FW_ACTIVATE starts: checks 1 and 2, then verification runs. -/
def State.activateStart (s : State) (c : Nat) : State :=
  match s.uncovered with
  | some g => s.activateEnd c stBadOp (highDetail g)
  | none =>
    if s.fw.noStandby || s.flt.noStandby then s.activateEnd c stNoSpare 0
    else ({ s with fw := { s.fw with verifying := true, ctx := some c } }).modCtx c (fun x => { x with phase := .acting })

/-- Checks 3 to 7. -/
def State.verify (s : State) : Refuse :=
  let h := s.fw.header
  let ms := s.manifest
  let slot := imgSlot h
  if !s.keyOk true slot || !signatureOk (s.keyHashOf true slot) s.signed (s.staged 0xA0 96) then
    some (stSigFail, BitVec.ofNat 64 slot)
  else match manifestBad (imgLen h) ms with
    | some k => some (stBadOp, highDetail k)
    | none => match ms.find? (fun e => sha384 (s.staged (mfOff e) (mfSize e)) != slice e 16 48) with
      | some e => some (stHashFail, BitVec.ofNat 64 (mfId e))
      | none =>
        let p := s.cfg.protocolId
        if s.active && !ms.any (fun e => mfType e == 4 && mfId e == p) then some (stBadOp, highDetail p)
        else match s.pair.twin with
          | some t =>
            if s.cfg.pairEn && s.pair.link != 0 &&
                (decide (t.ver.toNat < imgMirrorMin h) || decide (imgMirrorVer h < t.minVer.toNat)) then
              some (stBadOp, highDetail t.ver.toNat)
            else none
          | none => none

/-! ### The handover (R397) -/

/-- A shelf has no open transaction; a dozing or retained one never has (R32). -/
def State.quiet (s : State) (sh : Nat) : Bool := s.records sh == 0
/-- Switch a shelf's protocol-table bank. -/
def State.flipShelf (s : State) (sh : Nat) : State :=
  let p := BitVec.ofNat 8 s.cfg.protocolId
  s.modShelf sh (fun h => { h with table := p, flipped := true, flipHold := false })
/-- A shelf tries its flip: it switches, or holds admission. -/
def State.flipTry (s : State) (sh : Nat) : State :=
  if (s.shelf sh).flipped then s
  else if s.quiet sh then s.flipShelf sh else s.modShelf sh (fun h => { h with flipHold := true })
/-- The shelves are tried in ascending order, each once the one before has flipped or given up. -/
def State.flipOn (s : State) : State :=
  let one := fun (acc : State × Bool) (i : Nat) =>
    if i < acc.1.fw.flipNext ∨ acc.2 then acc
    else
      let s1 := { acc.1 with fw := { acc.1.fw with flipNext := i + 1 } }.flipTry i
      (s1, (s1.shelf i).flipHold)
  ((List.range 16).foldl one (s, false)).1

/-- Steps 5 and 6: the record, the new parts, the fuses, the trail (R397, R399). -/
def State.flipDone (s : State) : State :=
  match s.fw.ctx with
  | none => s
  | some c =>
    let h := s.fw.nextImage
    let ms := manifestOf h
    let parts := ms.map (fun e => (⟨BitVec.ofNat 8 (mfId e), BitVec.ofNat 8 (mfType e), BitVec.ofNat 32 (leAt e 4 4)⟩ : Part))
    let dflt := match ms.find? (fun e => mfType e == 5) with
      | some e => slice h (mfOff e) (mfSize e)
      | none => []
    let s1 := { s with life := { s.life with arb := BitVec.ofNat 32 (imgArb h), changed := true } }.fwHistory stOk
    let s2 := { s1 with fw := { s1.fw with parts := parts, imageVer := BitVec.ofNat 32 (imgVer h), defaultBase := dflt
                                           nextImage := [], stage := .empty, staging := [], cover := [], trail := 63
                                           step := 6, pauses := false } }
    let s3 := (s2.endCtx c stOk 0).fwDone c
    let s4 := (List.range 16).foldl (fun st i => st.modShelf i (fun h => { h with flipped := false, flipHold := false })) s3
    let s5 := if imgFuse h && decide (s4.fusedCount < imgArb h) then
        ({ s4 with fw := { s4.fw with burnTo := imgArb h } }).burnNext else s4
    s5.runLater

/-- Half part h of a range activity has ended. -/
def RangeAct.isDone (a : RangeAct) : Half → Bool
  | .a => a.doneA
  | .b => a.doneB
/-- Step 6: units that are idle have switched: engines A and B, sequencers A, B and the spare; the old core when it has
rebooted (R397). -/
def State.trailStep (s : State) : State :=
  if s.fw.trail = 0 then s else
  let idle := fun (h : Half) => s.ranges.slots.all (fun p => p.2.all (fun a => a.isDone h))
  let t0 := if idle .a then s.fw.trail &&& 62 else s.fw.trail
  let t1 := if idle .b then t0 &&& 61 else t0
  let t2 := if s.seqOpen .a = 0 then t1 &&& 59 else t1
  let t3 := if s.seqOpen .b = 0 then t2 &&& 55 else t2
  let t4 := if s.kiln.spareServes.isNone ∨ t3 &&& 12 = 0 then t3 &&& 47 else t3
  { s with fw := { s.fw with trail := t4, step := if t4 = 0 ∧ s.fw.step = 6 then 0 else s.fw.step } }

/-- The maintenance engines have a new range activity to start: they have switched. -/
def State.trailEngines (s : State) : State := { s with fw := { s.fw with trail := s.fw.trail &&& 60 } }
/-- The sequencers of these halves have a new kiln command to start: they have switched; its open commands end on the old microcode. -/
def State.trailSeqs (s : State) (a b : Bool) : State :=
  let spare := match s.kiln.spareServes with
    | some .a => a
    | some .b => b
    | none => false
  { s with fw := { s.fw with trail := s.fw.trail &&& (if a then 59 else 63) &&& (if b then 55 else 63) &&& (if spare then 47 else 63) } }

/-- Step 4 goes on: held shelves that have become quiescent flip, and the next ones are tried. -/
def State.flipStep (s : State) : State :=
  if s.fw.step ≠ 4 ∨ s.stepPaused then s else
  let s1 := (List.range 16).foldl (fun st i =>
    if (st.shelf i).flipHold && st.quiet i then
      let st1 := st.flipShelf i
      if st1.fw.flipNext = i + 1 then st1.flipOn else st1
    else st) s
  if (List.range 16).all (fun i => (s1.shelf i).flipped) then s1.flipDone else s1

end Sys2Proof.Machine
end

