-- ==== Sys2Proof/Machine/PairLink.lean ====
section
/-! DEFINITION. The pair link: HELLO and the writer role (R373, R374), region entries compared (R65), losing the link
(R380 to R383), leases (R385), resynchronisation (R384, R387, R388). -/
namespace Sys2Proof.Machine

/-! ### Frames in -/

/-- A mirror frame has come in, about a line or on every port: its bytes are counted, and a flit that was replayed on that
port has passed (R328, R372, R435). -/
def State.frameIn (s : State) (line : Option LineIx) (payload : Nat) : State :=
  let ports := match line with
    | some l => (s.mirrorPort l).toList
    | none => onesOf s.pair.assign
  let s1 := match ports with
    | n :: _ => s.portInBytes (44 + n) payload
    | [] => s
  ports.foldl (fun st n =>
    if (st.far n).replayFrom.isSome then
      (st.modFar n (fun l => { l with replayFrom := none })).transient (.farLane (Fin.ofNat _ n) 0)
    else st) s1

/-! ### Sets of regions -/

def RegionSet.set (v : RegionSet) (i : Nat) (b : Bool) : RegionSet := setBit v i b
/-- Regions for which this slice holds a lease (R385). -/
def Pair.held? (p : Pair) : RegionSet := p.leases.foldl (fun v q => setBit v q.1 true) 0
/-- M-class region indices. -/
def Cfg.mIndexes (c : Cfg) : List Nat := c.mRegions.map Prod.fst
/-- Digest over the M-class region entries (R373, log 10). -/
def State.ownDigest (s : State) : BitVec 384 := Config.regionDigest s.cfg.mRegions

/-- A line lies in region i. -/
def State.inRegion (s : State) (l : LineIx) (i : Nat) : Bool :=
  match s.regionAt (lineAddr l) with
  | some (k, _) => k == i
  | none => false

/-! ### Fencing (R382, R383) -/

/-- Lines of region i that the directory records a holder of. -/
def State.heldLines (s : State) (i : Nat) : List LineIx :=
  (s.dir.ways.filter (fun p => p.2.hstate != .free)).filterMap (fun p =>
    let l : LineIx := BitVec.ofNat 45 (lineOfDir p.2.dtag.toNat (p.1 / 16 % 16384))
    if s.inRegion l i && s.homeShelf l == p.1 / 262144 then some l else none)

/-- Requests of the fence walk for the copies that remain (R382). -/
def State.fenceWalk (s : State) (i : Nat) : State :=
  let busy := fun (st : State) (l : LineIx) =>
    (st.home.cq ++ st.home.vc ++ st.home.txns.map Txn.req).any (fun r => r.line == l && r.who == .fenceWalk)
  (s.heldLines i).foldl (fun st l =>
    if busy st l then st else st.placeOwn (mkReq .inv .fenceWalk l (st.slotCone l))) s

/-- Answer with Poison the forwarded writes of region i that the twin has not answered (R382). -/
def State.poisonForwards (s : State) (i : Nat) : State :=
  s.pair.waits.foldl (fun st w => match w.2 with
    | .forward r => if st.inRegion r.line i then st.answerForward w.1 .poison else st
    | _ => st) s

/-- A region becomes fenced: its walk starts; requests get Poison when it has ended (R382). -/
def State.fenceStart (s : State) (i : Nat) : State :=
  let p := s.pair
  let pair := { p with fenced := setBit p.fenced i true, walking := setBit p.walking i true
                       solo := setBit p.solo i false, soloReady := setBit p.soloReady i false
                       writer := setBit p.writer i false }
  ({ s with pair := pair }.fenceWalk i).poisonForwards i
/-- It is fenced no longer. -/
def State.unfence (s : State) (i : Nat) : State :=
  let p := s.pair
  { s with pair := { p with fenced := setBit p.fenced i false
                            walking := if p.unmatched.getLsbD i then p.walking else setBit p.walking i false } }
/-- A region becomes solo (R381, R382, R385). -/
def State.soloStart (s : State) (i : Nat) : State :=
  let s1 := s.unfence i
  let p := s1.pair
  { s1 with pair := { p with solo := setBit p.solo i true, soloReady := setBit p.soloReady i p.delayed
                             writer := setBit p.writer i true, ever := setBit p.ever i true } }

/-- The fence walk of a region ends once no copy remains; else it goes on (log 27). -/
def State.fenceEnd (s : State) (i : Nat) : State :=
  if !s.pair.walking.getLsbD i then s
  else if (s.heldLines i).isEmpty then
    let pair := { s.pair with walking := setBit s.pair.walking i false }
    { s with pair := pair }.releaseHeld
  else s.fenceWalk i

/-! ### The writer role (R374) -/

/-- The writer of each region, by the leases that the last HELLOs of both twins carry. -/
def State.judge (s : State) : State :=
  match s.pair.twin with
  | none => s
  | some h =>
    if s.pair.link ≠ 1 then s else
    (s.cfg.mIndexes.foldl (fun st i =>
      let own := st.pair.told.getLsbD i
      let twin := h.leases.getLsbD i
      if own && twin then
        if st.pair.fenced.getLsbD i then st
        else
          let pair := { st.pair with conflict := true }
          ({ st with pair := pair }.fenceStart i).event 0x1004 srcSlice [i]
      else
        let st1 := st.unfence i
        let w := own || (!twin && !h.writers.getLsbD i && st1.pair.ever.getLsbD i)
        let ever := (own || st1.pair.ever.getLsbD i) && !twin && !h.writers.getLsbD i || own
        { st1 with pair := { st1.pair with writer := setBit st1.pair.writer i w, ever := setBit st1.pair.ever i ever } })
      s).releaseHeld

/-! ### Region entries compared (R65) -/

/-- The entry that MCFG carries for an index: the region entry, or 0 where it is not M-class. -/
def Cfg.mEntry (c : Cfg) (i : Nat) : BitVec 256 :=
  let r := c.region i
  if Region.valid r && Region.pclass r == pcM then r else 0
/-- Send MCFG for region indices. -/
def State.sendMcfg (s : State) (is : List Nat) : State :=
  is.foldl (fun st i => st.mirrorSend (BitVec.ofNat 45 i) (.mcfg i (st.cfg.mEntry i))) s
/-- An index is compared: it is unmatched while the two entries differ. -/
def State.compareEntry (s : State) (i : Nat) (e : BitVec 256) : State :=
  let own := s.cfg.mEntry i
  let bad := own != e
  let p := s.pair
  if bad == p.unmatched.getLsbD i then s
  else if bad then
    let pair := { p with unmatched := setBit p.unmatched i true, walking := setBit p.walking i true }
    ({ s with pair := pair }.fenceWalk i).poisonForwards i
  else
    let pair := { p with unmatched := setBit p.unmatched i false
                         walking := if p.fenced.getLsbD i then p.walking else setBit p.walking i false }
    { s with pair := pair }.releaseHeld

/-! ### Resynchronisation (R384, R387) -/

/-- Lines of granule g that are homed here, ascending. -/
def State.granuleLines (s : State) (g : Nat) : List LineIx :=
  let size := 4096 * 2 ^ s.cfg.gshift
  (List.range (size / 128)).filterMap (fun k =>
    let off := g * size + k * 128
    let found := s.cfg.mByBase.foldl (fun (acc : Nat × Option Nat) r =>
      let n := Region.size r
      (acc.1 + n, if acc.2.isNone && decide (acc.1 ≤ off) && decide (off < acc.1 + n) then
        some (Region.base r + (off - acc.1)) else acc.2)) (0, none)
    match found.2 with
    | some a => if (s.regionAt a).isSome then some (lineIx a) else none
    | none => none)

/-- The source's map is empty: the link is up, and every region is fenced no longer (R387). -/
def State.rejoin (s : State) : State :=
  let pair := { s.pair with link := 1, full := false, sync := none, solo := 0, soloReady := 0, fenced := 0
                            walking := s.pair.walking &&& s.pair.unmatched }
  ({ s with pair := pair }.event 0x1007 srcSlice []).judge

/-- One step of the source, if it can take one: the next line of the granule is read, whose copy the twin then gets; once the twin has
acknowledged every line the bit is cleared; the next marked granule begins, or the map is empty. -/
def State.syncStep (s : State) : Option State :=
  let put := fun (y : Option Sync) => { s with pair := { s.pair with sync := y } }
  if s.pair.link ≠ 2 then none else
  match s.pair.sync with
  | some p =>
    if p.reading.isSome then none else
    match (s.granuleLines p.granule).drop p.next with
    | l :: _ => some ((put (some { p with next := p.next + 1, reading := some l })).dispatch (mkReq .rdNC .resync l 0) false)
    | [] =>
      if s.pair.waits.any (fun w => w.2 == MWait.resync p.granule) then none
      else some { put none with pair := { s.pair with sync := none, map := tdel s.pair.map p.granule } }
  | none =>
    match s.pair.map with
    | [] => some s.rejoin
    | (g, _) :: _ => some (put (some ⟨g, 0, none⟩))
/-- The source goes on as far as it can, by at most n steps. -/
def State.syncGo : Nat → State → State
  | 0, s => s
  | n + 1, s => match s.syncStep with
    | some s1 => s1.syncGo n
    | none => s
def State.syncNext (s : State) : State := State.syncGo 64 s

/-- This slice becomes the source: its solo regions are written and mirrored as by the writer (R387). -/
def State.syncSource (s : State) : State :=
  let waits := s.pair.waits.filter (fun w => match w.2 with
    | .resync _ => false
    | _ => true)
  let pair := { s.pair with link := 2, lost := false, solo := 0, soloReady := 0, sync := none, waits := waits }
  { s with pair := pair }.syncNext
/-- It becomes the target: its regions are fenced until the source's map is empty. -/
def State.syncTarget (s : State) : State :=
  let pair := { s.pair with link := 3, lost := false }
  s.cfg.mIndexes.foldl (fun st i => if st.pair.fenced.getLsbD i then st else st.fenceStart i) { s with pair := pair }

/-! ### HELLO (R373, R387) -/

/-- The HELLO that this slice sends. -/
def State.helloOf (s : State) : Hello :=
  { ver := s.fw.mirrorVer, minVer := s.fw.mirrorMin, digest := s.ownDigest, leases := s.pair.held?
    writers := s.pair.writer, mapEmpty := s.pair.map.isEmpty, soloSet := s.pair.solo }

/-- The versions of a HELLO are compatible with this slice's. -/
def State.compatible (s : State) (h : Hello) : Bool :=
  decide (max s.fw.mirrorMin.toNat h.minVer.toNat ≤ min s.fw.mirrorVer.toNat h.ver.toNat)

/-- MISMATCH is set, and PAIR_MISMATCH raised. -/
def State.mismatch (s : State) (h : Hello) : State :=
  let pair := { s.pair with mismatch := true }
  { s with pair := pair }.event 0x1001 srcSlice [h.ver.toNat]

/-- A matching HELLO while the link is down: by the resync maps, conflict, source, target, or up at once (R387). -/
def State.establish (s : State) (h : Hello) : State :=
  let p := s.pair
  if p.ports = 0 then s
  else if !p.map.isEmpty && !h.mapEmpty then
    let bad := s.cfg.mIndexes.filter (fun i => (p.solo ||| h.soloSet).getLsbD i)
    if bad.isEmpty then s else
    let pair := { p with conflict := true }
    bad.foldl (fun st i => (st.fenceStart i).event 0x1006 srcSlice [i]) { s with pair := pair }
  else
    let s1 := if !p.map.isEmpty then s.syncSource
      else if !h.mapEmpty then s.syncTarget
      else
        let pair := { p with link := 1, lost := false }
        let s1 : State := { s with pair := pair }
        if p.lost then s1.rejoin else s1.judge
    s1.sendMcfg s1.cfg.mIndexes

/-- A HELLO has arrived. -/
def State.takeHello (s : State) (h : Hello) : State :=
  let before := s.pair.twin
  let pair := { s.pair with twinVer := h.ver, twin := some h }
  let s1 : State := { s with pair := pair }
  if !s1.compatible h then
    let pair := { s1.pair with link := 0 }
    { s1 with pair := pair }.mismatch h
  else
    let differs := h.digest != s1.ownDigest
    let s2 := if differs then s1.mismatch h else s1
    let s3 := if s2.pair.link = 0 then s2.establish h
      else if s2.pair.link = 3 then (if h.mapEmpty then s2.rejoin else s2)
      else if s2.pair.link = 2 then s2
      else if !h.mapEmpty && s2.pair.map.isEmpty then s2.syncTarget
      else s2.judge
    if differs && s3.pair.link == s.pair.link && (before.map Hello.digest) != some h.digest then
      s3.sendMcfg s3.cfg.mIndexes
    else s3

/-! ### Losing the link (R380 to R382) -/

/-- A write of the slice goes on alone on a line. -/
def State.lineAlone (s : State) (l : LineIx) : Bool := s.roleAt (lineAddr l) == .solo || s.roleAt (lineAddr l) == .soloWait
/-- A write that waited for the twin's acknowledgement: performed alone, or poisoned. -/
def State.orphanWrite (s : State) (l : LineIx) : State :=
  let s1 := s.modTxn l (fun t => { t with mack := none })
  if s.lineAlone l then (s1.markLine l).advance l else s1.poisonTxn l
/-- A line of a RECLAIM that waited for the twin. -/
def State.orphanReclaim (s : State) (l : LineIx) (n : Nat) : State :=
  let s1 := if s.lineAlone l then s.markLine l else s
  match tget none s1.ranges.slots n with
  | some a => s1.rangeStep n (shelfHalf (s.homeShelf l)) (l.toNat - a.base)
  | none => s1
/-- A saggar write that waited for the twin. -/
def State.orphanSaggar (s : State) (r : Req) (res : Option (BitVec 128)) : State :=
  let sh := s.bankOf r.line / 16
  if s.lineAlone r.line then (s.markLine r.line).performed sh r res else s.deliver sh r .poison
/-- A frame that waited for the twin when the link was lost: in a solo region the write completes and its line is marked;
in a fenced one it is answered with Poison; a forwarded write waits here again (R382, log 28). -/
def State.orphan (s : State) (tag : Nat) (w : MWait) : State :=
  let s0 : State := { s with pair := { s.pair with waits := dropFirst (fun q => q.1 == tag && q.2 == w) s.pair.waits } }
  match w with
  | .write l => s0.orphanWrite l
  | .forward r => if s0.lineAlone r.line then s0.holdReq r else s0.deliver (s0.homeShelf r.line) r .poison
  | .reclaim l n => s0.orphanReclaim l n
  | .saggar r res => s0.orphanSaggar r res
  | .resync _ => s0

/-- The link is lost: no frame goes out any more, every M-class region becomes solo or fenced, and what waited for the twin ends (R380
to R382). -/
def State.linkLost (s : State) : State :=
  if !s.cfg.pairEn || s.pair.lost then s else
  let leases := s.pair.held?
  let pair := { s.pair with link := 0, lost := true, everLost := true, delayed := false, held := [], sync := none, assign := s.pair.ports }
  let quiet := fun (st : State) (n : Nat) => st.modFar n (fun l => { l with buffer := [], unsent := l.txSeq })
  let s := quiet (quiet s 0) 1
  let s1 := s.cfg.mIndexes.foldl (fun st i =>
    if leases.getLsbD i then st.soloStart i
    else if st.pair.fenced.getLsbD i then st else st.fenceStart i) { s with pair := pair }
  s1.pair.waits.foldl (fun st w => st.orphan w.1 w.2) s1

/-- The delay of R382 is over: solo regions perform writes. -/
def State.soloReadyNow (s : State) : State :=
  if !s.pair.lost then s else
  let pair := { s.pair with delayed := true, soloReady := s.pair.solo }
  { s with pair := pair }.releaseHeld

/-! ### Leases (R385) -/

/-- This slice's lease for a region ends (R374, R385, R389). -/
def State.leaseEnd (s : State) (i : Nat) : State :=
  let pair := { s.pair with leases := tdel s.pair.leases i }
  let s1 : State := { s with pair := pair }
  if s1.pair.lost && s1.pair.solo.getLsbD i then s1.fenceStart i else s1
/-- It expires; during a quench that takes effect at the restart (R369). -/
def State.leaseExpire (s : State) (i : Nat) : State :=
  if !(s.pair.leases.any (fun p => p.1 == i)) then s
  else if s.quenching then { s with pair := { s.pair with expired := setBit s.pair.expired i true } }
  else s.leaseEnd i
/-- The leases that ran out during the quench. -/
def State.leaseDue (s : State) : State :=
  (onesOf s.pair.expired).foldl (fun st i => st.leaseEnd i) { s with pair := { s.pair with expired := 0 } }

/-- Grant or renew a lease for ms milliseconds: 0.98 of them in ECLK cycles of 20 ns. -/
def State.leaseGrant (s : State) (i ms : Nat) (takeover : Bool) : State :=
  let pair := { s.pair with leases := tins s.pair.leases i (s.ckp.eclk + 49000 * ms), expired := setBit s.pair.expired i false }
  let s1 : State := { s with pair := pair }
  if s1.pair.lost && s1.pair.fenced.getLsbD i then
    let s2 := s1.soloStart i
    (if takeover then s2.event 0x1005 srcSlice [i] else s2).releaseHeld
  else s1

/-- The bits of REGIONS. -/
def leaseSet (regions : Nat) : RegionSet := BitVec.ofNat 256 regions

end Sys2Proof.Machine
end

