-- ==== Sys2Proof/Machine/CmdRun.lean ====
section
/-! DEFINITION. Running a decoded command: its start once nothing before it holds it (R178, R179), and what it does whenever
something it waits for has arrived (R231, R240, R261, R278, R297, R299, R340, R352, R385, R393). -/
namespace Sys2Proof.Machine

/-! ### ATOM_BATCH (R238 to R240) -/

/-- The 32 bytes of entry i of a batch, as a number. -/
def Ctx.batchEntry (x : Ctx) (i : Nat) : Nat := leNat (x.bytesAt (dAddr x.desc + 32 * i) 32)
def beTarget (e : Nat) : Nat := bits e 63 0
def beSop (e : Nat) : Nat := bits e 71 64
def beW64 (e : Nat) : Bool := bit e 72
def beFetch (e : Nat) : Bool := bit e 73
def beSr (e : Nat) : Bool := bit e 74
def beOpa (e : Nat) : Nat := bits e 191 128
def beOpb (e : Nat) : Nat := bits e 255 192
/-- The entry returns a result. -/
def beResult (e : Nat) : Bool := beFetch e || beSop e == 0x0C
def Ctx.batchSize (x : Ctx) : Nat := dLen x.desc / 32

/-- A reserved field is not 0, or the operation is none of R222. -/
def beBad (e : Nat) : Bool :=
  let wide := fun (v : Nat) => !beW64 e && v / 2 ^ 32 != 0
  decide (0x0C < beSop e) || (beSr e && beSop e != 1) || bits e 79 75 != 0 || bits e 127 80 != 0
    || wide (beOpa e) || wide (beOpb e) || (beSop e != 0x0C && beOpb e != 0)

/-- The checks of R239 that need the list. -/
def State.batchCheck (s : State) (x : Ctx) : Refuse :=
  let es := (List.range x.batchSize).map (fun i => (i, x.batchEntry i))
  let res := es.any (fun p => beResult p.2)
  let area := batchResult x.desc
  let bad := fun (p : Nat × Nat → Bool) => es.find? p
  let at' := fun (st : BitVec 8) (o : Option (Nat × Nat)) => (o.isSome, st, fieldOf 8 ((o.map Prod.fst).getD 0))
  let place := fun (p : Nat × Nat) => s.place (beTarget p.2)
  firstOf [
    (res && area % 8 != 0, stAlign, fieldAt 16),
    (res && !(s.spot area (8 * x.batchSize)).ok, stBounds, fieldAt 16),
    at' stBounds (bad (fun p => place p == .nowhere)),
    at' stBadOp (bad (fun p => match place p with
      | .kiln _ _ => true
      | .tally _ => true
      | _ => false)),
    at' stAlign (bad (fun p => beTarget p.2 % (if beW64 p.2 then 8 else 4) != 0)),
    at' stBadOp (bad (fun p => beBad p.2))]

/-- Request entry i as an Atom of the slice (R216, R217, R221). -/
def State.batchIssue (s : State) (c i : Nat) : State :=
  let x := s.ctx c
  let e := x.batchEntry i
  let cas := beSop e = 0x0C
  let word := beTarget e % 128 / 4
  let aop : BitVec 8 := BitVec.ofNat 8 (b2n (beW64 e) * 64 + word * 2 + b2n cas)
  let hi := if cas then beOpb e else beSop e + b2n (beFetch e) * 2 ^ 8 + b2n (beSr e) * 2 ^ 9
  let r := { mkReq .atom (.cmd c) (lineIx (beTarget e)) (dCone x.desc) with
    mask := atomMask aop, data := BitVec.ofNat 1024 (beOpa e + hi * 2 ^ 64), plen := 16, aop := aop, index := i }
  (s.modCtx c (fun x => { x with out := x.out + 1, begun := true, stage := i + 1 })).issue r

/-- A batch goes on: results, further entries up to 64 outstanding, or its end (R240). -/
def State.batchStep (s : State) (c : Nat) : State :=
  let s1 := s.batchResults c (.result c)
  let x := s1.ctx c
  let todo := if x.poison.isSome then [] else (List.range (x.batchSize - x.stage)).map (· + x.stage)
  let s2 := (todo.take (64 - x.out)).foldl (fun st i => st.batchIssue c i) s1
  let y := s2.ctx c
  if y.out ≠ 0 ∨ (y.stage < y.batchSize ∧ y.poison.isNone) ∨ !y.results.isEmpty then s2 else
  match y.poison with
  | none => s2.endCtx c stOk (BitVec.ofNat 64 y.batchSize)
  | some a =>
    if s2.roleAt a = .fenced then s2.endCtx c stFenced (BitVec.ofNat 64 a) else
    match (List.range y.stage).find? (fun i => beTarget (y.batchEntry i) / 128 == a / 128) with
    | some i => s2.endCtx c stBadOp (fieldOf 8 i)
    | none => s2.endCtx c stBounds (fieldAt 16)

/-! ### COPY and FILL (R231, R232, R297) -/

/-- Write the bytes of a line's part of the destination. -/
def State.copyLine (s : State) (c a : Nat) : State :=
  let x := s.ctx c
  let d := x.desc
  let lo := dAddr d
  let hi := lo + dLen d
  let idx := (List.range 128).filter (fun i => decide (lo ≤ a + i) && decide (a + i < hi))
  let m := idx.foldl (fun (m : Mask) i => setBit m i true) 0
  let at' := fun (i : Nat) =>
    if dOp d = opFill then BitVec.ofNat 8 (dField d (16 + (a + i) % 8) 1) else x.byteAt (dField d 16 8 + (a + i - lo))
  let line := lineOfBytes ((List.range 128).map (fun i => if idx.contains i then at' i else 0))
  s.cmdWrite c a m line (dOp d == opFill)
/-- Write the whole destination. -/
def State.copyWrite (s : State) (c : Nat) : State :=
  let d := (s.ctx c).desc
  (linesOf (dAddr d) (dLen d)).foldl (fun st a => st.copyLine c a)
    (s.modCtx c (fun x => { x with phase := .acting, stage := 1 }))

/-! ### SPARE_SWAP, SCRUB (R299, R340, R341) -/

/-- The place that KIND, UNIT and ELEMENT name, a mat or tag row by the bank it serves in; none out of range. -/
def swapUnit (kind unit elem : Nat) : Option FaultUnit :=
  match kind with
  | 0 => if unit < 256 ∧ elem < 2048 then some (.mat (Fin.ofNat _ unit) (Fin.ofNat _ elem) []) else none
  | 1 => if unit < 256 ∧ elem = 0 then some (.bank (Fin.ofNat _ unit)) else none
  | 2 => if unit < 16384 ∧ bits elem 11 4 = 0 then
      some (.dirWay (Fin.ofNat _ (bits elem 15 12)) (Fin.ofNat _ unit) (Fin.ofNat _ (bits elem 3 0))) else none
  | 3 => if unit < 256 ∧ elem < 2048 then some (.tagRow (Fin.ofNat _ unit) (Fin.ofNat _ elem)) else none
  | 4 => if unit < 16 ∧ elem < 64 then some (.auuLane (Fin.ofNat _ unit) (Fin.ofNat _ elem)) else none
  | 5 => if unit < 2 ∧ elem < 16 then some (.farLane (Fin.ofNat _ unit) (Fin.ofNat _ elem)) else none
  | 6 => if unit = 0 ∧ elem = 0 then some .mgmtCore else none
  | 7 => if unit < 2 ∧ elem = 0 then some (.sequencer (if unit = 0 then .a else .b)) else none
  | _ => none
def spKind (d : BitVec 512) : Nat := dField d 16 1
def spUnit (d : BitVec 512) : Nat := dField d 18 2
def spElem (d : BitVec 512) : Nat := dField d 20 2

/-- A swap starts: a spare is fitted, or the command ends with NO_SPARE. A management core's is a planned failover. -/
def State.swapStart (s : State) (c : Nat) : State :=
  let d := (s.ctx c).desc
  let none' := s.endCtx c stNoSpare (BitVec.ofNat 64 (spUnit d))
  match (swapUnit (spKind d) (spUnit d) (spElem d)).map s.placeNamed with
  | some .mgmtCore => if s.alone then none' else (s.endCtx c stOk 0).failover 3
  | some u =>
    match s.sparable u with
    | some v => (s.modCtx c (fun x => { x with phase := .acting, begun := true })).spareBegin v (some c)
    | none => none'
  | none => none'

/-! ### Kiln commands (R261, R279, R283, R336) -/

/-- Banks of a kiln command. -/
def State.kilnBanks (s : State) (c : Nat) : List Nat :=
  let d := (s.ctx c).desc
  if dOp d = opKilnLoad then s.loadBanks d
  else match s.job c with
    | some j => j.left.map Prod.fst
    | none => s.fireBanks d
/-- Halves whose sequencer is lost for good. -/
def State.seqLost (s : State) (h : Half) : Bool :=
  s.kiln.deadSeqs.contains h && !s.flt.work.any (fun w => w.unit == .sequencer h)
/-- A bank on which no kiln command can act: retired, or in a half without a sequencer. -/
def State.bankLost (s : State) (b : Nat) : Bool :=
  (s.shelf (b / 16)).retired.getLsbD (b % 16) || s.seqLost (shelfHalf (b / 16))
/-- A sequencer of the command's halves is full (R279). -/
def State.seqFull (s : State) (bs : List Nat) : Bool :=
  [Half.a, Half.b].any (fun h => bs.any (fun b => shelfHalf (b / 16) == h) && decide (16 ≤ s.seqOpen h))

/-- A kiln command starts: it takes its place in the kiln order and its banks' queues. -/
def State.kilnStart (s : State) (c : Nat) : State :=
  let x := s.ctx c
  let bs := s.kilnBanks c
  match bs.find? s.bankLost with
  | some b => s.endCtx c stNoSpare (BitVec.ofNat 64 b)
  | none =>
    if s.seqFull bs then s
    else
      let s0 := s.trailSeqs (bs.any (fun b => shelfHalf (b / 16) == .a)) (bs.any (fun b => shelfHalf (b / 16) == .b))
      let s1 := bs.foldl (fun st b => st.askWake (b / 16)) s0
      if dOp x.desc = opKilnFire then s1.fireStart c
      else ((s1.joinBanks c bs).modCtx c (fun x => { x with phase := .gathering })).gather c (s.loadLines x.desc) true

/-- A kiln command waits in a bank's queue. -/
def State.queued (s : State) (c : Nat) : Bool := s.kiln.queues.any (fun p => p.2.contains c)
/-- It ends with OK, NO_SPARE, or as its poisoned answers say. -/
def State.kilnFinish (s : State) (c : Nat) : State :=
  let x := s.ctx c
  if x.poison.isNone && x.noSpare then s.endCtx c stNoSpare (BitVec.ofNat 64 (x.stage - 256)) else s.finishCtx c 0
/-- A load goes on. -/
def State.loadRun (s : State) (c : Nat) : State :=
  let x := s.ctx c
  if !x.need.isEmpty then s
  else if x.poison.isSome then (s.leaveBanks c).kilnFinish c
  else
    let s1 := s.loadStep c
    if s1.queued c then s1 else s1.kilnFinish c
/-- A firing job goes on: its inputs are read; it ends once every pass, slot and write is done (R278). -/
def State.fireRun (s : State) (c : Nat) : State :=
  let x := s.ctx c
  if x.poison.isSome then
    let s1 := ({ s with kiln := { s.kiln with asmA := s.kiln.asmA.filter (fun a => a.ctx != c)
                                              asmB := s.kiln.asmB.filter (fun a => a.ctx != c) } }).leaveBanks c
    if x.out == 0 && (s1.job c).all (fun j => j.need.isEmpty) then s1.kilnFinish c else s1
  else
    let s1 := s.fireAsk c
    let y := s1.ctx c
    let slots := (s1.kiln.asmA ++ s1.kiln.asmB).any (fun a => a.ctx == c)
    if s1.queued c || slots || y.out != 0 || !(s1.job c).all (fun j => j.need.isEmpty) then s1 else s1.kilnFinish c

/-! ### Epoch closes, tallies, leases -/

/-- EPOCH_CLOSE asks for a close, or, during a cut, for the next one (R352). -/
def State.closeStart (s : State) (c : Nat) : State :=
  let s1 := s.modCtx c (fun x => { x with phase := .acting })
  if s1.ep.cutStep = 0 then
    { s1 with ep := { s1.ep with cutBy := s1.ep.cutBy ++ [c] }, out := { s1.out with epochReq := true } }
  else { s1 with ep := { s1.ep with nextBy := s1.ep.nextBy ++ [c] } }

def tlyIndex (d : BitVec 512) : Nat := bits (dField d 16 2) 9 0
/-- TALLY_WAIT is met (R198). -/
def tallyMet (tally target : BitVec 64) : Bool := decide ((tally - target).toNat < 2 ^ 63)

def ldTakeover (d : BitVec 512) : Bool := bit (dField d 20 4) 31
def ldRegions (d : BitVec 512) : Nat := dField d 32 32
/-- Regions that a LEASE_UPDATE names. -/
def leaseNames (d : BitVec 512) : List Nat := (List.range 256).filter (bit (ldRegions d))
/-- The checks of R385 on a slice in pair configuration. -/
def State.leaseCheck (s : State) (d : BitVec 512) : Refuse :=
  let dur := dField d 20 4
  let named := leaseNames d
  let fenced := named.filter (fun i => s.pair.fenced.getLsbD i &&
    (match s.pair.twin with
      | some h => h.leases.getLsbD i
      | none => false))
  firstOf [
    (dField d 16 4 != s.cfg.witnessId, stBadOp, fieldAt 16),
    (bits dur 30 10 != 0 || decide (500 < bits dur 9 0), stBadOp, fieldAt 20),
    (s.pair.seqAny && decide (dField d 24 8 ≤ s.pair.seq.toNat), stBadOp, fieldAt 24),
    (named.any (fun i => s.cfg.mEntry i == 0), stBadOp, fieldAt 32),
    (s.pair.lost && !ldTakeover d && !fenced.isEmpty, stFenced,
      BitVec.ofNat 64 ((fenced.map (fun i => Region.base (s.cfg.region i))).foldl min (2 ^ 52 - 1)))]
/-- The checks of LEASE_UPDATE. Without PAIR_EN no field is named as the failing one: the field in DETAIL is the free value `v`
(R306, R385; log 7). -/
def State.leaseRefuse (s : State) (v : BitVec 64) (d : BitVec 512) : Refuse :=
  if !s.cfg.pairEn then some (stBadOp, fieldAt (v.toNat % 64)) else s.leaseCheck d
/-- LEASE_UPDATE is performed: its leases are granted, renewed or given up (R385). -/
def State.leaseStart (s : State) (c : Nat) : State :=
  let d := (s.ctx c).desc
  let ms := bits (dField d 20 4) 9 0
  ((leaseNames d).foldl (fun st i => if ms = 0 then st.leaseEnd i else st.leaseGrant i ms (ldTakeover d)) s).endCtx c stOk 0

/-! ### Range commands (R121) -/

/-- What a range opcode does. -/
def rangeKindOf (op : Nat) : RangeKind :=
  if op = opClean then .clean else if op = opInval then .inval else if op = opCleanInval then .cleanInval
  else if op = opReclaim then .reclaim else if op = opPin then .pin else .unpin
/-- A new activity. -/
def newRange (k : RangeKind) (base len : Nat) (ctx : Option Nat) : RangeAct :=
  ⟨k, base, len, ctx, [], 0, 0, 0, 0, 0, false, false, none, 0⟩
/-- It waits for a slot. -/
def State.rangeWait (s : State) (a : RangeAct) : State :=
  { s with ranges := { s.ranges with waiting := s.ranges.waiting ++ [a] } }

/-! ### Start and step -/

/-- A command that no fence stops starts to act. -/
def State.startOp (s : State) (c op : Nat) (d : BitVec 512) : State :=
  let act := fun (st : State) => st.modCtx c (fun x => { x with phase := .acting })
  if op = opCopy then
    (s.modCtx c (fun x => { x with phase := .gathering })).gather c (linesOf (dField d 16 8) (dLen d)) false
  else if op = opFill then s.copyWrite c
  else if opClean ≤ op ∧ op ≤ opUnpin then
    (act s).rangeWait (newRange (rangeKindOf op) (dAddr d / 128) (dLen d / 128) (some c))
  else if op = opKilnLoad ∨ op = opKilnFire then (if s.glaze.waiting.contains c then s else s.kilnStart c)
  else if op = opAtomBatch then (act s).batchStep c
  else if op = opTallyWait ∨ op = opOverlay then act s
  else if op = opTallySet then (s.setTally (tlyIndex d) (BitVec.ofNat 64 (dField d 24 8))).endCtx c stOk 0
  else if op = opEpochClose then s.closeStart c
  else if op = opFwBlock then (if s.fwTurn c then s.blockStart c else s)
  else if op = opFwActivate then (if s.fwTurn c && s.glaze.step == .idle then s.activateStart c else s)
  else if op = opSpareSwap then s.swapStart c
  else if op = opScrub then { act s with flt := { s.flt with scrubs := s.flt.scrubs ++ [(c, [])] } }
  else if op = opLease then s.leaseStart c
  else s

/-- Start a decoded command. -/
def State.startCtx (s : State) (c : Nat) : State :=
  let x := s.ctx c
  let d := x.desc
  let op := dOp d
  let fence := s.fencedIn (s.ctxReads x ++ s.ctxWrites x)
  if op = opNop ∨ op = opFence then s.endCtx c stOk 0
  else if [opCopy, opFill, opClean, opInval, opCleanInval, opReclaim, opPin, opUnpin].contains op && fence.isSome then
    s.endCtx c stFenced (BitVec.ofNat 64 (fence.getD 0))
  else s.startOp c op d

/-- How a command whose own list or stream is answered with Poison is refused: FENCED in a fenced region, else BOUNDS (R65, R306,
R383). -/
def State.readRefusal (s : State) (off a : Nat) : BitVec 8 × BitVec 64 :=
  if s.roleAt a = .fenced then (stFenced, BitVec.ofNat 64 a) else (stBounds, fieldAt off)

/-- What a command does next, if what it waits for is here. -/
def State.ctxStep (s : State) (c : Nat) : State :=
  let x := s.ctx c
  let op := dOp x.desc
  match x.phase with
  | .free => s
  | .done => s
  | .recording => s
  | .fetched =>
    if !x.need.isEmpty then s
    else if x.rolled then (if s.quenching then s else s.decodeEnd c (some (stRolledBack, s.ep.restored.zeroExtend 64)))
    else if x.stage = 1 then
      match x.poison.map (s.readRefusal 8), s.batchCheck x with
      | some r, _ => s.refuseCtx c r
      | none, some r => s.refuseCtx c r
      | none, none => (s.keepPeers c).modCtx c (fun x => { x with phase := .waiting, stage := 0 })
    else if (opPriv op).isNone && s.decodable c op then s.decodeEnd c (some (stBadOp, fieldAt 0))
    else s
  | .waiting => if s.mayStart x then s.startCtx c else s
  | .gathering =>
    if op = opKilnLoad then s.loadRun c
    else if !x.need.isEmpty then s
    else if op = opCopy then (if x.poison.isSome then s.finishCtx c 0 else s.copyWrite c)
    else if op = opFwBlock then s.blockWrite c
    else s
  | .acting =>
    if op = opCopy ∨ op = opFill then (if x.out = 0 then s.finishCtx c 0 else s)
    else if op = opKilnFire then s.fireRun c
    else if op = opAtomBatch then s.batchStep c
    else s

/-- Up to three steps: a start, its reads when they are answered at once, its writes. -/
def State.ctxRun (s : State) (c : Nat) : State := ((s.ctxStep c).ctxStep c).ctxStep c

/-- Contexts in the order in which their descriptors were fetched. -/
def State.openOrder (s : State) : List Nat := (sortBy (fun p => p.2.order) s.cmds.ctxs).map Prod.fst

/-- Cones with a request that waits for a conflict-store entry, for a backing slot or under a throttle (R323). -/
def State.waitingCones (s : State) : BitVec 8 :=
  let a := s.home.vc.foldl (fun (v : BitVec 8) r => setBit v r.cone.toNat true) 0
  s.back.reqs.foldl (fun (v : BitVec 8) r => if r.slot.isNone then setBit v r.cone.toNat true else v) a
/-- The running windows see who waits now. -/
def State.watchWaits (s : State) : State :=
  if !s.active then s else
  { s with cone := { s.cone with sawWait := s.cone.sawWait ||| s.waitingCones, sawIdle := s.cone.sawIdle ||| ~~~s.waitingCones } }

/-- Everything that can go on, after a command of the outside: the slice's commands in fetch order, the firmware handover,
the resynchronisation (log 29); then the running windows look (R323). -/
def State.settle (s : State) : State :=
  let s0 := (s.freshAgents).releaseBridge
  let s1 := if s0.quenching then s0 else s0.openOrder.foldl (fun st c => st.ctxRun c) s0
  let s2 := if s1.fw.step = 3 && !s1.quenching && !s1.fw.pauses then { s1 with fw := { s1.fw with pauses := true } } else s1
  ((((s2.flipStep.trailStep).syncNext).pumpRings).markWaits).watchWaits

/-- The outcome of a command that may have moved something that others wait for. -/
def State.done (s : State) : Host.Outcome State Fault Refusal := .next s.settle

end Sys2Proof.Machine
end

