-- ==== Sys2Proof/Machine/BackingRows.lean ====
section
/-! DEFINITION. The backing ports' commands: answers to reads and writes (R104 to R107, R111, R331, R357, R363, R442), issue
slots (R314 to R316), occupancy reports and throttling (R317 to R319). -/
namespace Sys2Proof.Machine

/-! ### Pinning (R110, R111) -/

/-- Frames of a set that are pinned; a second copy counts (R334). -/
def State.pinnedFrames (s : State) (bank set : Nat) : Nat :=
  ((List.range 16).filter (framePinned (s.liveOf bank set))).length
/-- One more frame of the line's set may be pinned. -/
def State.pinRoom (s : State) (l : LineIx) : Bool := decide (s.pinnedFrames (s.homeBank l) (foldSet l.toNat) < 14)

/-- PIN refuses a line: the lowest refused line of its activity, the shelf's record, and the thrash detector's count (R111,
R113). -/
def State.pinRefuse (s : State) (n : Nat) (l : LineIx) (c : BitVec 3) : State :=
  let sh := s.homeShelf l
  let low := fun (a : RangeAct) => { a with refused := some (match a.refused with
    | some k => min k l.toNat
    | none => l.toNat) }
  let s1 := { s with ranges := { s.ranges with slots := tmod none s.ranges.slots n (fun o => o.map low) } }
  (s1.modShelf sh (fun h => { h with pinRefused := l, pinValid := true })).thrashCount sh c

/-- Pin a line that is present: stored raw, under a pinned tag; the trees are touched (R100). -/
def State.pinPresent (s : State) (n : Nat) (x : Slot) (l : LineIx) (c : BitVec 3) : State :=
  let t := s.tag x
  if t.pin then s.touch x
  else if !s.pinRoom l then s.pinRefuse n l c
  else match s.restore x { t with pin := true } (rawForm (s.slotData x)) with
    | some s1 => s1.touch x
    | none => s.pinRefuse n l c

/-- PIN acts on a line: pins it, refuses it, or fetches it first. -/
def State.pinStart (s : State) (n : Nat) (l : LineIx) (c : BitVec 3) : State :=
  match s.liveSlot l with
  | some x => s.pinPresent n x l c
  | none => (s.openMiss (s.homeBank l) l c (s.caches (s.homeBank l)) none (.pin n)).modTxn l (fun t => t.put fB)

/-! ### Read data (R105, R357, R363) -/

/-- The fetch of a transaction's line is answered as uncorrectable, or its slot has meanwhile lost the only copy: its request is to be
answered with Poison (R331, R442). -/
def State.fetchFailed (s : State) (l : LineIx) : State :=
  (s.modTxn l (fun t => { t.clr fB with fetch := false, work := .refuse })).advance l

/-- A transaction's line has come: it is kept for the transaction, which goes on (R104, R160). -/
def State.fillTxn (s : State) (m : Miss) (r : Region) (d : Line) : State :=
  let l := m.line
  let (v, _, s1) := s.fill r l d m.cone m.alloc
  let done := fun (t : Txn) =>
    let t1 := if t.work = .perform ∧ s1.throughDue (s1.homeShelf l) t.req r then t else t.clr fB
    { t1 with fetch := false, filled := true, fetched := if t.dirty then t.fetched else some v }
  (s1.modTxn l done).advance l
/-- A PIN's line has come: it is pinned, or refused where it could not be read or finds no frame (R110, R111). -/
def State.fillPin (s : State) (m : Miss) (r : Region) (d : Line) (ue : Bool) (n : Nat) : State :=
  if ue then s.pinRefuse n m.line m.cone
  else match s.fill r m.line d m.cone m.alloc with
    | (_, some x, s1) => s1.pinPresent n x m.line m.cone
    | (_, none, s1) => s1.pinRefuse n m.line m.cone

/-- One use of a missed line: the request is answered, or the line pinned. -/
def State.useFill (s : State) (m : Miss) (d : Line) (ue : Bool) (u : MissUse) : State :=
  let l := m.line
  match u, s.regionOf l with
  | .txn, some (_, r) =>
    if ue || (s.txnOf l).any (fun t => s.deadTo t.req) then s.fetchFailed l
    else s.fillTxn m r d
  | .txn, none => s.fetchFailed l
  | .pin n, some (_, r) => ((s.fillPin m r d ue n).modTxn l (fun t => t.clr fB)).advance l
  | .pin _, none => s

/-- A miss entry's line has arrived: its uses in arrival order, then the entry closes (R105). -/
def State.missFilled (s : State) (bank : Nat) (l : LineIx) (d : Line) (ue : Bool) : State :=
  match s.back.miss.find? (fun m => m.line == l) with
  | none => s
  | some m =>
    let s1 := { s with back := { s.back with miss := dropFirst (fun x => x.line == l) s.back.miss } }
    (m.uses.foldl (fun st u => st.useFill m d ue u) s1).missRetry bank

/-- The controller answers the request in a slot: it leaves the port, and its slot is free; a beat that was sent again has passed (R329,
R441, R442). -/
def State.takeAnswer (s : State) (bp tag : Nat) (write : Bool) : Option (BReq × State) :=
  let is := fun (r : BReq) => r.bp == bp && r.slot == some tag && r.sent && r.write == write
  let old := tget BackLink.reset s.links.back bp
  let next := { old with rxSeq := old.rxSeq + 1, nak := none, discarding := false }
  (s.back.reqs.find? is).map (fun r =>
    let s1 := { s with back := { s.back with reqs := dropFirst is s.back.reqs }
                       links := { s.links with back := tset BackLink.reset s.links.back bp next } }
    (r, if old.discarding then s1.transient (.backingPort (Fin.ofNat _ bp)) else s1))

/-- BACKING_READ_DATA: the missed line, the old line of an undo entry, or a line of the replay. -/
def execBackingReadData (bp : Fin 8) (tag : Fin 64) (data : Line) (ue : Bool) (s : State) :
    Host.Outcome State Fault Refusal :=
  match s.takeAnswer bp.val tag.val false with
  | none => .next s
  | some (r, s0) =>
    let s1 := s0.portInBytes (32 + bp.val) 128
    State.done (match r.why with
      | .miss bank => s1.missFilled bank (BitVec.ofNat 45 r.addr) data ue
      | .undoOld id => s1.jobLog id data ue
      | .replayHdr n => s1.replayHeader n data ue
      | .replayData n => s1.replayEntry n data ue
      | _ => s1)

/-! ### Write acknowledgements (R107, R357, R442) -/

/-- Something else that a waiter waits for is not acknowledged yet. -/
def State.awaits (s : State) (w : Waiter) : Bool :=
  s.back.reqs.any (fun r => match r.why with
    | .data v _ => v == w
    | .undoNew v _ => v == w
    | _ => false) || s.back.jobs.any (fun j => j.w == w)

/-- A write of data has reached backing. -/
def State.written (s : State) (w : Waiter) : State :=
  match w with
  | .txn l => if s.awaits w then s else (s.modTxn l (fun t => t.clr fB)).advance l
  | _ => s

/-- BACKING_WRITE_ACK: the slot is free; an Ack that waited goes out, or the undo log or the replay goes on. -/
def execBackingWriteAck (bp : Fin 8) (tag : Fin 64) (s : State) : Host.Outcome State Fault Refusal :=
  match s.takeAnswer bp.val tag.val true with
  | none => .next s
  | some (r, s1) =>
    State.done (match r.why with
      | .data w _ => s1.written w
      | .undoNew w _ => s1.written w
      | .undoLog id => s1.jobAck id
      | .replayWrite n => s1.replayAck n
      | _ => s1)

/-! ### Issue slots (R314 to R318, R442) -/

/-- Slots that a cone holds at a port, and the shared slots taken there. -/
def State.slotsHeld (s : State) (bp c : Nat) : Nat :=
  (s.back.reqs.filter (fun r => r.bp == bp && r.slot.isSome && r.cone.toNat == c)).length
def State.sharedTaken (s : State) (bp : Nat) : Nat :=
  (List.range 8).foldl (fun a c => a + (s.slotsHeld bp c - s.cfg.backingShare c)) 0
def State.sharedSlots (s : State) : Nat := 64 - (List.range 8).foldl (fun a c => a + s.cfg.backingShare c) 0

/-- A 4-bit field of a 32-bit register. -/
def nibble (w : Word) (i : Nat) : Nat := bits w.toNat (4 * i + 3) (4 * i)
/-- Occupancy that a port judges by (R317, R319), and whether it throttles a cone (R318). -/
def State.occOf (s : State) (bp : Nat) : Nat := if s.cone.stale.getLsbD bp then 15 else nibble s.cone.occ bp
def State.throttled (s : State) (bp c : Nat) : Bool := decide (nibble s.cone.throttle c ≤ s.occOf bp)

/-- A request may not be issued yet: a read while a write of its line is unacknowledged or still to come before it (R442);
a write behind an earlier write of its line; a miss of a line whose writeback is still being logged. -/
def State.behindWrite (s : State) (r : BReq) : Bool :=
  let before := s.back.reqs.takeWhile (· != r)
  before.any (fun q => q.write && q.addr == r.addr)
  || (!r.write && s.back.reqs.any (fun q => q.write && q.addr == r.addr && q.slot.isSome))
  || (match r.why with
    | .miss _ => s.back.jobs.any (fun j => j.line.toNat == r.addr)
    | _ => false)

/-- A waiting request can take a slot now. -/
def State.grantable (s : State) (bp : Nat) (r : BReq) : Bool :=
  let c := r.cone.toNat
  r.bp == bp && r.slot.isNone && !s.behindWrite r
  && (decide (s.slotsHeld bp c < s.cfg.backingShare c)
      || (decide (s.sharedTaken bp < s.sharedSlots) && !s.throttled bp c))

/-- Order of R314 and R316: highest effective cone, writes before reads, oldest. -/
def State.grantKey (s : State) (r : BReq) : Nat :=
  2 * (7 - effCone r.cone ((s.half (portHalf r.bp)).fclk - r.born)) + (if r.write then 0 else 1)

/-- A request that holds a slot goes to the controller. -/
def State.sendBack (s : State) (r : BReq) (tag : Nat) : State :=
  let s1 := { s with back := { s.back with reqs := modFirst (· == r) (fun x => { x with slot := some tag, sent := true }) s.back.reqs } }
  let keep := fun (l : BackLink) =>
    { l with txSeq := l.txSeq + 1, window := (l.window ++ [(l.txSeq, r)]).drop (l.window.length - 63) }
  let s2 := { s1 with links := { s1.links with back := tmod BackLink.reset s1.links.back r.bp keep } }
  if r.write then s2.portOutBytes (32 + r.bp) 128 else s2

/-- BACKING_SLOT_GRANT: the best waiting request takes the lowest free slot, and is sent when the port is ready for it. -/
def execBackingSlotGrant (bp : Fin 8) (rdRdy wrRdy : Bool) (s : State) : Host.Outcome State Fault Refusal :=
  State.done (
    if (s.half (portHalf bp.val)).st ≠ .awake then s else
    match minBy s.grantKey (s.back.reqs.filter (s.grantable bp.val)),
        (List.range 64).find? (fun t => !s.back.reqs.any (fun q => q.bp == bp.val && q.slot == some t)) with
    | some r, some t =>
      if (if r.write then wrRdy else rdRdy) then s.sendBack r t
      else { s with back := { s.back with reqs := modFirst (· == r) (fun x => { x with slot := some t }) s.back.reqs } }
    | _, _ => s)

/-- BACKING_PORT_READY: the port can take a read, or a write: the oldest that holds a slot is sent (R442). -/
def execBackingPortReady (bp : Fin 8) (writes : Bool) (s : State) : Host.Outcome State Fault Refusal :=
  State.done (match s.back.reqs.find? (fun r => r.bp == bp.val && r.slot.isSome && !r.sent && r.write == writes) with
    | some r => s.sendBack r (r.slot.getD 0)
    | none => s)

/-! ### Occupancy reports (R317, R319) -/

/-- BACKING_OCC_REPORT: the port's occupancy, which ends a silence. -/
def execBackingOccReport (bp : Fin 8) (occ : BitVec 4) (s : State) : Host.Outcome State Fault Refusal :=
  let w := s.cone.occ.toNat - nibble s.cone.occ bp.val * 16 ^ bp.val + occ.toNat * 16 ^ bp.val
  .next { s with cone := { s.cone with occ := BitVec.ofNat 32 w, stale := setBit s.cone.stale bp.val false } }

/-- BACKING_FB_LOST: 256 cycles without a report: the occupancy counts as 15 (R319). -/
def execBackingFbLost (bp : Fin 8) (s : State) : Host.Outcome State Fault Refusal :=
  .next ({ s with cone := { s.cone with stale := setBit s.cone.stale bp.val true } }.event 0x0D01 srcSlice [bp.val])

end Sys2Proof.Machine
end

