-- ==== Sys2Proof/Machine/LinkRows.lean ====
section
/-! DEFINITION. The ports' links: credits (R144, R440), replay (R328, R329, R441), far-port flits and training (R328, R444). -/
namespace Sys2Proof.Machine

/-- Link of a backing port. -/
def State.backLink (s : State) (n : Nat) : BackLink := tget BackLink.reset s.links.back n
def State.modBackLink (s : State) (n : Nat) (f : BackLink → BackLink) : State :=
  { s with links := { s.links with back := tmod BackLink.reset s.links.back n f } }

def LinkId.port : LinkId → Port
  | .agent n => .agent n
  | .near n => .near n

/-- Send the messages of a class that wait for credits, while credits last; their order is kept (R440). -/
def State.sendWaiting (s : State) (p : Port) (vc : Nat) : State :=
  (s.link p).waiting.foldl (fun st m =>
    let l := st.link p
    if classOf m.code.toNat = vc ∧ 0 < l.credit vc ∧ !st.portDown p then
      (st.setLink p { l with waiting := dropFirst (· == m) l.waiting, credits := tmod 0 l.credits vc (· - 1) }).transmit p m
    else st) s

/-- CREDIT_RETURN: one message buffer of a channel is free on the other side. -/
def execCreditReturn (link : LinkId) (vc : BitVec 2) (s : State) : Host.Outcome State Fault Refusal :=
  let p := LinkId.port link
  let l := s.link p
  .next ((s.setLink p { l with credits := tmod 0 l.credits vc.toNat (· + 1) }).sendWaiting p vc.toNat)

/-- LINK_REPLAY_REQUEST: the beats from the named one on are sent again; they are not counted again. A backing port's requests are
sent again with their tags, and change nothing else (R328, R435, R441). -/
def execLinkReplayRequest (link : BeatLink) (seq : BitVec 7) (s : State) : Host.Outcome State Fault Refusal :=
  match link with
  | .backing n => .next (s.modBackLink n.val (fun l => { l with replays := l.replays + 1 }))
  | .link k =>
    let p := LinkId.port k
    let l := s.link p
    let again := dedup ((l.window.dropWhile (fun b => b.1 != seq)).map Prod.snd)
    let s1 := s.setLink p { l with replays := l.replays + 1 }
    .next { s1 with out := { s1.out with msgs := s1.out.msgs ++ again } }

/-- LINK_BEAT_ERROR: the beat and every later one are discarded, and NAK names it; a beat that fails again when it is resent
is a lasting fault of the port (R328, R329, R441). -/
def execLinkBeatError (link : BeatLink) (s : State) : Host.Outcome State Fault Refusal :=
  match link with
  | .backing n =>
    let l := s.backLink n.val
    let s1 := s.modBackLink n.val (fun l => { l with nak := some l.rxSeq, discarding := true })
    State.done (if l.discarding then s1.lastingFault (.backingPort n) else s1)
  | .link k =>
    let p := LinkId.port k
    let l := s.link p
    let s1 := s.setLink p { l with nak := some l.rxSeq, discarding := true }
    State.done (if !l.discarding then s1 else match portUnit p with
      | some u => s1.lastingFault u
      | none => s1)

/-! ### Far ports (R328, R444) -/

/-- A flit that comes in cannot be used: its replay is asked for; one whose own replay fails its CRC is a lasting fault of one of the
port's lanes, which one the spec leaves open (R328, R329; log 7). -/
def State.flitBad (s : State) (n : Fin 2) (seq : Nat) (crc : Bool) : State :=
  let l := s.far n.val
  if l.replayFrom = some seq && crc then
    let (v, s1) := s.draw
    let lane := l.active.getD (v.toNat % l.active.length) 0
    (s1.modFar n.val (fun l => { l with replayFrom := none })).lastingFault (.farLane n (Fin.ofNat _ lane))
  else
    let s1 := if l.replayFrom.isSome && l.replayFrom != some seq then s.transient (.farLane n 0) else s
    s1.modFar n.val (fun l => { l with replayFrom := some seq })
/-- FAR_FLIT_CRC_FAIL: a flit whose CRC does not fit its header and payload, or one that follows a gap, is asked for again; or the
partner asks for flits of this slice (R328). -/
def execFarFlitCrcFail (port : Fin 2) (flit : FlitFail) (s : State) : Host.Outcome State Fault Refusal :=
  State.done (match flit with
    | .crc seq header payload crc => if flitCrc header payload = crc then s else s.flitBad port seq true
    | .gap seq => s.flitBad port seq false
    | .asked seq => s.farReplay port.val seq)

/-- FAR_FLIT_ACK: flits up to the named one leave the replay buffer; frames of a new assignment may go (R328, R372). -/
def execFarFlitAck (port : Fin 2) (seq : Nat) (s : State) : Host.Outcome State Fault Refusal :=
  State.done ((s.modFar port.val (fun l => { l with buffer := l.buffer.filter (fun p => decide (seq < p.1)) })).farPump port.val).mirrorFlush

/-- FAR_LANE_UP: lanes in training report up. -/
def execFarLaneUp (port : Fin 2) (lanes : BitVec 18) (s : State) : Host.Outcome State Fault Refusal :=
  .next (s.modFar port.val (fun l => if l.train = 0 then l else { l with lanes := (l.lanes ||| lanes) &&& l.train }))

/-- FAR_TRAIN_DONE: the port runs on the lowest passing lanes, or is down and trains again in 1 ms (R336, R444). -/
def execFarTrainDone (port : Fin 2) (passing : BitVec 18) (s : State) : Host.Outcome State Fault Refusal :=
  let l := s.far port.val
  if l.train = 0 then .next s else
  let s1 := (s.modFar port.val (fun l => { l with train := 0 })).farLanes port.val (onesOf (passing &&& l.lanes))
  State.done (s1.modFar port.val (fun l => { l with retry := !l.up }))

/-- FAR_TRAIN_RETRY: the millisecond is over. -/
def execFarTrainRetry (port : Fin 2) (s : State) : Host.Outcome State Fault Refusal :=
  .next (if (s.far port.val).retry then s.farTrain port.val else s)

end Sys2Proof.Machine
end

