-- ==== Sys2Proof/Machine/RingRows.lean ====
section
/-! DEFINITION. The rings: enabling and disabling (R286, R287, R307, R308), doorbells (R288 to R290), fetching (R291, R292),
decode (R293, R294, R296 to R300), completion (R302 to R306, R309). -/
namespace Sys2Proof.Machine

/-! ### Enabling (R287, R307, R308) -/

/-- An area of a ring is aligned to its size and lies in one place. -/
def State.areaOk (s : State) (base size : Nat) : Bool := base % size == 0 && (s.spot base size).ok
/-- A log size of a ring is in range. -/
def logOk (v : BitVec 4) : Bool := decide (6 ≤ v.toNat) && decide (v.toNat ≤ 12)
/-- The control line of a ring index lies in a saggar region of this slice (R289). -/
def State.watchable (s : State) (n : Nat) : Bool :=
  match s.place (s.ring n).ctl.toNat with
  | .saggar _ _ => true
  | _ => false

/-- EN is written 1: fields, alignments and places are checked, and the control lines read. -/
def State.ringOn (s : State) (n : Nat) : State :=
  let m := s.cqOf n
  let fresh := !s.cqUsed m
  let g := s.ring n
  let h := s.ring m
  let ok := logOk g.sqLog && logOk h.cqLog && g.priv != 3 && s.areaOk g.sqBase.toNat (64 * ringSize g)
    && s.areaOk h.cqBase.toNat (16 * cqSize h) && s.areaOk g.ctl.toNat 128 && s.areaOk h.ctl.toNat 128
  let s1 := s.modRing n (fun r => { r with en := true, enabling := true, checkBad := false,
                                           checksLeft := if fresh then 2 else 1, watched := s.watchable n })
  if !ok then s1.enableEnd n true
  else
    let keep := fun (r : Ring) => { r with engine := s.kiln.engine, windows := if s.kiln.engineValid then s.peerRanges else [] }
    let s2 := (if fresh then s1.modRing m (fun r => keep { r with watched := s.watchable m }) else s1).modRing n keep
    let s3 := s2.readLine (.enable n false) .rdV g.ctl.toNat 0 false
    if fresh then s3.readLine (.enable n true) .rdV h.ctl.toNat 0 false else s3

/-- EN is written 0: fetching stops; doorbells are ignored, while the control line still serves the completion ring of its index
(R289, R308). -/
def State.ringOff (s : State) (n : Nat) : State :=
  s.modRing n (fun r => { r with en := false, enabling := false, active := false
                                 stale := r.stale + (if r.enabling then r.checksLeft else 0)
                                 read := r.read.map (fun p => (none, p.2)) })

/-- A write of RNG_CFGn: while EN is 1 only EN counts, and CQ_LOG is kept while an enabled ring names the completion ring. -/
def State.ringCfg (s : State) (n : Nat) (w : Word) : State :=
  let g := s.ring n
  let v := w.toNat
  if g.en then (if bit v 31 then s else s.ringOff n)
  else
    let named := (List.range 16).any (fun k => (s.ring k).en && s.cqOf k == n)
    let s1 := s.modRing n (fun r =>
      { r with sqLog := w.extractLsb' 0 4, cqLog := if named then r.cqLog else w.extractLsb' 4 4, cq := w.extractLsb' 8 4,
               priv := w.extractLsb' 12 2, poll := w.extractLsb' 14 4, irqSel := w.extractLsb' 18 2, errIrq := bit v 20 })
    if bit v 31 then s1.ringOn n else s1

/-! ### Doorbells (R289, R290) -/

/-- The front end reads the control line of an index in use. -/
def State.readControl (s : State) (n : Nat) : State :=
  if !((s.ring n).en || s.cqUsed n) || (s.ring n).enabling then s else
  (s.modRing n (fun r => { r with reading := true, flight := r.flight + 1 })).readLine (.ctl n) .rdV (s.ring n).ctl.toNat 0 false

/-- A tail that was read is accepted, or overruns the ring. -/
def State.judgeTail (s : State) (n : Nat) (v : Word) : State :=
  let g := s.ring n
  if !g.active then s
  else if (v - g.tail).toNat ≤ ringSize g - (g.tail - g.sqHead).toNat then s.modRing n (fun r => { r with tail := v })
  else (s.modRing n (fun r => { r with overrun := true, active := false })).event 0x0C01 srcSlice [n]

/-- A CQ_HEAD that was read moves forward and not past CQ_TAIL, or CQ_ERR is set. -/
def State.judgeHead (s : State) (m : Nat) (c : Word) : State :=
  let g := s.ring m
  if !s.cqUsed m then s
  else if (c - g.cqHead).toNat ≤ (g.cqTail - g.cqHead).toNat then s.modRing m (fun r => { r with cqHead := c })
  else s.cqError m

/-- DOORBELL: a read of the control line is performed, and what it returned is judged. -/
def execDoorbell (ring : Fin 16) (s : State) : Host.Outcome State Fault Refusal :=
  let n := ring.val
  let g := s.ring n
  let s1 := if g.reading && g.flight = 0 && g.read.isNone && g.watched then s.readControl n else s
  State.done (match (s1.ring n).read with
    | none => s1
    | some (t, h) =>
      let s2 := s1.modRing n (fun r => { r with read := none })
      (match t with
        | some v => s2.judgeTail n v
        | none => s2).judgeHead n h)

/-- RING_POLL: the interval of a control line that is not watched expires, and the line is read. -/
def execRingPoll (ring : Fin 16) (s : State) : Host.Outcome State Fault Refusal :=
  let g := s.ring ring.val
  State.done (if g.watched || g.reading then s else s.readControl ring.val)

/-- A write of 1 to KICK reads the control line at once; one read serves a watch or poll under way. -/
def State.kick (s : State) (n : Nat) : State :=
  let g := s.ring n
  if g.reading && !g.watched then s else s.readControl n

/-- Clear CQ_ERR: the held records are written again, the first from its beginning (R309). -/
def State.cqErrClear (s : State) (m : Nat) : State :=
  if !(s.ring m).cqErr then s else (s.modRing m (fun g => { g with cqErr := false })).pumpRings

/-! ### Fetching (R291, R292) -/

/-- The front end takes commands: a core serves, no quench, and no command pause (R336, R363, R397). -/
def State.takes (s : State) : Bool := s.flt.serving && !s.quenching && s.fw.step != 3
/-- A free context. -/
def State.freeCtx (s : State) : Option Nat := (List.range 256).find? (fun i => !s.cmds.ctxs.any (fun p => p.1 == i))
/-- A descriptor of the ring can be fetched. -/
def State.fetchable (s : State) (n : Nat) : Bool :=
  let g := s.ring n
  let m := s.cqOf n
  g.en && g.active && g.tail != g.sqHead && !s.cmds.ctxs.any (fun p => p.2.ring == n && p.2.phase == Phase.fetched && !p.2.need.isEmpty)
  && !(s.ring m).cqErr && decide (s.recordsTaken m < cqSize (s.ring m))
/-- Rings in serving order: those of management privilege first. -/
def State.ringOrder (s : State) : List Nat :=
  (List.range 16).filter (fun n => (s.ring n).priv == 2) ++ (List.range 16).filter (fun n => (s.ring n).priv != 2)
/-- Rings that the present round has still to pass. -/
def State.roundLeft (s : State) : List Nat :=
  match s.cmds.round.getLast? with
  | some k => (s.ringOrder.dropWhile (· != k)).drop 1
  | none => []
/-- The ring whose turn it is, and the rings that have been served in the round it belongs to: a ring that the present round
has not passed, else the first of a new round. -/
def State.turn (s : State) : Option (Nat × List Nat) :=
  match s.roundLeft.find? s.fetchable with
  | some n => some (n, s.cmds.round)
  | none => (s.ringOrder.find? s.fetchable).map (fun n => (n, []))
/-- A round ends when no ring can be fetched. -/
def State.roundEnd (s : State) : State :=
  if s.turn.isSome then s else { s with cmds := { s.cmds with round := [] } }

/-- The descriptor at an index was submitted before the last restart and is not performed (R366). -/
def State.isRolled (s : State) (n : Nat) (i : Word) : Bool :=
  match s.cmds.rolledTail.find? (fun p => p.1 == n) with
  | some (_, t) => decide (0 < (t - i).toNat) && decide ((t - i).toNat < 2 ^ 31)
  | none => false

/-- DESCRIPTOR_FETCH: the ring whose turn it is reads its next descriptor into a free context, and reserves a record. -/
def execDescriptorFetch (ring : Fin 16) (s : State) : Host.Outcome State Fault Refusal :=
  let n := ring.val
  State.done (match s.turn, s.freeCtx with
    | some (k, round), some c =>
      if k ≠ n ∨ !s.takes then s else
      let i := (s.ring n).sqHead
      let a := s.descAddr n i
      let x : Ctx := { Ctx.free with phase := .fetched, ring := n, index := i, order := s.cmds.next
                                     need := [a / 128 * 128], rolled := s.isRolled n i, cring := s.cqOf n }
      let s1 := s.modCtx c (fun _ => x)
      let cmds := { s1.cmds with next := s1.cmds.next + 1, round := round ++ [n] }
      let s2 : State := { s1 with cmds := cmds }
      (s2.readLine (.desc c) .rdNC a 0 false).roundEnd
    | _, _ => s)

/-! ### Decode (R55, R294) -/

/-- The first of several checks that fails. -/
def firstRefuse (l : List Refuse) : Refuse := l.findSome? id

/-- Decode the command of a context whose opcode is `op`, with the opcode's own checks, the operand bytes that it does not name last
(`late`: its own checks judge them too); `go` is what passing it does. Until a base is active only NOP is accepted (R55, R294). -/
def State.decode (s : State) (c : Fin 256) (op : Nat) (late : Bool) (own : State → BitVec 512 → Refuse)
    (go : State → State) : Host.Outcome State Fault Refusal :=
  let c := c.val
  if !s.decodable c op then .next s else
  let d := (s.ctx c).desc
  let head := if !s.active && op != opNop then some (stBadOp, fieldAt 0)
    else headCheck op d (s.ring (s.ctx c).ring).priv.toNat
  let r := firstRefuse [head, own s d, if late then none else tailCheck op d]
  let s1 := s.decodeEnd c r
  State.done (if r.isSome then s1 else go s1)

/-- No check of its own. -/
def noCheck (_ : State) (_ : BitVec 512) : Refuse := none

/-- NOP. -/
def execNop (ctx : Fin 256) (s : State) : Host.Outcome State Fault Refusal := s.decode ctx opNop false noCheck id
/-- FENCE (R179). -/
def execFence (ctx : Fin 256) (s : State) : Host.Outcome State Fault Refusal := s.decode ctx opFence false noCheck id
/-- EPOCH_CLOSE (R352). -/
def execEpochClose (ctx : Fin 256) (s : State) : Host.Outcome State Fault Refusal := s.decode ctx opEpochClose false noCheck id

/-- A COPY or FILL destination in a WPOL 3 region. -/
def State.reducing (s : State) (a n : Nat) : Bool :=
  match s.spot a n with
  | .cache _ r => Region.wpol r == 3
  | _ => false
/-- An operand in kiln or tally space (R297). -/
def Spot.isKiln : Spot → Bool
  | .kiln _ _ => true
  | _ => false
/-- The checks of R297 on a destination, and on a source. -/
def State.moveCheck (s : State) (d : BitVec 512) (copy : Bool) : Refuse :=
  let n := dLen d
  let a := dAddr d
  let b := dField d 16 8
  let dst := s.spot a n
  let src := s.spot b n
  firstOf [
    (s.reducing a n && a % 128 != 0, stAlign, fieldAt 8), (s.reducing a n && n % 128 != 0, stAlign, fieldAt 4),
    (!dst.ok && !dst.barred, stBounds, s.boundsAt a 8),
    (copy && !src.ok && !src.barred, stBounds, s.boundsAt b 16),
    (dst.barred, stBadOp, fieldAt 8), (copy && src == .tally, stBadOp, fieldAt 16),
    (copy && decide (b < a + n) && decide (a < b + n), stBadOp, fieldAt 16)]
/-- COPY (R297). -/
def execCopy (ctx : Fin 256) (s : State) : Host.Outcome State Fault Refusal :=
  s.decode ctx opCopy false (fun s d => s.moveCheck d true) id
/-- FILL (R297). -/
def execFill (ctx : Fin 256) (s : State) : Host.Outcome State Fault Refusal :=
  s.decode ctx opFill false (fun s d => s.moveCheck d false) id

/-! ### Range commands (R110, R114, R121, R298) -/

/-- The region that a range's base lies in, of any space. -/
def State.rangeRegion (s : State) (a : Nat) : Option Region :=
  match s.place a with
  | .saggar _ r => some r
  | .kiln _ r => some r
  | .tally _ => none
  | _ => (s.cfg.find spCache a).map Prod.snd
/-- Every line of the region that is homed here has a cache bank as its home bank (R110). -/
def State.pinnable (s : State) (r : Region) : Bool :=
  (s.cfg.candidates r).all (fun sh => (List.range 16).all (fun k => s.cfg.mode (16 * sh + k) == modeCache))
  || (List.range (Region.size r / 128)).all (fun k =>
    let a := Region.base r + 128 * k
    !homedHere r a || s.cfg.mode (s.cfg.homeBank r (a / 128)) == modeCache)
/-- The checks of a range command; `saggar`: it takes saggar regions too; `pin`: it is PIN or UNPIN. -/
def State.rangeCheck (s : State) (d : BitVec 512) (saggar pin : Bool) : Refuse :=
  let a := dAddr d
  let n := dLen d
  firstOf [(a % 128 != 0, stAlign, fieldAt 8), (n % 128 != 0, stAlign, fieldAt 4)] |>.orElse (fun _ =>
  match s.rangeRegion a with
  | none => some (stBounds, fieldAt 8)
  | some r =>
    firstOf [
      (decide (Region.base r + Region.size r < a + n) || decide (2 ^ 52 < a + n), stBounds, fieldAt 4),
      (Region.space r == spKiln || (Region.space r == spSaggar && !saggar), stBadOp, fieldAt 8),
      (pin && !Region.pinOk r, stBadOp, fieldAt 8), (pin && dOp d == opPin && !s.pinnable r, stBadOp, fieldAt 8)])
/-- CLEAN. -/
def execClean (ctx : Fin 256) (s : State) : Host.Outcome State Fault Refusal :=
  s.decode ctx opClean false (fun s d => s.rangeCheck d true false) id
/-- INVAL. -/
def execInval (ctx : Fin 256) (s : State) : Host.Outcome State Fault Refusal :=
  s.decode ctx opInval false (fun s d => s.rangeCheck d true false) id
/-- CLEAN_INVAL. -/
def execCleanInval (ctx : Fin 256) (s : State) : Host.Outcome State Fault Refusal :=
  s.decode ctx opCleanInval false (fun s d => s.rangeCheck d true false) id
/-- RECLAIM. -/
def execReclaim (ctx : Fin 256) (s : State) : Host.Outcome State Fault Refusal :=
  s.decode ctx opReclaim false (fun s d => s.rangeCheck d false false) id
/-- PIN. -/
def execPin (ctx : Fin 256) (s : State) : Host.Outcome State Fault Refusal :=
  s.decode ctx opPin false (fun s d => s.rangeCheck d false true) id
/-- UNPIN. -/
def execUnpin (ctx : Fin 256) (s : State) : Host.Outcome State Fault Refusal :=
  s.decode ctx opUnpin false (fun s d => s.rangeCheck d false true) id

/-! ### The other opcodes (R56, R239, R267, R277, R299, R340, R385, R394) -/

/-- ATOM_BATCH: the list's own checks; its entries, and with them RESULT's alignment, are checked once the list has been read, so that
a list which runs past its region ends with BOUNDS first (R239; log 69). -/
def State.listCheck (s : State) (d : BitVec 512) : Refuse :=
  let a := dAddr d
  let n := dLen d
  firstOf [(a % 32 != 0, stAlign, fieldAt 8), (n % 32 != 0, stAlign, fieldAt 4), (!(s.spot a n).ok, stBounds, s.boundsAt a 8)]
def execAtomBatch (ctx : Fin 256) (s : State) : Host.Outcome State Fault Refusal :=
  let c := ctx.val
  if !s.decodable c opAtomBatch then .next s else
  let d := (s.ctx c).desc
  let head := if !s.active then some (stBadOp, fieldAt 0) else headCheck opAtomBatch d (s.ring (s.ctx c).ring).priv.toNat
  match firstRefuse [head, s.listCheck d] with
  | some v => State.done (s.decodeEnd c (some v))
  | none =>
    let s1 := s.modCtx c (fun x => { x with stage := 1 })
    State.done (s1.gather c (linesOf (dAddr d) (dLen d)) false)

/-- TALLY operands (R299). -/
def tallyCheck (_ : State) (d : BitVec 512) : Refuse := firstOf [(bits (dField d 16 2) 15 10 != 0, stBadOp, fieldAt 16)]
def execTallyWait (ctx : Fin 256) (s : State) : Host.Outcome State Fault Refusal := s.decode ctx opTallyWait false tallyCheck id
def execTallySet (ctx : Fin 256) (s : State) : Host.Outcome State Fault Refusal := s.decode ctx opTallySet false tallyCheck id

/-- TALLY_WAIT_MET: the tally has reached the target (R198). -/
def execTallyWaitMet (ctx : Fin 256) (s : State) : Host.Outcome State Fault Refusal :=
  let x := s.ctx ctx.val
  let v := s.tally (tlyIndex x.desc)
  State.done (if x.phase == Phase.acting && dOp x.desc == opTallyWait && tallyMet v (BitVec.ofNat 64 (dField x.desc 24 8)) && !s.quenching
    then s.endCtx ctx.val stOk v else s)
/-- TALLY_WAIT_TIMEOUT: TIMEOUT µs have passed since the start without the wait being met; 0 means no limit (R299). -/
def execTallyWaitTimeout (ctx : Fin 256) (s : State) : Host.Outcome State Fault Refusal :=
  let x := s.ctx ctx.val
  let v := s.tally (tlyIndex x.desc)
  State.done (if x.phase == Phase.acting && dOp x.desc == opTallyWait && dField x.desc 32 4 != 0 && !s.quenching
      && !tallyMet v (BitVec.ofNat 64 (dField x.desc 24 8))
    then s.endCtx ctx.val stTimeout v else s)

/-- SCRUB. -/
def scrubCheck (_ : State) (d : BitVec 512) : Refuse :=
  firstOf [(dField d 18 2 == 0, stZeroLen, 0), (decide (256 < dField d 16 2 + dField d 18 2), stBounds, fieldAt 18)]
def execScrub (ctx : Fin 256) (s : State) : Host.Outcome State Fault Refusal := s.decode ctx opScrub false scrubCheck id

/-- SPARE_SWAP. -/
def swapCheck (_ : State) (d : BitVec 512) : Refuse :=
  firstOf [(decide (spKind d < 8) && (swapUnit (spKind d) (spUnit d) (spElem d)).isNone, stBounds,
      fieldAt (if (swapUnit (spKind d) (spUnit d) 0).isNone then 18 else 20)),
    (decide (7 < spKind d), stBadOp, fieldAt 16)]
def execSpareSwap (ctx : Fin 256) (s : State) : Host.Outcome State Fault Refusal := s.decode ctx opSpareSwap false swapCheck id

/-- LEASE_UPDATE: checked by R385; its SEQ is accepted with it (log 78). -/
def execLeaseUpdate (ctx : Fin 256) (s : State) : Host.Outcome State Fault Refusal :=
  let (v, s1) := if s.decodable ctx.val opLease && !s.cfg.pairEn then s.draw else (0, s)
  s1.decode ctx opLease false (fun s d => s.leaseRefuse v d) (fun st =>
    { st with pair := { st.pair with seq := BitVec.ofNat 64 (dField (st.ctx ctx.val).desc 24 8), seqAny := true } })

/-- OVERLAY_APPLY: its stream lies in one place. -/
def State.overlayCheck (s : State) (d : BitVec 512) : Refuse :=
  firstOf [(!(s.spot (dAddr d) (dLen d)).ok, stBounds, s.boundsAt (dAddr d) 8)]
def execOverlayApply (ctx : Fin 256) (s : State) : Host.Outcome State Fault Refusal :=
  s.decode ctx opOverlay false State.overlayCheck id

/-- FW_BLOCK and FW_ACTIVATE take their turn in decode order (R393). -/
def State.fwJoin (s : State) (c : Nat) : State :=
  { s with fw := { s.fw with queue := s.fw.queue ++ [c] } }
def State.blockCheck (s : State) (d : BitVec 512) : Refuse :=
  let off := dField d 16 4
  firstOf [(off % 64 != 0, stAlign, fieldAt 16), (dLen d % 64 != 0, stAlign, fieldAt 4),
    (decide (65536 < dLen d), stBounds, fieldAt 4), (decide (8388608 < off + dLen d), stBounds, fieldAt 16),
    (!(s.spot (dAddr d) (dLen d)).ok, stBounds, s.boundsAt (dAddr d) 8)]
def execFwBlock (ctx : Fin 256) (s : State) : Host.Outcome State Fault Refusal :=
  s.decode ctx opFwBlock false State.blockCheck (fun st => st.fwJoin ctx.val)
def execFwActivate (ctx : Fin 256) (s : State) : Host.Outcome State Fault Refusal :=
  s.decode ctx opFwActivate false noCheck (fun st => st.fwJoin ctx.val)

/-- A kiln command on banks that an open glaze point affects waits for its end (R60, R62, R64). -/
def State.glazeWaits (s : State) (c : Nat) (bs : List Nat) : State :=
  if bs.any s.glazeBank then
    { s with glaze := { s.glaze with waiting := s.glaze.waiting ++ [c] } }
  else s

/-- KILN_LOAD (R267). -/
def execKilnLoad (ctx : Fin 256) (s : State) : Host.Outcome State Fault Refusal :=
  s.decode ctx opKilnLoad true State.loadCheck (fun st => st.glazeWaits ctx.val (st.loadBanks (st.ctx ctx.val).desc))
/-- KILN_FIRE: its job is made on the placement map of this moment; one on banks that an open glaze point affects waits
(R62, R64, R277, R279). -/
def execKilnFire (ctx : Fin 256) (s : State) : Host.Outcome State Fault Refusal :=
  s.decode ctx opKilnFire true State.fireCheck (fun st =>
    (st.fireMake ctx.val).glazeWaits ctx.val (st.fireBanks (st.ctx ctx.val).desc))

/-! ### Completion (R302, R306) -/

/-- COMMAND_COMPLETE: the command has been performed in full, or was halted: its record is written. -/
def execCommandComplete (ctx : Fin 256) (s : State) : Host.Outcome State Fault Refusal :=
  State.done (if (s.ctx ctx.val).phase == Phase.done && !s.quenching then s.closeCtx ctx.val else s)

end Sys2Proof.Machine
end

