-- ==== Sys2Proof/Machine/RangeRows.lean ====
section
/-! DEFINITION. The maintenance engine: range activities (R110 to R115, R120 to R126), by-address operations (R127), bank cleans and
tag invalidates (R118, R119). -/
namespace Sys2Proof.Machine

/-! ### Which line comes next (R123) -/

/-- The first offset from k on that satisfies a test, within `fuel` offsets. -/
def firstFrom (p : Nat → Bool) : Nat → Nat → Option Nat
  | 0, _ => none
  | f + 1, k => if p k then some k else firstFrom p f (k + 1)

/-- Line a is a cache line homed in a half of this slice. -/
def State.homedIn (s : State) (h : Half) (a : Nat) : Bool :=
  match s.regionOf (BitVec.ofNat 45 a) with
  | some (_, r) => shelfHalf (s.cfg.homeShelf r a) == h
  | none => false

def RangeAct.pos (a : RangeAct) : Half → Nat
  | .a => a.posA
  | .b => a.posB
/-- Half part h of the activity in slot n has ended; that of a drain goes on to its next part first (R61). -/
def State.rangeHalfDone (s : State) (n : Nat) (h : Half) : State :=
  let f := fun (a : RangeAct) =>
    let more := decide (a.part h + 1 < a.parts.length)
    match h with
    | .a => if more then { a with partA := a.partA + 1, posA := 0 } else { a with doneA := true }
    | .b => if more then { a with partB := a.partB + 1, posB := 0 } else { a with doneB := true }
  { s with ranges := { s.ranges with slots := tmod none s.ranges.slots n (fun o => o.map f) } }

/-- Slots of a bank with data to write back: dirty lines, and second copies, whose primaries are dirty (R118, R333). -/
def State.dirtySlots (s : State) (b : Nat) : List Slot :=
  (s.arr.tags.filter (fun p => decide (b * 65536 ≤ p.1) && decide (p.1 < (b + 1) * 65536)
    && p.2.state == TagState.live && p.2.sd != 0)).map (fun p => ⟨b, p.1 / 32 % 2048, p.1 % 32⟩)

/-- A walk over lines base to base + len − 1 that stands at offset pos has not finished the granule of line l in that half. -/
def State.granuleLeft (s : State) (base len pos : Nat) (h : Half) (l : Nat) : Bool :=
  decide (base ≤ l) && decide (l < base + len) &&
    (let stop := min (base + len) ((l / 32 + 1) * 32)
     let at' := max (base + pos) (l / 32 * 32)
     (firstFrom (s.homedIn h) (stop - at') at').isSome)
/-- Line l is homed in bank b. -/
def State.inBank (s : State) (b l : Nat) : Bool :=
  s.homeBank (BitVec.ofNat 45 l) == b && (s.regionOf (BitVec.ofNat 45 l)).isSome
/-- An earlier activity covers a line and has not passed its granule in that half. -/
def State.notPassed (s : State) (a : RangeAct) (h : Half) (l : Nat) : Bool :=
  match a.kind with
  | .bankClean b => s.inBank b l
  | .drain => !a.isDone h && (a.parts.zipIdx.drop (a.part h)).any (fun p => match p.1 with
    | .bank b => s.inBank b l
    | .region base len => s.granuleLeft base len (if p.2 = a.part h then a.pos h else 0) h l)
  | _ => !a.isDone h && s.granuleLeft a.base a.len (a.pos h) h l
/-- Every earlier activity that covers the line has passed it. -/
def State.mayProcess (s : State) (order : Nat) (h : Half) (l : Nat) : Bool :=
  s.ranges.slots.all (fun p => match p.2 with
    | some a => !(decide (a.order < order) && s.notPassed a h l)
    | none => true)

/-- The half part of slot n has a line in hand: its transaction is open, or the twin has not acknowledged its reclaim. -/
def State.rangeBusy (s : State) (n : Nat) (h : Half) : Bool :=
  s.home.txns.any (fun t => t.req.who == .maint n && shelfHalf (s.homeShelf t.req.line) == h)
  || s.pair.waits.any (fun w => match w.2 with
    | .reclaim l k => k == n && shelfHalf (s.homeShelf l) == h
    | _ => false)

/-- A maintenance transaction may open on a line: none is open, its data is not being recovered, no flip holds admission, the shelf and bank are up, and the set and the records have
room (R124, R136, R156). -/
def State.mayMaintain (s : State) (r : Req) : Bool :=
  let sh := s.homeShelf r.line
  !s.lineOpen r.line && !s.flt.lost.contains r.line && !(s.shelf sh).flipHold && !s.asleep sh && !s.bankBusy (s.homeBank r.line) && !s.setBusy r.line && decide (s.records sh < 256)
  && ((s.wayOf sh r.line).isNone || decide (s.transients r.line < s.transientLimit r.line))

/-- The maintenance engine takes a line: it is locked until the transaction closes (R124). -/
def State.maintain (s : State) (r : Req) (pin : Option Nat) : State :=
  let s1 : State := { s with home := { s.home with txns := s.home.txns ++ [Txn.open r] } }
  let s2 := s1.serve r.line
  (match pin with
    | some n => s2.pinStart n r.line r.cone
    | none => s2).advance r.line

/-! ### Range activities (R121 to R123) -/

/-- RANGE_SLOT_ALLOCATE: the activity that waits longest takes the lowest free slot: its start. -/
def execRangeSlotAllocate (s : State) : Host.Outcome State Fault Refusal :=
  State.done (match s.ranges.waiting, (List.range 16).find? (fun n => (tget none s.ranges.slots n).isNone) with
    | a :: rest, some n =>
      if s.quenching then s else
      { s with ranges := { s.ranges with slots := tset none s.ranges.slots n (some { a with order := s.ranges.next })
                                         waiting := rest, next := s.ranges.next + 1 } }.trailEngines
    | _, _ => s)

/-- One line of a command's range, or of a drain's region. -/
def State.rangeLine (s : State) (n : Nat) (a : RangeAct) (h : Half) : State :=
  let (base, len) := a.area h
  if a.refused.isSome then s.rangeHalfDone n h else
  match firstFrom (fun k => s.homedIn h (base + k)) (len - a.pos h) (a.pos h) with
  | none => s.rangeHalfDone n h
  | some k =>
    let l : LineIx := BitVec.ofNat 45 (base + k)
    let cone := match a.ctx with
      | some c => dCone (s.ctx c).desc
      | none => s.slotCone l
    let r := mkReq .callIn (.maint n) l cone
    if !s.mayProcess a.order h l.toNat then s
    else if s.roleAt (lineAddr l) = .fenced && a.ctx.isSome then
      let low := fun (x : Ctx) => { x with poison := some (match x.poison with
        | some b => min b (lineAddr l)
        | none => lineAddr l) }
      (s.modCtx (a.ctx.getD 0) low).rangeHalfDone n h
    else if !s.mayMaintain r then s.askWake (s.homeShelf l)
    else s.maintain r (if a.kind = .pin then some n else none)

/-- One line of a bank clean: the next dirty line of the bank. -/
def State.bankLine (s : State) (n b : Nat) (a : RangeAct) (h : Half) : State :=
  let line := fun (x : Slot) => slotLine x (s.tag x)
  if shelfHalf (b / 16) ≠ h then s.rangeHalfDone n h else
  if !s.shelfUp (b / 16) then s.askWake (b / 16) else
  match s.dirtySlots b with
  | [] => s.rangeHalfDone n h
  | xs => match xs.find? (fun x => !s.lineOpen (line x) && !s.flt.lost.contains (line x) && s.mayProcess a.order h (line x).toNat) with
    | none => s
    | some x =>
      if (s.tag x).dup then
        match s.slotOf (line x) with
        | some y => s.cleanSlot y srcWriteback (.clean b)
        | none => s.setTag x Tag.empty
      else s.cleanSlot x srcWriteback (.clean b)

/-- Lines of a bank that its drain still has to treat: live ones of the bank, and those that the directory records a holder of. -/
def State.drainLines (s : State) (b : Nat) : List LineIx :=
  let own := (s.arr.tags.filter (fun p => decide (b * 65536 ≤ p.1) && decide (p.1 < (b + 1) * 65536)
    && p.2.state == TagState.live && !p.2.dup)).map (fun p => slotLine ⟨b, p.1 / 32 % 2048, p.1 % 32⟩ p.2)
  let recorded := (s.dir.ways.filter (fun p => p.2.hstate != HState.free && p.1 / 262144 == b / 16)).map
    (fun p => (BitVec.ofNat 45 (lineOfDir p.2.dtag.toNat (p.1 / 16 % 16384)) : LineIx))
  own ++ recorded.filter (fun l => (s.regionOf l).isSome && s.homeBank l == b)
/-- Second copies that a bank holds of lines of other banks. -/
def State.copiesIn (s : State) (b : Nat) : List Slot :=
  (s.arr.tags.filter (fun p => decide (b * 65536 ≤ p.1) && decide (p.1 < (b + 1) * 65536)
    && p.2.state == TagState.live && p.2.dup)).map (fun p => ⟨b, p.1 / 32 % 2048, p.1 % 32⟩)
/-- One line of the drain of a bank that leaves cache mode: clean and invalidate, and the second copies released (R61). -/
def State.drainLine (s : State) (n b : Nat) (a : RangeAct) (h : Half) : State :=
  if shelfHalf (b / 16) ≠ h then s.rangeHalfDone n h else
  if !s.shelfUp (b / 16) then s.askWake (b / 16) else
  match s.copiesIn b, s.drainLines b with
  | x :: _, _ =>
    (match s.slotOf (slotLine x (s.tag x)) with
      | some y => s.cleanSlot y srcWriteback (.clean b)
      | none => s).setTag x Tag.empty
  | [], [] => s.rangeHalfDone n h
  | [], ls =>
    let req := fun (l : LineIx) => mkReq .callIn (.maint n) l (s.slotCone l)
    match ls.find? (fun l => s.mayProcess a.order h l.toNat && s.mayMaintain (req l)) with
    | some l => s.maintain (req l) none
    | none => s.askWake (b / 16)

/-- RANGE_LINE_OP: a half part processes its next line, or ends. -/
def execRangeLineOp (slot : Fin 16) (half : Half) (s : State) : Host.Outcome State Fault Refusal :=
  let n := slot.val
  State.done (match tget none s.ranges.slots n with
    | none => s
    | some a =>
      if a.isDone half || s.quenching || s.rangeBusy n half then s else
      match a.kind with
      | .bankClean b => s.bankLine n b a half
      | .drain => (match a.parts.drop (a.part half) with
        | .bank b :: _ => s.drainLine n b a half
        | _ => s.rangeLine n a half)
      | _ => s.rangeLine n a half)

/-- CACHE_EN and INV_DONE of a cleaned bank read 0 (R118). -/
def State.bankOff (s : State) (b : Nat) : State :=
  s.modShelf (b / 16) (fun h => { h with bankEn := setBit h.bankEn (b % 16) false, cleaning := setBit h.cleaning (b % 16) false,
                                         invDone := setBit h.invDone (b % 16) false })

/-- The activity of slot n ends: its slot is free, and its ticket is performed (R122, R111, R383). -/
def State.rangeEnd (s : State) (n : Nat) : State :=
  match tget none s.ranges.slots n with
  | none => s
  | some a =>
    if !a.doneA || !a.doneB || s.awaits (.range n) || s.rangeBusy n .a || s.rangeBusy n .b then s else
    let free : State := { s with ranges := { s.ranges with slots := tdel s.ranges.slots n } }
    match a.kind, a.ctx with
    | .bankClean b, _ =>
      if s.awaits (.clean b) then s
      else if s.dirtySlots b = [] then free.bankOff b
      else { s with ranges := { s.ranges with slots := tset none s.ranges.slots n (some { a with doneA := false, doneB := false }) } }
    | .drain, _ => if a.parts.any (fun p => match p with
        | .bank b => s.awaits (.clean b)
        | .region _ _ => false) then s else free
    | _, some c =>
      match a.refused with
      | some l => free.endCtx c stCeiling (BitVec.ofNat 64 (l * 128))
      | none => free.finishCtx c 0
    | _, none => free

/-- RANGE_ACTIVITY_DONE: both half parts have finished. -/
def execRangeActivityDone (slot : Fin 16) (s : State) : Host.Outcome State Fault Refusal := State.done (s.rangeEnd slot.val)

/-! ### Bank cleans and tag invalidates (R118, R119) -/

def State.localBit (s : State) (b : Nat) (f : Shelf → BitVec 16) : Bool := (f (s.shelf (b / 16))).getLsbD (b % 16)
/-- BANK_CFG_ERR of a bank. -/
def State.bankCfgErr (s : State) (b : Nat) : State := s.event 0x0403 (b / 16) [b % 16]

/-- A 1-to-0 write of a CACHE_EN bit. -/
def State.cacheOff (s : State) (b : Nat) : State :=
  if s.cfg.mode b ≠ modeCache || !s.active || !s.localBit b Shelf.bankEn || s.localBit b Shelf.cleaning then s
  else if s.arr.tags.any (fun p => p.1 / 65536 == b && p.2.pin) then s.bankCfgErr b
  else (s.modShelf (b / 16) (fun h => { h with cleaning := setBit h.cleaning (b % 16) true })).rangeWait
    (newRange (.bankClean b) 0 0 none)
/-- A write of 1 to a CACHE_EN bit. -/
def State.cacheOn (s : State) (b : Nat) : State :=
  if s.cfg.mode b ≠ modeCache || !s.active || s.localBit b Shelf.bankEn || s.localBit b Shelf.cleaning
      || s.localBit b Shelf.retired then s
  else if s.localBit b Shelf.invDone then s.modShelf (b / 16) (fun h => { h with bankEn := setBit h.bankEn (b % 16) true })
  else s.bankCfgErr b
/-- A write of 1 to a TAG_INV bit. -/
def State.tagInvStart (s : State) (b : Nat) : State :=
  if s.cfg.mode b ≠ modeCache || !s.active || s.localBit b Shelf.bankEn || s.localBit b Shelf.cleaning then s
  else s.modShelf (b / 16) (fun h => { h with tagInv := setBit h.tagInv (b % 16) true })

/-- BANK_CLEAN_DONE: every dirty line of the bank has been written back. -/
def execBankCleanDone (bank : Fin 256) (s : State) : Host.Outcome State Fault Refusal :=
  State.done (match s.ranges.slots.find? (fun p => match p.2 with
      | some a => a.kind == .bankClean bank.val
      | none => false) with
    | some p => s.rangeEnd p.1
    | none => s)
/-- TAG_INV_DONE. -/
def execTagInvDone (bank : Fin 256) (s : State) : Host.Outcome State Fault Refusal :=
  let b := bank.val
  .next (if s.localBit b Shelf.tagInv then
      (s.tagInvalidate b).modShelf (b / 16) (fun h => { h with tagInv := setBit h.tagInv (b % 16) false
                                                               invDone := setBit h.invDone (b % 16) true })
    else s)

/-! ### By-address operations (R127) -/

/-- Window address of GLB_LINEOP_CTRL. -/
def lineopCtrl : Nat := 0x00058

/-- The operation acts on its line, if nothing holds it. A line that is not homed here, or fenced, is left alone
(log 44). One that has not acted when a quench comes acts after the restart (log 48). -/
def State.lineopAct (s : State) : State :=
  match s.ranges.lineop with
  | none => s
  | some o =>
    let acted : State := { s with ranges := { s.ranges with lineop := some { o with acted := true } } }
    let r := mkReq .callIn .lineop o.line (s.slotCone o.line)
    let h := shelfHalf (s.homeShelf o.line)
    if o.acted || s.quenching then s
    else if (s.regionOf o.line).isNone || s.roleAt (lineAddr o.line) = .fenced then acted
    else if !s.mayProcess o.order h o.line.toNat then s
    else if !s.mayMaintain r then s.askWake (s.homeShelf o.line)
    else acted.maintain r none

/-- A write of OP to GLB_LINEOP_CTRL. -/
def State.lineopStart (s : State) (k : RangeKind) : State :=
  if !s.active then s
  else if s.ranges.lineop.isSome then s.event 0x1501 srcSlice [lineopCtrl]
  else
    let o : LineOp := ⟨k, lineIx s.ranges.addr.toNat, s.ranges.next, false⟩
    ({ s with ranges := { s.ranges with lineop := some o, next := s.ranges.next + 1 } }).lineopAct

/-- LINEOP_DONE: BUSY clears once the operation has acted and its writeback is acknowledged. -/
def execLineopDone (s : State) : Host.Outcome State Fault Refusal :=
  let s1 := s.lineopAct
  State.done (match s1.ranges.lineop with
    | some o =>
      if o.acted && !s1.home.txns.any (fun t => t.req.who == .lineop) && !s1.awaits .lineop then
        { s1 with ranges := { s1.ranges with lineop := none } }
      else s1
    | none => s1)

end Sys2Proof.Machine
end

