-- ==== Sys2Proof/Machine/AgentRows.lean ====
section
/-! DEFINITION. The agent table: join, leave with its walk, and read (R150 to R153, R158, R194). -/
namespace Sys2Proof.Machine

/-- Window address of GLB_AGENT_CTRL. -/
def agentCtrl : Nat := 0x00088

/-- Members of a group. -/
def State.groupSize (s : State) (g : Nat) : Nat :=
  (s.agents.table.filter (fun p => p.2.st != .no && Agent.group p.2 == g)).length
/-- The group that a join with configuration `cfg` takes (R152). -/
def State.joinGroup (s : State) (cfg : BitVec 21) : Nat :=
  if cfg.getLsbD 12 then (minBy s.groupSize (List.range 64)).getD 0 else bits cfg.toNat 11 6

def State.agentResult (s : State) (r : BitVec 3) : State := { s with agents := { s.agents with result := r } }
/-- OP written to GLB_AGENT_CTRL while an operation runs is ignored with an event. -/
def State.agentBusy (s : State) : State := s.event 0x1501 srcSlice [agentCtrl]

/-- OP 1: the checks in the order of R151, then the tables are updated. -/
def State.agentJoin (s : State) : State :=
  let c := s.agents.cfg
  if s.agents.busy then s.agentBusy
  else if !s.active then s.agentResult 2
  else if (s.agent s.agents.id).st ≠ .no then s.agentResult 1
  else if bits c.toNat 5 0 = 0 || (c.getLsbD 20 && (c.getLsbD 13 || c.getLsbD 14)) then s.agentResult 3
  else
    let g := s.joinGroup c
    let cfg := BitVec.ofNat 21 (c.toNat - bits c.toNat 11 6 * 64 + g * 64)
    let s1 := s.setAgent s.agents.id ⟨.joining, cfg, none⟩
    { s1 with agents := { s1.agents with busy := true, op := 1, opId := s1.agents.id } }

/-- Lines whose entry names an agent as owner or exact sharer. -/
def State.namedLines (s : State) (id : AgentId) : List LineIx :=
  s.dir.ways.filterMap (fun p =>
    let l : LineIx := BitVec.ofNat 45 (lineOfDir p.2.dtag.toNat (p.1 / 16 % 16384))
    if (p.2.ownerId == some id || p.2.exactSharer id) && s.homeShelf l == p.1 / 262144 then some l else none)
/-- Requests of the leave walk for an agent that are still under way. -/
def State.walkOpen (s : State) (id : AgentId) : List Req :=
  (s.home.cq ++ s.home.vc ++ s.home.held ++ s.home.txns.map Txn.req).filter (fun r => r.who == .walk && r.target == id)
/-- The walk places a request for every entry that still names the agent (R153, R158). -/
def State.leaveWalk (s : State) (id : AgentId) : State :=
  (s.namedLines id).foldl (fun st l =>
    if (st.walkOpen id).any (fun r => r.line == l) then st
    else st.placeOwn { mkReq .callIn .walk l (st.slotCone l) with target := id }) s

/-- OP 2. -/
def State.agentLeave (s : State) : State :=
  let id := s.agents.id
  if s.agents.busy then s.agentBusy
  else if (s.agent id).st ≠ .yes then s.agentResult 4
  else
    let s1 := s.setAgent id { s.agent id with st := .leaving }
    ({ s1 with agents := { s1.agents with busy := true, op := 2, opId := id } }).spreadAgents.leaveWalk id

/-- OP 3: the entry is copied to GLB_AGENT_CFG. -/
def State.agentRead (s : State) : State :=
  let a := s.agent s.agents.id
  if s.agents.busy then s.agentBusy
  else if a.st = .no then s.agentResult 4
  else { s with agents := { s.agents with cfg := a.cfg, result := 0 } }

/-- AGENT_OP_DONE: every awake shelf has the new entry, or the walk and its transactions are done; the operation is that of the ID it
was started for (R37, R151, R153). -/
def execAgentOpDone (s : State) : Host.Outcome State Fault Refusal :=
  let id := s.agents.opId
  let fin := fun (st : State) => { st with agents := { st.agents with busy := false, op := 0, result := 0 } }.spreadAgents
  State.done (
    if !s.agents.busy then s
    else if s.agents.op = 1 then fin (s.setAgent id { s.agent id with st := .yes })
    else if !(s.walkOpen id).isEmpty then s
    else if !(s.namedLines id).isEmpty then s.leaveWalk id
    else fin (s.setAgent id Agent.absent))

end Sys2Proof.Machine
end

