-- ==== Sys2Proof/Machine/FwRows.lean ====
section
/-! DEFINITION. The firmware handover's commands; a coolant stop pauses its steps (R396 to R400) and the fuse burns (R399, R449). -/
namespace Sys2Proof.Machine

/-- FW_VERIFY_DONE: the first failing check of R396 ends the command; else the activation has begun, and its parts are
copied into the inactive banks (R375, R397). -/
def State.verified (s : State) : State :=
  match s.fw.verifying, s.fw.ctx with
  | true, some c =>
    match s.verify with
    | some (st, d) => (s.fwHistory st).activateEnd c st d
    | none => ({ s with fw := { s.fw with verifying := false, step := 1 } }).modCtx c (fun x => { x with begun := true })
  | _, _ => s
def execFwVerifyDone (s : State) : Host.Outcome State Fault Refusal :=
  if s.quenching then .next s else State.done s.verified

/-- FW_LOAD_DONE: the inactive banks hold the image, and the standby core boots it (R397). -/
def execFwLoadDone (s : State) : Host.Outcome State Fault Refusal :=
  .next (if s.fw.step = 1 ∧ !s.stepPaused then
    { s with fw := { s.fw with step := 2, nextImage := s.staged 0 (imgLen s.fw.header), noStandby := true } } else s)

/-- FW_STANDBY_READY: the new core is ready, and the active one quiesces (R397). -/
def execFwStandbyReady (s : State) : Host.Outcome State Fault Refusal :=
  if s.fw.step = 2 ∧ !s.stepPaused then State.done { s with fw := { s.fw with step := 3, noStandby := s.flt.noStandby } } else .next s

/-- ID of the image's part of type 1. -/
def State.mgmtPart (s : State) : Nat :=
  match s.manifest.find? (fun e => mfType e == 1) with
  | some e => mfId e
  | none => 0

/-- FW_BOOT_FAIL: the activation ends without switching, and the standby core reboots on the active image (R398). -/
def State.bootFailed (s : State) : State :=
  match s.fw.ctx with
  | some c =>
    let s1 : State := { s with fw := { s.fw with bootFail := true, noStandby := true } }
    ((s1.event 0x1101 srcSlice [s.mgmtPart]).fwHistory stBadOp).activateEnd c stBadOp (highDetail s.mgmtPart)
  | none => s
def execFwBootFail (s : State) : Host.Outcome State Fault Refusal :=
  if s.fw.step = 2 ∧ !s.stepPaused then State.done s.bootFailed else .next s

/-- FW_QUIESCE_DONE: the new core has the state store, its mirror protocol is the image's, and the shelves flip
(R373, R397, R400). -/
def State.quiesced (s : State) : State :=
  let fw := { s.fw with step := 4, flipNext := 0, noStandby := true
                        mirrorVer := BitVec.ofNat 8 (imgMirrorVer s.fw.nextImage)
                        mirrorMin := BitVec.ofNat 8 (imgMirrorMin s.fw.nextImage) }
  ({ s with fw := fw }).flipOn
def execFwQuiesceDone (s : State) : Host.Outcome State Fault Refusal :=
  if s.fw.step = 3 ∧ s.fw.pauses ∧ !s.stepPaused then State.done s.quiesced else .next s

/-- FW_FLIP_HOLD_EXPIRY: the shelf admits again; the next one is tried (R397). -/
def execFwFlipHoldExpiry (shelf : Fin 16) (s : State) : Host.Outcome State Fault Refusal :=
  if (s.shelf shelf.val).flipHold then
    let s1 := s.modShelf shelf.val (fun h => { h with flipHold := false })
    State.done (if s1.fw.flipNext = shelf.val + 1 then s1.flipOn else s1)
  else .next s

/-- FW_FLIP_RETRY: 10 µs later the shelf tries again (R397). -/
def execFwFlipRetry (shelf : Fin 16) (s : State) : Host.Outcome State Fault Refusal :=
  if s.fw.step = 4 ∧ !s.stepPaused ∧ shelf.val < s.fw.flipNext ∧ !(s.shelf shelf.val).flipHold then State.done (s.flipTry shelf.val) else .next s

/-- STANDBY_REBOOT_DONE: the old core is the standby; an active core that has failed meanwhile fails over to it
(R397, R398, R400). -/
def State.rebooted (s : State) : State :=
  let s1 : State := { s with fw := { s.fw with noStandby := false, trail := s.fw.trail &&& 31 } }
  if s1.flt.serving then s1 else { s1 with flt := { s1.flt with serving := true } }.failover 1
def execStandbyRebootDone (s : State) : Host.Outcome State Fault Refusal :=
  if s.fw.noStandby && !s.flt.noStandby && !s.flt.retired.contains FaultUnit.mgmtCore && (s.fw.step == 0 || s.fw.step == 6) then State.done s.rebooted else .next s

/-- FUSE_PG_ACK: the bit is burned, and the next one follows until the count is the image's ARB; a burn that fails raises
FW_FUSE_FAIL (R399, R449). -/
def execFusePgAck (err : Bool) (s : State) : Host.Outcome State Fault Refusal :=
  match s.out.fuseBurn with
  | none => .next s
  | some a =>
    let s1 : State := { s with out := { s.out with fuseBurn := none } }
    if err then
      .next ({ s1 with fw := { s1.fw with fuseFail := true, burnTo := 0 } }.event 0x1102 srcSlice [s1.fusedCount])
    else
      let s2 : State := { s1 with boot := { s1.boot with fuses := setBit s1.boot.fuses a.toNat true } }
      .next (if s2.fusedCount < s2.fw.burnTo then s2.burnNext else { s2 with fw := { s2.fw with burnTo := 0 } })

end Sys2Proof.Machine
end

