-- ==== Sys2Proof/Machine/LifeOps.lean ====
section
/-! DEFINITION. The Life Record (R344 to R346): its layout, the journal write, the slot chosen at reset, and the units that
its history names. -/
namespace Sys2Proof.Machine

/-! ### Layout (R344, R345) -/

def lifeJournal (slot : Nat) : Nat := 0x1000 + 0x2000 * slot
def lifeHist (k : Nat) : Nat := 0x11000 + 32 * (k % 1152)
def lifeFw (k : Nat) : Nat := 0x1A000 + 64 * (k % 256)

/-- n bytes of the Life Record. -/
def State.lifeAt (s : State) (off n : Nat) : List Byte := (List.range n).map (fun i => tget 0 s.life.bytes (off + i))
/-- Write bytes of the Life Record. -/
def putLife (t : List Host.Cell) (off : Nat) (bs : List Byte) : List Host.Cell :=
  bs.zipIdx.foldl (fun t p => tset 0 t (off + p.2) p.1) t

/-- Half of a physical bank: 256 + s is the spare bank of shelf s (log 13). -/
def bankHalf (p : Nat) : Nat :=
  match shelfHalf (if p < 256 then p / 16 else p - 256) with
  | .a => 0
  | .b => 1
/-- Stress-hours of a physical bank in a bin (R345, R403). -/
def State.stressHours (s : State) (p v : Nat) : Nat :=
  (tget 0 s.life.stress (4 * p + v)).toNat + tget 0 s.life.stressMs (4 * bankHalf p + v) / 3600000

/-- A table of 16 counts. -/
def counts16 (t : Table Word) : List Byte := (List.range 16).flatMap (fun k => bytesLE 4 (tget 0 t k).toNat)
def zeroBytes (n : Nat) : List Byte := List.replicate n 0

/-- The journal slot's contents, with its digest. -/
def State.journal (s : State) (seq hist fw : Nat) : List Byte :=
  let l := s.life
  let head := bytesLE 4 seq ++ bytesLE 4 l.age.toNat ++ bytesLE 4 l.poh.toNat ++ bytesLE 4 l.arb.toNat
    ++ bytesLE 4 hist ++ bytesLE 4 fw ++ zeroBytes 8
  let stress := (List.range 272).flatMap (fun p => (List.range 4).flatMap (fun v => bytesLE 4 (s.stressHours p v)))
  let body := head ++ counts16 l.trans ++ counts16 l.lasting ++ counts16 l.spares ++ stress ++ zeroBytes (0x1FD0 - 0x11E0)
  body ++ sha384 body

/-! ### Writing (R346) -/

/-- The journal write: the next slot and the entries accumulated since the last write. -/
def State.lifeWrite (s : State) : State :=
  let l := s.life
  let slot := l.slot + 1
  let nh := (l.histNext.toNat + l.hist.length) % 1152
  let nf := (l.fwNext.toNat + l.fwHist.length) % 256
  let seq := l.writeSeq + 1
  let b1 := l.hist.zipIdx.foldl (fun t p => putLife t (lifeHist (l.histNext.toNat + p.2)) (bytesLE 32 p.1.toNat)) l.bytes
  let b2 := l.fwHist.zipIdx.foldl (fun t p => putLife t (lifeFw (l.fwNext.toNat + p.2)) (bytesLE 64 p.1.toNat)) b1
  let bytes := putLife b2 (lifeJournal slot.toNat) (s.journal seq.toNat nh nf)
  { s with life := { l with bytes := bytes, slot := slot, writeSeq := seq, histNext := BitVec.ofNat 32 nh
                            fwNext := BitVec.ofNat 32 nf, hist := [], fwHist := [], changed := false } }

/-- n words of free bytes. -/
def State.freeBytes (s : State) : Nat → List Byte × State
  | 0 => ([], s)
  | n + 1 =>
    let (v, s1) := s.draw
    let (bs, s2) := s1.freeBytes n
    (bytesLE 8 v.toNat ++ bs, s2)

/-- The contents of a slot whose write failed: free bytes (log 7) that do not verify. -/
def badSlot (bs : List Byte) : List Byte :=
  if sha384 (bs.take 0x1FD0) == bs.drop 0x1FD0 then bs.take 0x1FD0 ++ (bs.drop 0x1FD0).map (~~~ ·) else bs
/-- A write that fails verification: the slot's contents are free, the next write uses the next slot, and what
accumulated is kept for it. -/
def State.lifeFail (s : State) : State :=
  let slot := s.life.slot + 1
  let (fs, s1) := s.freeBytes 1024
  let bs := badSlot fs
  { s1 with life := { s1.life with bytes := putLife s1.life.bytes (lifeJournal slot.toNat) bs, slot := slot
                                   writeSeq := s1.life.writeSeq + 1, fail := true } }.event 0x0E0A srcSlice [slot.toNat]

/-! ### The slot chosen at reset (R346) -/

/-- The digest of a slot verifies. -/
def State.slotOk (s : State) (k : Nat) : Bool :=
  let bs := s.lifeAt (lifeJournal k) 0x2000
  sha384 (bs.take 0x1FD0) == bs.drop 0x1FD0
/-- WRITE_SEQ of a slot. -/
def State.slotSeq (s : State) (k : Nat) : Nat := leNat (s.lifeAt (lifeJournal k) 4)
/-- The slot with the highest WRITE_SEQ whose digest verifies. -/
def State.lifeChoice (s : State) : Option Nat :=
  minBy (fun k => 2 ^ 32 - s.slotSeq k) ((List.range 8).filter s.slotOk)

/-- A table of 32-bit counts read from bytes. -/
def readCounts (bs : List Byte) (n : Nat) : Table Word :=
  (List.range n).foldl (fun t k => tset 0 t k (BitVec.ofNat 32 (leAt bs (4 * k) 4))) []

/-- The working counts are those of the slot chosen; without one they are 0 (log 12). -/
def State.lifeTake (s : State) : State :=
  match s.lifeChoice with
  | none => s
  | some k =>
    let bs := s.lifeAt (lifeJournal k) 0x2000
    let w := fun (o : Nat) => BitVec.ofNat 32 (leAt bs o 4)
    let fw := leAt bs 0x14 4
    let lastFw := s.lifeAt (lifeFw (fw + 255)) 4
    let hn := leAt bs 0x10 4
    let lastLog := s.lifeAt (lifeHist (hn + 1151)) 32
    let life := { s.life with
      slot := BitVec.ofNat 3 k, writeSeq := w 0, age := w 4, poh := w 8, arb := w 12, histNext := w 0x10, fwNext := w 0x14
      fwSeq := BitVec.ofNat 32 (leNat lastFw + 1), trans := readCounts (slice bs 0x20 64) 16
      lasting := readCounts (slice bs 0x60 64) 16, spares := readCounts (slice bs 0xA0 64) 16
      stress := readCounts (slice bs 0xE0 4352) 1088 }
    { s with life := life, flt := { s.flt with logSeq := BitVec.ofNat 32 (leAt lastLog 28 4) } }

/-! ### History (R337, R342, R455) -/

/-- The unit that a fault-log entry names, by KIND, UNIT and ELEMENT (R330, R342): of those that can be spared. An entry of a word of
the management state store does not name the word (log 70). -/
def entryUnit (e : List Byte) : Option FaultUnit :=
  let u := leAt e 4 2
  let x := leAt e 6 2
  match leAt e 0 1 with
  | 0x01 => if u < 272 ∧ x < 2080 then some (.mat (Fin.ofNat _ u) (Fin.ofNat _ x) []) else none
  | 0x02 => if u < 272 ∧ x < 2064 then some (.tagRow (Fin.ofNat _ u) (Fin.ofNat _ x)) else none
  | 0x03 => if u < 16384 ∧ x / 4096 < 16 ∧ x % 4096 < 18 then
      some (.dirWay (Fin.ofNat _ (x / 4096)) (Fin.ofNat _ u) (Fin.ofNat _ (x % 4096))) else none
  | 0x04 => if u < 272 ∧ x = 0 then some (.bank (Fin.ofNat _ u)) else none
  | 0x06 => if u < 2 ∧ x < 18 then some (.farLane (Fin.ofNat _ u) (Fin.ofNat _ x)) else none
  | 0x07 => if u < 16 ∧ x < 64 then some (.auuLane (Fin.ofNat _ u) (Fin.ofNat _ x)) else none
  | 0x08 => if u < 272 then some (.periphery (Fin.ofNat _ u)) else none
  | 0x09 => if x = 0 then some .mgmtCore else none
  | 0x0A => if u < 2 then some (.sequencer (if u = 0 then .a else .b)) else none
  | _ => none
/-- The units of the history, in its order. A place named twice has lost its first unit and the spare that served after it. -/
def State.historyUnits (s : State) : List FaultUnit :=
  (List.range 1152).filterMap (fun k => entryUnit (s.lifeAt (lifeHist (s.life.histNext.toNat + k)) 32))

/-! ### Identity (R344) -/

/-- At first power the identity area holds nothing yet: the part ID, the revision and this power-on's POH and STAMP are written, once.
The spec gives no offsets within the area (log 73). -/
def State.lifeIdentity (s : State) : State :=
  let bs := bytesLE 4 Config.partId.toNat ++ bytesLE 4 Config.siliconRev.toNat ++ bytesLE 4 s.life.poh.toNat ++ zeroBytes 4
    ++ bytesLE 8 s.ckp.eclk
  if (s.lifeAt 0 32).any (· != 0) then s else { s with life := { s.life with bytes := putLife s.life.bytes 0 bs } }

/-- Hours of the ember clock: AGE_HOURS, and POWER_ON_HOURS when a half was clocked (R345). -/
def State.hours (s : State) (n : Nat) : State :=
  let l := s.life
  let on := l.clocked || (s.half .a).st == .awake || (s.half .b).st == .awake
  let eclk := s.ckp.eclk + n
  let s1 := { s with ckp := { s.ckp with eclk := eclk } }
  if eclk / hourCycles = s.ckp.eclk / hourCycles then { s1 with life := { l with clocked := on } }
  else { s1 with life := { l with age := l.age + 1, poh := if on then l.poh + 1 else l.poh, clocked := false, changed := true } }

end Sys2Proof.Machine
end

