-- ==== Sys2Proof/Machine/FaultRows.lean ====
section
/-! DEFINITION. Faults at run time: the wedging pass and SCRUB (R341, R337), sparing's end (R335), storms (R330), the
heartbeat (R338), the Life Record's write (R346). -/
namespace Sys2Proof.Machine

/-! ### The wedging pass (R341, R125) -/

/-- Rows of a bank with its spares, and of a directory slice. -/
def bankRows : Nat := 66560
def dirRows : Nat := 73728

/-- The pass skips this shelf. -/
def State.wedgeSkips (s : State) (sh : Nat) : Bool := s.ckp.doze.getLsbD sh || (s.half (shelfHalf sh)).st != .awake
/-- The pass takes no cycle of this physical bank: its shelf sleeps, or the bank that it serves as fires, or has an operation of a
range activity pending. -/
def State.bankSkips (s : State) (p : Nat) : Bool :=
  s.wedgeSkips (bankShelf p) || (s.bankServed p).any (fun b => s.bankFires b || s.rangePending b)

/-- Read one more row of unit k of n rows, unless it is skipped or has been read whole. -/
def readRow (skip : Bool) (n k : Nat) (t : Table Nat) : Table Nat :=
  if skip || decide (n ≤ tget 0 t k) then t else tset 0 t k (tget 0 t k + 1)
/-- One interval over the given banks. -/
def State.readBanks (s : State) (bs : List Nat) (t : Table Nat) : Table Nat :=
  bs.foldl (fun t b => readRow (s.bankSkips b) bankRows b t) t
def allRead (bs : List Nat) (t : Table Nat) : Bool := bs.all (fun b => decide (bankRows ≤ tget 0 t b))

/-- The background pass: one row of every bank and of every directory slice; a pass over the whole slice ends with all of
them read (R337, R341). -/
def State.wedge (s : State) : State :=
  if !s.flt.wedgeEn then s else
  let banks := List.range 272
  let dirs := List.range 16
  let t := dirs.foldl (fun t sh => readRow (s.wedgeSkips sh) dirRows (272 + sh) t) (s.readBanks banks s.flt.rows)
  if allRead banks t && dirs.all (fun sh => decide (dirRows ≤ tget 0 t (272 + sh))) then
    { s with flt := { s.flt with rows := [], passes := s.flt.passes + 1 } }.testsDone
  else { s with flt := { s.flt with rows := t } }

/-- The physical banks that serve as the banks that a SCRUB names (R18, R299). -/
def State.scrubBanks (s : State) (d : BitVec 512) : List Nat := (List.range (dField d 18 2)).map (fun k => s.physBank (k + dField d 16 2))
/-- Every SCRUB reads a row of each of its banks, and completes when it has read them all (R299, R341). -/
def State.scrubStep (s : State) : State :=
  let on := fun (p : Nat × Table Nat) =>
    let bs := s.scrubBanks (s.ctx p.1).desc
    (p.1, s.readBanks bs p.2, bs)
  let next := s.flt.scrubs.map on
  let done := next.filter (fun p => allRead p.2.2 p.2.1)
  let left := (next.filter (fun p => !allRead p.2.2 p.2.1)).map (fun p => (p.1, p.2.1))
  done.foldl (fun st p => st.endCtx p.1 stOk 0) { s with flt := { s.flt with scrubs := left } }

/-- What the read finds: nothing, a transient, a lasting fault, or the failed test of a unit out of service (R329, R337). A row that
fails its parity is read once more (R16, R328). -/
def State.finding (s : State) (f : Finding) : State :=
  match f with
  | .pass => s
  | .transient u => s.transient u
  | .lasting u => s.lastingFault u
  | .failedTest u =>
    { s with flt := { s.flt with testing := s.flt.testing.map (fun t => if t.unit == bare u then { t with bad := true } else t) } }
  | .reads u first second => if rowOk first then s else if rowOk second then s.transient u else s.lastingFault u

/-- WEDGING_READ: one interval is over. A fault found by any other consumer of a word takes this command as well
(R327, log 32). -/
def execWedgingRead (found : Finding) (s : State) : Host.Outcome State Fault Refusal :=
  State.done ((s.wedge.scrubStep).finding found)

/-! ### Sparing, storms, the cores -/

/-- SPARE_DONE: the oldest sparing work ends, and what waited is served (R335). -/
def execSpareDone (s : State) : Host.Outcome State Fault Refusal := State.done s.spareEnd

/-- TRANS_STORM: a bank, a directory slice, a port or an AUU has had STORM transients within an hour; they are counted anew
(R330). -/
def execTransStorm (u : FaultUnit) (s : State) : Host.Outcome State Fault Refusal :=
  .next (match stormUnit u with
    | none => s
    | some v =>
      let mine := fun (p : FaultUnit × Nat) => p.1 == v && decide (s.ckp.eclk < p.2 + hourCycles)
      let n := (s.flt.perUnit.filter mine).length
      if s.flt.storm = 0 ∨ n < s.flt.storm.toNat then s
      else { s with flt := { s.flt with perUnit := s.flt.perUnit.filter (fun p => !mine p) } }.event 0x0E01 srcSlice (unitWords v))

/-- HEARTBEAT_TIMEOUT: the active core is silent, or has a lasting fault; the watch pauses while the management domain is
in retention (R338, R415). -/
def execHeartbeatTimeout (lasting : Bool) (s : State) : Host.Outcome State Fault Refusal :=
  if lasting then State.done (s.lastingFault .mgmtCore)
  else if s.ckp.mgmtRet then .next s
  else if s.alone then .next ((s.retire .mgmtCore).event 0x0E05 srcSlice (unitWords .mgmtCore))
  else State.done (s.failover 2)

/-! ### The Life Record -/

/-- LIFE_RECORD_WRITE: the first hour boundary after a change (R346). -/
def execLifeRecordWrite (verified : Bool) (s : State) : Host.Outcome State Fault Refusal :=
  .next (if !s.life.changed then s else if verified then s.lifeWrite else s.lifeFail)

end Sys2Proof.Machine
end

