-- ==== Sys2Proof/Machine/KilnRows.lean ====
section
/-! DEFINITION. The kiln at run time: passes (R256, R257, R272, R280), the accumulation assembler (R276), streamed inputs (R272),
reloads (R284), peer windows (R259) and the answers of peers (R260). -/
namespace Sys2Proof.Machine

/-- The kiln of a half has its clock: no quench, no coolant stop, the half awake (R285, R363, R422). -/
def State.kilnClocked (s : State) (h : Half) : Bool := !s.quenching && !s.ckp.coolActive && (s.half h).st == .awake
/-- Kiln work of a half goes on: its sequencer is in service too (R281). -/
def State.kilnRuns (s : State) (h : Half) : Bool := s.kilnClocked h && !s.kiln.deadSeqs.contains h

/-- The job at the head of a bank's queue with the pass that comes next, when that pass may start: its whole input is in
the bank's buffer, the output queue has room, no entry of the bank is being reloaded, no spare is being fitted in it (R256,
R257, R261, R283, R284). -/
def State.nextPass (s : State) (b : Nat) : Option (Job × Pass × List Pass) :=
  if !s.kilnRuns (shelfHalf (b / 16)) || s.asleep (b / 16) || s.fitting b then none else
  match s.bankQueue b with
  | [] => none
  | c :: _ => match s.job c with
    | none => none
    | some j =>
      if (s.ctx c).phase != Phase.acting || (s.ctx c).poison.isSome then none else
      match tget [] j.left b with
      | [] => none
      | p :: rest =>
        if s.inputHere j b p.token && s.outRoom b && !s.reloading b then some (j, p, rest) else none

/-- KILN_PASS_START: the bank runs its next pass; its sums leave, and the pass is counted (R256, R274 to R276, R431). -/
def execKilnPassStart (bank : Fin 256) (s : State) : Host.Outcome State Fault Refusal :=
  State.done (match s.nextPass bank.val with
    | none => s
    | some (j, p, rest) =>
      let priv := (s.ring (s.ctx j.ctx).ring).priv.toNat
      (s.firePass j bank.val p rest).count 0x13 ⟨priv, none, none, some (dCone j.desc), none, none⟩ 1)

/-- ACCUM_SLOT_TIMEOUT: the oldest slot of a half's assembler is sent, 64 FCLK cycles after its first sum (R276). -/
def execAccumSlotTimeout (half : Half) (s : State) : Host.Outcome State Fault Refusal :=
  State.done (if !s.kilnClocked half then s else
    match s.asm half with
    | [] => s
    | a :: rest => (s.setAsm half rest).sendSlot a)

/-- STREAM_HEAD_POLL: a job that waits for its producer reads HEAD again (R272). -/
def execStreamHeadPoll (ctx : Fin 256) (s : State) : Host.Outcome State Fault Refusal :=
  State.done (match s.job ctx.val with
    | none => s
    | some j =>
      let waits := j.nextTokens.any (fun t => !j.ready t)
      if frStream j.desc && waits && !j.headReading && !s.quenching && (s.ctx ctx.val).phase == Phase.acting then
        s.askHead ctx.val
      else s)

/-- KILN_RELOAD_DONE: a reload whose source has been read ends (R269, R284). -/
def execKilnReloadDone (entry : Fin 4096) (s : State) : Host.Outcome State Fault Refusal :=
  State.done (s.reloadEnd entry.val)

/-! ### Peer windows (R259, R260) -/

/-- A window of 4 KiB granules lies in the address space, outside the slice's window and outside every cache region. -/
def State.windowOk (s : State) (p : Peer) : Bool :=
  let lo := p.base.toNat
  let hi := lo + p.size.toNat * 4096
  let apart := fun (b n : Nat) => decide (hi ≤ b) || decide (b + n ≤ lo)
  decide (hi ≤ 2 ^ 52) && (p.size == 0 || (apart s.window (2 ^ 31) &&
    s.cfg.regions.all (fun q => !Region.valid q.2 || Region.space q.2 != spCache || apart (Region.base q.2) (Region.size q.2))))

/-- VALID of a window is written 1 (R259). -/
def State.peerOn (s : State) (n : Nat) : State :=
  let ok := s.windowOk (tget Peer.none s.kiln.peers n)
  { s with kiln := { s.kiln with peers := tmod Peer.none s.kiln.peers n (fun p => { p with valid := ok, err := p.err || !ok }) } }

/-- The kiln command that a request to a peer belongs to. -/
def State.kilnAsker (s : State) (r : Req) : Option Nat :=
  let kiln := fun (c : Nat) =>
    let op := dOp (s.ctx c).desc
    if (s.ctx c).phase != Phase.free && (op == opKilnLoad || op == opKilnFire) then some c else none
  match r.who with
  | .cmd c => kiln c
  | .head c => kiln c
  | .input c _ => kiln c
  | .sum c _ => kiln c
  | _ => none

/-- A Poison from a peer ends the kiln command, and the entries it was loading are lost (R260). -/
def State.peerPoison (s : State) (r : Req) : State :=
  match s.kilnAsker r with
  | none => s
  | some c =>
    let x := s.ctx c
    let s1 := s.event 0x0B01 srcSlice (s.ticketOf x.ring x.index :: addrWords (lineAddr r.line))
    if dOp x.desc = opKilnLoad then s1.modCtx c (fun y => { y with stage := 1 }) else s1

/-- PEER_RESPONSE: the peer's answer reaches what asked: a DataS for a read, an Ack for a write, or Poison (R260, R287). An
answer that matches no request changes nothing. -/
def execPeerResponse (h : Hdr) (data : Line) (s : State) : Host.Outcome State Fault Refusal :=
  let t := (Hdr.txn h).toNat
  let code := Hdr.msg h
  State.done (match s.kiln.peerOut.find? (fun p => p.1 == t) with
    | none => s
    | some (_, r) =>
      let ans := if code = mPoison then some Answer.poison
        else if code = mDataS && r.op.isRead then some (.data data)
        else if code = mAck && r.op.isWrite then some (.ack none) else none
      if !headerKeeps h then s.protocolError h else
      match ans with
      | none => s
      | some a =>
        let s := s.coneBytes (Hdr.cone h) (if code = mDataS then 128 else 0)
        let s0 := { s with kiln := { s.kiln with peerOut := dropFirst (fun p => p.1 == t) s.kiln.peerOut } }
        let s1 := match s0.kiln.peerWait with
          | [] => s0
          | (id, q) :: rest => { s0 with kiln := { s0.kiln with peerWait := rest } }.sendPeer id q
        (if a = Answer.poison then s1.peerPoison r else s1).deliver 0 r a)

end Sys2Proof.Machine
end

