-- ==== Sys2Proof/Machine/QuenchRows.lean ====
section
/-! DEFINITION. The cut and the quench as commands: their inputs, waits and steps (R352, R353, R358, R359, R361, R363, R364). -/
namespace Sys2Proof.Machine

/-! ### The cut (R352, R353, R358) -/

/-- EPOCH_INPUT: EPOCH is seen, and step 1 of a cut begins; a cut or a quench that runs goes on (R352, R368). -/
def execEpochInput (s : State) : Host.Outcome State Fault Refusal :=
  State.done (if s.ep.cutStep = 0 ∧ !s.quenching then s.cutBegin else s)

/-- A stripe holds 7/8 of its entries (R358). -/
def State.stripeHigh (s : State) : Bool :=
  (List.range 8).any (fun n => decide (0 < s.capacity) && decide (7 * s.capacity ≤ 8 * tget 0 s.ep.fill n))

/-- FORCED_CLOSE: a stripe has reached 7/8 of its capacity, and the slice asks for a close, in a cut for the one after it, and sets
FORCED (R352, R358). -/
def execForcedClose (s : State) : Host.Outcome State Fault Refusal :=
  State.done (if s.stripeHigh && !s.ep.askForced && !s.quenching then
    { s with ep := { s.ep with forced := true, askForced := true }
             out := { s.out with epochReq := s.out.epochReq || s.ep.cutStep == 0 } }
  else s)

/-- EPOCH_SWEEP_DONE: with no prior-epoch line left and every writeback answered the sweep ends; else it goes on (R353). -/
def execEpochSweepDone (s : State) : Host.Outcome State Fault Refusal :=
  State.done (if !s.ep.sweep || s.quenching then s
    else if !s.priorSlots.isEmpty then s.sweepLines
    else if s.sweepBusy then s
    else { s with ep := { s.ep with sweep := false } })

/-! ### The quench (R359, R363, R364) -/

/-- QUENCH_INPUT: QUENCH is seen; a slice that did not raise a trigger halts (R359, R363). -/
def execQuenchInput (s : State) : Host.Outcome State Fault Refusal :=
  State.done (if s.quenching then s else s.trigger 7)

/-- QUENCH_WAIT_EXPIRY: 20 µs have passed since QUENCH was seen, and step 3 may empty the queues (R363). -/
def execQuenchWaitExpiry (s : State) : Host.Outcome State Fault Refusal :=
  State.done (if !s.halting || s.ep.waited then s else
    let s1 := { s with ep := { s.ep with waited := true } }
    if s1.ep.step = 3 then s1.invalidateAll else s1)

/-- A write of FORCE: a quench with cause 8 (R359). -/
def State.quenchForce (s : State) : State := s.trigger 8
/-- A write of ACCEPT: the Poison answers of an incomplete rollback end (R364). -/
def State.quenchAccept (s : State) : State := { s with ep := { s.ep with incomplete := false } }

/-! ### Steps (R361) -/

/-- QSTEP_DONE is pulsed. -/
def State.pulse (s : State) : State := { s with out := { s.out with qstepDone := true } }

/-- QSTEP_DONE: the step of the running quench or cut is finished, and the slice says so; the last one ends it (R361, R363). -/
def execQstepDone (s : State) : Host.Outcome State Fault Refusal :=
  State.done (
    if s.quenching then
      if s.ep.stepDone || !s.quenchFinished then s
      else if s.ep.step = 7 then s.pulse.quenchEnd.leaseDue
      else { s.pulse with ep := { s.ep with stepDone := true } }
    else if s.ep.cutStep = 0 || s.ep.cutDone || s.stepPaused || !s.cutFinished then s
    else if s.ep.cutStep = 6 then s.pulse.cutClose
    else { s.pulse with ep := { s.ep with cutDone := true } })

/-- The next step of the running quench or cut begins. -/
def State.stepGo (s : State) : State :=
  if s.quenching then (if s.ep.stepDone then s.quenchEnter (s.ep.step + 1) else s)
  else if s.ep.cutStep ≠ 0 ∧ s.ep.cutDone then s.cutEnter (s.ep.cutStep + 1)
  else s
/-- QSTEP_GO: every slice of the domain has finished the step; QSTEP_DONE falls (R451), and the next step begins (R361), after a
coolant stop once that has ended (R368). -/
def execQstepGo (s : State) : Host.Outcome State Fault Refusal :=
  let s1 : State := { s with out := { s.out with qstepDone := false } }
  State.done (if s1.stepPaused then { s1 with ep := { s1.ep with goWaits := true } } else s1.stepGo)
/-- A step that waited for the end of a coolant stop begins. -/
def State.goDue (s : State) : State :=
  if s.ep.goWaits && !s.stepPaused then { s with ep := { s.ep with goWaits := false } }.stepGo else s

end Sys2Proof.Machine
end

