-- ==== Sys2Proof/Machine/ClockRows.lean ====
section
/-! DEFINITION. Clock sources and their recovery (R407 to R409), clock enables (R404, R406), doze and retention (R410 to R415,
R445), the coolant stop (R422, R423). -/
namespace Sys2Proof.Machine

def State.modHalf (s : State) (h : Half) (f : HalfClk → HalfClk) : State := s.setHalf h (f (s.half h))
/-- Shelves of a half. -/
def halfShelves (h : Half) : List Nat := (List.range 8).map (· + 8 * halfIx h)

/-! ### Supplies (R402, R412, R413) -/

/-- HLFh_VREQ: 1 retention, 2 operating. -/
def State.vreq (s : State) (h : Half) (v : BitVec 2) : State :=
  match h with
  | .a => { s with out := { s.out with vreqA := v } }
  | .b => { s with out := { s.out with vreqB := v } }
/-- HLFh_PLLREQ: bit i asks source i to run. -/
def State.pllreq (s : State) (h : Half) (v : BitVec 2) : State :=
  match h with
  | .a => { s with out := { s.out with pllA := v } }
  | .b => { s with out := { s.out with pllB := v } }

/-! ### The source multiplexer (R407 to R409) -/

/-- Window address of a half's clock register. -/
def hlfClkAddr (h : Half) : Nat := 0x01020 + 4 * halfIx h

/-- SEL is written: a switch starts; while one is incomplete the write is ignored (R407). -/
def State.muxSelect (s : State) (h : Half) (sel : Bool) : State :=
  if (s.half h).switching then s.event 0x1203 srcSlice [hlfClkAddr h]
  else s.modHalf h (fun c => { c with sel := sel, switching := true })

/-- MUX_SWITCH_DONE: the new source's pulses pass. -/
def execMuxSwitchDone (half : Half) (s : State) : Host.Outcome State Fault Refusal :=
  .next (s.modHalf half (fun c => if c.switching then { c with switching := false, cur := c.sel } else c))

/-- Recovery of a hung or lost half: a forced quench; the half is in retention, the multiplexer on the other source, and the
half wakes (R409). -/
def State.recoverHalf (s : State) (h : Half) : State :=
  let s1 := s.modHalf h (fun c => { c with st := .retained, acks := [], switching := false, cur := !c.cur, recovering := true
                                           wakeAsked := true })
  ((s1.dropSlp h).vreq h 1).quenchForce
/-- It starts now, or after a coolant stop (R409, R424). -/
def State.recoverDue (s : State) (h : Half) : State :=
  if s.ckp.coolActive then s.modHalf h (fun c => { c with recovering := true }) else s.recoverHalf h

/-- MUX_HUNG: the switch is still incomplete after 1,024 ECLK cycles (R408). -/
def execMuxHung (half : Half) (s : State) : Host.Outcome State Fault Refusal :=
  if (s.half half).switching then
    let s1 := s.modHalf half (fun c => { c with hung := true })
    State.done ((s1.event 0x1204 (srcHalf half) [halfIx half]).recoverDue half)
  else .next s

/-- The other source is dead as well: the half's backing ports are lost (R409). -/
def State.backingDead (s : State) (h : Half) : State :=
  (List.range 4).foldl (fun st k =>
    let u := FaultUnit.backingPort (Fin.ofNat 8 (4 * halfIx h + k))
    { st with flt := { st.flt with portsDown := st.flt.portsDown ++ [u, u] } }.event 0x0E07 srcSlice (unitWords u)) s

/-- FCLK_LOST: no pulse in 64 ECLK cycles while the half should be clocked (R408, R409). -/
def execFclkLost (half : Half) (s : State) : Host.Outcome State Fault Refusal :=
  let c := s.half half
  let s1 := (s.modHalf half (fun c => { c with lost := true })).event 0x1205 (srcHalf half) [halfIx half]
  if c.recovering ∧ c.st ≠ .awake then State.done (s1.backingDead half)
  else if c.st = .awake ∨ c.st = .asking then State.done (s1.recoverDue half)
  else .next s

/-! ### Clock enables (R404, R406) -/

/-- A write to CKP_CLKEN0 or CKP_CLKEN1: a 0 for a locked bit is ignored with CLKEN_LOCKED. -/
def State.clkenWrite (s : State) (second : Bool) (v : Word) : State :=
  let k := s.ckp
  let e0 := if second then k.clken0 else v.truncate 16 ||| k.lock0
  let e1 := if second then (v.truncate 22 &&& 0x3FFF7F#22) ||| k.lock1 else k.clken1
  let bad := if second then k.lock1 &&& ~~~(v.truncate 22) != 0 else k.lock0 &&& ~~~(v.truncate 16) != 0
  let s1 := s.setEnables e0 e1
  if bad then s1.event 0x1203 srcSlice [if second then 0x01014 else 0x01010] else s1

/-! ### Doze (R32, R410) -/

/-- What bars a shelf from dozing (R32). -/
def State.dozeBar (s : State) (sh : Nat) : Bool :=
  let mine := fun (b : Nat) => b / 16 == sh
  s.kiln.jobs.any (fun j => j.left.any (fun p => mine p.1 && !p.2.isEmpty))
  || s.kiln.progress.any (fun p => mine p.1 && p.2.isSome) || s.kiln.queues.any (fun p => mine p.1 && s.bankFires p.1)
  || s.ranges.slots.any (fun p => match p.2 with
    | some a => (match a.kind with
      | .bankClean b => mine b
      | .drain => a.parts.any (fun q => match q with
        | .bank b => mine b
        | .region base len => (List.range len).any (fun k => s.homeShelf (BitVec.ofNat 45 (base + k)) == sh))
      | _ => (List.range a.len).any (fun k => s.homeShelf (BitVec.ofNat 45 (a.base + k)) == sh))
    | none => false)
  || s.dir.ways.any (fun p => p.1 / 262144 == sh && p.2.t)
  || s.back.miss.any (fun m => mine m.bank)
  || s.home.txns.any (fun t => s.homeShelf t.req.line == sh)
/-- Something waits for the shelf: it is not idle (R410). -/
def State.shelfWanted (s : State) (sh : Nat) : Bool :=
  (s.home.cq ++ s.home.vc ++ s.home.held).any (fun r => s.bankOf r.line / 16 == sh)
  || s.home.bridge.any (fun c => match c.2 with
    | .put _ h _ => s.homeShelf (Hdr.line h) == sh
    | .answer h _ => s.homeShelf (Hdr.line h) == sh
    | .out _ _ => false)

/-- SHELF_DOZE: the shelf has been idle for IDLE cycles. -/
def execShelfDoze (shelf : Fin 16) (s : State) : Host.Outcome State Fault Refusal :=
  let sh := shelf.val
  if s.ckp.dozeIdle ≠ 0 ∧ (s.half (shelfHalf sh)).st = .awake ∧ !s.dozeBar sh ∧ !s.shelfWanted sh then
    .next { s with ckp := { s.ckp with doze := setBit s.ckp.doze sh true } }
  else .next s

/-- A shelf is awake; one that dozed counts event 0x19 (R431). -/
def State.shelfAwake (s : State) (sh : Nat) : State :=
  if s.ckp.doze.getLsbD sh then
    { s with ckp := { s.ckp with doze := setBit s.ckp.doze sh false } }.count 0x19 Attr.internal 1
  else s
/-- SHELF_WAKE_DONE: the shelf serves what waited. -/
def execShelfWakeDone (shelf : Fin 16) (s : State) : Host.Outcome State Fault Refusal :=
  if s.ckp.doze.getLsbD shelf.val ∧ (s.half (shelfHalf shelf.val)).st = .awake then
    State.done ((s.shelfAwake shelf.val).releaseHeld)
  else .next s

/-! ### Half retention (R411, R412, R445) -/

/-- The enabled ports of a half (R404, R411). -/
def State.enabledPorts (s : State) (h : Half) : List SleepPort :=
  let on := fun (i : Nat) => s.ckp.clken1.getLsbD i
  let all : List SleepPort :=
    (if on (halfIx h) then (List.range 32).map (fun n => SleepPort.agent (Fin.ofNat 32 n)) else [])
    ++ ((List.range 8).filter (fun n => on (8 + n))).map (fun n => SleepPort.backing (Fin.ofNat 8 n))
    ++ ((List.range 4).filter (fun n => on (16 + n))).map (fun n => SleepPort.near (Fin.ofNat 4 n))
    ++ ((List.range 2).filter (fun n => on (20 + n))).map (fun n => SleepPort.far (Fin.ofNat 2 n))
  all.filter (fun p => sleepHalf p == h)

/-- What lets a half try retention (R411); a shelf that something waits for is not idle. -/
def State.retMay (s : State) (h : Half) : Bool :=
  s.ckp.retCfg.getLsbD (16 + halfIx h) && (s.half h).st == .awake && !s.ckp.coolActive && !(s.half h).switching
  && (halfShelves h).all (fun sh => s.ckp.doze.getLsbD sh && !s.dozeBar sh && !s.shelfWanted sh)
  && !(s.cfg.pairEn && s.pair.ports.getLsbD (halfIx h))

/-- Every port has granted sleep: the entry proceeds. -/
def State.askDone (s : State) (h : Half) : State :=
  let c := s.half h
  if c.st = .asking ∧ (s.enabledPorts h).all (fun p => c.acks.contains p) then s.setHalf h { c with st := .entering } else s

/-- HALF_RETENTION_START: every shelf has dozed for IDLE_US µs; the ports are asked to sleep. -/
def execHalfRetentionStart (half : Half) (s : State) : Host.Outcome State Fault Refusal :=
  if s.retMay half then
    let s1 := s.modHalf half (fun c => { c with st := .asking, acks := [], wakeAsked := false })
    .next ({ s1 with out := { s1.out with slpReq := s1.out.slpReq ++ s1.enabledPorts half } }.askDone half)
  else .next s

/-- X_SLP_ACK: a port's partner grants sleep. -/
def execXSlpAck (port : SleepPort) (s : State) : Host.Outcome State Fault Refusal :=
  let h := sleepHalf port
  if (s.half h).st = .asking then .next ((s.modHalf h (fun c => { c with acks := c.acks ++ [port] })).askDone h) else .next s
/-- X_SLP_NAK: it refuses, and the attempt ends. -/
def execXSlpNak (port : SleepPort) (s : State) : Host.Outcome State Fault Refusal :=
  .next (if (s.half (sleepHalf port)).st = .asking then s.stayAwake (sleepHalf port) else s)

/-- A spare is being fitted in a half: retention waits for it (R347). -/
def State.fittingIn (s : State) (h : Half) : Bool :=
  s.flt.work.any (fun w => match w.unit with
    | .mat b _ _ => shelfHalf (bankShelf b.val) == h
    | .bank b => shelfHalf (bankShelf b.val) == h
    | .periphery b => shelfHalf (bankShelf b.val) == h
    | .tagRow b _ => shelfHalf (bankShelf b.val) == h
    | .dirWay sh _ _ => shelfHalf sh.val == h
    | .auuLane sh _ => shelfHalf sh.val == h
    | .farLane n _ => (Port.far n).half == h
    | .sequencer k => k == h
    | _ => false)
/-- RETENTION_ENTRY_DONE: FCLK has stopped and the supply is at the retention level, with sparing in the half complete (R347). -/
def execRetentionEntryDone (half : Half) (s : State) : Host.Outcome State Fault Refusal :=
  if (s.half half).st = .entering ∧ !s.fittingIn half then
    .next (((s.modHalf half (fun c => { c with st := .retained })).vreq half 1).pllreq half 0)
  else .next s

/-! ### Wake (R413, R414) -/

/-- X_WAKE: a port's partner has a message for the slice. -/
def execXWake (port : SleepPort) (s : State) : Host.Outcome State Fault Refusal := .next (s.wakeHalf (sleepHalf port))

/-- The wake of a half starts, and with it the management domain's. -/
def State.wakeStart (s : State) (h : Half) : State :=
  ({ s with ckp := { s.ckp with mgmtRet := false } }.modHalf h (fun c => { c with st := .vddUp, wakeAsked := false })).vreq h 2
/-- HALF_WAKE: a cause has asked for it (R414); none but its own end ends a coolant stop. -/
def execHalfWake (half : Half) (s : State) : Host.Outcome State Fault Refusal :=
  let c := s.half half
  .next (if c.st = .retained ∧ c.wakeAsked ∧ !s.ckp.coolActive then s.wakeStart half else s)
/-- HLF_VOK: the supply is at its operating level; the selected source is asked to lock. -/
def execHlfVok (half : Half) (s : State) : Host.Outcome State Fault Refusal :=
  .next (if (s.half half).st = .vddUp then
    (s.modHalf half (fun c => { c with st := .locking })).pllreq half (if (s.half half).cur then 2 else 1) else s)
/-- HLF_PLLOK: it has locked; the half restores from its retention flops. -/
def execHlfPllok (half : Half) (s : State) : Host.Outcome State Fault Refusal :=
  .next (if (s.half half).st = .locking then s.modHalf half (fun c => { c with st := .restoring }) else s)

/-- The coolant stop is over once both halves are awake (R423). -/
def State.coolEnd (s : State) : State :=
  if s.ckp.coolActive ∧ !s.ckp.coolStop ∧ (s.half .a).st = .awake ∧ (s.half .b).st = .awake then
    { s with ckp := { s.ckp with coolActive := false } }.event 0x1208 srcSlice []
  else s
/-- FCLK of a half is valid: every shelf of it is awake, and held messages and requests are released. -/
def State.halfAwake (s : State) (half : Half) : State :=
  let s1 := (s.stayAwake half).modHalf half (fun c => { c with recovering := false })
  let s2 := (halfShelves half).foldl (fun st sh => st.shelfAwake sh) s1
  ((s2.coolEnd.goDue).farPump (halfIx half)).releaseBridge.releaseHeld

/-- MGMT_RETENTION: the management domain gates MCLK (R415). -/
def execMgmtRetention (s : State) : Host.Outcome State Fault Refusal :=
  let ok := (s.half .a).st == .retained && (s.half .b).st == .retained && s.ckp.retCfg.getLsbD 18
    && (List.range 16).all (fun n => !(s.ring n).en) && s.fw.stage != .loading
  .next (if ok then { s with ckp := { s.ckp with mgmtRet := true } } else s)

/-! ### The coolant stop (R422, R423) -/

/-- COOLANT_STOP is asserted: guarantee windows are discarded, and both halves enter retention whatever they do. -/
def State.coolAssert (s : State) : State :=
  let s1 : State := { s with ckp := { s.ckp with coolStop := true, coolActive := true, coolSeen := true, coolHolding := false } }
  let enter := fun (c : HalfClk) => if c.st = .retained then c else { c with st := .entering, acks := [] }
  let s2 := ((s1.modHalf .a enter).modHalf .b enter).spoilWindows
  ((s2.dropSlp .a).dropSlp .b).event 0x1207 srcSlice []
/-- COOLANT_STOP_ASSERT. -/
def execCoolantStopAssert (s : State) : Host.Outcome State Fault Refusal := .next s.coolAssert

/-- COOLANT_STOP_DEASSERT: the hold of HOLD_MS starts. -/
def execCoolantStopDeassert (s : State) : Host.Outcome State Fault Refusal :=
  .next { s with ckp := { s.ckp with coolStop := false, coolHolding := s.ckp.coolActive } }

/-- COOLANT_HOLD_EXPIRY: both halves wake; one that hung meanwhile is recovered first (R409, R424). -/
def execCoolantHoldExpiry (s : State) : Host.Outcome State Fault Refusal :=
  if s.ckp.coolHolding ∧ !s.ckp.coolStop then
    let s1 : State := { s with ckp := { s.ckp with coolHolding := false } }
    let one := fun (st : State) (h : Half) =>
      if (st.half h).recovering then (st.recoverHalf h).wakeStart h else st.wakeStart h
    .next (one (one s1 .a) .b)
  else .next s

end Sys2Proof.Machine
end

