-- ==== Sys2Proof/Machine/PowerRows.lean ====
section
/-! DEFINITION. Pulse skipping and droop (R417, R418), the power estimate and its calibration (R419 to R421), the sensors
(R403); the passing of a microsecond, on which ECLK and FCLK counts rest (log 4). -/
namespace Sys2Proof.Machine

/-! ### Pulse skipping (R417, R418) -/

/-- SKIP_RATIO_CHANGE: the ratio that now applies to a half. -/
def execSkipRatioChange (half : Half) (k : BitVec 6) (s : State) : Host.Outcome State Fault Refusal :=
  .next (s.modHalf half (fun c => { c with k := k }))
/-- DROOP_ASSERT. -/
def execDroopAssert (half : Half) (s : State) : Host.Outcome State Fault Refusal :=
  .next (s.modHalf half (fun c => { c with droop := true, hold := true }))
/-- DROOP_DEASSERT: the larger ratio is held for 64 source pulses. -/
def execDroopDeassert (half : Half) (s : State) : Host.Outcome State Fault Refusal :=
  .next (s.modHalf half (fun c => { c with droop := false }))
/-- DROOP_HOLD_EXPIRY: they have passed. -/
def execDroopHoldExpiry (half : Half) (s : State) : Host.Outcome State Fault Refusal :=
  .next (s.modHalf half (fun c => { c with hold := c.droop }))

/-- The ratio applied to a half, droop included (CKP_SKIP). -/
def State.ratio (s : State) (h : Half) : Nat :=
  let c := s.half h
  if c.droop || c.hold then max c.k.toNat s.ckp.droopSkip.toNat else c.k.toNat

/-- Bit reversal of a pulse number's six bits; pulse n is removed when it is less than k. -/
def rev6 (n : Nat) : Nat :=
  b2n (bit n 0) * 32 + b2n (bit n 1) * 16 + b2n (bit n 2) * 8 + b2n (bit n 3) * 4 + b2n (bit n 4) * 2 + b2n (bit n 5)
def keptPulse (k n : Nat) : Bool := decide (k ≤ rev6 (n % 64))
/-- Pulses kept of p source pulses from number n on. -/
def kept (k n p : Nat) : Nat :=
  p / 64 * (64 - k) + ((List.range (p % 64)).filter (fun i => keptPulse k (n + i))).length

/-! ### A microsecond (R401, R425, R431) -/

/-- The half's FCLK runs: it is clocked, and its multiplexer does not switch (R425). -/
def HalfClk.runs (c : HalfClk) : Bool :=
  (c.st == .awake || c.st == .asking || c.st == .entering) && !c.switching
/-- Pulses of a half in a microsecond: the source's count is free within R402's range and ECLK's tolerance (log 4, log 7). -/
def State.pulses (s : State) (h : Half) : Nat × Nat × State :=
  let c := s.half h
  if !c.runs then (0, 0, s) else
  let (v, s1) := s.draw
  let p := 490 + v.toNat % 1806
  let n := kept (s.ratio h) c.pulse p
  (p, n, s1.modHalf h (fun c => { c with fclk := c.fclk + n, pulse := (c.pulse + p) % 64 }))

/-- One microsecond passes: 50 ECLK cycles, the pulses of both halves, and the events that count cycles. -/
def State.microsecond (s : State) : State :=
  let (pa, na, s1) := s.pulses .a
  let (pb, nb, s2) := s1.pulses .b
  let pmu := { s2.pmu with cyc := s2.pmu.cyc + BitVec.ofNat 64 na, runFclk := s2.pmu.runFclk + na }
  let s3 := (({ s2 with pmu := pmu }).count 0x01 Attr.internal nb).count 0x1A Attr.internal ((pa - na) + (pb - nb))
  s3.hours 50

/-! ### The power estimate (R419 to R421) -/

def State.weight (s : State) (i : Nat) : Nat := (tget 0 s.ckp.ew i).toNat
/-- Femtojoules of the interval: event counts by weight, and the static weights of the domains as they stand. -/
def State.energy (s : State) (n : PowerCounts) : Nat :=
  let up := fun (h : Half) => if (s.half h).st = .retained then s.weight 5 else s.weight 4
  n.firing * s.weight 0 + n.banks * s.weight 1 + n.beats * s.weight 2 + n.auu * s.weight 3
    + (up .a + up .b + s.weight 6) * 1000000
/-- A quotient that the spec does not round: where it is not whole, which neighbour stands for it is free (log 7). -/
def State.divFree (s : State) (a b : Nat) : Nat × State :=
  if a % b = 0 then (a / b, s) else
  let (v, s1) := s.draw
  (a / b + b2n (v.getLsbD 0), s1)
/-- The raw estimate of the counts of 1 µs, in units of 25 mW (R419). -/
def State.estimate (s : State) (n : PowerCounts) : Nat × State := s.divFree (s.energy n) 25000000
/-- The reported estimate (R420, R421). -/
def State.report (s : State) : State :=
  let (kr, s1) := s.divFree (s.ckp.calK.toNat * s.ckp.raw.toNat) 16384
  let e := if s.ckp.drift then max kr s.ckp.meas.toNat + s.ckp.margin.toNat else kr
  { s1 with ckp := { s1.ckp with est := BitVec.ofNat 16 (min e 65535) } }

/-- The estimate of a microsecond, and the measurement that came with it, join the window; the report follows (R419). -/
def State.takeEstimate (s : State) (raw : Nat) (meas : BitVec 16) (measValid : Bool) : State :=
  let r := BitVec.ofNat 16 (min raw 65535)
  let window := s.ckp.window ++ [(r, meas, measValid)]
  ({ s with ckp := { s.ckp with raw := r, meas := meas, measValid := measValid, window := window } }).report

/-- ACTIVITY_ESTIMATE: 1 µs is over; the raw estimate of its counts in units of 25 mW, and the reported one. -/
def execActivityEstimate (n : PowerCounts) (meas : BitVec 16) (measValid : Bool) (s : State) :
    Host.Outcome State Fault Refusal :=
  let (raw, s1) := s.microsecond.estimate n
  State.done (s1.takeEstimate raw meas measValid)

/-- The calibration of a window of ten (R420). -/
def State.calibrate (s : State) : State :=
  let w := s.ckp.window
  let s0 : State := { s with ckp := { s.ckp with window := [] } }
  if w.length < 10 || w.any (fun x => !x.2.2) then s0 else
  let e := (w.map (fun x => x.1.toNat)).foldl (· + ·) 0
  let m := (w.map (fun x => x.2.1.toNat)).foldl (· + ·) 0
  let k := s.ckp.calK.toNat
  let ke := k * e
  let mm := 16384 * m
  let off := decide (mm < 4 * (max ke mm - min ke mm))
  let miss := if off then min 16 (s.ckp.calMiss.toNat + 1) else 0
  let s1 : State := { s0 with ckp := { s0.ckp with calMiss := BitVec.ofNat 5 miss } }
  let s2 := if 16 ≤ miss then
      let s2 : State := { s1 with ckp := { s1.ckp with drift := true } }
      if s1.ckp.drift then s2 else s2.event 0x1206 srcSlice [k, s.ckp.raw.toNat, s.ckp.meas.toNat]
    else s1
  if e = 0 ∨ s.ckp.calHold then s2 else
    let (q, s3) := s2.divFree (7 * ke + mm) (8 * e)
    { s3 with ckp := { s3.ckp with calK := BitVec.ofNat 16 (min (max q 8192) 32767) } }
/-- CALIBRATION: 10 µs are over. -/
def execCalibration (s : State) : Host.Outcome State Fault Refusal := .next s.calibrate

/-- Software clears DRIFT (R421). -/
def State.driftClear (s : State) : State := { s with ckp := { s.ckp with drift := false, calMiss := 0 } }

/-! ### Sensors (R403) -/

/-- Voltage bin of a half: 0 retention, 1 below nominal, 2 nominal, 3 above. -/
def voltBin (c : HalfClk) (mv : Nat) : Nat :=
  if c.st = .retained then 0 else if mv < 680 then 1 else if mv ≤ 720 then 2 else 3
/-- A temperature above 105 °C. -/
def tooHot (t : BitVec 8) : Bool := decide (105 < t.toInt)
/-- A half's reading: its millisecond joins the bin's, and heat raises THERM_HIGH. -/
def State.sense (s : State) (h : Half) (v : BitVec 10) (t : BitVec 8) : State :=
  let s1 := s.modHalf h (fun c => { c with v := v, t := t })
  let k := 4 * halfIx h + voltBin (s.half h) v.toNat
  let s2 : State := { s1 with life := { s1.life with stressMs := tmod 0 s1.life.stressMs k (· + 1), changed := true } }
  if tooHot t then
    { s2 with ckp := { s2.ckp with thermHigh := true } }.event 0x1201 (srcHalf h) [halfIx h, (t.signExtend 32).toNat]
  else s2
/-- SENSOR_READ: 1 ms is over. -/
def execSensorRead (va vb : BitVec 10) (ta tb : BitVec 8) (s : State) : Host.Outcome State Fault Refusal :=
  .next ((s.sense .a va ta).sense .b vb tb)

end Sys2Proof.Machine
end

