-- ==== Sys2Proof/Machine/BootRows.lean ====
section
/-! DEFINITION. Reset (R452, R460), the reset sequence (R401, R449), the ROM boot (R453, R454), history sparing and self-test
(R455, R456). -/
namespace Sys2Proof.Machine

/-! ### Reset (R452, R460) -/

/-- What RESET_N leaves: the Life Record's contents, the ember oscillator's count, the levels of the input pins, and what is
no register of the slice (the queue, the counter of free values). -/
def State.resetAll (s : State) : State :=
  let pins := fun (c : HalfClk) => { HalfClk.reset with k := c.k, droop := c.droop }
  let s1 : State := { State.reset with pending := s.pending, free := s.free }
  let s2 : State := { s1 with
    life := { Life.blank with bytes := s.life.bytes }
    ckp := { s1.ckp with eclk := s.ckp.eclk, a := pins s.ckp.a, b := pins s.ckp.b } }
  if s.ckp.coolStop then s2.coolAssert else s2

/-- RESET_ASSERT: RESET_N falls, and whatever is in progress is aborted. A Life Record write that is in progress, which is a
free choice (log 7), then fails verification (R460). -/
def execResetAssert (s : State) : Host.Outcome State Fault Refusal :=
  if s.life.changed then
    let (v, s1) := s.draw
    .next ((if v.getLsbD 0 then s1.lifeFail else s1).resetAll)
  else .next s.resetAll

/-- RESET: RESET_N rises; the straps are sampled, and the start count of the ember oscillator begins (R452). -/
def execReset (sliceBase : BitVec 21) (jtagMfg : BitVec 11) (s : State) : Host.Outcome State Fault Refusal :=
  let s1 := s.resetAll
  .next { s1 with boot := { s1.boot with step := .eclkStart, sliceBase := sliceBase, jtagMfg := jtagMfg } }

/-- ECLK_VALID: 4,096 ECLK cycles after the oscillator starts (R401). -/
def execEclkValid (s : State) : Host.Outcome State Fault Refusal :=
  if s.boot.step = .eclkStart then
    let s1 := s.hours 4096
    .next { s1 with boot := { s1.boot with step := .fuses, fuseAddr := 0 } }
  else .next s

/-- FUSE_RD_ACK: one of the 128 reads of the fuse block returns; after the last the journal slot is chosen (R346, R449). -/
def execFuseRdAck (data : BitVec 32) (s : State) : Host.Outcome State Fault Refusal :=
  if s.boot.step = .fuses then
    let a := s.boot.fuseAddr
    let fuses := s.boot.fuses ||| (data.zeroExtend 4096 <<< (32 * a.toNat))
    let s1 : State := { s with boot := { s.boot with fuses := fuses, fuseAddr := a + 1 } }
    .next (if a.toNat = 127 then { s1.lifeTake.lifeIdentity with boot := { s1.boot with step := .waitMclk } } else s1)
  else .next s

/-- MCLK_OK: both cores run the boot ROM, which tests their memories; a core that fails is retired, and with both the slice is
unusable (R452). -/
def execMclkOk (coreAOk coreBOk : Bool) (s : State) : Host.Outcome State Fault Refusal :=
  if s.boot.step = .waitMclk then
    let ok : BitVec 2 := BitVec.ofNat 2 (b2n coreAOk + 2 * b2n coreBOk)
    let s1 : State := { s with boot := { s.boot with coreOk := ok } }
    .next (
      if !coreAOk && !coreBOk then
        { s1 with boot := { s1.boot with step := .unusable, err := 0x21 }, flt := { s1.flt with serving := false } }
      else
        let s2 : State := { s1 with boot := { s1.boot with step := .rom } }
        if coreAOk && coreBOk then s2
        else { s2 with fw := { s2.fw with noStandby := true }, flt := { s2.flt with retired := s2.flt.retired ++ [FaultUnit.mgmtCore] } })
  else .next s

/-! ### ROM boot (R454) -/

/-- GLB_BOOT_STAT.STATE. -/
def BootStep.code : BootStep → Nat
  | .booting => 1
  | .testing => 2
  | .running => 3
  | _ => 0

/-- GO is written: in WAIT the named port and its half's fabric are enabled, and the image is read (R454, R460). -/
def State.bootGo (s : State) : State :=
  if s.boot.step.code ≠ 0 then s.event 0x1401 srcSlice []
  else if s.boot.step ≠ .rom ∨ s.boot.reading then s
  else
    let p := s.boot.port.toNat
    let e1 := setBit (setBit s.ckp.clken1 (8 + p) true) (p / 4) true
    { s.setEnables s.ckp.clken0 e1 with boot := { s.boot with reading := true } }

/-- The load ends with a status code, and STATE stays WAIT. -/
def State.romFail (s : State) (st : BitVec 8) : State := { s with boot := { s.boot with reading := false, err := st } }

/-- Checks 1 to 5 of R395, then 3 to 5 of R396: the status code of the first that fails (R454). -/
def State.romCheck (s : State) (img : List Byte) : Option (BitVec 8) :=
  let ms := manifestOf img
  let slot := imgSlot img
  let signed := slice img 0 0xA0 ++ slice img 256 (64 * imgPart img)
  if (s.headerBad (img.take 256)).isSome then some stHdrReject
  else if !s.keyOk true slot || !signatureOk (s.keyHashOf true slot) signed (slice img 0xA0 96) then some stSigFail
  else if (manifestBad (imgLen img) ms).isSome then some stBadOp
  else if ms.any (fun e => sha384 (slice img (mfOff e) (mfSize e)) != slice e 16 48) then some stHashFail
  else none

/-- Bytes 16 to 63 of the newest firmware-history entry. -/
def State.newestDigest (s : State) : List Byte :=
  match s.life.fwHist.reverse with
  | e :: _ => (bytesLE 64 e.toNat).drop 16
  | [] => (s.lifeAt (lifeFw (s.life.fwNext.toNat + 255)) 64).drop 16

/-- The image has passed: its parts are loaded and both cores boot; a manifest that is not the newest entry's makes an entry;
ANTI_ROLLBACK and FUSE_COMMIT apply (R399, R454). -/
def State.romLoad (s : State) (img : List Byte) : State :=
  let ms := manifestOf img
  let parts := ms.map (fun e => (⟨BitVec.ofNat 8 (mfId e), BitVec.ofNat 8 (mfType e), BitVec.ofNat 32 (leAt e 4 4)⟩ : Part))
  let dflt := match ms.find? (fun e => mfType e == 5) with
    | some e => slice img (mfOff e) (mfSize e)
    | none => []
  let m := slice img 256 (64 * imgPart img)
  let s1 : State := { s with
    boot := { s.boot with step := .booting, reading := false }
    fw := { s.fw with parts := parts, imageVer := BitVec.ofNat 32 (imgVer img), defaultBase := dflt
                      mirrorVer := BitVec.ofNat 8 (imgMirrorVer img), mirrorMin := BitVec.ofNat 8 (imgMirrorMin img) }
    life := { s.life with arb := BitVec.ofNat 32 (imgArb img), changed := s.life.changed || s.life.arb != BitVec.ofNat 32 (imgArb img) } }
  let s2 := if sha384 m = s.newestDigest then s1 else s1.fwEntry m stOk
  if imgFuse img && decide (s2.fusedCount < imgArb img) then
    ({ s2 with fw := { s2.fw with burnTo := imgArb img } }).burnNext
  else s2

/-- ROM_IMAGE_CHECKED: the image has been read, or a read was uncorrectable. -/
def execRomImageChecked (image : List Byte) (ue : Bool) (s : State) : Host.Outcome State Fault Refusal :=
  .next (
    if s.boot.step ≠ .rom ∨ !s.boot.reading ∨ s.ckp.coolActive then s
    else if ue then s.romFail stBounds
    else match s.romCheck image with
      | some st => s.romFail st
      | none => s.romLoad image)

/-! ### History sparing and self-test (R337, R455, R456) -/

/-- Spare a place at once, or act without a spare: the flags of the log entry. The management core's spare is the standby core. -/
def State.spareNow (s : State) (v : FaultUnit) : Nat × State :=
  match v with
  | .mgmtCore => if s.alone then (flNoSpare, (s.retire v).event 0x0E05 srcSlice (unitWords v)) else (flSpared, s.failover 1)
  | _ =>
    let (fl, s1) := s.spareOr v
    (fl, s1.spareEnd)
/-- A unit that the history names is spared at its place; one that serves no place goes out of service (R337, R455). -/
def State.spareNamed (s : State) (u : FaultUnit) : State :=
  match s.placeOf (s.unitAt (s.placeNamed u)) with
  | some v => (s.spareNow v).2
  | none => if s.flt.gone.contains (bare u) then s else s.underTest u

/-- SELF_TEST: the units of the history are spared; whether the Life Record counts these spares again is free (log 7). The units
are enabled and the march test starts. -/
def execSelfTest (s : State) : Host.Outcome State Fault Refusal :=
  if s.boot.step = .booting ∧ !s.ckp.coolActive then
    let s1 := s.historyUnits.foldl (fun st u => st.spareNamed u) s
    let (v, s2) := s1.draw
    let s3 : State := if v.getLsbD 0 then s2 else { s2 with life := { s2.life with spares := s.life.spares } }
    let s4 := s3.setEnables 0xFFFF (s3.ckp.clken1 ||| 0x7F#22)
    .next { s4 with boot := { s4.boot with step := .testing } }
  else .next s

/-- Every word is zero: arrays, tags, POISON, directory ways, line buffers (R456). -/
def State.marchZero (s : State) : State :=
  let s1 : State := { s with arr := ⟨[], [], [], [], []⟩, dir := { s.dir with ways := [], trees := [] } }
  (List.range 16).foldl (fun st i => st.modShelf i (fun h => { h with lineBufs := [] })) s1

/-- A unit that fails self-test: spared or retired, logged and counted (R335, R336, R342, R456). -/
def State.testFailed (s : State) (u : FaultUnit) : State :=
  let s0 : State := { s with life := { s.life with lasting := tmod 0 s.life.lasting (kindOf u) (· + 1), changed := true } }
  let (gone, fl, v, s1) := match s0.placeOf u with
    | some v =>
      let (fl, st) := s0.spareNow v
      (fl == flNoSpare, fl, s0.named v, st)
    | none => (true, 0, u, if s0.flt.gone.contains (bare u) then s0 else s0.underTest u)
  let s2 := s1.logFault (kindOf u) 0xFF (if gone then outRetired else outSpared) fl (unitOf v) 0
  { s2 with boot := { s2.boot with bistRetired := s2.boot.bistRetired || gone, bistFails := satAdd s2.boot.bistFails 1 } }

/-- SELF_TEST_DONE: the march has ended. -/
def execSelfTestDone (failing : List FaultUnit) (s : State) : Host.Outcome State Fault Refusal :=
  if s.boot.step = .testing ∧ !s.ckp.coolActive then
    let s1 := failing.foldl (fun st u => st.testFailed u) s.marchZero
    .next { s1 with boot := { s1.boot with step := .running, bistDone := true } }
  else .next s

end Sys2Proof.Machine
end

