-- ==== Sys2Proof/Machine/MonRows.lean ====
section
/-! DEFINITION. Ends of windows and of streams: the guarantee monitors (R322 to R325), the thrash detector (R113), the stream
detector (R108). -/
namespace Sys2Proof.Machine

/-! ### Guarantee windows (R322 to R325) -/

/-- The cone was backlogged in at least half of its window: certainly when no moment without a waiting request was seen,
certainly not when none with one was; else free (log 7). -/
def State.backlogged (s : State) (c : Nat) : Bool × State :=
  let wait := s.cone.sawWait.getLsbD c || s.waitingCones.getLsbD c
  let idle := s.cone.sawIdle.getLsbD c || !s.waitingCones.getLsbD c
  if !wait then (false, s) else if !idle then (true, s)
  else
    let (v, s1) := s.draw
    (v.getLsbD 0, s1)

/-- The window misses the bandwidth guarantee (R323). -/
def State.bwMiss (s : State) (c : Nat) (backlog : Bool) : Bool :=
  s.cfg.minBw c != 0 && backlog && decide ((s.mon c).bytes < s.cfg.minBw c * 2 ^ s.cfg.window c)
/-- The window misses the latency guarantee (R324). -/
def State.latMiss (s : State) (c : Nat) : Bool :=
  s.cfg.latTarget c != 0 && decide ((100 - s.cfg.latPctl c) * (s.mon c).reqs < 100 * (s.mon c).late)

/-- A miss: bit i of CON_MISS and its event (R325). -/
def State.missSet (s : State) (i code : Nat) (fields : List Nat) : State :=
  { s with cone := { s.cone with miss := setBit s.cone.miss i true } }.event code srcSlice fields

/-- A judged window of cone c ends: its counts are written, its misses raised (R322, R325). -/
def State.judgeWindow (s : State) (c : Nat) : State :=
  let (backlog, s1) := s.backlogged c
  let m := s1.mon c
  let count := m.bytes % 2 ^ 48
  let stamp := [s1.ckp.eclk % 2 ^ 32, s1.ckp.eclk / 2 ^ 32]
  let s2 := s1.modMon c (fun m => { m with outBytes := BitVec.ofNat 48 m.bytes, outReqs := BitVec.ofNat 32 (min m.reqs (2 ^ 32 - 1))
                                           outOver := BitVec.ofNat 32 (min m.late (2 ^ 32 - 1)) })
  let s3 := if s1.bwMiss c backlog then s2.missSet c 0x0D02 ([c, count % 2 ^ 32, count / 2 ^ 32] ++ stamp) else s2
  if s1.latMiss c then s3.missSet (8 + c) 0x0D03 ([c, m.reqs, m.late] ++ stamp) else s3

/-- CONE_WINDOW_END: 2^WINDOW µs are over; a spoiled window is discarded, and the next one starts (R322). -/
def execConeWindowEnd (cone : Fin 8) (s : State) : Host.Outcome State Fault Refusal :=
  let c := cone.val
  if !s.active then .next s else
  let good := !(s.mon c).spoiled && s.cone.monEn
  State.done ((if good then s.judgeWindow c else s).newWindow c)

/-! ### The thrash detector (R113) -/

/-- One cone's count at the end of a window: its mark is lifted after 16 calm windows. -/
def State.thrashJudge (s : State) (sh c : Nat) : State :=
  let h := s.shelf sh
  if !h.pour.getLsbD c then s
  else if tget 0 h.thrash c < h.thresh.toNat / 4 then
    if 16 ≤ tget 0 h.calm c + 1 then s.modShelf sh (fun h => { h with pour := setBit h.pour c false, calm := tset 0 h.calm c 0 })
    else s.modShelf sh (fun h => { h with calm := tmod 0 h.calm c (· + 1) })
  else s.modShelf sh (fun h => { h with calm := tset 0 h.calm c 0 })

/-- THRASH_WINDOW_END: 2,250 FCLK cycles are over, and the counts start again. -/
def execThrashWindowEnd (shelf : Fin 16) (s : State) : Host.Outcome State Fault Refusal :=
  let s1 := (List.range 8).foldl (fun st c => st.thrashJudge shelf.val c) s
  State.done (s1.modShelf shelf.val (fun h => { h with thrash := [] }))

/-! ### The stream detector (R108) -/

/-- STREAM_EXPIRY: a stream entry unextended for 4,096 FCLK cycles becomes free. -/
def execStreamExpiry (shelf : Fin 16) (index : Fin 32) (s : State) : Host.Outcome State Fault Refusal :=
  .next (s.modShelf shelf.val (fun h => { h with streams := h.streams.eraseIdx index.val }))

end Sys2Proof.Machine
end

