-- ==== Sys2Proof/Machine/PairRows.lean ====
section
/-! DEFINITION. The pair-mode commands: HELLO (R373, R387), mirror frames (R376 to R378), the lost link (R380 to R382), leases
(R385), the full resync (R388). A slice whose base has no PAIR_EN takes none of them (R371). -/
namespace Sys2Proof.Machine

/-- An effect in pair configuration. -/
def State.paired (s : State) (f : State → State) : Host.Outcome State Fault Refusal :=
  if s.cfg.pairEn then State.done (f s) else .next s

/-! ### HELLO -/

/-- HELLO goes out on every mirror port that is up and runs; while the link is lost none does (R373, R380, R389). -/
def State.sayHello (s : State) : State :=
  if s.pair.lost then s else
  let h := s.helloOf
  let ports := (onesOf s.pair.ports).filter s.farOn
  if ports.isEmpty then s else
  (ports.foldl (fun (st : State) n => st.farSend n (.hello h)) { s with pair := { s.pair with told := h.leases } }).judge

/-- HELLO_SEND: the 10 µs are over. -/
def execHelloSend (s : State) : Host.Outcome State Fault Refusal := s.paired State.sayHello

/-- HELLO arrives on a mirror port. -/
def execHello (h : Hello) (s : State) : Host.Outcome State Fault Refusal :=
  s.paired (fun s => (s.frameIn none 128).takeHello h)

/-! ### Frames of a line -/

/-- A frame about a fenced region that comes in once the link is lost changes nothing (R383, log 31). -/
def State.tooLate (s : State) (l : LineIx) : Bool := s.pair.lost && s.pair.fenced.getLsbD (match s.regionAt (lineAddr l) with
  | some (i, _) => i
  | none => 256)

/-- A forwarded write of this slice waits for its answer under a tag. -/
def State.forwards (s : State) (tag : Nat) (l : LineIx) : Bool :=
  match s.mwait tag MWait.isForward with
  | some (.forward r) => r.line == l
  | _ => false

/-- MWR arrives: its bytes are applied here as a WrP, and then acknowledged; under the tag of a write forwarded from here it
also answers that one (R377, R378). -/
def execMwr (line : LineIx) (mask : Mask) (data : Line) (tag : Nat) (result : Option (BitVec 128)) (s : State) :
    Host.Outcome State Fault Refusal :=
  s.paired (fun s =>
    let s1 := s.frameIn (some line) (144 + (if result.isSome then 16 else 0))
    if s1.tooLate line then s1 else
    let who := Who.mirror tag (s1.forwards tag line) result
    s1.dispatch { mkReq (if mask = fullMask then .wrL else .wrP) who line 0 with mask := mask, data := data } false)

/-- The request that an MFWD asks for; none where its header is no write's (R372). -/
def fwdReq (w : FwdWrite) (tag : Nat) : Option Req :=
  let c := Hdr.msg w.hdr
  let r := { mkReq .wrL (.mfwd tag (Hdr.src w.hdr)) (Hdr.line w.hdr) (Hdr.cone w.hdr) with
    txn := Hdr.txn w.hdr, scope := Hdr.scope w.hdr, data := w.data, plen := w.plen, aop := Hdr.aop w.hdr }
  if c = mWrL then some { r with mask := fullMask }
  else if c = mWrP then some { r with op := .wrP, mask := w.mask }
  else if c = mAtom then some { r with op := .atom, mask := atomMask r.aop }
  else none

/-- MFWD arrives: the write takes its place in its line's conflict queue here; what is no write of an M-class region is
answered with MPOISON (R377). -/
def execMfwd (w : FwdWrite) (tag : Nat) (s : State) : Host.Outcome State Fault Refusal :=
  s.paired (fun s =>
    let l := Hdr.line w.hdr
    let s1 := (s.frameIn (some l) (fwdPayload w)).coneBytes (Hdr.cone w.hdr) (if Hdr.msg w.hdr = mAtom then w.plen else 128)
    let home := match s1.regionAt (lineAddr l) with
      | some (_, g) => Region.pclass g == pcM
      | none => false
    match fwdReq w tag, home with
    | some r, true => s1.dispatch r false
    | _, _ => s1.mirrorSend l (.mpoison tag))

/-- What waited for an acknowledgement goes on (R175, R115, R376, R387). -/
def State.acknowledged (s : State) (w : MWait) : State :=
  match w with
  | .write l => (s.modTxn l (fun t => { t with mack := none })).advance l
  | .saggar r res => s.performed (s.bankOf r.line / 16) r res
  | .reclaim l n =>
    match tget none s.ranges.slots n with
    | some a => s.rangeStep n (shelfHalf (s.homeShelf l)) (l.toNat - a.base)
    | none => s
  | .resync _ => s
  | .forward _ => s

/-- MACK arrives (R376). A tag that nothing waits under changes nothing. -/
def execMack (tag : Nat) (s : State) : Host.Outcome State Fault Refusal :=
  s.paired (fun s =>
    let s1 := s.frameIn none 0
    let p := fun (w : MWait) => !w.isForward
    match s1.mwait tag p with
    | some w => (s1.dropWait tag p).acknowledged w
    | none => s1)

/-- MRECLAIM arrives: private copies of the line are invalidated, and the slice's copy becomes dead (R115). -/
def execMreclaim (line : LineIx) (tag : Nat) (s : State) : Host.Outcome State Fault Refusal :=
  s.paired (fun s =>
    let s1 := s.frameIn (some line) 0
    if s1.tooLate line then s1 else s1.dispatch (mkReq .inv (.mirror tag false none) line 0) false)

/-- MPOISON arrives: the one whose write was forwarded gets Poison (R377). -/
def execMpoison (tag : Nat) (s : State) : Host.Outcome State Fault Refusal :=
  s.paired (fun s => (s.frameIn none 0).answerForward tag .poison)

/-- MRSYNC arrives: the line is written here and acknowledged (R378, R387). -/
def execMrsync (line : LineIx) (data : Line) (s : State) : Host.Outcome State Fault Refusal :=
  s.paired (fun s =>
    let r := { mkReq .wrL (.mirror (syncTag line) false none) line 0 with mask := fullMask, data := data }
    (s.frameIn (some line) 128).dispatch r false)

/-- MCFG arrives: the twin's entry of this index is kept and compared (R65). -/
def execMcfg (region : Fin 256) (entry : BitVec 256) (s : State) : Host.Outcome State Fault Refusal :=
  s.paired (fun s =>
    let s1 := s.frameIn (some (BitVec.ofNat 45 region.val)) 32
    ({ s1 with pair := { s1.pair with twinM := tset 0 s1.pair.twinM region.val entry } }).compareEntry region.val entry)

/-! ### Time -/

/-- MIRROR_TIMEOUT: a frame has had no answer, or no matching HELLO has come, for that long (R380 to R382). -/
def execMirrorTimeout (s : State) : Host.Outcome State Fault Refusal := s.paired State.linkLost
/-- SOLO_DELAY_EXPIRY: MIRROR_TIMEOUT + 250 µs are over since the loss (R382). -/
def execSoloDelayExpiry (s : State) : Host.Outcome State Fault Refusal := s.paired State.soloReadyNow
/-- FENCE_WALK_DONE: no private copy of a fenced region's lines remains (R382, R383). -/
def execFenceWalkDone (region : Fin 256) (s : State) : Host.Outcome State Fault Refusal :=
  s.paired (fun s => s.fenceEnd region.val)
/-- LEASE_EXPIRY: the lease of a region has run out on the ember clock (R385, R369). -/
def execLeaseExpiry (region : Fin 256) (s : State) : Host.Outcome State Fault Refusal :=
  s.paired (fun s => s.leaseExpire region.val)

/-- Every bit of the resync map is set; with the link up this slice becomes the source (R387, R388). -/
def State.fullResync (s : State) : State :=
  let n := s.cfg.granules
  let map := (List.range n).map (fun g => (g, true))
  let s1 : State := { s with pair := { s.pair with full := decide (0 < n), map := map } }
  if s1.pair.link = 1 ∧ 0 < n then s1.syncSource else s1

end Sys2Proof.Machine
end

