-- ==== Sys2Proof/Machine/SybinOps.lean ====
section
/-! DEFINITION. Sybin streams: their checks (R39 to R52, R77, R252, R469), the records of an overlay (R57, R58), what an overlay
affects (R59), and applying a configuration (R54, R60, R62, R406). -/
namespace Sys2Proof.Machine

/-! ### Failures (R469) -/

/-- A failed check: status and DETAIL. -/
abbrev SybFail := BitVec 8 × BitVec 64
/-- Units of a stream: its header, a section or record header, an entry, the padding. -/
def unHeader : Nat := 0
def unSection : Nat := 1
def unEntry : Nat := 2
def unPadding : Nat := 3
/-- A DETAIL that names a field of the stream. -/
def streamField (unit off index : Nat) : BitVec 64 := BitVec.ofNat 64 (off % 256 + unit * 256 + index * 2 ^ 32)
def headerFail (off : Nat) : SybFail := (stHdrReject, streamField unHeader off 0xFFFFFFFF)
def sectionFail (off i : Nat) : SybFail := (stHdrReject, streamField unSection off i)

/-! ### Checks 1 to 4 (R39, R40, R51) -/

def syLength (bs : List Byte) : Nat := leAt bs 8 4
def sySlot (bs : List Byte) : Nat := leAt bs 0x0C 1
def sySerial (bs : List Byte) : Nat := leAt bs 0x28 4
def syCount (bs : List Byte) : Nat := leAt bs 7 1

/-- Check 1: the length. -/
def lengthFail (bs : List Byte) (len : Nat) (overlay : Bool) : Option SybFail :=
  if syLength bs != len || decide (len < 160) || decide ((if overlay then 65536 else 1048576) < len) || len % 8 != 0 then
    some (stBounds, fieldAt 4)
  else none
/-- Check 2: the header. -/
def headerCheck (bs : List Byte) (overlay : Bool) : Option SybFail :=
  let checks : List (Bool × Nat) := [
    (slice bs 0 4 != [0x53, 0x59, 0x42, 0x4E], 0), (leAt bs 4 2 != 1, 4), (leAt bs 6 1 != b2n overlay, 6),
    (leAt bs 0x0D 3 != 0, 0x0D), (leAt bs 0x2C 20 != 0, 0x2C), (!overlay && leAt bs 0x18 16 != 0, 0x18),
    (leAt bs 0x10 4 != Config.partId.toNat, 0x10), (!bit (leAt bs 0x14 4) Config.siliconRev.toNat, 0x14)]
  ((checks.find? Prod.fst).map Prod.snd).map headerFail
/-- Check 3: an overlay names the active base. -/
def State.digestFail (s : State) (bs : List Byte) : Option SybFail :=
  if leAt bs 0x18 16 != s.syb.digest.toNat then some (headerFail 0x18) else none
/-- Check 4: the key slot and the signature. -/
def State.keyFail (s : State) (bs : List Byte) : Option SybFail :=
  let n := bs.length - 96
  if s.keyOk false (sySlot bs) && signatureOk (s.keyHashOf false (sySlot bs)) (bs.take n) (bs.drop n) then none
  else some (stSigFail, BitVec.ofNat 64 (sySlot bs))

/-! ### Check 5: sections (R41 to R50) -/

/-- Body size of a fixed section. -/
def sectionSize (t : Nat) : Option Nat :=
  match t with
  | 1 => some 256
  | 2 => some 16
  | 3 => some 8192
  | 4 => some 128
  | 5 => some 8
  | 6 => some 2048
  | 8 => some 16
  | 9 => some 16
  | _ => none

/-- The n entries of `size` bytes at the front, each read little-endian. -/
def entriesOf (size : Nat) : Nat → List Byte → List Nat
  | 0, _ => []
  | n + 1, bs => leNat (bs.take size) :: entriesOf size n (bs.drop size)
/-- A table of the entries that are not 0. -/
def tableOf {w : Nat} (es : List Nat) : Table (BitVec w) :=
  es.zipIdx.filterMap (fun p => if p.1 = 0 then none else some (p.2, BitVec.ofNat w p.1))

/-- Take a section into a configuration. -/
def Cfg.takeSection (c : Cfg) (t : Nat) (body : List Byte) : Cfg :=
  match t with
  | 1 => { c with modes := tableOf (entriesOf 1 256 body) }
  | 2 => { c with hash := BitVec.ofNat 8 (leAt body 0 1), seed := BitVec.ofNat 64 (leAt body 8 8) }
  | 3 => { c with regions := tableOf (entriesOf 32 256 body) }
  | 4 => { c with cones := tableOf (entriesOf 16 8 body) }
  | 5 => { c with protocol := BitVec.ofNat 64 (leNat (body.take 8)) }
  | 6 => { c with hops := tableOf (entriesOf 32 64 body) }
  | 7 => { c with placeN := leAt body 0 4, places := tableOf (entriesOf 32 (leAt body 0 4) (body.drop 8)) }
  | 8 => { c with protect := BitVec.ofNat 128 (leNat (body.take 16)) }
  | 9 => { c with pair := BitVec.ofNat 128 (leNat (body.take 16)) }
  | _ => c

/-- What check 5 makes of a stream: where it stopped, the configuration, the raw interleave section, whether a pair section
stands in it, the last type, the types seen. -/
structure Parsed where
  off : Nat
  cfg : Cfg
  inter : Nat
  paired : Bool
  last : Nat
  seen : List Nat
  deriving DecidableEq, Repr, Inhabited

/-- Read section i of a base. `stop` is the end of the sections, at the trailer. -/
def takeOne (bs : List Byte) (stop i : Nat) (p : Parsed) : Except SybFail Parsed :=
  if stop < p.off + 8 then .error (headerFail 7) else
  let h := slice bs p.off 8
  let t := leAt h 0 1
  let len := leAt h 4 4
  let body := slice bs (p.off + 8) len
  if t == 0 || decide (9 < t) || decide (t ≤ p.last) then .error (sectionFail 0 i)
  else if leAt h 1 1 != 0 then .error (sectionFail 1 i)
  else if leAt h 2 2 != 0 then .error (sectionFail 2 i)
  else if len % 8 != 0 || decide (stop < p.off + 8 + len) then .error (sectionFail 4 i)
  else
    let fits := match sectionSize t with
      | some n => len == n
      | none => decide (8 ≤ len) && decide (leAt body 0 4 ≤ 4096) && len == 8 + 32 * leAt body 0 4
    if !fits then .error (sectionFail 4 i)
    else if t == 7 && leAt body 4 4 != 0 then .error (sectionFail 12 i)
    else
      .ok { off := p.off + 8 + len, cfg := p.cfg.takeSection t body, inter := if t = 2 then leNat (body.take 16) else p.inter,
            paired := p.paired || t == 9, last := t, seen := p.seen ++ [t] }
/-- Read n sections from the i-th. -/
def takeAll (one : Nat → Parsed → Except SybFail Parsed) : Nat → Nat → Parsed → Except SybFail Parsed
  | 0, _, p => .ok p
  | n + 1, i, p => match one i p with
    | .error e => .error e
    | .ok q => takeAll one n (i + 1) q

/-- What stands between the last item and the trailer: fewer than 8 zero bytes. -/
def padFail (bs : List Byte) (off stop : Nat) : Option SybFail :=
  if stop < off ∨ off + 8 ≤ stop then some (headerFail 7)
  else
    let pad := slice bs off (stop - off)
    ((pad.zipIdx.find? (fun p => p.1 != 0)).map Prod.snd).map (fun i => (stHdrReject, streamField unPadding i 0xFFFFFFFF))

/-- Check 5 for a base. Its homing shelves are those with a cache bank (R43). -/
def parseBase (bs : List Byte) : Except SybFail Parsed :=
  let stop := bs.length - 96
  if syCount bs = 0 then .error (headerFail 7) else
  match takeAll (takeOne bs stop) (syCount bs) 0 ⟨64, Cfg.empty, 0, false, 0, []⟩ with
  | .error e => .error e
  | .ok p => match padFail bs p.off stop with
    | some e => .error e
    | none =>
      if [1, 2, 3, 4, 5, 6, 8].all (fun t => p.seen.contains t) then
        let homing := (List.range 16).filter (fun i => (List.range 16).any (fun k => p.cfg.mode (16 * i + k) == modeCache))
        .ok { p with cfg := { p.cfg with homing := homing } }
      else .error (headerFail 7)

/-! ### Check 5: overlay records (R57, R58) -/

/-- Entry size and number of entries of a section that an overlay may change. -/
def recordSize (t : Nat) : Option (Nat × Nat) :=
  match t with
  | 1 => some (1, 256)
  | 3 => some (32, 256)
  | 4 => some (16, 8)
  | 6 => some (32, 64)
  | 7 => some (32, 4096)
  | _ => none

/-- Write an entry of a section. -/
def Cfg.putEntry (c : Cfg) (t k v : Nat) : Cfg :=
  match t with
  | 1 => { c with modes := tset 0 c.modes k (BitVec.ofNat 8 v) }
  | 3 => { c with regions := tset 0 c.regions k (BitVec.ofNat 256 v) }
  | 4 => { c with cones := tset 0 c.cones k (BitVec.ofNat 128 v) }
  | 6 => { c with hops := tset 0 c.hops k (BitVec.ofNat 256 v) }
  | 7 => { c with places := tset 0 c.places k (BitVec.ofNat 256 v) }
  | _ => c
/-- Apply a record: the entries from FIRST, and the count of placement entries that it leaves. -/
def Cfg.applyRecord (c : Cfg) (t first : Nat) (vs : List Nat) (clear : Bool) : Cfg :=
  let c1 := vs.zipIdx.foldl (fun c p => c.putEntry t (first + p.2) p.1) c
  if t ≠ 7 then c1
  else if clear then (if first + vs.length = c.placeN then { c1 with placeN := first } else c1)
  else { c1 with placeN := max c.placeN (first + vs.length) }

/-- Read record i of an overlay and apply it. -/
def recordOne (bs : List Byte) (stop i : Nat) (p : Parsed) : Except SybFail Parsed :=
  if stop < p.off + 16 then .error (headerFail 7) else
  let h := slice bs p.off 16
  let t := leAt h 0 1
  let op := leAt h 1 1
  let n := leAt h 2 2
  let first := leAt h 4 4
  let len := leAt h 8 4
  match recordSize t with
  | none => .error (sectionFail 0 i)
  | some (size, lim) =>
    if (op != 1 && op != 2) || (op == 2 && t == 1) then .error (sectionFail 1 i)
    else if n = 0 then .error (sectionFail 2 i)
    else if t = 7 ∧ (p.cfg.placeN < first ∨ (op = 2 ∧ p.cfg.placeN < first + n)) ∨ lim < first + n then .error (sectionFail 4 i)
    else if len != (if op = 1 then n * size else 0) || decide (stop < p.off + 16 + len) then .error (sectionFail 8 i)
    else if leAt h 12 4 != 0 then .error (sectionFail 12 i)
    else
      let fill := if t = 6 then 2 ^ 256 - 1 else 0
      let vs := if op = 1 then entriesOf size n (slice bs (p.off + 16) len) else List.replicate n fill
      .ok { p with off := p.off + 16 + len, cfg := p.cfg.applyRecord t first vs (op == 2) }

/-- Check 5 for an overlay on a configuration. -/
def parseOverlay (c : Cfg) (bs : List Byte) : Except SybFail Parsed :=
  let stop := bs.length - 96
  if syCount bs = 0 then .error (headerFail 7) else
  match takeAll (recordOne bs stop) (syCount bs) 0 ⟨64, c, 0, false, 0, []⟩ with
  | .error e => .error e
  | .ok p => match padFail bs p.off stop with
    | some e => .error e
    | none => .ok p

/-! ### Check 6 (R42 to R50, R52, R77, R247, R252) -/

/-- The first condition that holds, with what it names. -/
def firstBad {α : Type} (l : List (Bool × α)) : Option α := (l.find? Prod.fst).map Prod.snd

/-- Bank modes: values; homing shelves keep a cache bank, others gain none. A shelf that keeps none is seen at its last bank. -/
def Cfg.modeBad (c : Cfg) : Option (Nat × Nat) :=
  (List.range 256).findSome? (fun b =>
    let homes := c.homing.contains (b / 16)
    firstBad [(decide (2 < c.mode b), (0, b)), (c.mode b == modeCache && !homes, (0, b)),
      (b % 16 == 15 && homes && (List.range 16).all (fun k => c.mode (b - 15 + k) != modeCache), (0, b))])

/-- The fields of an ATTR word that belong to cache space. -/
def attrCache : Nat := 0x7F7FFF
/-- The ATTR rules of R76, R77 and R247. -/
def Cfg.attrBad (c : Cfg) (r : Region) : Bool :=
  let a := Region.attr r
  let sp := Region.space r
  bit a 15 || bit a 23 || bits a 31 30 != 0 || Region.access r == 3
    || (sp != spCache && a &&& attrCache != 0) || (sp != spKiln && Region.kfmt r != 0) || decide (7 < Region.kfmt r)
    || (sp == spCache && (Region.half r == 3 || decide (4 < Region.sliceWays r)
      || decide (2 ^ Region.sliceWays r ≤ Region.slicePos r)
      || (if Region.wpol r = 3 then decide (2 < Region.redOp r) || decide (5 < Region.redFmt r)
          else Region.redOp r != 0 || Region.redFmt r != 0 || Region.redSr r)
      || (c.hash == 1 && Region.half r != 0 && (c.candidates r).isEmpty)))

def apart (b1 n1 b2 n2 : Nat) : Bool := decide (b1 + n1 ≤ b2) || decide (b2 + n2 ≤ b1)

/-- A region entry; w is the base of the slice window. -/
def Cfg.regionBad (c : Cfg) (w i : Nat) : Option Nat :=
  let r := c.region i
  let b := Region.base r
  let n := Region.size r
  let sp := Region.space r
  let pc := Region.pclass r
  if !Region.valid r then
    ([(0, 63, 0), (8, 127, 64), (16, 135, 128), (17, 143, 136), (18, 151, 144), (19, 159, 152), (20, 191, 160),
      (24, 255, 192)].find? (fun f => bits r.toNat f.2.1 f.2.2 != 0)).map Prod.fst
  else
    let inWindow := decide (w ≤ b) && decide (b + n ≤ w + 2 ^ 30)
    let banks := (List.range 256).filter (fun k => !apart b n (w + k * 4194304) 4194304)
    firstBad [
      (b % 4096 != 0 || decide (2 ^ 52 ≤ b), 0), (n == 0 || n % 4096 != 0, 8), (decide (2 < sp), 16), (decide (3 < pc), 17),
      (bits r.toNat 151 145 != 0, 18), (bits r.toNat 159 152 != 0, 19), (c.attrBad r, 20), (bits r.toNat 255 192 != 0, 24),
      (sp == spCache && (decide (2 ^ 52 < b + n) || !apart b n w (2 ^ 31)), 0), (sp != spCache && !inWindow, 0),
      ((List.range i).any (fun k => Region.valid (c.region k) && Region.space (c.region k) == sp
        && !apart b n (Region.base (c.region k)) (Region.size (c.region k))), 0),
      (sp != spCache && banks.any (fun k => c.mode k != (if sp = spSaggar then modeSaggar else modeKiln)), 0),
      (sp == spCache && c.homing.isEmpty, 16), ((pc == pcP || pc == pcE) && sp != spCache, 17),
      (pc == pcM && (!c.pairEn || sp == spKiln), 17), (pc == pcP && decide (c.homing.length < 2), 17)]

/-- A cone entry. -/
def Cfg.coneBad (c : Cfg) (i : Nat) : Option Nat :=
  let sum := fun (f : Nat → Nat) => (List.range (i + 1)).foldl (fun a k => a + f k) 0
  let p := c.latPctl i
  firstBad [
    (decide (16 < c.frameShare i), 0), (decide (64 < c.queueShare i), 1), (decide (64 < c.backingShare i), 2),
    (decide (15 < c.pourLen i) && c.pourLen i != 0xFF, 3),
    (p != 90 && p != 99 && p != 100 && !(p == 0 && c.latTarget i == 0), 10), (decide (20 < c.window i), 11),
    (bits (c.cone i) 127 96 != 0, 12), (decide (64 < sum c.queueShare), 1), (decide (64 < sum c.backingShare), 2)]

/-- A placement entry (R251, R252). -/
def Cfg.placeBad (c : Cfg) (w i : Nat) : Option Nat :=
  let e : Entry := tget 0 c.places i
  if Entry.empty e then none else
  let b := Entry.bank e
  let lo := w + b * 4194304
  let cover := c.regions.find? (fun p => Region.valid p.2 && Region.space p.2 == spKiln && decide (Region.base p.2 ≤ lo)
    && decide (lo + 4194304 ≤ Region.base p.2 + Region.size p.2))
  let k := match cover with
    | some (_, r) => Region.kfmt r
    | none => 0
  let onCoil := fun (q : Nat) => c.places.filter (fun p => !Entry.empty p.2 && Entry.bank p.2 == b && Entry.coil p.2 == q)
  let layerOn := fun (q : Nat) => (onCoil q).filter (fun p => Entry.layer p.2 == Entry.layer e)
  let mates := (layerOn (Entry.coil e + 1)).filter (fun p =>
    Entry.rows p.2 == Entry.rows e && Entry.outBase p.2 == Entry.outBase e)
  let mine := Entry.claims e k
  firstBad [
    (decide (4095 < Entry.layer e), 0), (bits e.toNat 31 28 != 0, 3),
    (c.mode b != modeKiln || cover.isNone, 2),
    (k == 1 && Entry.firstMat e % 16 != 0 || fmtMx k && k != 1 && Entry.firstMat e % 32 != 0, 4),
    (Entry.nmat e == 0 || decide (256 < Entry.nmat e) || decide (elemMats k < Entry.firstMat e + Entry.nmat e), 6),
    (k == 1 && Entry.nmat e % 2 != 0 || fmtMx k && k != 1 && Entry.nmat e % 4 != 0, 6),
    (Entry.rows e == 0 || decide (256 < Entry.rows e), 8), (bits e.toNat 95 80 != 0, 10), (Entry.inBase e % 32 != 0, 12),
    (bits e.toNat 255 160 != 0, 20),
    ((onCoil (Entry.coil e)).any (fun p => decide (p.1 < i) && (Entry.claims p.2 k).any mine.contains), 4),
    (Entry.chain e && (Entry.coil e == 7 || mates.isEmpty || decide (1 < (layerOn (Entry.coil e)).length)
      || decide (1 < (layerOn (Entry.coil e + 1)).length)), 3)]

/-- The protection parameters (R49). -/
def Cfg.undoBad (c : Cfg) : Option Nat :=
  let b := c.undoBase
  let n := c.undoSize * 2 ^ 28
  let hasE := c.regions.any (fun p => Region.valid p.2 && Region.pclass p.2 == pcE)
  firstBad [
    (b % 2 ^ 28 != 0 || decide (2 ^ 52 ≤ b), 0), (decide (64 < c.undoSize), 8), ((c.undoSize == 0) == hasE, 8),
    (bits c.protect.toNat 127 72 != 0, 9),
    (c.undoSize != 0 && (decide (2 ^ 52 < b + n) || c.regions.any (fun p => Region.valid p.2
      && !apart b n (Region.base p.2) (Region.size p.2))), 0)]

/-- The pair parameters (R50). -/
def Cfg.pairBad (c : Cfg) : Option Nat :=
  let p := c.pair.toNat
  firstBad [
    (decide (1 < bits p 7 0), 0), (bits p 15 10 != 0 || (c.pairEn && c.mirrorPorts == 0), 1), (bits p 31 28 != 0, 2),
    (decide (c.mirrorTimeout < 50) || decide (1000 < c.mirrorTimeout), 8), (bits p 127 80 != 0, 10)]

/-- Check 6: the entry that breaks a rule, sections in ascending type and entries in ascending index (R469). -/
def State.breach (s : State) (p : Parsed) : Option SybFail :=
  let c := p.cfg
  let w := s.window
  let at0 := fun (o : Option Nat) => o.map (fun f => (f, (0 : Nat)))
  let each := fun (n : Nat) (f : Nat → Option Nat) => (List.range n).findSome? (fun i => (f i).map (fun o => (o, i)))
  let placed := c.places.findSome? (fun q => (c.placeBad w q.1).map (fun o => (o, q.1)))
  let inter := firstBad [(decide (1 < c.hash.toNat), 0), (bits p.inter 63 8 != 0, 1)]
  let proto := firstBad [
    (!s.fw.parts.any (fun q => q.type == 4 && q.id.toNat == c.protocolId), 0),
    (bits c.protocol.toNat 15 10 != 0, 1), (bits c.protocol.toNat 63 16 != 0, 2)]
  let found := c.modeBad <|> at0 inter <|> each 256 (c.regionBad w) <|> each 8 c.coneBad <|> at0 proto <|> placed
    <|> at0 c.undoBad <|> (if p.paired then at0 c.pairBad else none)
  found.map (fun q => (stBadOp, streamField unEntry q.1 q.2))

/-! ### Whole streams (R51, R457) -/

/-- The configuration of a base stream, or why it fails. -/
def State.checkBase (s : State) (bs : List Byte) (len : Nat) (isDefault : Bool) : Except SybFail Parsed :=
  let early := if isDefault then headerCheck bs false
    else lengthFail bs len false <|> headerCheck bs false <|> s.keyFail bs
  match early with
  | some e => .error e
  | none => match parseBase bs with
    | .error e => .error e
    | .ok p => match s.breach p with
      | some e => .error e
      | none => .ok p
/-- The configuration of an overlay stream on the active one. -/
def State.checkOverlay (s : State) (bs : List Byte) (len : Nat) : Except SybFail Parsed :=
  match lengthFail bs len true <|> headerCheck bs true <|> s.digestFail bs <|> s.keyFail bs with
  | some e => .error e
  | none => match parseOverlay s.cfg bs with
    | .error e => .error e
    | .ok p => match s.breach p with
      | some e => .error e
      | none => .ok p

/-! ### What an overlay affects (R59) -/

/-- Banks whose mode changes. -/
def Cfg.modeChanges (a b : Cfg) : List Nat := (List.range 256).filter (fun k => a.mode k != b.mode k)
/-- Region indexes whose entry changes. -/
def Cfg.regionChanges (a b : Cfg) : List Nat := (List.range 256).filter (fun i => a.region i != b.region i)
/-- Placement indexes that an overlay adds, clears or changes. -/
def Cfg.placeChanges (a b : Cfg) : List Nat :=
  (dedup (a.places.map Prod.fst ++ b.places.map Prod.fst)).filter (fun i => tget 0 a.places i != tget 0 b.places i)
/-- Placement indexes whose count of entries changes, empty ones included. -/
def Cfg.placeSpan (a b : Cfg) : List Nat :=
  dedup (a.placeChanges b ++ (List.range (max a.placeN b.placeN)).filter (fun i => decide (a.placeN ≤ i) || decide (b.placeN ≤ i)))
/-- The areas, before and after, of the regions whose entry changes. -/
def Cfg.areasAffected (a b : Cfg) : List (Nat × Nat) :=
  (a.regionChanges b).flatMap (fun i =>
    ([a.region i, b.region i].filter Region.valid).map (fun r => (Region.base r, Region.size r)))
/-- All banks affected. -/
def Cfg.banksAffected (a b : Cfg) : List Nat :=
  let of := fun (c : Cfg) (i : Nat) =>
    if Entry.empty (tget 0 c.places i) then [] else [Entry.bank (tget 0 c.places i)]
  sortBy id (dedup (a.modeChanges b ++ (a.placeChanges b).flatMap (fun i => of a i ++ of b i)))
/-- Mats of kiln banks that stay in kiln mode and hold zero from step 5 on (R60, R62). -/
def State.matsZeroed (s : State) (a b : Cfg) : List (Nat × Nat × Nat) :=
  let of : State → Cfg → Nat → List (Nat × Nat × Nat) := fun st c i =>
    let e : Entry := tget 0 c.places i
    if Entry.empty e || a.mode (Entry.bank e) != modeKiln || b.mode (Entry.bank e) != modeKiln then []
    else
      let k := st.kfmtOf (Entry.bank e)
      let pad := if k = 1 then [255] else []
      (Entry.claims e k ++ pad).map (fun q => (Entry.bank e, Entry.coil e, q))
  let next : State := { s with syb := { s.syb with cfg := b } }
  dedup ((a.placeChanges b).flatMap (fun i => of s a i ++ of next b i))

/-! ### Applying a configuration -/

/-- Zero a whole saggar or kiln bank, its POISON bits included (R54, R60). -/
def State.zeroBanks (s : State) (bs : List Nat) : State := s.zeroArr (fun a => bs.contains (a / 4194304))
/-- Cache banks are invalidated and enabled; their INV_DONE is set (R119). -/
def State.enableBanks (s : State) (bs : List Nat) : State :=
  bs.foldl (fun st b => (st.tagInvalidate b).modShelf (b / 16) (fun h =>
    { h with bankEn := setBit h.bankEn (b % 16) true, invDone := setBit h.invDone (b % 16) true })) s
/-- Banks that leave cache mode: CACHE_EN and INV_DONE read 0 (R119). -/
def State.disableBanks (s : State) (bs : List Nat) : State :=
  bs.foldl (fun st b => (st.tagInvalidate b).modShelf (b / 16) (fun h =>
    { h with bankEn := setBit h.bankEn (b % 16) false, invDone := setBit h.invDone (b % 16) false
             tagInv := setBit h.tagInv (b % 16) false, cleaning := setBit h.cleaning (b % 16) false })) s

/-- The enables that a base load sets and locks (R406): shelves; halves, engines, sequencers A and B, backing and near ports,
and the far ports of MIRROR_PORTS. -/
def lockBits (c : Cfg) : BitVec 22 := BitVec.ofNat 22 (0xFFF3F + c.mirrorPorts * 2 ^ 20)
def State.lockEnables (s : State) : State :=
  let b := lockBits s.cfg
  let s1 : State := { s with ckp := { s.ckp with lock0 := 0xFFFF, lock1 := s.ckp.lock1 ||| b } }
  s1.setEnables 0xFFFF (s1.ckp.clken1 ||| b)

/-- Every agent and near fabric link advertises the credits of its buffers (R145, R440). -/
def State.advertise (s : State) : State :=
  let put := fun (p : Port) (l : Link) => { l with advertised := true, given := (List.range 4).map (fun c => (c, bufferCount p c)) }
  let l1 := (List.finRange 32).foldl (fun t n => tmod Link.reset t n.val (put (.agent n))) s.links.agent
  let l2 := (List.finRange 4).foldl (fun t n => tmod Link.reset t n.val (put (.near n))) s.links.near
  { s with links := { s.links with agent := l1, near := l2 } }

/-- Mirror ports that are up (R372). -/
def State.pairPorts (s : State) : State :=
  let v := [0, 1].foldl (fun (v : BitVec 2) n => setBit v n (bit s.cfg.mirrorPorts n && s.cfg.pairEn && (s.far n).up)) 0
  (s.mirrorPorts v).mirrorFlush

/-- The base load succeeds (R54, R82, R119, R268, R322, R349, R406, R440). -/
def State.applyBase (s : State) (bs : List Byte) (c : Cfg) : State :=
  let cache := (List.range 256).filter (fun b => c.mode b == modeCache && !(s.shelf (b / 16)).retired.getLsbD (b % 16))
  let other := (List.range 256).filter (fun b => c.mode b != modeCache)
  let s1 : State := { s with
    syb := { s.syb with state := .active, serial := BitVec.ofNat 32 (sySerial bs), cfg := c
                        digest := BitVec.ofNat 128 (leNat ((sha384 bs).take 16)) }
    ep := { s.ep with num := 1 }
    kiln := { s.kiln with entries := [] }
    tly := { s.tly with count := [] } }
  let s2 := (s1.zeroBanks other).enableBanks cache
  let s3 := (List.range 16).foldl (fun st i => st.modShelf i (fun h => { h with table := BitVec.ofNat 8 c.protocolId })) s2
  (List.range 8).foldl (fun st i => st.newWindow i) s3.lockEnables.advertise.pairPorts

end Sys2Proof.Machine
end

