-- ==== Sys2Proof/Machine/SybinRows.lean ====
section
/-! DEFINITION. The base load (R53 to R55, R457) and the glaze point (R56, R60 to R65). -/
namespace Sys2Proof.Machine

/-! ### The base load (R53 to R55, R457) -/

/-- LOAD is written 1: SYB_EARLY before RUNNING, SYB_RELOAD while a load runs or a base is active; else the load starts. -/
def State.loadStart (s : State) : State :=
  if s.boot.step ≠ .running then s.event 0x0202 srcSlice []
  else if s.syb.state = .loading ∨ s.syb.state = .active then s.event 0x0201 srcSlice []
  else { s with syb := { s.syb with state := .loading, loadDefault := s.syb.len == 0, loadLen := s.syb.len } }

/-- A base load fails: STATE reads ERROR and ERR the status. -/
def State.loadFail (s : State) (st : BitVec 8) : State := { s with syb := { s.syb with state := .error, err := st } }

/-- BASE_LOAD_DONE: the stream has been read, or a read was uncorrectable; it is checked and applied. With SYB_LEN 0 it is the
default base of the active image (R457). -/
def execBaseLoadDone (stream : List Byte) (ue : Bool) (s : State) : Host.Outcome State Fault Refusal :=
  State.done (
    if s.syb.state ≠ .loading then s
    else
      let bs := if s.syb.loadDefault then s.fw.defaultBase else stream
      if ue && !s.syb.loadDefault then s.loadFail stBounds
      else match s.checkBase bs s.syb.loadLen.toNat s.syb.loadDefault with
        | .error e => s.loadFail e.1
        | .ok p => s.applyBase bs p.cfg)

/-! ### The glaze point: steps 1 to 3 (R56, R60, R61) -/

/-- Overlays that wait for their turn, in the order of their submission. -/
def State.overlays (s : State) : List Nat :=
  (sortBy (fun p => p.2.order) (s.cmds.ctxs.filter (fun p =>
    p.2.phase == Phase.acting && dOp p.2.desc == opOverlay && p.1 != 256))).map Prod.fst

/-- GLAZE_POINT_START: no glaze point is open and no handover runs; the first overlay opens one and its stream is read (R56, R60,
R400). -/
def execGlazePointStart (s : State) : Host.Outcome State Fault Refusal :=
  State.done (match s.overlays with
    | [] => s
    | c :: _ =>
      if s.glaze.step != .idle || (s.fw.step != 0 && s.fw.step != 6) || s.quenching then s else
      let d := (s.ctx c).desc
      ({ s with glaze := { Glaze.closed with step := .reading, ctx := c } }).gather c (linesOf (dAddr d) (min (dLen d) 65536)) false)

/-- An open glaze point ends before its commit with a failed check. -/
def State.glazeFail (s : State) (e : SybFail) : State :=
  { s with glaze := Glaze.closed }.endCtx s.glaze.ctx e.1 e.2

/-- The drain of an overlay, one activity in one slot: every affected cache region, and every bank that leaves cache mode (R61,
R121). -/
def State.drainStart (s : State) (a b : Cfg) : State :=
  let regions := (a.regionChanges b).filterMap (fun i =>
    let r := a.region i
    if Region.valid r && Region.space r == spCache then
      some (DrainPart.region (Region.base r / 128) (Region.size r / 128)) else none)
  let banks := ((a.modeChanges b).filter (fun k => a.mode k == modeCache)).map DrainPart.bank
  match regions ++ banks with
  | [] => s
  | ps => s.rangeWait { newRange .drain 0 0 none with parts := ps }

/-- GLAZE_STREAM_READ_DONE: the stream is here and checked; affected requests are held and the drain starts (R59 to R61, R469). -/
def execGlazeStreamReadDone (s : State) : Host.Outcome State Fault Refusal :=
  State.done (
    let c := s.glaze.ctx
    let x := s.ctx c
    if s.glaze.step != .reading || !x.need.isEmpty || s.quenching then s
    else match x.poison.map (s.readRefusal 8), s.checkOverlay (x.bytesAt (dAddr x.desc) (min (dLen x.desc) 65536)) (dLen x.desc) with
      | some e, _ => s.glazeFail e
      | none, .error e => s.glazeFail e
      | none, .ok p =>
        let banks := s.cfg.banksAffected p.cfg
        let s1 : State := { s with glaze := { s.glaze with
          step := .draining, next := p.cfg, banks := banks, areas := s.cfg.areasAffected p.cfg
          zeroMats := s.matsZeroed s.cfg p.cfg } }
        (banks.foldl (fun st b => st.askWake (b / 16)) s1.unqueueHeld).drainStart s.cfg p.cfg)

/-! ### Commit, preparation, end (R60, R62 to R65) -/

/-- A decoded kiln command that the drain completes first: it is not held, and uses an affected bank, or one in an affected region
(R60, R63, R64). -/
def State.kilnDrains (s : State) : Bool :=
  s.cmds.ctxs.any (fun p =>
    let op := dOp p.2.desc
    (op == opKilnFire || op == opKilnLoad) && p.2.phase != Phase.fetched && p.2.phase != Phase.done && p.2.phase != Phase.recording
      && !s.glaze.waiting.contains p.1 && (s.kilnBanks p.1).any s.glazeBank)
/-- Admitted work on affected banks and regions has ended (R60, R61). -/
def State.drained (s : State) : Bool :=
  let hits := s.glazeHolds
  let isDrain := fun (p : Nat × Option RangeAct) => match p.2 with
    | some a => a.drain
    | none => false
  !s.ranges.slots.any isDrain && !s.ranges.waiting.any RangeAct.drain
    && !s.home.txns.any (fun t => hits t.req.line || t.victimFor.any (fun q => hits q.line)) && !s.back.miss.any (fun m => hits m.line)
    && !s.back.missWait.any (fun m => hits m.line) && !s.pair.waits.any (fun w => match w.2 with
      | .saggar r _ => hits r.line
      | .write l => hits l
      | _ => false)
    && !s.kilnDrains && s.glaze.banks.all (fun b => !s.awaits (.clean b) && (s.half (shelfHalf (b / 16))).st == .awake)

/-- Region entries have changed: the twin is told, and the entries are compared with those it last sent (R65). -/
def State.regionsChanged (s : State) (a : Cfg) (is : List Nat) : State :=
  if is.isEmpty || !s.cfg.pairEn || s.pair.link = 0 then s else
  let all := (List.range 256).filter (fun i => a.mEntry i != 0 || s.cfg.mEntry i != 0)
  is.foldl (fun st i => st.compareEntry i (tget 0 st.pair.twinM i)) (s.sendMcfg all)

/-- Step 4: the new configuration stands in every shelf; changed placement entries are UNLOADED, and the windows of changed cones
start again; a request that a new reservation of its cone lets in enters (R60, R65, R268, R322, R326). -/
def State.glazeCommit (s : State) : State :=
  let a := s.cfg
  let b := s.glaze.next
  let places := a.placeSpan b
  let cones := (List.range 8).filter (fun c => a.cone c != b.cone c)
  let s1 : State := { s with
    syb := { s.syb with cfg := b, ovlGen := s.syb.ovlGen + 1 }
    glaze := { s.glaze with step := .preparing }
    kiln := { s.kiln with reloads := s.kiln.reloads.filter (fun r => !places.contains r.entry) } }
  let s2 := places.foldl (fun st i => st.modEntry i (fun e => { e with st := .unloaded, record := none })) s1
  let s3 := cones.foldl (fun st c => st.newWindow c) s2
  let leaving := (a.modeChanges b).filter (fun k => a.mode k == modeCache)
  ((s3.disableBanks leaving).regionsChanged a (a.regionChanges b)).retryChannels

/-- GLAZE_DRAIN_DONE: the drain has finished, and the configuration is committed. -/
def execGlazeDrainDone (s : State) : Host.Outcome State Fault Refusal :=
  State.done (if s.glaze.step == .draining && !s.quenching && s.drained then
    { s.glazeCommit with glaze := { s.glazeCommit.glaze with drains := s.cfg.modeChanges s.glaze.next } }
  else s)

/-- Zero whole mats (R60, R62). -/
def State.zeroMats (s : State) (ms : List (Nat × Nat × Nat)) : State :=
  let hit := fun (a : Nat) => ms.contains (a / 4194304, bits a 13 11, 16 * bits a 10 7 + bits a 6 3)
  { s with arr := { s.arr with bytes := s.arr.bytes.filter (fun c => !hit c.1) } }

/-- Steps 5 and 6: banks entering cache mode are invalidated and enabled, those entering saggar or kiln mode zeroed, changed mats
zeroed; what was held goes on, and the ticket completes (R60, R62, R119). -/
def State.glazeEnd (s : State) : State :=
  let g := s.glaze
  let entering := g.drains
  let good := fun (b : Nat) => !(s.shelf (b / 16)).retired.getLsbD (b % 16)
  let s1 := (s.zeroBanks (entering.filter (fun b => s.cfg.mode b != modeCache))).enableBanks
    (entering.filter (fun b => s.cfg.mode b == modeCache && good b))
  let s2 : State := { s1.zeroMats g.zeroMats with glaze := Glaze.closed }
  let s3 := g.waiting.foldl (fun st c => if dOp (st.ctx c).desc = opKilnFire && (st.ctx c).phase == Phase.waiting then st.fireMake c else st) s2
  ((s3.endCtx g.ctx stOk 0).releaseHeld).retryChannels

/-- GLAZE_PREPARE_DONE: invalidation and zeroing end. -/
def execGlazePrepareDone (s : State) : Host.Outcome State Fault Refusal :=
  State.done (if s.glaze.step == .preparing && !s.quenching then s.glazeEnd else s)

end Sys2Proof.Machine
end

