-- ==== Sys2Proof/Machine/RegRead.lean ====
section
/-! DEFINITION. What each register reads, page by page (R461 to R467 and the register tables of every chapter), the side effects
of a read (R426, R464), and the interrupt outputs (R447). An offset that names no register reads 0 (R462). -/
namespace Sys2Proof.Machine

/-- A value with its low bit at a place. -/
def at' (v lo : Nat) : Nat := v <<< lo
/-- Word n of a wide value. -/
def wordAt (v n : Nat) : Nat := v / 2 ^ (32 * n) % 2 ^ 32
/-- A vector of bits from a test. -/
def bitsWhere (n : Nat) (p : Nat → Bool) : Nat := (List.range n).foldl (fun v i => v + b2n (p i) * 2 ^ i) 0
/-- Half of a page or index. -/
def halfOf (i : Nat) : Half := if i = 0 then .a else .b

/-! ### Global (R67, R122, R127, R150, R259, R260, R268, R284, R444, R454, R456, R467) -/

def State.readKpeer (s : State) (n off : Nat) : Nat :=
  let p := tget Peer.none s.kiln.peers n
  match off with
  | 0x0 => wordAt p.base.toNat 0
  | 0x4 => wordAt p.base.toNat 1
  | 0x8 => p.size.toNat
  | 0xC => b2n p.valid + at' (b2n p.err) 1
  | _ => 0

/-- GLB_KENTRY_STAT. -/
def State.readKentry (s : State) : Nat :=
  let e := s.kentry s.kiln.idx.toNat
  let st := match e.st with
    | .unloaded => 0
    | .loaded => 1
    | .reloading => 2
    | .lost => 3
  st + at' e.reloads.toNat 8

/-- GLB_LINK_STAT: a partner's credits have come where some are left, or where they were spent on beats. -/
def State.readLink (s : State) : Nat :=
  let heard := fun (l : Link) => !l.credits.isEmpty || !l.window.isEmpty
  let near := bitsWhere 4 (fun n => heard (tget Link.reset s.links.near n))
  let far := bitsWhere 2 (fun n => (s.far n).up)
  near + at' far 4 + at' (popCount (s.far 0).lanes) 6 + at' (popCount (s.far 1).lanes) 11

def State.readGlb (s : State) (off : Nat) : Nat :=
  match off with
  | 0x000 => Config.partId.toNat
  | 0x004 => Config.siliconRev.toNat + at' Config.romVersion.toNat 8
  | 0x008 => 16 + at' 16 5 + at' 32 10 + at' 8 16 + at' 4 20 + at' 2 23
  | 0x00C => 256 + at' 4096 9 + at' 16 22
  | 0x010 => s.boot.sliceBase.toNat
  | 0x014 => 1024 + at' 64 11 + at' 1 18 + at' 1 19
  | 0x018 => s.boot.scratch.toNat
  | 0x040 => bitsWhere 16 (fun n => (tget none s.ranges.slots n).isSome)
  | 0x050 => wordAt s.ranges.addr.toNat 0
  | 0x054 => wordAt s.ranges.addr.toNat 1
  | 0x058 => at' (b2n s.ranges.lineop.isSome) 8
  | 0x080 => s.agents.id.toNat
  | 0x084 => s.agents.cfg.toNat
  | 0x08C => b2n s.agents.busy + at' s.agents.result.toNat 1
      + at' (s.agents.table.filter (fun p => p.2.st == .yes || p.2.st == .leaving)).length 16
  | 0x0A0 => s.kiln.idx.toNat
  | 0x0A4 => s.readKentry
  | 0x0B0 => s.kiln.engine.toNat + at' (b2n s.kiln.engineValid) 31
  | 0x0C0 => at' s.boot.port.toNat 1
  | 0x0C4 => s.boot.step.code + at' s.boot.err.toNat 8
  | 0x0C8 => wordAt s.boot.src.toNat 0
  | 0x0CC => wordAt s.boot.src.toNat 1
  | 0x0D0 => b2n s.boot.bistDone + at' (b2n s.boot.bistRetired) 1 + at' s.boot.bistFails.toNat 16
  | 0x0D4 => s.readLink
  | _ => if 0x100 ≤ off ∧ off < 0x180 then s.readKpeer ((off - 0x100) / 16) (off % 16) else 0

/-! ### Clocks and power (R404 to R423) -/

def HalfClk.readClk (c : HalfClk) : Nat := b2n c.sel + at' (b2n c.switching) 8 + at' (b2n c.cur) 9
def HalfClk.waking (c : HalfClk) : Bool := c.st == .vddUp || c.st == .locking || c.st == .restoring
def State.readCkp (s : State) (off : Nat) : Nat :=
  let k := s.ckp
  match off with
  | 0x010 => k.clken0.toNat
  | 0x014 => k.clken1.toNat
  | 0x020 => k.a.readClk
  | 0x024 => k.b.readClk
  | 0x028 => b2n k.a.hung + at' (b2n k.b.hung) 1 + at' (b2n k.a.lost) 2 + at' (b2n k.b.lost) 3
  | 0x030 => k.dozeIdle.toNat
  | 0x034 => k.retCfg.toNat
  | 0x038 => k.doze.toNat + at' (b2n (k.a.st == .retained)) 16 + at' (b2n (k.b.st == .retained)) 17
      + at' (b2n k.a.waking) 18 + at' (b2n k.b.waking) 19
  | 0x040 => s.ratio .a + at' (s.ratio .b) 8 + at' (b2n k.a.droop) 16 + at' (b2n k.b.droop) 17 + at' k.droopSkip.toNat 24
  | 0x050 => k.est.toNat + at' k.raw.toNat 16
  | 0x054 => k.meas.toNat + at' (b2n k.measValid) 16
  | 0x058 => k.calK.toNat + at' k.calMiss.toNat 16 + at' (b2n k.calHold) 31
  | 0x05C => k.margin.toNat + at' (b2n k.drift) 16
  | 0x060 => k.holdMs.toNat + at' (b2n k.coolStop) 16 + at' (b2n k.coolActive) 17 + at' (b2n k.coolSeen) 18
  | 0x070 => k.a.v.toNat + at' k.b.v.toNat 16
  | 0x074 => k.a.t.toNat + at' k.b.t.toNat 8 + at' (b2n k.thermHigh) 16
  | _ => if 0x080 ≤ off ∧ off < 0x09C then s.weight ((off - 0x080) / 4) else 0

/-! ### Sybin, rings, events, cones (R53, R60, R287 to R309, R317 to R325, R448) -/

def State.readSyb (s : State) (off : Nat) : Nat :=
  let st := match s.syb.state with
    | .config => 0
    | .loading => 1
    | .active => 2
    | .error => 3
  match off with
  | 0x004 => st + at' s.syb.err.toNat 8 + at' (b2n (s.glaze.step != .idle)) 16
  | 0x008 => wordAt s.syb.src.toNat 0
  | 0x00C => wordAt s.syb.src.toNat 1
  | 0x010 => s.syb.len.toNat
  | 0x014 => s.syb.serial.toNat
  | 0x018 => s.syb.ovlGen.toNat
  | 0x020 => wordAt s.syb.digest.toNat 0
  | 0x024 => wordAt s.syb.digest.toNat 1
  | 0x028 => wordAt s.syb.digest.toNat 2
  | 0x02C => wordAt s.syb.digest.toNat 3
  | _ => 0

/-- RNG_CFGn. -/
def Ring.readCfg (g : Ring) : Nat :=
  g.sqLog.toNat + at' g.cqLog.toNat 4 + at' g.cq.toNat 8 + at' g.priv.toNat 12 + at' g.poll.toNat 14 + at' g.irqSel.toNat 18
    + at' (b2n g.errIrq) 20 + at' (b2n g.en) 31
/-- RNG_STATn: a ring fetches while its completion ring has no CQ_ERR (R290). -/
def State.readStat (s : State) (n : Nat) : Nat :=
  let g := s.ring n
  let may := g.active && !(s.ring (s.cqOf n)).cqErr
  b2n may + at' (b2n (s.ringIdle n)) 1 + at' (b2n (g.en && g.watched)) 2 + at' (b2n g.overrun) 3 + at' (b2n g.fetchErr) 4
    + at' (b2n g.cqErr) 5 + at' (b2n g.cfgErr) 6 + at' (s.cmds.ctxs.filter (fun p => p.2.ring == n)).length 8
def State.readRing (s : State) (n off : Nat) : Nat :=
  let g := s.ring n
  match off with
  | 0x00 => wordAt g.sqBase.toNat 0
  | 0x04 => wordAt g.sqBase.toNat 1
  | 0x08 => wordAt g.cqBase.toNat 0
  | 0x0C => wordAt g.cqBase.toNat 1
  | 0x10 => wordAt g.ctl.toNat 0
  | 0x14 => wordAt g.ctl.toNat 1
  | 0x18 => g.readCfg
  | 0x1C => s.readStat n
  | 0x24 => g.sqHead.toNat
  | 0x28 => g.cqTail.toNat
  | _ => 0
def State.readRng (s : State) (off : Nat) : Nat :=
  match off with
  | 0x400 => s.cmds.irqStat.toNat
  | 0x404 => s.cmds.irqEn.toNat
  | 0x408 => s.cmds.ctxs.length
  | _ => if off < 0x400 then s.readRing (off / 0x40) (off % 0x40) else 0

def State.readEvt (s : State) (off : Nat) : Nat :=
  match off with
  | 0x000 => s.evt.irqSel.toNat + at' (b2n s.evt.irqEn) 2
  | 0x004 => s.evt.queue.length + at' s.evt.dropped.toNat 16
  | _ => if 0x020 ≤ off ∧ off < 0x040 then wordAt s.evt.head.toNat ((off - 0x020) / 4) else 0

def State.readMon (s : State) (c off : Nat) : Nat :=
  let m := s.mon c
  match off with
  | 0x0 => wordAt m.outBytes.toNat 0
  | 0x4 => wordAt m.outBytes.toNat 1
  | 0x8 => m.outReqs.toNat
  | 0xC => m.outOver.toNat
  | _ => 0
def State.readCon (s : State) (off : Nat) : Nat :=
  match off with
  | 0x000 => b2n s.cone.monEn + at' s.cone.irqSel.toNat 2
  | 0x004 => s.cone.throttle.toNat
  | 0x008 => s.cone.occ.toNat
  | 0x00C => s.cone.stale.toNat
  | 0x010 => s.cone.miss.toNat
  | 0x014 => s.cone.irqEn.toNat
  | _ => if 0x100 ≤ off ∧ off < 0x180 then s.readMon ((off - 0x100) / 16) (off % 16) else 0

/-! ### Performance counters (R425 to R436) -/

def State.pmc (s : State) (n : Nat) : Pmc := tget Pmc.reset s.pmu.pmcs n
/-- The counter counts cycles that no command reports: events 0x12, 0x15 and 0x16 (R431), on some attribute its filters pass. -/
def Pmc.unseen (p : Pmc) : Bool :=
  p.en && (p.code == 0x12 || p.code == 0x15 || p.code == 0x16)
    && (List.range 3).any (fun pr => (List.range 8).any (fun c => (List.range 4).any (fun m =>
      p.passes ⟨pr, none, none, if p.code == 0x15 then none else some (BitVec.ofNat 3 c), if p.code == 0x15 then some m else none,
        none⟩)))
/-- Such a counter has grown by a free amount short of its wrap, which PMC_WRAP reports (log 7). -/
def State.ripen (s : State) (n : Nat) : State :=
  let p := s.pmc n
  if p.unseen then
    let (v, s1) := s.draw
    let left := 2 ^ 48 - p.count.toNat
    { s1 with pmu := { s1.pmu with pmcs := tset Pmc.reset s1.pmu.pmcs n { p with count := p.count + BitVec.ofNat 48 (v.toNat % left) } } }
  else s

def Pmc.read (p : Pmc) (off : Nat) : Nat :=
  match off with
  | 0x00 => wordAt p.count.toNat 0
  | 0x04 => p.evt.toNat
  | 0x08 => p.flt.toNat
  | 0x0C => p.agent.toNat
  | 0x10 => wordAt p.abase.toNat 0
  | 0x14 => wordAt p.abase.toNat 1
  | 0x18 => wordAt p.alim.toNat 0
  | 0x1C => wordAt p.alim.toNat 1
  | _ => 0
/-- The number of the counter whose PMCn_LO lies at an offset. -/
def pmcLo (off : Nat) : Option Nat := if 0x100 ≤ off ∧ off < 0x200 ∧ off % 0x20 = 0 then some ((off - 0x100) / 0x20) else none
/-- A port byte counter lies at an offset (R435). -/
def portReg (off : Nat) : Bool := decide (0x800 ≤ off) && decide (off < 0x970)
def State.readPmu (s : State) (off : Nat) (priv : Bool) : Nat :=
  let p := s.pmu
  match off with
  | 0x000 => b2n p.userEn + at' p.irqSel.toNat 1
  | 0x004 => p.ovf.toNat
  | 0x008 => (if priv then p.latchPriv else p.latchUser).toNat
  | 0x010 => wordAt p.cyc.toNat 0
  | 0x020 => wordAt p.sampAddr.toNat 0
  | 0x024 => wordAt p.sampAddr.toNat 1
  | 0x028 => p.sampInfo.toNat
  | 0x030 => p.winUs.toNat
  | 0x034 => p.winSeq.toNat
  | 0x038 => p.winFclk.toNat
  | _ =>
    if 0x100 ≤ off ∧ off < 0x200 then (s.pmc ((off - 0x100) / 0x20)).read (off % 0x20)
    else if portReg off then
      (tget 0 (if off % 8 = 0 then p.outIn else p.outOut) ((off - 0x800) / 8)).toNat
    else 0

/-! ### Faults, epochs, quench (R329 to R346, R349 to R364) -/

/-- The fullest stripe: on a tie of stripes that are not empty, which of them is free (log 7). -/
def State.fullest (s : State) : Nat × State :=
  let fill := fun (n : Nat) => tget 0 s.ep.fill n
  let top := (List.range 8).foldl (fun m n => max m (fill n)) 0
  let ties := (List.range 8).filter (fun n => fill n == top)
  if top = 0 ∨ ties.length = 1 then (ties.headD 0, s) else
    let (v, s1) := s.draw
    (ties.getD (v.toNat % ties.length) 0, s1)
/-- FLT_UNDO_FILL. -/
def State.readFill (s : State) : Nat × State :=
  let (n, s1) := s.fullest
  let k := if s.capacity = 0 then 0 else min 255 (256 * tget 0 s.ep.fill n / s.capacity)
  (k + at' n 8, s1)
/-- FLT_QUENCH_STAT. -/
def State.readQuench (s : State) : Nat :=
  s.ep.cause.toNat + at' (b2n s.quenching) 4 + at' (s.ep.step % 8) 5 + at' (b2n s.ep.isLocal) 8 + at' (b2n s.ep.incomplete) 9
    + at' s.ep.quenches.toNat 16
def State.readFlt (s : State) (off : Nat) : Nat :=
  let f := s.flt
  match off with
  | 0x000 => f.storm.toNat
  | 0x004 => b2n f.ovf + at' (b2n f.noStandby) 1 + at' (b2n f.sparesLow) 2
  | 0x008 => f.wedgeInterval.toNat + at' (b2n f.wedgeEn) 5
  | 0x00C => f.passes.toNat
  | 0x010 => f.logIdx.toNat
  | 0x014 => f.logSeq.toNat
  | 0x0A0 => s.ep.num.toNat
  | 0x0A4 => b2n (s.ep.cutStep != 0) + at' (b2n s.ep.sweep) 1 + at' (b2n s.ep.forced) 2 + at' (b2n s.ep.cur) 3
  | 0x0B4 => s.readQuench
  | 0x0B8 => s.ep.restored.toNat
  | 0x0BC => s.ep.deadFirst.toNat + at' s.ep.deadCount.toNat 16
  | _ =>
    if 0x020 ≤ off ∧ off < 0x040 then wordAt (tget 0 f.log f.logIdx.toNat).toNat ((off - 0x020) / 4)
    else if 0x040 ≤ off ∧ off < 0x080 then (tget 0 f.trans ((off - 0x040) / 4)).toNat
    else if 0x080 ≤ off ∧ off < 0x090 then wordAt f.peHdr.toNat ((off - 0x080) / 4)
    else if 0x090 ≤ off ∧ off < 0x0A0 then wordAt f.peDir.toNat ((off - 0x090) / 4)
    else 0

/-! ### Pair, firmware, Life Record (R344 to R346, R372 to R388, R393 to R399) -/

/-- Regions that this slice writes: as writer twin, or solo. -/
def State.writes (s : State) (i : Nat) : Bool :=
  match s.role i (s.cfg.region i) with
  | .writer => true
  | .solo => true
  | .soloWait => true
  | _ => false
/-- PAR_LEASE_LEFT: ms until the earliest lease expires; which neighbour stands for a part of one is free (log 7). -/
def State.readLeft (s : State) : Nat × State :=
  match minBy id (s.pair.leases.map Prod.snd) with
  | none => (0, s)
  | some e => s.divFree (e - s.ckp.eclk) 50000
def State.readPar (s : State) (off : Nat) : Nat :=
  let p := s.pair
  match off with
  | 0x000 => b2n (p.full && !p.map.isEmpty)
  | 0x004 => p.link.toNat + at' p.ports.toNat 2 + at' (b2n p.mismatch) 4 + at' (b2n p.conflict) 5 + at' p.twinVer.toNat 8
      + at' s.fw.mirrorVer.toNat 16
  | 0x008 => s.cfg.gshift + at' p.map.length 5
  | 0x010 => wordAt p.seq.toNat 0
  | 0x014 => wordAt p.seq.toNat 1
  | _ =>
    if 0x020 ≤ off ∧ off < 0x040 then wordAt p.held?.toNat ((off - 0x020) / 4)
    else if 0x040 ≤ off ∧ off < 0x060 then wordAt (p.fenced ||| p.unmatched).toNat ((off - 0x040) / 4)
    else if 0x060 ≤ off ∧ off < 0x080 then bitsWhere 32 (fun b => s.writes (32 * ((off - 0x060) / 4) + b))
    else 0

def State.readFwu (s : State) (off : Nat) : Nat :=
  let f := s.fw
  match off with
  | 0x000 => (match f.stage with
      | .empty => 0
      | .loading => 1
      | .rejected => 2) + at' (if f.stage = .loading then imgLen f.header / 64 else 0) 9
  | 0x004 => f.step.toNat + at' (b2n (f.trail != 0)) 3 + at' (b2n f.noStandby) 4 + at' (b2n f.bootFail) 5 + at' (b2n f.fuseFail) 6
  | 0x008 => s.fusedCount + at' (s.life.arb.toNat % 256) 8 + at' (bitsWhere 4 (fun n => s.keyOk true n)) 16
  | 0x010 => f.partIdx.toNat
  | 0x014 => match f.parts.find? (fun p => p.id == f.partIdx) with
    | some p => p.version.toNat
    | none => 0
  | 0x018 => f.imageVer.toNat
  | _ => 0

def State.readLif (s : State) (off : Nat) : Nat :=
  match off with
  | 0x000 => s.life.age.toNat / 24
  | 0x004 => s.life.poh.toNat
  | 0x008 => s.life.slot.toNat + at' (b2n s.life.fail) 3
  | 0x00C => at' s.life.idx.toNat 2
  | 0x010 => leNat (s.lifeAt (4 * s.life.idx.toNat) 4)
  | _ => 0

/-! ### Shelves, halves, tallies (R111, R113, R118, R155, R188, R214, R224 to R233, R281, R335) -/

/-- SHF_SPARE_STAT: the spares left in the pools of a bank, of the shelf and of its lanes, those returned to them included (R17,
R337). -/
def State.readSpare (s : State) (sh : Nat) : Nat :=
  let h := s.shelf sh
  let left := fun (u : FaultUnit) => (s.freeSpares u).length
  let b : Fin 272 := Fin.ofNat 272 (s.physBank (16 * sh + h.spareLocal.toNat))
  let lane := fun (l : Nat) => left (.auuLane (Fin.ofNat 16 sh) (Fin.ofNat 64 l))
  h.spareLocal.toNat + at' (left (.mat b 0 [])) 4 + at' (left (.tagRow b 0)) 10
    + at' (left (.bank (Fin.ofNat 272 (16 * sh)))) 15 + at' (lane 0 + lane 32) 16 + at' (b2n (h.retired != 0)) 19
def State.readShf (s : State) (sh off : Nat) : Nat :=
  let h := s.shelf sh
  match off with
  | 0x000 => h.bankEn.toNat
  | 0x004 => h.invDone.toNat
  | 0x008 => h.tagInv.toNat
  | 0x010 => wordAt (lineAddr h.pinRefused) 0 + b2n h.pinValid
  | 0x014 => wordAt (lineAddr h.pinRefused) 1
  | 0x020 => h.thresh.toNat
  | 0x024 => h.pour.toNat
  | 0x040 => h.prio.toNat + at' h.txnHwm.toNat 8 + at' h.cqHwm.toNat 17
  | 0x048 => h.auditCnt.toNat
  | 0x050 => b2n h.gwDis
  | 0x054 => h.fireCnt.toNat + at' h.crackCnt.toNat 16
  | 0x060 => h.auuSeed.toNat
  | 0x064 => b2n h.auuOvf + at' (b2n h.auuInv) 1
  | 0x068 => h.auuRej.toNat + at' h.auuCause.toNat 16
  | 0x070 => s.readSpare sh
  | _ => 0

/-- HLF_SEQ_STAT: a bank fires while it has a pass to run (log 4). -/
def State.readHlf (s : State) (hf : Half) (off : Nat) : Nat :=
  match off with
  | 0x100 =>
    let fires := ((List.range 256).filter (fun b => shelfHalf (b / 16) == hf && (s.nextPass b).isSome)).length
    b2n (s.kiln.spareServes == some hf) + at' (min 16 (s.seqOpen hf)) 4 + at' fires 16
  | _ => 0

def State.readTly (s : State) (off : Nat) : Nat :=
  match off with
  | 0x000 => s.tly.dflt.toNat + at' (b2n s.tly.dfltEn) 16
  | 0x004 => s.tly.unrouted.toNat
  | _ => if 0x400 ≤ off ∧ off < 0x800 then (tget 0 s.tly.routes ((off - 0x400) / 4)).toNat else 0

/-! ### A read (R426, R461, R464, R466) -/

/-- The value of a register at a window address; the state changes only by the free values drawn. -/
def State.readValue (s : State) (addr : Nat) (priv : Bool) : Nat × State :=
  let off := addr % 0x1000
  match addr / 0x1000 with
  | 0x00 => (s.readGlb off, s)
  | 0x01 => (s.readCkp off, s)
  | 0x02 => (s.readSyb off, s)
  | 0x03 => (s.readRng off, s)
  | 0x04 => (s.readEvt off, s)
  | 0x05 => (s.readCon off, s)
  | 0x06 =>
    let s1 := match pmcLo off with
      | some n => s.ripen n
      | none => s
    (s1.readPmu off priv, s1)
  | 0x07 => if off = 0x0A8 then s.readFill else (s.readFlt off, s)
  | 0x08 => if off = 0x00C then s.readLeft else (s.readPar off, s)
  | 0x09 => (s.readFwu off, s)
  | 0x0A => (s.readLif off, s)
  | 0x20 => (s.readHlf .a off, s)
  | 0x21 => (s.readHlf .b off, s)
  | 0x22 => (s.readTly off, s)
  | p => if 0x10 ≤ p ∧ p < 0x20 then (s.readShf (p - 0x10) off, s) else (0, s)

/-- Latch the upper bits of a counter in the bank of PPROT[0] (R426). -/
def State.latch (s : State) (v : Word) (priv : Bool) : State :=
  if priv then { s with pmu := { s.pmu with latchPriv := v } } else { s with pmu := { s.pmu with latchUser := v } }
/-- The high-water marks restart at the present occupancy (R464). -/
def State.restartMarks (s : State) (sh : Nat) : State :=
  let n := s.records sh
  let q := (s.stored sh).length
  s.modShelf sh (fun h => { h with txnHwm := BitVec.ofNat 9 n, cqHwm := BitVec.ofNat 10 q })
/-- The side effect of a read of a shelf register. -/
def State.effectShf (s : State) (sh off : Nat) : State :=
  match off with
  | 0x040 => s.restartMarks sh
  | 0x048 => s.modShelf sh (fun h => { h with auditCnt := 0 })
  | 0x054 => s.modShelf sh (fun h => { h with fireCnt := 0, crackCnt := 0 })
  | 0x068 => s.modShelf sh (fun h => { h with auuRej := 0 })
  | _ => s
/-- The side effect of a read: what a counter read latches, the RC fields it clears, the log entry it marks as read. -/
def State.readEffect (s : State) (addr : Nat) (priv : Bool) : State :=
  let off := addr % 0x1000
  match addr / 0x1000 with
  | 0x04 => if off = 0x004 then { s with evt := { s.evt with dropped := 0 } } else s
  | 0x06 =>
    if off = 0x010 then s.latch (BitVec.ofNat 32 (wordAt s.pmu.cyc.toNat 1)) priv
    else match pmcLo off with
      | some n => s.latch (BitVec.ofNat 32 (wordAt (s.pmc n).count.toNat 1)) priv
      | none => s
  | 0x07 =>
    if 0x020 ≤ off ∧ off < 0x040 then { s with flt := { s.flt with unread := tset false s.flt.unread s.flt.logIdx.toNat false } }
    else if 0x040 ≤ off ∧ off < 0x080 then { s with flt := { s.flt with trans := tset 0 s.flt.trans ((off - 0x040) / 4) 0 } }
    else s
  | 0x22 => if off = 0x004 then { s with tly := { s.tly with unrouted := 0 } } else s
  | p => if 0x10 ≤ p ∧ p < 0x20 then s.effectShf (p - 0x10) off else s

/-! ### Interrupt outputs (R305, R325, R433, R447, R448) -/

/-- Output IRQ[j]. -/
def State.irq (s : State) (j : Nat) : Bool :=
  (List.range 16).any (fun m => s.cmds.irqStat.getLsbD m && s.cmds.irqEn.getLsbD m && (s.ring m).irqSel.toNat == j)
  || (s.cone.miss &&& s.cone.irqEn != 0 && s.cone.irqSel.toNat == j)
  || ((List.range 8).any (fun n => s.pmu.ovf.getLsbD n && (s.pmc n).ovfIrq) && s.pmu.irqSel.toNat == j)
  || (s.evt.irqEn && !s.evt.queue.isEmpty && s.evt.irqSel.toNat == j)

end Sys2Proof.Machine
end

