-- ==== Sys2Proof/Machine/RegWrite.lean ====
section
/-! DEFINITION. What a write to each register does, page by page (R461 to R464 and the register tables of every chapter). RO
fields, reserved bits and offsets that name no register ignore it. -/
namespace Sys2Proof.Machine

/-- A wide address register with its low word written, its low `k` bits reserved. -/
def putLo {n : Nat} (w : BitVec n) (v : Word) (k : Nat) : BitVec n :=
  BitVec.ofNat n (w.toNat / 2 ^ 32 * 2 ^ 32 + v.toNat / 2 ^ k * 2 ^ k)
/-- Its bits [51:32] written. -/
def putHi {n : Nat} (w : BitVec n) (v : Word) : BitVec n := BitVec.ofNat n (v.toNat % 2 ^ 20 * 2 ^ 32 + w.toNat % 2 ^ 32)
/-- A W1C bit: cleared by a 1. -/
def w1c (old : Bool) (v : Word) (i : Nat) : Bool := old && !v.getLsbD i

/-! ### Global (R127, R151, R259, R268, R454) -/

/-- GLB_KPEERn_CTRL: ERR is cleared first; VALID 1 is judged (R259). -/
def State.writePeerCtrl (s : State) (n : Nat) (v : Word) : State :=
  let set := fun (p : Peer) => { p with err := w1c p.err v 1, valid := p.valid && v.getLsbD 0 }
  let s1 : State := { s with kiln := { s.kiln with peers := tmod Peer.none s.kiln.peers n set } }
  if v.getLsbD 0 then s1.peerOn n else s1
def State.writeKpeer (s : State) (n off : Nat) (v : Word) : State :=
  let put := fun (f : Peer → Peer) => { s with kiln := { s.kiln with peers := tmod Peer.none s.kiln.peers n f } }
  match off with
  | 0x0 => put (fun p => { p with base := putLo p.base v 12 })
  | 0x4 => put (fun p => { p with base := putHi p.base v })
  | 0x8 => put (fun p => { p with size := v })
  | 0xC => s.writePeerCtrl n v
  | _ => s

/-- GLB_LINEOP_CTRL: OP 1 to 3; any write while BUSY raises the event (R127). -/
def State.writeLineop (s : State) (v : Word) : State :=
  if s.active && s.ranges.lineop.isSome then s.event 0x1501 srcSlice [lineopCtrl]
  else match v.toNat % 8 with
    | 1 => s.lineopStart .clean
    | 2 => s.lineopStart .inval
    | 3 => s.lineopStart .cleanInval
    | _ => s
/-- GLB_AGENT_CTRL: OP 1 to 3; any write while BUSY raises the event (R151). -/
def State.writeAgent (s : State) (v : Word) : State :=
  if s.agents.busy then s.agentBusy
  else match v.toNat % 4 with
    | 1 => s.agentJoin
    | 2 => s.agentLeave
    | 3 => s.agentRead
    | _ => s
/-- GLB_BOOT_CTRL: PORT, then GO (R454). -/
def State.writeBoot (s : State) (v : Word) : State :=
  let s1 : State := { s with boot := { s.boot with port := v.extractLsb' 1 3 } }
  if v.getLsbD 0 then s1.bootGo else s1

def State.writeGlb (s : State) (off : Nat) (v : Word) : State :=
  match off with
  | 0x018 => { s with boot := { s.boot with scratch := v } }
  | 0x050 => { s with ranges := { s.ranges with addr := putLo s.ranges.addr v 7 } }
  | 0x054 => { s with ranges := { s.ranges with addr := putHi s.ranges.addr v } }
  | 0x058 => s.writeLineop v
  | 0x080 => { s with agents := { s.agents with id := v.truncate 12 } }
  | 0x084 => { s with agents := { s.agents with cfg := v.truncate 21 } }
  | 0x088 => s.writeAgent v
  | 0x0A0 => { s with kiln := { s.kiln with idx := v.truncate 12 } }
  | 0x0B0 => { s with kiln := { s.kiln with engine := v.truncate 12, engineValid := v.getLsbD 31 } }
  | 0x0C0 => s.writeBoot v
  | 0x0C8 => { s with boot := { s.boot with src := putLo s.boot.src v 6 } }
  | 0x0CC => { s with boot := { s.boot with src := putHi s.boot.src v } }
  | _ => if 0x100 ≤ off ∧ off < 0x180 then s.writeKpeer ((off - 0x100) / 16) (off % 16) v else s

/-! ### Clocks and power (R403 to R423) -/

/-- CKP_MUX_STAT. -/
def State.writeMux (s : State) (v : Word) : State :=
  let one := fun (i : Nat) (c : HalfClk) => { c with hung := w1c c.hung v i, lost := w1c c.lost v (2 + i) }
  (s.modHalf .a (one 0)).modHalf .b (one 1)
/-- CKP_DRIFT: MARGIN, and DRIFT cleared (R421). -/
def State.writeDrift (s : State) (v : Word) : State :=
  let s1 : State := { s with ckp := { s.ckp with margin := v.truncate 16 } }
  if v.getLsbD 16 then s1.driftClear else s1
def State.writeCkp (s : State) (off : Nat) (v : Word) : State :=
  let put := fun (f : Clocks → Clocks) => { s with ckp := f s.ckp }
  match off with
  | 0x010 => s.clkenWrite false v
  | 0x014 => s.clkenWrite true v
  | 0x020 => s.muxSelect .a (v.getLsbD 0)
  | 0x024 => s.muxSelect .b (v.getLsbD 0)
  | 0x028 => s.writeMux v
  | 0x030 => put (fun k => { k with dozeIdle := v.truncate 16 })
  | 0x034 => put (fun k => { k with retCfg := v.truncate 19 })
  | 0x040 => put (fun k => { k with droopSkip := v.extractLsb' 24 6 })
  | 0x058 => put (fun k => { k with calHold := v.getLsbD 31 })
  | 0x05C => s.writeDrift v
  | 0x060 => put (fun k => { k with holdMs := v.truncate 10, coolSeen := w1c k.coolSeen v 18 })
  | 0x074 => put (fun k => { k with thermHigh := w1c k.thermHigh v 16 })
  | _ => if 0x080 ≤ off ∧ off < 0x09C then put (fun k => { k with ew := tset 0 k.ew ((off - 0x080) / 4) (v.truncate 16) }) else s

/-! ### Sybin, rings, events, cones (R53, R289, R305, R307, R309, R322, R448) -/

def State.writeSyb (s : State) (off : Nat) (v : Word) : State :=
  match off with
  | 0x000 => if v.getLsbD 0 then s.loadStart else s
  | 0x008 => { s with syb := { s.syb with src := putLo s.syb.src v 0 } }
  | 0x00C => { s with syb := { s.syb with src := putHi s.syb.src v } }
  | 0x010 => { s with syb := { s.syb with len := v } }
  | _ => s

/-- Bases of ring n: ignored while EN is 1; that of its completion ring also while an enabled ring names it (R307). -/
def State.writeBase (s : State) (n : Nat) (cq : Bool) (f : Ring → Ring) : State :=
  let named := cq && (List.range 16).any (fun k => (s.ring k).en && s.cqOf k == n)
  if (s.ring n).en || named then s else s.modRing n f
/-- RNG_STATn: clearing CQ_ERR writes the held records again (R309). -/
def State.writeStat (s : State) (n : Nat) (v : Word) : State :=
  let s1 := s.modRing n (fun g => { g with overrun := w1c g.overrun v 3, fetchErr := w1c g.fetchErr v 4, cfgErr := w1c g.cfgErr v 6 })
  if v.getLsbD 5 then s1.cqErrClear n else s1
def State.writeRing (s : State) (n off : Nat) (v : Word) : State :=
  match off with
  | 0x00 => s.writeBase n false (fun g => { g with sqBase := putLo g.sqBase v 6 })
  | 0x04 => s.writeBase n false (fun g => { g with sqBase := putHi g.sqBase v })
  | 0x08 => s.writeBase n true (fun g => { g with cqBase := putLo g.cqBase v 4 })
  | 0x0C => s.writeBase n true (fun g => { g with cqBase := putHi g.cqBase v })
  | 0x10 => s.writeBase n false (fun g => { g with ctl := putLo g.ctl v 7 })
  | 0x14 => s.writeBase n false (fun g => { g with ctl := putHi g.ctl v })
  | 0x18 => s.ringCfg n v
  | 0x1C => s.writeStat n v
  | 0x20 => if v.getLsbD 0 then s.kick n else s
  | _ => s
def State.writeRng (s : State) (off : Nat) (v : Word) : State :=
  match off with
  | 0x400 => { s with cmds := { s.cmds with irqStat := s.cmds.irqStat &&& ~~~(v.truncate 16) } }
  | 0x404 => { s with cmds := { s.cmds with irqEn := v.truncate 16 } }
  | _ => if off < 0x400 then s.writeRing (off / 0x40) (off % 0x40) v else s

/-- POP: the head entry moves into EVT_DATA0–7; with none queued VALID reads 0 (R448). -/
def State.evtPop (s : State) : State :=
  match s.evt.queue with
  | [] => { s with evt := { s.evt with head := s.evt.head &&& ~~~0x80000000#256 } }
  | e :: rest => { s with evt := { s.evt with head := e ||| 0x80000000#256, queue := rest } }
def State.writeEvt (s : State) (off : Nat) (v : Word) : State :=
  match off with
  | 0x000 => { s with evt := { s.evt with irqSel := v.truncate 2, irqEn := v.getLsbD 2 } }
  | 0x008 => if v.getLsbD 0 then s.evtPop else s
  | _ => s

/-- CON_CTRL: windows in which MON_EN is 0 are discarded (R322). -/
def State.writeMonEn (s : State) (v : Word) : State :=
  let s1 : State := { s with cone := { s.cone with monEn := v.getLsbD 0, irqSel := v.extractLsb' 2 2 } }
  if v.getLsbD 0 then s1 else s1.spoilWindows
def State.writeCon (s : State) (off : Nat) (v : Word) : State :=
  match off with
  | 0x000 => s.writeMonEn v
  | 0x004 => { s with cone := { s.cone with throttle := v } }
  | 0x010 => { s with cone := { s.cone with miss := s.cone.miss &&& ~~~(v.truncate 16) } }
  | 0x014 => { s with cone := { s.cone with irqEn := v.truncate 16 } }
  | _ => s

/-! ### Performance counters (R427, R429, R432, R436) -/

def State.modPmc (s : State) (n : Nat) (f : Pmc → Pmc) : State :=
  { s with pmu := { s.pmu with pmcs := tmod Pmc.reset s.pmu.pmcs n f } }
/-- A write to PMCn_LO loads the counter while EN is 0 (R427). -/
def State.pmcLoad (s : State) (n : Nat) (v : Word) : State :=
  if (s.pmc n).en then s else s.modPmc n (fun p => { p with count := s.pmu.latchPriv.truncate 16 ++ v })
def State.writePmc (s : State) (n off : Nat) (v : Word) : State :=
  match off with
  | 0x00 => s.pmcLoad n v
  | 0x04 => (s.ripen n).modPmc n (fun p => { p with evt := v.truncate 10 })
  | 0x08 => (s.ripen n).modPmc n (fun p => { p with flt := v.truncate 17 })
  | 0x0C => (s.ripen n).modPmc n (fun p => { p with agent := v.truncate 28 &&& 0xFFF0FFF#28 })
  | 0x10 => s.modPmc n (fun p => { p with abase := putLo p.abase v 7 })
  | 0x14 => s.modPmc n (fun p => { p with abase := putHi p.abase v })
  | 0x18 => s.modPmc n (fun p => { p with alim := putLo p.alim v 7 })
  | 0x1C => s.modPmc n (fun p => { p with alim := putHi p.alim v })
  | _ => s
/-- A write to WIN_US ends the window without copying, and a new one starts (R436). -/
def State.winCfg (s : State) (v : Word) : State :=
  { s with pmu := { s.pmu with winUs := v.truncate 20, portIn := [], portOut := [], runFclk := 0 } }
def State.writePmu (s : State) (off : Nat) (v : Word) : State :=
  let put := fun (f : Pmu → Pmu) => { s with pmu := f s.pmu }
  match off with
  | 0x000 => put (fun p => { p with userEn := v.getLsbD 0, irqSel := v.extractLsb' 1 2 })
  | 0x004 => put (fun p => { p with ovf := p.ovf &&& ~~~(v.truncate 8) })
  | 0x008 => put (fun p => { p with latchPriv := v })
  | 0x028 => put (fun p => { p with sampInfo := p.sampInfo &&& ~~~(v &&& 0xC0000000#32) })
  | 0x030 => s.winCfg v
  | _ => if 0x100 ≤ off ∧ off < 0x200 then s.writePmc ((off - 0x100) / 0x20) (off % 0x20) v else s

/-! ### Faults, epochs, quench (R330, R341, R342, R358, R359, R364) -/

/-- FLT_QUENCH_CTRL. -/
def State.writeQuench (s : State) (v : Word) : State :=
  let s1 := if v.getLsbD 1 then s.quenchAccept else s
  if v.getLsbD 0 then s1.quenchForce else s1
def State.writeFlt (s : State) (off : Nat) (v : Word) : State :=
  let put := fun (f : Faults → Faults) => { s with flt := f s.flt }
  match off with
  | 0x000 => put (fun f => { f with storm := v.truncate 16 })
  | 0x004 => put (fun f => { f with ovf := w1c f.ovf v 0, sparesLow := w1c f.sparesLow v 2 })
  | 0x008 => put (fun f => { f with wedgeInterval := v.truncate 5, wedgeEn := v.getLsbD 5 })
  | 0x010 => put (fun f => { f with logIdx := v.truncate 8 })
  | 0x0A4 => { s with ep := { s.ep with forced := w1c s.ep.forced v 2 } }
  | 0x0B0 => s.writeQuench v
  | _ => s

/-! ### Pair, firmware, Life Record (R346, R373, R388, R398, R399) -/

def State.writePar (s : State) (off : Nat) (v : Word) : State :=
  match off with
  | 0x000 => if v.getLsbD 0 then s.fullResync else s
  | 0x004 => { s with pair := { s.pair with mismatch := w1c s.pair.mismatch v 4, conflict := w1c s.pair.conflict v 5 } }
  | _ => s
def State.writeFwu (s : State) (off : Nat) (v : Word) : State :=
  match off with
  | 0x004 => { s with fw := { s.fw with bootFail := w1c s.fw.bootFail v 5, fuseFail := w1c s.fw.fuseFail v 6 } }
  | 0x010 => { s with fw := { s.fw with partIdx := v.truncate 8 } }
  | _ => s
def State.writeLif (s : State) (off : Nat) (v : Word) : State :=
  match off with
  | 0x008 => { s with life := { s.life with fail := w1c s.life.fail v 3 } }
  | 0x00C => { s with life := { s.life with idx := v.extractLsb' 2 15 } }
  | _ => s

/-! ### Shelves and tallies (R111, R113, R118, R119, R196, R214, R225, R227) -/

/-- SHF_BANK_EN: each bank of the shelf takes its bit (R118, R119). -/
def State.writeBankEn (s : State) (sh : Nat) (v : Word) : State :=
  (List.range 16).foldl (fun st k => if v.getLsbD k then st.cacheOn (16 * sh + k) else st.cacheOff (16 * sh + k)) s
/-- SHF_TAG_INV. -/
def State.writeTagInv (s : State) (sh : Nat) (v : Word) : State :=
  (List.range 16).foldl (fun st k => if v.getLsbD k then st.tagInvStart (16 * sh + k) else st) s
/-- SHF_AUU_SEED loads every lane generator (R227). -/
def State.writeSeed (s : State) (sh : Nat) (v : Word) : State :=
  s.modShelf sh (fun h => { h with auuSeed := v, lanes := laneSeeds v })
def State.writeShf (s : State) (sh off : Nat) (v : Word) : State :=
  let put := fun (f : Shelf → Shelf) => s.modShelf sh f
  match off with
  | 0x000 => s.writeBankEn sh v
  | 0x008 => s.writeTagInv sh v
  | 0x010 => put (fun h => { h with pinValid := w1c h.pinValid v 0 })
  | 0x020 => put (fun h => { h with thresh := v.truncate 16 })
  | 0x050 => put (fun h => { h with gwDis := v.getLsbD 0 })
  | 0x060 => s.writeSeed sh v
  | 0x064 => put (fun h => { h with auuOvf := w1c h.auuOvf v 0, auuInv := w1c h.auuInv v 1 })
  | 0x070 => put (fun h => { h with spareLocal := v.truncate 4 })
  | _ => s

def State.writeTly (s : State) (off : Nat) (v : Word) : State :=
  match off with
  | 0x000 => { s with tly := { s.tly with dflt := v.truncate 10, dfltEn := v.getLsbD 16 } }
  | _ => if 0x400 ≤ off ∧ off < 0x800 then
      { s with tly := { s.tly with routes := tset 0 s.tly.routes ((off - 0x400) / 4) (v &&& 0x803FFFFF#32) } } else s

/-! ### A write (R461, R463) -/

/-- A write to the register at a window address. -/
def State.writeReg (s : State) (addr : Nat) (v : Word) : State :=
  let off := addr % 0x1000
  match addr / 0x1000 with
  | 0x00 => s.writeGlb off v
  | 0x01 => s.writeCkp off v
  | 0x02 => s.writeSyb off v
  | 0x03 => s.writeRng off v
  | 0x04 => s.writeEvt off v
  | 0x05 => s.writeCon off v
  | 0x06 => s.writePmu off v
  | 0x07 => s.writeFlt off v
  | 0x08 => s.writePar off v
  | 0x09 => s.writeFwu off v
  | 0x0A => s.writeLif off v
  | 0x22 => s.writeTly off v
  | p => if 0x10 ≤ p ∧ p < 0x20 then s.writeShf (p - 0x10) off v else s

end Sys2Proof.Machine
end

