-- ==== Sys2Proof/Machine/ApbRows.lean ====
section
/-! DEFINITION. APB accesses (R405, R414, R415, R434, R446, R462, R463) and every row that is one, the counter rows (R426 to R429,
R436), the test port (R450, R466). -/
namespace Sys2Proof.Machine

/-! ### Where an access goes (R405, R434, R461, R462) -/

/-- The page is assigned. -/
def pageAssigned (p : Nat) : Bool := decide (p ≤ 0x0A) || (decide (0x10 ≤ p) && decide (p ≤ 0x22))
/-- The block of the page is gated (R405). -/
def State.pageGated (s : State) (p : Nat) : Bool :=
  if 0x10 ≤ p ∧ p < 0x20 then !s.ckp.clken0.getLsbD (p - 0x10)
  else if p = 0x20 ∨ p = 0x21 then !s.ckp.clken1.getLsbD (p - 0x20) else false
/-- The half of a shelf or half page. -/
def pageHalf (p : Nat) : Option Half :=
  if 0x10 ≤ p ∧ p < 0x20 then some (shelfHalf (p - 0x10)) else if p = 0x20 then some .a else if p = 0x21 then some .b else none
/-- An unprivileged access is served: a read of a counter with USER_EN (R434). -/
def State.userServed (s : State) (addr : Nat) (write : Bool) : Bool :=
  let off := addr % 0x1000
  !write && s.pmu.userEn && addr / 0x1000 == 0x06
    && (off == 0x008 || off == 0x010 || off == 0x034 || off == 0x038 || (pmcLo off).isSome || portReg off)
/-- The access completes with PSLVERR, whatever its block does (R446). -/
def State.apbBad (s : State) (a : Held) (strb : BitVec 4) : Bool :=
  a.addr.toNat % 4 != 0 || (a.write.isSome && strb != 15) || !pageAssigned (a.addr.toNat / 0x1000)
    || (!a.priv && !s.userServed a.addr.toNat a.write.isSome)

/-! ### The access (R414, R463) -/

/-- PRDATA and PSLVERR of an access that completes. -/
def State.answer (s : State) (v : Nat) (err : Bool) : State := { s with apb := ⟨BitVec.ofNat 32 v, err, none⟩ }
/-- The access is performed. -/
def State.perform (s : State) (a : Held) : State :=
  match a.write with
  | some v => (s.writeReg a.addr.toNat v).answer 0 false
  | none =>
    let (v, s1) := s.readValue a.addr.toNat a.priv
    (s1.readEffect a.addr.toNat a.priv).answer v false
/-- An access to a page of half h: it is held while the half sleeps or wakes (R414). -/
def State.accessHalf (s : State) (h : Half) (a : Held) : State :=
  let st := (s.half h).st
  let s1 := if st = .awake ∨ st = .asking then s else s.wakeHalf h
  if (s1.half h).st = .awake ∨ (s1.half h).st = .asking then
    let sh := a.addr.toNat / 0x1000 - 0x10
    let s2 := if sh < 16 ∧ s1.ckp.doze.getLsbD sh then (s1.shelfAwake sh).releaseHeld else s1
    s2.perform a
  else { s1 with apb := { s1.apb with held := some a } }
/-- An APB access. None is made while the slice is in reset or its ember oscillator starts, nor while one is held (R401, R446,
R463); any wakes the management domain (R415). -/
def State.access (s : State) (a : Held) (strb : BitVec 4) : State :=
  if s.boot.step = .held ∨ s.boot.step = .eclkStart ∨ s.apb.held.isSome then s else
  let s1 : State := { s with ckp := { s.ckp with mgmtRet := false } }
  let p := a.addr.toNat / 0x1000
  if s1.apbBad a strb then s1.answer 0 true
  else if s1.pageGated p then (s1.event 0x1202 srcSlice [a.addr.toNat]).answer 0 true
  else match pageHalf p with
    | some h => s1.accessHalf h a
    | none => s1.perform a
/-- A privileged write or read of a whole register. -/
def State.apbWrite (s : State) (addr : Nat) (v : Word) : State := s.access ⟨BitVec.ofNat 18 addr, some v, true⟩ 15
def State.apbRead (s : State) (addr : Nat) (priv : Bool) : State := s.access ⟨BitVec.ofNat 18 addr, none, priv⟩ 15

/-- Base of a shelf's page. -/
def shfPage (sh : Nat) : Nat := 0x10000 + 0x1000 * sh

/-! ### The rows without a name of their own -/

/-- REG_WRITE. -/
def execRegWrite (addr : BitVec 18) (value : Word) (priv : Bool) (strb : BitVec 4) (s : State) : Host.Outcome State Fault Refusal :=
  State.done (s.access ⟨addr, some value, priv⟩ strb)
/-- REG_READ. -/
def execRegRead (addr : BitVec 18) (priv : Bool) (s : State) : Host.Outcome State Fault Refusal :=
  State.done (s.access ⟨addr, none, priv⟩ 15)
/-- APB_RESET: PRESETn resets the APB interface alone (R446). -/
def execApbReset (s : State) : Host.Outcome State Fault Refusal := .next { s with apb := ⟨0, false, none⟩ }
/-- HALF_WAKE_DONE: the half is awake, and an access that its sleep held completes (R413, R414). -/
def execHalfWakeDone (half : Half) (s : State) : Host.Outcome State Fault Refusal :=
  if (s.half half).st = .restoring then
    let s1 := s.halfAwake half
    State.done (match s1.apb.held with
      | some a => if pageHalf (a.addr.toNat / 0x1000) = some half then s1.perform a else s1
      | none => s1)
  else .next s

/-! ### Rows that are one write -/

/-- BOOT_GO: GO is written to GLB_BOOT_CTRL. -/
def execBootGo (port : Fin 8) (s : State) : Host.Outcome State Fault Refusal :=
  State.done (s.apbWrite 0x000C0 (BitVec.ofNat 32 (1 + 2 * port.val)))
/-- BASE_LOAD: LOAD is written to SYB_CTRL. -/
def execBaseLoad (s : State) : Host.Outcome State Fault Refusal := State.done (s.apbWrite 0x02000 1)
/-- RNG_KICK: KICK is written to RNG_KICKn. -/
def execRngKick (ring : Fin 16) (s : State) : Host.Outcome State Fault Refusal :=
  State.done (s.apbWrite (0x03020 + 0x40 * ring.val) 1)
/-- RING_ENABLE: RNG_CFGn is written with EN 1. -/
def execRingEnable (ring : Fin 16) (cfg : Word) (s : State) : Host.Outcome State Fault Refusal :=
  State.done (s.apbWrite (0x03018 + 0x40 * ring.val) (cfg ||| 0x80000000#32))
/-- RING_DISABLE: RNG_CFGn is written with EN 0. -/
def execRingDisable (ring : Fin 16) (cfg : Word) (s : State) : Host.Outcome State Fault Refusal :=
  State.done (s.apbWrite (0x03018 + 0x40 * ring.val) (cfg &&& 0x7FFFFFFF#32))
/-- CQ_ERR_CLEAR: 1 is written to CQ_ERR of RNG_STATn. -/
def execCqErrClear (ring : Fin 16) (s : State) : Host.Outcome State Fault Refusal :=
  State.done (s.apbWrite (0x0301C + 0x40 * ring.val) 0x20)
/-- LINEOP_CLEAN: OP 1 is written to GLB_LINEOP_CTRL. -/
def execLineopClean (s : State) : Host.Outcome State Fault Refusal := State.done (s.apbWrite 0x00058 1)
/-- LINEOP_INVAL: OP 2. -/
def execLineopInval (s : State) : Host.Outcome State Fault Refusal := State.done (s.apbWrite 0x00058 2)
/-- LINEOP_CLEAN_INVAL: OP 3. -/
def execLineopCleanInval (s : State) : Host.Outcome State Fault Refusal := State.done (s.apbWrite 0x00058 3)
/-- CACHE_EN_CLEAR: the bank's bit of SHF_BANK_EN is written 0, the others as they read. -/
def execCacheEnClear (bank : Fin 256) (s : State) : Host.Outcome State Fault Refusal :=
  let sh := bank.val / 16
  State.done (s.apbWrite (shfPage sh) ((setBit (s.shelf sh).bankEn (bank.val % 16) false).zeroExtend 32))
/-- CACHE_EN_SET: it is written 1. -/
def execCacheEnSet (bank : Fin 256) (s : State) : Host.Outcome State Fault Refusal :=
  let sh := bank.val / 16
  State.done (s.apbWrite (shfPage sh) ((setBit (s.shelf sh).bankEn (bank.val % 16) true).zeroExtend 32))
/-- TAG_INV: the bank's bit of SHF_TAG_INV is written 1. -/
def execTagInv (bank : Fin 256) (s : State) : Host.Outcome State Fault Refusal :=
  State.done (s.apbWrite (shfPage (bank.val / 16) + 0x008) (1#32 <<< (bank.val % 16)))
/-- AGENT_JOIN: OP 1 is written to GLB_AGENT_CTRL. -/
def execAgentJoin (s : State) : Host.Outcome State Fault Refusal := State.done (s.apbWrite 0x00088 1)
/-- AGENT_LEAVE: OP 2. -/
def execAgentLeave (s : State) : Host.Outcome State Fault Refusal := State.done (s.apbWrite 0x00088 2)
/-- AGENT_READ: OP 3. -/
def execAgentRead (s : State) : Host.Outcome State Fault Refusal := State.done (s.apbWrite 0x00088 3)
/-- GLB_KPEER_VALID: VALID is written 1 to GLB_KPEERn_CTRL. -/
def execGlbKpeerValid (window : Fin 8) (s : State) : Host.Outcome State Fault Refusal :=
  State.done (s.apbWrite (0x0010C + 16 * window.val) 1)
/-- FLT_QUENCH_FORCE: FORCE is written to FLT_QUENCH_CTRL. -/
def execFltQuenchForce (s : State) : Host.Outcome State Fault Refusal := State.done (s.apbWrite 0x070B0 1)
/-- FLT_QUENCH_ACCEPT: ACCEPT is written. -/
def execFltQuenchAccept (s : State) : Host.Outcome State Fault Refusal := State.done (s.apbWrite 0x070B0 2)
/-- PAR_FULL_RESYNC: FULL_RESYNC is written to PAR_CTRL. -/
def execParFullResync (s : State) : Host.Outcome State Fault Refusal := State.done (s.apbWrite 0x08000 1)
/-- MUX_SELECT: SEL is written to CKP_HLFh_CLK. -/
def execMuxSelect (half : Half) (sel : Bool) (s : State) : Host.Outcome State Fault Refusal :=
  State.done (s.apbWrite (hlfClkAddr half) (BitVec.ofNat 32 (b2n sel)))
/-- CKP_CLKEN_WRITE: CKP_CLKEN0 or CKP_CLKEN1 is written. -/
def execCkpClkenWrite (second : Bool) (value : Word) (s : State) : Host.Outcome State Fault Refusal :=
  State.done (s.apbWrite (if second then 0x01014 else 0x01010) value)
/-- DRIFT_CLEAR: DRIFT of CKP_DRIFT is written 1, MARGIN as it reads. -/
def execDriftClear (s : State) : Host.Outcome State Fault Refusal :=
  State.done (s.apbWrite 0x0105C (s.ckp.margin.zeroExtend 32 ||| 0x10000#32))
/-- SHF_AUU_SEED: the seed is written. -/
def execShfAuuSeed (shelf : Fin 16) (seed : Word) (s : State) : Host.Outcome State Fault Refusal :=
  State.done (s.apbWrite (shfPage shelf.val + 0x060) seed)
/-- PMC_LO_WRITE. -/
def execPmcLoWrite (n : Fin 8) (value : Word) (priv : Bool) (s : State) : Host.Outcome State Fault Refusal :=
  State.done (s.access ⟨BitVec.ofNat 18 (0x06100 + 0x20 * n.val), some value, priv⟩ 15)
/-- PMU_WIN_CFG_WRITE. -/
def execPmuWinCfgWrite (value : Word) (s : State) : Host.Outcome State Fault Refusal := State.done (s.apbWrite 0x06030 value)
/-- EVT_POP: POP is written. -/
def execEvtPop (s : State) : Host.Outcome State Fault Refusal := State.done (s.apbWrite 0x04008 1)

/-! ### Rows that are one read -/

/-- PMU_CYC_LO_READ. -/
def execPmuCycLoRead (priv : Bool) (s : State) : Host.Outcome State Fault Refusal := State.done (s.apbRead 0x06010 priv)
/-- PMC_LO_READ. -/
def execPmcLoRead (n : Fin 8) (priv : Bool) (s : State) : Host.Outcome State Fault Refusal :=
  State.done (s.apbRead (0x06100 + 0x20 * n.val) priv)
/-- EVT_STAT_READ. -/
def execEvtStatRead (s : State) : Host.Outcome State Fault Refusal := State.done (s.apbRead 0x04004 true)
/-- SHF_UCF_STAT_READ. -/
def execShfUcfStatRead (shelf : Fin 16) (s : State) : Host.Outcome State Fault Refusal :=
  State.done (s.apbRead (shfPage shelf.val + 0x040) true)
/-- TLY_UNROUTED_READ. -/
def execTlyUnroutedRead (s : State) : Host.Outcome State Fault Refusal := State.done (s.apbRead 0x22004 true)
/-- SHF_AUDIT_CNT_READ. -/
def execShfAuditCntRead (shelf : Fin 16) (s : State) : Host.Outcome State Fault Refusal :=
  State.done (s.apbRead (shfPage shelf.val + 0x048) true)
/-- SHF_GW_STAT_READ. -/
def execShfGwStatRead (shelf : Fin 16) (s : State) : Host.Outcome State Fault Refusal :=
  State.done (s.apbRead (shfPage shelf.val + 0x054) true)
/-- SHF_AUU_REJ_READ. -/
def execShfAuuRejRead (shelf : Fin 16) (s : State) : Host.Outcome State Fault Refusal :=
  State.done (s.apbRead (shfPage shelf.val + 0x068) true)
/-- FLT_TRANS_READ. -/
def execFltTransRead (kind : Fin 16) (s : State) : Host.Outcome State Fault Refusal :=
  State.done (s.apbRead (0x07040 + 4 * kind.val) true)

/-! ### Counters (R429, R432, R436) -/

/-- PMC_WRAP: a counter on cycles that no command reports wraps; one on reported events wraps as it counts them (R429, R431). -/
def execPmcWrap (n : Fin 8) (s : State) : Host.Outcome State Fault Refusal :=
  .next (if (s.pmc n.val).unseen then (s.modPmc n.val (fun p => { p with count := 0 })).wrapPmc n.val Attr.internal else s)

/-- Counts of every port in units of 256 bytes, and the remainders (R436). -/
def unitsOf (t : Table Nat) : Table Word :=
  (List.range 46).foldl (fun u k => tset 0 u k (BitVec.ofNat 32 (tget 0 t k / 256))) []
def restOf (t : Table Nat) : Table Nat := (List.range 46).foldl (fun u k => tset 0 u k (tget 0 t k % 256)) []
/-- PMU_WINDOW_END: WIN_US µs are over. -/
def execPmuWindowEnd (s : State) : Host.Outcome State Fault Refusal :=
  let p := s.pmu
  .next { s with pmu := { p with outIn := unitsOf p.portIn, outOut := unitsOf p.portOut, portIn := restOf p.portIn
                                 portOut := restOf p.portOut, winFclk := BitVec.ofNat 32 p.runFclk, runFclk := 0
                                 winSeq := p.winSeq + 1 } }

/-! ### The test port (R450, R466) -/

/-- The value that a segment shifts out. -/
def State.tdo (s : State) (v : Nat) : Host.Outcome State Fault Refusal :=
  .next { s with boot := { s.boot with tdo := BitVec.ofNat 64 v } }
/-- TEST_LOCK. -/
def State.testLock (s : State) : Bool := s.boot.fuses.getLsbD 3143
/-- Device identification: version, PART, JTAG_MFG, 1. -/
def State.idcode (s : State) : Nat := 1 + at' s.boot.jtagMfg.toNat 1 + at' Config.partId.toNat 12 + at' 1 28
/-- A spare assignment: how many spares serve from pool n: the banks' mats, then their tag rows, the shelves' banks, the far ports'
lanes, the sequencer, the core, the lane groups', the directory sets' ways (R17; the segments' order is log 50's). -/
def State.spareSegment (s : State) (n : Nat) : Nat :=
  let p := s.flt.spares
  let used := fun (t : Table Nat) (base k : Nat) => (t.filter (fun e => decide (base ≤ e.1) && decide (e.1 < base + k))).length
  if n < 272 then used p.mats (matKey n) 2048 else if n < 544 then used p.tagRows (rowKey (n - 272)) 2048
  else if n < 560 then b2n (tget 0 p.banks (n - 544) != 0) else if n < 562 then tget 0 p.farLanes (n - 560) else if n = 562 then p.seq
  else if n = 563 then p.core else if n < 596 then tget 0 p.lanes (n - 564) else if n < 262740 then used p.dirWays ((n - 596) * 16) 16
  else 0
/-- An array read returns the data columns of the row (R15); it has no side effect. -/
def State.arrayRow (s : State) (a : Nat) : BitVec 66 :=
  let word := fun (o : Nat) => BitVec.ofNat 32 (leNat ((List.range 4).map (fun i => s.arrByte (a + o + i))))
  matRow (word 0) (word 4)
/-- IJTAG_ACCESS: with TEST_LOCK every segment but the identification one reads 0 and ignores writes. A write to a self-test
controller is refused: the spec does not give what it does. -/
def execIjtagAccess (a : TapAccess) (s : State) : Host.Outcome State Fault Refusal :=
  match a with
  | .bypass => s.tdo 0
  | .idcode => s.tdo s.idcode
  | .identSegment => s.tdo s.idcode
  | .selfTestRead n => s.tdo (if s.testLock then 0 else (Config.selfTestSegment n).toNat)
  | .selfTestWrite _ _ => if s.testLock then .next s else .refused .selfTestController
  | .spareRead n => s.tdo (if s.testLock then 0 else s.spareSegment n)
  | .arrayRead addr => s.tdo (if s.testLock then 0 else (rowData (s.arrayRow addr.toNat)).toNat)
  | .registerRead addr =>
    if s.testLock then s.tdo 0
    else
      let (v, s1) := s.readValue addr.toNat true
      s1.tdo v

end Sys2Proof.Machine
end

