-- ==== Sys2Proof/Machine/Requests.lean ====
section
/-! DEFINITION. The coherence commands: requests, Puts and answers of agents (R140, R141, R164), admission (R154, R160),
greenware (R202 to R209), dead agents (R147), invalid messages (R149). -/
namespace Sys2Proof.Machine

/-! ### Requests (R140, R189, R216) -/

/-- RdS arrives at its home (R140). -/
def execRds (port : Port) (h : Hdr) (tied : Bool) (s : State) : Host.Outcome State Fault Refusal :=
  State.done (s.request port h mRdS 0 0 0 tied)
/-- RdX arrives (R140). -/
def execRdx (port : Port) (h : Hdr) (tied : Bool) (s : State) : Host.Outcome State Fault Refusal :=
  State.done (s.request port h mRdX 0 0 0 tied)
/-- Upg arrives (R140). -/
def execUpg (port : Port) (h : Hdr) (tied : Bool) (s : State) : Host.Outcome State Fault Refusal :=
  State.done (s.request port h mUpg 0 0 0 tied)
/-- RdV arrives (R189). -/
def execRdv (port : Port) (h : Hdr) (tied : Bool) (s : State) : Host.Outcome State Fault Refusal :=
  State.done (s.request port h mRdV 0 0 0 tied)
/-- RdNC arrives (R140). -/
def execRdnc (port : Port) (h : Hdr) (tied : Bool) (s : State) : Host.Outcome State Fault Refusal :=
  State.done (s.request port h mRdNC 0 0 0 tied)
/-- WrL arrives (R140). -/
def execWrl (port : Port) (h : Hdr) (data : Line) (tied : Bool) (s : State) : Host.Outcome State Fault Refusal :=
  State.done (s.request port h mWrL fullMask data 0 tied)
/-- WrP arrives (R140). -/
def execWrp (port : Port) (h : Hdr) (mask : Mask) (data : Line) (tied : Bool) (s : State) :
    Host.Outcome State Fault Refusal :=
  State.done (s.request port h mWrP mask data 0 tied)
/-- Atom arrives (R216, R217). -/
def execAtom (port : Port) (h : Hdr) (plen : Nat) (data : Line) (tied : Bool) (s : State) :
    Host.Outcome State Fault Refusal :=
  State.done (s.request port h mAtom 0 data plen tied)

/-! ### Puts (R141, R164, R71, R363) -/

/-- PutS arrives (R141). -/
def execPuts (port : Port) (h : Hdr) (s : State) : Host.Outcome State Fault Refusal := State.done (s.putIn port h mPutS 0)
/-- PutE arrives (R141). -/
def execPute (port : Port) (h : Hdr) (s : State) : Host.Outcome State Fault Refusal := State.done (s.putIn port h mPutE 0)
/-- PutM arrives with its data (R141). -/
def execPutm (port : Port) (h : Hdr) (data : Line) (s : State) : Host.Outcome State Fault Refusal :=
  State.done (s.putIn port h mPutM data)
/-- PutO arrives with its data (R141). -/
def execPuto (port : Port) (h : Hdr) (data : Line) (s : State) : Host.Outcome State Fault Refusal :=
  State.done (s.putIn port h mPutO data)

/-! ### Admission (R136, R154, R156, R160, R188) -/

/-- An observer of the chip: a joined agent without REMOTE (R173). -/
def State.observer (s : State) (a : AgentId) : Bool := s.present a && !(s.agent a).remote

/-- A scope of agent a contains agent b; the flag marks an agent of the twin chip, and `m` says that the line is of class M (R183;
log 65). -/
def State.scopeHas (s : State) (scope : Nat) (m : Bool) (a b : AgentId × Bool) : Bool :=
  a == b || match a.2, b.2 with
    | false, false =>
      s.observer a.1 && s.observer b.1 && (2 ≤ scope || (scope == 1 && (s.agent a.1).die == (s.agent b.1).die))
    | true, true => 2 ≤ scope
    | _, _ => scope == 3 && m && (a.2 || s.observer a.1) && (b.2 || s.observer b.1)

/-- The agent that the audit sees: the requester, or the twin's agent whose write the twin forwarded (R188, R377). -/
def Req.audited (r : Req) : Option (AgentId × Bool) :=
  match r.who with
  | .agent id _ => some (id, false)
  | .mfwd _ id => some (id, true)
  | _ => none

/-- The audit of one admitted request; a refreshed entry counts as newly made (R188; log 65). -/
def State.audit (s : State) (sh : Nat) (r : Req) : State :=
  match r.audited with
  | none => s
  | some b =>
    if !s.cfg.scopeAudit || r.scope = 0 then s else
    let m := s.pclass r.line == pcM
    let acq := r.op == .rdS || r.op == .rdV || r.op == .rdNC || r.op == .atom
    let rel := r.op.isWrite || r.op == .rdX || r.op == .upg
    let s1 := match (s.shelf sh).audit.find? (fun x => x.line == r.line) with
      | some x =>
        let a := (x.agent, x.twin)
        let ok := s.scopeHas x.scope.toNat m a b && s.scopeHas r.scope.toNat m b a
        if acq && a != b && !ok then
          ((s.modShelf sh (fun h => { h with auditCnt := satAdd h.auditCnt 1 })).event 0x0701 sh
            (addrWords (lineAddr r.line) ++ [x.agent.toNat, b.1.toNat, x.scope.toNat, r.scope.toNat])).count 0x1C
            (s.reqAttr r sh none) 1
        else s
      | none => s
    if rel then
      s1.modShelf sh (fun h =>
        let rest := h.audit.filter (fun x => x.line != r.line)
        { h with audit := (if rest.length < 64 then rest else rest.drop 1) ++ [⟨r.line, b.1, b.2, r.scope⟩] })
    else s1

/-- What a rule makes the home answer with Poison, and the events that go with it (R116, R224, R231, R233, R379). What the AUU or
the pair refuses is judged first, a dead-strict line then; an Upg needs no data of the line where its sender holds a copy (log 66). -/
def State.refuses (s : State) (r : Req) (reg : Region) : Option State :=
  let sh := s.homeShelf r.line
  let dead := match s.slotOf r.line with
    | some x => (s.tag x).state == .deadStrict
    | none => false
  let own := r.op == .rdX || r.op == .upg
  let held := r.op == .upg && (s.entryOf r.line).grants (r.agentId.getD 0)
  let rej := fun (st : State) (c : Nat) => st.auuReject sh c r.eventId (lineAddr r.line)
  if r.who.isMirror then none
  else if own && (Region.pclass reg == pcM || Region.wpol reg == 3) then
    let s1 := if Region.pclass reg == pcM then s.event 0x1002 srcSlice (r.eventId :: addrWords (lineAddr r.line)) else s
    some (if Region.wpol reg == 3 then rej s1 4 else s1)
  else
    let cause := if r.op == .atom then atomCause r.aop r.plen r.data
      else if reduces reg r && partElement (Region.redFmt reg) r.mask then some 3 else none
    match cause with
    | some c => some (rej s c)
    | none =>
      if dead && (r.op.isRead || (r.op == .upg && !held) || r.op == .atom || r.op == .wrP) then some s
      else if usesAuu reg r && (s.shelf sh).group.isNone then some s else none

/-- The conditions of a greenware answer (R202, R203). -/
def State.greenOk (s : State) (r : Req) (reg : Region) : Bool :=
  let sh := s.homeShelf r.line
  (match r.agentId with
    | some id => (s.agent id).specOk && !(s.agent id).remote
    | none => false)
  && (r.op == .rdS || r.op == .rdX || r.op == .rdNC) && !r.waited
  && s.cfg.specEn && !s.quenching && !(s.shelf sh).gwDis && Region.specOk reg && Region.pclass reg != pcM
  && (s.hit r.line).isSome && !s.missing r.line

/-- Send the bank's data as greenware (R204). -/
def State.sendGreen (s : State) (r : Req) : State :=
  let sh := s.homeShelf r.line
  match s.hit r.line with
  | none => s
  | some x =>
    let d := s.slotData x
    let code := if r.op = .rdX then mDataM else mDataS
    let s1 := ((s.readHit x r.pour).count 0x03 (s.reqAttr r sh (some 0)) 1).count 0x0E (s.reqAttr r sh none) 1
    (s1.respond sh r code (fun m => { m with spec := true, data := some d, nocache := r.op == .rdNC })).modTxn r.line
      (fun t => { (t.put (if r.op.keeps then fC else 0)) with green := .sent, work := .lookup, fetched := some d })

/-- Victims with nobody to call back close at once. -/
def State.settleVictims (s : State) : State :=
  s.home.txns.foldl (fun st t => if t.tstate = fV then st.advance t.req.line else st) s

/-- Serve a transaction from the state of its entry; an Upg from the owner in DX is a protocol error (R140). -/
def State.start (s : State) (l : LineIx) : State :=
  match s.txnOf l, s.regionOf l with
  | some t, some (_, reg) =>
    let r := t.req
    let e := s.entryOf l
    match s.refuses r reg with
    | some s1 => s1.poisonTxn l
    | none =>
      if r.op = .upg ∧ e.hstate = .dx ∧ r.agentId = some e.owner then
        s.protocolError (BitVec.ofNat 128 (mUpg + 2 ^ 7 + e.owner.toNat * 2 ^ 8 + l.toNat * 2 ^ 32 + r.txn.toNat * 2 ^ 77
          + r.cone.toNat * 2 ^ 88 + r.scope.toNat * 2 ^ 91))
      else ((s.begin l).advance l).settleVictims
  | _, _ => s

/-- Take the request out of its queue and open its record (R154, R156). -/
def State.openRecord (s : State) (r : Req) : State :=
  let sh := s.homeShelf r.line
  let a := s.reqAttr r sh (some 0)
  let s1 := { s with home := { s.home with cq := dropFirst (· == r) s.home.cq, txns := s.home.txns ++ [Txn.open r] } }
  ((((s1.count 0x02 a 1).skidStep a).audit sh r).syncEntry r.line).marks sh

/-- ADMIT: the head of a line's queue becomes its transaction, if nothing bars it. `lookupPending`: the directory lookup
has not completed when the data could leave, so the answer may be greenware, and else waits for the lookup (R160, R163,
R202). -/
def execAdmitReq (line : LineIx) (lookupPending : Bool) (s : State) : Host.Outcome State Fault Refusal :=
  State.done (match s.admissible line with
    | none => s
    | some r =>
      let rl := s.roleAt (lineAddr line)
      let own := r.who.isMirror
      let out := { s with home := { s.home with cq := dropFirst (· == r) s.home.cq } }
      if !own && rl == .fenced then (out.answerFenced r).retryChannels
      else if !own && r.op.isWrite && rl == .forward then (out.forward r).retryChannels
      else if !own && r.op.isWrite && (rl == .wait || rl == .soloWait) then (out.holdReq r).retryChannels
      else
        let s1 := s.openRecord r
        if !lookupPending then s1.start line
        else match s.regionOf line with
          | some (_, reg) =>
            if (s.refuses r reg).isNone && s.greenOk r reg then (s1.sendGreen r).syncEntry line
            else s1.modTxn line (fun t => { t with work := .lookup })
          | none => s1)

/-! ### Answers (R164) -/

/-- FWDACK (R164). -/
def execFwdack (h : Hdr) (s : State) : Host.Outcome State Fault Refusal := State.done (s.answerIn h mFwdAck 0 0)
/-- INVACK (R164). -/
def execInvack (h : Hdr) (s : State) : Host.Outcome State Fault Refusal := State.done (s.answerIn h mInvAck 0 0)
/-- DATAM (R141, R164). -/
def execDatam (h : Hdr) (data : Line) (s : State) : Host.Outcome State Fault Refusal := State.done (s.answerIn h mDataM data 128)
/-- DATAS (R164). -/
def execDatas (h : Hdr) (data : Line) (s : State) : Host.Outcome State Fault Refusal := State.done (s.answerIn h mDataS data 128)
/-- CMP (R139, R164). -/
def execCmp (h : Hdr) (s : State) : Host.Outcome State Fault Refusal := State.done (s.answerIn h mCmp 0 0)

/-! ### Greenware (R205 to R207) -/

/-- FIRE or CRACK to the requester, with its count (R205, R464). -/
def State.sendFire (s : State) (sh : Nat) (r : Req) : State :=
  ((s.modShelf sh (fun h => { h with fireCnt := satAdd h.fireCnt 1 })).lastAnswer sh r mFire (fun m => m))
def State.sendCrack (s : State) (sh : Nat) (r : Req) : State :=
  ((s.modShelf sh (fun h => { h with crackCnt := satAdd h.crackCnt 1 })).respond sh r mCrack (fun m => m)).count 0x0F
    (s.reqAttr r sh none) 1

/-- What the lookup makes of greenware: the plan of the fired request, or none for CRACK (R205). -/
def State.fires (s : State) (r : Req) (e : DirEntry) : Option Plan :=
  let room := (s.wayOf (s.homeShelf r.line) r.line).isSome || (s.freeWay r.line).isSome
  match r.op, e.hstate with
  | .rdNC, .free => some .same
  | .rdNC, .ds => some .same
  | .rdS, .free => if room then some .share else none
  | .rdS, .ds => some .share
  | .rdX, .free => if room then some .owner else none
  | _, _ => none

/-- LOOKUP_COMPLETE: greenware is confirmed or cancelled, or the request is served. A way whose word is lost has a lasting fault, which
quenches (R214, R329, R331). -/
def execLookupComplete (line : LineIx) (corrupt : Option (Fin 18)) (s : State) : Host.Outcome State Fault Refusal :=
  State.done (match s.txnOf line with
    | none => s
    | some t =>
      if t.work ≠ .lookup then s else
      let sh := s.homeShelf line
      let r := t.req
      match corrupt with
      | some w => s.lastingFault (.dirWay (Fin.ofNat _ sh) (Fin.ofNat _ (dirSet line.toNat)) w)
      | none =>
      if t.green = .sent then
        match s.fires r (s.entryOf line) with
        | some p =>
          let s1 := s.sendFire sh r
          let s2 := if r.op.keeps && (s.wayOf sh line).isNone then
              match s.freeWay line with
              | some k => s1.takeWay k line
              | none => s1
            else s1
          (s2.modTxn line (fun t => { t with green := .fired, work := .none, plan := p, sent := true })).advance line
        | none =>
          ((s.sendCrack sh r).modTxn line (fun t => { t with green := .cracked, tstate := 0, fetched := none })).start line
      else s.start line)

/-- GREENWARE_DEADLINE: 52 cycles without the lookup cause CRACK; the lookup then serves the request (R206). -/
def execGreenwareDeadline (line : LineIx) (s : State) : Host.Outcome State Fault Refusal :=
  State.done (match s.txnOf line with
    | none => s
    | some t =>
      if t.work = .lookup ∧ t.green = .sent then
        ((s.sendCrack (s.homeShelf line) t.req).modTxn line
          (fun t => { t with green := .cracked, tstate := 0, fetched := none })).syncEntry line
      else s)

/-! ### Dead agents and invalid messages (R147, R149) -/

/-- An agent is dead: the quench removes it at step 6 (R147, R359, R363). -/
def State.agentDead (s : State) (id : AgentId) : State :=
  let s1 := if s.ep.dead.contains id then s else { s with ep := { s.ep with dead := s.ep.dead ++ [id] } }
  s1.trigger 1

/-- DEAD_AGENT_TIMEOUT: a FWD message of the line's transaction has had no answer for 100 µs (R147); the count pauses during a
coolant stop (R422). -/
def execDeadAgentTimeout (line : LineIx) (agent : AgentId) (s : State) : Host.Outcome State Fault Refusal :=
  State.done (match s.txnOf line with
    | none => s
    | some t =>
      if s.ckp.coolActive then s else
      if (t.has fF && t.fwd == some agent) || (t.has fI && t.invTo.contains agent && !t.invDone.contains agent)
          || (t.has fR && t.recallTo == some agent)
      then s.agentDead agent else s)

/-- Codes that no agent may send to a home (R164). -/
def neverToHome : List Nat :=
  [mFwdS, mFwdX, mInv, mRecall, mDataE, mAck, mWbAck, mWbAckStale, mFire, mCrack, mPoison]

/-- INVALID_UCF_MESSAGE: an unknown code, a header that breaks R137, or a message that a home never takes is a protocol
error (R138, R149, R164). -/
def execInvalidUcfMessage (port : Port) (h : Hdr) (s : State) : Host.Outcome State Fault Refusal :=
  let s0 := s.comeIn port 0
  State.done (if s.portDown port then s else if !headerKeeps h || neverToHome.contains (Hdr.msg h) then s0.protocolError h else s0)

end Sys2Proof.Machine
end

