-- ==== Sys2Proof/Machine/Dispatch.lean ====
section
/-! DEFINITION. One arm per command: the meaning it calls. -/
namespace Sys2Proof.Machine

/-- The effect of a command on everything but the queue. -/
def exec (i : Instr) (s : State) : Host.Outcome State Fault Refusal :=
  match i with
  | .reset sliceBase jtagMfg => Sys2Proof.Machine.execReset sliceBase jtagMfg s
  | .eclkValid => Sys2Proof.Machine.execEclkValid s
  | .fuseRdAck data => Sys2Proof.Machine.execFuseRdAck data s
  | .mclkOk coreAOk coreBOk => Sys2Proof.Machine.execMclkOk coreAOk coreBOk s
  | .bootGo port => Sys2Proof.Machine.execBootGo port s
  | .romImageChecked image ue => Sys2Proof.Machine.execRomImageChecked image ue s
  | .selfTest => Sys2Proof.Machine.execSelfTest s
  | .selfTestDone failing => Sys2Proof.Machine.execSelfTestDone failing s
  | .baseLoad => Sys2Proof.Machine.execBaseLoad s
  | .baseLoadDone stream ue => Sys2Proof.Machine.execBaseLoadDone stream ue s
  | .rds port h tied => Sys2Proof.Machine.execRds port h tied s
  | .rdx port h tied => Sys2Proof.Machine.execRdx port h tied s
  | .upg port h tied => Sys2Proof.Machine.execUpg port h tied s
  | .rdv port h tied => Sys2Proof.Machine.execRdv port h tied s
  | .rdnc port h tied => Sys2Proof.Machine.execRdnc port h tied s
  | .wrl port h data tied => Sys2Proof.Machine.execWrl port h data tied s
  | .wrp port h mask data tied => Sys2Proof.Machine.execWrp port h mask data tied s
  | .atom port h plen data tied => Sys2Proof.Machine.execAtom port h plen data tied s
  | .puts port h => Sys2Proof.Machine.execPuts port h s
  | .pute port h => Sys2Proof.Machine.execPute port h s
  | .putm port h data => Sys2Proof.Machine.execPutm port h data s
  | .puto port h data => Sys2Proof.Machine.execPuto port h data s
  | .admitReq line lookupPending => Sys2Proof.Machine.execAdmitReq line lookupPending s
  | .fwdack h => Sys2Proof.Machine.execFwdack h s
  | .invack h => Sys2Proof.Machine.execInvack h s
  | .datam h data => Sys2Proof.Machine.execDatam h data s
  | .datas h data => Sys2Proof.Machine.execDatas h data s
  | .cmp h => Sys2Proof.Machine.execCmp h s
  | .lookupComplete line corrupt => Sys2Proof.Machine.execLookupComplete line corrupt s
  | .greenwareDeadline line => Sys2Proof.Machine.execGreenwareDeadline line s
  | .deadAgentTimeout line agent => Sys2Proof.Machine.execDeadAgentTimeout line agent s
  | .backingReadData bp tag data ue => Sys2Proof.Machine.execBackingReadData bp tag data ue s
  | .backingWriteAck bp tag => Sys2Proof.Machine.execBackingWriteAck bp tag s
  | .backingSlotGrant bp rdRdy wrRdy => Sys2Proof.Machine.execBackingSlotGrant bp rdRdy wrRdy s
  | .backingOccReport bp occ => Sys2Proof.Machine.execBackingOccReport bp occ s
  | .backingFbLost bp => Sys2Proof.Machine.execBackingFbLost bp s
  | .creditReturn link vc => Sys2Proof.Machine.execCreditReturn link vc s
  | .linkReplayRequest link seq => Sys2Proof.Machine.execLinkReplayRequest link seq s
  | .linkBeatError link => Sys2Proof.Machine.execLinkBeatError link s
  | .farFlitCrcFail port seq => Sys2Proof.Machine.execFarFlitCrcFail port seq s
  | .farFlitAck port seq => Sys2Proof.Machine.execFarFlitAck port seq s
  | .descriptorFetch ring => Sys2Proof.Machine.execDescriptorFetch ring s
  | .doorbell ring => Sys2Proof.Machine.execDoorbell ring s
  | .ringPoll ring => Sys2Proof.Machine.execRingPoll ring s
  | .rngKick ring => Sys2Proof.Machine.execRngKick ring s
  | .ringEnable ring cfg => Sys2Proof.Machine.execRingEnable ring cfg s
  | .ringDisable ring cfg => Sys2Proof.Machine.execRingDisable ring cfg s
  | .cqErrClear ring => Sys2Proof.Machine.execCqErrClear ring s
  | .commandComplete ctx => Sys2Proof.Machine.execCommandComplete ctx s
  | .nop ctx => Sys2Proof.Machine.execNop ctx s
  | .copy ctx => Sys2Proof.Machine.execCopy ctx s
  | .fill ctx => Sys2Proof.Machine.execFill ctx s
  | .clean ctx => Sys2Proof.Machine.execClean ctx s
  | .inval ctx => Sys2Proof.Machine.execInval ctx s
  | .cleanInval ctx => Sys2Proof.Machine.execCleanInval ctx s
  | .reclaim ctx => Sys2Proof.Machine.execReclaim ctx s
  | .pin ctx => Sys2Proof.Machine.execPin ctx s
  | .unpin ctx => Sys2Proof.Machine.execUnpin ctx s
  | .rangeSlotAllocate => Sys2Proof.Machine.execRangeSlotAllocate s
  | .rangeLineOp slot half => Sys2Proof.Machine.execRangeLineOp slot half s
  | .rangeActivityDone slot => Sys2Proof.Machine.execRangeActivityDone slot s
  | .lineopClean => Sys2Proof.Machine.execLineopClean s
  | .lineopInval => Sys2Proof.Machine.execLineopInval s
  | .lineopCleanInval => Sys2Proof.Machine.execLineopCleanInval s
  | .lineopDone => Sys2Proof.Machine.execLineopDone s
  | .cacheEnClear bank => Sys2Proof.Machine.execCacheEnClear bank s
  | .cacheEnSet bank => Sys2Proof.Machine.execCacheEnSet bank s
  | .bankCleanDone bank => Sys2Proof.Machine.execBankCleanDone bank s
  | .tagInv bank => Sys2Proof.Machine.execTagInv bank s
  | .tagInvDone bank => Sys2Proof.Machine.execTagInvDone bank s
  | .agentJoin => Sys2Proof.Machine.execAgentJoin s
  | .agentLeave => Sys2Proof.Machine.execAgentLeave s
  | .agentRead => Sys2Proof.Machine.execAgentRead s
  | .agentOpDone => Sys2Proof.Machine.execAgentOpDone s
  | .kilnLoad ctx => Sys2Proof.Machine.execKilnLoad ctx s
  | .kilnFire ctx => Sys2Proof.Machine.execKilnFire ctx s
  | .kilnPassStart bank => Sys2Proof.Machine.execKilnPassStart bank s
  | .accumSlotTimeout half => Sys2Proof.Machine.execAccumSlotTimeout half s
  | .streamHeadPoll ctx => Sys2Proof.Machine.execStreamHeadPoll ctx s
  | .kilnReloadDone entry => Sys2Proof.Machine.execKilnReloadDone entry s
  | .glbKpeerValid window => Sys2Proof.Machine.execGlbKpeerValid window s
  | .atomBatch ctx => Sys2Proof.Machine.execAtomBatch ctx s
  | .tallyWait ctx => Sys2Proof.Machine.execTallyWait ctx s
  | .tallyWaitMet ctx => Sys2Proof.Machine.execTallyWaitMet ctx s
  | .tallyWaitTimeout ctx => Sys2Proof.Machine.execTallyWaitTimeout ctx s
  | .tallySet ctx => Sys2Proof.Machine.execTallySet ctx s
  | .fence ctx => Sys2Proof.Machine.execFence ctx s
  | .epochClose ctx => Sys2Proof.Machine.execEpochClose ctx s
  | .epochInput => Sys2Proof.Machine.execEpochInput s
  | .forcedClose => Sys2Proof.Machine.execForcedClose s
  | .epochSweepDone => Sys2Proof.Machine.execEpochSweepDone s
  | .quenchInput => Sys2Proof.Machine.execQuenchInput s
  | .quenchWaitExpiry => Sys2Proof.Machine.execQuenchWaitExpiry s
  | .qstepDone => Sys2Proof.Machine.execQstepDone s
  | .qstepGo => Sys2Proof.Machine.execQstepGo s
  | .fltQuenchForce => Sys2Proof.Machine.execFltQuenchForce s
  | .fltQuenchAccept => Sys2Proof.Machine.execFltQuenchAccept s
  | .overlayApply ctx => Sys2Proof.Machine.execOverlayApply ctx s
  | .glazePointStart => Sys2Proof.Machine.execGlazePointStart s
  | .glazeStreamReadDone => Sys2Proof.Machine.execGlazeStreamReadDone s
  | .glazeDrainDone => Sys2Proof.Machine.execGlazeDrainDone s
  | .glazePrepareDone => Sys2Proof.Machine.execGlazePrepareDone s
  | .fwBlock ctx => Sys2Proof.Machine.execFwBlock ctx s
  | .fwActivate ctx => Sys2Proof.Machine.execFwActivate ctx s
  | .fwVerifyDone => Sys2Proof.Machine.execFwVerifyDone s
  | .fwLoadDone => Sys2Proof.Machine.execFwLoadDone s
  | .fwStandbyReady => Sys2Proof.Machine.execFwStandbyReady s
  | .fwBootFail => Sys2Proof.Machine.execFwBootFail s
  | .fwQuiesceDone => Sys2Proof.Machine.execFwQuiesceDone s
  | .fwFlipRetry shelf => Sys2Proof.Machine.execFwFlipRetry shelf s
  | .fusePgAck err => Sys2Proof.Machine.execFusePgAck err s
  | .spareSwap ctx => Sys2Proof.Machine.execSpareSwap ctx s
  | .scrub ctx => Sys2Proof.Machine.execScrub ctx s
  | .wedgingRead found => Sys2Proof.Machine.execWedgingRead found s
  | .spareDone => Sys2Proof.Machine.execSpareDone s
  | .transStorm u => Sys2Proof.Machine.execTransStorm u s
  | .heartbeatTimeout lasting => Sys2Proof.Machine.execHeartbeatTimeout lasting s
  | .lifeRecordWrite verified => Sys2Proof.Machine.execLifeRecordWrite verified s
  | .helloSend => Sys2Proof.Machine.execHelloSend s
  | .hello h => Sys2Proof.Machine.execHello h s
  | .mwr line mask data tag result => Sys2Proof.Machine.execMwr line mask data tag result s
  | .mfwd w tag => Sys2Proof.Machine.execMfwd w tag s
  | .mack tag => Sys2Proof.Machine.execMack tag s
  | .mreclaim line tag => Sys2Proof.Machine.execMreclaim line tag s
  | .mpoison tag => Sys2Proof.Machine.execMpoison tag s
  | .mrsync line data => Sys2Proof.Machine.execMrsync line data s
  | .mcfg region entry => Sys2Proof.Machine.execMcfg region entry s
  | .mirrorTimeout => Sys2Proof.Machine.execMirrorTimeout s
  | .soloDelayExpiry => Sys2Proof.Machine.execSoloDelayExpiry s
  | .fenceWalkDone region => Sys2Proof.Machine.execFenceWalkDone region s
  | .leaseExpiry region => Sys2Proof.Machine.execLeaseExpiry region s
  | .leaseUpdate ctx => Sys2Proof.Machine.execLeaseUpdate ctx s
  | .parFullResync => Sys2Proof.Machine.execParFullResync s
  | .muxSelect half sel => Sys2Proof.Machine.execMuxSelect half sel s
  | .muxSwitchDone half => Sys2Proof.Machine.execMuxSwitchDone half s
  | .muxHung half => Sys2Proof.Machine.execMuxHung half s
  | .fclkLost half => Sys2Proof.Machine.execFclkLost half s
  | .ckpClkenWrite second value => Sys2Proof.Machine.execCkpClkenWrite second value s
  | .shelfDoze shelf => Sys2Proof.Machine.execShelfDoze shelf s
  | .shelfWakeDone shelf => Sys2Proof.Machine.execShelfWakeDone shelf s
  | .halfRetentionStart half => Sys2Proof.Machine.execHalfRetentionStart half s
  | .xSlpAck port => Sys2Proof.Machine.execXSlpAck port s
  | .xSlpNak port => Sys2Proof.Machine.execXSlpNak port s
  | .retentionEntryDone half => Sys2Proof.Machine.execRetentionEntryDone half s
  | .xWake port => Sys2Proof.Machine.execXWake port s
  | .halfWake half => Sys2Proof.Machine.execHalfWake half s
  | .hlfVok half => Sys2Proof.Machine.execHlfVok half s
  | .hlfPllok half => Sys2Proof.Machine.execHlfPllok half s
  | .halfWakeDone half => Sys2Proof.Machine.execHalfWakeDone half s
  | .mgmtRetention => Sys2Proof.Machine.execMgmtRetention s
  | .skipRatioChange half k => Sys2Proof.Machine.execSkipRatioChange half k s
  | .droopAssert half => Sys2Proof.Machine.execDroopAssert half s
  | .droopDeassert half => Sys2Proof.Machine.execDroopDeassert half s
  | .droopHoldExpiry half => Sys2Proof.Machine.execDroopHoldExpiry half s
  | .activityEstimate n meas measValid => Sys2Proof.Machine.execActivityEstimate n meas measValid s
  | .calibration => Sys2Proof.Machine.execCalibration s
  | .driftClear => Sys2Proof.Machine.execDriftClear s
  | .sensorRead va vb ta tb => Sys2Proof.Machine.execSensorRead va vb ta tb s
  | .coolantStopAssert => Sys2Proof.Machine.execCoolantStopAssert s
  | .coolantStopDeassert => Sys2Proof.Machine.execCoolantStopDeassert s
  | .coolantHoldExpiry => Sys2Proof.Machine.execCoolantHoldExpiry s
  | .coneWindowEnd cone => Sys2Proof.Machine.execConeWindowEnd cone s
  | .thrashWindowEnd shelf => Sys2Proof.Machine.execThrashWindowEnd shelf s
  | .streamExpiry shelf index => Sys2Proof.Machine.execStreamExpiry shelf index s
  | .shfAuuSeed shelf seed => Sys2Proof.Machine.execShfAuuSeed shelf seed s
  | .pmuCycLoRead priv => Sys2Proof.Machine.execPmuCycLoRead priv s
  | .pmcLoRead n priv => Sys2Proof.Machine.execPmcLoRead n priv s
  | .pmcLoWrite n value priv => Sys2Proof.Machine.execPmcLoWrite n value priv s
  | .pmcWrap n => Sys2Proof.Machine.execPmcWrap n s
  | .pmuWindowEnd => Sys2Proof.Machine.execPmuWindowEnd s
  | .pmuWinCfgWrite value => Sys2Proof.Machine.execPmuWinCfgWrite value s
  | .evtPop => Sys2Proof.Machine.execEvtPop s
  | .evtStatRead => Sys2Proof.Machine.execEvtStatRead s
  | .shfUcfStatRead shelf => Sys2Proof.Machine.execShfUcfStatRead shelf s
  | .tlyUnroutedRead => Sys2Proof.Machine.execTlyUnroutedRead s
  | .shfAuditCntRead shelf => Sys2Proof.Machine.execShfAuditCntRead shelf s
  | .shfGwStatRead shelf => Sys2Proof.Machine.execShfGwStatRead shelf s
  | .shfAuuRejRead shelf => Sys2Proof.Machine.execShfAuuRejRead shelf s
  | .fltTransRead kind => Sys2Proof.Machine.execFltTransRead kind s
  | .farLaneUp port lanes => Sys2Proof.Machine.execFarLaneUp port lanes s
  | .farTrainDone port passing => Sys2Proof.Machine.execFarTrainDone port passing s
  | .farTrainRetry port => Sys2Proof.Machine.execFarTrainRetry port s
  | .regWrite addr value priv strb => Sys2Proof.Machine.execRegWrite addr value priv strb s
  | .peerResponse h data => Sys2Proof.Machine.execPeerResponse h data s
  | .backingPortReady bp writes => Sys2Proof.Machine.execBackingPortReady bp writes s
  | .fwFlipHoldExpiry shelf => Sys2Proof.Machine.execFwFlipHoldExpiry shelf s
  | .standbyRebootDone => Sys2Proof.Machine.execStandbyRebootDone s
  | .invalidUcfMessage port h => Sys2Proof.Machine.execInvalidUcfMessage port h s
  | .regRead addr priv => Sys2Proof.Machine.execRegRead addr priv s
  | .ijtagAccess a => Sys2Proof.Machine.execIjtagAccess a s
  | .apbReset => Sys2Proof.Machine.execApbReset s
  | .resetAssert => Sys2Proof.Machine.execResetAssert s

end Sys2Proof.Machine
end

