-- ==== Sys2Proof/Safety.lean ====
section
/-! DEFINITION. The invariant of the state that the claims use: the arrays' tables are canonical, a locked clock enable
is on (R406), and the event queue holds at most 512 events (R448); and the conditions that claims name: a state in which
an APB access is served, and one in which nothing waits to go on. -/
namespace Sys2Proof.Machine

/-- The canonical form of the arrays' memory: every table's keys rise strictly and list no value that an unlisted key
reads as (log 1). -/
def Arrays.wf (a : Arrays) : Bool :=
  twf 0 a.bytes && twf false a.poison && twf Tag.empty a.tags && twf 0 a.frameTree && twf 0 a.tagTree

/-- A locked enable bit is 1 (R406). -/
def Clocks.locked (k : Clocks) : Bool := k.lock0 &&& ~~~k.clken0 == 0 && k.lock1 &&& ~~~k.clken1 == 0

/-- At most 512 events are queued (R448). -/
def Events.bounded (e : Events) : Bool := decide (e.queue.length ≤ 512)

/-- The invariant that every step keeps. -/
def State.Inv (s : State) : Prop := s.arr.wf = true ∧ s.ckp.locked = true ∧ s.evt.bounded = true

/-- The invariant, with q the queue of waiting commands. -/
def State.Sound (q : List Instr) (s : State) : Prop := s.pending = q ∧ s.Inv

/-- The fields of `State` but the queue. -/
inductive Field where
  | free | boot | apb | evt | syb | glaze | agents | shelves | arr | dir | home | back | rings | cmds
  | ranges | tly | cone | pmu | kiln | flt | ep | pair | fw | life | ckp | links | out
  deriving DecidableEq, Repr

/-- Two states agree in a field. -/
def State.same (s t : State) : Field → Prop
  | .free => t.free = s.free
  | .boot => t.boot = s.boot
  | .apb => t.apb = s.apb
  | .evt => t.evt = s.evt
  | .syb => t.syb = s.syb
  | .glaze => t.glaze = s.glaze
  | .agents => t.agents = s.agents
  | .shelves => t.shelves = s.shelves
  | .arr => t.arr = s.arr
  | .dir => t.dir = s.dir
  | .home => t.home = s.home
  | .back => t.back = s.back
  | .rings => t.rings = s.rings
  | .cmds => t.cmds = s.cmds
  | .ranges => t.ranges = s.ranges
  | .tly => t.tly = s.tly
  | .cone => t.cone = s.cone
  | .pmu => t.pmu = s.pmu
  | .kiln => t.kiln = s.kiln
  | .flt => t.flt = s.flt
  | .ep => t.ep = s.ep
  | .pair => t.pair = s.pair
  | .fw => t.fw = s.fw
  | .life => t.life = s.life
  | .ckp => t.ckp = s.ckp
  | .links => t.links = s.links
  | .out => t.out = s.out

/-- A frame: from s to t no field has changed but those listed, and the queue is the same. -/
def Keeps (ps : List Field) (s t : State) : Prop := t.pending = s.pending ∧ ∀ p, ps.contains p = false → s.same t p

/-- What an outcome's next state satisfies; nothing is asked of a fault or a refusal. -/
def Post (P : State → Prop) : Host.Outcome State Fault Refusal → Prop
  | .next t => P t
  | _ => True

/-- What a state that may be absent satisfies. -/
def PostO (P : State → Prop) : Option State → Prop
  | some t => P t
  | none => True

/-- The management domain is out of retention (R415). -/
def State.wakeMgmt (s : State) : State := { s with ckp := { s.ckp with mgmtRet := false } }

/-- An APB access to this address is served at once: the slice is out of reset with its ember oscillator running, no access
is held, and the page's block is neither gated, asleep nor dozing (R401, R405, R410, R414). -/
def State.Serves (s : State) (addr : Nat) : Prop :=
  s.boot.step ≠ .held ∧ s.boot.step ≠ .eclkStart ∧ s.apb.held = none ∧ s.pageGated (addr / 0x1000) = false ∧
  ∀ h, pageHalf (addr / 0x1000) = some h →
    (s.half h).st = .awake ∧ (addr / 0x1000 - 0x10 < 16 → s.ckp.doze.getLsbD (addr / 0x1000 - 0x10) = false)

/-- Nothing waits to go on: no shelf's agent table is old, nothing waits in the seam bridge, no command is open, no firmware
handover runs, the pair link is not resynchronising, no ring has a record or its control line to write, and no request waits
to be admitted (log 29). -/
def State.Calm (s : State) : Prop :=
  (∀ i, (s.shelf i).agentsOld = false) ∧ s.home.bridge = [] ∧ s.openOrder = [] ∧ s.fw.step = 0 ∧ s.fw.trail = 0 ∧
  s.pair.link ≠ 2 ∧ (∀ n, (s.ring n).held = [] ∧ (s.ring n).ctlDue = false) ∧ s.home.cq = []

/-- The command ends in a state that satisfies P, after which whatever can go on has gone on (log 29). -/
def Does (c : Instr) (s : State) (P : State → Prop) : Prop := ∃ t, exec c s = .next t.settle ∧ P t

/-- From s to t the slice has given out one more message: it was sent, or it waits behind the others for a credit of its
channel (R144, R440), or in the seam bridge for the wake of its port's half (R27). -/
def State.Sends (s t : State) (m : Msg) : Prop :=
  t.out.msgs = s.out.msgs ++ [m] ∨ ∃ p, m.port = some p ∧ ((t.link p).waiting = (s.link p).waiting ++ [m] ∨
    ∃ sh, t.home.bridge = s.home.bridge ++ [(p.half, .out sh m)])

end Sys2Proof.Machine
end

