-- ==== Sys2Proof/Certificates/Slice0/Obligations.lean ====
section
/-! DEFINITION. The statements for the provers, each from the rules of spec/ that its docstring names. `Does c s P` says that
the command ends in a state that satisfies P, after which whatever waited has gone on (log 29). -/

open Sys2Proof Sys2Proof.Machine

/-! ### The queue, the invariant, the one stop -/

/-- A step runs the command at the front of the queue on the state with the queue's rest. On an empty queue the slice
idles: the model's choice (log 2). -/
def Obligations.StepRunsFrontCommand : Prop :=
 (∀ (c : Instr) (cs : List Instr) (s : State), s.pending = c :: cs → step s = exec c { s with pending := cs }) ∧
 (∀ s : State, s.pending = [] → step s = .next s)

/-- Every step keeps the invariant: the arrays' memory stays canonical, a locked clock enable stays 1 (R406), and no
more than 512 events are queued (R448). A step takes exactly the front command off the queue, whatever that command
does: no command adds to the queue, takes from it or reorders it. -/
def Obligations.StepKeepsInvariantAndQueue : Prop :=
 (∀ s t : State, s.Inv → step s = .next t → t.Inv) ∧
 (∀ (c : Instr) (cs : List Instr) (s t : State), s.pending = c :: cs → step s = .next t → t.pending = cs)

/-- The invariant holds right after reset. -/
def Obligations.ResetHasInvariant : Prop := State.reset.Inv

/-- Every command but a write to a self-test controller that the test lock leaves open ends in a next state, from
every state: nothing faults, and nothing else is refused. -/
def Obligations.EveryOtherCommandCompletes : Prop :=
  ∀ (c : Instr) (s : State), ((∀ n v, c ≠ .ijtagAccess (.selfTestWrite n v)) ∨ s.testLock = true) →
    ∃ t, exec c s = .next t

/-- The test port (R450, R466). With TEST_LOCK burnt every segment but the identification one shifts out 0 and ignores
a write; without it each shifts out its contents, IDCODE being version, PART, JTAG_MFG and 1. Nothing but the output
of the port changes, but for the free values that a register's read draws. A write to a self-test controller stops:
the spec gives that write no effect (log 11). -/
def Obligations.TestPortReadsSegments : Prop :=
  ∀ s : State,
    let out := fun (v : Nat) => ({ s with boot := { s.boot with tdo := BitVec.ofNat 64 v } } : State)
    let locked := fun (v : Nat) => if s.boot.fuses.getLsbD 3143 then 0 else v
    let id := 1 + 2 * s.boot.jtagMfg.toNat + 0xD601 * 2 ^ 12 + 2 ^ 28
    exec (.ijtagAccess .bypass) s = .next (out 0) ∧
    exec (.ijtagAccess .idcode) s = .next (out id) ∧
    exec (.ijtagAccess .identSegment) s = .next (out id) ∧
    (∀ n, exec (.ijtagAccess (.selfTestRead n)) s = .next (out (locked (Config.selfTestSegment n).toNat))) ∧
    (∀ n, exec (.ijtagAccess (.spareRead n)) s = .next (out (locked (s.spareSegment n)))) ∧
    (∀ a, exec (.ijtagAccess (.arrayRead a)) s =
      .next (out (locked (leNat ((List.range 8).map (fun i => s.arrByte (a.toNat + i))))))) ∧
    (∀ a, exec (.ijtagAccess (.registerRead a)) s =
      if s.boot.fuses.getLsbD 3143 then .next (out 0)
      else .next { (s.readValue a.toNat true).2 with
        boot := { (s.readValue a.toNat true).2.boot with tdo := BitVec.ofNat 64 (s.readValue a.toNat true).1 } }) ∧
    (∀ n v, exec (.ijtagAccess (.selfTestWrite n v)) s =
      if s.boot.fuses.getLsbD 3143 then .next s else .refused .selfTestController)

/-! ### Reset and boot -/

/-- RESET_ASSERT and RESET (R452). With no coolant stop on its pin and no Life Record write that could be in progress,
what RESET_N leaves is the state after reset but for the Life Record's contents, the ember oscillator's count, the
levels of the skip and droop pins, and what is no register of the slice (the queue and the counter of free values).
RESET samples the straps besides, and the oscillator's start count begins. RESET_ASSERT and RESET from every state:
the slice is in reset, or its oscillator starts; it has no base, no clock enable, no lock, no agent, no ring and no
open command, and the Life Record keeps its contents unless a write of them was in progress (R452, R460). -/
def Obligations.ResetLeavesResetState : Prop :=
 (∀ (s : State) (base : BitVec 21) (mfg : BitVec 11), s.ckp.coolStop = false → s.life.changed = false →
    let pins := fun (c : HalfClk) => { HalfClk.reset with k := c.k, droop := c.droop }
    let t : State := { State.reset with
      pending := s.pending, free := s.free
      life := { Life.blank with bytes := s.life.bytes }
      ckp := { Clocks.reset with eclk := s.ckp.eclk, a := pins s.ckp.a, b := pins s.ckp.b } }
    exec .resetAssert s = .next t ∧
    exec (.reset base mfg) s =
      .next { t with boot := { Boot.reset with step := .eclkStart, sliceBase := base, jtagMfg := mfg } }) ∧
 (∀ (s : State) (base : BitVec 21) (mfg : BitVec 11), ∃ t u,
    exec .resetAssert s = .next t ∧ exec (.reset base mfg) s = .next u ∧
    t.boot = Boot.reset ∧ u.boot = { Boot.reset with step := .eclkStart, sliceBase := base, jtagMfg := mfg } ∧
    (s.life.changed = false → t.life.bytes = s.life.bytes) ∧ u.life.bytes = s.life.bytes ∧
    ∀ v, v = t ∨ v = u →
      v.pending = s.pending ∧ v.syb.state = .config ∧ v.ckp.clken0 = 0 ∧ v.ckp.clken1 = 0 ∧ v.ckp.lock0 = 0 ∧
      v.ckp.lock1 = 0 ∧ v.agents.table = [] ∧ v.rings = [] ∧ v.cmds.ctxs = [] ∧ v.home = ⟨[], [], [], [], []⟩ ∧
      v.arr = ⟨[], [], [], [], []⟩ ∧ v.out.vreqA = 2 ∧ v.out.vreqB = 2 ∧ v.ckp.eclk = s.ckp.eclk)

/-- The reset sequence to the ROM (R401, R449, R452): the oscillator's start count ends and the fuse reads begin; each
read fills 32 bits of the fuse block; the last leads to the wait for MCLK_OK; with a core that passes its memory test
the boot ROM waits for GO, with one alone NO_STANDBY reads 1, and with none the slice is unusable with ERR 0x21. -/
def Obligations.ResetSequenceReachesRom : Prop :=
  ∀ s : State,
    (s.boot.step = .eclkStart → ∃ t, exec .eclkValid s = .next t ∧
      t.boot = { s.boot with step := .fuses, fuseAddr := 0 } ∧ t.ckp = { s.ckp with eclk := s.ckp.eclk + 4096 } ∧
      Keeps [.boot, .ckp, .life] s t) ∧
    (∀ data, s.boot.step = .fuses → ∃ t, exec (.fuseRdAck data) s = .next t ∧
      t.boot.fuseAddr = s.boot.fuseAddr + 1 ∧
      (∀ i, t.boot.fuses.getLsbD i = (s.boot.fuses.getLsbD i ||
        (decide (32 * s.boot.fuseAddr.toNat ≤ i) && data.getLsbD (i - 32 * s.boot.fuseAddr.toNat)))) ∧
      t.boot.step = (if s.boot.fuseAddr.toNat = 127 then .waitMclk else .fuses) ∧ Keeps [.boot, .life, .flt] s t) ∧
    (s.boot.step = .waitMclk →
      (∃ t, exec (.mclkOk true true) s = .next t ∧ t.boot.step = .rom ∧ Keeps [.boot] s t) ∧
      (∀ a b, a ≠ b → ∃ t, exec (.mclkOk a b) s = .next t ∧ t.boot.step = .rom ∧ t.fw.noStandby = true ∧
        t.flt.retired = s.flt.retired ++ [.mgmtCore] ∧ Keeps [.boot, .fw, .flt] s t) ∧
      (∃ t, exec (.mclkOk false false) s = .next t ∧ t.boot.step = .unusable ∧ t.boot.err = 0x21 ∧
        t.flt.serving = false ∧ Keeps [.boot, .flt] s t))

/-- The ROM boot (R454, R460). A GO in WAIT with no image read under way takes the port, enables it and its half's
fabric, and starts the read; where STATE is not WAIT it is ignored and raises BOOT_BUSY. An image that a read could
not correct sets ERR to BOUNDS, one that fails a check that check's code, and STATE stays WAIT; one that passes is
loaded, and STATE becomes BOOTING. -/
def Obligations.RomBootLoadsImage : Prop :=
  ∀ s : State,
    (∀ port : Fin 8, s.Serves 0x000C0 → s.boot.step = .rom → s.boot.reading = false →
      Does (.bootGo port) s (fun t => t.boot.reading = true ∧ t.boot.port.toNat = port.val ∧ t.boot.step = .rom ∧
        t.ckp.clken1.getLsbD (8 + port.val) = true ∧ t.ckp.clken1.getLsbD (port.val / 4) = true ∧
        Keeps [.boot, .apb, .ckp, .pair, .links] s t)) ∧
    (∀ port : Fin 8, s.Serves 0x000C0 → (s.boot.step = .booting ∨ s.boot.step = .testing ∨ s.boot.step = .running) →
      Does (.bootGo port) s (fun t => t.boot.reading = s.boot.reading ∧ t.boot.step = s.boot.step ∧
        t.evt = (s.event 0x1401 srcSlice []).evt ∧ t.ckp = s.wakeMgmt.ckp ∧ Keeps [.boot, .apb, .ckp, .evt] s t)) ∧
    (s.boot.step = .rom → s.boot.reading = true → s.ckp.coolActive = false →
      (∀ image, exec (.romImageChecked image true) s =
        .next { s with boot := { s.boot with reading := false, err := stBounds } }) ∧
      (∀ image, ∃ t, exec (.romImageChecked image false) s = .next t ∧ match s.romCheck image with
        | some st => t.boot = { s.boot with reading := false, err := st } ∧ Keeps [.boot] s t
        | none => t.boot = { s.boot with step := .booting, reading := false } ∧
          t.fw.imageVer = BitVec.ofNat 32 (imgVer image) ∧ t.life.arb = BitVec.ofNat 32 (imgArb image) ∧
          Keeps [.boot, .fw, .life, .out] s t))

/-- History sparing and self-test (R455, R456). From BOOTING, STATE becomes TESTING with every shelf, half fabric,
maintenance engine and sequencer enabled; at its end STATE is RUNNING with DONE 1. A march that finds no failing unit
leaves every array word 0, every tag slot invalid, every directory way free and every line buffer empty, and retires
nothing. -/
def Obligations.SelfTestEndsRunning : Prop :=
  ∀ s : State,
    (s.boot.step = .booting → s.ckp.coolActive = false → ∃ t, exec .selfTest s = .next t ∧ t.boot.step = .testing ∧
      t.ckp.clken0 = 0xFFFF ∧ ∀ i, i < 7 → t.ckp.clken1.getLsbD i = true) ∧
    (∀ failing, s.boot.step = .testing → s.ckp.coolActive = false → ∃ t, exec (.selfTestDone failing) s = .next t ∧
      t.boot.step = .running ∧ t.boot.bistDone = true ∧ t.pending = s.pending) ∧
    (s.boot.step = .testing → s.ckp.coolActive = false → ∃ t, exec (.selfTestDone []) s = .next t ∧
      t.boot = { s.boot with step := .running, bistDone := true } ∧
      (∀ a, t.arrByte a = 0) ∧ (∀ k, tget Tag.empty t.arr.tags k = Tag.empty) ∧ (∀ l, t.poisoned l = false) ∧
      (∀ k, tget DirEntry.empty t.dir.ways k = DirEntry.empty) ∧ (∀ sh, sh < 16 → (t.shelf sh).lineBufs = []) ∧
      Keeps [.boot, .arr, .dir, .shelves] s t)

/-! ### APB accesses -/

/-- A register access that is served (R446, R463): a write takes effect in its register and completes, a read answers
the register's value and has its side effect, both without PSLVERR; an unprivileged read that R434 serves does the
same. An access to a block that sleeps is held, and its half's wake asked for (R414): it completes with the wake, and
until then the slave takes no other. -/
def Obligations.AccessesCompleteOrWait : Prop :=
 (∀ (s : State) (addr : BitVec 18), s.Serves addr.toNat → addr.toNat % 4 = 0 → pageAssigned (addr.toNat / 0x1000) = true →
      (∀ v, exec (.regWrite addr v true 15) s = .next ((s.wakeMgmt.writeReg addr.toNat v).answer 0 false).settle) ∧
      ∀ priv, (priv = true ∨ s.userServed addr.toNat false = true) →
        exec (.regRead addr priv) s =
          .next (((s.wakeMgmt.readValue addr.toNat priv).2.readEffect addr.toNat priv).answer
            (s.wakeMgmt.readValue addr.toNat priv).1 false).settle) ∧
 (∀ (s : State) (addr : BitVec 18) (v : Word) (half : Half),
      let p := addr.toNat / 0x1000
      s.boot.step ≠ .held → s.boot.step ≠ .eclkStart → addr.toNat % 4 = 0 → pageAssigned p = true → s.pageGated p = false →
      pageHalf p = some half →
      (s.apb.held = none → (s.half half).st ∈ [HalfState.retained, .vddUp, .locking, .restoring] →
        (∀ c a, ((c = .regWrite addr v true 15 ∧ a = ⟨addr, some v, true⟩) ∨ (c = .regRead addr true ∧ a = ⟨addr, none, true⟩)) →
          Does c s (fun t => t.apb.held = some a ∧ t.half half = { s.half half with wakeAsked := true } ∧
            t.ckp.mgmtRet = false ∧ Keeps [.apb, .ckp] s t))) ∧
      (s.apb.held.isSome = true → exec (.regWrite addr v true 15) s = .next s.settle ∧
        exec (.regRead addr true) s = .next s.settle))

/-- An access completes with PSLVERR, reading 0 and writing nothing, where PADDR[1:0] is not 0, a write has a strobe
that is not 0b1111, the page is unassigned or reserved, or PPROT[0] is 0 and R434 does not serve the access; and where
the page's block is gated, with GATED_ACCESS besides (R405, R434, R446, R462). PRESETn resets
the APB interface and nothing else. -/
def Obligations.AccessErrorsAnswerSlverr : Prop :=
 (∀ (s : State) (addr : BitVec 18), s.boot.step ≠ .held → s.boot.step ≠ .eclkStart → s.apb.held = none →
      (∀ v priv strb, (addr.toNat % 4 ≠ 0 ∨ strb ≠ 15 ∨ pageAssigned (addr.toNat / 0x1000) = false ∨ priv = false) →
        exec (.regWrite addr v priv strb) s = .next (s.wakeMgmt.answer 0 true).settle) ∧
      (∀ priv, (addr.toNat % 4 ≠ 0 ∨ pageAssigned (addr.toNat / 0x1000) = false ∨
          (priv = false ∧ s.userServed addr.toNat false = false)) →
        exec (.regRead addr priv) s = .next (s.wakeMgmt.answer 0 true).settle) ∧
      (addr.toNat % 4 = 0 → pageAssigned (addr.toNat / 0x1000) = true → s.pageGated (addr.toNat / 0x1000) = true →
        (∀ v, exec (.regWrite addr v true 15) s =
          .next ((s.wakeMgmt.event 0x1202 srcSlice [addr.toNat]).answer 0 true).settle) ∧
        exec (.regRead addr true) s = .next ((s.wakeMgmt.event 0x1202 srcSlice [addr.toNat]).answer 0 true).settle)) ∧
 (∀ s : State, exec .apbReset s = .next { s with apb := ⟨0, false, none⟩ })

/-- The registers whose reset value their tables give as other than 0 read it right after reset: GLB_ID, GLB_CAP0 to
2, DOZE_IDLE, HALF_IDLE and SLP_TIMEOUT, the droop skip, CAL K, MARGIN, HOLD_MS, the energy weights, RNG_CFG,
CON_CTRL, the throttle table, PMU_WIN_CFG, PMC filters, FLT_TRANS_CFG, the wedge interval, SHF_THRESH and
SHF_AUU_SEED. -/
def Obligations.ResetRegistersReadTableValues : Prop :=
  ∀ p ∈ [(0x00000, 0xD601), (0x00008, 16 + 16 * 2 ^ 5 + 32 * 2 ^ 10 + 8 * 2 ^ 16 + 4 * 2 ^ 20 + 2 * 2 ^ 23),
      (0x0000C, 256 + 4096 * 2 ^ 9 + 16 * 2 ^ 22), (0x00014, 1024 + 64 * 2 ^ 11 + 2 ^ 18 + 2 ^ 19),
      (0x01030, 1024), (0x01034, 100 + 3 * 2 ^ 16), (0x01058, 0x4000), (0x0105C, 1200), (0x01060, 100),
      (0x01080, 398), (0x01084, 104), (0x01088, 70), (0x0108C, 208), (0x01090, 9000), (0x01094, 1000), (0x01098, 2000),
      (0x03018, 6 + 6 * 2 ^ 4 + 4 * 2 ^ 14 + 2 ^ 20), (0x05000, 1), (0x05004, 0xFEDCBA98), (0x06030, 1000),
      (0x06108, 0x1FFE7), (0x07000, 1000), (0x07008, 12 + 2 ^ 5), (0x10020, 64), (0x10060, 1)],
    (State.reset.readValue p.1 true).1 = p.2

/-- Software reads back what it wrote to a register that only it changes, in the bits that the register has. An offset
inside the ring array beyond its last register reads 0 and ignores writes (R462). -/
def Obligations.PlainRegistersReadBack : Prop :=
 (∀ (s : State) (v : Word),
    (∀ p ∈ [(0x00018, 0xFFFFFFFF), (0x00050, 0xFFFFFF80), (0x00054, 0x000FFFFF), (0x00080, 0x00000FFF), (0x00084, 0x001FFFFF),
        (0x000A0, 0x00000FFF), (0x000B0, 0x80000FFF), (0x000C8, 0xFFFFFFC0), (0x000CC, 0x000FFFFF), (0x01030, 0x0000FFFF),
        (0x01034, 0x0007FFFF), (0x01080, 0x0000FFFF), (0x01098, 0x0000FFFF), (0x02008, 0xFFFFFFFF), (0x0200C, 0x000FFFFF),
        (0x02010, 0xFFFFFFFF), (0x03404, 0x0000FFFF), (0x04000, 0x00000007), (0x05004, 0xFFFFFFFF), (0x05014, 0x0000FFFF),
        (0x06000, 0x00000007), (0x06008, 0xFFFFFFFF), (0x06030, 0x000FFFFF), (0x06110, 0xFFFFFF80), (0x06114, 0x000FFFFF),
        (0x07000, 0x0000FFFF), (0x07008, 0x0000003F), (0x07010, 0x000000FF), (0x09010, 0x000000FF), (0x0A00C, 0x0001FFFC),
        (0x22000, 0x000103FF), (0x22400, 0x803FFFFF), (0x227FC, 0x803FFFFF)],
      ((s.writeReg p.1 v).readValue p.1 true).1 = v.toNat &&& p.2) ∧
    ∀ sh : Fin 16, ((s.writeReg (shfPage sh.val + 0x020) v).readValue (shfPage sh.val + 0x020) true).1 = v.toNat &&& 0xFFFF ∧
      ((s.writeReg (shfPage sh.val + 0x060) v).readValue (shfPage sh.val + 0x060) true).1 = v.toNat) ∧
 (∀ (s : State) (n : Fin 16) (k : Fin 5) (v : Word),
    s.writeReg (0x03000 + 0x40 * n.val + 0x2C + 4 * k.val) v = s ∧
    s.readValue (0x03000 + 0x40 * n.val + 0x2C + 4 * k.val) true = (0, s))

/-- A read of PMU_CYC_LO or PMCn_LO answers the counter's bits [31:0] and copies its upper bits into PMU_LATCH_HI, in
the bank of PPROT[0] (R426). A counter of cycles that no command reports has first grown by an amount short of its
wrap. -/
def Obligations.CounterReadsLatchUpperBits : Prop :=
  ∀ (s : State) (priv : Bool), (priv = true ∨ s.pmu.userEn = true) →
    (s.Serves 0x06010 → Does (.pmuCycLoRead priv) s (fun t =>
      t.apb = ⟨s.pmu.cyc.truncate 32, false, none⟩ ∧ Keeps [.apb, .ckp, .pmu] s t ∧
      t.pmu = if priv then { s.pmu with latchPriv := (s.pmu.cyc >>> 32).truncate 32 }
        else { s.pmu with latchUser := (s.pmu.cyc >>> 32).truncate 32 })) ∧
    ∀ n : Fin 8, s.Serves (0x06100 + 0x20 * n.val) → Does (.pmcLoRead n priv) s (fun t =>
      (s.pmc n.val).count.toNat ≤ (t.pmc n.val).count.toNat ∧
      ((s.pmc n.val).unseen = false → (t.pmc n.val).count = (s.pmc n.val).count) ∧
      t.apb = ⟨(t.pmc n.val).count.truncate 32, false, none⟩ ∧
      (if priv then t.pmu.latchPriv else t.pmu.latchUser) = ((t.pmc n.val).count >>> 32).truncate 32 ∧
      (∀ m : Fin 8, m ≠ n → t.pmc m.val = s.pmc m.val) ∧ Keeps [.free, .apb, .ckp, .pmu] s t)

/-- Fields that a read clears (R464): EVT_STAT.DROPPED, TLY_UNROUTED, SHF_AUDIT_CNT, SHF_GW_STAT, SHF_AUU_REJ and
FLT_TRANSk answer their value and are left at 0; the high-water marks of SHF_UCF_STAT restart at the present
occupancy. The fields beside them stay. -/
def Obligations.ClearingReadsClearTheirFields : Prop :=
  ∀ s : State,
    (s.Serves 0x04004 → Does .evtStatRead s (fun t =>
      t.apb = ⟨BitVec.ofNat 32 (s.evt.queue.length + s.evt.dropped.toNat * 2 ^ 16), false, none⟩ ∧
      t.evt = { s.evt with dropped := 0 } ∧ Keeps [.apb, .ckp, .evt] s t)) ∧
    (s.Serves 0x22004 → Does .tlyUnroutedRead s (fun t => t.apb = ⟨s.tly.unrouted, false, none⟩ ∧
      t.tly = { s.tly with unrouted := 0 } ∧ Keeps [.apb, .ckp, .tly] s t)) ∧
    (∀ k : Fin 16, s.Serves (0x07040 + 4 * k.val) → Does (.fltTransRead k) s (fun t =>
      t.apb = ⟨tget 0 s.flt.trans k.val, false, none⟩ ∧ tget 0 t.flt.trans k.val = 0 ∧
      (∀ j, j ≠ k.val → tget 0 t.flt.trans j = tget 0 s.flt.trans j) ∧ Keeps [.apb, .ckp, .flt] s t)) ∧
    ∀ sh : Fin 16,
      let h := s.shelf sh.val
      let only := fun (t : State) (g : Shelf) (v : Nat) => t.apb = ⟨BitVec.ofNat 32 v, false, none⟩ ∧ t.shelf sh.val = g ∧
        (∀ j, j ≠ sh.val → t.shelf j = s.shelf j) ∧ Keeps [.apb, .ckp, .shelves] s t
      (s.Serves (shfPage sh.val + 0x040) → Does (.shfUcfStatRead sh) s (fun t =>
        only t { h with txnHwm := BitVec.ofNat 9 (s.records sh.val), cqHwm := BitVec.ofNat 10 (s.stored sh.val).length }
          (h.prio.toNat + h.txnHwm.toNat * 2 ^ 8 + h.cqHwm.toNat * 2 ^ 17))) ∧
      (s.Serves (shfPage sh.val + 0x048) → Does (.shfAuditCntRead sh) s (fun t =>
        only t { h with auditCnt := 0 } h.auditCnt.toNat)) ∧
      (s.Serves (shfPage sh.val + 0x054) → Does (.shfGwStatRead sh) s (fun t =>
        only t { h with fireCnt := 0, crackCnt := 0 } (h.fireCnt.toNat + h.crackCnt.toNat * 2 ^ 16))) ∧
      (s.Serves (shfPage sh.val + 0x068) → Does (.shfAuuRejRead sh) s (fun t =>
        only t { h with auuRej := 0 } (h.auuRej.toNat + h.auuCause.toNat * 2 ^ 16)))

/-! ### Commands that are one register write -/

/-- BASE_LOAD (R53, R55, R457): in RUNNING with no base loading or active the load starts, of the default base when
SYB_LEN is 0; before RUNNING it is ignored with SYB_EARLY, and while a load runs or a base is active with SYB_RELOAD.
PAR_FULL_RESYNC (R387, R388) sets every bit of the resync map; on a slice whose link is up with M-class granules it
becomes the source. -/
def Obligations.LoadAndResyncWritesStart : Prop :=
 (∀ s : State, s.Serves 0x02000 →
    (s.boot.step = .running → s.syb.state ≠ .loading → s.syb.state ≠ .active → Does .baseLoad s (fun t =>
      t.syb = { s.syb with state := .loading, loadDefault := s.syb.len == 0, loadLen := s.syb.len } ∧ Keeps [.apb, .ckp, .syb] s t)) ∧
    (s.boot.step ≠ .running → exec .baseLoad s = .next ((s.wakeMgmt.event 0x0202 srcSlice []).answer 0 false).settle) ∧
    (s.boot.step = .running → (s.syb.state = .loading ∨ s.syb.state = .active) →
      exec .baseLoad s = .next ((s.wakeMgmt.event 0x0201 srcSlice []).answer 0 false).settle)) ∧
 (∀ s : State, s.Serves 0x08000 →
    let pair := { s.pair with full := decide (0 < s.cfg.granules)
                              map := (List.range s.cfg.granules).map (fun g => (g, true)) }
    (s.pair.link ≠ 1 → Does .parFullResync s (fun t => t.pair = pair ∧
      (∀ g, tget false t.pair.map g = decide (g < s.cfg.granules)) ∧ Keeps [.apb, .ckp, .pair] s t)) ∧
    (s.pair.link = 1 → 0 < s.cfg.granules → exec .parFullResync s = .next
      ((({ s.wakeMgmt with pair := pair } : State).syncSource).answer 0 false).settle))

/-- The clock registers. CKP_CLKENn takes the bits written, but a locked bit stays 1 and a 0 for it raises
CLKEN_LOCKED (R406); a write of SEL starts a switch, and is ignored with CLKEN_LOCKED while one is incomplete (R407);
clearing DRIFT resets the miss count (R421). -/
def Obligations.ClockWritesTakeEffect : Prop :=
  ∀ s : State,
    (s.Serves 0x01010 → ∀ v : Word, Does (.ckpClkenWrite false v) s (fun t =>
      t.ckp.clken0 = (v.truncate 16 ||| s.ckp.lock0) ∧ t.ckp.clken1 = s.ckp.clken1 ∧ t.ckp.lock0 = s.ckp.lock0 ∧
      t.evt = (if s.ckp.lock0 &&& ~~~(v.truncate 16) = 0 then s.evt else (s.event 0x1203 srcSlice [0x01010]).evt) ∧
      Keeps [.apb, .evt, .ckp] s t)) ∧
    (s.Serves 0x01014 → ∀ v : Word, Does (.ckpClkenWrite true v) s (fun t =>
      t.ckp.clken1 = (v.truncate 22 &&& 0x3FFF7F#22 ||| s.ckp.lock1) ∧ t.ckp.clken0 = s.ckp.clken0 ∧
      t.ckp.lock1 = s.ckp.lock1 ∧
      t.evt = (if s.ckp.lock1 &&& ~~~(v.truncate 22) = 0 then s.evt else (s.event 0x1203 srcSlice [0x01014]).evt) ∧
      Keeps [.apb, .evt, .ckp, .pair, .links] s t)) ∧
    (∀ h sel, s.Serves (hlfClkAddr h) → (s.half h).switching = false → Does (.muxSelect h sel) s (fun t =>
      t.half h = { s.half h with sel := sel, switching := true } ∧ Keeps [.apb, .ckp] s t)) ∧
    (∀ h sel, s.Serves (hlfClkAddr h) → (s.half h).switching = true → Does (.muxSelect h sel) s (fun t =>
      t.ckp = s.wakeMgmt.ckp ∧ t.evt = (s.event 0x1203 srcSlice [hlfClkAddr h]).evt ∧ Keeps [.apb, .evt, .ckp] s t)) ∧
    (s.Serves 0x0105C → Does .driftClear s (fun t =>
      t.ckp = { s.wakeMgmt.ckp with drift := false, calMiss := 0 } ∧ Keeps [.apb, .ckp] s t))

/-- SHF_AUU_SEED loads all 64 lane generators of the shelf with SEED xor 0x9E3779B9 × (j + 1), 0 as 1 (R227); no other
shelf changes. VALID of a peer window written 1 (R259): it is set where the window lies in the address space, outside
the slice's own window and outside every cache region; else VALID stays 0 and ERR is set. The other windows stay. -/
def Obligations.SeedAndPeerWindowWrites : Prop :=
 (∀ (s : State) (sh : Fin 16) (seed : Word), s.Serves (shfPage sh.val + 0x060) → Does (.shfAuuSeed sh seed) s (fun t =>
    (t.shelf sh.val).auuSeed = seed ∧ (t.shelf sh.val).lanes.length = 64 ∧
    (∀ j, j < 64 → (t.shelf sh.val).lanes[j]? =
      some (if seed ^^^ (0x9E3779B9#32 * BitVec.ofNat 32 (j + 1)) = 0 then 1
        else seed ^^^ (0x9E3779B9#32 * BitVec.ofNat 32 (j + 1)))) ∧
    (∀ i, i ≠ sh.val → t.shelf i = s.shelf i) ∧ Keeps [.apb, .ckp, .shelves] s t)) ∧
 (∀ (s : State) (n : Fin 8), s.Serves (0x0010C + 16 * n.val) → Does (.glbKpeerValid n) s (fun t =>
    let p := tget Peer.none s.kiln.peers n.val
    tget Peer.none t.kiln.peers n.val = { p with valid := s.windowOk p, err := p.err || !s.windowOk p } ∧
    (∀ m, m ≠ n.val → tget Peer.none t.kiln.peers m = tget Peer.none s.kiln.peers m) ∧ Keeps [.apb, .ckp, .kiln] s t))

/-- A PMC is loaded only while its EN bit is 0 (R427): a privileged write of PMU_LATCH_HI sets the latch, and a write of
PMCn_LO then makes the counter {LATCH_HI[15:0], written value}; while EN is 1 the write is ignored. No other counter
and no other field of the counter changes. -/
def Obligations.CountersLoadWhileDisabled : Prop :=
  ∀ (s : State) (v : Word),
    (s.Serves 0x06008 → Does (.regWrite 0x06008 v true 15) s (fun t => t.pmu = { s.pmu with latchPriv := v } ∧
      Keeps [.apb, .ckp, .pmu] s t)) ∧
    ∀ n : Fin 8, s.Serves (0x06100 + 0x20 * n.val) →
      ((s.pmc n.val).en = false → Does (.pmcLoWrite n v true) s (fun t =>
        t.pmc n.val = { s.pmc n.val with count := s.pmu.latchPriv.truncate 16 ++ v } ∧
        (∀ m, m ≠ n.val → t.pmc m = s.pmc m) ∧ Keeps [.apb, .ckp, .pmu] s t)) ∧
      ((s.pmc n.val).en = true → Does (.pmcLoWrite n v true) s (fun t => t.pmu = s.pmu ∧ Keeps [.apb, .ckp] s t))

/-- Counter and event writes. A write of PMCn_LO without privilege completes with PSLVERR (R434). A write of WIN_US ends
the window without copying (R436). POP moves the oldest event into EVT_DATA0–7, and with none queued clears VALID
(R448). A counter on cycles that no command reports wraps to 0 and sets OVF, and with OVF_IRQ a sample is taken, or
LOST set where one waits (R429, R431, R432; that only the row makes such a counter wrap is the model's choice, log 7).
The window's end copies every port's count in units of 256 bytes, keeps the remainder, and starts the next with SEQ
one higher (R436). -/
def Obligations.CountersAndWindows : Prop :=
 (∀ s : State,
    (∀ (n : Fin 8) (v : Word), s.Serves (0x06100 + 0x20 * n.val) →
      exec (.pmcLoWrite n v false) s = .next (s.wakeMgmt.answer 0 true).settle) ∧
    (∀ v : Word, s.Serves 0x06030 → Does (.pmuWinCfgWrite v) s (fun t =>
      t.pmu = { s.pmu with winUs := v.truncate 20, portIn := [], portOut := [], runFclk := 0 } ∧
      Keeps [.apb, .ckp, .pmu] s t)) ∧
    (s.Serves 0x04008 → Does .evtPop s (fun t =>
      t.evt = (match s.evt.queue with
        | [] => { s.evt with head := s.evt.head &&& ~~~0x80000000#256 }
        | e :: rest => { s.evt with head := e ||| 0x80000000#256, queue := rest }) ∧ Keeps [.apb, .ckp, .evt] s t))) ∧
 (∀ (s : State) (n : Fin 8),
    ((s.pmc n.val).unseen = true → ∃ t, exec (.pmcWrap n) s = .next t ∧ (t.pmc n.val).count = 0 ∧
      t.pmc n.val = { s.pmc n.val with count := 0 } ∧ (∀ m, m ≠ n.val → t.pmc m = s.pmc m) ∧
      t.pmu.ovf = setBit s.pmu.ovf n.val true ∧
      ((s.pmc n.val).ovfIrq = false → t.pmu.sampInfo = s.pmu.sampInfo) ∧
      ((s.pmc n.val).ovfIrq = true → s.pmu.sampInfo.getLsbD 31 = true → t.pmu.sampInfo = s.pmu.sampInfo ||| 0x40000000) ∧
      ((s.pmc n.val).ovfIrq = true → s.pmu.sampInfo.getLsbD 31 = false → s.pmu.skid = none →
        t.pmu.sampInfo.getLsbD 31 = true ∧ (t.pmu.sampInfo.extractLsb' 17 3).toNat = n.val) ∧ Keeps [.pmu] s t) ∧
    (∃ t, exec .pmuWindowEnd s = .next t ∧
      (∀ k, k < 46 → tget 0 t.pmu.outIn k = BitVec.ofNat 32 (tget 0 s.pmu.portIn k / 256) ∧
        tget 0 t.pmu.outOut k = BitVec.ofNat 32 (tget 0 s.pmu.portOut k / 256) ∧
        tget 0 t.pmu.portIn k = tget 0 s.pmu.portIn k % 256 ∧ tget 0 t.pmu.portOut k = tget 0 s.pmu.portOut k % 256) ∧
      t.pmu.winFclk = BitVec.ofNat 32 s.pmu.runFclk ∧ t.pmu.runFclk = 0 ∧ t.pmu.winSeq = s.pmu.winSeq + 1 ∧
      t.pmu.pmcs = s.pmu.pmcs ∧ Keeps [.pmu] s t))

/-- By-address line operations (R127). With a base active and none running, a write of OP starts the operation on the
line of GLB_LINEOP_ADDR, ordered after every activity begun; one on a line that no cache region of this slice holds
acts on nothing. A write while one runs is ignored with an event, and one before a base is active is ignored. -/
def Obligations.LineOpWritesStartOperation : Prop :=
  ∀ (s : State) (c : Instr) (k : RangeKind), s.Serves 0x00058 →
    ((c = .lineopClean ∧ k = .clean) ∨ (c = .lineopInval ∧ k = .inval) ∨ (c = .lineopCleanInval ∧ k = .cleanInval)) →
    let line := lineIx s.ranges.addr.toNat
    (s.active = false → exec c s = .next (s.wakeMgmt.answer 0 false).settle) ∧
    (s.active = true → s.ranges.lineop.isSome = true →
      exec c s = .next ((s.wakeMgmt.event 0x1501 srcSlice [0x00058]).answer 0 false).settle) ∧
    (s.active = true → s.ranges.lineop = none → exec c s = .next
      ((({ s.wakeMgmt with ranges := { s.ranges with lineop := some ⟨k, line, s.ranges.next, false⟩
                                                     next := s.ranges.next + 1 } } : State).lineopAct).answer 0 false).settle) ∧
    (s.active = true → s.ranges.lineop = none → s.quenching = false → s.regionOf line = none → Does c s (fun t =>
      t.ranges = { s.ranges with lineop := some ⟨k, line, s.ranges.next, true⟩, next := s.ranges.next + 1 } ∧
      Keeps [.apb, .ckp, .ranges] s t))

/-- CACHE_EN and TAG_INV of one bank (R118, R119). Clearing CACHE_EN of an enabled cache bank starts a bank clean, and
is refused with BANK_CFG_ERR where the bank holds a pinned line; setting it needs INV_DONE, and without it raises
BANK_CFG_ERR; TAG_INV starts an invalidate while CACHE_EN is 0. In a bank that is not in cache mode all are ignored.
No other bank is touched. -/
def Obligations.CacheEnableWritesActOnOneBank : Prop :=
  ∀ (s : State) (bank : Fin 256), s.active = true →
    let sh := bank.val / 16
    let k := bank.val % 16
    let bit := fun (f : Shelf → BitVec 16) => (f (s.shelf sh)).getLsbD k
    let pinned := s.arr.tags.any (fun p => p.1 / 65536 == bank.val && p.2.pin)
    let onShelf := fun (t : State) (g : Shelf) => t.shelf sh = g ∧ (∀ i, i ≠ sh → t.shelf i = s.shelf i)
    (s.Serves (shfPage sh) → s.cfg.mode bank.val = modeCache → bit Shelf.bankEn = true → bit Shelf.cleaning = false →
      (pinned = false → Does (.cacheEnClear bank) s (fun t =>
        onShelf t { s.shelf sh with cleaning := setBit (s.shelf sh).cleaning k true } ∧
        t.ranges = { s.ranges with waiting := s.ranges.waiting ++ [newRange (.bankClean bank.val) 0 0 none] } ∧
        Keeps [.apb, .ckp, .shelves, .ranges] s t)) ∧
      (pinned = true → Does (.cacheEnClear bank) s (fun t =>
        t.evt = (s.event 0x0403 sh [k]).evt ∧ Keeps [.apb, .ckp, .evt] s t))) ∧
    (s.Serves (shfPage sh) → s.cfg.mode bank.val = modeCache → bit Shelf.bankEn = false → bit Shelf.cleaning = false →
      bit Shelf.retired = false →
      (bit Shelf.invDone = true → Does (.cacheEnSet bank) s (fun t =>
        onShelf t { s.shelf sh with bankEn := setBit (s.shelf sh).bankEn k true } ∧ Keeps [.apb, .ckp, .shelves] s t)) ∧
      (bit Shelf.invDone = false → Does (.cacheEnSet bank) s (fun t =>
        t.evt = (s.event 0x0403 sh [k]).evt ∧ Keeps [.apb, .ckp, .evt] s t))) ∧
    (s.Serves (shfPage sh + 0x008) → s.cfg.mode bank.val = modeCache → bit Shelf.bankEn = false →
      bit Shelf.cleaning = false → Does (.tagInv bank) s (fun t =>
        onShelf t { s.shelf sh with tagInv := setBit (s.shelf sh).tagInv k true } ∧ Keeps [.apb, .ckp, .shelves] s t)) ∧
    (s.cfg.mode bank.val ≠ modeCache →
      (s.Serves (shfPage sh) → exec (.cacheEnClear bank) s = .next (s.wakeMgmt.answer 0 false).settle ∧
        exec (.cacheEnSet bank) s = .next (s.wakeMgmt.answer 0 false).settle) ∧
      (s.Serves (shfPage sh + 0x008) → exec (.tagInv bank) s = .next (s.wakeMgmt.answer 0 false).settle))

/-- Agent operations (R151 to R153). A join without a base reports 2, else of an ID already in the table 1, else with
a configuration that takes no message or lets a holder not answer 3, else the entry is joining with its group and BUSY
reads 1. A leave or read of an ID that has not joined reports 4; a read copies the entry's configuration with result
0; a leave marks the entry leaving and walks the directory. A join and a leave keep the ID they were started for. An
operation while BUSY is 1 is ignored with an event. -/
def Obligations.AgentOperationsReportResults : Prop :=
  ∀ s : State, s.Serves 0x00088 →
    let c := s.agents.cfg
    let id := s.agents.id
    let res := fun (r : BitVec 3) (t : State) => t.agents = { s.agents with result := r } ∧ Keeps [.apb, .ckp, .agents] s t
    let bad := bits c.toNat 5 0 = 0 ∨ (c.getLsbD 20 = true ∧ (c.getLsbD 13 = true ∨ c.getLsbD 14 = true))
    (s.agents.busy = true → ∀ op, op ∈ [Instr.agentJoin, .agentLeave, .agentRead] →
      exec op s = .next ((s.wakeMgmt.event 0x1501 srcSlice [0x00088]).answer 0 false).settle) ∧
    (s.agents.busy = false →
      (s.active = false → Does .agentJoin s (res 2)) ∧
      (s.active = true → (s.agent id).st ≠ .no → Does .agentJoin s (res 1)) ∧
      (s.active = true → (s.agent id).st = .no → bad → Does .agentJoin s (res 3)) ∧
      (s.active = true → (s.agent id).st = .no → ¬bad → Does .agentJoin s (fun t =>
        (t.agent id).st = .joining ∧ (t.agent id).group = s.joinGroup c ∧ t.agents.busy = true ∧ t.agents.op = 1 ∧
        t.agents.opId = id ∧ (∀ i, i ≠ id → t.agent i = s.agent i) ∧ Keeps [.apb, .ckp, .agents] s t)) ∧
      ((s.agent id).st ≠ .yes → Does .agentLeave s (res 4)) ∧
      ((s.agent id).st = .yes → Does .agentLeave s (fun t =>
        (t.agent id).st = .leaving ∧ t.agents.busy = true ∧ t.agents.op = 2 ∧ t.agents.opId = id ∧
        (∀ i, i ≠ id → t.agent i = s.agent i) ∧
        Keeps [.free, .apb, .agents, .shelves, .home, .pmu, .ckp, .links, .out] s t)) ∧
      ((s.agent id).st = .no → Does .agentRead s (res 4)) ∧
      ((s.agent id).st ≠ .no → Does .agentRead s (fun t =>
        t.agents = { s.agents with cfg := (s.agent id).cfg, result := 0 } ∧ Keeps [.apb, .ckp, .agents] s t)))

/-- FORCE and ACCEPT of FLT_QUENCH_CTRL (R359, R364): FORCE starts a quench with cause 8, joins one that has not
reached step 6, and else waits for the restart, or for the end of a pause of the firmware handover (R370); ACCEPT ends
the Poison answers of an incomplete rollback. -/
def Obligations.QuenchControlWrites : Prop :=
  ∀ s : State, s.Serves 0x070B0 →
    (s.ep.step = 0 → s.fw.pauses = false → Does .fltQuenchForce s (fun t =>
      t.ep.step = 1 ∧ t.ep.stepDone = false ∧ t.ep.cause = 8 ∧ t.ep.isLocal = true ∧
      t.ep.quenches = satAdd s.ep.quenches 1 ∧ t.out.quenchReq = true ∧ t.out.qstepDone = false ∧
      Keeps [.free, .apb, .cone, .ep, .ckp, .out] s t)) ∧
    (s.ep.step ≠ 0 → s.ep.step < 6 → exec .fltQuenchForce s = .next (s.wakeMgmt.answer 0 false).settle) ∧
    ((6 ≤ s.ep.step ∨ (s.ep.step = 0 ∧ s.fw.pauses = true)) → Does .fltQuenchForce s (fun t =>
      t.ep = { s.ep with later := s.ep.later ++ [8] } ∧ Keeps [.apb, .ckp, .ep] s t)) ∧
    Does .fltQuenchAccept s (fun t => t.ep = { s.ep with incomplete := false } ∧ Keeps [.apb, .ckp, .ep] s t)

/-- Ring control (R289, R307, R309). KICK reads the control line of a ring in use, one read serving a poll under way;
one of a ring that is not in use, or that is being enabled, reads nothing. RNG_CFGn written with EN 1 on a disabled ring
takes the other fields, CQ_LOG only where no enabled ring names the completion ring, and checks the ring: with a field out
of range or an area that is misaligned or no place the ring stays disabled with CFG_ERR and RING_CFG_ERR; else EN reads
1, and the enable goes on with reads of the control lines, its own and, for a completion ring not in use, that ring's. On
an enabled ring only EN counts; EN written 0 stops the ring. Clearing CQ_ERR lets the held records be written again. -/
def Obligations.RingWritesControlRing : Prop :=
  ∀ (s : State) (n : Fin 16),
    let g := s.ring n.val
    let answered := fun (t : State) => (.next (t.answer 0 false).settle : Host.Outcome State Fault Refusal)
    let only := fun (t : State) (r : Ring) => t.ring n.val = r ∧ (∀ m, m ≠ n.val → t.ring m = s.ring m)
    let used := g.en = true ∨ s.cqUsed n.val = true
    (s.Serves (0x03020 + 0x40 * n.val) →
      (g.reading = true → g.watched = false → Does (.rngKick n) s (fun t => Keeps [.apb, .ckp] s t)) ∧
      ((g.reading = false ∨ g.watched = true) → (¬used ∨ g.enabling = true) →
        Does (.rngKick n) s (fun t => Keeps [.apb, .ckp] s t)) ∧
      ((g.reading = false ∨ g.watched = true) → used → g.enabling = false → ∃ x,
        only x { g with reading := true, flight := g.flight + 1 } ∧ Keeps [.ckp, .rings] s x ∧
        exec (.rngKick n) s = answered (x.readLine (.ctl n.val) .rdV g.ctl.toNat 0 false))) ∧
    (s.Serves (0x03018 + 0x40 * n.val) → ∀ cfg : Word,
      let named := (List.range 16).any (fun k => (s.ring k).en && s.cqOf k == n.val)
      let r0 : Ring := { g with
        sqLog := cfg.extractLsb' 0 4, cqLog := if named then g.cqLog else cfg.extractLsb' 4 4, cq := cfg.extractLsb' 8 4
        priv := cfg.extractLsb' 12 2, poll := cfg.extractLsb' 14 4, irqSel := cfg.extractLsb' 18 2, errIrq := cfg.getLsbD 20 }
      let m := (cfg.extractLsb' 8 4).toNat
      let q := if m = n.val then r0 else s.ring m
      let inRange := fun (v : BitVec 4) => 6 ≤ v.toNat ∧ v.toNat ≤ 12
      let fine := inRange r0.sqLog ∧ inRange q.cqLog ∧ r0.priv ≠ 3#2 ∧
        s.areaOk g.sqBase.toNat (64 * 2 ^ r0.sqLog.toNat) = true ∧ s.areaOk q.cqBase.toNat (16 * 2 ^ q.cqLog.toNat) = true ∧
        s.areaOk g.ctl.toNat 128 = true ∧ s.areaOk q.ctl.toNat 128 = true
      let fresh := s.cqUsed m = false
      let keeper := fun (r : Ring) =>
        { r with engine := s.kiln.engine, windows := if s.kiln.engineValid then s.peerRanges else [] }
      let begun := keeper { r0 with
        en := true, enabling := true, checkBad := false, checksLeft := if s.cqUsed m then 1 else 2
        watched := s.watchable n.val }
      (g.en = true → Does (.ringEnable n cfg) s (fun t => Keeps [.apb, .ckp] s t)) ∧
      (g.en = false → ¬fine →
        Does (.ringEnable n cfg) s (fun t => (t.ring n.val).en = false ∧ (t.ring n.val).cfgErr = true ∧
          t.evt = (s.event 0x0C03 srcSlice [n.val]).evt ∧ (∀ k, k ≠ n.val → t.ring k = s.ring k) ∧
          Keeps [.apb, .ckp, .evt, .rings] s t)) ∧
      (g.en = false → fine → ¬fresh → ∃ x, only x begun ∧ Keeps [.ckp, .rings] s x ∧
        exec (.ringEnable n cfg) s = answered (x.readLine (.enable n.val false) .rdV g.ctl.toNat 0 false)) ∧
      (g.en = false → fine → fresh → ∃ x, x.ring n.val = begun ∧
        (m ≠ n.val → x.ring m = keeper { s.ring m with watched := s.watchable m }) ∧
        (∀ k, k ≠ n.val → k ≠ m → x.ring k = s.ring k) ∧ Keeps [.ckp, .rings] s x ∧
        exec (.ringEnable n cfg) s = answered ((x.readLine (.enable n.val false) .rdV g.ctl.toNat 0 false).readLine
          (.enable n.val true) .rdV q.ctl.toNat 0 false)) ∧
      (g.en = true → Does (.ringDisable n cfg) s (fun t =>
        only t { g with
          en := false, enabling := false, active := false, stale := g.stale + (if g.enabling then g.checksLeft else 0)
          read := g.read.map (fun p => (none, p.2)) } ∧ Keeps [.apb, .ckp, .rings] s t)) ∧
      (g.en = false → Does (.ringDisable n cfg) s (fun t => only t r0 ∧ Keeps [.apb, .ckp, .rings] s t))) ∧
    (s.Serves (0x0301C + 0x40 * n.val) →
      (g.cqErr = false → Does (.cqErrClear n) s (fun t => only t g ∧ Keeps [.apb, .ckp, .rings] s t)) ∧
      (g.cqErr = true → ∃ x, only x { g with cqErr := false } ∧ Keeps [.ckp, .rings] s x ∧
        exec (.cqErrClear n) s = answered x.pumpRings) ∧
      (g.cqErr = true → (∀ k, (s.ring k).held = [] ∧ (s.ring k).ctlDue = false) → Does (.cqErrClear n) s (fun t =>
        only t { g with cqErr := false } ∧ Keeps [.apb, .ckp, .rings] s t)))

/-! ### Requests, Puts and answers of agents -/

/-- A request of a joined agent, with a place in cache space that its access allows, joins the conflict queue of its
line in arrival order; where the store has no room for it, it stays in its channel (R140, R154, R156, R313). A tied
request came in in the cycle of the one before it, and stands in the queue in the order of R155. The frame: nothing is
taken out of a queue, no held request moves, and only the agent's port is learnt (log 16). -/
def Obligations.RequestsJoinTheirQueue : Prop :=
  ∀ (s : State) (port : Port) (h : Hdr) (data : Line) (mask : Mask) (plen : Nat) (tied : Bool) (c : Instr) (code i : Nat)
      (g : Region),
    ((c = .rds port h tied ∧ code = mRdS) ∨ (c = .rdx port h tied ∧ code = mRdX) ∨ (c = .upg port h tied ∧ code = mUpg) ∨
      (c = .rdv port h tied ∧ code = mRdV) ∨ (c = .rdnc port h tied ∧ code = mRdNC) ∨
      (c = .wrl port h data tied ∧ code = mWrL) ∨ (c = .wrp port h mask data tied ∧ code = mWrP) ∨
      (c = .atom port h plen data tied ∧ code = mAtom)) →
    let op := opOfCode code
    let line := Hdr.line h
    let sh := s.homeShelf line
    let id := Hdr.src h
    toHomeOk h code = true → s.portDown port = false → s.quenching = false → (s.agent id).st = .yes →
    s.place (lineAddr line) = .cache i g → accessOk op spCache (Region.access g) = true →
    (let r := mkReq op (.agent id port) line 0
    s.mustWait r = false ∧ s.lostEpoch r = false ∧ s.breaks157 r = false) →
    s.role i g ≠ .fenced → s.roleAt (lineAddr line) ≠ .fenced →
    (op.isWrite = true → s.roleAt (lineAddr line) ∉ [Role.forward, .wait, .soloWait]) →
    let behind := s.home.vc.any (fun q => (match q.who with
      | .agent _ p => p == port
      | _ => false) && s.homeShelf q.line == sh)
    let room := !behind && s.storeRoom sh (Hdr.cone h) && decide (s.records sh < 256)
    Does c s (fun t =>
      t.agent id = { s.agent id with port := some port } ∧ (∀ a, a ≠ id → t.agent a = s.agent a) ∧
      t.home.txns = s.home.txns ∧ t.home.held = s.home.held ∧ t.home.bridge = s.home.bridge ∧
      (∃ r : Req, r.op = op ∧ r.who = .agent id port ∧ r.line = line ∧ r.txn = Hdr.txn h ∧ r.cone = Hdr.cone h ∧
        r.scope = Hdr.scope h ∧ (op.isWrite = true → r.data = data) ∧ (code = mWrL → r.mask = fullMask) ∧
        (code = mWrP → r.mask = mask) ∧ (code = mAtom → r.plen = plen ∧ r.aop = Hdr.aop h) ∧
        (room = true → t.home.vc = s.home.vc ∧ r ∈ t.home.cq ∧ (tied = false → t.home.cq = s.home.cq ++ [r])) ∧
        (room = false → t.home.cq = s.home.cq ∧ t.home.vc = s.home.vc ++ [r])) ∧
      Keeps [.free, .agents, .shelves, .home, .cone, .pmu, .flt, .life, .ckp, .links, .out] s t)

/-- Requests and Puts that are not served. One whose header breaks R137 is a protocol error, which records the header
and triggers a quench with cause 2 (R149). A request of an agent that has not joined gets Poison with the event
0x0302, one that is leaving Poison alone, and one without a place or without access Poison with ADDR_MISS (R71, R78,
R150). In steps 1 to 3 of a quench a joined agent of the slice's chip gets Poison for a request, and a Put a stale answer
(R363). None of them enters a queue. A port that is down takes no message (R336). -/
def Obligations.UnservedRequestsGetPoison : Prop :=
  ∀ (s : State) (port : Port) (h : Hdr) (data : Line) (mask : Mask) (plen : Nat) (tied : Bool),
    let id := Hdr.src h
    let line := Hdr.line h
    let frame := fun (t : State) => t.home = { s.home with bridge := t.home.bridge } ∧
      Keeps [.free, .evt, .agents, .shelves, .home, .cone, .pmu, .flt, .ep, .life, .ckp, .links, .out] s t
    let poison := { msgTo (some port) id line (Hdr.txn h) (Hdr.cone h) mPoison with born := some (s.half port.half).fclk }
    let down := s.portDown port = true
    let error := fun (t : State) => t.flt.peHdr = h ∧
      (s.ep.step = 0 → s.fw.pauses = false → t.ep.step = 1 ∧ t.ep.cause = 2) ∧ frame t
    let missed := fun (op : ReqOp) => match s.place (lineAddr line) with
      | .nowhere => true
      | .tally _ => op == .atom || op == .upg
      | .cache _ g => !accessOk op spCache (Region.access g)
      | .saggar _ g => !accessOk op spSaggar (Region.access g)
      | .kiln _ g => !accessOk op spKiln (Region.access g)
    (∀ p ∈ [(Instr.rds port h tied, mRdS), (.rdx port h tied, mRdX), (.upg port h tied, mUpg), (.rdv port h tied, mRdV),
        (.rdnc port h tied, mRdNC), (.wrl port h data tied, mWrL), (.wrp port h mask data tied, mWrP),
        (.atom port h plen data tied, mAtom)],
      (down → exec p.1 s = .next s.settle) ∧
      (¬down → toHomeOk h p.2 = false → s.quenching = false → Does p.1 s error) ∧
      (¬down → toHomeOk h p.2 = true → s.halting = true → (s.agent id).st = .yes → (s.agent id).remote = false →
        Does p.1 s (fun t => s.Sends t poison ∧ t.evt = s.evt ∧ frame t)) ∧
      (¬down → toHomeOk h p.2 = true → (s.agent id).st ≠ .yes → (s.agent id).st ≠ .leaving →
        Does p.1 s (fun t => s.Sends t poison ∧ t.evt = (s.event 0x0302 srcSlice [id.toNat]).evt ∧ frame t)) ∧
      (¬down → toHomeOk h p.2 = true → (s.agent id).st = .leaving →
        Does p.1 s (fun t => s.Sends t poison ∧ t.evt = s.evt ∧ frame t)) ∧
      (¬down → toHomeOk h p.2 = true → s.halting = false → (s.agent id).st = .yes → missed (opOfCode p.2) = true →
        s.glazeHolds line = false → Does p.1 s (fun t => s.Sends t poison ∧
          t.evt = (s.event 0x0301 srcSlice (addrWords (lineAddr line) ++ [id.toNat])).evt ∧ frame t))) ∧
    (∀ p ∈ [(Instr.puts port h, mPutS), (.pute port h, mPutE), (.putm port h data, mPutM), (.puto port h data, mPutO)],
      (down → exec p.1 s = .next s.settle) ∧
      (¬down → toHomeOk h p.2 = false → s.quenching = false → Does p.1 s error) ∧
      (¬down → toHomeOk h p.2 = true → s.halting = true → Does p.1 s (fun t =>
        s.Sends t (msgTo (some port) id line (Hdr.txn h) (Hdr.cone h) mWbAckStale) ∧ frame t)))

/-- Accesses outside cache space are answered at once, with data that no directory entry records (R74, R78, R81, R82): a
read of a tally line with its 16 values, of a kiln line and a saggar line with the bank's bytes, of a saggar line whose
POISON bit is set with Poison. A WrL to a saggar line writes its 128 bytes, a WrP the enabled ones, an Atom what the AUU
makes of the line, which ends with no POISON bit, and each is acknowledged (R175, R217). -/
def Obligations.UncachedAccessesAnswerAtOnce : Prop :=
  ∀ (s : State) (port : Port) (h : Hdr) (d : Line) (mask : Mask) (plen : Nat) (tied : Bool) (i : Nat) (g : Region),
    let id := Hdr.src h
    let line := Hdr.line h
    let a := lineAddr line
    let off := a - s.window
    let sh := off / 4194304 / 16
    let last := fun (code : Nat) =>
      { msgTo (some port) id line (Hdr.txn h) (Hdr.cone h) code with born := some (s.half port.half).fclk }
    let sends := fun (t : State) (code : Nat) (f : Msg → Msg) =>
      s.Sends t (f (last code)) ∧ t.home = { s.home with bridge := t.home.bridge } ∧
      Keeps [.free, .agents, .shelves, .home, .cone, .pmu, .flt, .life, .ckp, .links, .out] s t
    let withData := fun (l : Line) (m : Msg) => { m with nocache := true, data := some l }
    let clear := fun (op : ReqOp) => s.mustWait (mkReq op (.agent id port) line 0) = false ∧
      s.lostEpoch (mkReq op (.agent id port) line 0) = false
    let stored := fun (op : ReqOp) => clear op ∧ s.place a = .saggar i g ∧ accessOk op spSaggar (Region.access g) = true ∧
      s.roleAt a = .single ∧ (s.shelf sh).retired.getLsbD (off / 4194304 % 16) = false ∧ (s.agent id).remote = false
    let acked := fun (t : State) (arr : Arrays) (res : Option (BitVec 128)) =>
      s.Sends t { last mAck with result := res } ∧ t.arr = arr ∧ t.home = { s.home with bridge := t.home.bridge } ∧
      Keeps [.free, .agents, .shelves, .arr, .home, .rings, .cone, .pmu, .flt, .life, .ckp, .links, .out] s t
    s.portDown port = false → s.quenching = false → (s.agent id).st = .yes → s.role i g ≠ .fenced → s.roleAt a ≠ .fenced →
    (∀ p ∈ [(Instr.rds port h tied, mRdS), (.rdx port h tied, mRdX), (.rdv port h tied, mRdV), (.rdnc port h tied, mRdNC)],
      toHomeOk h p.2 = true → clear (opOfCode p.2) →
      (∀ n, s.place a = .tally n → Does p.1 s (fun t => sends t mDataS (withData (s.tallyLine a)))) ∧
      (s.place a = .kiln i g → accessOk (opOfCode p.2) spKiln (Region.access g) = true →
        Does p.1 s (fun t => sends t mDataS (withData (s.arrLine off)))) ∧
      (s.place a = .saggar i g → accessOk (opOfCode p.2) spSaggar (Region.access g) = true →
        (s.shelf sh).retired.getLsbD (off / 4194304 % 16) = false →
        (s.poisoned (off / 128) = false → Does p.1 s (fun t => sends t mDataS (withData (s.arrLine off)))) ∧
        (s.poisoned (off / 128) = true → Does p.1 s (fun t => sends t mPoison (fun m => m))))) ∧
    (toHomeOk h mWrL = true → stored .wrL → Does (.wrl port h d tied) s (fun t =>
      acked t ((s.setArr off d fullMask).setPoison (off / 128) false).arr none)) ∧
    (toHomeOk h mWrP = true → stored .wrP → (s.poisoned (off / 128) = false ∨ mask = fullMask) →
      Does (.wrp port h mask d tied) s (fun t =>
        acked t ((s.setArr off d mask).setPoison (off / 128) false).arr none)) ∧
    (toHomeOk h mAtom = true → stored .atom → s.poisoned (off / 128) = false → atomCause (Hdr.aop h) plen d = none →
      (s.shelf sh).group.isSome = true → Does (.atom port h plen d tied) s (fun t => ∃ k, k < 2 ∧
        let u := auuAtom (s.auuStart sh (s.arrLine off)) k (Hdr.aop h) d
        acked t (s.setArr off u.1.line fullMask).arr u.2))

/-- Puts (R141, R164). On a line with no open transaction a Put that fits its entry is acknowledged with WbAck and
takes its sender out of the entry: PutS out of the sharers, PutE, PutM and PutO as the owner; PutS and PutE leave the
arrays as they are, and PutM and PutO write their 128 bytes to the home. A Put that does not fit is answered as stale,
changing neither directory nor arrays. While the line's transaction takes the sender's copy the Put is stale; while it
has sent the sender FwdS the Put waits in the deferred slot; and one from the requester itself, or one that nothing
explains, is a protocol error. -/
def Obligations.PutsLeaveTheDirectory : Prop :=
  ∀ (s : State) (port : Port) (h : Hdr) (data : Line) (c : Instr) (code i : Nat) (g : Region),
    ((c = .puts port h ∧ code = mPutS ∧ data = 0) ∨ (c = .pute port h ∧ code = mPutE ∧ data = 0) ∨
      (c = .putm port h data ∧ code = mPutM) ∨ (c = .puto port h data ∧ code = mPutO)) →
    let line := Hdr.line h
    let sh := s.homeShelf line
    let id := Hdr.src h
    let e := s.entryOf line
    let dirty := code = mPutM ∨ code = mPutO
    let ans := fun (code : Nat) => msgTo (some port) id line (Hdr.txn h) (Hdr.cone h) code
    let stale := fun (t : State) => s.Sends t (ans mWbAckStale) ∧ t.home = { s.home with bridge := t.home.bridge } ∧
      Keeps [.free, .home, .cone, .pmu, .flt, .life, .ckp, .links, .out] s t
    let error := fun (t : State) => (s.ep.step = 0 → s.fw.pauses = false → t.ep.step = 1 ∧ t.ep.cause = 2) ∧
      Keeps [.free, .cone, .pmu, .flt, .ep, .life, .ckp, .links, .out] s t
    toHomeOk h code = true → s.portDown port = false → s.quenching = false → s.place (lineAddr line) = .cache i g →
    s.shelfUp sh = true →
    (s.txnOf line = none →
      (s.putCase e code id = .fits → Does c s (fun t =>
        s.Sends t (ans mWbAck) ∧
        (∀ k, s.wayOf sh line = some k →
          let e' := (if code = mPutS then (if e.coarse then e else e.dropAgent id) else e.dropOwner).settle
          t.way k = if e'.hstate = .free ∧ e'.t = false then DirEntry.empty else e') ∧
        (∀ k, s.wayOf sh line ≠ some k → t.way k = s.way k) ∧
        (¬dirty → t.arr = s.arr ∧ t.back = s.back) ∧
        (dirty → ∃ x, Keeps [.free, .cone, .pmu, .flt, .life, .ckp, .links, .out] s x ∧
          t.arr = (x.writeBackHome line data srcThrough .nobody).arr ∧
          t.back = (x.writeBackHome line data srcThrough .nobody).back) ∧
        Keeps [.free, .evt, .shelves, .arr, .dir, .home, .back, .cone, .pmu, .flt, .ep, .life, .ckp, .links, .out] s t)) ∧
      (s.putCase e code id = .stale → Does c s stale) ∧
      (s.putCase e code id = .error → Does c s error)) ∧
    (∀ x, s.txnOf line = some x →
      (x.req.agentId = some id → Does c s error) ∧
      (x.req.agentId ≠ some id → x.took id = true → Does c s stale) ∧
      (x.req.agentId ≠ some id → x.took id = false → x.asked id = true → Does c s (fun t =>
        t.txnOf line = some { x with deferred := some ⟨BitVec.ofNat 6 code, id, port, Hdr.txn h, Hdr.cone h, line, data⟩ } ∧
        t.dir = s.dir ∧ t.arr = s.arr ∧ Keeps [.free, .home, .cone, .pmu, .flt, .life, .ckp, .links, .out] s t)))

/-- Answers (R139, R140, R164). An answer that the line's transaction waits for clears its flag, from the agent asked
alone, and lets the transaction go on: FwdAck F, the last InvAck I, DataM and the InvAck of a recalled owner R, DataS
B, Cmp C; an earlier InvAck counts down. DataM of a Recall is written home at once unless the transaction's own write
follows it. -/
def Obligations.AnswersClearTheirFlags : Prop :=
  ∀ (s : State) (h : Hdr) (data : Line) (x : Txn),
    let line := Hdr.line h
    let id := Hdr.src h
    let goesOn := fun (c : Instr) (y : Txn → Txn) => ∃ s0,
      Keeps [.free, .cone, .pmu, .flt, .life, .ckp, .links, .out] s s0 ∧ exec c s = .next ((s0.modTxn line y).advance line).settle
    s.halting = false → (∀ p, (s.agent id).port = some p → s.portDown p = false) → s.shelfUp (s.homeShelf line) = true →
    s.txnOf line = some x →
    (rspOk h mFwdAck = true → x.has fF = true → x.fwd = some id → goesOn (.fwdack h) (fun y =>
      { y with tstate := y.tstate &&& ~~~fF, dirty := Hdr.dirty h && y.plan == .downgrade })) ∧
    (rspOk h mInvAck = true → x.has fR = true → x.recallTo = some id → goesOn (.invack h) (fun y =>
      { y with tstate := y.tstate &&& ~~~fR })) ∧
    (rspOk h mInvAck = true → x.has fI = true → ¬(x.has fR = true ∧ x.recallTo = some id) →
      (x.coarse = true ∨ id ∈ x.invTo) → goesOn (.invack h) (fun y =>
        { y with invLeft := y.invLeft - 1, invDone := y.invDone ++ [id]
                 tstate := if y.invLeft ≤ 1 then y.tstate &&& ~~~fI else y.tstate })) ∧
    (rspOk h mDataM = true → x.has fR = true → x.recallTo = some id →
      let y := fun (y : Txn) => { y with tstate := y.tstate &&& ~~~fR, dirty := true, fetched := some data }
      (x.work = .perform → goesOn (.datam h data) y) ∧
      (x.work ≠ .perform → ∃ s0, Keeps [.free, .cone, .pmu, .flt, .life, .ckp, .links, .out] s s0 ∧
        exec (.datam h data) s = .next (((s0.modTxn line y).writeBackHome line data srcRecall x.req.waiter).advance line).settle)) ∧
    (rspOk h mDataS = true → Hdr.reqHome h = true → x.has fB = true → x.fwd = some id → x.req.agentId = none →
      goesOn (.datas h data) (fun y => { y with tstate := y.tstate &&& ~~~fB, fetched := some data })) ∧
    (rspOk h mCmp = true → x.has fC = true → x.sent = true → x.req.agentId = some id → x.req.txn = Hdr.txn h →
      goesOn (.cmp h) (fun y => { y with tstate := y.tstate &&& ~~~fC }))

/-- An answer that nothing waits for is a protocol error (R149, R164); in steps 1 to 3 of a quench answers are
discarded (R363). A dead agent is noted for step 6 of the quench that it triggers with cause 1, where the line's
transaction waits for it, and changes nothing else (R147, R359); a message with an unknown code or a broken header, or
one that no home takes, is a protocol error (R138, R149). -/
def Obligations.ProtocolErrorsQuench : Prop :=
 (∀ (s : State) (h : Hdr) (data : Line),
    ∀ p ∈ [(Instr.fwdack h, mFwdAck), (.invack h, mInvAck), (.datam h data, mDataM), (.datas h data, mDataS), (.cmp h, mCmp)],
      (s.quenching = false → (∀ p, (s.agent (Hdr.src h)).port = some p → s.portDown p = false) →
        (rspOk h p.2 = false ∨ (s.txnOf (Hdr.line h) = none ∧ s.shelfUp (s.homeShelf (Hdr.line h)) = true)) → Does p.1 s (fun t =>
        t.flt.peHdr = h ∧ (s.fw.pauses = false → t.ep.step = 1 ∧ t.ep.cause = 2) ∧
        Keeps [.free, .cone, .pmu, .flt, .ep, .life, .ckp, .links, .out] s t)) ∧
      (s.halting = true → Does p.1 s (fun t => t.ep = s.ep ∧ t.home = s.home ∧ t.dir = s.dir ∧ t.arr = s.arr ∧
        Keeps [.free, .cone, .pmu, .flt, .life, .ckp, .links, .out] s t))) ∧
 (∀ (s : State) (line : LineIx) (id : AgentId) (port : Port) (h : Hdr) (x : Txn),
    (s.txnOf line = some x → s.ckp.coolActive = false → s.ep.step = 0 → s.fw.pauses = false →
      ((x.has fF = true ∧ x.fwd = some id) ∨ (x.has fI = true ∧ id ∈ x.invTo ∧ id ∉ x.invDone) ∨ (x.has fR = true ∧ x.recallTo = some id)) →
      Does (.deadAgentTimeout line id) s (fun t => t.ep.step = 1 ∧ t.ep.cause = 1 ∧ id ∈ t.ep.dead ∧ t.out.quenchReq = true ∧
        Keeps [.free, .cone, .ep, .ckp, .out] s t)) ∧
    (s.portDown port = false → s.ep.step = 0 → s.fw.pauses = false → (headerKeeps h = false ∨ Hdr.msg h ∈ neverToHome) →
      Does (.invalidUcfMessage port h) s (fun t => t.ep.step = 1 ∧ t.ep.cause = 2 ∧ t.flt.peHdr = h ∧
        Keeps [.free, .cone, .pmu, .flt, .ep, .life, .ckp, .links, .out] s t)))

/-- The Cmp that ends an ownership request leaves its sender the one owner in the directory, closes the transaction, and,
where no AUU line buffer holds the line, touches no other entry and no array (R140, R161). -/
def Obligations.CmpMakesRequesterOwner : Prop :=
  ∀ (s : State) (h : Hdr) (x : Txn) (p : Port) (k : Nat),
    let line := Hdr.line h
    s.halting = false → (∀ q, (s.agent (Hdr.src h)).port = some q → s.portDown q = false) →
    s.shelfUp (s.homeShelf line) = true → s.bufferAt (s.homeShelf line) line = none →
    rspOk h mCmp = true → s.txnOf line = some x → (s.home.txns.filter (fun y => y.req.line == line)).length = 1 →
    x.tstate = fC → x.sent = true → x.work = .none → x.mack = none → x.deferred = none → x.victimFor = none →
    x.plan = .owner → x.req.who = .agent (Hdr.src h) p → x.req.txn = Hdr.txn h →
    s.wayOf (s.homeShelf line) line = some k → Does (.cmp h) s (fun t =>
      t.way k = { (s.way k).toOwner (Hdr.src h) with t := false, tstate := 0 } ∧ (∀ j, j ≠ k → t.way j = s.way j) ∧
      (∀ y ∈ t.home.txns, y.req.line ≠ line) ∧
      Keeps [.free, .shelves, .dir, .home, .cone, .pmu, .flt, .life, .ckp, .links, .out] s t)

/-- Admission and the lookup (R154, R156, R160, R202 to R206). The head of a line's queue that nothing bars leaves the
queue and opens a record; with its lookup done it is served; with the lookup pending it is sent greenware where the
rules allow that, and else waits. The lookup then serves a waiting request, fires greenware that the entry confirms,
or cracks it and serves the request; 52 cycles without it crack the greenware. A directory word found corrupt is a
lasting fault of its way, which triggers a quench with cause 4 (R329, R331). A head that something bars stays. -/
def Obligations.AdmissionAndLookup : Prop :=
  ∀ (s : State) (line : LineIx),
    (∀ pend, s.admissible line = none → exec (.admitReq line pend) s = .next s.settle) ∧
    (∀ r i g, s.admissible line = some r → s.regionOf line = some (i, g) →
      (r.who.isMirror = true ∨ s.roleAt (lineAddr line) ∈ [Role.single, .writer, .solo]) →
      (s.openRecord r).home.txns = s.home.txns ++ [Txn.open r] ∧
      (s.openRecord r).home.cq.length + 1 = s.home.cq.length ∧
      (∀ k, (s.openRecord r).way k =
        if s.wayOf (s.homeShelf line) line = some k then { s.way k with t := true, tstate := 0 } else s.way k) ∧
      exec (.admitReq line false) s = .next ((s.openRecord r).start line).settle ∧
      ((s.openRecord r).refuses r g = none → (s.openRecord r).greenOk r g = true →
        exec (.admitReq line true) s = .next (((s.openRecord r).sendGreen r).syncEntry line).settle) ∧
      ((s.openRecord r).refuses r g ≠ none ∨ (s.openRecord r).greenOk r g = false → exec (.admitReq line true) s =
        .next ((s.openRecord r).modTxn line (fun t => { t with work := .lookup })).settle)) ∧
    (∀ x, s.txnOf line = some x → x.work = .lookup →
      let crack := (s.sendCrack (s.homeShelf line) x.req).modTxn line
        (fun y => { y with green := .cracked, tstate := 0, fetched := none })
      (x.green ≠ .sent → exec (.lookupComplete line none) s = .next (s.start line).settle) ∧
      (x.green = .sent → s.fires x.req (s.entryOf line) = none →
        exec (.lookupComplete line none) s = .next (crack.start line).settle ∧
        exec (.greenwareDeadline line) s = .next (crack.syncEntry line).settle) ∧
      (x.green = .sent → ∀ p, s.fires x.req (s.entryOf line) = some p →
        exec (.greenwareDeadline line) s = .next (crack.syncEntry line).settle ∧ ∃ s0,
          Keeps [.free, .shelves, .dir, .home, .cone, .pmu, .ckp, .links, .out] s s0 ∧
          s0.home = { s.home with bridge := s0.home.bridge } ∧
          (∀ id q, x.req.who = .agent id q →
            s.Sends s0 { msgTo (some q) id x.req.line x.req.txn x.req.cone mFire with born := some x.req.born }) ∧
          exec (.lookupComplete line none) s = .next ((s0.modTxn line (fun y =>
            { y with green := .fired, work := .none, plan := p, sent := true })).advance line).settle) ∧
      (∀ w, let unit := FaultUnit.dirWay (Fin.ofNat _ (s.homeShelf line)) (Fin.ofNat _ (dirSet line.toNat)) w
        exec (.lookupComplete line (some w)) s = .next (s.lastingFault unit).settle ∧
        (s.placeOf unit ≠ none → s.ep.step = 0 → s.fw.pauses = false →
          (s.lastingFault unit).ep.step = 1 ∧ (s.lastingFault unit).ep.cause = 4)))

/-! ### Backing ports and links -/

/-- The controller's answers (R105, R107, R357, R442). READ_DATA and WRITE_ACK free the slot that they name: exactly
the request that was sent in it leaves the port, and the read's 128 bytes are counted. A miss gives its line to every
use of its entry; a write of data lets its waiter go on; the old line, the log writes and the replay go to their jobs.
The answer takes the next sequence number, and ends a pending NAK of the port (R441). An answer to a slot that nothing was sent in changes nothing (log 3). -/
def Obligations.BackingAnswersFreeSlots : Prop :=
  ∀ (s : State) (bp : Fin 8) (tag : Fin 64) (data : Line) (ue : Bool),
    let is := fun (w : Bool) (r : BReq) => r.bp == bp.val && r.slot == some tag.val && r.sent && r.write == w
    let taken := fun (w : Bool) (t : State) => t.back = { s.back with reqs := dropFirst (is w) s.back.reqs } ∧
      t.backLink bp.val = { s.backLink bp.val with rxSeq := (s.backLink bp.val).rxSeq + 1, nak := none, discarding := false } ∧
      (∀ k, k ≠ bp.val → t.backLink k = s.backLink k) ∧ t.links = { s.links with back := t.links.back } ∧
      ((s.backLink bp.val).discarding = false → t.flt = s.flt ∧ t.life = s.life) ∧
      Keeps [.free, .back, .pmu, .flt, .life, .links] s t
    (∀ r, s.back.reqs.find? (is false) = some r → ∃ t, taken false t ∧
      t.pmu.portIn = (s.portInBytes (32 + bp.val) 128).pmu.portIn ∧
      exec (.backingReadData bp tag data ue) s = .next (match r.why with
        | .miss bank => t.missFilled bank (BitVec.ofNat 45 r.addr) data ue
        | .undoOld id => t.jobLog id data ue
        | .replayHdr n => t.replayHeader n data ue
        | .replayData n => t.replayEntry n data ue
        | _ => t).settle) ∧
    (∀ r, s.back.reqs.find? (is true) = some r → ∃ t, taken true t ∧ t.pmu.portIn = s.pmu.portIn ∧
      exec (.backingWriteAck bp tag) s = .next (match r.why with
        | .data w _ => t.written w
        | .undoNew w _ => t.written w
        | .undoLog id => t.jobAck id
        | .replayWrite n => t.replayAck n
        | _ => t).settle) ∧
    (s.back.reqs.find? (is false) = none → exec (.backingReadData bp tag data ue) s = .next s) ∧
    (s.back.reqs.find? (is true) = none → exec (.backingWriteAck bp tag) s = .next s)

/-- Issue slots (R314 to R318, R442). A grant goes to a waiting request of the port that may be issued and that no
other such request precedes (highest effective cone, writes before reads, oldest); it takes the lowest free slot, and
is sent at once where the port is ready for its kind, else when the port becomes ready. With no free slot, no such
request or a sleeping half nothing is issued. -/
def Obligations.BackingSlotsAreGranted : Prop :=
  ∀ (s : State) (bp : Fin 8) (rd wr : Bool),
    let taken := fun (k : Nat) => s.back.reqs.any (fun q => q.bp == bp.val && q.slot == some k)
    let some' := s.back.reqs.any (s.grantable bp.val)
    let free := (List.range 64).any (fun k => !taken k)
    ((s.half (portHalf bp.val)).st = .awake → some' = true → free = true → Does (.backingSlotGrant bp rd wr) s (fun t =>
      ∃ r k, r ∈ s.back.reqs ∧ s.grantable bp.val r = true ∧
        (∀ q ∈ s.back.reqs, s.grantable bp.val q = true → s.grantKey r ≤ s.grantKey q) ∧
        k < 64 ∧ taken k = false ∧ (∀ j, j < k → taken j = true) ∧
        (let give := fun (q : BReq) => { q with slot := some k, sent := q.sent || (if r.write then wr else rd) }
        t.back = { s.back with reqs := modFirst (· == r) give s.back.reqs }) ∧
        (∀ j, j ≠ bp.val → t.backLink j = s.backLink j) ∧ Keeps [.back, .pmu, .links] s t)) ∧
    (((s.half (portHalf bp.val)).st ≠ .awake ∨ some' = false ∨ free = false) →
      exec (.backingSlotGrant bp rd wr) s = .next s.settle) ∧
    (∀ (w : Bool) (r : BReq), s.back.reqs.find? (fun q => q.bp == bp.val && q.slot.isSome && !q.sent && q.write == w) = some r →
      Does (.backingPortReady bp w) s (fun t =>
        t.back = { s.back with reqs := modFirst (· == r) (fun q => { q with sent := true }) s.back.reqs } ∧
        (t.backLink bp.val).txSeq = (s.backLink bp.val).txSeq + 1 ∧ (∀ j, j ≠ bp.val → t.backLink j = s.backLink j) ∧
        Keeps [.back, .pmu, .links] s t))

/-- Occupancy reports (R317, R319). A backing port without a report for 256 FCLK cycles treats its occupancy as 15, sets
its bit in CON_BP_STALE and raises the event BACKING_FB_LOST; the next report clears the bit, and the port judges by
it. No other port's field or bit changes. -/
def Obligations.OccupancyReportsAndSilence : Prop :=
  ∀ (s : State) (bp : Fin 8) (occ : BitVec 4),
    (∃ t, exec (.backingOccReport bp occ) s = .next t ∧
      (∀ k, k < 8 → nibble t.cone.occ k = if k = bp.val then occ.toNat else nibble s.cone.occ k) ∧
      (∀ k, k < 8 → t.cone.stale.getLsbD k = (decide (k ≠ bp.val) && s.cone.stale.getLsbD k)) ∧
      t.occOf bp.val = occ.toNat ∧ t.cone = { s.cone with occ := t.cone.occ, stale := t.cone.stale } ∧ Keeps [.cone] s t) ∧
    (∃ t, exec (.backingFbLost bp) s = .next t ∧ t.occOf bp.val = 15 ∧ t.evt = (s.event 0x0D01 srcSlice [bp.val]).evt ∧
      (∀ k, k < 8 → t.cone.stale.getLsbD k = (decide (k = bp.val) || s.cone.stale.getLsbD k)) ∧
      t.cone = { s.cone with stale := t.cone.stale } ∧ Keeps [.cone, .evt] s t)

/-- Credits and replay of a link (R144, R328, R329, R440, R441). A returned credit is kept, or lets the oldest message
of its channel that waits for one leave; a replay request sends the messages from the named beat on again, counted
once, and a backing port's its requests, which changes nothing else; a beat that fails its check is named by NAK and
discarded with every later one, and one that fails when resent is a lasting fault of the port. The other links stay. -/
def Obligations.LinksKeepTheirMessages : Prop :=
  ∀ (s : State) (link : LinkId) (bp : Fin 8) (vc : BitVec 2) (seq : BitVec 7),
    let p := LinkId.port link
    let l := s.link p
    let b := s.backLink bp.val
    let others := fun (t : State) => (∀ q, q ≠ p → t.link q = s.link q) ∧ (∀ k, t.backLink k = s.backLink k) ∧
      ∀ k, t.far k = s.far k
    let backs := fun (t : State) => (∀ q, t.link q = s.link q) ∧ (∀ k, k ≠ bp.val → t.backLink k = s.backLink k) ∧
      (∀ k, t.far k = s.far k) ∧ Keeps [.links] s t
    (l.waiting.filter (fun m => classOf m.code.toNat == vc.toNat) = [] → ∃ t, exec (.creditReturn link vc) s = .next t ∧
      (t.link p).credit vc.toNat = l.credit vc.toNat + 1 ∧ (∀ v, v ≠ vc.toNat → (t.link p).credit v = l.credit v) ∧
      (t.link p).waiting = l.waiting ∧ others t ∧ Keeps [.links] s t) ∧
    (∀ m rest, l.waiting.filter (fun m => classOf m.code.toNat == vc.toNat) = m :: rest → l.credit vc.toNat = 0 →
      s.portDown p = false → ∃ t, exec (.creditReturn link vc) s = .next t ∧ t.out.msgs = s.out.msgs ++ [m] ∧
        (t.link p).waiting = dropFirst (· == m) l.waiting ∧ (t.link p).credit vc.toNat = 0 ∧ others t ∧
        Keeps [.cone, .pmu, .links, .out] s t) ∧
    (∃ t, exec (.linkReplayRequest (.backing bp) seq) s = .next t ∧ t.backLink bp.val = { b with replays := b.replays + 1 } ∧
      backs t) ∧
    (∃ t, t.backLink bp.val = { b with nak := some b.rxSeq, discarding := true } ∧ backs t ∧
      exec (.linkBeatError (.backing bp)) s = .next (if b.discarding then t.lastingFault (.backingPort bp) else t).settle) ∧
    (∃ t, exec (.linkReplayRequest (.link link) seq) s = .next t ∧
      t.out = { s.out with msgs := s.out.msgs ++ dedup ((l.window.dropWhile (fun b => b.1 != seq)).map Prod.snd) } ∧
      t.link p = { l with replays := l.replays + 1 } ∧ others t ∧ Keeps [.links, .out] s t) ∧
    (∃ t, t.link p = { l with nak := some l.rxSeq, discarding := true } ∧ others t ∧ Keeps [.links] s t ∧
      exec (.linkBeatError (.link link)) s = .next (if l.discarding then t.lastingFault (match link with
        | .agent n => .agentPort n
        | .near n => .nearPort n) else t).settle)

/-- Far ports (R328, R336, R372, R444). A flit whose CRC does not fit its header and payload, or that follows a gap, is
asked for again; one whose replay fails its CRC is a lasting fault of one of the port's lanes; the partner's request
has the flits not acknowledged sent again; an acknowledgement drops the flits up to the one named, after which frames
held for a new assignment may go. Lanes in training report up; when training is done the port runs on the lowest 16
passing lanes, or with fewer on the lowest 8, or is down and trains anew on all 18 after a millisecond. -/
def Obligations.FarPortsReplayAndTrain : Prop :=
  ∀ (s : State) (port : Fin 2) (seq : Nat) (header : BitVec 96) (payload : BitVec 8192) (crc : BitVec 32) (lanes : BitVec 18),
    let n := port.val
    let l := s.far n
    let other := fun (t : State) => ∀ k, k ≠ n → t.far k = s.far k
    let asked := fun (c : Instr) => Does c s (fun t =>
      t.far n = { l with replayFrom := some seq } ∧ other t ∧ Keeps [.links] s t)
    (flitCrc header payload = crc → exec (.farFlitCrcFail port (.crc seq header payload crc)) s = .next s.settle) ∧
    (l.replayFrom = none → (flitCrc header payload ≠ crc → asked (.farFlitCrcFail port (.crc seq header payload crc))) ∧
      asked (.farFlitCrcFail port (.gap seq))) ∧
    (flitCrc header payload ≠ crc → l.replayFrom = some seq → l.active ≠ [] → ∃ t k, k ∈ l.active ∧
      t.far n = { l with replayFrom := none } ∧ other t ∧ Keeps [.free, .links] s t ∧
      exec (.farFlitCrcFail port (.crc seq header payload crc)) s = .next (t.lastingFault (.farLane port (Fin.ofNat _ k))).settle) ∧
    Does (.farFlitCrcFail port (.asked seq)) s (fun t =>
      t.out = { s.out with mirror := s.out.mirror ++
        (l.buffer.filter (fun p => decide (seq ≤ p.1) && decide (p.1 < l.unsent))).map (fun p => (n, p.2)) } ∧
      Keeps [.out] s t) ∧
    (∃ t, t.far n = { l with buffer := l.buffer.filter (fun f => decide (seq < f.1)) } ∧ other t ∧ Keeps [.links] s t ∧
      exec (.farFlitAck port seq) s = .next (t.farPump n).mirrorFlush.settle) ∧
    (l.train ≠ 0 → ∃ t, exec (.farLaneUp port lanes) s = .next t ∧
      t.far n = { l with lanes := (l.lanes ||| lanes) &&& l.train } ∧ other t ∧ Keeps [.links] s t) ∧
    (l.train ≠ 0 → Does (.farTrainDone port lanes) s (fun t =>
      let ok := onesOf (lanes &&& l.lanes)
      (t.far n).train = 0 ∧ (t.far n).active = (if 16 ≤ ok.length then ok.take 16 else if 8 ≤ ok.length then ok.take 8 else []) ∧
      (t.far n).up = decide (8 ≤ ok.length) ∧ (t.far n).retry = decide (ok.length < 8) ∧
      (∀ k, k ≠ n → (t.far k).active = (s.far k).active ∧ (t.far k).up = (s.far k).up) ∧
      Keeps [.pmu, .pair, .links, .out] s t)) ∧
    (l.retry = true → ∃ t, exec (.farTrainRetry port) s = .next t ∧
      t.far n = { l with train := BitVec.allOnes 18, lanes := 0, retry := false } ∧ other t ∧ Keeps [.links] s t)

/-! ### Rings and commands -/

/-- Doorbells and polls (R288, R289, R290). What a read of a control line returned is judged: a tail that moves
forward by no more than the room of an active ring is accepted, and one past it stops the ring with OVERRUN and the
event 0x0C01; a CQ_HEAD that moves forward and not past CQ_TAIL is accepted, and another sets CQ_ERR with the event
0x0C02. A watched control line that an agent wrote is read, and a poll of a ring in use that is not watched reads its
control line. The other rings stay. -/
def Obligations.DoorbellsMoveTails : Prop :=
  ∀ (s : State) (n : Fin 16) (tl hd : Word),
    let g := s.ring n.val
    let others := fun (t : State) => ∀ m, m ≠ n.val → t.ring m = s.ring m
    let used := s.cqUsed n.val = true
    let tailOk := (tl - g.tail).toNat + (g.tail - g.sqHead).toNat ≤ 2 ^ g.sqLog.toNat
    let headOk := (hd - g.cqHead).toNat ≤ (g.cqTail - g.cqHead).toNat
    let mine := fun (r : Ring) => Does (.doorbell n) s (fun t => t.ring n.val = r ∧ others t ∧ Keeps [.evt, .rings] s t)
    let reads := fun (c : Instr) => ∃ x, x.ring n.val = { g with reading := true, flight := g.flight + 1 } ∧ others x ∧
      Keeps [.rings] s x ∧
      let y := x.readLine (.ctl n.val) .rdV g.ctl.toNat 0 false
      (c = .ringPoll n ∨ (y.ring n.val).read = none) → exec c s = .next y.settle
    (g.read = some (some tl, hd) → g.active = true → (g.tail - g.sqHead).toNat ≤ 2 ^ g.sqLog.toNat →
      (used → tailOk → headOk → mine { g with read := none, tail := tl, cqHead := hd }) ∧
      (used → tailOk → ¬headOk → mine { g with read := none, tail := tl, cqErr := true }) ∧
      (used → ¬tailOk → headOk → mine { g with read := none, overrun := true, active := false, cqHead := hd }) ∧
      (used → ¬tailOk → ¬headOk → mine { g with read := none, overrun := true, active := false, cqErr := true }) ∧
      (¬used → tailOk → mine { g with read := none, tail := tl }) ∧
      (¬used → ¬tailOk → Does (.doorbell n) s (fun t =>
        t.ring n.val = { g with read := none, overrun := true, active := false } ∧ others t ∧
        t.evt = (s.event 0x0C01 srcSlice [n.val]).evt ∧ Keeps [.evt, .rings] s t))) ∧
    (∀ v, g.read = some (v, hd) → (g.active = false ∨ v = none) → used →
      (headOk → mine { g with read := none, cqHead := hd }) ∧
      (¬headOk → Does (.doorbell n) s (fun t => t.ring n.val = { g with read := none, cqErr := true } ∧ others t ∧
        t.evt = (s.event 0x0C02 srcSlice [n.val]).evt ∧ Keeps [.evt, .rings] s t))) ∧
    (g.read = none → g.watched = true → g.reading = true → g.flight = 0 → (g.en = true ∨ used) → g.enabling = false →
      reads (.doorbell n)) ∧
    (g.watched = false → g.reading = false → (g.en = true ∨ used) → g.enabling = false → reads (.ringPoll n))

/-- DESCRIPTOR_FETCH and COMMAND_COMPLETE (R291, R292, R302, R309). The ring whose turn it is takes a free context for
the descriptor at its SQ_HEAD, after every command fetched before, and reads its line; a ring whose turn it is not
fetches nothing. The record of a command that has been performed or halted joins those that its completion ring writes
in order; once it is written, CQ_TAIL passes it, the bit of its interrupt is set where its descriptor or an error asks
for one, and the context is free. -/
def Obligations.CommandsAreFetchedAndRecorded : Prop :=
  ∀ (s : State) (n : Fin 16) (c : Fin 256),
    (∀ k round d, s.turn = some (k, round) → s.freeCtx = some d → s.takes = true →
      (k = n.val →
        let i := (s.ring n.val).sqHead
        let a := s.descAddr n.val i
        ∃ x, x.ctx d = { Ctx.free with phase := .fetched, ring := n.val, index := i, order := s.cmds.next
                                       need := [a / 128 * 128], rolled := s.isRolled n.val i, cring := s.cqOf n.val } ∧
          x.cmds.next = s.cmds.next + 1 ∧ x.cmds.round = round ++ [n.val] ∧ (∀ e, e ≠ d → x.ctx e = s.ctx e) ∧
          Keeps [.cmds] s x ∧
          exec (.descriptorFetch n) s = .next ((x.readLine (.desc d) .rdNC a 0 false).roundEnd).settle) ∧
      (k ≠ n.val → exec (.descriptorFetch n) s = .next s.settle)) ∧
    ((s.ctx c.val).phase = .done → s.quenching = false → dOp (s.ctx c.val).desc ≠ opKilnLoad →
      dOp (s.ctx c.val).desc ≠ opKilnFire →
      let x := s.ctx c.val
      Does (.commandComplete c) s (fun t => t.ctx c.val = { x with phase := .recording } ∧
        (∀ e, e ≠ c.val → t.ctx e = s.ctx e) ∧
        t.ring x.cring = { s.ring x.cring with held := (s.ring x.cring).held ++ [s.recordOf c.val] } ∧
        (∀ m, m ≠ x.cring → t.ring m = s.ring m) ∧ Keeps [.free, .rings, .cmds, .pmu, .kiln] s t)) ∧
    (∀ r rest, let g := s.ring n.val
      let t := s.recordDone n.val
      g.held = r :: rest →
        t.ring n.val = { g with held := rest, putting := 0, cqTail := g.cqTail + 1, ctlDue := true } ∧
        (∀ m, m ≠ n.val → t.ring m = s.ring m) ∧ t.ctx r.ctx = Ctx.free ∧ (∀ e, e ≠ r.ctx → t.ctx e = s.ctx e) ∧
        t.cmds.irqStat = (if r.irq = true ∨ (r.lo.toNat / 2 ^ 32 % 256 ≠ 0 ∧ g.errIrq = true)
          then setBit s.cmds.irqStat n.val true else s.cmds.irqStat) ∧ Keeps [.rings, .cmds] s t)

/-- Every opcode passes decode where it may (R55, R293, R294, R296 to R300, R239, R267, R277, R340, R385, R393): with
its descriptor fetched, nothing before it undecoded and no check failing, the command waits to start, with the peer ID
and windows of that moment; the FW commands take their turn, KILN_FIRE makes its job, and a lease takes its SEQ. An
ATOM_BATCH first reads its list. A command that fails one of its opcode's own checks ends with the status of the first
that fails. -/
def Obligations.CommandsPassDecode : Prop :=
  ∀ (s : State) (c : Fin 256),
    let d := (s.ctx c.val).desc
    let priv := (s.ring (s.ctx c.val).ring).priv.toNat
    let decoded := (s.keepPeers c.val).modCtx c.val (fun x => { x with phase := .waiting })
    let ready := fun (op : Nat) =>
      s.decodable c.val op = true ∧ (s.active = true ∨ op = opNop) ∧ headCheck op d priv = none
    let runs := fun (i : Instr) (op : Nat) (late : Bool) (own : Refuse) (t : State) => ready op →
      (own = none → (late = true ∨ tailCheck op d = none) → exec i s = .next t.settle) ∧
      ∀ v, (own = some v ∨ (own = none ∧ late = false ∧ tailCheck op d = some v)) →
        exec i s = .next (s.refuseCtx c.val v).settle
    let w := fun (st : State) => (st.ctx c.val).desc
    runs (.nop c) opNop false none decoded ∧ runs (.fence c) opFence false none decoded ∧
    runs (.epochClose c) opEpochClose false none decoded ∧
    (ready opLease → (∀ v, s.leaseRefuse v d = none) → tailCheck opLease d = none → exec (.leaseUpdate c) s = .next
      ({ decoded with pair := { s.pair with seq := BitVec.ofNat 64 (dField d 24 8), seqAny := true } } : State).settle) ∧
    runs (.copy c) opCopy false (s.moveCheck d true) decoded ∧ runs (.fill c) opFill false (s.moveCheck d false) decoded ∧
    runs (.clean c) opClean false (s.rangeCheck d true false) decoded ∧
    runs (.inval c) opInval false (s.rangeCheck d true false) decoded ∧
    runs (.cleanInval c) opCleanInval false (s.rangeCheck d true false) decoded ∧
    runs (.reclaim c) opReclaim false (s.rangeCheck d false false) decoded ∧
    runs (.pin c) opPin false (s.rangeCheck d false true) decoded ∧
    runs (.unpin c) opUnpin false (s.rangeCheck d false true) decoded ∧
    runs (.tallyWait c) opTallyWait false (tallyCheck s d) decoded ∧
    runs (.tallySet c) opTallySet false (tallyCheck s d) decoded ∧
    runs (.scrub c) opScrub false (scrubCheck s d) decoded ∧ runs (.spareSwap c) opSpareSwap false (swapCheck s d) decoded ∧
    runs (.overlayApply c) opOverlay false (s.overlayCheck d) decoded ∧
    runs (.fwBlock c) opFwBlock false (s.blockCheck d) (decoded.fwJoin c.val) ∧
    runs (.fwActivate c) opFwActivate false none (decoded.fwJoin c.val) ∧
    runs (.kilnLoad c) opKilnLoad true (s.loadCheck d) (decoded.glazeWaits c.val (decoded.loadBanks (w decoded))) ∧
    runs (.kilnFire c) opKilnFire true (s.fireCheck d)
      ((decoded.fireMake c.val).glazeWaits c.val ((decoded.fireMake c.val).fireBanks (w (decoded.fireMake c.val)))) ∧
    runs (.atomBatch c) opAtomBatch true (s.listCheck d)
      ((s.modCtx c.val (fun x => { x with stage := 1 })).gather c.val (linesOf (dAddr d) (dLen d)) false)

/-- A command that fails a check at decode acts on nothing: its record is made at once (R55, R294, R296). Before a
base is active every opcode but NOP ends with BAD_OP of field 0; on a ring of less privilege than the opcode needs it
ends with PRIV and the ring's privilege; reserved flag bits, and an address above 2^52, end it with BAD_OP of their
field; every check of R294 before the opcode's own ends it with its status, and one of them fails where the opcode works
on a range and the length is 0. -/
def Obligations.DecodeRefusesInOrder : Prop :=
  ∀ (s : State) (c : Fin 256),
    let x := s.ctx c.val
    let d := x.desc
    let priv := (s.ring x.ring).priv.toNat
    let refused := fun (st : BitVec 8) (detail : BitVec 64) =>
      let s' := if dOp d = opLease ∧ s.cfg.pairEn = false then s.draw.2 else s
      (.next (s'.refuseCtx c.val (st, detail)).settle : Host.Outcome State Fault Refusal)
    let field := fun (k : Nat) => fieldAt k
    ∀ p ∈ [(Instr.copy c, opCopy, 0), (.fill c, opFill, 0), (.clean c, opClean, 0), (.inval c, opInval, 1),
        (.cleanInval c, opCleanInval, 0), (.reclaim c, opReclaim, 1), (.pin c, opPin, 1), (.unpin c, opUnpin, 1),
        (.tallySet c, opTallySet, 1), (.tallyWait c, opTallyWait, 0), (.atomBatch c, opAtomBatch, 0), (.fence c, opFence, 0),
        (.epochClose c, opEpochClose, 1), (.overlayApply c, opOverlay, 1), (.scrub c, opScrub, 1), (.spareSwap c, opSpareSwap, 2),
        (.fwBlock c, opFwBlock, 2), (.fwActivate c, opFwActivate, 2), (.leaseUpdate c, opLease, 2),
        (.kilnLoad c, opKilnLoad, 0), (.kilnFire c, opKilnFire, 0)],
      s.decodable c.val p.2.1 = true →
      (s.active = false → exec p.1 s = refused stBadOp (field 0)) ∧
      (s.active = true → priv < p.2.2 → exec p.1 s = refused stPriv (BitVec.ofNat 64 priv)) ∧
      (s.active = true → p.2.2 ≤ priv → bits (dField d 1 1) 7 1 ≠ 0 → exec p.1 s = refused stBadOp (field 1)) ∧
      (s.active = true → p.2.2 ≤ priv → bits (dField d 1 1) 7 1 = 0 → bits (dField d 2 1) 7 3 = 0 → dField d 3 1 = 0 →
        bits (dAddr d) 63 52 ≠ 0 → exec p.1 s = refused stBadOp (field 8)) ∧
      (∀ v, s.active = true → headCheck p.2.1 d priv = some v → exec p.1 s = refused v.1 v.2) ∧
      (opRanged p.2.1 = true → dLen d = 0 → headCheck p.2.1 d priv ≠ none)

/-- A command that may start acts (R179, R198, R294, R299, R302, R352, R383). NOP and FENCE are done; TALLY_SET sets
its tally and is done; a COPY, FILL or range command on a fenced region ends with FENCED; a range command waits for a
slot of its engine; OVERLAY_APPLY and TALLY_WAIT go on acting; EPOCH_CLOSE asks for a cut, or for the next one during
a cut. TALLY_WAIT ends when its tally is met, or with TIMEOUT. -/
def Obligations.StartedCommandsAct : Prop :=
  ∀ (s : State) (c : Fin 256) (d : BitVec 512),
    let x := s.ctx c.val
    let op := dOp d
    let only := fun (t : State) (st : BitVec 8) (detail : BitVec 64) =>
      t.ctx c.val = { x with phase := .done, status := st, detail := detail, need := [], out := 0 } ∧
      (∀ e, e ≠ c.val → t.ctx e = s.ctx e)
    let acts := fun (t : State) => t.ctx c.val = { x with phase := .acting } ∧ (∀ e, e ≠ c.val → t.ctx e = s.ctx e)
    x.desc = d →
    (x.phase = .waiting → s.mayStart x = true →
      ((op = opNop ∨ op = opFence) → only (s.ctxStep c.val) stOk 0 ∧ Keeps [.cmds] s (s.ctxStep c.val)) ∧
      (op = opTallySet → only (s.ctxStep c.val) stOk 0 ∧ Keeps [.cmds, .tly] s (s.ctxStep c.val) ∧
        ∀ k, (s.ctxStep c.val).tally k = if k = tlyIndex d then BitVec.ofNat 64 (dField d 24 8) else s.tally k) ∧
      ((op = opTallyWait ∨ op = opOverlay) → acts (s.ctxStep c.val) ∧ Keeps [.cmds] s (s.ctxStep c.val)) ∧
      (op = opClean ∨ op = opInval ∨ op = opCleanInval ∨ op = opReclaim ∨ op = opPin ∨ op = opUnpin →
        (∀ a, s.fencedIn (s.ctxReads x ++ s.ctxWrites x) = some a →
          only (s.ctxStep c.val) stFenced (BitVec.ofNat 64 a) ∧ Keeps [.cmds] s (s.ctxStep c.val)) ∧
        (s.fencedIn (s.ctxReads x ++ s.ctxWrites x) = none → acts (s.ctxStep c.val) ∧ Keeps [.cmds, .ranges] s (s.ctxStep c.val) ∧
          (s.ctxStep c.val).ranges = { s.ranges with waiting := s.ranges.waiting ++
            [newRange (rangeKindOf op) (dAddr d / 128) (dLen d / 128) (some c.val)] })) ∧
      (op = opEpochClose → acts (s.ctxStep c.val) ∧ Keeps [.cmds, .ep, .out] s (s.ctxStep c.val) ∧
        (s.ep.cutStep = 0 → (s.ctxStep c.val).ep = { s.ep with cutBy := s.ep.cutBy ++ [c.val] } ∧
          (s.ctxStep c.val).out.epochReq = true) ∧
        (s.ep.cutStep ≠ 0 → (s.ctxStep c.val).ep = { s.ep with nextBy := s.ep.nextBy ++ [c.val] } ∧
          (s.ctxStep c.val).out = s.out))) ∧
    (x.phase = .acting → op = opTallyWait → s.quenching = false →
      ((s.tally (tlyIndex d) - BitVec.ofNat 64 (dField d 24 8)).toNat < 2 ^ 63 →
        Does (.tallyWaitMet c) s (fun t => only t stOk (s.tally (tlyIndex d)) ∧ Keeps [.cmds] s t)) ∧
      (dField d 32 4 ≠ 0 → 2 ^ 63 ≤ (s.tally (tlyIndex d) - BitVec.ofNat 64 (dField d 24 8)).toNat → Does (.tallyWaitTimeout c) s (fun t =>
        only t stTimeout (s.tally (tlyIndex d)) ∧ Keeps [.cmds] s t)))

/-! ### Maintenance and agent operations -/

/-- Range activities (R115, R121 to R126). The activity that has waited longest takes the lowest free slot, ordered
after every activity begun. A half part treats the first line of its half from where it stands, in a transaction of
the home, when no earlier activity has still to pass the line; with no line left, or once a PIN has been refused, it
is done; the half part of a drain goes on to its next part first (R61); a line of a fenced region ends a command's half
part with the line noted; a line whose home sleeps asks for a wake. No step is made in a quench. -/
def Obligations.RangeActivitiesProceedInOrder : Prop :=
  ∀ (s : State) (slot : Fin 16) (half : Half) (a : RangeAct),
    let n := slot.val
    let more := a.part half + 1 < a.parts.length
    let ended := match half with
      | .a => if more then { a with partA := a.partA + 1, posA := 0 } else { a with doneA := true }
      | .b => if more then { a with partB := a.partB + 1, posB := 0 } else { a with doneB := true }
    let ends := Does (.rangeLineOp slot half) s (fun t => tget none t.ranges.slots n = some ended ∧
      (∀ k, k ≠ n → tget none t.ranges.slots k = tget none s.ranges.slots k) ∧ Keeps [.ranges] s t)
    (∀ rest, s.ranges.waiting = a :: rest → s.quenching = false → tget none s.ranges.slots n = none →
      (∀ k, k < n → (tget none s.ranges.slots k).isSome = true) → Does .rangeSlotAllocate s (fun t =>
        tget none t.ranges.slots n = some { a with order := s.ranges.next } ∧
        (∀ k, k ≠ n → tget none t.ranges.slots k = tget none s.ranges.slots k) ∧
        t.ranges.waiting = rest ∧ t.ranges.next = s.ranges.next + 1 ∧ t.ranges.lineop = s.ranges.lineop ∧ Keeps [.ranges, .fw] s t)) ∧
    (tget none s.ranges.slots n = some a → a.isDone half = false → s.rangeBusy n half = false →
      (s.quenching = true → exec (.rangeLineOp slot half) s = .next s.settle) ∧
      (s.quenching = false → (∀ b, a.kind ≠ .bankClean b) →
        (∀ b rest, a.kind = .drain → a.parts.drop (a.part half) ≠ .bank b :: rest) →
        let w := a.area half
        let next := firstFrom (fun k => s.homedIn half (w.1 + k)) (w.2 - a.pos half) (a.pos half)
        (a.refused.isSome = true ∨ next = none → ends) ∧
        (∀ k, a.refused = none → next = some k →
          let l : LineIx := BitVec.ofNat 45 (w.1 + k)
          let cone := match a.ctx with
            | some c => dCone (s.ctx c).desc
            | none => s.slotCone l
          let r := mkReq .callIn (.maint n) l cone
          s.mayProcess a.order half l.toNat = true →
          (¬(s.roleAt (lineAddr l) = .fenced ∧ a.ctx.isSome = true) → s.mayMaintain r = true →
            exec (.rangeLineOp slot half) s = .next (s.maintain r (if a.kind = .pin then some n else none)).settle) ∧
          (¬(s.roleAt (lineAddr l) = .fenced ∧ a.ctx.isSome = true) → s.mayMaintain r = false →
            exec (.rangeLineOp slot half) s = .next (s.askWake (s.homeShelf l)).settle) ∧
          (∀ c, s.roleAt (lineAddr l) = .fenced → a.ctx = some c → Does (.rangeLineOp slot half) s (fun t =>
            tget none t.ranges.slots n = some ended ∧ (t.ctx c).poison = some (match (s.ctx c).poison with
              | some b => min b (lineAddr l)
              | none => lineAddr l) ∧ Keeps [.cmds, .ranges] s t)))) ∧
      (s.quenching = false → ∀ b, a.kind = .bankClean b →
        (shelfHalf (b / 16) ≠ half ∨ (s.shelfUp (b / 16) = true ∧ s.dirtySlots b = []) → ends) ∧
        (shelfHalf (b / 16) = half → s.shelfUp (b / 16) = false →
          exec (.rangeLineOp slot half) s = .next (s.askWake (b / 16)).settle) ∧
        (∀ x, shelfHalf (b / 16) = half → s.shelfUp (b / 16) = true →
          (s.dirtySlots b).find? (fun x => !s.lineOpen (slotLine x (s.tag x)) && !s.flt.lost.contains (slotLine x (s.tag x)) &&
            s.mayProcess a.order half (slotLine x (s.tag x)).toNat) = some x → (s.tag x).dup = false →
          exec (.rangeLineOp slot half) s = .next (s.cleanSlot x srcWriteback (.clean b)).settle)) ∧
      (s.quenching = false → ∀ b rest, a.kind = .drain → a.parts.drop (a.part half) = .bank b :: rest →
        (shelfHalf (b / 16) ≠ half ∨ (s.shelfUp (b / 16) = true ∧ s.copiesIn b = [] ∧ s.drainLines b = []) → ends)))

/-- Ends of maintenance (R111, R118, R119, R122, R127). An activity whose half parts are done and whose writebacks are
answered leaves its slot; its command ends with OK, or with CEILING and the lowest line refused. A bank clean with
nothing dirty left clears CACHE_EN and INV_DONE of its bank. A tag invalidate leaves every slot of the bank invalid
and its trees zero, and sets INV_DONE. A by-address operation that has acted, with no transaction and no writeback
left, is no longer BUSY. AGENT_OP_DONE (R37, R151, R153, R158). A join ends with the entry of the ID it was started for in every awake shelf and result 0; a
leave whose walk has nothing open and finds no entry naming the agent ends with the entry gone; while entries still
name it, the walk goes on. -/
def Obligations.MaintenanceEnds : Prop :=
 (∀ (s : State) (slot : Fin 16) (a : RangeAct) (bank : Fin 256),
    let n := slot.val
    let b := bank.val
    let freed := fun (t : State) => tget none t.ranges.slots n = none ∧
      (∀ k, k ≠ n → tget none t.ranges.slots k = tget none s.ranges.slots k)
    (tget none s.ranges.slots n = some a → a.doneA = true → a.doneB = true → s.awaits (.range n) = false →
      s.rangeBusy n .a = false → s.rangeBusy n .b = false →
      (∀ c, a.ctx = some c → (∀ k, a.kind ≠ .bankClean k ∧ a.kind ≠ .drain) →
        (a.refused = none → (s.ctx c).poison = none → Does (.rangeActivityDone slot) s (fun t => freed t ∧
          t.ctx c = { s.ctx c with phase := .done, status := stOk, detail := 0, need := [], out := 0 } ∧
          Keeps [.cmds, .ranges] s t)) ∧
        (∀ l, a.refused = some l → Does (.rangeActivityDone slot) s (fun t => freed t ∧
          t.ctx c = { s.ctx c with phase := .done, status := stCeiling, detail := BitVec.ofNat 64 (l * 128), need := [], out := 0 } ∧
          Keeps [.cmds, .ranges] s t))) ∧
      (a.ctx = none → (∀ k, a.kind ≠ .bankClean k ∧ a.kind ≠ .drain) →
        Does (.rangeActivityDone slot) s (fun t => freed t ∧ Keeps [.ranges] s t)) ∧
      (a.kind = .bankClean b → s.awaits (.clean b) = false → s.dirtySlots b = [] →
        (s.ranges.slots.find? (fun p => match p.2 with
          | some x => x.kind == .bankClean b
          | none => false)).map Prod.fst = some n → Does (.bankCleanDone bank) s (fun t => freed t ∧
            t.shelf (b / 16) = { s.shelf (b / 16) with bankEn := setBit (s.shelf (b / 16)).bankEn (b % 16) false
                                                       cleaning := setBit (s.shelf (b / 16)).cleaning (b % 16) false
                                                       invDone := setBit (s.shelf (b / 16)).invDone (b % 16) false } ∧
            (∀ i, i ≠ b / 16 → t.shelf i = s.shelf i) ∧ Keeps [.shelves, .ranges] s t))) ∧
    ((s.shelf (b / 16)).tagInv.getLsbD (b % 16) = true → ∃ t, exec (.tagInvDone bank) s = .next t ∧
      (∀ k, tget Tag.empty t.arr.tags k = if k / 65536 = b then Tag.empty else tget Tag.empty s.arr.tags k) ∧
      (∀ k, tget 0 t.arr.frameTree k = if k / 2048 = b then 0 else tget 0 s.arr.frameTree k) ∧
      (∀ k, tget 0 t.arr.tagTree k = if k / 2048 = b then 0 else tget 0 s.arr.tagTree k) ∧
      t.arr.bytes = s.arr.bytes ∧ t.arr.poison = s.arr.poison ∧
      t.shelf (b / 16) = { s.shelf (b / 16) with tagInv := setBit (s.shelf (b / 16)).tagInv (b % 16) false
                                                 invDone := setBit (s.shelf (b / 16)).invDone (b % 16) true } ∧
      (∀ i, i ≠ b / 16 → t.shelf i = s.shelf i) ∧ Keeps [.arr, .shelves] s t) ∧
    (∀ o, s.ranges.lineop = some o → o.acted = true →
      let busy := s.home.txns.any (fun t => t.req.who == .lineop) || s.awaits .lineop
      (busy = false → Does .lineopDone s (fun t => t.ranges = { s.ranges with lineop := none } ∧ Keeps [.ranges] s t)) ∧
      (busy = true → exec .lineopDone s = .next s.settle))) ∧
 (∀ s : State, s.agents.busy = true →
    let id := s.agents.opId
    let ended := fun (t : State) => t.agents.busy = false ∧ t.agents.op = 0 ∧ t.agents.result = 0 ∧
      (∀ i, i ≠ id → t.agent i = s.agent i) ∧ (∀ i, i < 16 → t.shelf i =
        if s.shelfUp i then { s.shelf i with agents := t.agents.table, agentsOld := false }
        else { s.shelf i with agentsOld := true }) ∧ Keeps [.agents, .shelves] s t
    (s.agents.op = 1 → Does .agentOpDone s (fun t => t.agent id = { s.agent id with st := .yes } ∧ ended t)) ∧
    (s.agents.op ≠ 1 → s.walkOpen id = [] → s.namedLines id = [] → Does .agentOpDone s (fun t =>
      t.agent id = Agent.absent ∧ ended t)) ∧
    (s.agents.op ≠ 1 → s.walkOpen id = [] → s.namedLines id ≠ [] → exec .agentOpDone s = .next (s.leaveWalk id).settle))

/-! ### Kiln, cut, quench, configuration -/

/-- The kiln at run time (R256, R269, R272, R276, R284). A bank whose next pass may start runs it, and a bank that may
not does nothing; the oldest slot of an assembler leaves as an atomic FP32 add in which a lane that has no sum is −0;
a streamed job that waits for its producer reads HEAD again, at a peer as RdNC; a reload whose source has been read
leaves a RELOADING entry LOADED, or LOST with the event 0x0B03 where a read failed, and any other as it is. -/
def Obligations.KilnRowsRunPasses : Prop :=
  ∀ (s : State) (bank : Fin 256) (half : Half) (c : Fin 256) (e : Fin 4096),
    (∀ j p rest, s.nextPass bank.val = some (j, p, rest) → exec (.kilnPassStart bank) s = .next
      ((s.firePass j bank.val p rest).count 0x13
        ⟨(s.ring (s.ctx j.ctx).ring).priv.toNat, none, none, some (dCone j.desc), none, none⟩ 1).settle) ∧
    (s.nextPass bank.val = none → exec (.kilnPassStart bank) s = .next s.settle) ∧
    (∀ a rest, s.kilnClocked half = true → s.asm half = a :: rest → ∃ x r, Keeps [.cmds, .kiln] s x ∧
      x.asm half = rest ∧ (∀ h, h ≠ half → x.asm h = s.asm h) ∧ (x.ctx a.ctx).out = (s.ctx a.ctx).out + 1 ∧
      r.op = .atom ∧ r.who = .cmd a.ctx ∧ r.line = lineIx (a.line * 128) ∧ r.mask = fullMask ∧ r.aop = 0x80 ∧
      r.cone = dCone (s.ctx a.ctx).desc ∧
      (∀ i, i < 32 → r.data.extractLsb' (32 * i) 32 = if a.have32.getLsbD i then a.data.extractLsb' (32 * i) 32
        else a.data.extractLsb' (32 * i) 32 ||| 0x80000000) ∧
      exec (.accumSlotTimeout half) s = .next (x.issue r).settle) ∧
    (∀ j, s.job c.val = some j → frStream j.desc = true → j.nextTokens.any (fun t => !j.ready t) = true →
      j.headReading = false → s.quenching = false → (s.ctx c.val).phase = .acting →
      exec (.streamHeadPoll c) s = .next ((s.modJob c.val (fun j => { j with headReading := true })).readLine (.head c.val)
        (if s.place (frSrc j.desc) = .nowhere then .rdNC else .rdV) (frSrc j.desc) (dCone j.desc) false).settle) ∧
    (∀ x, s.kiln.reloads.find? (fun y => y.entry == e.val) = some x → x.need = [] →
      let gone := fun (t : State) => t.kiln.reloads = dropFirst (fun y => y.entry == e.val) s.kiln.reloads ∧
        (∀ i, i ≠ e.val → t.kentry i = s.kentry i)
      ((s.kentry e.val).st ≠ .reloading → Does (.kilnReloadDone e) s (fun t =>
        gone t ∧ t.kentry e.val = s.kentry e.val ∧ Keeps [.kiln] s t)) ∧
      ((s.kentry e.val).st = .reloading → x.bad = false → (s.kentry e.val).record.isSome = true →
        Does (.kilnReloadDone e) s (fun t =>
          gone t ∧ t.kentry e.val = { s.kentry e.val with st := .loaded } ∧ Keeps [.free, .arr, .kiln] s t)) ∧
      ((s.kentry e.val).st = .reloading → (x.bad = true ∨ (s.kentry e.val).record = none) →
        Does (.kilnReloadDone e) s (fun t => gone t ∧ t.kentry e.val = { s.kentry e.val with st := .lost } ∧
          t.evt = (s.event 0x0B03 srcSlice [e.val]).evt ∧ Keeps [.evt, .kiln] s t)))

/-- PEER_RESPONSE (R137, R260). The answer with the TXN of a request to a peer reaches what asked, a DataS for a read, an
Ack for a write or Poison for either, and the next request that waits for a TXN is sent; an answer that matches no
request changes nothing, and one whose header breaks R137 is a protocol error. -/
def Obligations.PeerAnswersReachTheirAsker : Prop :=
  ∀ (s : State) (h : Hdr) (data : Line),
    let is := fun (p : Nat × Req) => p.1 == (Hdr.txn h).toNat
    (s.kiln.peerOut.find? is = none → exec (.peerResponse h data) s = .next s.settle) ∧
    (∀ p, s.kiln.peerOut.find? is = some p →
      let reaches := fun (a : Answer) => headerKeeps h = true → ∃ x, Keeps [.cone, .pmu, .kiln, .links, .out] s x ∧
        (s.kiln.peerWait = [] → x.kiln = { s.kiln with peerOut := dropFirst is s.kiln.peerOut } ∧ Keeps [.cone, .kiln] s x) ∧
        exec (.peerResponse h data) s = .next ((if a = .poison then x.peerPoison p.2 else x).deliver 0 p.2 a).settle
      (headerKeeps h = false → exec (.peerResponse h data) s = .next (s.protocolError h).settle) ∧
      (Hdr.msg h = mPoison → reaches .poison) ∧
      (Hdr.msg h = mDataS → p.2.op.isRead = true → reaches (.data data)) ∧
      (Hdr.msg h = mAck → p.2.op.isWrite = true → reaches (.ack none)))

/-- The cut (R349, R352, R353, R358, R361). EPOCH begins step 1 with the closes that asked; a stripe at 7/8 of its
entries asks for a close with FORCED; a finished step is reported once, and the next begins when every slice has
finished; the flip of step 5 changes the epoch bit and counts the number, 1 following 0xFFFFFFFF, and empties the
stripes; after step 6 every close that asked is done with the number, and one asked for meanwhile asks again; the
sweep ends with no prior-epoch line left. Under a coolant stop with a half not awake the running step pauses (R368). -/
def Obligations.CutGoesThroughItsSteps : Prop :=
  ∀ s : State, s.quenching = false →
    (s.ep.cutStep = 0 → (∀ k, k < 8 → s.capacity = 0 ∨ tget 0 s.ep.fill k < s.capacity) → Does .epochInput s (fun t =>
      t.ep = { s.ep with cutStep := 1, cutDone := false, askForced := false } ∧
      t.out = { s.out with epochReq := false, qstepDone := false } ∧
      (∀ c ∈ s.ep.cutBy, (t.ctx c).begun = true) ∧ Keeps [.cmds, .ep, .out] s t)) ∧
    (s.ep.cutStep ≠ 0 → exec .epochInput s = .next s.settle) ∧
    (s.ep.askForced = false →
      (∃ k, k < 8 ∧ 0 < s.capacity ∧ 7 * s.capacity ≤ 8 * tget 0 s.ep.fill k) → Does .forcedClose s (fun t =>
        t.ep = { s.ep with forced := true, askForced := true } ∧
        t.out = { s.out with epochReq := s.out.epochReq || s.ep.cutStep == 0 } ∧
        Keeps [.ep, .out] s t)) ∧
    (s.ep.sweep = true → s.priorSlots = [] → s.sweepBusy = false → Does .epochSweepDone s (fun t =>
      t.ep = { s.ep with sweep := false } ∧ Keeps [.ep] s t)) ∧
    (s.ep.sweep = true → s.priorSlots ≠ [] → exec .epochSweepDone s = .next s.sweepLines.settle) ∧
    (s.stepPaused = false → s.ep.cutStep ≠ 0 → s.ep.cutDone = false → s.cutFinished = true →
      (s.ep.cutStep ≠ 6 → Does .qstepDone s (fun t => t.ep = { s.ep with cutDone := true } ∧
        t.out = { s.out with qstepDone := true } ∧ Keeps [.ep, .out] s t)) ∧
      (s.ep.cutStep = 6 → Does .qstepDone s (fun t =>
        t.ep = { s.ep with cutStep := 0, cutDone := false, cutBy := s.ep.nextBy, nextBy := [] } ∧
        (∀ c ∈ s.ep.cutBy, (t.ctx c).phase = .done ∧ (t.ctx c).status = stOk ∧ (t.ctx c).detail = s.ep.num.zeroExtend 64) ∧
        t.out.qstepDone = true ∧ t.out.epochReq = (!s.ep.nextBy.isEmpty || s.ep.askForced || s.out.epochReq) ∧
        Keeps [.cmds, .ep, .out] s t))) ∧
    (s.stepPaused = false → s.ep.cutStep ≠ 0 → s.ep.cutDone = true →
      (s.ep.cutStep = 1 ∨ s.ep.cutStep = 3 → Does .qstepGo s (fun t =>
        t.ep = { s.ep with cutStep := s.ep.cutStep + 1, cutDone := false } ∧ t.out = { s.out with qstepDone := false } ∧
        Keeps [.ep, .out] s t)) ∧
      (s.ep.cutStep = 4 → Does .qstepGo s (fun t =>
        t.ep = { s.ep with cutStep := 5, cutDone := false, cur := !s.ep.cur, fill := []
                           num := if s.ep.num = 0xFFFFFFFF then 1 else s.ep.num + 1 } ∧
        t.back.jobs = [] ∧ t.back.headers = [] ∧
        (∀ r ∈ t.back.reqs, r.sent = true ∨ ∀ k w src, r.why ≠ .undoOld k ∧ r.why ≠ .undoLog k ∧ r.why ≠ .undoNew w src) ∧
        Keeps [.back, .cmds, .ep, .out] s t)) ∧
      (s.ep.cutStep = 2 ∨ s.ep.cutStep = 5 → exec .qstepGo s = .next (s.cutEnter (s.ep.cutStep + 1)).settle)) ∧
    (s.stepPaused = true → (s.ep.cutStep ≠ 0 → exec .qstepDone s = .next s.settle) ∧ Does .qstepGo s (fun t =>
      t.ep = { s.ep with goWaits := true } ∧ t.out = { s.out with qstepDone := false } ∧ Keeps [.ep, .out] s t))

/-- The quench (R359, R361, R363, R366). QUENCH begins step 1 with cause 7, as no trigger of this slice; the 20 µs are
noted; a finished step is reported once, and every slice having finished, the next begins; step 3 leaves no request of
the domain's agents in a queue and the directory free; at step 7 the restored epoch is the current number; with its end
QUENCH_REQ falls and no quench is left, unless a later trigger waits. Under a coolant stop with a half not awake the
next step waits (R368). -/
def Obligations.QuenchGoesThroughItsSteps : Prop :=
  ∀ s : State,
    (s.quenching = false → s.fw.pauses = false → Does .quenchInput s (fun t =>
      t.ep.step = 1 ∧ t.ep.cause = 7 ∧ t.ep.isLocal = false ∧ t.ep.quenches = satAdd s.ep.quenches 1 ∧ t.ep.num = s.ep.num ∧
      t.out.quenchReq = true ∧ t.out.qstepDone = false ∧ Keeps [.free, .cone, .ep, .ckp, .out] s t)) ∧
    (s.quenching = true → exec .quenchInput s = .next s.settle) ∧
    (s.halting = true → s.ep.waited = false → s.ep.step ≠ 3 → Does .quenchWaitExpiry s (fun t =>
      t.ep = { s.ep with waited := true } ∧ Keeps [.ep] s t)) ∧
    (s.quenching = true → s.ep.stepDone = false → s.quenchFinished = true →
      (s.ep.step ≠ 7 → Does .qstepDone s (fun t => t.ep = { s.ep with stepDone := true } ∧
        t.out = { s.out with qstepDone := true } ∧ Keeps [.ep, .out] s t)) ∧
      (s.ep.step = 7 → s.ep.sweep = false → s.ep.later = [] → Does .qstepDone s (fun t =>
        t.ep = { s.ep with step := 0, stepDone := false, waited := false } ∧ t.out.qstepDone = true ∧ t.out.quenchReq = false ∧
        Keeps [.free, .evt, .shelves, .arr, .home, .rings, .cmds, .tly, .cone, .pmu, .kiln, .ep, .pair, .ckp, .links, .out] s t))) ∧
    (s.quenching = true → s.stepPaused = true → Does .qstepGo s (fun t =>
      t.ep = { s.ep with goWaits := true } ∧ t.out = { s.out with qstepDone := false } ∧ Keeps [.ep, .out] s t)) ∧
    (s.quenching = true → s.stepPaused = false → s.ep.stepDone = true →
      exec .qstepGo s = .next (s.quenchEnter (s.ep.step + 1)).settle ∧
      (s.ep.step = 1 → Does .qstepGo s (fun t => t.ep = { s.ep with step := 2, stepDone := false } ∧ t.dir = s.dir ∧
        t.arr = s.arr ∧ ((s.home.txns.map (fun x => x.req.line)).Nodup → ∀ x ∈ t.home.txns, x.green ≠ .sent))) ∧
      (s.ep.step = 2 → s.ep.waited = true →
        (∀ r ∈ s.home.cq ++ s.home.vc ++ s.home.held ++ s.home.txns.map Txn.req, r.agentId.isSome = true ∧ s.outsider r = false) →
        (∀ x ∈ s.home.txns, x.mack = none) → s.flt.lost = [] → Does .qstepGo s (fun t =>
          t.ep = { s.ep with step := 3, stepDone := false } ∧ t.home = ⟨[], [], [], t.home.bridge, []⟩ ∧ t.dir.ways = [] ∧
          t.dir.trees = [])) ∧
      (s.ep.step = 6 → Does .qstepGo s (fun t => t.ep.step = 7 ∧ t.ep.restored = s.ep.num)))

/-- The base load ends (R53, R54, R82, R457): with a read that could not be corrected STATE is ERROR with BOUNDS; with a
stream that fails a check it is ERROR with that check's status; with one that passes it is ACTIVE with the stream's
configuration, SERIAL and epoch number 1, every tally 0, and ERR as the last failed load left it. -/
def Obligations.BaseLoadApplies : Prop :=
  ∀ (s : State) (stream : List Byte) (ue : Bool), s.syb.state = .loading →
    let bs := if s.syb.loadDefault then s.fw.defaultBase else stream
    let fails := fun (st : BitVec 8) (t : State) => t.syb = { s.syb with state := .error, err := st } ∧ Keeps [.syb] s t
    (ue = true → s.syb.loadDefault = false → Does (.baseLoadDone stream ue) s (fails stBounds)) ∧
    ((ue = false ∨ s.syb.loadDefault = true) → Does (.baseLoadDone stream ue) s (fun t =>
      match s.checkBase bs s.syb.loadLen.toNat s.syb.loadDefault with
      | .error e => fails e.1 t
      | .ok p => t.syb.state = .active ∧ t.syb.err = s.syb.err ∧ t.syb.cfg = p.cfg ∧ t.syb.serial = BitVec.ofNat 32 (sySerial bs) ∧
        t.ep = { s.ep with num := 1 } ∧ t.kiln.entries = [] ∧ (∀ i, t.tally i = 0) ∧
        Keeps [.syb, .shelves, .arr, .tly, .cone, .pmu, .kiln, .ep, .pair, .ckp, .links, .out] s t))

/-- The glaze point (R56, R59 to R65, R268). The first overlay opens one and its stream is read; a stream that fails a
check ends it with that status and changes no configuration; one that passes holds the requests to affected lines and
starts the drain, one activity for every changed cache region and every bank that leaves cache mode; the drained point
commits the new configuration and counts it, its changed placement entries UNLOADED; after the preparation the point
is closed. -/
def Obligations.GlazePointCommits : Prop :=
  ∀ s : State, s.quenching = false →
    let c := s.glaze.ctx
    let x := s.ctx c
    let closed := fun (t : State) => t.glaze = Glaze.closed
    (∀ k rest, s.overlays = k :: rest → s.glaze.step = .idle → (s.fw.step = 0 ∨ s.fw.step = 6) → ∃ y,
      y.glaze = { Glaze.closed with step := .reading, ctx := k } ∧ Keeps [.glaze] s y ∧ exec .glazePointStart s = .next
        (y.gather k (linesOf (dAddr (s.ctx k).desc) (min (dLen (s.ctx k).desc) 65536)) false).settle) ∧
    (s.glaze.step = .reading → x.need = [] →
      let bs := x.bytesAt (dAddr x.desc) (min (dLen x.desc) 65536)
      let fails := fun (e : SybFail) (t : State) => closed t ∧
        t.ctx c = { x with phase := .done, status := e.1, detail := e.2, need := [], out := 0 } ∧ Keeps [.glaze, .cmds] s t
      (∀ a, x.poison = some a → Does .glazeStreamReadDone s (fails (s.readRefusal 8 a))) ∧
      (x.poison = none → Does .glazeStreamReadDone s (fun t => match s.checkOverlay bs (dLen x.desc) with
      | .error e => fails e t
      | .ok p =>
        t.glaze = { s.glaze with step := .draining, next := p.cfg, banks := s.cfg.banksAffected p.cfg
                                 areas := s.cfg.areasAffected p.cfg, zeroMats := s.matsZeroed s.cfg p.cfg } ∧
        (∀ r ∈ t.home.cq ++ t.home.vc, r.who.isMirror = true ∨ t.glazeHolds r.line = false) ∧
        (let drains := fun (part : DrainPart) => ∃ a ∈ t.ranges.waiting, a.kind = .drain ∧ a.ctx = none ∧ part ∈ a.parts
        (∀ i ∈ s.cfg.regionChanges p.cfg, Region.valid (s.cfg.region i) = true → Region.space (s.cfg.region i) = spCache →
          drains (.region (Region.base (s.cfg.region i) / 128) (Region.size (s.cfg.region i) / 128))) ∧
        (∀ k ∈ s.cfg.modeChanges p.cfg, s.cfg.mode k = modeCache → drains (.bank k))) ∧
        t.ranges.waiting.length ≤ s.ranges.waiting.length + 1 ∧
        t.syb = s.syb ∧ Keeps [.free, .glaze, .home, .ranges, .ckp, .links, .out] s t))) ∧
    (s.glaze.step = .draining → s.drained = true → s.pair.link = 0 → Does .glazeDrainDone s (fun t =>
      t.syb = { s.syb with cfg := s.glaze.next, ovlGen := s.syb.ovlGen + 1 } ∧
      t.glaze = { s.glaze with step := .preparing, drains := s.cfg.modeChanges s.glaze.next } ∧
      (∀ i ∈ s.cfg.placeSpan s.glaze.next, (t.kentry i).st = .unloaded ∧ (t.kentry i).record = none) ∧
      (∀ i, i ∉ s.cfg.placeSpan s.glaze.next → t.kentry i = s.kentry i) ∧
      Keeps [.free, .evt, .syb, .glaze, .shelves, .arr, .home, .rings, .cmds, .tly, .cone, .pmu, .kiln, .pair, .ckp, .links,
        .out] s t)) ∧
    (s.glaze.step = .preparing → Does .glazePrepareDone s (fun t => closed t ∧
      Keeps [.free, .evt, .glaze, .shelves, .arr, .home, .rings, .cmds, .tly, .cone, .pmu, .kiln, .pair, .ckp, .links, .out] s t))

/-! ### Firmware, fuses, faults, the Life Record -/

/-- The handover (R396 to R400). Verification ends the command with the first failing check, or begins the activation;
the loaded standby boots; a standby that is ready lets the active core quiesce; a boot that fails ends the command
with BAD_OP, BOOT_FAIL set and the event 0x1101, the active image as it was; after the quiesce the idle shelves switch
their tables in ascending order; a shelf that held admission for too long admits again; a retry switches an idle shelf
or holds it again; a rebooted core is the standby once more. FUSE_PG_ACK (R399, R449). A burn that succeeds sets
exactly its fuse bit, and the lowest bit of the thermometer that is still 0 is burned next while the count lies below
the image's; one that fails ends the burning with FUSE_FAIL and the event 0x1102. -/
def Obligations.HandoverAndFuses : Prop :=
 (∀ (s : State) (sh : Fin 16),
    let others := fun (t : State) => ∀ i, i ≠ sh.val → t.shelf i = s.shelf i
    let ended := fun (t : State) (c : Nat) (st : BitVec 8) (detail : BitVec 64) =>
      t.ctx c = { s.ctx c with phase := .done, status := st, detail := detail, need := [], out := 0 } ∧
      t.fw.verifying = false ∧ t.fw.step = (if s.fw.trail = 0 then 0 else 6) ∧ t.fw.queue = s.fw.queue.erase c ∧
      t.fw.imageVer = s.fw.imageVer ∧ t.fw.parts = s.fw.parts
    (∀ c, s.quenching = false → s.fw.verifying = true → s.fw.ctx = some c →
      Does .fwVerifyDone s (fun t => match s.verify with
        | some r => ended t c r.1 r.2 ∧ Keeps [.cmds, .fw, .life] s t
        | none => t.fw = { s.fw with verifying := false, step := 1 } ∧ t.ctx c = { s.ctx c with begun := true } ∧
          Keeps [.cmds, .fw] s t)) ∧
    (s.fw.step = 1 → s.stepPaused = false → ∃ t, exec .fwLoadDone s = .next t ∧ Keeps [.fw] s t ∧
      t.fw = { s.fw with step := 2, nextImage := s.staged 0 (imgLen s.fw.header), noStandby := true }) ∧
    (s.fw.step = 2 → s.stepPaused = false → Does .fwStandbyReady s (fun t =>
      t.fw = { s.fw with step := 3, noStandby := s.flt.noStandby } ∧ Keeps [.fw] s t)) ∧
    (∀ c, s.fw.step = 2 → s.stepPaused = false → s.fw.ctx = some c → Does .fwBootFail s (fun t =>
      ended t c stBadOp (highDetail s.mgmtPart) ∧ t.fw.bootFail = true ∧ t.fw.noStandby = true ∧
      t.evt = (s.event 0x1101 srcSlice [s.mgmtPart]).evt ∧ Keeps [.evt, .cmds, .fw, .life] s t)) ∧
    (s.stepPaused = true → ∀ c ∈ [Instr.fwLoadDone, .fwStandbyReady, .fwBootFail, .fwQuiesceDone, .fwFlipRetry sh],
      exec c s = .next s) ∧
    (s.fw.step = 3 → s.fw.pauses = true → s.stepPaused = false →
      (∀ i, i < 16 → s.records i = 0 ∧ (s.shelf i).flipped = false ∧ (s.shelf i).flipHold = false) →
      Does .fwQuiesceDone s (fun t => t.fw.step = 4 ∧ t.fw.flipNext = 16 ∧
        t.fw.mirrorVer = BitVec.ofNat 8 (imgMirrorVer s.fw.nextImage) ∧
        t.fw.mirrorMin = BitVec.ofNat 8 (imgMirrorMin s.fw.nextImage) ∧
        (∀ i, i < 16 → (t.shelf i).flipped = true ∧ (t.shelf i).table = BitVec.ofNat 8 s.cfg.protocolId) ∧
        Keeps [.shelves, .fw] s t)) ∧
    ((s.shelf sh.val).flipHold = true → s.fw.flipNext ≠ sh.val + 1 → Does (.fwFlipHoldExpiry sh) s (fun t =>
      t.shelf sh.val = { s.shelf sh.val with flipHold := false } ∧ others t ∧ Keeps [.shelves] s t)) ∧
    ((s.shelf sh.val).flipHold = true → s.fw.flipNext = sh.val + 1 → ∃ x,
      x.shelf sh.val = { s.shelf sh.val with flipHold := false } ∧ others x ∧ Keeps [.shelves] s x ∧
      exec (.fwFlipHoldExpiry sh) s = .next x.flipOn.settle) ∧
    (s.fw.step = 4 → s.stepPaused = false → sh.val < s.fw.flipNext → (s.shelf sh.val).flipHold = false → (s.shelf sh.val).flipped = false →
      Does (.fwFlipRetry sh) s (fun t => t.shelf sh.val = (if s.records sh.val = 0
          then { s.shelf sh.val with table := BitVec.ofNat 8 s.cfg.protocolId, flipped := true, flipHold := false }
          else { s.shelf sh.val with flipHold := true }) ∧ others t ∧ Keeps [.shelves] s t)) ∧
    (s.fw.noStandby = true → s.flt.noStandby = false → s.flt.retired.contains FaultUnit.mgmtCore = false →
      (s.fw.step = 0 ∨ s.fw.step = 6) →
      (s.flt.serving = true → Does .standbyRebootDone s (fun t =>
        t.fw = { s.fw with noStandby := false, trail := s.fw.trail &&& 31 } ∧ Keeps [.fw] s t)) ∧
      (s.flt.serving = false → ∃ x, x.flt = { s.flt with serving := true } ∧ x.fw.noStandby = false ∧ Keeps [.fw, .flt] s x ∧
        exec .standbyRebootDone s = .next (x.failover 1).settle))) ∧
 (∀ (s : State) (a : BitVec 12), s.out.fuseBurn = some a →
    (∃ t, exec (.fusePgAck false) s = .next t ∧
      (∀ i, i < 4096 → t.boot.fuses.getLsbD i = (s.boot.fuses.getLsbD i || decide (i = a.toNat))) ∧
      t.boot = { s.boot with fuses := t.boot.fuses } ∧
      (t.fusedCount < s.fw.burnTo → t.fw = s.fw ∧ ∀ i, i < 63 → t.boot.fuses.getLsbD (3080 + i) = false →
        (∀ j, j < i → t.boot.fuses.getLsbD (3080 + j) = true) → t.out.fuseBurn = some (BitVec.ofNat 12 (3080 + i))) ∧
      (s.fw.burnTo ≤ t.fusedCount → t.out.fuseBurn = none ∧ t.fw = { s.fw with burnTo := 0 }) ∧ Keeps [.boot, .fw, .out] s t) ∧
    (∃ t, exec (.fusePgAck true) s = .next t ∧ t.fw = { s.fw with fuseFail := true, burnTo := 0 } ∧
      t.out = { s.out with fuseBurn := none } ∧ t.evt = (s.event 0x1102 srcSlice [s.fusedCount]).evt ∧
      Keeps [.evt, .fw, .out] s t))

/-- Reads of the wedging pass and of SCRUB (R15, R16, R125, R299, R327 to R330, R337, R341). An interval reads one more row
of every physical bank that is not skipped, the spare banks among them, and of every directory slice; a SCRUB whose banks
have been read whole is done; a transient counts for its kind in FLT_TRANS and in the Life Record; a lasting fault is
handled. A row of 66 columns whose two words both hold even parity changes nothing; one that fails is read once more, and
is a transient when it then holds, else a lasting fault. TRANS_STORM reports a bank, a directory slice, a port or an AUU
that has had STORM transients in the last hour, and counts them anew; of any other unit it reports nothing. -/
def Obligations.FaultsAreFoundAndCounted : Prop :=
  ∀ (s : State) (u : FaultUnit) (d : Nat) (rows : Table Nat) (first second : BitVec 66),
    let mine := fun (v : FaultUnit) (p : FaultUnit × Nat) => p.1 == v && decide (s.ckp.eclk < p.2 + hourCycles)
    let even := fun (row : BitVec 66) => ∀ w, w < 2 →
      ((List.range 33).filter (fun i => row.getLsbD (33 * w + i))).length % 2 = 0
    (s.flt.wedgeEn = true → s.flt.scrubs = [] → (∃ b, b < 272 ∧ tget 0 s.flt.rows b < 66559) →
      Does (.wedgingRead .pass) s (fun t => (∀ b, b < 272 → tget 0 t.flt.rows b =
        if s.bankSkips b = true ∨ 66560 ≤ tget 0 s.flt.rows b then tget 0 s.flt.rows b else tget 0 s.flt.rows b + 1) ∧
        (∀ sh, sh < 16 → tget 0 t.flt.rows (272 + sh) = if s.wedgeSkips sh = true ∨ 73728 ≤ tget 0 s.flt.rows (272 + sh)
          then tget 0 s.flt.rows (272 + sh) else tget 0 s.flt.rows (272 + sh) + 1) ∧
        t.flt = { s.flt with rows := t.flt.rows } ∧ Keeps [.flt] s t)) ∧
    (s.flt.wedgeEn = false → s.flt.scrubs = [(d, rows)] →
      allRead (s.scrubBanks (s.ctx d).desc) (s.readBanks (s.scrubBanks (s.ctx d).desc) rows) = true →
      Does (.wedgingRead .pass) s (fun t => t.flt = { s.flt with scrubs := [] } ∧
        t.ctx d = { s.ctx d with phase := .done, status := stOk, detail := 0, need := [], out := 0 } ∧ Keeps [.cmds, .flt] s t)) ∧
    (s.flt.wedgeEn = false → s.flt.scrubs = [] →
      Does (.wedgingRead (.transient u)) s (fun t =>
        tget 0 t.flt.trans (kindOf u) = satAdd (tget 0 s.flt.trans (kindOf u)) 1 ∧
        (∀ k, k ≠ kindOf u → tget 0 t.flt.trans k = tget 0 s.flt.trans k) ∧
        tget 0 t.life.trans (kindOf u) = tget 0 s.life.trans (kindOf u) + 1 ∧ t.life.changed = true ∧
        Keeps [.free, .pmu, .flt, .life] s t) ∧
      exec (.wedgingRead (.lasting u)) s = .next (s.lastingFault u).settle ∧
      (even first → exec (.wedgingRead (.reads u first second)) s = .next s.settle) ∧
      (¬even first → even second →
        exec (.wedgingRead (.reads u first second)) s = exec (.wedgingRead (.transient u)) s) ∧
      (¬even first → ¬even second →
        exec (.wedgingRead (.reads u first second)) s = exec (.wedgingRead (.lasting u)) s)) ∧
    (∀ v, stormUnit u = some v → s.flt.storm ≠ 0 → s.flt.storm.toNat ≤ (s.flt.perUnit.filter (mine v)).length →
      ∃ t, exec (.transStorm u) s = .next t ∧
        t.flt = { s.flt with perUnit := s.flt.perUnit.filter (fun p => !mine v p) } ∧
        t.evt = (s.event 0x0E01 srcSlice (unitWords v)).evt ∧ Keeps [.evt, .flt] s t) ∧
    (stormUnit u = none → exec (.transStorm u) s = .next s)

/-- Sparing, the heartbeat, the Life Record's write (R335, R338, R346, R415). The oldest sparing work ends, its
SPARE_SWAP with OK, and a spare sequencer serves its half, enabled and locked, with the event 0x0B04. A silent core
fails over, or with nobody to take over it no longer serves, with the event 0x0E05; in retention the watch pauses. A
write of the Life Record takes the next slot and number, and leaves nothing to write; one that fails keeps what
accumulated, and sets FAIL with the event 0x0E0A. -/
def Obligations.SparingFailoverAndLifeRecord : Prop :=
  ∀ (s : State),
    (∀ w rest c, s.flt.work = w :: rest → s.home.held = [] → w.ctx = some c → (s.ctx c).phase = .acting →
      Does .spareDone s (fun t => t.flt.work = rest ∧
        t.ctx c = { s.ctx c with phase := .done, status := stOk, detail := 0, need := [], out := 0 })) ∧
    (∀ w rest h, s.flt.work = w :: rest → s.home.held = [] → w.unit = .sequencer h → w.ctx = none →
      Does .spareDone s (fun t =>
      t.flt.work = rest ∧ t.kiln.spareServes = some h ∧ t.kiln.deadSeqs = s.kiln.deadSeqs.filter (· != h) ∧
      t.ckp.clken1.getLsbD 6 = true ∧ t.ckp.lock1.getLsbD 6 = true ∧
      t.evt = (s.event 0x0B04 (srcHalf h) [match h with
        | .a => 0
        | .b => 1]).evt ∧ Keeps [.evt, .shelves, .kiln, .flt, .ckp] s t)) ∧
    (exec (.heartbeatTimeout true) s = .next (s.lastingFault .mgmtCore).settle) ∧
    (s.ckp.mgmtRet = true → exec (.heartbeatTimeout false) s = .next s) ∧
    (s.ckp.mgmtRet = false → s.alone = true → ∃ t, exec (.heartbeatTimeout false) s = .next t ∧
      t.flt = { s.flt with serving := false } ∧ t.evt = (s.event 0x0E05 srcSlice (unitWords .mgmtCore)).evt ∧
      Keeps [.evt, .flt] s t) ∧
    (s.ckp.mgmtRet = false → s.alone = false → exec (.heartbeatTimeout false) s = .next (s.failover 2).settle) ∧
    (s.life.changed = true →
      (∃ t, exec (.lifeRecordWrite true) s = .next t ∧ t.life.slot = s.life.slot + 1 ∧ t.life.writeSeq = s.life.writeSeq + 1 ∧
        t.life.hist = [] ∧ t.life.fwHist = [] ∧ t.life.changed = false ∧ t.life.fail = s.life.fail ∧ Keeps [.life] s t) ∧
      (∃ t, exec (.lifeRecordWrite false) s = .next t ∧ t.life.slot = s.life.slot + 1 ∧ t.life.fail = true ∧
        t.life.hist = s.life.hist ∧ t.life.fwHist = s.life.fwHist ∧ t.life.changed = true ∧
        t.evt = (s.event 0x0E0A srcSlice [(s.life.slot + 1).toNat]).evt ∧ Keeps [.free, .evt, .life] s t)) ∧
    (s.life.changed = false → ∀ v, exec (.lifeRecordWrite v) s = .next s)

/-! ### Pair mode -/

/-- Mirror frames (R65, R115, R175, R372, R376 to R378, R383, R387). In pair configuration a frame that comes in acts
on its line as the twin's write, reclaim or copy: MWR and MRSYNC write the line, the first as answer of a write
forwarded from here too; MFWD counts its bytes for its cone and enters its line's queue here, or is answered with MPOISON where it is no write of an
M-class region; MRECLAIM invalidates; MACK lets what waited for it go on; MPOISON gives the one whose write was
forwarded Poison; MCFG is kept, and an entry like the slice's own changes nothing more. -/
def Obligations.MirrorFramesAct : Prop :=
  ∀ (s : State) (line : LineIx) (mask : Mask) (data : Line) (tag : Nat) (res : Option (BitVec 128)) (w : FwdWrite),
    s.cfg.pairEn = true →
    let comes := fun (c : Instr) (f : State → State) => ∃ x, Keeps [.free, .pmu, .flt, .life, .links] s x ∧
      exec c s = .next (f x).settle
    let mclass := match s.regionAt (lineAddr (Hdr.line w.hdr)) with
      | some (_, g) => Region.pclass g == pcM
      | none => false
    let carries := fun (f : State → State) => ∃ x, (∀ k, (x.mon k).bytes = (s.mon k).bytes + if k = (Hdr.cone w.hdr).toNat then
        (if Hdr.msg w.hdr = mAtom then w.plen else 128) else 0) ∧
      Keeps [.free, .cone, .pmu, .flt, .life, .links] s x ∧ exec (.mfwd w tag) s = .next (f x).settle
    (s.tooLate line = false →
      comes (.mwr line mask data tag res) (fun x => x.dispatch { mkReq (if mask = fullMask then .wrL else .wrP)
        (.mirror tag (s.forwards tag line) res) line 0 with mask := mask, data := data } false) ∧
      comes (.mreclaim line tag) (fun x => x.dispatch (mkReq .inv (.mirror tag false none) line 0) false)) ∧
    (s.tooLate line = true → comes (.mwr line mask data tag res) id ∧ comes (.mreclaim line tag) id) ∧
    comes (.mrsync line data) (fun x => x.dispatch { mkReq .wrL (.mirror (syncTag line) false none) line 0 with
      mask := fullMask, data := data } false) ∧
    (∀ r, fwdReq w tag = some r → mclass = true → carries (fun x => x.dispatch r false)) ∧
    (fwdReq w tag = none ∨ mclass = false → carries (fun x => x.mirrorSend (Hdr.line w.hdr) (.mpoison tag))) ∧
    (∀ v, s.mwait tag (fun v => !v.isForward) = some v →
      comes (.mack tag) (fun x => (x.dropWait tag (fun v => !v.isForward)).acknowledged v)) ∧
    (s.mwait tag (fun v => !v.isForward) = none → comes (.mack tag) id) ∧
    (∀ r id p, s.mwait tag MWait.isForward = some (.forward r) → r.who = .agent id p → Does (.mpoison tag) s (fun t =>
      s.Sends t { msgTo (some p) id r.line r.txn r.cone mPoison with born := some r.born } ∧
      t.home = { s.home with bridge := t.home.bridge } ∧ t.pair = { s.pair with waits := dropFirst (fun q => q.1 == tag && MWait.isForward q.2) s.pair.waits } ∧
      Keeps [.free, .home, .cone, .pmu, .flt, .pair, .life, .ckp, .links, .out] s t)) ∧
    (∀ (i : Fin 256) (e : BitVec 256),
      (s.cfg.mEntry i.val = e → s.pair.unmatched.getLsbD i.val = false → Does (.mcfg i e) s (fun t =>
        t.pair = { s.pair with twinM := tset 0 s.pair.twinM i.val e } ∧ Keeps [.free, .pmu, .flt, .pair, .life, .links] s t)) ∧
      comes (.mcfg i e) (fun x =>
        ({ x with pair := { x.pair with twinM := tset 0 x.pair.twinM i.val e } } : State).compareEntry i.val e))

/-- The link between the twins (R369, R373, R380 to R383, R385, R387, R389). HELLO goes out on every mirror port that is up
and runs, unless the link is lost, and the writers are judged; one of incompatible versions takes the link down and sets
MISMATCH with the event 0x1001. A lost link leaves every M-class region solo where this slice holds its lease and fenced
elsewhere; the delay of R382 lets solo regions perform writes; a fence walk ends once no copy remains, and what was held
goes on, else the walk goes on; a lease that expires is gone, or is noted in a quench. Without PAIR_EN none of these
changes anything. -/
def Obligations.PairLinkIsKept : Prop :=
  ∀ (s : State) (h : Hello) (i : Fin 256),
    let ups := fun (n : Nat) => n < 2 ∧ s.pair.ports.getLsbD n = true ∧ s.farOn n = true
    (s.cfg.pairEn = false → ∀ c ∈ [Instr.helloSend, .hello h, .mirrorTimeout, .soloDelayExpiry, .fenceWalkDone i, .leaseExpiry i],
      exec c s = .next s) ∧
    (s.cfg.pairEn = true →
      (s.pair.lost = false → (∃ n, ups n) → ∃ x, exec .helloSend s = .next x.judge.settle ∧
        x.pair = { s.pair with told := s.helloOf.leases } ∧
        (∀ n, ¬ups n → x.far n = s.far n) ∧
        (∀ n, ups n → (x.far n).txSeq = (s.far n).txSeq + 1 ∧
          (x.far n).buffer = (s.far n).buffer ++ [((s.far n).txSeq, MFrame.hello s.helloOf)] ∧
          ((s.far n).buffer.length < 64 → (s.far n).unsent ≤ (s.far n).txSeq →
            (∀ w ∈ s.flt.work, ∀ k l, w.unit = .farLane k l → k.val ≠ n) → (n, MFrame.hello s.helloOf) ∈ x.out.mirror)) ∧
        Keeps [.pmu, .pair, .links, .out] s x) ∧
      ((∀ n, ¬ups n) → exec .helloSend s = .next s.settle) ∧
      (s.pair.lost = true → exec .helloSend s = .next s.settle) ∧
      (s.compatible h = false → Does (.hello h) s (fun t => t.pair = { s.pair with twinVer := h.ver, twin := some h
                                                                                   link := 0, mismatch := true } ∧
        t.evt = (s.event 0x1001 srcSlice [h.ver.toNat]).evt ∧ Keeps [.free, .evt, .pmu, .flt, .pair, .life, .links] s t)) ∧
      (∃ x, Keeps [.free, .pmu, .flt, .life, .links] s x ∧ exec (.hello h) s = .next (x.takeHello h).settle) ∧
      (s.pair.lost = false → Does .mirrorTimeout s (fun t => t.pair.lost = true ∧ t.pair.everLost = true ∧ t.pair.link = 0 ∧
        ∀ k : Fin 256, k.val ∈ s.cfg.mIndexes → if s.helloOf.leases.getLsbD k.val then t.pair.solo.getLsbD k.val = true ∧
          t.pair.fenced.getLsbD k.val = false else t.pair.fenced.getLsbD k.val = true)) ∧
      (s.pair.lost = true → ∃ x, exec .soloDelayExpiry s = .next x.releaseHeld.settle ∧
        x.pair = { s.pair with delayed := true, soloReady := s.pair.solo } ∧ Keeps [.pair] s x) ∧
      (s.pair.walking.getLsbD i.val = true → s.heldLines i.val = [] → ∃ x,
        exec (.fenceWalkDone i) s = .next x.releaseHeld.settle ∧
        x.pair = { s.pair with walking := setBit s.pair.walking i.val false } ∧ Keeps [.pair] s x) ∧
      (s.pair.walking.getLsbD i.val = true → s.heldLines i.val ≠ [] →
        exec (.fenceWalkDone i) s = .next (s.fenceWalk i.val).settle) ∧
      (s.pair.leases.any (fun p => p.1 == i.val) = true →
        (s.quenching = true → Does (.leaseExpiry i) s (fun t =>
          t.pair = { s.pair with expired := setBit s.pair.expired i.val true } ∧ Keeps [.pair] s t)) ∧
        (s.quenching = false → (s.pair.lost && s.pair.solo.getLsbD i.val) = false → Does (.leaseExpiry i) s (fun t =>
          t.pair = { s.pair with leases := tdel s.pair.leases i.val } ∧ Keeps [.pair] s t)) ∧
        (s.quenching = false → s.pair.lost = true → s.pair.solo.getLsbD i.val = true → ∃ x,
          x.pair = { s.pair with leases := tdel s.pair.leases i.val } ∧ Keeps [.pair] s x ∧
          exec (.leaseExpiry i) s = .next (x.fenceStart i.val).settle)))

/-! ### Monitors and counters -/

/-- Ends of windows (R108, R113, R322 to R325). A guarantee window that was spoiled is discarded; a judged one writes
its counts, raises the latency miss, and the bandwidth miss of a cone that was backlogged throughout; the next one
starts from 0. The allocation that makes a cone's count reach THRESH marks the cone with the event 0x0402; a thrash
window's end lifts a mark after 16 windows under a quarter of it, and the counts start again. An expired stream entry is
free. -/
def Obligations.WindowsAreJudged : Prop :=
  ∀ (s : State) (cone : Fin 8) (sh : Fin 16),
    let c := cone.val
    let m := s.mon c
    let others := fun (t : State) => ∀ k, k ≠ c → t.mon k = s.mon k
    let spoilt := !s.cone.monEn || s.quenching || s.ckp.coolActive
    (s.active = true → (m.spoiled = true ∨ s.cone.monEn = false) → Does (.coneWindowEnd cone) s (fun t =>
      t.mon c = { m with bytes := 0, reqs := 0, late := 0, spoiled := spoilt } ∧ others t ∧ t.cone.miss = s.cone.miss ∧
      Keeps [.cone] s t)) ∧
    (s.active = true → m.spoiled = false → s.cone.monEn = true → Does (.coneWindowEnd cone) s (fun t =>
      t.mon c = { bytes := 0, reqs := 0, late := 0, spoiled := spoilt, outBytes := BitVec.ofNat 48 m.bytes
                  outReqs := BitVec.ofNat 32 (min m.reqs (2 ^ 32 - 1)), outOver := BitVec.ofNat 32 (min m.late (2 ^ 32 - 1)) } ∧
      others t ∧ (s.latMiss c = true → t.cone.miss.getLsbD (8 + c) = true) ∧
      (s.bwMiss c true = true → s.cone.sawWait.getLsbD c = true → s.cone.sawIdle.getLsbD c = false →
        s.waitingCones.getLsbD c = true → t.cone.miss.getLsbD c = true) ∧
      (s.latMiss c = false → t.cone.miss.getLsbD (8 + c) = s.cone.miss.getLsbD (8 + c)) ∧
      (s.bwMiss c true = false → t.cone.miss.getLsbD c = s.cone.miss.getLsbD c) ∧ Keeps [.free, .evt, .cone] s t)) ∧
    (let h := s.shelf sh.val
      let n := fun (k : Nat) => tget 0 h.thrash k
      let calm := fun (k : Nat) => h.pour.getLsbD k = true ∧ n k < h.thresh.toNat / 4
      (∀ k : BitVec 3,
        let t := s.thrashCount sh.val k
        let hits := h.thresh ≠ 0 ∧ n k.toNat + 1 = h.thresh.toNat
        (∀ j, tget 0 (t.shelf sh.val).thrash j = n j + if j = k.toNat then 1 else 0) ∧
        (hits → (∀ j, j < 8 → (t.shelf sh.val).pour.getLsbD j = (h.pour.getLsbD j || decide (j = k.toNat))) ∧
          tget 0 (t.shelf sh.val).calm k.toNat = 0 ∧ t.evt = (s.event 0x0402 sh.val [k.toNat]).evt) ∧
        (¬hits → (t.shelf sh.val).pour = h.pour ∧ t.evt = s.evt) ∧
        (∀ j, j ≠ sh.val → t.shelf j = s.shelf j) ∧ Keeps [.evt, .shelves] s t) ∧
      Does (.thrashWindowEnd sh) s (fun t =>
        (t.shelf sh.val).thrash = [] ∧ (∀ j, j ≠ sh.val → t.shelf j = s.shelf j) ∧
        (∀ k, k < 8 → (t.shelf sh.val).pour.getLsbD k = (h.pour.getLsbD k && !decide (calm k ∧ 16 ≤ tget 0 h.calm k + 1)) ∧
          tget 0 (t.shelf sh.val).calm k = (if h.pour.getLsbD k then
            (if calm k ∧ tget 0 h.calm k + 1 < 16 then tget 0 h.calm k + 1 else 0) else tget 0 h.calm k)) ∧
        Keeps [.shelves] s t)) ∧
    (∀ i : Fin 32, ∃ t, exec (.streamExpiry sh i) s = .next t ∧
      t.shelf sh.val = { s.shelf sh.val with streams := (s.shelf sh.val).streams.eraseIdx i.val } ∧
      (∀ j, j ≠ sh.val → t.shelf j = s.shelf j) ∧ Keeps [.shelves] s t)

/-! ### Sleep, clocks, power -/

/-- Sleep and wake (R27, R32, R410 to R415, R445). An idle shelf dozes and its wake lets it serve; a half whose
shelves all doze asks its enabled ports to sleep, enters once every one has acknowledged, stays awake when one
refuses, and is retained with its supply at the retention level and its sources stopped; a wake that is asked for
raises the supply, locks the source and restores the half, with every shelf awake; then the messages that waited in the
seam bridge and the requests that were held go on, and an access that its sleep held is performed. An entry waits for the
sparing in its half (R347). The other half stays as it is. -/
def Obligations.HalvesSleepAndWake : Prop :=
  ∀ (s : State) (sh : Fin 16) (half : Half) (port : SleepPort),
    let c := s.half half
    let ports := s.enabledPorts half
    let other := fun (t : State) => ∀ h, h ≠ half → t.half h = s.half h
    let levels := fun (t : State) => match half with
      | .a => (t.out.vreqA, t.out.pllA)
      | .b => (t.out.vreqB, t.out.pllB)
    let level := levels s
    let clocked := s.ckp.dozeIdle ≠ 0 ∧ (s.half (shelfHalf sh.val)).st = .awake ∧ s.dozeBar sh.val = false ∧
      s.shelfWanted sh.val = false
    (clocked → ∃ t, exec (.shelfDoze sh) s = .next t ∧
      t.ckp = { s.ckp with doze := setBit s.ckp.doze sh.val true } ∧ Keeps [.ckp] s t) ∧
    (¬clocked → exec (.shelfDoze sh) s = .next s) ∧
    (s.ckp.doze.getLsbD sh.val = true → (s.half (shelfHalf sh.val)).st = .awake → ∃ x,
      exec (.shelfWakeDone sh) s = .next x.releaseHeld.settle ∧
      x.ckp = { s.ckp with doze := setBit s.ckp.doze sh.val false } ∧ Keeps [.free, .pmu, .ckp] s x) ∧
    (s.retMay half = true → ∃ t, exec (.halfRetentionStart half) s = .next t ∧
      t.half half = { c with st := if ports = [] then .entering else .asking, acks := [], wakeAsked := false } ∧ other t ∧
      t.out = { s.out with slpReq := s.out.slpReq ++ ports } ∧ Keeps [.ckp, .out] s t) ∧
    (sleepHalf port = half → c.st = .asking →
      (∃ t, exec (.xSlpAck port) s = .next t ∧ t.half half = { c with
        acks := c.acks ++ [port], st := if ports.all (fun p => (c.acks ++ [port]).contains p) then .entering else .asking } ∧
        other t ∧ Keeps [.ckp] s t) ∧
      (∃ t, exec (.xSlpNak port) s = .next t ∧ t.half half = { c with st := .awake, acks := [], wakeAsked := false } ∧ other t ∧
        t.out = { s.out with slpReq := s.out.slpReq.filter (fun p => sleepHalf p != half) } ∧ Keeps [.ckp, .out] s t)) ∧
    (c.st = .entering → s.fittingIn half = true → exec (.retentionEntryDone half) s = .next s) ∧
    (c.st = .entering → s.fittingIn half = false → ∃ t, exec (.retentionEntryDone half) s = .next t ∧ t.half half = { c with st := .retained } ∧ other t ∧
      levels t = (1, 0) ∧ Keeps [.ckp, .out] s t) ∧
    (sleepHalf port = half → c.st = .retained → ∃ t, exec (.xWake port) s = .next t ∧
      t.half half = { c with wakeAsked := true } ∧ other t ∧ Keeps [.ckp] s t) ∧
    (sleepHalf port = half → c.st = .entering → ∃ t, exec (.xWake port) s = .next t ∧ other t ∧ Keeps [.free, .ckp, .out] s t ∧
      (t.half half = { c with wakeAsked := true } ∨
        (c.wakeAsked = false ∧ s.ckp.coolActive = false ∧ t.half half = { c with st := .awake, acks := [] }))) ∧
    (c.st = .retained → c.wakeAsked = true →
      (s.ckp.coolActive = false → ∃ t, exec (.halfWake half) s = .next t ∧
        t.half half = { c with st := .vddUp, wakeAsked := false } ∧ t.ckp.mgmtRet = false ∧ other t ∧
        levels t = (2, level.2) ∧ Keeps [.ckp, .out] s t) ∧
      (s.ckp.coolActive = true → exec (.halfWake half) s = .next s)) ∧
    (c.st = .vddUp → ∃ t, exec (.hlfVok half) s = .next t ∧ t.half half = { c with st := .locking } ∧ other t ∧
      levels t = (level.1, if c.cur then 2 else 1) ∧ Keeps [.ckp, .out] s t) ∧
    (c.st = .locking → ∃ t, exec (.hlfPllok half) s = .next t ∧ t.half half = { c with st := .restoring } ∧ other t ∧
      Keeps [.ckp] s t) ∧
    (c.st = .restoring → s.ckp.coolActive = false → s.ep.goWaits = false → ∃ x,
      x.half half = { c with st := .awake, acks := [], wakeAsked := false, recovering := false } ∧ other x ∧
      (∀ i, i < 16 → x.ckp.doze.getLsbD i = (s.ckp.doze.getLsbD i && decide (shelfHalf i ≠ half))) ∧
      Keeps [.free, .pmu, .ckp, .links, .out] s x ∧
      let y := x.releaseBridge.releaseHeld
      (s.apb.held = none → exec (.halfWakeDone half) s = .next y.settle) ∧
      (∀ a, s.apb.held = some a → exec (.halfWakeDone half) s =
        .next (if pageHalf (a.addr.toNat / 0x1000) = some half then y.perform a else y).settle)) ∧
    ((s.half .a).st = .retained → (s.half .b).st = .retained → s.ckp.retCfg.getLsbD 18 = true →
      (∀ n, n < 16 → (s.ring n).en = false) → s.fw.stage ≠ .loading → ∃ t, exec .mgmtRetention s = .next t ∧
        t.ckp = { s.ckp with mgmtRet := true } ∧ Keeps [.ckp] s t)

/-- Clock sources, pulse skipping and the coolant stop (R407 to R409, R417, R418, R422 to R424). A finished switch
takes the source that SEL names; a hung one and a lost FCLK set their flag with their event and recover the half: it
is retained, on the other source, its wake is asked for and a quench forced; under a coolant stop the recovery waits,
and a half that is recovering already has lost its backing ports; one that is not clocked is not watched. The skip ratio, droop and its hold follow their
commands. A coolant stop takes both halves into retention and spoils the guarantee windows; after its hold both halves
wake. -/
def Obligations.ClocksFollowTheirInputs : Prop :=
  ∀ (s : State) (half : Half) (k : BitVec 6),
    let c := s.half half
    let set := fun (i : Instr) (r : HalfClk) => ∃ t, exec i s = .next t ∧ t.half half = r ∧
      (∀ h, h ≠ half → t.half h = s.half h) ∧ Keeps [.ckp] s t
    let recovers := fun (i : Instr) (code : Nat) (r : HalfClk) =>
      (s.ckp.coolActive = true → Does i s (fun t => t.half half = { r with recovering := true } ∧
        t.evt = (s.event code (srcHalf half) [halfIx half]).evt ∧ Keeps [.evt, .ckp] s t)) ∧
      (s.ckp.coolActive = false → s.quenching = false → s.fw.pauses = false → Does i s (fun t =>
        t.half half = { r with st := .retained, acks := [], switching := false, cur := !r.cur, recovering := true
                               wakeAsked := true } ∧
        t.evt = (s.event code (srcHalf half) [halfIx half]).evt ∧ t.ep.step = 1 ∧ t.ep.cause = 8 ∧
        Keeps [.free, .evt, .cone, .ep, .ckp, .out] s t))
    (c.switching = true → set (.muxSwitchDone half) { c with switching := false, cur := c.sel }) ∧
    (c.switching = true → recovers (.muxHung half) 0x1204 { c with hung := true }) ∧
    (c.switching = false → exec (.muxHung half) s = .next s ∧ exec (.muxSwitchDone half) s = .next s) ∧
    ((c.st = .awake ∨ (c.st = .asking ∧ c.recovering = false)) → recovers (.fclkLost half) 0x1205 { c with lost := true }) ∧
    (c.recovering = true → c.st ≠ .awake → Does (.fclkLost half) s (fun t => t.half half = { c with lost := true } ∧
      (∀ n, n < 4 → FaultUnit.backingPort (Fin.ofNat 8 (4 * halfIx half + n)) ∈ t.flt.portsDown) ∧ Keeps [.evt, .flt, .ckp] s t)) ∧
    (c.recovering = false → c.st ≠ .awake → c.st ≠ .asking → exec (.fclkLost half) s = .next s) ∧
    set (.skipRatioChange half k) { c with k := k } ∧ set (.droopAssert half) { c with droop := true, hold := true } ∧
    set (.droopDeassert half) { c with droop := false } ∧ set (.droopHoldExpiry half) { c with hold := c.droop } ∧
    (∃ t, exec .coolantStopAssert s = .next t ∧ t.ckp.coolStop = true ∧ t.ckp.coolActive = true ∧ t.ckp.coolSeen = true ∧
      t.ckp.coolHolding = false ∧ t.evt = (s.event 0x1207 srcSlice []).evt ∧
      (∀ h, (t.half h).st = if (s.half h).st = .retained then .retained else .entering) ∧
      (∀ n, n < 8 → (t.mon n).spoiled = true) ∧ t.out = { s.out with slpReq := [] } ∧ Keeps [.evt, .cone, .ckp, .out] s t) ∧
    (∃ t, exec .coolantStopDeassert s = .next t ∧
      t.ckp = { s.ckp with coolStop := false, coolHolding := s.ckp.coolActive } ∧ Keeps [.ckp] s t) ∧
    (s.ckp.coolHolding = true → s.ckp.coolStop = false → (∀ h, (s.half h).recovering = false) →
      ∃ t, exec .coolantHoldExpiry s = .next t ∧ t.ckp.coolHolding = false ∧ t.ckp.mgmtRet = false ∧
        (∀ h, t.half h = { s.half h with st := .vddUp, wakeAsked := false }) ∧
        t.out = { s.out with vreqA := 2, vreqB := 2 } ∧ Keeps [.ckp, .out] s t) ∧
    (s.ckp.coolHolding = true → s.ckp.coolStop = false → c.recovering = true → s.quenching = false → s.fw.pauses = false →
      ∃ t, exec .coolantHoldExpiry s = .next t ∧ (t.half half).st = .vddUp ∧ (t.half half).cur = !c.cur ∧ t.ep.step = 1 ∧
        t.ep.cause = 8 ∧ t.ckp.coolHolding = false ∧ Keeps [.free, .cone, .ep, .ckp, .out] s t)

/-- The power estimate, its calibration and the sensors (R345, R401, R403, R419 to R421, R425). A microsecond is 50
cycles of ECLK; FCLK of a half that runs counts the pulses that its skip pattern keeps of the source's, which the spec
leaves between two bounds (log 4), and of a half that does not run nothing; the raw estimate is the weighted activity
in units of 25 mW, either neighbour where that is not whole (log 7). A calibration ends its window; one of ten valid
measurements counts or clears the misses, sets DRIFT at the sixteenth, and without HOLD moves K by an eighth of the
way within its bounds. Sensor readings are kept, their millisecond counted in the bin of its voltage, and heat sets
THERM_HIGH. -/
def Obligations.PowerIsEstimated : Prop :=
  ∀ (s : State) (n : PowerCounts) (meas : BitVec 16) (valid : Bool) (va vb : BitVec 10) (ta tb : BitVec 8),
    let near := fun (q a b : Nat) => q = a / b ∨ (a % b ≠ 0 ∧ q = a / b + 1)
    Does (.activityEstimate n meas valid) s (fun t =>
      t.ckp.eclk = s.ckp.eclk + 50 ∧
      (∀ h, (s.half h).runs = false → t.half h = s.half h) ∧
      (∀ h, (s.half h).runs = true → ∃ p, 490 ≤ p ∧ p < 2296 ∧
        t.half h = { s.half h with fclk := (s.half h).fclk + kept (s.ratio h) (s.half h).pulse p
                                   pulse := ((s.half h).pulse + p) % 64 }) ∧
      t.life.age = (if t.ckp.eclk / hourCycles = s.ckp.eclk / hourCycles then s.life.age else s.life.age + 1) ∧
      (∃ q, near q (s.energy n) 25000000 ∧ t.ckp.raw = BitVec.ofNat 16 (min q 65535)) ∧
      t.ckp.meas = meas ∧ t.ckp.measValid = valid ∧ t.ckp.window = s.ckp.window ++ [(t.ckp.raw, meas, valid)] ∧
      (∃ q, near q (s.ckp.calK.toNat * t.ckp.raw.toNat) 16384 ∧ t.ckp.est = BitVec.ofNat 16 (min (if s.ckp.drift
        then max q meas.toNat + s.ckp.margin.toNat else q) 65535)) ∧
      Keeps [.free, .pmu, .life, .ckp] s t) ∧
    (∃ t, exec .calibration s = .next t ∧ t.ckp.window = [] ∧ Keeps [.free, .evt, .ckp] s t ∧
      let w := s.ckp.window
      let e := (w.map (fun x => x.1.toNat)).foldl (· + ·) 0
      let m := 16384 * (w.map (fun x => x.2.1.toNat)).foldl (· + ·) 0
      let ke := s.ckp.calK.toNat * e
      let judged := 10 ≤ w.length ∧ w.all (fun x => x.2.2) = true
      let off := m < 4 * (max ke m - min ke m)
      (¬judged → t.ckp = { s.ckp with window := [] } ∧ t.evt = s.evt) ∧
      (judged → ¬off → t.ckp.calMiss = 0 ∧ t.ckp.drift = s.ckp.drift ∧ t.evt = s.evt) ∧
      (judged → off → s.ckp.calMiss.toNat < 15 → t.ckp.calMiss = s.ckp.calMiss + 1 ∧ t.ckp.drift = s.ckp.drift ∧ t.evt = s.evt) ∧
      (judged → off → 15 ≤ s.ckp.calMiss.toNat → t.ckp.calMiss = 16 ∧ t.ckp.drift = true ∧
        (s.ckp.drift = false → t.evt = (s.event 0x1206 srcSlice [s.ckp.calK.toNat, s.ckp.raw.toNat, s.ckp.meas.toNat]).evt)) ∧
      (judged → (e = 0 ∨ s.ckp.calHold = true) → t.ckp.calK = s.ckp.calK) ∧
      (judged → e ≠ 0 → s.ckp.calHold = false → ∃ q, near q (7 * ke + m) (8 * e) ∧
        t.ckp.calK = BitVec.ofNat 16 (min (max q 8192) 32767))) ∧
    (∃ t, exec (.sensorRead va vb ta tb) s = .next t ∧ t.half .a = { s.half .a with v := va, t := ta } ∧
      t.half .b = { s.half .b with v := vb, t := tb } ∧
      t.ckp.thermHigh = (s.ckp.thermHigh || decide (105 < ta.toInt) || decide (105 < tb.toInt)) ∧
      (ta.toInt ≤ 105 → tb.toInt ≤ 105 → t.evt = s.evt) ∧
      tget 0 t.life.stressMs (voltBin (s.half .a) va.toNat) = tget 0 s.life.stressMs (voltBin (s.half .a) va.toNat) + 1 ∧
      tget 0 t.life.stressMs (4 + voltBin (s.half .b) vb.toNat) = tget 0 s.life.stressMs (4 + voltBin (s.half .b) vb.toNat) + 1 ∧
      Keeps [.evt, .life, .ckp] s t)
end

