-- ==== Sys2Proof/Laws/Access.lean ====
section
/-! SUPPORT. What an APB access does where it is served (R405, R414, R446), and what settles where nothing waits (log
29). -/
namespace Sys2Proof.Machine

@[simp] theorem State.wakeMgmt_half (s : State) (h : Half) : s.wakeMgmt.half h = s.half h := by cases h <;> rfl

/-- An access that is served is performed, with the management domain awake. -/
theorem access_served {s : State} {a : Held} {strb : BitVec 4} (h : s.Serves a.addr.toNat)
    (hb : s.wakeMgmt.apbBad a strb = false) : s.access a strb = s.wakeMgmt.perform a := by
  obtain ⟨h1, h2, h3, h4, h5⟩ := h
  have hg : s.wakeMgmt.pageGated (a.addr.toNat / 0x1000) = false := h4
  have hh : s.apb.held.isSome = false := by rw [h3]; rfl
  unfold State.access
  rw [if_neg (by simp [h1, h2, hh])]
  show (if s.wakeMgmt.apbBad a strb then _ else if s.wakeMgmt.pageGated (a.addr.toNat / 0x1000) then _ else _) = _
  rw [hb, hg]
  simp only [Bool.false_eq_true, if_false]
  cases hp : pageHalf (a.addr.toNat / 0x1000) with
  | none => rfl
  | some hf =>
    obtain ⟨ha, hd⟩ := h5 hf hp
    have hw : (s.wakeMgmt.half hf).st = .awake := by rw [State.wakeMgmt_half]; exact ha
    show s.wakeMgmt.accessHalf hf a = _
    unfold State.accessHalf
    dsimp only
    rw [if_pos (Or.inl hw), if_pos (Or.inl hw), if_neg]
    rintro ⟨hs, hz⟩
    have := hd hs
    rw [show s.wakeMgmt.ckp.doze = s.ckp.doze from rfl, this] at hz
    exact absurd hz (by decide)

theorem apbBad_word (s : State) (a : Held) (strb : BitVec 4) (h4 : a.addr.toNat % 4 = 0) (hs : a.write.isSome = true → strb = 15)
    (hp : pageAssigned (a.addr.toNat / 0x1000) = true) (hv : a.priv = true) : s.apbBad a strb = false := by
  unfold State.apbBad
  rw [h4, hp, hv]
  cases hw : a.write.isSome
  · rfl
  · rw [hs hw]; rfl

/-- A privileged write of a whole register at a served, assigned address. -/
theorem apbWrite_served {s : State} {addr : Nat} (v : Word) (hr : addr < 2 ^ 18) (h : s.Serves addr)
    (h4 : addr % 4 = 0) (hp : pageAssigned (addr / 0x1000) = true) :
    s.apbWrite addr v = (s.wakeMgmt.writeReg addr v).answer 0 false := by
  have e : (BitVec.ofNat 18 addr).toNat = addr := by rw [BitVec.toNat_ofNat, Nat.mod_eq_of_lt hr]
  unfold State.apbWrite
  rw [access_served (a := ⟨BitVec.ofNat 18 addr, some v, true⟩) (by simpa only [e] using h)
    (apbBad_word _ _ _ (by simpa only [e] using h4) (fun _ => rfl) (by simpa only [e] using hp) rfl)]
  simp only [State.perform, e]

/-- A privileged read at a served, assigned address. -/
theorem apbRead_served {s : State} {addr : Nat} (hr : addr < 2 ^ 18) (h : s.Serves addr)
    (h4 : addr % 4 = 0) (hp : pageAssigned (addr / 0x1000) = true) :
    s.apbRead addr true = ((s.wakeMgmt.readValue addr true).2.readEffect addr true).answer
      (s.wakeMgmt.readValue addr true).1 false := by
  have e : (BitVec.ofNat 18 addr).toNat = addr := by rw [BitVec.toNat_ofNat, Nat.mod_eq_of_lt hr]
  unfold State.apbRead
  rw [access_served (a := ⟨BitVec.ofNat 18 addr, none, true⟩) (by simpa only [e] using h)
    (apbBad_word _ _ _ (by simpa only [e] using h4) (fun h => by simp at h) (by simpa only [e] using hp) rfl)]
  simp only [State.perform, e]

/-- The register of a shelf's page. -/
theorem writeReg_shelf (s : State) (sh : Fin 16) (off : Nat) (ho : off < 0x1000) (v : Word) :
    s.writeReg (shfPage sh.val + off) v = s.writeShf sh.val off v := by
  have h1 : (shfPage sh.val + off) % 0x1000 = off := by unfold shfPage; omega
  have h2 : (shfPage sh.val + off) / 0x1000 = 0x10 + sh.val := by unfold shfPage; omega
  unfold State.writeReg
  rw [h1, h2]
  obtain ⟨k, hk⟩ := sh
  rcases k with _ | _ | _ | _ | _ | _ | _ | _ | _ | _ | _ | _ | _ | _ | _ | _ | k <;> first | rfl | omega

theorem readValue_shelf (s : State) (sh : Fin 16) (off : Nat) (ho : off < 0x1000) (p : Bool) :
    s.readValue (shfPage sh.val + off) p = (s.readShf sh.val off, s) := by
  have h1 : (shfPage sh.val + off) % 0x1000 = off := by unfold shfPage; omega
  have h2 : (shfPage sh.val + off) / 0x1000 = 0x10 + sh.val := by unfold shfPage; omega
  unfold State.readValue
  rw [h1, h2]
  obtain ⟨k, hk⟩ := sh
  rcases k with _ | _ | _ | _ | _ | _ | _ | _ | _ | _ | _ | _ | _ | _ | _ | _ | k <;> first | rfl | omega

theorem readEffect_shelf (s : State) (sh : Fin 16) (off : Nat) (ho : off < 0x1000) (p : Bool) :
    s.readEffect (shfPage sh.val + off) p = s.effectShf sh.val off := by
  have h1 : (shfPage sh.val + off) % 0x1000 = off := by unfold shfPage; omega
  have h2 : (shfPage sh.val + off) / 0x1000 = 0x10 + sh.val := by unfold shfPage; omega
  unfold State.readEffect
  rw [h1, h2]
  obtain ⟨k, hk⟩ := sh
  rcases k with _ | _ | _ | _ | _ | _ | _ | _ | _ | _ | _ | _ | _ | _ | _ | _ | k <;> first | rfl | omega

theorem freshAgents_none {s : State} (h : ∀ i, (s.shelf i).agentsOld = false) : s.freshAgents = s := by
  have go : ∀ l : List Nat, l.foldl (fun st i => if st.shelfUp i && (st.shelf i).agentsOld then
      st.modShelf i (fun h => { h with agents := s.agents.table, agentsOld := false }) else st) s = s := by
    intro l
    induction l with
    | nil => rfl
    | cons i l ih =>
      rw [List.foldl_cons, h i, Bool.and_false, if_neg Bool.false_ne_true]
      exact ih
  exact go _

theorem releaseBridge_none {s : State} (h : s.home.bridge = []) : s.releaseBridge = s := by
  obtain ⟨⟩ := s
  rename_i home _ _ _ _ _ _ _ _ _ _ _ _ _ _ _ _
  obtain ⟨⟩ := home
  cases h
  rfl

theorem syncGo_off {s : State} (h : s.pair.link ≠ 2) (n : Nat) : State.syncGo n s = s := by
  cases n with
  | zero => rfl
  | succ n =>
    have e : s.syncStep = none := by
      unfold State.syncStep
      exact if_pos h
    unfold State.syncGo
    rw [e]

theorem pumpRing_none {s : State} {n : Nat} (h : (s.ring n).held = [] ∧ (s.ring n).ctlDue = false) : s.pumpRing n = s := by
  unfold State.pumpRing
  rw [h.1]
  show (if (s.ring n).ctlDue then _ else s) = s
  rw [h.2, if_neg Bool.false_ne_true]

theorem pumpRings_none {s : State} (h : ∀ n, (s.ring n).held = [] ∧ (s.ring n).ctlDue = false) : s.pumpRings = s := by
  unfold State.pumpRings
  split
  · rfl
  · generalize s.rings.map Prod.fst = l
    induction l with
    | nil => rfl
    | cons n l ih => rw [List.foldl_cons, pumpRing_none (h n)]; exact ih

theorem markWaits_none {s : State} (h : s.home.cq = []) : s.markWaits = s := by
  unfold State.markWaits
  obtain ⟨⟩ := s
  rename_i home _ _ _ _ _ _ _ _ _ _ _ _ _ _ _ _
  obtain ⟨⟩ := home
  cases h
  rfl

/-- Where nothing waits to go on, settling only lets the guarantee windows look (log 29). -/
theorem settle_calm {s : State} (h : s.Calm) : s.settle = s.watchWaits := by
  obtain ⟨h1, h2, h3, h4, h5, h6, h7, h8⟩ := h
  have e1 : (if s.quenching then s else s.openOrder.foldl (fun st c => st.ctxRun c) s) = s := by
    rw [h3]; split <;> rfl
  unfold State.settle
  rw [freshAgents_none h1, releaseBridge_none h2]
  dsimp only
  rw [e1]
  rw [if_neg (by simp [h4])]
  have e2 : s.flipStep = s := by
    unfold State.flipStep
    exact if_pos (Or.inl (by simp [h4]))
  have e3 : s.trailStep = s := by
    unfold State.trailStep
    exact if_pos h5
  rw [e2, e3, State.syncNext, syncGo_off h6, pumpRings_none h7, markWaits_none h8]

end Sys2Proof.Machine
end

