-- ==== Sys2Proof/Laws/Tables.lean ====
section
/-! SUPPORT. Sparse tables keep their canonical form (twf) under every operation, and reading after writing. -/
namespace Sys2Proof.Machine

variable {α : Type}

theorem twf_iff [DecidableEq α] {d : α} {t : Table α} :
    twf d t = true ↔ (∀ p ∈ t, p.2 ≠ d) ∧ t.Pairwise (fun p q => p.1 < q.1) := by
  simp [twf, List.all_eq_true]

theorem twf_nil [DecidableEq α] (d : α) : twf d ([] : Table α) = true := by
  rw [twf_iff]; exact ⟨fun _ h => absurd h List.not_mem_nil, List.Pairwise.nil⟩

theorem twf_filter [DecidableEq α] {d : α} {t : Table α} (p : Nat × α → Bool) (h : twf d t = true) :
    twf d (t.filter p) = true := by
  rw [twf_iff] at h ⊢
  exact ⟨fun q hq => h.1 q (List.mem_filter.1 hq).1, h.2.filter p⟩

theorem twf_tdel [DecidableEq α] {d : α} {t : Table α} (k : Nat) (h : twf d t = true) : twf d (tdel t k) = true :=
  twf_filter _ h

theorem mem_tins {t : Table α} {k : Nat} {v : α} {q : Nat × α} (h : q ∈ tins t k v) : q = (k, v) ∨ q ∈ t := by
  induction t with
  | nil => exact .inl (List.mem_singleton.1 h)
  | cons p r ih =>
    obtain ⟨i, w⟩ := p
    rw [tins] at h
    split at h
    · rcases List.mem_cons.1 h with h | h
      · exact .inr (h ▸ List.mem_cons_self)
      · exact (ih h).imp id (List.mem_cons_of_mem _)
    · split at h
      · exact (List.mem_cons.1 h).imp id (List.mem_cons_of_mem _)
      · exact (List.mem_cons.1 h).imp id id

theorem twf_tins [DecidableEq α] {d : α} {t : Table α} {k : Nat} {v : α} (hv : v ≠ d) (h : twf d t = true) :
    twf d (tins t k v) = true := by
  rw [twf_iff] at h ⊢
  refine ⟨fun q hq => (mem_tins hq).elim (fun e => e ▸ hv) (h.1 q), ?_⟩
  have h2 := h.2
  clear h
  induction t with
  | nil => exact List.pairwise_singleton _ _
  | cons p r ih =>
    obtain ⟨i, w⟩ := p
    rw [List.pairwise_cons] at h2
    rw [tins]
    split
    · rename_i hi
      rw [List.pairwise_cons]
      exact ⟨fun q hq => (mem_tins hq).elim (fun e => e ▸ hi) (h2.1 q), ih h2.2⟩
    · split
      · rename_i hi
        exact List.pairwise_cons.2 ⟨fun q hq => hi ▸ h2.1 q hq, h2.2⟩
      · rename_i h1 h3
        have hk : k < i := by omega
        refine List.pairwise_cons.2 ⟨fun q hq => ?_, List.pairwise_cons.2 h2⟩
        rcases List.mem_cons.1 hq with e | e
        · exact e ▸ hk
        · exact Nat.lt_trans hk (h2.1 q e)

theorem twf_tset [DecidableEq α] {d : α} {t : Table α} (k : Nat) (v : α) (h : twf d t = true) :
    twf d (tset d t k v) = true := by
  rw [tset]
  split
  · exact twf_tdel k h
  · exact twf_tins (by assumption) h

theorem twf_tmod [DecidableEq α] {d : α} {t : Table α} (k : Nat) (f : α → α) (h : twf d t = true) :
    twf d (tmod d t k f) = true := twf_tset k _ h

theorem twf_foldl [DecidableEq α] {β : Type} {d : α} {f : Table α → β → Table α}
    (hf : ∀ t b, twf d t = true → twf d (f t b) = true) :
    ∀ (l : List β) (t : Table α), twf d t = true → twf d (l.foldl f t) = true
  | [], _, h => h
  | b :: l, t, h => twf_foldl hf l (f t b) (hf t b h)

/-! ### Reading after writing -/

theorem tget_tins (d : α) (t : Table α) (k j : Nat) (v : α) :
    tget d (tins t k v) j = if j = k then v else tget d t j := by
  induction t with
  | nil => simp only [tins, tget, eq_comm]
  | cons p r ih =>
    obtain ⟨i, w⟩ := p
    rw [tins]
    split
    · rw [tget, tget, ih]
      split
      · rw [if_neg (by omega)]
      · rfl
    · split
      · rename_i hi
        subst hi
        rw [tget, tget]
        by_cases hj : i = j
        · rw [if_pos hj, if_pos hj.symm]
        · rw [if_neg hj, if_neg (Ne.symm hj), if_neg hj]
      · rw [tget, tget]
        by_cases hj : k = j
        · rw [if_pos hj, if_pos hj.symm]
        · rw [if_neg hj, if_neg (Ne.symm hj)]

theorem tget_tdel (d : α) (t : Table α) (k j : Nat) : tget d (tdel t k) j = if j = k then d else tget d t j := by
  induction t with
  | nil => simp only [tdel, List.filter_nil, tget, ite_self]
  | cons p r ih =>
    obtain ⟨i, w⟩ := p
    rw [tdel] at ih ⊢
    rw [List.filter_cons]
    split
    · rename_i hi
      have hne : i ≠ k := by simpa using hi
      rw [tget, ih, tget]
      split
      · rw [if_neg (by omega)]
      · rfl
    · rename_i hi
      have he : i = k := by simpa using hi
      rw [ih, tget]
      split
      · rfl
      · rw [if_neg (by omega)]

/-- Reading a table after a write gives the value written at its key and what was there elsewhere. -/
theorem tget_tset [DecidableEq α] {d : α} {t : Table α} (k j : Nat) (v : α) :
    tget d (tset d t k v) j = if j = k then v else tget d t j := by
  rw [tset]
  split
  · rename_i hv
    rw [tget_tdel, hv]
  · exact tget_tins d t k j v

theorem tget_filter [DecidableEq α] (d : α) (t : Table α) (p : Nat → Bool) (j : Nat) :
    tget d (t.filter (fun c => p c.1)) j = if p j then tget d t j else d := by
  induction t with
  | nil => simp only [List.filter_nil, tget, ite_self]
  | cons c r ih =>
    obtain ⟨i, w⟩ := c
    rw [List.filter_cons]
    split
    · rename_i hi
      rw [tget, tget, ih]
      split
      · rename_i e
        rw [if_pos (e ▸ hi)]
      · rfl
    · rename_i hi
      rw [ih, tget]
      split
      · rename_i hp
        rw [if_neg (fun e => hi (by simpa [e] using hp))]
      · rfl

end Sys2Proof.Machine
end

