-- ==== Sys2Proof/Laws/Sound.lean ====
section
/-! SUPPORT. The rules by which the lemmas of Laws/ carry `State.Sound` through a meaning: a record update that leaves
the queue, the arrays, the clocks and the events alone keeps it, and one that changes them keeps it where their own
invariant is kept. Proofs over a meaning that begins with a match on a large term (a region, a place, an array) open it with
`delta` and `dsimp -zeta -iota only`, then `split`, since after `unfold` the kernel would evaluate that term. -/
namespace Sys2Proof.Machine

variable {q : List Instr}

theorem sound_of {s t : State} (e1 : t.pending = s.pending) (e2 : s.arr.wf = true → t.arr.wf = true)
    (e3 : s.ckp.locked = true → t.ckp.locked = true) (e4 : s.evt.bounded = true → t.evt.bounded = true)
    (h : s.Sound q) : t.Sound q :=
  ⟨e1.trans h.1, e2 h.2.1, e3 h.2.2.1, e4 h.2.2.2⟩

section
variable {s : State} {x_free x_boot x_apb x_syb x_glaze x_agents x_shelves x_dir x_home x_back x_rings x_cmds x_ranges
  x_tly x_cone x_pmu x_kiln x_flt x_ep x_pair x_fw x_life x_links x_out}

theorem sound_mk (h : s.Sound q) :
    State.Sound q (State.mk s.pending x_free x_boot x_apb s.evt x_syb x_glaze x_agents x_shelves s.arr x_dir x_home
      x_back x_rings x_cmds x_ranges x_tly x_cone x_pmu x_kiln x_flt x_ep x_pair x_fw x_life s.ckp x_links x_out) := h

theorem sound_ckp {k : Clocks} (h : s.Sound q) (hk : k.locked = s.ckp.locked) :
    State.Sound q (State.mk s.pending x_free x_boot x_apb s.evt x_syb x_glaze x_agents x_shelves s.arr x_dir x_home
      x_back x_rings x_cmds x_ranges x_tly x_cone x_pmu x_kiln x_flt x_ep x_pair x_fw x_life k x_links x_out) :=
  ⟨h.1, h.2.1, hk.trans h.2.2.1, h.2.2.2⟩

theorem sound_lock {k : Clocks} (h : s.Sound q) (hk : s.ckp.locked = true → k.locked = true) :
    State.Sound q (State.mk s.pending x_free x_boot x_apb s.evt x_syb x_glaze x_agents x_shelves s.arr x_dir x_home
      x_back x_rings x_cmds x_ranges x_tly x_cone x_pmu x_kiln x_flt x_ep x_pair x_fw x_life k x_links x_out) :=
  ⟨h.1, h.2.1, hk h.2.2.1, h.2.2.2⟩

theorem sound_arr {a : Arrays} (h : s.Sound q) (ha : s.arr.wf = true → a.wf = true) :
    State.Sound q (State.mk s.pending x_free x_boot x_apb s.evt x_syb x_glaze x_agents x_shelves a x_dir x_home
      x_back x_rings x_cmds x_ranges x_tly x_cone x_pmu x_kiln x_flt x_ep x_pair x_fw x_life s.ckp x_links x_out) :=
  ⟨h.1, ha h.2.1, h.2.2⟩

theorem sound_evt {e : Events} (h : s.Sound q) (he : s.evt.bounded = true → e.bounded = true) :
    State.Sound q (State.mk s.pending x_free x_boot x_apb e x_syb x_glaze x_agents x_shelves s.arr x_dir x_home
      x_back x_rings x_cmds x_ranges x_tly x_cone x_pmu x_kiln x_flt x_ep x_pair x_fw x_life s.ckp x_links x_out) :=
  ⟨h.1, h.2.1, h.2.2.1, he h.2.2.2⟩

end

theorem sound_foldl {α : Type} {f : State → α → State} (hf : ∀ s a, s.Sound q → (f s a).Sound q) :
    ∀ (l : List α) (s : State), s.Sound q → (l.foldl f s).Sound q
  | [], _, h => h
  | a :: l, s, h => sound_foldl hf l (f s a) (hf s a h)

theorem sound_foldlSnd {α β : Type} {f : β × State → α → β × State}
    (hf : ∀ p a, p.2.Sound q → (f p a).2.Sound q) : ∀ (l : List α) (p : β × State), p.2.Sound q → (l.foldl f p).2.Sound q
  | [], _, h => h
  | a :: l, p, h => sound_foldlSnd hf l (f p a) (hf p a h)

theorem sound_foldlFst {α β : Type} {f : State × β → α → State × β}
    (hf : ∀ p a, p.1.Sound q → (f p a).1.Sound q) : ∀ (l : List α) (p : State × β), p.1.Sound q → (l.foldl f p).1.Sound q
  | [], _, h => h
  | a :: l, p, h => sound_foldlFst hf l (f p a) (hf p a h)

theorem sound_ite {c : Prop} [Decidable c] {a b : State} (ha : c → a.Sound q) (hb : ¬c → b.Sound q) :
    (if c then a else b).Sound q := by
  by_cases h : c
  · rw [if_pos h]
    exact ha h
  · rw [if_neg h]
    exact hb h

theorem sound_id {s : State} (h : s.Sound q) : (id s).Sound q := h

theorem sound_snd {α : Type} {p : α × State} {a : α} {t : State} (e : p = (a, t)) (h : p.2.Sound q) : t.Sound q := by
  subst e; exact h

theorem sound_snd2 {α β : Type} {p : α × β × State} {a : α} {b : β} {t : State} (e : p = (a, b, t))
    (h : p.2.2.Sound q) : t.Sound q := by
  subst e; exact h

theorem post_next {P : State → Prop} {t : State} (h : P t) : Post P (.next t) := h
theorem post_fault {P : State → Prop} {f} : Post P (.fault f) := trivial
theorem post_refused {P : State → Prop} {f} : Post P (.refused f) := trivial

theorem postO_some {P : State → Prop} {t : State} (h : P t) : PostO P (some t) := h
theorem postO_none {P : State → Prop} : PostO P none := trivial
theorem postO_get {P : State → Prop} {o : Option State} {t : State} (e : o = some t) (h : PostO P o) : P t := by
  subst e; exact h

theorem sound_getD {o : Option State} {d : State} (h : PostO (State.Sound q) o) (hd : d.Sound q) :
    (o.getD d).Sound q := by
  cases o with
  | none => exact hd
  | some t => exact h

theorem lock_or {n : Nat} (l x : BitVec n) : l &&& ~~~(x ||| l) = 0#n := by
  ext i hi
  simp only [BitVec.getElem_and, BitVec.getElem_not, BitVec.getElem_or, BitVec.getElem_zero]
  cases l[i] <;> simp

theorem lock_or_or {n : Nat} (l x b : BitVec n) (h : l &&& ~~~x = 0#n) : (l ||| b) &&& ~~~(x ||| b) = 0#n := by
  ext i hi
  have := congrArg (fun v => v[i]) h
  simp only [BitVec.getElem_and, BitVec.getElem_not, BitVec.getElem_or, BitVec.getElem_zero] at this ⊢
  revert this
  cases l[i] <;> cases x[i] <;> cases b[i] <;> simp

theorem lock_more {n : Nat} (l x b : BitVec n) (h : l &&& ~~~x = 0#n) : l &&& ~~~(x ||| b) = 0#n := by
  ext i hi
  have := congrArg (fun v => v[i]) h
  simp only [BitVec.getElem_and, BitVec.getElem_not, BitVec.getElem_or, BitVec.getElem_zero] at this ⊢
  revert this
  cases l[i] <;> cases x[i] <;> cases b[i] <;> simp

theorem lock_setBit {n : Nat} (l x : BitVec n) (i : Nat) (h : l &&& ~~~x = 0#n) : l &&& ~~~(setBit x i true) = 0#n :=
  lock_more _ _ _ h

theorem locked_or {k k' : Clocks} (b : BitVec 22) (l0 : k'.lock0 = k.lock0) (c0 : k'.clken0 = k.clken0)
    (l1 : k'.lock1 = k.lock1 ||| b) (c1 : k'.clken1 = k.clken1 ||| b) (h : k.locked = true) : k'.locked = true := by
  simp only [Clocks.locked, Bool.and_eq_true, beq_iff_eq] at h ⊢
  rw [l0, c0, l1, c1]
  exact ⟨h.1, lock_or_or _ _ _ h.2⟩

theorem wf_iff {a : Arrays} : a.wf = true ↔
    twf 0 a.bytes = true ∧ twf false a.poison = true ∧ twf Tag.empty a.tags = true ∧ twf 0 a.frameTree = true
      ∧ twf 0 a.tagTree = true := by
  simp only [Arrays.wf, Bool.and_eq_true, and_assoc]

theorem twf_setBytes (a : Nat) (m : Mask) : ∀ (bs : List Byte) (i : Nat) {t : List Host.Cell}, twf 0 t = true →
    twf 0 (setBytes t a bs m i) = true
  | [], _, _, h => h
  | b :: r, i, t, h => by
    rw [setBytes]
    refine twf_setBytes a m r (i + 1) ?_
    split
    · exact twf_tset _ _ h
    · exact h

end Sys2Proof.Machine
end

