-- ==== Sys2Proof/Laws/Keeps.lean ====
section
/-! SUPPORT. The rules by which the lemmas `keeps_<operation>` of Laws/ say which fields of the state an operation may
change, and one lemma per record update of the model. -/
namespace Sys2Proof.Machine

variable {ps qs : List Field} {s t u : State}

theorem same_trans {p : Field} (h : s.same t p) (k : t.same u p) : s.same u p := by
  cases p <;> exact Eq.trans k h

theorem keeps_refl (s : State) : Keeps ps s s := ⟨rfl, fun p _ => by cases p <;> rfl⟩

theorem keeps_more (h : Keeps qs s t) (hs : (qs.all fun p => ps.contains p) = true) : Keeps ps s t :=
  ⟨h.1, fun p hp => h.2 p (by
    cases hq : qs.contains p
    · rfl
    · rw [List.contains_iff_mem] at hq
      exact absurd ((List.all_eq_true.mp hs p hq).symm.trans hp) Bool.noConfusion)⟩

/-- Two frames in a row, the second within the fields of the first. -/
theorem keeps_then (h : Keeps ps s t) (k : Keeps qs t u) (hs : (qs.all fun p => ps.contains p) = true) : Keeps ps s u :=
  ⟨k.1.trans h.1, fun p hp => same_trans (h.2 p hp) ((keeps_more k hs).2 p hp)⟩

theorem keeps_step (k : Keeps qs t u) (hs : (qs.all fun p => ps.contains p) = true) (h : Keeps ps s t) : Keeps ps s u :=
  keeps_then h k hs

theorem keeps_foldl {α : Type} {f : State → α → State} (hf : ∀ t a, Keeps ps s t → Keeps ps s (f t a)) :
    ∀ (l : List α) (t : State), Keeps ps s t → Keeps ps s (l.foldl f t)
  | [], _, h => h
  | a :: l, t, h => keeps_foldl hf l (f t a) (hf t a h)

theorem keeps_foldlSnd {α β : Type} {f : β × State → α → β × State}
    (hf : ∀ p a, Keeps ps s p.2 → Keeps ps s (f p a).2) :
    ∀ (l : List α) (p : β × State), Keeps ps s p.2 → Keeps ps s (l.foldl f p).2
  | [], _, h => h
  | a :: l, p, h => keeps_foldlSnd hf l (f p a) (hf p a h)

theorem keeps_foldlFst {α β : Type} {f : State × β → α → State × β}
    (hf : ∀ p a, Keeps ps s p.1 → Keeps ps s (f p a).1) :
    ∀ (l : List α) (p : State × β), Keeps ps s p.1 → Keeps ps s (l.foldl f p).1
  | [], _, h => h
  | a :: l, p, h => keeps_foldlFst hf l (f p a) (hf p a h)

theorem keeps_ite {c : Prop} [Decidable c] {a b : State} (ha : c → Keeps ps s a) (hb : ¬c → Keeps ps s b) :
    Keeps ps s (if c then a else b) := by
  by_cases h : c
  · rw [if_pos h]
    exact ha h
  · rw [if_neg h]
    exact hb h

theorem keeps_id (h : Keeps ps s t) : Keeps ps s (id t) := h

theorem keeps_snd {α : Type} {p : α × State} {a : α} (e : p = (a, t)) (h : Keeps ps s p.2) : Keeps ps s t := by
  subst e; exact h

theorem keeps_snd2 {α β : Type} {p : α × β × State} {a : α} {b : β} (e : p = (a, b, t))
    (h : Keeps ps s p.2.2) : Keeps ps s t := by
  subst e; exact h

theorem keeps_getD {o : Option State} (h : PostO (Keeps ps s) o) (hd : Keeps ps s t) : Keeps ps s (o.getD t) := by
  cases o with
  | none => exact hd
  | some u => exact h

theorem keepsO_out {o : Option State} (e : o = some u) (k : PostO (Keeps qs t) o)
    (hs : (qs.all fun p => ps.contains p) = true) (h : Keeps ps s t) : Keeps ps s u := by
  subst e; exact keeps_then h k hs

theorem keepsO_step {o : Option State} (k : PostO (Keeps qs t) o) (hs : (qs.all fun p => ps.contains p) = true)
    (h : Keeps ps s t) : PostO (Keeps ps s) o := by
  cases o with
  | none => trivial
  | some u => exact keeps_then h k hs

theorem keepsP_step {o : Host.Outcome State Fault Refusal} (k : Post (Keeps qs t) o)
    (hs : (qs.all fun p => ps.contains p) = true) (h : Keeps ps s t) : Post (Keeps ps s) o := by
  cases o with
  | next u => exact keeps_then h k hs
  | fault _ => trivial
  | refused _ => trivial

/-! ### A field that a frame keeps -/

theorem kept_pending (h : Keeps ps s t) : t.pending = s.pending := h.1
theorem kept_free (h : Keeps ps s t) (hp : ps.contains .free = false) : t.free = s.free := h.2 .free hp
theorem kept_boot (h : Keeps ps s t) (hp : ps.contains .boot = false) : t.boot = s.boot := h.2 .boot hp
theorem kept_apb (h : Keeps ps s t) (hp : ps.contains .apb = false) : t.apb = s.apb := h.2 .apb hp
theorem kept_evt (h : Keeps ps s t) (hp : ps.contains .evt = false) : t.evt = s.evt := h.2 .evt hp
theorem kept_syb (h : Keeps ps s t) (hp : ps.contains .syb = false) : t.syb = s.syb := h.2 .syb hp
theorem kept_glaze (h : Keeps ps s t) (hp : ps.contains .glaze = false) : t.glaze = s.glaze := h.2 .glaze hp
theorem kept_agents (h : Keeps ps s t) (hp : ps.contains .agents = false) : t.agents = s.agents := h.2 .agents hp
theorem kept_shelves (h : Keeps ps s t) (hp : ps.contains .shelves = false) : t.shelves = s.shelves := h.2 .shelves hp
theorem kept_arr (h : Keeps ps s t) (hp : ps.contains .arr = false) : t.arr = s.arr := h.2 .arr hp
theorem kept_dir (h : Keeps ps s t) (hp : ps.contains .dir = false) : t.dir = s.dir := h.2 .dir hp
theorem kept_home (h : Keeps ps s t) (hp : ps.contains .home = false) : t.home = s.home := h.2 .home hp
theorem kept_back (h : Keeps ps s t) (hp : ps.contains .back = false) : t.back = s.back := h.2 .back hp
theorem kept_rings (h : Keeps ps s t) (hp : ps.contains .rings = false) : t.rings = s.rings := h.2 .rings hp
theorem kept_cmds (h : Keeps ps s t) (hp : ps.contains .cmds = false) : t.cmds = s.cmds := h.2 .cmds hp
theorem kept_ranges (h : Keeps ps s t) (hp : ps.contains .ranges = false) : t.ranges = s.ranges := h.2 .ranges hp
theorem kept_tly (h : Keeps ps s t) (hp : ps.contains .tly = false) : t.tly = s.tly := h.2 .tly hp
theorem kept_cone (h : Keeps ps s t) (hp : ps.contains .cone = false) : t.cone = s.cone := h.2 .cone hp
theorem kept_pmu (h : Keeps ps s t) (hp : ps.contains .pmu = false) : t.pmu = s.pmu := h.2 .pmu hp
theorem kept_kiln (h : Keeps ps s t) (hp : ps.contains .kiln = false) : t.kiln = s.kiln := h.2 .kiln hp
theorem kept_flt (h : Keeps ps s t) (hp : ps.contains .flt = false) : t.flt = s.flt := h.2 .flt hp
theorem kept_ep (h : Keeps ps s t) (hp : ps.contains .ep = false) : t.ep = s.ep := h.2 .ep hp
theorem kept_pair (h : Keeps ps s t) (hp : ps.contains .pair = false) : t.pair = s.pair := h.2 .pair hp
theorem kept_fw (h : Keeps ps s t) (hp : ps.contains .fw = false) : t.fw = s.fw := h.2 .fw hp
theorem kept_life (h : Keeps ps s t) (hp : ps.contains .life = false) : t.life = s.life := h.2 .life hp
theorem kept_ckp (h : Keeps ps s t) (hp : ps.contains .ckp = false) : t.ckp = s.ckp := h.2 .ckp hp
theorem kept_links (h : Keeps ps s t) (hp : ps.contains .links = false) : t.links = s.links := h.2 .links hp
theorem kept_out (h : Keeps ps s t) (hp : ps.contains .out = false) : t.out = s.out := h.2 .out hp

/-! ### One field or a few replaced -/

theorem upd_agents {x_agents} : Keeps [.agents] s
    (State.mk s.pending s.free s.boot s.apb s.evt s.syb s.glaze x_agents s.shelves s.arr s.dir s.home s.back
      s.rings s.cmds s.ranges s.tly s.cone s.pmu s.kiln s.flt s.ep s.pair s.fw s.life s.ckp s.links s.out) :=
  ⟨rfl, fun p hp => by cases p <;> first | exact absurd hp (by decide) | rfl⟩

theorem upd_agents_ep {x_agents x_ep} : Keeps [.agents, .ep] s
    (State.mk s.pending s.free s.boot s.apb s.evt s.syb s.glaze x_agents s.shelves s.arr s.dir s.home s.back
      s.rings s.cmds s.ranges s.tly s.cone s.pmu s.kiln s.flt x_ep s.pair s.fw s.life s.ckp s.links s.out) :=
  ⟨rfl, fun p hp => by cases p <;> first | exact absurd hp (by decide) | rfl⟩

theorem upd_apb {x_apb} : Keeps [.apb] s
    (State.mk s.pending s.free s.boot x_apb s.evt s.syb s.glaze s.agents s.shelves s.arr s.dir s.home s.back
      s.rings s.cmds s.ranges s.tly s.cone s.pmu s.kiln s.flt s.ep s.pair s.fw s.life s.ckp s.links s.out) :=
  ⟨rfl, fun p hp => by cases p <;> first | exact absurd hp (by decide) | rfl⟩

theorem upd_arr {x_arr} : Keeps [.arr] s
    (State.mk s.pending s.free s.boot s.apb s.evt s.syb s.glaze s.agents s.shelves x_arr s.dir s.home s.back
      s.rings s.cmds s.ranges s.tly s.cone s.pmu s.kiln s.flt s.ep s.pair s.fw s.life s.ckp s.links s.out) :=
  ⟨rfl, fun p hp => by cases p <;> first | exact absurd hp (by decide) | rfl⟩

theorem upd_arr_back {x_arr x_back} : Keeps [.arr, .back] s
    (State.mk s.pending s.free s.boot s.apb s.evt s.syb s.glaze s.agents s.shelves x_arr s.dir s.home x_back
      s.rings s.cmds s.ranges s.tly s.cone s.pmu s.kiln s.flt s.ep s.pair s.fw s.life s.ckp s.links s.out) :=
  ⟨rfl, fun p hp => by cases p <;> first | exact absurd hp (by decide) | rfl⟩

theorem upd_arr_dir {x_arr x_dir} : Keeps [.arr, .dir] s
    (State.mk s.pending s.free s.boot s.apb s.evt s.syb s.glaze s.agents s.shelves x_arr x_dir s.home s.back
      s.rings s.cmds s.ranges s.tly s.cone s.pmu s.kiln s.flt s.ep s.pair s.fw s.life s.ckp s.links s.out) :=
  ⟨rfl, fun p hp => by cases p <;> first | exact absurd hp (by decide) | rfl⟩

theorem upd_back {x_back} : Keeps [.back] s
    (State.mk s.pending s.free s.boot s.apb s.evt s.syb s.glaze s.agents s.shelves s.arr s.dir s.home x_back
      s.rings s.cmds s.ranges s.tly s.cone s.pmu s.kiln s.flt s.ep s.pair s.fw s.life s.ckp s.links s.out) :=
  ⟨rfl, fun p hp => by cases p <;> first | exact absurd hp (by decide) | rfl⟩

theorem upd_back_ep {x_back x_ep} : Keeps [.back, .ep] s
    (State.mk s.pending s.free s.boot s.apb s.evt s.syb s.glaze s.agents s.shelves s.arr s.dir s.home x_back
      s.rings s.cmds s.ranges s.tly s.cone s.pmu s.kiln s.flt x_ep s.pair s.fw s.life s.ckp s.links s.out) :=
  ⟨rfl, fun p hp => by cases p <;> first | exact absurd hp (by decide) | rfl⟩

theorem upd_back_links {x_back x_links} : Keeps [.back, .links] s
    (State.mk s.pending s.free s.boot s.apb s.evt s.syb s.glaze s.agents s.shelves s.arr s.dir s.home x_back
      s.rings s.cmds s.ranges s.tly s.cone s.pmu s.kiln s.flt s.ep s.pair s.fw s.life s.ckp x_links s.out) :=
  ⟨rfl, fun p hp => by cases p <;> first | exact absurd hp (by decide) | rfl⟩

theorem upd_boot {x_boot} : Keeps [.boot] s
    (State.mk s.pending s.free x_boot s.apb s.evt s.syb s.glaze s.agents s.shelves s.arr s.dir s.home s.back
      s.rings s.cmds s.ranges s.tly s.cone s.pmu s.kiln s.flt s.ep s.pair s.fw s.life s.ckp s.links s.out) :=
  ⟨rfl, fun p hp => by cases p <;> first | exact absurd hp (by decide) | rfl⟩

theorem upd_boot_agents_ranges_kiln {x_boot x_agents x_ranges x_kiln} : Keeps [.boot, .agents, .ranges, .kiln] s
    (State.mk s.pending s.free x_boot s.apb s.evt s.syb s.glaze x_agents s.shelves s.arr s.dir s.home s.back
      s.rings s.cmds x_ranges s.tly s.cone s.pmu x_kiln s.flt s.ep s.pair s.fw s.life s.ckp s.links s.out) :=
  ⟨rfl, fun p hp => by cases p <;> first | exact absurd hp (by decide) | rfl⟩

theorem upd_boot_flt_fw {x_boot x_flt x_fw} : Keeps [.boot, .flt, .fw] s
    (State.mk s.pending s.free x_boot s.apb s.evt s.syb s.glaze s.agents s.shelves s.arr s.dir s.home s.back
      s.rings s.cmds s.ranges s.tly s.cone s.pmu s.kiln x_flt s.ep s.pair x_fw s.life s.ckp s.links s.out) :=
  ⟨rfl, fun p hp => by cases p <;> first | exact absurd hp (by decide) | rfl⟩

theorem upd_boot_fw_life {x_boot x_fw x_life} : Keeps [.boot, .fw, .life] s
    (State.mk s.pending s.free x_boot s.apb s.evt s.syb s.glaze s.agents s.shelves s.arr s.dir s.home s.back
      s.rings s.cmds s.ranges s.tly s.cone s.pmu s.kiln s.flt s.ep s.pair x_fw x_life s.ckp s.links s.out) :=
  ⟨rfl, fun p hp => by cases p <;> first | exact absurd hp (by decide) | rfl⟩

theorem upd_boot_fw_out {x_boot x_fw x_out} : Keeps [.boot, .fw, .out] s
    (State.mk s.pending s.free x_boot s.apb s.evt s.syb s.glaze s.agents s.shelves s.arr s.dir s.home s.back
      s.rings s.cmds s.ranges s.tly s.cone s.pmu s.kiln s.flt s.ep s.pair x_fw s.life s.ckp s.links x_out) :=
  ⟨rfl, fun p hp => by cases p <;> first | exact absurd hp (by decide) | rfl⟩

theorem upd_boot_life {x_boot x_life} : Keeps [.boot, .life] s
    (State.mk s.pending s.free x_boot s.apb s.evt s.syb s.glaze s.agents s.shelves s.arr s.dir s.home s.back
      s.rings s.cmds s.ranges s.tly s.cone s.pmu s.kiln s.flt s.ep s.pair s.fw x_life s.ckp s.links s.out) :=
  ⟨rfl, fun p hp => by cases p <;> first | exact absurd hp (by decide) | rfl⟩

theorem upd_ckp {x_ckp} : Keeps [.ckp] s
    (State.mk s.pending s.free s.boot s.apb s.evt s.syb s.glaze s.agents s.shelves s.arr s.dir s.home s.back
      s.rings s.cmds s.ranges s.tly s.cone s.pmu s.kiln s.flt s.ep s.pair s.fw s.life x_ckp s.links s.out) :=
  ⟨rfl, fun p hp => by cases p <;> first | exact absurd hp (by decide) | rfl⟩

theorem upd_cmds {x_cmds} : Keeps [.cmds] s
    (State.mk s.pending s.free s.boot s.apb s.evt s.syb s.glaze s.agents s.shelves s.arr s.dir s.home s.back
      s.rings x_cmds s.ranges s.tly s.cone s.pmu s.kiln s.flt s.ep s.pair s.fw s.life s.ckp s.links s.out) :=
  ⟨rfl, fun p hp => by cases p <;> first | exact absurd hp (by decide) | rfl⟩

theorem upd_cmds_flt_ep_fw {x_cmds x_flt x_ep x_fw} : Keeps [.cmds, .flt, .ep, .fw] s
    (State.mk s.pending s.free s.boot s.apb s.evt s.syb s.glaze s.agents s.shelves s.arr s.dir s.home s.back
      s.rings x_cmds s.ranges s.tly s.cone s.pmu s.kiln x_flt x_ep s.pair x_fw s.life s.ckp s.links s.out) :=
  ⟨rfl, fun p hp => by cases p <;> first | exact absurd hp (by decide) | rfl⟩

theorem upd_cone {x_cone} : Keeps [.cone] s
    (State.mk s.pending s.free s.boot s.apb s.evt s.syb s.glaze s.agents s.shelves s.arr s.dir s.home s.back
      s.rings s.cmds s.ranges s.tly x_cone s.pmu s.kiln s.flt s.ep s.pair s.fw s.life s.ckp s.links s.out) :=
  ⟨rfl, fun p hp => by cases p <;> first | exact absurd hp (by decide) | rfl⟩

theorem upd_dir {x_dir} : Keeps [.dir] s
    (State.mk s.pending s.free s.boot s.apb s.evt s.syb s.glaze s.agents s.shelves s.arr x_dir s.home s.back
      s.rings s.cmds s.ranges s.tly s.cone s.pmu s.kiln s.flt s.ep s.pair s.fw s.life s.ckp s.links s.out) :=
  ⟨rfl, fun p hp => by cases p <;> first | exact absurd hp (by decide) | rfl⟩

theorem upd_dir_home_back_kiln_pair {x_dir x_home x_back x_kiln x_pair} : Keeps [.dir, .home, .back, .kiln, .pair] s
    (State.mk s.pending s.free s.boot s.apb s.evt s.syb s.glaze s.agents s.shelves s.arr x_dir x_home x_back
      s.rings s.cmds s.ranges s.tly s.cone s.pmu x_kiln s.flt s.ep x_pair s.fw s.life s.ckp s.links s.out) :=
  ⟨rfl, fun p hp => by cases p <;> first | exact absurd hp (by decide) | rfl⟩

theorem upd_dir_kiln_flt {x_dir x_kiln x_flt} : Keeps [.dir, .kiln, .flt] s
    (State.mk s.pending s.free s.boot s.apb s.evt s.syb s.glaze s.agents s.shelves s.arr x_dir s.home s.back
      s.rings s.cmds s.ranges s.tly s.cone s.pmu x_kiln x_flt s.ep s.pair s.fw s.life s.ckp s.links s.out) :=
  ⟨rfl, fun p hp => by cases p <;> first | exact absurd hp (by decide) | rfl⟩

theorem upd_ep {x_ep} : Keeps [.ep] s
    (State.mk s.pending s.free s.boot s.apb s.evt s.syb s.glaze s.agents s.shelves s.arr s.dir s.home s.back
      s.rings s.cmds s.ranges s.tly s.cone s.pmu s.kiln s.flt x_ep s.pair s.fw s.life s.ckp s.links s.out) :=
  ⟨rfl, fun p hp => by cases p <;> first | exact absurd hp (by decide) | rfl⟩

theorem upd_ep_out {x_ep x_out} : Keeps [.ep, .out] s
    (State.mk s.pending s.free s.boot s.apb s.evt s.syb s.glaze s.agents s.shelves s.arr s.dir s.home s.back
      s.rings s.cmds s.ranges s.tly s.cone s.pmu s.kiln s.flt x_ep s.pair s.fw s.life s.ckp s.links x_out) :=
  ⟨rfl, fun p hp => by cases p <;> first | exact absurd hp (by decide) | rfl⟩

theorem upd_evt {x_evt} : Keeps [.evt] s
    (State.mk s.pending s.free s.boot s.apb x_evt s.syb s.glaze s.agents s.shelves s.arr s.dir s.home s.back
      s.rings s.cmds s.ranges s.tly s.cone s.pmu s.kiln s.flt s.ep s.pair s.fw s.life s.ckp s.links s.out) :=
  ⟨rfl, fun p hp => by cases p <;> first | exact absurd hp (by decide) | rfl⟩

theorem upd_evt_tly_flt {x_evt x_tly x_flt} : Keeps [.evt, .tly, .flt] s
    (State.mk s.pending s.free s.boot s.apb x_evt s.syb s.glaze s.agents s.shelves s.arr s.dir s.home s.back
      s.rings s.cmds s.ranges x_tly s.cone s.pmu s.kiln x_flt s.ep s.pair s.fw s.life s.ckp s.links s.out) :=
  ⟨rfl, fun p hp => by cases p <;> first | exact absurd hp (by decide) | rfl⟩

theorem upd_flt {x_flt} : Keeps [.flt] s
    (State.mk s.pending s.free s.boot s.apb s.evt s.syb s.glaze s.agents s.shelves s.arr s.dir s.home s.back
      s.rings s.cmds s.ranges s.tly s.cone s.pmu s.kiln x_flt s.ep s.pair s.fw s.life s.ckp s.links s.out) :=
  ⟨rfl, fun p hp => by cases p <;> first | exact absurd hp (by decide) | rfl⟩

theorem upd_flt_ep {x_flt x_ep} : Keeps [.flt, .ep] s
    (State.mk s.pending s.free s.boot s.apb s.evt s.syb s.glaze s.agents s.shelves s.arr s.dir s.home s.back
      s.rings s.cmds s.ranges s.tly s.cone s.pmu s.kiln x_flt x_ep s.pair s.fw s.life s.ckp s.links s.out) :=
  ⟨rfl, fun p hp => by cases p <;> first | exact absurd hp (by decide) | rfl⟩

theorem upd_flt_fw {x_flt x_fw} : Keeps [.flt, .fw] s
    (State.mk s.pending s.free s.boot s.apb s.evt s.syb s.glaze s.agents s.shelves s.arr s.dir s.home s.back
      s.rings s.cmds s.ranges s.tly s.cone s.pmu s.kiln x_flt s.ep s.pair x_fw s.life s.ckp s.links s.out) :=
  ⟨rfl, fun p hp => by cases p <;> first | exact absurd hp (by decide) | rfl⟩

theorem upd_flt_life {x_flt x_life} : Keeps [.flt, .life] s
    (State.mk s.pending s.free s.boot s.apb s.evt s.syb s.glaze s.agents s.shelves s.arr s.dir s.home s.back
      s.rings s.cmds s.ranges s.tly s.cone s.pmu s.kiln x_flt s.ep s.pair s.fw x_life s.ckp s.links s.out) :=
  ⟨rfl, fun p hp => by cases p <;> first | exact absurd hp (by decide) | rfl⟩

theorem upd_free {x_free} : Keeps [.free] s
    (State.mk s.pending x_free s.boot s.apb s.evt s.syb s.glaze s.agents s.shelves s.arr s.dir s.home s.back
      s.rings s.cmds s.ranges s.tly s.cone s.pmu s.kiln s.flt s.ep s.pair s.fw s.life s.ckp s.links s.out) :=
  ⟨rfl, fun p hp => by cases p <;> first | exact absurd hp (by decide) | rfl⟩

theorem upd_fw {x_fw} : Keeps [.fw] s
    (State.mk s.pending s.free s.boot s.apb s.evt s.syb s.glaze s.agents s.shelves s.arr s.dir s.home s.back
      s.rings s.cmds s.ranges s.tly s.cone s.pmu s.kiln s.flt s.ep s.pair x_fw s.life s.ckp s.links s.out) :=
  ⟨rfl, fun p hp => by cases p <;> first | exact absurd hp (by decide) | rfl⟩

theorem upd_fw_life {x_fw x_life} : Keeps [.fw, .life] s
    (State.mk s.pending s.free s.boot s.apb s.evt s.syb s.glaze s.agents s.shelves s.arr s.dir s.home s.back
      s.rings s.cmds s.ranges s.tly s.cone s.pmu s.kiln s.flt s.ep s.pair x_fw x_life s.ckp s.links s.out) :=
  ⟨rfl, fun p hp => by cases p <;> first | exact absurd hp (by decide) | rfl⟩

theorem upd_glaze {x_glaze} : Keeps [.glaze] s
    (State.mk s.pending s.free s.boot s.apb s.evt s.syb x_glaze s.agents s.shelves s.arr s.dir s.home s.back
      s.rings s.cmds s.ranges s.tly s.cone s.pmu s.kiln s.flt s.ep s.pair s.fw s.life s.ckp s.links s.out) :=
  ⟨rfl, fun p hp => by cases p <;> first | exact absurd hp (by decide) | rfl⟩

theorem upd_glaze_ranges {x_glaze x_ranges} : Keeps [.glaze, .ranges] s
    (State.mk s.pending s.free s.boot s.apb s.evt s.syb x_glaze s.agents s.shelves s.arr s.dir s.home s.back
      s.rings s.cmds x_ranges s.tly s.cone s.pmu s.kiln s.flt s.ep s.pair s.fw s.life s.ckp s.links s.out) :=
  ⟨rfl, fun p hp => by cases p <;> first | exact absurd hp (by decide) | rfl⟩

theorem upd_home {x_home} : Keeps [.home] s
    (State.mk s.pending s.free s.boot s.apb s.evt s.syb s.glaze s.agents s.shelves s.arr s.dir x_home s.back
      s.rings s.cmds s.ranges s.tly s.cone s.pmu s.kiln s.flt s.ep s.pair s.fw s.life s.ckp s.links s.out) :=
  ⟨rfl, fun p hp => by cases p <;> first | exact absurd hp (by decide) | rfl⟩

theorem upd_kiln {x_kiln} : Keeps [.kiln] s
    (State.mk s.pending s.free s.boot s.apb s.evt s.syb s.glaze s.agents s.shelves s.arr s.dir s.home s.back
      s.rings s.cmds s.ranges s.tly s.cone s.pmu x_kiln s.flt s.ep s.pair s.fw s.life s.ckp s.links s.out) :=
  ⟨rfl, fun p hp => by cases p <;> first | exact absurd hp (by decide) | rfl⟩

theorem upd_kiln_ckp {x_kiln x_ckp} : Keeps [.kiln, .ckp] s
    (State.mk s.pending s.free s.boot s.apb s.evt s.syb s.glaze s.agents s.shelves s.arr s.dir s.home s.back
      s.rings s.cmds s.ranges s.tly s.cone s.pmu x_kiln s.flt s.ep s.pair s.fw s.life x_ckp s.links s.out) :=
  ⟨rfl, fun p hp => by cases p <;> first | exact absurd hp (by decide) | rfl⟩

theorem upd_life {x_life} : Keeps [.life] s
    (State.mk s.pending s.free s.boot s.apb s.evt s.syb s.glaze s.agents s.shelves s.arr s.dir s.home s.back
      s.rings s.cmds s.ranges s.tly s.cone s.pmu s.kiln s.flt s.ep s.pair s.fw x_life s.ckp s.links s.out) :=
  ⟨rfl, fun p hp => by cases p <;> first | exact absurd hp (by decide) | rfl⟩

theorem upd_life_ckp {x_life x_ckp} : Keeps [.life, .ckp] s
    (State.mk s.pending s.free s.boot s.apb s.evt s.syb s.glaze s.agents s.shelves s.arr s.dir s.home s.back
      s.rings s.cmds s.ranges s.tly s.cone s.pmu s.kiln s.flt s.ep s.pair s.fw x_life x_ckp s.links s.out) :=
  ⟨rfl, fun p hp => by cases p <;> first | exact absurd hp (by decide) | rfl⟩

theorem upd_links {x_links} : Keeps [.links] s
    (State.mk s.pending s.free s.boot s.apb s.evt s.syb s.glaze s.agents s.shelves s.arr s.dir s.home s.back
      s.rings s.cmds s.ranges s.tly s.cone s.pmu s.kiln s.flt s.ep s.pair s.fw s.life s.ckp x_links s.out) :=
  ⟨rfl, fun p hp => by cases p <;> first | exact absurd hp (by decide) | rfl⟩

theorem upd_out {x_out} : Keeps [.out] s
    (State.mk s.pending s.free s.boot s.apb s.evt s.syb s.glaze s.agents s.shelves s.arr s.dir s.home s.back
      s.rings s.cmds s.ranges s.tly s.cone s.pmu s.kiln s.flt s.ep s.pair s.fw s.life s.ckp s.links x_out) :=
  ⟨rfl, fun p hp => by cases p <;> first | exact absurd hp (by decide) | rfl⟩

theorem upd_pair {x_pair} : Keeps [.pair] s
    (State.mk s.pending s.free s.boot s.apb s.evt s.syb s.glaze s.agents s.shelves s.arr s.dir s.home s.back
      s.rings s.cmds s.ranges s.tly s.cone s.pmu s.kiln s.flt s.ep x_pair s.fw s.life s.ckp s.links s.out) :=
  ⟨rfl, fun p hp => by cases p <;> first | exact absurd hp (by decide) | rfl⟩

theorem upd_pmu {x_pmu} : Keeps [.pmu] s
    (State.mk s.pending s.free s.boot s.apb s.evt s.syb s.glaze s.agents s.shelves s.arr s.dir s.home s.back
      s.rings s.cmds s.ranges s.tly s.cone x_pmu s.kiln s.flt s.ep s.pair s.fw s.life s.ckp s.links s.out) :=
  ⟨rfl, fun p hp => by cases p <;> first | exact absurd hp (by decide) | rfl⟩

theorem upd_ranges {x_ranges} : Keeps [.ranges] s
    (State.mk s.pending s.free s.boot s.apb s.evt s.syb s.glaze s.agents s.shelves s.arr s.dir s.home s.back
      s.rings s.cmds x_ranges s.tly s.cone s.pmu s.kiln s.flt s.ep s.pair s.fw s.life s.ckp s.links s.out) :=
  ⟨rfl, fun p hp => by cases p <;> first | exact absurd hp (by decide) | rfl⟩

theorem upd_rings {x_rings} : Keeps [.rings] s
    (State.mk s.pending s.free s.boot s.apb s.evt s.syb s.glaze s.agents s.shelves s.arr s.dir s.home s.back
      x_rings s.cmds s.ranges s.tly s.cone s.pmu s.kiln s.flt s.ep s.pair s.fw s.life s.ckp s.links s.out) :=
  ⟨rfl, fun p hp => by cases p <;> first | exact absurd hp (by decide) | rfl⟩

theorem upd_shelves {x_shelves} : Keeps [.shelves] s
    (State.mk s.pending s.free s.boot s.apb s.evt s.syb s.glaze s.agents x_shelves s.arr s.dir s.home s.back
      s.rings s.cmds s.ranges s.tly s.cone s.pmu s.kiln s.flt s.ep s.pair s.fw s.life s.ckp s.links s.out) :=
  ⟨rfl, fun p hp => by cases p <;> first | exact absurd hp (by decide) | rfl⟩

theorem upd_syb {x_syb} : Keeps [.syb] s
    (State.mk s.pending s.free s.boot s.apb s.evt x_syb s.glaze s.agents s.shelves s.arr s.dir s.home s.back
      s.rings s.cmds s.ranges s.tly s.cone s.pmu s.kiln s.flt s.ep s.pair s.fw s.life s.ckp s.links s.out) :=
  ⟨rfl, fun p hp => by cases p <;> first | exact absurd hp (by decide) | rfl⟩

theorem upd_syb_flt_fw {x_syb x_flt x_fw} : Keeps [.syb, .flt, .fw] s
    (State.mk s.pending s.free s.boot s.apb s.evt x_syb s.glaze s.agents s.shelves s.arr s.dir s.home s.back
      s.rings s.cmds s.ranges s.tly s.cone s.pmu s.kiln x_flt s.ep s.pair x_fw s.life s.ckp s.links s.out) :=
  ⟨rfl, fun p hp => by cases p <;> first | exact absurd hp (by decide) | rfl⟩

theorem upd_syb_glaze_kiln {x_syb x_glaze x_kiln} : Keeps [.syb, .glaze, .kiln] s
    (State.mk s.pending s.free s.boot s.apb s.evt x_syb x_glaze s.agents s.shelves s.arr s.dir s.home s.back
      s.rings s.cmds s.ranges s.tly s.cone s.pmu x_kiln s.flt s.ep s.pair s.fw s.life s.ckp s.links s.out) :=
  ⟨rfl, fun p hp => by cases p <;> first | exact absurd hp (by decide) | rfl⟩

theorem upd_syb_tly_kiln_ep {x_syb x_tly x_kiln x_ep} : Keeps [.syb, .tly, .kiln, .ep] s
    (State.mk s.pending s.free s.boot s.apb s.evt x_syb s.glaze s.agents s.shelves s.arr s.dir s.home s.back
      s.rings s.cmds s.ranges x_tly s.cone s.pmu x_kiln s.flt x_ep s.pair s.fw s.life s.ckp s.links s.out) :=
  ⟨rfl, fun p hp => by cases p <;> first | exact absurd hp (by decide) | rfl⟩

theorem upd_tly {x_tly} : Keeps [.tly] s
    (State.mk s.pending s.free s.boot s.apb s.evt s.syb s.glaze s.agents s.shelves s.arr s.dir s.home s.back
      s.rings s.cmds s.ranges x_tly s.cone s.pmu s.kiln s.flt s.ep s.pair s.fw s.life s.ckp s.links s.out) :=
  ⟨rfl, fun p hp => by cases p <;> first | exact absurd hp (by decide) | rfl⟩

end Sys2Proof.Machine
end

