-- ==== Sys2Proof/Laws/Ops.lean ====
section
/-! SUPPORT. What the operations of Machine/Ops.lean do to the whole state, two lemmas per operation: `sound_` (it keeps the
queue of waiting commands and the invariant of Safety.lean) and `keeps_` (the fields that it may change). -/
namespace Sys2Proof.Machine

variable {q : List Instr}

theorem sound_setTally (s : State) (t : Nat) (v : BitVec 64) (hs : s.Sound q) : (State.setTally s t v).Sound q := by
  unfold State.setTally
  try dsimp only
  repeat' first
    | with_reducible assumption | split | with_reducible apply sound_mk

theorem keeps_setTally (s : State) (t : Nat) (v : BitVec 64) : Keeps [.tly] s (State.setTally s t v) := by
  unfold State.setTally
  try dsimp only
  repeat' first
    | with_reducible exact keeps_refl _ | with_reducible assumption | split
    | ((with_reducible apply keeps_step); (with_reducible apply upd_tly); rfl)

theorem sound_draw (s : State) (hs : s.Sound q) : (State.draw s).2.Sound q := by
  unfold State.draw
  try dsimp only
  repeat' first
    | with_reducible assumption | split | with_reducible apply sound_mk

theorem keeps_draw (s : State) : Keeps [.free] s (State.draw s).2 := by
  unfold State.draw
  try dsimp only
  repeat' first
    | with_reducible exact keeps_refl _ | with_reducible assumption | split
    | ((with_reducible apply keeps_step); (with_reducible apply upd_free); rfl)

theorem sound_sample (s : State) (n : Nat) (a : Attr) (hs : s.Sound q) : (State.sample s n a).Sound q := by
  unfold State.sample
  try dsimp only
  repeat' first
    | with_reducible assumption | with_reducible apply sound_getD | split | with_reducible apply sound_mk

theorem keeps_sample (s : State) (n : Nat) (a : Attr) : Keeps [.pmu] s (State.sample s n a) := by
  unfold State.sample
  try dsimp only
  repeat' first
    | with_reducible exact keeps_refl _ | with_reducible assumption | with_reducible apply keeps_getD | split
    | ((with_reducible apply keeps_step); (with_reducible apply upd_pmu); rfl)

theorem sound_wrapPmc (s : State) (n : Nat) (a : Attr) (hs : s.Sound q) : (State.wrapPmc s n a).Sound q := by
  unfold State.wrapPmc
  try dsimp only
  repeat' first
    | with_reducible assumption | with_reducible apply sound_draw | with_reducible apply sound_sample | split
    | with_reducible apply sound_mk

theorem keeps_wrapPmc (s : State) (n : Nat) (a : Attr) : Keeps [.free, .pmu] s (State.wrapPmc s n a) := by
  unfold State.wrapPmc
  try dsimp only
  repeat' first
    | with_reducible exact keeps_refl _ | with_reducible assumption
    | ((with_reducible apply keeps_step); (with_reducible apply keeps_draw); rfl)
    | ((with_reducible apply keeps_step); (with_reducible apply keeps_sample); rfl) | split
    | ((with_reducible apply keeps_step); (with_reducible apply upd_pmu); rfl)

theorem sound_countOn (s : State) (n : Nat) (code : Nat) (a : Attr) (inc : Nat) (hs : s.Sound q) :
    (State.countOn s n code a inc).Sound q := by
  unfold State.countOn
  try dsimp only
  repeat' first
    | with_reducible assumption | with_reducible apply sound_wrapPmc | split | with_reducible apply sound_mk

theorem keeps_countOn (s : State) (n : Nat) (code : Nat) (a : Attr) (inc : Nat) : Keeps [.free, .pmu] s
    (State.countOn s n code a inc) := by
  unfold State.countOn
  try dsimp only
  repeat' first
    | with_reducible exact keeps_refl _ | with_reducible assumption
    | ((with_reducible apply keeps_step); (with_reducible apply keeps_wrapPmc); rfl) | split
    | ((with_reducible apply keeps_step); (with_reducible apply upd_pmu); rfl)

theorem sound_setHalf (s : State) (h : Half) (c : HalfClk) (hs : s.Sound q) : (State.setHalf s h c).Sound q := by
  cases h <;> exact sound_ckp hs rfl

theorem keeps_setHalf (s : State) (h : Half) (c : HalfClk) : Keeps [.ckp] s (State.setHalf s h c) := by
  unfold State.setHalf
  try dsimp only
  repeat' first
    | with_reducible exact keeps_refl _ | with_reducible assumption | split
    | ((with_reducible apply keeps_step); (with_reducible apply upd_ckp); rfl)

theorem sound_setLink (s : State) (p : Port) (l : Link) (hs : s.Sound q) : (State.setLink s p l).Sound q := by
  unfold State.setLink
  try dsimp only
  repeat' first
    | with_reducible assumption | split | with_reducible apply sound_mk

theorem keeps_setLink (s : State) (p : Port) (l : Link) : Keeps [.links] s (State.setLink s p l) := by
  unfold State.setLink
  try dsimp only
  repeat' first
    | with_reducible exact keeps_refl _ | with_reducible assumption | split
    | ((with_reducible apply keeps_step); (with_reducible apply upd_links); rfl)

theorem sound_giveBack (s : State) (p : Port) (vc : Nat) (hs : s.Sound q) : (State.giveBack s p vc).Sound q := by
  unfold State.giveBack
  try dsimp only
  repeat' first
    | with_reducible assumption | with_reducible apply sound_setLink | split

theorem keeps_giveBack (s : State) (p : Port) (vc : Nat) : Keeps [.links] s (State.giveBack s p vc) := by
  unfold State.giveBack
  try dsimp only
  repeat' first
    | with_reducible exact keeps_refl _ | with_reducible assumption
    | ((with_reducible apply keeps_step); (with_reducible apply keeps_setLink); rfl) | split

theorem sound_event (s : State) (code : Nat) (src : Nat) (fields : List Nat) (hs : s.Sound q) :
    (State.event s code src fields).Sound q := by
  unfold State.event
  split
  · refine sound_evt hs fun _ => ?_
    simp only [Events.bounded, List.length_append, List.length_singleton, decide_eq_true_eq]
    omega
  · exact sound_evt hs id

theorem keeps_event (s : State) (code : Nat) (src : Nat) (fields : List Nat) : Keeps [.evt] s
    (State.event s code src fields) := by
  unfold State.event
  try dsimp only
  repeat' first
    | with_reducible exact keeps_refl _ | with_reducible assumption | split
    | ((with_reducible apply keeps_step); (with_reducible apply upd_evt); rfl)

theorem sound_setArr (s : State) (a : Nat) (l : Line) (m : Mask) (hs : s.Sound q) : (State.setArr s a l m).Sound
    q := by
  unfold State.setArr
  refine sound_arr hs fun h => ?_
  rw [wf_iff] at *
  exact ⟨twf_setBytes _ _ _ _ h.1, h.2⟩

theorem keeps_setArr (s : State) (a : Nat) (l : Line) (m : Mask) : Keeps [.arr] s (State.setArr s a l m) := by
  unfold State.setArr
  try dsimp only
  repeat' first
    | with_reducible exact keeps_refl _ | with_reducible assumption | split
    | ((with_reducible apply keeps_step); (with_reducible apply upd_arr); rfl)

theorem sound_tallyWrite (s : State) (id : AgentId) (n : Nat) (hs : s.Sound q) : (State.tallyWrite s id n).Sound
    q := by
  unfold State.tallyWrite
  try dsimp only
  repeat' first
    | with_reducible assumption | with_reducible apply sound_setTally | with_reducible apply sound_event | split
    | with_reducible apply sound_mk

theorem keeps_tallyWrite (s : State) (id : AgentId) (n : Nat) : Keeps [.evt, .tly] s (State.tallyWrite s id n) := by
  unfold State.tallyWrite
  try dsimp only
  repeat' first
    | with_reducible exact keeps_refl _ | with_reducible assumption
    | ((with_reducible apply keeps_step); (with_reducible apply keeps_setTally); rfl)
    | ((with_reducible apply keeps_step); (with_reducible apply keeps_event); rfl) | split
    | ((with_reducible apply keeps_step); (with_reducible apply upd_tly); rfl)

theorem sound_setPoison (s : State) (ix : Nat) (b : Bool) (hs : s.Sound q) : (State.setPoison s ix b).Sound q := by
  unfold State.setPoison
  refine sound_arr hs fun h => ?_
  rw [wf_iff] at *
  exact ⟨h.1, twf_tset _ _ h.2.1, h.2.2⟩

theorem keeps_setPoison (s : State) (ix : Nat) (b : Bool) : Keeps [.arr] s (State.setPoison s ix b) := by
  unfold State.setPoison
  try dsimp only
  repeat' first
    | with_reducible exact keeps_refl _ | with_reducible assumption | split
    | ((with_reducible apply keeps_step); (with_reducible apply upd_arr); rfl)

theorem sound_zeroArr (s : State) (p : Nat → Bool) (hs : s.Sound q) : (State.zeroArr s p).Sound q := by
  unfold State.zeroArr
  refine sound_arr hs fun h => ?_
  rw [wf_iff] at *
  exact ⟨twf_filter _ h.1, twf_filter _ h.2.1, h.2.2⟩

theorem keeps_zeroArr (s : State) (p : Nat → Bool) : Keeps [.arr] s (State.zeroArr s p) := by
  unfold State.zeroArr
  try dsimp only
  repeat' first
    | with_reducible exact keeps_refl _ | with_reducible assumption | split
    | ((with_reducible apply keeps_step); (with_reducible apply upd_arr); rfl)

theorem sound_portOutBytes (s : State) (k : Nat) (n : Nat) (hs : s.Sound q) : (State.portOutBytes s k n).Sound q := by
  unfold State.portOutBytes
  try dsimp only
  repeat' first
    | with_reducible assumption | split | with_reducible apply sound_mk

theorem keeps_portOutBytes (s : State) (k : Nat) (n : Nat) : Keeps [.pmu] s (State.portOutBytes s k n) := by
  unfold State.portOutBytes
  try dsimp only
  repeat' first
    | with_reducible exact keeps_refl _ | with_reducible assumption | split
    | ((with_reducible apply keeps_step); (with_reducible apply upd_pmu); rfl)

theorem sound_modMon (s : State) (c : Nat) (f : Mon → Mon) (hs : s.Sound q) : (State.modMon s c f).Sound q := by
  unfold State.modMon
  try dsimp only
  repeat' first
    | with_reducible assumption | split | with_reducible apply sound_mk

theorem keeps_modMon (s : State) (c : Nat) (f : Mon → Mon) : Keeps [.cone] s (State.modMon s c f) := by
  unfold State.modMon
  try dsimp only
  repeat' first
    | with_reducible exact keeps_refl _ | with_reducible assumption | split
    | ((with_reducible apply keeps_step); (with_reducible apply upd_cone); rfl)

theorem sound_newWindow (s : State) (c : Nat) (hs : s.Sound q) : (State.newWindow s c).Sound q := by
  unfold State.newWindow
  try dsimp only
  repeat' first
    | with_reducible assumption | with_reducible apply sound_modMon | split | with_reducible apply sound_mk

theorem keeps_newWindow (s : State) (c : Nat) : Keeps [.cone] s (State.newWindow s c) := by
  unfold State.newWindow
  try dsimp only
  repeat' first
    | with_reducible exact keeps_refl _ | with_reducible assumption
    | ((with_reducible apply keeps_step); (with_reducible apply keeps_modMon); rfl) | split
    | ((with_reducible apply keeps_step); (with_reducible apply upd_cone); rfl)

theorem sound_modRing (s : State) (i : Nat) (f : Ring → Ring) (hs : s.Sound q) : (State.modRing s i f).Sound q := by
  unfold State.modRing
  try dsimp only
  repeat' first
    | with_reducible assumption | split | with_reducible apply sound_mk

theorem keeps_modRing (s : State) (i : Nat) (f : Ring → Ring) : Keeps [.rings] s (State.modRing s i f) := by
  unfold State.modRing
  try dsimp only
  repeat' first
    | with_reducible exact keeps_refl _ | with_reducible assumption | split
    | ((with_reducible apply keeps_step); (with_reducible apply upd_rings); rfl)

theorem sound_count (s : State) (code : Nat) (a : Attr) (inc : Nat) (hs : s.Sound q) :
    (State.count s code a inc).Sound q := by
  unfold State.count
  try dsimp only
  repeat' first
    | with_reducible assumption | with_reducible apply sound_countOn | with_reducible apply sound_foldl | intro _ _ _
    | split

theorem keeps_count (s : State) (code : Nat) (a : Attr) (inc : Nat) : Keeps [.free, .pmu] s
    (State.count s code a inc) := by
  unfold State.count
  try dsimp only
  repeat' first
    | with_reducible exact keeps_refl _ | with_reducible assumption
    | ((with_reducible apply keeps_step); (with_reducible apply keeps_countOn); rfl)
    | with_reducible apply keeps_foldl | intro _ _ _ | split

theorem sound_modPeri (s : State) (b : Nat) (f : Periphery → Periphery) (hs : s.Sound q) :
    (State.modPeri s b f).Sound q := by
  unfold State.modPeri
  try dsimp only
  repeat' first
    | with_reducible assumption | split | with_reducible apply sound_mk

theorem keeps_modPeri (s : State) (b : Nat) (f : Periphery → Periphery) : Keeps [.kiln] s (State.modPeri s b f) := by
  unfold State.modPeri
  try dsimp only
  repeat' first
    | with_reducible exact keeps_refl _ | with_reducible assumption | split
    | ((with_reducible apply keeps_step); (with_reducible apply upd_kiln); rfl)

theorem sound_skidStep (s : State) (a : Attr) (hs : s.Sound q) : (State.skidStep s a).Sound q := by
  unfold State.skidStep
  try dsimp only
  repeat' first
    | with_reducible assumption | with_reducible apply sound_sample | split | with_reducible apply sound_mk

theorem keeps_skidStep (s : State) (a : Attr) : Keeps [.pmu] s (State.skidStep s a) := by
  unfold State.skidStep
  try dsimp only
  repeat' first
    | with_reducible exact keeps_refl _ | with_reducible assumption
    | ((with_reducible apply keeps_step); (with_reducible apply keeps_sample); rfl) | split
    | ((with_reducible apply keeps_step); (with_reducible apply upd_pmu); rfl)

theorem sound_portInBytes (s : State) (k : Nat) (n : Nat) (hs : s.Sound q) : (State.portInBytes s k n).Sound q := by
  unfold State.portInBytes
  try dsimp only
  repeat' first
    | with_reducible assumption | split | with_reducible apply sound_mk

theorem keeps_portInBytes (s : State) (k : Nat) (n : Nat) : Keeps [.pmu] s (State.portInBytes s k n) := by
  unfold State.portInBytes
  try dsimp only
  repeat' first
    | with_reducible exact keeps_refl _ | with_reducible assumption | split
    | ((with_reducible apply keeps_step); (with_reducible apply upd_pmu); rfl)

theorem sound_setAgent (s : State) (id : AgentId) (a : Agent) (hs : s.Sound q) : (State.setAgent s id a).Sound q := by
  unfold State.setAgent
  try dsimp only
  repeat' first
    | with_reducible assumption | split | with_reducible apply sound_mk

theorem keeps_setAgent (s : State) (id : AgentId) (a : Agent) : Keeps [.agents] s (State.setAgent s id a) := by
  unfold State.setAgent
  try dsimp only
  repeat' first
    | with_reducible exact keeps_refl _ | with_reducible assumption | split
    | ((with_reducible apply keeps_step); (with_reducible apply upd_agents); rfl)

theorem sound_modShelf (s : State) (i : Nat) (f : Shelf → Shelf) (hs : s.Sound q) : (State.modShelf s i f).Sound
    q := by
  unfold State.modShelf
  try dsimp only
  repeat' first
    | with_reducible assumption | split | with_reducible apply sound_mk

theorem keeps_modShelf (s : State) (i : Nat) (f : Shelf → Shelf) : Keeps [.shelves] s (State.modShelf s i f) := by
  unfold State.modShelf
  try dsimp only
  repeat' first
    | with_reducible exact keeps_refl _ | with_reducible assumption | split
    | ((with_reducible apply keeps_step); (with_reducible apply upd_shelves); rfl)

theorem sound_freshAgents (s : State) (hs : s.Sound q) : (State.freshAgents s).Sound q := by
  unfold State.freshAgents
  try dsimp only
  repeat' first
    | with_reducible assumption | with_reducible apply sound_modShelf | with_reducible apply sound_foldl | intro _ _ _
    | split

theorem keeps_freshAgents (s : State) : Keeps [.shelves] s (State.freshAgents s) := by
  unfold State.freshAgents
  try dsimp only
  repeat' first
    | with_reducible exact keeps_refl _ | with_reducible assumption
    | ((with_reducible apply keeps_step); (with_reducible apply keeps_modShelf); rfl)
    | with_reducible apply keeps_foldl | intro _ _ _ | split

theorem sound_holdBuffer (s : State) (p : Port) (vc : Nat) (hs : s.Sound q) : (State.holdBuffer s p vc).Sound q := by
  unfold State.holdBuffer
  try dsimp only
  repeat' first
    | with_reducible assumption | with_reducible apply sound_setLink | split

theorem keeps_holdBuffer (s : State) (p : Port) (vc : Nat) : Keeps [.links] s (State.holdBuffer s p vc) := by
  unfold State.holdBuffer
  try dsimp only
  repeat' first
    | with_reducible exact keeps_refl _ | with_reducible assumption
    | ((with_reducible apply keeps_step); (with_reducible apply keeps_setLink); rfl) | split

theorem sound_answered (s : State) (c : BitVec 3) (p : Port) (born : Nat) (hs : s.Sound q) :
    (State.answered s c p born).Sound q := by
  unfold State.answered
  try dsimp only
  repeat' first
    | with_reducible assumption | with_reducible apply sound_modMon | split

theorem keeps_answered (s : State) (c : BitVec 3) (p : Port) (born : Nat) : Keeps [.cone] s
    (State.answered s c p born) := by
  unfold State.answered
  try dsimp only
  repeat' first
    | with_reducible exact keeps_refl _ | with_reducible assumption
    | ((with_reducible apply keeps_step); (with_reducible apply keeps_modMon); rfl) | split

theorem sound_spreadAgents (s : State) (hs : s.Sound q) : (State.spreadAgents s).Sound q := by
  unfold State.spreadAgents
  try dsimp only
  repeat' first
    | with_reducible assumption | with_reducible apply sound_modShelf | with_reducible apply sound_foldl | intro _ _ _
    | split

theorem keeps_spreadAgents (s : State) : Keeps [.shelves] s (State.spreadAgents s) := by
  unfold State.spreadAgents
  try dsimp only
  repeat' first
    | with_reducible exact keeps_refl _ | with_reducible assumption
    | ((with_reducible apply keeps_step); (with_reducible apply keeps_modShelf); rfl)
    | with_reducible apply keeps_foldl | intro _ _ _ | split

theorem sound_modCtx (s : State) (i : Nat) (f : Ctx → Ctx) (hs : s.Sound q) : (State.modCtx s i f).Sound q := by
  unfold State.modCtx
  try dsimp only
  repeat' first
    | with_reducible assumption | split | with_reducible apply sound_mk

theorem keeps_modCtx (s : State) (i : Nat) (f : Ctx → Ctx) : Keeps [.cmds] s (State.modCtx s i f) := by
  unfold State.modCtx
  try dsimp only
  repeat' first
    | with_reducible exact keeps_refl _ | with_reducible assumption | split
    | ((with_reducible apply keeps_step); (with_reducible apply upd_cmds); rfl)

theorem sound_coneBytes (s : State) (c : BitVec 3) (n : Nat) (hs : s.Sound q) : (State.coneBytes s c n).Sound q := by
  unfold State.coneBytes
  try dsimp only
  repeat' first
    | with_reducible assumption | with_reducible apply sound_modMon | split

theorem keeps_coneBytes (s : State) (c : BitVec 3) (n : Nat) : Keeps [.cone] s (State.coneBytes s c n) := by
  unfold State.coneBytes
  try dsimp only
  repeat' first
    | with_reducible exact keeps_refl _ | with_reducible assumption
    | ((with_reducible apply keeps_step); (with_reducible apply keeps_modMon); rfl) | split

theorem sound_modJob (s : State) (c : Nat) (f : Job → Job) (hs : s.Sound q) : (State.modJob s c f).Sound q := by
  unfold State.modJob
  try dsimp only
  repeat' first
    | with_reducible assumption | split | with_reducible apply sound_mk

theorem keeps_modJob (s : State) (c : Nat) (f : Job → Job) : Keeps [.kiln] s (State.modJob s c f) := by
  unfold State.modJob
  try dsimp only
  repeat' first
    | with_reducible exact keeps_refl _ | with_reducible assumption | split
    | ((with_reducible apply keeps_step); (with_reducible apply upd_kiln); rfl)

theorem sound_transmit (s : State) (p : Port) (m : Msg) (hs : s.Sound q) : (State.transmit s p m).Sound q := by
  unfold State.transmit
  try dsimp only
  repeat' first
    | with_reducible assumption | with_reducible apply sound_answered | with_reducible apply sound_coneBytes
    | with_reducible apply sound_portOutBytes | with_reducible apply sound_setLink | split
    | with_reducible apply sound_mk

theorem keeps_transmit (s : State) (p : Port) (m : Msg) : Keeps [.cone, .pmu, .links, .out] s
    (State.transmit s p m) := by
  unfold State.transmit
  try dsimp only
  repeat' first
    | with_reducible exact keeps_refl _ | with_reducible assumption
    | ((with_reducible apply keeps_step); (with_reducible apply keeps_answered); rfl)
    | ((with_reducible apply keeps_step); (with_reducible apply keeps_coneBytes); rfl)
    | ((with_reducible apply keeps_step); (with_reducible apply keeps_portOutBytes); rfl)
    | ((with_reducible apply keeps_step); (with_reducible apply keeps_setLink); rfl) | split
    | ((with_reducible apply keeps_step); (with_reducible apply upd_out); rfl)

theorem sound_emit (s : State) (m : Msg) (hs : s.Sound q) : (State.emit s m).Sound q := by
  unfold State.emit
  try dsimp only
  repeat' first
    | with_reducible assumption | with_reducible apply sound_transmit | with_reducible apply sound_setLink | split
    | with_reducible apply sound_mk

theorem keeps_emit (s : State) (m : Msg) : Keeps [.cone, .pmu, .links, .out] s (State.emit s m) := by
  unfold State.emit
  try dsimp only
  repeat' first
    | with_reducible exact keeps_refl _ | with_reducible assumption
    | ((with_reducible apply keeps_step); (with_reducible apply keeps_transmit); rfl)
    | ((with_reducible apply keeps_step); (with_reducible apply keeps_setLink); rfl) | split
    | ((with_reducible apply keeps_step); (with_reducible apply upd_out); rfl)

end Sys2Proof.Machine
end

