-- ==== Sys2Proof/Laws/Auu.lean ====
section
/-! SUPPORT. What the operations of Machine/Auu.lean do to the whole state, two lemmas per operation: `sound_` (it keeps the
queue of waiting commands and the invariant of Safety.lean) and `keeps_` (the fields that it may change). -/
namespace Sys2Proof.Machine

variable {q : List Instr}

theorem sound_auuReject (s : State) (sh : Nat) (cause : Nat) (who : Nat) (a : Nat) (hs : s.Sound q) :
    (State.auuReject s sh cause who a).Sound q := by
  unfold State.auuReject
  try dsimp only
  repeat' first
    | with_reducible assumption | with_reducible apply sound_event | with_reducible apply sound_modShelf | split

theorem keeps_auuReject (s : State) (sh : Nat) (cause : Nat) (who : Nat) (a : Nat) : Keeps [.evt, .shelves] s
    (State.auuReject s sh cause who a) := by
  unfold State.auuReject
  try dsimp only
  repeat' first
    | with_reducible exact keeps_refl _ | with_reducible assumption
    | ((with_reducible apply keeps_step); (with_reducible apply keeps_event); rfl)
    | ((with_reducible apply keeps_step); (with_reducible apply keeps_modShelf); rfl) | split

theorem sound_auuEnd (s : State) (sh : Nat) (a : AuuSt) (l : LineIx) (c : BitVec 3) (who : Option AgentId)
    (hs : s.Sound q) : (State.auuEnd s sh a l c who).Sound q := by
  unfold State.auuEnd
  try dsimp only
  repeat' first
    | with_reducible assumption | with_reducible apply sound_count | with_reducible apply sound_modShelf | split

theorem keeps_auuEnd (s : State) (sh : Nat) (a : AuuSt) (l : LineIx) (c : BitVec 3) (who : Option AgentId) :
    Keeps [.free, .shelves, .pmu] s (State.auuEnd s sh a l c who) := by
  unfold State.auuEnd
  try dsimp only
  repeat' first
    | with_reducible exact keeps_refl _ | with_reducible assumption
    | ((with_reducible apply keeps_step); (with_reducible apply keeps_count); rfl)
    | ((with_reducible apply keeps_step); (with_reducible apply keeps_modShelf); rfl) | split

theorem sound_takeGroup (s : State) (sh : Nat) (hs : s.Sound q) : (State.takeGroup s sh).2.Sound q := by
  unfold State.takeGroup
  try dsimp only
  repeat' first
    | with_reducible assumption | with_reducible apply sound_draw | with_reducible apply sound_modShelf | split

theorem keeps_takeGroup (s : State) (sh : Nat) : Keeps [.free, .shelves] s (State.takeGroup s sh).2 := by
  unfold State.takeGroup
  try dsimp only
  repeat' first
    | with_reducible exact keeps_refl _ | with_reducible assumption
    | ((with_reducible apply keeps_step); (with_reducible apply keeps_draw); rfl)
    | ((with_reducible apply keeps_step); (with_reducible apply keeps_modShelf); rfl) | split

end Sys2Proof.Machine
end

