-- ==== Sys2Proof/Laws/Backing.lean ====
section
/-! SUPPORT. What the operations of Machine/Backing.lean do to the whole state, two lemmas per operation: `sound_` (it keeps the
queue of waiting commands and the invariant of Safety.lean) and `keeps_` (the fields that it may change). -/
namespace Sys2Proof.Machine

variable {q : List Instr}

theorem sound_backReq (s : State) (bp : Nat) (write : Bool) (addr : Nat) (mask : Mask) (data : Line)
    (cone : BitVec 3) (why : Why) (hs : s.Sound q) : (State.backReq s bp write addr mask data cone why).Sound q
    := by
  unfold State.backReq
  try dsimp only
  repeat' first
    | with_reducible assumption | split | with_reducible apply sound_mk

theorem keeps_backReq (s : State) (bp : Nat) (write : Bool) (addr : Nat) (mask : Mask) (data : Line)
    (cone : BitVec 3) (why : Why) : Keeps [.back] s (State.backReq s bp write addr mask data cone why) := by
  unfold State.backReq
  try dsimp only
  repeat' first
    | with_reducible exact keeps_refl _ | with_reducible assumption | split
    | ((with_reducible apply keeps_step); (with_reducible apply upd_back); rfl)

theorem sound_openMiss (s : State) (bank : Nat) (l : LineIx) (cone : BitVec 3) (alloc : Bool)
    (agent : Option AgentId) (u : MissUse) (hs : s.Sound q) : (State.openMiss s bank l cone alloc agent u).Sound
    q := by
  unfold State.openMiss
  try dsimp only
  repeat' first
    | with_reducible assumption | with_reducible apply sound_count | with_reducible apply sound_backReq | split
    | with_reducible apply sound_mk

theorem keeps_openMiss (s : State) (bank : Nat) (l : LineIx) (cone : BitVec 3) (alloc : Bool)
    (agent : Option AgentId) (u : MissUse) : Keeps [.free, .back, .pmu] s
    (State.openMiss s bank l cone alloc agent u) := by
  unfold State.openMiss
  try dsimp only
  repeat' first
    | with_reducible exact keeps_refl _ | with_reducible assumption
    | ((with_reducible apply keeps_step); (with_reducible apply keeps_count); rfl)
    | ((with_reducible apply keeps_step); (with_reducible apply keeps_backReq); rfl) | split
    | ((with_reducible apply keeps_step); (with_reducible apply upd_back); rfl)

theorem sound_missRetry (s : State) (bank : Nat) (hs : s.Sound q) : (State.missRetry s bank).Sound q := by
  unfold State.missRetry
  try dsimp only
  repeat' first
    | with_reducible assumption | with_reducible apply sound_openMiss | with_reducible apply sound_foldl | intro _ _ _
    | split | with_reducible apply sound_mk

theorem keeps_missRetry (s : State) (bank : Nat) : Keeps [.free, .back, .pmu] s (State.missRetry s bank) := by
  unfold State.missRetry
  try dsimp only
  repeat' first
    | with_reducible exact keeps_refl _ | with_reducible assumption
    | ((with_reducible apply keeps_step); (with_reducible apply keeps_openMiss); rfl)
    | with_reducible apply keeps_foldl | intro _ _ _ | split
    | ((with_reducible apply keeps_step); (with_reducible apply upd_back); rfl)

theorem sound_dropSlp (s : State) (h : Half) (hs : s.Sound q) : (State.dropSlp s h).Sound q := by
  unfold State.dropSlp
  try dsimp only
  repeat' first
    | with_reducible assumption | split | with_reducible apply sound_mk

theorem keeps_dropSlp (s : State) (h : Half) : Keeps [.out] s (State.dropSlp s h) := by
  unfold State.dropSlp
  try dsimp only
  repeat' first
    | with_reducible exact keeps_refl _ | with_reducible assumption | split
    | ((with_reducible apply keeps_step); (with_reducible apply upd_out); rfl)

theorem sound_stayAwake (s : State) (h : Half) (hs : s.Sound q) : (State.stayAwake s h).Sound q := by
  unfold State.stayAwake
  try dsimp only
  repeat' first
    | with_reducible assumption | with_reducible apply sound_dropSlp | with_reducible apply sound_setHalf | split

theorem keeps_stayAwake (s : State) (h : Half) : Keeps [.ckp, .out] s (State.stayAwake s h) := by
  unfold State.stayAwake
  try dsimp only
  repeat' first
    | with_reducible exact keeps_refl _ | with_reducible assumption
    | ((with_reducible apply keeps_step); (with_reducible apply keeps_dropSlp); rfl)
    | ((with_reducible apply keeps_step); (with_reducible apply keeps_setHalf); rfl) | split

theorem sound_wakeHalf (s : State) (h : Half) (hs : s.Sound q) : (State.wakeHalf s h).Sound q := by
  unfold State.wakeHalf
  try dsimp only
  repeat' first
    | with_reducible assumption | with_reducible apply sound_stayAwake | with_reducible apply sound_setHalf
    | with_reducible apply sound_draw | split

theorem keeps_wakeHalf (s : State) (h : Half) : Keeps [.free, .ckp, .out] s (State.wakeHalf s h) := by
  unfold State.wakeHalf
  try dsimp only
  repeat' first
    | with_reducible exact keeps_refl _ | with_reducible assumption
    | ((with_reducible apply keeps_step); (with_reducible apply keeps_stayAwake); rfl)
    | ((with_reducible apply keeps_step); (with_reducible apply keeps_setHalf); rfl)
    | ((with_reducible apply keeps_step); (with_reducible apply keeps_draw); rfl) | split

theorem sound_wakeAll (s : State) (hs : s.Sound q) : (State.wakeAll s).Sound q := by
  unfold State.wakeAll
  try dsimp only
  repeat' first
    | with_reducible assumption | with_reducible apply sound_wakeHalf | split

theorem keeps_wakeAll (s : State) : Keeps [.free, .ckp, .out] s (State.wakeAll s) := by
  unfold State.wakeAll
  try dsimp only
  repeat' first
    | with_reducible exact keeps_refl _ | with_reducible assumption
    | ((with_reducible apply keeps_step); (with_reducible apply keeps_wakeHalf); rfl) | split

theorem sound_spoilWindows (s : State) (hs : s.Sound q) : (State.spoilWindows s).Sound q := by
  unfold State.spoilWindows
  try dsimp only
  repeat' first
    | with_reducible assumption | with_reducible apply sound_modMon | with_reducible apply sound_foldl | intro _ _ _
    | split

theorem keeps_spoilWindows (s : State) : Keeps [.cone] s (State.spoilWindows s) := by
  unfold State.spoilWindows
  try dsimp only
  repeat' first
    | with_reducible exact keeps_refl _ | with_reducible assumption
    | ((with_reducible apply keeps_step); (with_reducible apply keeps_modMon); rfl) | with_reducible apply keeps_foldl
    | intro _ _ _ | split

theorem sound_cutEnd (s : State) (hs : s.Sound q) : (State.cutEnd s).Sound q := by
  unfold State.cutEnd
  try dsimp only
  repeat' first
    | with_reducible assumption | split | with_reducible apply sound_mk

theorem keeps_cutEnd (s : State) : Keeps [.ep, .out] s (State.cutEnd s) := by
  unfold State.cutEnd
  try dsimp only
  repeat' first
    | with_reducible exact keeps_refl _ | with_reducible assumption | split
    | ((with_reducible apply keeps_step); (with_reducible apply upd_ep_out); rfl)

theorem sound_trigger (s : State) (cause : Nat) (hs : s.Sound q) : (State.trigger s cause).Sound q := by
  unfold State.trigger
  try dsimp only
  repeat' first
    | with_reducible assumption | with_reducible apply sound_wakeAll | with_reducible apply sound_spoilWindows
    | with_reducible apply sound_cutEnd | split | with_reducible apply sound_mk

theorem keeps_trigger (s : State) (cause : Nat) : Keeps [.free, .cone, .ep, .ckp, .out] s
    (State.trigger s cause) := by
  unfold State.trigger
  try dsimp only
  repeat' first
    | with_reducible exact keeps_refl _ | with_reducible assumption
    | ((with_reducible apply keeps_step); (with_reducible apply keeps_wakeAll); rfl)
    | ((with_reducible apply keeps_step); (with_reducible apply keeps_spoilWindows); rfl)
    | ((with_reducible apply keeps_step); (with_reducible apply keeps_cutEnd); rfl) | split
    | ((with_reducible apply keeps_step); (with_reducible apply upd_ep_out); rfl)

theorem sound_jobStart (s : State) (id : Nat) (hs : s.Sound q) : (State.jobStart s id).Sound q := by
  unfold State.jobStart
  try dsimp only
  repeat' first
    | with_reducible assumption | with_reducible apply sound_backReq | with_reducible apply sound_trigger | split
    | with_reducible apply sound_mk

theorem keeps_jobStart (s : State) (id : Nat) : Keeps [.free, .back, .cone, .ep, .ckp, .out] s
    (State.jobStart s id) := by
  unfold State.jobStart
  try dsimp only
  repeat' first
    | with_reducible exact keeps_refl _ | with_reducible assumption
    | ((with_reducible apply keeps_step); (with_reducible apply keeps_backReq); rfl)
    | ((with_reducible apply keeps_step); (with_reducible apply keeps_trigger); rfl) | split
    | ((with_reducible apply keeps_step); (with_reducible apply upd_back); rfl)

theorem sound_jobAck (s : State) (id : Nat) (hs : s.Sound q) : (State.jobAck s id).Sound q := by
  unfold State.jobAck
  try dsimp only
  repeat' first
    | with_reducible assumption | with_reducible apply sound_backReq | with_reducible apply sound_jobStart | split
    | with_reducible apply sound_mk

theorem keeps_jobAck (s : State) (id : Nat) : Keeps [.free, .back, .cone, .ep, .ckp, .out] s (State.jobAck s id) := by
  unfold State.jobAck
  try dsimp only
  repeat' first
    | with_reducible exact keeps_refl _ | with_reducible assumption
    | ((with_reducible apply keeps_step); (with_reducible apply keeps_backReq); rfl)
    | ((with_reducible apply keeps_step); (with_reducible apply keeps_jobStart); rfl) | split
    | ((with_reducible apply keeps_step); (with_reducible apply upd_back); rfl)

theorem sound_backWrite (s : State) (l : LineIx) (mask : Mask) (data : Line) (cone : BitVec 3) (src : Nat)
    (prior : Bool) (w : Waiter) (hs : s.Sound q) : (State.backWrite s l mask data cone src prior w).Sound q :=
    by
  unfold State.backWrite
  try dsimp only
  repeat' first
    | with_reducible assumption | with_reducible apply sound_count | with_reducible apply sound_jobStart
    | with_reducible apply sound_backReq | split | with_reducible apply sound_mk

theorem keeps_backWrite (s : State) (l : LineIx) (mask : Mask) (data : Line) (cone : BitVec 3) (src : Nat)
    (prior : Bool) (w : Waiter) : Keeps [.free, .back, .cone, .pmu, .ep, .ckp, .out] s
    (State.backWrite s l mask data cone src prior w) := by
  unfold State.backWrite
  try dsimp only
  repeat' first
    | with_reducible exact keeps_refl _ | with_reducible assumption
    | ((with_reducible apply keeps_step); (with_reducible apply keeps_count); rfl)
    | ((with_reducible apply keeps_step); (with_reducible apply keeps_jobStart); rfl)
    | ((with_reducible apply keeps_step); (with_reducible apply keeps_backReq); rfl) | split
    | ((with_reducible apply keeps_step); (with_reducible apply upd_back); rfl)

theorem sound_jobLog (s : State) (id : Nat) (old : Line) (ue : Bool) (hs : s.Sound q) :
    (State.jobLog s id old ue).Sound q := by
  unfold State.jobLog
  try dsimp only
  repeat' first
    | with_reducible assumption | with_reducible apply sound_backReq | with_reducible apply sound_count
    | with_reducible apply sound_trigger | split | with_reducible apply sound_mk

theorem keeps_jobLog (s : State) (id : Nat) (old : Line) (ue : Bool) : Keeps
    [.free, .back, .cone, .pmu, .ep, .ckp, .out] s (State.jobLog s id old ue) := by
  unfold State.jobLog
  try dsimp only
  repeat' first
    | with_reducible exact keeps_refl _ | with_reducible assumption
    | ((with_reducible apply keeps_step); (with_reducible apply keeps_backReq); rfl)
    | ((with_reducible apply keeps_step); (with_reducible apply keeps_count); rfl)
    | ((with_reducible apply keeps_step); (with_reducible apply keeps_trigger); rfl) | split
    | ((with_reducible apply keeps_step); (with_reducible apply upd_back_ep); rfl)

end Sys2Proof.Machine
end

