-- ==== Sys2Proof/Laws/PairOps.lean ====
section
/-! SUPPORT. What the operations of Machine/PairOps.lean do to the whole state, two lemmas per operation: `sound_` (it keeps the
queue of waiting commands and the invariant of Safety.lean) and `keeps_` (the fields that it may change). -/
namespace Sys2Proof.Machine

variable {q : List Instr}

theorem sound_modFar (s : State) (n : Nat) (f : FarLink → FarLink) (hs : s.Sound q) : (State.modFar s n f).Sound
    q := by
  unfold State.modFar
  try dsimp only
  repeat' first
    | with_reducible assumption | split | with_reducible apply sound_mk

theorem keeps_modFar (s : State) (n : Nat) (f : FarLink → FarLink) : Keeps [.links] s (State.modFar s n f) := by
  unfold State.modFar
  try dsimp only
  repeat' first
    | with_reducible exact keeps_refl _ | with_reducible assumption | split
    | ((with_reducible apply keeps_step); (with_reducible apply upd_links); rfl)

theorem sound_farPump (s : State) (n : Nat) (hs : s.Sound q) : (State.farPump s n).Sound q := by
  unfold State.farPump
  try dsimp only
  repeat' first
    | with_reducible assumption | with_reducible apply sound_portOutBytes | with_reducible apply sound_modFar
    | with_reducible apply sound_foldl | intro _ _ _ | split | with_reducible apply sound_mk

theorem keeps_farPump (s : State) (n : Nat) : Keeps [.pmu, .links, .out] s (State.farPump s n) := by
  unfold State.farPump
  try dsimp only
  repeat' first
    | with_reducible exact keeps_refl _ | with_reducible assumption
    | ((with_reducible apply keeps_step); (with_reducible apply keeps_portOutBytes); rfl)
    | ((with_reducible apply keeps_step); (with_reducible apply keeps_modFar); rfl) | with_reducible apply keeps_foldl
    | intro _ _ _ | split | ((with_reducible apply keeps_step); (with_reducible apply upd_out); rfl)

theorem sound_farSend (s : State) (n : Nat) (f : MFrame) (hs : s.Sound q) : (State.farSend s n f).Sound q := by
  unfold State.farSend
  try dsimp only
  repeat' first
    | with_reducible assumption | with_reducible apply sound_farPump | with_reducible apply sound_modFar | split

theorem keeps_farSend (s : State) (n : Nat) (f : MFrame) : Keeps [.pmu, .links, .out] s (State.farSend s n f) := by
  unfold State.farSend
  try dsimp only
  repeat' first
    | with_reducible exact keeps_refl _ | with_reducible assumption
    | ((with_reducible apply keeps_step); (with_reducible apply keeps_farPump); rfl)
    | ((with_reducible apply keeps_step); (with_reducible apply keeps_modFar); rfl) | split

theorem sound_mirrorFlush (s : State) (hs : s.Sound q) : (State.mirrorFlush s).Sound q := by
  unfold State.mirrorFlush
  try dsimp only
  repeat' first
    | with_reducible assumption | with_reducible apply sound_farSend | with_reducible apply sound_foldl | intro _ _ _
    | split | with_reducible apply sound_mk

theorem keeps_mirrorFlush (s : State) : Keeps [.pmu, .pair, .links, .out] s (State.mirrorFlush s) := by
  unfold State.mirrorFlush
  try dsimp only
  repeat' first
    | with_reducible exact keeps_refl _ | with_reducible assumption
    | ((with_reducible apply keeps_step); (with_reducible apply keeps_farSend); rfl)
    | with_reducible apply keeps_foldl | intro _ _ _ | split
    | ((with_reducible apply keeps_step); (with_reducible apply upd_pair); rfl)

theorem sound_mirrorSend (s : State) (l : LineIx) (f : MFrame) (hs : s.Sound q) : (State.mirrorSend s l f).Sound
    q := by
  unfold State.mirrorSend
  try dsimp only
  repeat' first
    | with_reducible assumption | with_reducible apply sound_mirrorFlush | split | with_reducible apply sound_mk

theorem keeps_mirrorSend (s : State) (l : LineIx) (f : MFrame) : Keeps [.pmu, .pair, .links, .out] s
    (State.mirrorSend s l f) := by
  unfold State.mirrorSend
  try dsimp only
  repeat' first
    | with_reducible exact keeps_refl _ | with_reducible assumption
    | ((with_reducible apply keeps_step); (with_reducible apply keeps_mirrorFlush); rfl) | split
    | ((with_reducible apply keeps_step); (with_reducible apply upd_pair); rfl)

theorem sound_farTrain (s : State) (n : Nat) (hs : s.Sound q) : (State.farTrain s n).Sound q := by
  unfold State.farTrain
  try dsimp only
  repeat' first
    | with_reducible assumption | with_reducible apply sound_modFar | split

theorem keeps_farTrain (s : State) (n : Nat) : Keeps [.links] s (State.farTrain s n) := by
  unfold State.farTrain
  try dsimp only
  repeat' first
    | with_reducible exact keeps_refl _ | with_reducible assumption
    | ((with_reducible apply keeps_step); (with_reducible apply keeps_modFar); rfl) | split

theorem sound_mirrorPorts (s : State) (v : BitVec 2) (hs : s.Sound q) : (State.mirrorPorts s v).Sound q := by
  unfold State.mirrorPorts
  try dsimp only
  repeat' first
    | with_reducible assumption | split | with_reducible apply sound_mk

theorem keeps_mirrorPorts (s : State) (v : BitVec 2) : Keeps [.pair] s (State.mirrorPorts s v) := by
  unfold State.mirrorPorts
  try dsimp only
  repeat' first
    | with_reducible exact keeps_refl _ | with_reducible assumption | split
    | ((with_reducible apply keeps_step); (with_reducible apply upd_pair); rfl)

theorem sound_setEnables (s : State) (e0 : BitVec 16) (e1 : BitVec 22) (hp : s.pending = q) (ha : s.arr.wf = true)
    (hv : s.evt.bounded = true) (h0 : s.ckp.lock0 &&& ~~~e0 = 0) (h1 : s.ckp.lock1 &&& ~~~e1 = 0) :
    (State.setEnables s e0 e1).Sound q := by
  unfold State.setEnables
  apply sound_foldl
  · intro s n hs
    split
    · exact hs
    · split
      · exact sound_farTrain _ _ hs
      · exact sound_mk (sound_modFar _ _ _ hs)
  · refine ⟨hp, ha, ?_, hv⟩
    simp only [Clocks.locked, h0, h1, beq_self_eq_true, Bool.and_self]

theorem keeps_setEnables (s : State) (e0 : BitVec 16) (e1 : BitVec 22) : Keeps [.pair, .ckp, .links] s
    (State.setEnables s e0 e1) := by
  unfold State.setEnables
  try dsimp only
  repeat' first
    | with_reducible exact keeps_refl _ | with_reducible assumption
    | ((with_reducible apply keeps_step); (with_reducible apply keeps_farTrain); rfl)
    | ((with_reducible apply keeps_step); (with_reducible apply keeps_modFar); rfl)
    | ((with_reducible apply keeps_step); (with_reducible apply keeps_mirrorPorts); rfl)
    | with_reducible apply keeps_foldl | intro _ _ _ | split
    | ((with_reducible apply keeps_step); (with_reducible apply upd_ckp); rfl)

theorem sound_farReplay (s : State) (n : Nat) (seq : Nat) (hs : s.Sound q) : (State.farReplay s n seq).Sound q := by
  unfold State.farReplay
  try dsimp only
  repeat' first
    | with_reducible assumption | split | with_reducible apply sound_mk

theorem keeps_farReplay (s : State) (n : Nat) (seq : Nat) : Keeps [.out] s (State.farReplay s n seq) := by
  unfold State.farReplay
  try dsimp only
  repeat' first
    | with_reducible exact keeps_refl _ | with_reducible assumption | split
    | ((with_reducible apply keeps_step); (with_reducible apply upd_out); rfl)

theorem sound_fencedEvent (s : State) (who : Nat) (l : LineIx) (hs : s.Sound q) :
    (State.fencedEvent s who l).Sound q := by
  unfold State.fencedEvent
  try dsimp only
  repeat' first
    | with_reducible assumption | with_reducible apply sound_event | split

theorem keeps_fencedEvent (s : State) (who : Nat) (l : LineIx) : Keeps [.evt] s (State.fencedEvent s who l) := by
  unfold State.fencedEvent
  try dsimp only
  repeat' first
    | with_reducible exact keeps_refl _ | with_reducible assumption
    | ((with_reducible apply keeps_step); (with_reducible apply keeps_event); rfl) | split

theorem sound_mirrorAsk (s : State) (w : MWait) (hs : s.Sound q) : (State.mirrorAsk s w).2.Sound q := by
  unfold State.mirrorAsk
  try dsimp only
  repeat' first
    | with_reducible assumption | split | with_reducible apply sound_mk

theorem keeps_mirrorAsk (s : State) (w : MWait) : Keeps [.pair] s (State.mirrorAsk s w).2 := by
  unfold State.mirrorAsk
  try dsimp only
  repeat' first
    | with_reducible exact keeps_refl _ | with_reducible assumption | split
    | ((with_reducible apply keeps_step); (with_reducible apply upd_pair); rfl)

theorem sound_markLine (s : State) (l : LineIx) (hs : s.Sound q) : (State.markLine s l).Sound q := by
  unfold State.markLine
  try dsimp only
  repeat' first
    | with_reducible assumption | split | with_reducible apply sound_mk

theorem keeps_markLine (s : State) (l : LineIx) : Keeps [.pair] s (State.markLine s l) := by
  unfold State.markLine
  try dsimp only
  repeat' first
    | with_reducible exact keeps_refl _ | with_reducible assumption | split
    | ((with_reducible apply keeps_step); (with_reducible apply upd_pair); rfl)

end Sys2Proof.Machine
end

