-- ==== Sys2Proof/Laws/Deliver.lean ====
section
/-! SUPPORT. What the operations of Machine/Deliver.lean do to the whole state, two lemmas per operation: `sound_` (it keeps the
queue of waiting commands and the invariant of Safety.lean) and `keeps_` (the fields that it may change). -/
namespace Sys2Proof.Machine

variable {q : List Instr}

theorem sound_syncRead (s : State) (l : LineIx) (d : Option Line) (hs : s.Sound q) :
    (State.syncRead s l d).Sound q := by
  unfold State.syncRead
  try dsimp only
  repeat' first
    | with_reducible assumption | with_reducible apply sound_mirrorSend | split | with_reducible apply sound_mk

theorem keeps_syncRead (s : State) (l : LineIx) (d : Option Line) : Keeps [.pmu, .pair, .links, .out] s
    (State.syncRead s l d) := by
  unfold State.syncRead
  try dsimp only
  repeat' first
    | with_reducible exact keeps_refl _ | with_reducible assumption
    | ((with_reducible apply keeps_step); (with_reducible apply keeps_mirrorSend); rfl) | split
    | ((with_reducible apply keeps_step); (with_reducible apply upd_pair); rfl)

theorem sound_sendFrom (s : State) (sh : Nat) (m : Msg) (hs : s.Sound q) : (State.sendFrom s sh m).Sound q := by
  unfold State.sendFrom
  try dsimp only
  repeat' first
    | with_reducible assumption | with_reducible apply sound_wakeHalf | with_reducible apply sound_emit
    | with_reducible apply sound_count | split | with_reducible apply sound_mk

theorem keeps_sendFrom (s : State) (sh : Nat) (m : Msg) : Keeps [.free, .home, .cone, .pmu, .ckp, .links, .out]
    s (State.sendFrom s sh m) := by
  unfold State.sendFrom
  try dsimp only
  repeat' first
    | with_reducible exact keeps_refl _ | with_reducible assumption
    | ((with_reducible apply keeps_step); (with_reducible apply keeps_wakeHalf); rfl)
    | ((with_reducible apply keeps_step); (with_reducible apply keeps_emit); rfl)
    | ((with_reducible apply keeps_step); (with_reducible apply keeps_count); rfl) | split
    | ((with_reducible apply keeps_step); (with_reducible apply upd_home); rfl)

theorem sound_respond (s : State) (sh : Nat) (r : Req) (code : Nat) (f : Msg → Msg) (hs : s.Sound q) :
    (State.respond s sh r code f).Sound q := by
  unfold State.respond
  try dsimp only
  repeat' first
    | with_reducible assumption | with_reducible apply sound_sendFrom | split

theorem keeps_respond (s : State) (sh : Nat) (r : Req) (code : Nat) (f : Msg → Msg) : Keeps
    [.free, .home, .cone, .pmu, .ckp, .links, .out] s (State.respond s sh r code f) := by
  unfold State.respond
  try dsimp only
  repeat' first
    | with_reducible exact keeps_refl _ | with_reducible assumption
    | ((with_reducible apply keeps_step); (with_reducible apply keeps_sendFrom); rfl) | split

theorem sound_lastAnswer (s : State) (sh : Nat) (r : Req) (code : Nat) (f : Msg → Msg) (hs : s.Sound q) :
    (State.lastAnswer s sh r code f).Sound q := by
  unfold State.lastAnswer
  try dsimp only
  repeat' first
    | with_reducible assumption | with_reducible apply sound_respond | split

theorem keeps_lastAnswer (s : State) (sh : Nat) (r : Req) (code : Nat) (f : Msg → Msg) : Keeps
    [.free, .home, .cone, .pmu, .ckp, .links, .out] s (State.lastAnswer s sh r code f) := by
  unfold State.lastAnswer
  try dsimp only
  repeat' first
    | with_reducible exact keeps_refl _ | with_reducible assumption
    | ((with_reducible apply keeps_step); (with_reducible apply keeps_respond); rfl) | split

theorem sound_headRead (s : State) (c : Nat) (v : Option (BitVec 64)) (hs : s.Sound q) :
    (State.headRead s c v).Sound q := by
  unfold State.headRead
  try dsimp only
  repeat' first
    | with_reducible assumption | with_reducible apply sound_getD | split | with_reducible apply sound_mk

theorem keeps_headRead (s : State) (c : Nat) (v : Option (BitVec 64)) : Keeps [.kiln] s (State.headRead s c v) := by
  unfold State.headRead
  try dsimp only
  repeat' first
    | with_reducible exact keeps_refl _ | with_reducible assumption | with_reducible apply keeps_getD | split
    | ((with_reducible apply keeps_step); (with_reducible apply upd_kiln); rfl)

theorem sound_descArrived (s : State) (c : Nat) (l : Line) (hs : s.Sound q) : (State.descArrived s c l).Sound q := by
  unfold State.descArrived
  try dsimp only
  repeat' first
    | with_reducible assumption | with_reducible apply sound_modCtx | with_reducible apply sound_modRing | split

theorem keeps_descArrived (s : State) (c : Nat) (l : Line) : Keeps [.rings, .cmds] s (State.descArrived s c l) := by
  unfold State.descArrived
  try dsimp only
  repeat' first
    | with_reducible exact keeps_refl _ | with_reducible assumption
    | ((with_reducible apply keeps_step); (with_reducible apply keeps_modCtx); rfl)
    | ((with_reducible apply keeps_step); (with_reducible apply keeps_modRing); rfl) | split

theorem sound_recordDone (s : State) (m : Nat) (hs : s.Sound q) : (State.recordDone s m).Sound q := by
  unfold State.recordDone
  try dsimp only
  repeat' first
    | with_reducible assumption | with_reducible apply sound_modRing | with_reducible apply sound_modCtx | split
    | with_reducible apply sound_mk

theorem keeps_recordDone (s : State) (m : Nat) : Keeps [.rings, .cmds] s (State.recordDone s m) := by
  unfold State.recordDone
  try dsimp only
  repeat' first
    | with_reducible exact keeps_refl _ | with_reducible assumption
    | ((with_reducible apply keeps_step); (with_reducible apply keeps_modRing); rfl)
    | ((with_reducible apply keeps_step); (with_reducible apply keeps_modCtx); rfl) | split
    | ((with_reducible apply keeps_step); (with_reducible apply upd_cmds); rfl)

theorem sound_controlRead (s : State) (n : Nat) (l : Line) (hs : s.Sound q) : (State.controlRead s n l).Sound q := by
  unfold State.controlRead
  try dsimp only
  repeat' first
    | with_reducible assumption | with_reducible apply sound_modRing | split

theorem keeps_controlRead (s : State) (n : Nat) (l : Line) : Keeps [.rings] s (State.controlRead s n l) := by
  unfold State.controlRead
  try dsimp only
  repeat' first
    | with_reducible exact keeps_refl _ | with_reducible assumption
    | ((with_reducible apply keeps_step); (with_reducible apply keeps_modRing); rfl) | split

theorem sound_poisonAgent (s : State) (sh : Nat) (r : Req) (hs : s.Sound q) : (State.poisonAgent s sh r).Sound q := by
  unfold State.poisonAgent
  try dsimp only
  repeat' first
    | with_reducible assumption | with_reducible apply sound_id | with_reducible apply sound_lastAnswer | split

theorem keeps_poisonAgent (s : State) (sh : Nat) (r : Req) : Keeps
    [.free, .home, .cone, .pmu, .ckp, .links, .out] s (State.poisonAgent s sh r) := by
  unfold State.poisonAgent
  try dsimp only
  repeat' first
    | with_reducible exact keeps_refl _ | with_reducible assumption | with_reducible apply keeps_id
    | ((with_reducible apply keeps_step); (with_reducible apply keeps_lastAnswer); rfl) | split

theorem sound_deliverCmd (s : State) (c : Nat) (r : Req) (a : Answer) (hs : s.Sound q) :
    (State.deliverCmd s c r a).Sound q := by
  unfold State.deliverCmd
  try dsimp only
  repeat' first
    | with_reducible assumption | with_reducible apply sound_modCtx | split

theorem keeps_deliverCmd (s : State) (c : Nat) (r : Req) (a : Answer) : Keeps [.cmds] s
    (State.deliverCmd s c r a) := by
  unfold State.deliverCmd
  try dsimp only
  repeat' first
    | with_reducible exact keeps_refl _ | with_reducible assumption
    | ((with_reducible apply keeps_step); (with_reducible apply keeps_modCtx); rfl) | split

theorem sound_inputTake (s : State) (c : Nat) (sh : Nat) (a : Nat) (l : Line) (hs : s.Sound q) :
    (State.inputTake s c sh a l).Sound q := by
  unfold State.inputTake
  try dsimp only
  repeat' first
    | with_reducible assumption | with_reducible apply sound_modPeri | with_reducible apply sound_modJob
    | with_reducible apply sound_foldl | intro _ _ _ | split

theorem keeps_inputTake (s : State) (c : Nat) (sh : Nat) (a : Nat) (l : Line) : Keeps [.kiln] s
    (State.inputTake s c sh a l) := by
  unfold State.inputTake
  try dsimp only
  repeat' first
    | with_reducible exact keeps_refl _ | with_reducible assumption
    | ((with_reducible apply keeps_step); (with_reducible apply keeps_modPeri); rfl)
    | ((with_reducible apply keeps_step); (with_reducible apply keeps_modJob); rfl) | with_reducible apply keeps_foldl
    | intro _ _ _ | split

theorem sound_sumOut (s : State) (c : Nat) (b : Nat) (l : LineIx) (hs : s.Sound q) :
    (State.sumOut s c b l).Sound q := by
  unfold State.sumOut
  try dsimp only
  repeat' first
    | with_reducible assumption | with_reducible apply sound_modPeri | split

theorem keeps_sumOut (s : State) (c : Nat) (b : Nat) (l : LineIx) : Keeps [.kiln] s (State.sumOut s c b l) := by
  unfold State.sumOut
  try dsimp only
  repeat' first
    | with_reducible exact keeps_refl _ | with_reducible assumption
    | ((with_reducible apply keeps_step); (with_reducible apply keeps_modPeri); rfl) | split

theorem sound_fetchError (s : State) (n : Nat) (hs : s.Sound q) : (State.fetchError s n).Sound q := by
  unfold State.fetchError
  try dsimp only
  repeat' first
    | with_reducible assumption | with_reducible apply sound_event | with_reducible apply sound_modRing | split

theorem keeps_fetchError (s : State) (n : Nat) : Keeps [.evt, .rings] s (State.fetchError s n) := by
  unfold State.fetchError
  try dsimp only
  repeat' first
    | with_reducible exact keeps_refl _ | with_reducible assumption
    | ((with_reducible apply keeps_step); (with_reducible apply keeps_event); rfl)
    | ((with_reducible apply keeps_step); (with_reducible apply keeps_modRing); rfl) | split

theorem sound_enableEnd (s : State) (n : Nat) (bad : Bool) (hs : s.Sound q) : (State.enableEnd s n bad).Sound q := by
  unfold State.enableEnd
  try dsimp only
  repeat' first
    | with_reducible assumption | with_reducible apply sound_event | with_reducible apply sound_modRing | split
    | with_reducible apply sound_mk

theorem keeps_enableEnd (s : State) (n : Nat) (bad : Bool) : Keeps [.evt, .rings, .cmds] s
    (State.enableEnd s n bad) := by
  unfold State.enableEnd
  try dsimp only
  repeat' first
    | with_reducible exact keeps_refl _ | with_reducible assumption
    | ((with_reducible apply keeps_step); (with_reducible apply keeps_event); rfl)
    | ((with_reducible apply keeps_step); (with_reducible apply keeps_modRing); rfl) | split
    | ((with_reducible apply keeps_step); (with_reducible apply upd_cmds); rfl)

theorem sound_enableRead (s : State) (n : Nat) (bad : Bool) (hs : s.Sound q) : (State.enableRead s n bad).Sound
    q := by
  unfold State.enableRead
  try dsimp only
  repeat' first
    | with_reducible assumption | with_reducible apply sound_modRing | with_reducible apply sound_enableEnd | split

theorem keeps_enableRead (s : State) (n : Nat) (bad : Bool) : Keeps [.evt, .rings, .cmds] s
    (State.enableRead s n bad) := by
  unfold State.enableRead
  try dsimp only
  repeat' first
    | with_reducible exact keeps_refl _ | with_reducible assumption
    | ((with_reducible apply keeps_step); (with_reducible apply keeps_modRing); rfl)
    | ((with_reducible apply keeps_step); (with_reducible apply keeps_enableEnd); rfl) | split

theorem sound_cqError (s : State) (m : Nat) (hs : s.Sound q) : (State.cqError s m).Sound q := by
  unfold State.cqError
  try dsimp only
  repeat' first
    | with_reducible assumption | with_reducible apply sound_event | with_reducible apply sound_modRing | split

theorem keeps_cqError (s : State) (m : Nat) : Keeps [.evt, .rings] s (State.cqError s m) := by
  unfold State.cqError
  try dsimp only
  repeat' first
    | with_reducible exact keeps_refl _ | with_reducible assumption
    | ((with_reducible apply keeps_step); (with_reducible apply keeps_event); rfl)
    | ((with_reducible apply keeps_step); (with_reducible apply keeps_modRing); rfl) | split

theorem sound_modReload (s : State) (n : Nat) (f : Reload → Reload) (hs : s.Sound q) :
    (State.modReload s n f).Sound q := by
  unfold State.modReload
  try dsimp only
  repeat' first
    | with_reducible assumption | split | with_reducible apply sound_mk

theorem keeps_modReload (s : State) (n : Nat) (f : Reload → Reload) : Keeps [.kiln] s (State.modReload s n f) := by
  unfold State.modReload
  try dsimp only
  repeat' first
    | with_reducible exact keeps_refl _ | with_reducible assumption | split
    | ((with_reducible apply keeps_step); (with_reducible apply upd_kiln); rfl)

theorem sound_deliver (s : State) (sh : Nat) (r : Req) (a : Answer) (hs : s.Sound q) :
    (State.deliver s sh r a).Sound q := by
  unfold State.deliver
  try dsimp only
  repeat' first
    | with_reducible assumption | with_reducible apply sound_lastAnswer | with_reducible apply sound_poisonAgent
    | with_reducible apply sound_coneBytes | with_reducible apply sound_deliverCmd
    | with_reducible apply sound_inputTake | with_reducible apply sound_sumOut
    | with_reducible apply sound_descArrived | with_reducible apply sound_fetchError
    | with_reducible apply sound_modCtx | with_reducible apply sound_controlRead
    | with_reducible apply sound_enableRead | with_reducible apply sound_recordDone
    | with_reducible apply sound_modRing | with_reducible apply sound_cqError | with_reducible apply sound_mirrorSend
    | with_reducible apply sound_syncRead | with_reducible apply sound_modReload | with_reducible apply sound_headRead
    | split

theorem keeps_deliver (s : State) (sh : Nat) (r : Req) (a : Answer) : Keeps
    [.free, .evt, .home, .rings, .cmds, .cone, .pmu, .kiln, .pair, .ckp, .links, .out] s
    (State.deliver s sh r a) := by
  unfold State.deliver
  try dsimp only
  repeat' first
    | with_reducible exact keeps_refl _ | with_reducible assumption
    | ((with_reducible apply keeps_step); (with_reducible apply keeps_lastAnswer); rfl)
    | ((with_reducible apply keeps_step); (with_reducible apply keeps_poisonAgent); rfl)
    | ((with_reducible apply keeps_step); (with_reducible apply keeps_coneBytes); rfl)
    | ((with_reducible apply keeps_step); (with_reducible apply keeps_deliverCmd); rfl)
    | ((with_reducible apply keeps_step); (with_reducible apply keeps_inputTake); rfl)
    | ((with_reducible apply keeps_step); (with_reducible apply keeps_sumOut); rfl)
    | ((with_reducible apply keeps_step); (with_reducible apply keeps_descArrived); rfl)
    | ((with_reducible apply keeps_step); (with_reducible apply keeps_fetchError); rfl)
    | ((with_reducible apply keeps_step); (with_reducible apply keeps_modCtx); rfl)
    | ((with_reducible apply keeps_step); (with_reducible apply keeps_controlRead); rfl)
    | ((with_reducible apply keeps_step); (with_reducible apply keeps_enableRead); rfl)
    | ((with_reducible apply keeps_step); (with_reducible apply keeps_recordDone); rfl)
    | ((with_reducible apply keeps_step); (with_reducible apply keeps_modRing); rfl)
    | ((with_reducible apply keeps_step); (with_reducible apply keeps_cqError); rfl)
    | ((with_reducible apply keeps_step); (with_reducible apply keeps_mirrorSend); rfl)
    | ((with_reducible apply keeps_step); (with_reducible apply keeps_syncRead); rfl)
    | ((with_reducible apply keeps_step); (with_reducible apply keeps_modReload); rfl)
    | ((with_reducible apply keeps_step); (with_reducible apply keeps_headRead); rfl) | split

theorem sound_dropWait (s : State) (tag : Nat) (p : MWait → Bool) (hs : s.Sound q) :
    (State.dropWait s tag p).Sound q := by
  unfold State.dropWait
  try dsimp only
  repeat' first
    | with_reducible assumption | split | with_reducible apply sound_mk

theorem keeps_dropWait (s : State) (tag : Nat) (p : MWait → Bool) : Keeps [.pair] s (State.dropWait s tag p) := by
  unfold State.dropWait
  try dsimp only
  repeat' first
    | with_reducible exact keeps_refl _ | with_reducible assumption | split
    | ((with_reducible apply keeps_step); (with_reducible apply upd_pair); rfl)

theorem sound_tallyReq (s : State) (r : Req) (hs : s.Sound q) : (State.tallyReq s r).Sound q := by
  unfold State.tallyReq
  try dsimp only
  repeat' first
    | with_reducible assumption | with_reducible apply sound_tallyWrite | split

theorem keeps_tallyReq (s : State) (r : Req) : Keeps [.evt, .tly] s (State.tallyReq s r) := by
  unfold State.tallyReq
  try dsimp only
  repeat' first
    | with_reducible exact keeps_refl _ | with_reducible assumption
    | ((with_reducible apply keeps_step); (with_reducible apply keeps_tallyWrite); rfl) | split

theorem sound_answerForward (s : State) (tag : Nat) (a : Answer) (hs : s.Sound q) :
    (State.answerForward s tag a).Sound q := by
  unfold State.answerForward
  try dsimp only
  repeat' first
    | with_reducible assumption | with_reducible apply sound_dropWait | with_reducible apply sound_deliver
    | with_reducible apply sound_tallyReq | split

theorem keeps_answerForward (s : State) (tag : Nat) (a : Answer) : Keeps
    [.free, .evt, .home, .rings, .cmds, .tly, .cone, .pmu, .kiln, .pair, .ckp, .links, .out] s
    (State.answerForward s tag a) := by
  unfold State.answerForward
  try dsimp only
  repeat' first
    | with_reducible exact keeps_refl _ | with_reducible assumption
    | ((with_reducible apply keeps_step); (with_reducible apply keeps_dropWait); rfl)
    | ((with_reducible apply keeps_step); (with_reducible apply keeps_deliver); rfl)
    | ((with_reducible apply keeps_step); (with_reducible apply keeps_tallyReq); rfl) | split

theorem sound_refuseReq (s : State) (sh : Nat) (r : Req) (hs : s.Sound q) : (State.refuseReq s sh r).Sound q := by
  unfold State.refuseReq
  try dsimp only
  repeat' first
    | with_reducible assumption | with_reducible apply sound_deliver | with_reducible apply sound_answerForward
    | split

theorem keeps_refuseReq (s : State) (sh : Nat) (r : Req) : Keeps
    [.free, .evt, .home, .rings, .cmds, .tly, .cone, .pmu, .kiln, .pair, .ckp, .links, .out] s
    (State.refuseReq s sh r) := by
  unfold State.refuseReq
  try dsimp only
  repeat' first
    | with_reducible exact keeps_refl _ | with_reducible assumption
    | ((with_reducible apply keeps_step); (with_reducible apply keeps_deliver); rfl)
    | ((with_reducible apply keeps_step); (with_reducible apply keeps_answerForward); rfl) | split

theorem sound_performed (s : State) (sh : Nat) (r : Req) (res : Option (BitVec 128)) (hs : s.Sound q) :
    (State.performed s sh r res).Sound q := by
  unfold State.performed
  try dsimp only
  repeat' first
    | with_reducible assumption | with_reducible apply sound_deliver | with_reducible apply sound_tallyReq
    | with_reducible apply sound_answerForward | split

theorem keeps_performed (s : State) (sh : Nat) (r : Req) (res : Option (BitVec 128)) : Keeps
    [.free, .evt, .home, .rings, .cmds, .tly, .cone, .pmu, .kiln, .pair, .ckp, .links, .out] s
    (State.performed s sh r res) := by
  unfold State.performed
  try dsimp only
  repeat' first
    | with_reducible exact keeps_refl _ | with_reducible assumption
    | ((with_reducible apply keeps_step); (with_reducible apply keeps_deliver); rfl)
    | ((with_reducible apply keeps_step); (with_reducible apply keeps_tallyReq); rfl)
    | ((with_reducible apply keeps_step); (with_reducible apply keeps_answerForward); rfl) | split

theorem sound_finish (s : State) (r : Req) (hs : s.Sound q) : (State.finish s r).Sound q := by
  unfold State.finish
  try dsimp only
  repeat' first
    | with_reducible assumption | with_reducible apply sound_answered | split

theorem keeps_finish (s : State) (r : Req) : Keeps [.cone] s (State.finish s r) := by
  unfold State.finish
  try dsimp only
  repeat' first
    | with_reducible exact keeps_refl _ | with_reducible assumption
    | ((with_reducible apply keeps_step); (with_reducible apply keeps_answered); rfl) | split

end Sys2Proof.Machine
end

