-- ==== Sys2Proof/Laws/FaultOps.lean ====
section
/-! SUPPORT. What the operations of Machine/FaultOps.lean do to the whole state, two lemmas per operation: `sound_` (it keeps the
queue of waiting commands and the invariant of Safety.lean) and `keeps_` (the fields that it may change). -/
namespace Sys2Proof.Machine

variable {q : List Instr}

theorem sound_setWay (s : State) (k : Nat) (e : DirEntry) (hs : s.Sound q) : (State.setWay s k e).Sound q := by
  unfold State.setWay
  try dsimp only
  repeat' first
    | with_reducible assumption | split | with_reducible apply sound_mk

theorem keeps_setWay (s : State) (k : Nat) (e : DirEntry) : Keeps [.dir] s (State.setWay s k e) := by
  unfold State.setWay
  try dsimp only
  repeat' first
    | with_reducible exact keeps_refl _ | with_reducible assumption | split
    | ((with_reducible apply keeps_step); (with_reducible apply upd_dir); rfl)

theorem sound_logFault (s : State) (kind : Nat) (pclass : Nat) (outcome : Nat) (flags : Nat) (ue : Nat × Nat)
    (addr : Nat) (hs : s.Sound q) : (State.logFault s kind pclass outcome flags ue addr).Sound q := by
  unfold State.logFault
  try dsimp only
  repeat' first
    | with_reducible assumption | split | with_reducible apply sound_mk

theorem keeps_logFault (s : State) (kind : Nat) (pclass : Nat) (outcome : Nat) (flags : Nat) (ue : Nat × Nat)
    (addr : Nat) : Keeps [.flt, .life] s (State.logFault s kind pclass outcome flags ue addr) := by
  unfold State.logFault
  try dsimp only
  repeat' first
    | with_reducible exact keeps_refl _ | with_reducible assumption | split
    | ((with_reducible apply keeps_step); (with_reducible apply upd_flt_life); rfl)

theorem sound_transient (s : State) (u : FaultUnit) (hs : s.Sound q) : (State.transient s u).Sound q := by
  unfold State.transient
  try dsimp only
  repeat' first
    | with_reducible assumption | with_reducible apply sound_getD | with_reducible apply sound_count | split
    | with_reducible apply sound_mk

theorem keeps_transient (s : State) (u : FaultUnit) : Keeps [.free, .pmu, .flt, .life] s (State.transient s u) := by
  unfold State.transient
  try dsimp only
  repeat' first
    | with_reducible exact keeps_refl _ | with_reducible assumption | with_reducible apply keeps_getD
    | ((with_reducible apply keeps_step); (with_reducible apply keeps_count); rfl) | split
    | ((with_reducible apply keeps_step); (with_reducible apply upd_flt_life); rfl)

theorem sound_protocolError (s : State) (h : Hdr) (hs : s.Sound q) : (State.protocolError s h).Sound q := by
  unfold State.protocolError
  try dsimp only
  repeat' first
    | with_reducible assumption | with_reducible apply sound_trigger | with_reducible apply sound_logFault | split
    | with_reducible apply sound_mk

theorem keeps_protocolError (s : State) (h : Hdr) : Keeps [.free, .cone, .flt, .ep, .life, .ckp, .out] s
    (State.protocolError s h) := by
  unfold State.protocolError
  try dsimp only
  repeat' first
    | with_reducible exact keeps_refl _ | with_reducible assumption
    | ((with_reducible apply keeps_step); (with_reducible apply keeps_trigger); rfl)
    | ((with_reducible apply keeps_step); (with_reducible apply keeps_logFault); rfl) | split
    | ((with_reducible apply keeps_step); (with_reducible apply upd_flt); rfl)

end Sys2Proof.Machine
end

