-- ==== Sys2Proof/Laws/HomeOps.lean ====
section
/-! SUPPORT. What the operations of Machine/HomeOps.lean do to the whole state, two lemmas per operation: `sound_` (it keeps the
queue of waiting commands and the invariant of Safety.lean) and `keeps_` (the fields that it may change). -/
namespace Sys2Proof.Machine

variable {q : List Instr}

theorem sound_askWake (s : State) (sh : Nat) (hs : s.Sound q) : (State.askWake s sh).Sound q := by
  unfold State.askWake
  try dsimp only
  repeat' first
    | with_reducible assumption | with_reducible apply sound_wakeHalf | split

theorem keeps_askWake (s : State) (sh : Nat) : Keeps [.free, .ckp, .out] s (State.askWake s sh) := by
  unfold State.askWake
  try dsimp only
  repeat' first
    | with_reducible exact keeps_refl _ | with_reducible assumption
    | ((with_reducible apply keeps_step); (with_reducible apply keeps_wakeHalf); rfl) | split

theorem sound_holdReq (s : State) (r : Req) (hs : s.Sound q) : (State.holdReq s r).Sound q := by
  unfold State.holdReq
  try dsimp only
  repeat' first
    | with_reducible assumption | split | with_reducible apply sound_mk

theorem keeps_holdReq (s : State) (r : Req) : Keeps [.home] s (State.holdReq s r) := by
  unfold State.holdReq
  try dsimp only
  repeat' first
    | with_reducible exact keeps_refl _ | with_reducible assumption | split
    | ((with_reducible apply keeps_step); (with_reducible apply upd_home); rfl)

theorem sound_answerFenced (s : State) (r : Req) (hs : s.Sound q) : (State.answerFenced s r).Sound q := by
  unfold State.answerFenced
  try dsimp only
  repeat' first
    | with_reducible assumption | with_reducible apply sound_fencedEvent | with_reducible apply sound_deliver | split

theorem keeps_answerFenced (s : State) (r : Req) : Keeps
    [.free, .evt, .home, .rings, .cmds, .cone, .pmu, .kiln, .pair, .ckp, .links, .out] s
    (State.answerFenced s r) := by
  unfold State.answerFenced
  try dsimp only
  repeat' first
    | with_reducible exact keeps_refl _ | with_reducible assumption
    | ((with_reducible apply keeps_step); (with_reducible apply keeps_fencedEvent); rfl)
    | ((with_reducible apply keeps_step); (with_reducible apply keeps_deliver); rfl) | split

theorem sound_forward (s : State) (r : Req) (hs : s.Sound q) : (State.forward s r).Sound q := by
  unfold State.forward
  try dsimp only
  repeat' first
    | with_reducible assumption | with_reducible apply sound_coneBytes | with_reducible apply sound_mirrorSend | split
    | with_reducible apply sound_mk

theorem keeps_forward (s : State) (r : Req) : Keeps [.cone, .pmu, .pair, .links, .out] s (State.forward s r) := by
  unfold State.forward
  try dsimp only
  repeat' first
    | with_reducible exact keeps_refl _ | with_reducible assumption
    | ((with_reducible apply keeps_step); (with_reducible apply keeps_coneBytes); rfl)
    | ((with_reducible apply keeps_step); (with_reducible apply keeps_mirrorSend); rfl) | split
    | ((with_reducible apply keeps_step); (with_reducible apply upd_pair); rfl)

theorem sound_marks (s : State) (sh : Nat) (hs : s.Sound q) : (State.marks s sh).Sound q := by
  unfold State.marks
  try dsimp only
  repeat' first
    | with_reducible assumption | with_reducible apply sound_modShelf | split

theorem keeps_marks (s : State) (sh : Nat) : Keeps [.shelves] s (State.marks s sh) := by
  unfold State.marks
  try dsimp only
  repeat' first
    | with_reducible exact keeps_refl _ | with_reducible assumption
    | ((with_reducible apply keeps_step); (with_reducible apply keeps_modShelf); rfl) | split

theorem sound_retie (s : State) (sh : Nat) (hs : s.Sound q) : (State.retie s sh).Sound q := by
  unfold State.retie
  try dsimp only
  repeat' first
    | with_reducible assumption | with_reducible apply sound_id | with_reducible apply sound_modShelf
    | with_reducible apply sound_foldl | intro _ _ _ | split | with_reducible apply sound_mk

theorem keeps_retie (s : State) (sh : Nat) : Keeps [.shelves, .home] s (State.retie s sh) := by
  unfold State.retie
  try dsimp only
  repeat' first
    | with_reducible exact keeps_refl _ | with_reducible assumption | with_reducible apply keeps_id
    | ((with_reducible apply keeps_step); (with_reducible apply keeps_modShelf); rfl)
    | with_reducible apply keeps_foldl | intro _ _ _ | split
    | ((with_reducible apply keeps_step); (with_reducible apply upd_home); rfl)

theorem sound_enqueue (s : State) (r : Req) (tied : Bool) (hs : s.Sound q) : (State.enqueue s r tied).Sound q := by
  unfold State.enqueue
  try dsimp only
  repeat' first
    | with_reducible assumption | with_reducible apply sound_count | with_reducible apply sound_modShelf
    | with_reducible apply sound_marks | with_reducible apply sound_retie | split | with_reducible apply sound_mk

theorem keeps_enqueue (s : State) (r : Req) (tied : Bool) : Keeps [.free, .shelves, .home, .pmu] s
    (State.enqueue s r tied) := by
  unfold State.enqueue
  try dsimp only
  repeat' first
    | with_reducible exact keeps_refl _ | with_reducible assumption
    | ((with_reducible apply keeps_step); (with_reducible apply keeps_count); rfl)
    | ((with_reducible apply keeps_step); (with_reducible apply keeps_modShelf); rfl)
    | ((with_reducible apply keeps_step); (with_reducible apply keeps_marks); rfl)
    | ((with_reducible apply keeps_step); (with_reducible apply keeps_retie); rfl) | split
    | ((with_reducible apply keeps_step); (with_reducible apply upd_home); rfl)

theorem sound_arrive (s : State) (r0 : Req) (tied : Bool) (hs : s.Sound q) : (State.arrive s r0 tied).Sound q := by
  unfold State.arrive
  try dsimp only
  repeat' first
    | with_reducible assumption | with_reducible apply sound_enqueue | with_reducible apply sound_holdBuffer | split
    | with_reducible apply sound_mk

theorem keeps_arrive (s : State) (r0 : Req) (tied : Bool) : Keeps [.free, .shelves, .home, .pmu, .links] s
    (State.arrive s r0 tied) := by
  unfold State.arrive
  try dsimp only
  repeat' first
    | with_reducible exact keeps_refl _ | with_reducible assumption
    | ((with_reducible apply keeps_step); (with_reducible apply keeps_enqueue); rfl)
    | ((with_reducible apply keeps_step); (with_reducible apply keeps_holdBuffer); rfl) | split
    | ((with_reducible apply keeps_step); (with_reducible apply upd_home); rfl)

theorem sound_watchWrite (s : State) (r : Req) (hs : s.Sound q) : (State.watchWrite s r).Sound q := by
  unfold State.watchWrite
  try dsimp only
  repeat' first
    | with_reducible assumption | with_reducible apply sound_modRing | with_reducible apply sound_foldl | intro _ _ _
    | split

theorem keeps_watchWrite (s : State) (r : Req) : Keeps [.rings] s (State.watchWrite s r) := by
  unfold State.watchWrite
  try dsimp only
  repeat' first
    | with_reducible exact keeps_refl _ | with_reducible assumption
    | ((with_reducible apply keeps_step); (with_reducible apply keeps_modRing); rfl)
    | with_reducible apply keeps_foldl | intro _ _ _ | split

theorem sound_saggarDone (s : State) (r : Req) (m : Mask) (res : Option (BitVec 128)) (hs : s.Sound q) :
    (State.saggarDone s r m res).Sound q := by
  generalize hf : @State.saggarDone = f
  delta State.saggarDone at hf
  subst hf
  dsimp -zeta -iota only
  repeat' first
    | with_reducible assumption | with_reducible apply sound_watchWrite | with_reducible apply sound_performed
    | with_reducible apply sound_coneBytes | with_reducible apply sound_mirrorSend
    | with_reducible apply sound_mirrorAsk | with_reducible apply sound_markLine | split | dsimp only
    | with_reducible apply sound_mk

theorem keeps_saggarDone (s : State) (r : Req) (m : Mask) (res : Option (BitVec 128)) : Keeps
    [.free, .evt, .home, .rings, .cmds, .tly, .cone, .pmu, .kiln, .pair, .ckp, .links, .out] s
    (State.saggarDone s r m res) := by
  generalize hf : @State.saggarDone = f
  delta State.saggarDone at hf
  subst hf
  dsimp -zeta -iota only
  repeat' first
    | with_reducible exact keeps_refl _ | with_reducible assumption
    | ((with_reducible apply keeps_step); (with_reducible apply keeps_watchWrite); rfl)
    | ((with_reducible apply keeps_step); (with_reducible apply keeps_performed); rfl)
    | ((with_reducible apply keeps_step); (with_reducible apply keeps_coneBytes); rfl)
    | ((with_reducible apply keeps_step); (with_reducible apply keeps_mirrorSend); rfl)
    | ((with_reducible apply keeps_step); (with_reducible apply keeps_mirrorAsk); rfl)
    | ((with_reducible apply keeps_step); (with_reducible apply keeps_markLine); rfl) | split | dsimp only
    | ((with_reducible apply keeps_step); (with_reducible apply upd_pair); rfl)

theorem sound_saggarAccess (s : State) (r : Req) (hs : s.Sound q) : (State.saggarAccess s r).Sound q := by
  unfold State.saggarAccess
  try dsimp only
  repeat' first
    | with_reducible assumption | with_reducible apply sound_refuseReq | with_reducible apply sound_saggarDone
    | with_reducible apply sound_setPoison | with_reducible apply sound_setArr | with_reducible apply sound_auuReject
    | with_reducible apply sound_takeGroup | with_reducible apply sound_auuEnd | with_reducible apply sound_deliver
    | split

theorem keeps_saggarAccess (s : State) (r : Req) : Keeps
    [.free, .evt, .shelves, .arr, .home, .rings, .cmds, .tly, .cone, .pmu, .kiln, .pair, .ckp, .links, .out] s
    (State.saggarAccess s r) := by
  unfold State.saggarAccess
  try dsimp only
  repeat' first
    | with_reducible exact keeps_refl _ | with_reducible assumption
    | ((with_reducible apply keeps_step); (with_reducible apply keeps_refuseReq); rfl)
    | ((with_reducible apply keeps_step); (with_reducible apply keeps_saggarDone); rfl)
    | ((with_reducible apply keeps_step); (with_reducible apply keeps_setPoison); rfl)
    | ((with_reducible apply keeps_step); (with_reducible apply keeps_setArr); rfl)
    | ((with_reducible apply keeps_step); (with_reducible apply keeps_auuReject); rfl)
    | ((with_reducible apply keeps_step); (with_reducible apply keeps_takeGroup); rfl)
    | ((with_reducible apply keeps_step); (with_reducible apply keeps_auuEnd); rfl)
    | ((with_reducible apply keeps_step); (with_reducible apply keeps_deliver); rfl) | split

theorem sound_kilnRead (s : State) (r : Req) (hs : s.Sound q) : (State.kilnRead s r).Sound q := by
  unfold State.kilnRead
  try dsimp only
  repeat' first
    | with_reducible assumption | with_reducible apply sound_deliver | split

theorem keeps_kilnRead (s : State) (r : Req) : Keeps
    [.free, .evt, .home, .rings, .cmds, .cone, .pmu, .kiln, .pair, .ckp, .links, .out] s (State.kilnRead s r) :=
    by
  unfold State.kilnRead
  try dsimp only
  repeat' first
    | with_reducible exact keeps_refl _ | with_reducible assumption
    | ((with_reducible apply keeps_step); (with_reducible apply keeps_deliver); rfl) | split

theorem sound_dispatch (s : State) (r : Req) (tied : Bool) (hs : s.Sound q) : (State.dispatch s r tied).Sound q := by
  unfold State.dispatch
  try dsimp only
  repeat' first
    | with_reducible assumption | with_reducible apply sound_deliver | with_reducible apply sound_askWake
    | with_reducible apply sound_holdReq | with_reducible apply sound_answerFenced
    | with_reducible apply sound_forward | with_reducible apply sound_arrive | with_reducible apply sound_saggarAccess
    | with_reducible apply sound_kilnRead | with_reducible apply sound_refuseReq | split

theorem keeps_dispatch (s : State) (r : Req) (tied : Bool) : Keeps
    [.free, .evt, .shelves, .arr, .home, .rings, .cmds, .tly, .cone, .pmu, .kiln, .pair, .ckp, .links, .out] s
    (State.dispatch s r tied) := by
  unfold State.dispatch
  try dsimp only
  repeat' first
    | with_reducible exact keeps_refl _ | with_reducible assumption
    | ((with_reducible apply keeps_step); (with_reducible apply keeps_deliver); rfl)
    | ((with_reducible apply keeps_step); (with_reducible apply keeps_askWake); rfl)
    | ((with_reducible apply keeps_step); (with_reducible apply keeps_holdReq); rfl)
    | ((with_reducible apply keeps_step); (with_reducible apply keeps_answerFenced); rfl)
    | ((with_reducible apply keeps_step); (with_reducible apply keeps_forward); rfl)
    | ((with_reducible apply keeps_step); (with_reducible apply keeps_arrive); rfl)
    | ((with_reducible apply keeps_step); (with_reducible apply keeps_saggarAccess); rfl)
    | ((with_reducible apply keeps_step); (with_reducible apply keeps_kilnRead); rfl)
    | ((with_reducible apply keeps_step); (with_reducible apply keeps_refuseReq); rfl) | split

theorem sound_crossIn (s : State) (p : Port) (sh : Nat) (id : AgentId) (l : LineIx) (c : BitVec 3) (cls : Nat)
    (hs : s.Sound q) : (State.crossIn s p sh id l c cls).Sound q := by
  unfold State.crossIn
  try dsimp only
  repeat' first
    | with_reducible assumption | with_reducible apply sound_count | split

theorem keeps_crossIn (s : State) (p : Port) (sh : Nat) (id : AgentId) (l : LineIx) (c : BitVec 3) (cls : Nat) :
    Keeps [.free, .pmu] s (State.crossIn s p sh id l c cls) := by
  unfold State.crossIn
  try dsimp only
  repeat' first
    | with_reducible exact keeps_refl _ | with_reducible assumption
    | ((with_reducible apply keeps_step); (with_reducible apply keeps_count); rfl) | split

theorem sound_route (s : State) (p : Port) (r : Req) (tied : Bool) (hs : s.Sound q) :
    (State.route s p r tied).Sound q := by
  unfold State.route
  try dsimp only
  repeat' first
    | with_reducible assumption | with_reducible apply sound_getD | with_reducible apply sound_dispatch
    | with_reducible apply sound_crossIn | split

theorem keeps_route (s : State) (p : Port) (r : Req) (tied : Bool) : Keeps
    [.free, .evt, .shelves, .arr, .home, .rings, .cmds, .tly, .cone, .pmu, .kiln, .pair, .ckp, .links, .out] s
    (State.route s p r tied) := by
  unfold State.route
  try dsimp only
  repeat' first
    | with_reducible exact keeps_refl _ | with_reducible assumption | with_reducible apply keeps_getD
    | ((with_reducible apply keeps_step); (with_reducible apply keeps_dispatch); rfl)
    | ((with_reducible apply keeps_step); (with_reducible apply keeps_crossIn); rfl) | split

theorem sound_comeIn (s : State) (p : Port) (payload : Nat) (hs : s.Sound q) : (State.comeIn s p payload).Sound
    q := by
  unfold State.comeIn
  try dsimp only
  repeat' first
    | with_reducible assumption | with_reducible apply sound_stayAwake | with_reducible apply sound_portInBytes
    | with_reducible apply sound_setLink | with_reducible apply sound_transient | split

theorem keeps_comeIn (s : State) (p : Port) (payload : Nat) : Keeps
    [.free, .pmu, .flt, .life, .ckp, .links, .out] s (State.comeIn s p payload) := by
  unfold State.comeIn
  try dsimp only
  repeat' first
    | with_reducible exact keeps_refl _ | with_reducible assumption
    | ((with_reducible apply keeps_step); (with_reducible apply keeps_stayAwake); rfl)
    | ((with_reducible apply keeps_step); (with_reducible apply keeps_portInBytes); rfl)
    | ((with_reducible apply keeps_step); (with_reducible apply keeps_setLink); rfl)
    | ((with_reducible apply keeps_step); (with_reducible apply keeps_transient); rfl) | split

theorem sound_modTxn (s : State) (l : LineIx) (f : Txn → Txn) (hs : s.Sound q) : (State.modTxn s l f).Sound q := by
  unfold State.modTxn
  try dsimp only
  repeat' first
    | with_reducible assumption | split | with_reducible apply sound_mk

theorem keeps_modTxn (s : State) (l : LineIx) (f : Txn → Txn) : Keeps [.home] s (State.modTxn s l f) := by
  unfold State.modTxn
  try dsimp only
  repeat' first
    | with_reducible exact keeps_refl _ | with_reducible assumption | split
    | ((with_reducible apply keeps_step); (with_reducible apply upd_home); rfl)

theorem sound_fromStranger (s : State) (port : Port) (r : Req) (id : AgentId) (hs : s.Sound q) :
    (State.fromStranger s port r id).Sound q := by
  unfold State.fromStranger
  try dsimp only
  repeat' first
    | with_reducible assumption | with_reducible apply sound_poisonAgent | with_reducible apply sound_event | split

theorem keeps_fromStranger (s : State) (port : Port) (r : Req) (id : AgentId) : Keeps
    [.free, .evt, .home, .cone, .pmu, .ckp, .links, .out] s (State.fromStranger s port r id) := by
  unfold State.fromStranger
  try dsimp only
  repeat' first
    | with_reducible exact keeps_refl _ | with_reducible assumption
    | ((with_reducible apply keeps_step); (with_reducible apply keeps_poisonAgent); rfl)
    | ((with_reducible apply keeps_step); (with_reducible apply keeps_event); rfl) | split

theorem sound_streamStep (s : State) (sh : Nat) (id : AgentId) (l : LineIx) (c : BitVec 3) (hs : s.Sound q) :
    (State.streamStep s sh id l c).2.Sound q := by
  unfold State.streamStep
  try dsimp only
  repeat' first
    | with_reducible assumption | with_reducible apply sound_modShelf | split

theorem keeps_streamStep (s : State) (sh : Nat) (id : AgentId) (l : LineIx) (c : BitVec 3) : Keeps [.shelves] s
    (State.streamStep s sh id l c).2 := by
  unfold State.streamStep
  try dsimp only
  repeat' first
    | with_reducible exact keeps_refl _ | with_reducible assumption
    | ((with_reducible apply keeps_step); (with_reducible apply keeps_modShelf); rfl) | split

theorem sound_pourMark (s : State) (port : Port) (r : Req) (id : AgentId) (hs : s.Sound q) :
    (State.pourMark s port r id).2.Sound q := by
  unfold State.pourMark
  split
  · split
    rename_i pour s1 e
    have h1 := sound_snd e (sound_streamStep _ _ _ _ _ hs)
    show State.Sound q (ite _ _ _)
    split
    · exact sound_count _ _ _ _ h1
    · exact h1
  · exact hs

theorem keeps_pourMark (s : State) (port : Port) (r : Req) (id : AgentId) : Keeps [.free, .shelves, .pmu] s
    (State.pourMark s port r id).2 := by
  unfold State.pourMark
  split
  · split
    rename_i pour s1 e
    have h1 : Keeps [.free, .shelves, .pmu] s s1 := keeps_snd e (keeps_then (keeps_refl _) (keeps_streamStep _ _ _ _ _) rfl)
    show Keeps _ s (ite _ _ _)
    split
    · exact keeps_then h1 (keeps_count _ _ _ _) rfl
    · exact h1
  · exact keeps_refl _

theorem sound_missAnswer (s : State) (r : Req) (hs : s.Sound q) : (State.missAnswer s r).Sound q := by
  unfold State.missAnswer
  try dsimp only
  repeat' first
    | with_reducible assumption | with_reducible apply sound_event | with_reducible apply sound_poisonAgent | split

theorem keeps_missAnswer (s : State) (r : Req) : Keeps [.free, .evt, .home, .cone, .pmu, .ckp, .links, .out] s
    (State.missAnswer s r) := by
  unfold State.missAnswer
  try dsimp only
  repeat' first
    | with_reducible exact keeps_refl _ | with_reducible assumption
    | ((with_reducible apply keeps_step); (with_reducible apply keeps_event); rfl)
    | ((with_reducible apply keeps_step); (with_reducible apply keeps_poisonAgent); rfl) | split

theorem sound_placed (s : State) (port : Port) (r : Req) (h : Hdr) (tied : Bool) (hs : s.Sound q) :
    (State.placed s port r h tied).Sound q := by
  unfold State.placed
  try dsimp only
  repeat' first
    | with_reducible assumption | with_reducible apply sound_holdReq | with_reducible apply sound_missAnswer
    | with_reducible apply sound_route | with_reducible apply sound_poisonAgent
    | with_reducible apply sound_answerFenced | with_reducible apply sound_protocolError | split

theorem keeps_placed (s : State) (port : Port) (r : Req) (h : Hdr) (tied : Bool) : Keeps
    [.free, .evt, .shelves, .arr, .home, .rings, .cmds, .tly, .cone, .pmu, .kiln, .flt, .ep, .pair, .life, .ckp, .links, .out]
    s (State.placed s port r h tied) := by
  unfold State.placed
  try dsimp only
  repeat' first
    | with_reducible exact keeps_refl _ | with_reducible assumption
    | ((with_reducible apply keeps_step); (with_reducible apply keeps_holdReq); rfl)
    | ((with_reducible apply keeps_step); (with_reducible apply keeps_missAnswer); rfl)
    | ((with_reducible apply keeps_step); (with_reducible apply keeps_route); rfl)
    | ((with_reducible apply keeps_step); (with_reducible apply keeps_poisonAgent); rfl)
    | ((with_reducible apply keeps_step); (with_reducible apply keeps_answerFenced); rfl)
    | ((with_reducible apply keeps_step); (with_reducible apply keeps_protocolError); rfl) | split

theorem sound_fromJoined (s : State) (port : Port) (r : Req) (h : Hdr) (tied : Bool) (hs : s.Sound q) :
    (State.fromJoined s port r h tied).Sound q := by
  unfold State.fromJoined
  try dsimp only
  repeat' first
    | with_reducible assumption | with_reducible apply sound_coneBytes | with_reducible apply sound_pourMark
    | with_reducible apply sound_poisonAgent | with_reducible apply sound_placed | with_reducible apply sound_setAgent
    | split

theorem keeps_fromJoined (s : State) (port : Port) (r : Req) (h : Hdr) (tied : Bool) : Keeps
    [.free, .evt, .agents, .shelves, .arr, .home, .rings, .cmds, .tly, .cone, .pmu, .kiln, .flt, .ep, .pair, .life, .ckp, .links, .out]
    s (State.fromJoined s port r h tied) := by
  unfold State.fromJoined
  try dsimp only
  repeat' first
    | with_reducible exact keeps_refl _ | with_reducible assumption
    | ((with_reducible apply keeps_step); (with_reducible apply keeps_coneBytes); rfl)
    | ((with_reducible apply keeps_step); (with_reducible apply keeps_pourMark); rfl)
    | ((with_reducible apply keeps_step); (with_reducible apply keeps_poisonAgent); rfl)
    | ((with_reducible apply keeps_step); (with_reducible apply keeps_placed); rfl)
    | ((with_reducible apply keeps_step); (with_reducible apply keeps_setAgent); rfl) | split

theorem sound_request (s : State) (port : Port) (h : Hdr) (code : Nat) (mask : Mask) (data : Line) (plen : Nat)
    (tied : Bool) (hs : s.Sound q) : (State.request s port h code mask data plen tied).Sound q := by
  unfold State.request
  try dsimp only
  repeat' first
    | with_reducible assumption | with_reducible apply sound_comeIn | with_reducible apply sound_protocolError
    | with_reducible apply sound_fromStranger | with_reducible apply sound_fromJoined | split

theorem keeps_request (s : State) (port : Port) (h : Hdr) (code : Nat) (mask : Mask) (data : Line) (plen : Nat)
    (tied : Bool) : Keeps
    [.free, .evt, .agents, .shelves, .arr, .home, .rings, .cmds, .tly, .cone, .pmu, .kiln, .flt, .ep, .pair, .life, .ckp, .links, .out]
    s (State.request s port h code mask data plen tied) := by
  unfold State.request
  try dsimp only
  repeat' first
    | with_reducible exact keeps_refl _ | with_reducible assumption
    | ((with_reducible apply keeps_step); (with_reducible apply keeps_comeIn); rfl)
    | ((with_reducible apply keeps_step); (with_reducible apply keeps_protocolError); rfl)
    | ((with_reducible apply keeps_step); (with_reducible apply keeps_fromStranger); rfl)
    | ((with_reducible apply keeps_step); (with_reducible apply keeps_fromJoined); rfl) | split

theorem sound_releaseHeld (s : State) (hs : s.Sound q) : (State.releaseHeld s).Sound q := by
  unfold State.releaseHeld
  try dsimp only
  repeat' first
    | with_reducible assumption | with_reducible apply sound_holdReq | with_reducible apply sound_missAnswer
    | with_reducible apply sound_dispatch | with_reducible apply sound_freshAgents | with_reducible apply sound_foldl
    | intro _ _ _ | split | with_reducible apply sound_mk

theorem keeps_releaseHeld (s : State) : Keeps
    [.free, .evt, .shelves, .arr, .home, .rings, .cmds, .tly, .cone, .pmu, .kiln, .pair, .ckp, .links, .out] s
    (State.releaseHeld s) := by
  unfold State.releaseHeld
  try dsimp only
  repeat' first
    | with_reducible exact keeps_refl _ | with_reducible assumption
    | ((with_reducible apply keeps_step); (with_reducible apply keeps_holdReq); rfl)
    | ((with_reducible apply keeps_step); (with_reducible apply keeps_missAnswer); rfl)
    | ((with_reducible apply keeps_step); (with_reducible apply keeps_dispatch); rfl)
    | ((with_reducible apply keeps_step); (with_reducible apply keeps_freshAgents); rfl)
    | with_reducible apply keeps_foldl | intro _ _ _ | split
    | ((with_reducible apply keeps_step); (with_reducible apply upd_home); rfl)

theorem sound_placeOwn (s : State) (r : Req) (hs : s.Sound q) : (State.placeOwn s r).Sound q := by
  unfold State.placeOwn
  try dsimp only
  repeat' first
    | with_reducible assumption | with_reducible apply sound_arrive | with_reducible apply sound_askWake | split

theorem keeps_placeOwn (s : State) (r : Req) : Keeps [.free, .shelves, .home, .pmu, .ckp, .links, .out] s
    (State.placeOwn s r) := by
  unfold State.placeOwn
  try dsimp only
  repeat' first
    | with_reducible exact keeps_refl _ | with_reducible assumption
    | ((with_reducible apply keeps_step); (with_reducible apply keeps_arrive); rfl)
    | ((with_reducible apply keeps_step); (with_reducible apply keeps_askWake); rfl) | split

theorem sound_dropTxn (s : State) (l : LineIx) (hs : s.Sound q) : (State.dropTxn s l).Sound q := by
  unfold State.dropTxn
  try dsimp only
  repeat' first
    | with_reducible assumption | split | with_reducible apply sound_mk

theorem keeps_dropTxn (s : State) (l : LineIx) : Keeps [.home] s (State.dropTxn s l) := by
  unfold State.dropTxn
  try dsimp only
  repeat' first
    | with_reducible exact keeps_refl _ | with_reducible assumption | split
    | ((with_reducible apply keeps_step); (with_reducible apply upd_home); rfl)

theorem sound_leaveChannel (s : State) (r : Req) (hs : s.Sound q) : (State.leaveChannel s r).Sound q := by
  unfold State.leaveChannel
  try dsimp only
  repeat' first
    | with_reducible assumption | with_reducible apply sound_giveBack | split

theorem keeps_leaveChannel (s : State) (r : Req) : Keeps [.links] s (State.leaveChannel s r) := by
  unfold State.leaveChannel
  try dsimp only
  repeat' first
    | with_reducible exact keeps_refl _ | with_reducible assumption
    | ((with_reducible apply keeps_step); (with_reducible apply keeps_giveBack); rfl) | split

theorem sound_drainChannels (x0 : Nat) (x1 : State) (hx1 : x1.Sound q) : (State.drainChannels x0 x1).Sound q := by
  induction x0 generalizing x1 with
  | zero => exact hx1
  | succ n ih =>
    rw [State.drainChannels]
    split
    · exact ih _ (sound_leaveChannel _ _ (sound_enqueue _ _ _ (sound_mk hx1)))
    · exact hx1

theorem keeps_drainChannels (x0 : Nat) (x1 : State) : Keeps [.free, .shelves, .home, .pmu, .links] x1
    (State.drainChannels x0 x1) := by
  induction x0 generalizing x1 with
  | zero => exact keeps_refl _
  | succ n ih =>
    rw [State.drainChannels]
    split
    · refine keeps_then (keeps_then (keeps_then ?_ (keeps_enqueue _ _ _) rfl) (keeps_leaveChannel _ _) rfl) (ih _) rfl
      with_reducible apply keeps_step
      with_reducible apply upd_home
      · rfl
      · exact keeps_refl _
    · exact keeps_refl _

theorem sound_unqueueHeld (s : State) (hs : s.Sound q) : (State.unqueueHeld s).Sound q := by
  unfold State.unqueueHeld
  try dsimp only
  repeat' first
    | with_reducible assumption | with_reducible apply sound_leaveChannel | with_reducible apply sound_foldl
    | intro _ _ _ | split | with_reducible apply sound_mk

theorem keeps_unqueueHeld (s : State) : Keeps [.home, .links] s (State.unqueueHeld s) := by
  unfold State.unqueueHeld
  try dsimp only
  repeat' first
    | with_reducible exact keeps_refl _ | with_reducible assumption
    | ((with_reducible apply keeps_step); (with_reducible apply keeps_leaveChannel); rfl)
    | with_reducible apply keeps_foldl | intro _ _ _ | split
    | ((with_reducible apply keeps_step); (with_reducible apply upd_home); rfl)

theorem sound_retryChannels (s : State) (hs : s.Sound q) : (State.retryChannels s).Sound q := by
  unfold State.retryChannels
  try dsimp only
  repeat' first
    | with_reducible assumption | with_reducible apply sound_drainChannels | split

theorem keeps_retryChannels (s : State) : Keeps [.free, .shelves, .home, .pmu, .links] s (State.retryChannels s) := by
  unfold State.retryChannels
  try dsimp only
  repeat' first
    | with_reducible exact keeps_refl _ | with_reducible assumption
    | ((with_reducible apply keeps_step); (with_reducible apply keeps_drainChannels); rfl) | split

end Sys2Proof.Machine
end

