-- ==== Sys2Proof/Laws/AgentRows.lean ====
section
/-! SUPPORT. What the operations of Machine/AgentRows.lean do to the whole state, two lemmas per operation: `sound_` (it keeps the
queue of waiting commands and the invariant of Safety.lean) and `keeps_` (the fields that it may change). -/
namespace Sys2Proof.Machine

variable {q : List Instr}

theorem sound_agentBusy (s : State) (hs : s.Sound q) : (State.agentBusy s).Sound q := by
  unfold State.agentBusy
  try dsimp only
  repeat' first
    | with_reducible assumption | with_reducible apply sound_event | split

theorem keeps_agentBusy (s : State) : Keeps [.evt] s (State.agentBusy s) := by
  unfold State.agentBusy
  try dsimp only
  repeat' first
    | with_reducible exact keeps_refl _ | with_reducible assumption
    | ((with_reducible apply keeps_step); (with_reducible apply keeps_event); rfl) | split

theorem sound_agentResult (s : State) (r : BitVec 3) (hs : s.Sound q) : (State.agentResult s r).Sound q := by
  unfold State.agentResult
  try dsimp only
  repeat' first
    | with_reducible assumption | split | with_reducible apply sound_mk

theorem keeps_agentResult (s : State) (r : BitVec 3) : Keeps [.agents] s (State.agentResult s r) := by
  unfold State.agentResult
  try dsimp only
  repeat' first
    | with_reducible exact keeps_refl _ | with_reducible assumption | split
    | ((with_reducible apply keeps_step); (with_reducible apply upd_agents); rfl)

theorem sound_agentRead (s : State) (hs : s.Sound q) : (State.agentRead s).Sound q := by
  unfold State.agentRead
  try dsimp only
  repeat' first
    | with_reducible assumption | with_reducible apply sound_agentBusy | with_reducible apply sound_agentResult
    | split | with_reducible apply sound_mk

theorem keeps_agentRead (s : State) : Keeps [.evt, .agents] s (State.agentRead s) := by
  unfold State.agentRead
  try dsimp only
  repeat' first
    | with_reducible exact keeps_refl _ | with_reducible assumption
    | ((with_reducible apply keeps_step); (with_reducible apply keeps_agentBusy); rfl)
    | ((with_reducible apply keeps_step); (with_reducible apply keeps_agentResult); rfl) | split
    | ((with_reducible apply keeps_step); (with_reducible apply upd_agents); rfl)

theorem sound_leaveWalk (s : State) (id : AgentId) (hs : s.Sound q) : (State.leaveWalk s id).Sound q := by
  unfold State.leaveWalk
  try dsimp only
  repeat' first
    | with_reducible assumption | with_reducible apply sound_placeOwn | with_reducible apply sound_foldl | intro _ _ _
    | split

theorem keeps_leaveWalk (s : State) (id : AgentId) : Keeps [.free, .shelves, .home, .pmu, .ckp, .links, .out] s
    (State.leaveWalk s id) := by
  unfold State.leaveWalk
  try dsimp only
  repeat' first
    | with_reducible exact keeps_refl _ | with_reducible assumption
    | ((with_reducible apply keeps_step); (with_reducible apply keeps_placeOwn); rfl)
    | with_reducible apply keeps_foldl | intro _ _ _ | split

theorem sound_agentLeave (s : State) (hs : s.Sound q) : (State.agentLeave s).Sound q := by
  unfold State.agentLeave
  try dsimp only
  repeat' first
    | with_reducible assumption | with_reducible apply sound_agentBusy | with_reducible apply sound_agentResult
    | with_reducible apply sound_setAgent | with_reducible apply sound_leaveWalk
    | with_reducible apply sound_spreadAgents | split | with_reducible apply sound_mk

theorem keeps_agentLeave (s : State) : Keeps [.free, .evt, .agents, .shelves, .home, .pmu, .ckp, .links, .out] s
    (State.agentLeave s) := by
  unfold State.agentLeave
  try dsimp only
  repeat' first
    | with_reducible exact keeps_refl _ | with_reducible assumption
    | ((with_reducible apply keeps_step); (with_reducible apply keeps_agentBusy); rfl)
    | ((with_reducible apply keeps_step); (with_reducible apply keeps_agentResult); rfl)
    | ((with_reducible apply keeps_step); (with_reducible apply keeps_setAgent); rfl)
    | ((with_reducible apply keeps_step); (with_reducible apply keeps_leaveWalk); rfl)
    | ((with_reducible apply keeps_step); (with_reducible apply keeps_spreadAgents); rfl) | split
    | ((with_reducible apply keeps_step); (with_reducible apply upd_agents); rfl)

theorem sound_agentJoin (s : State) (hs : s.Sound q) : (State.agentJoin s).Sound q := by
  unfold State.agentJoin
  try dsimp only
  repeat' first
    | with_reducible assumption | with_reducible apply sound_agentBusy | with_reducible apply sound_agentResult
    | with_reducible apply sound_setAgent | split | with_reducible apply sound_mk

theorem keeps_agentJoin (s : State) : Keeps [.evt, .agents] s (State.agentJoin s) := by
  unfold State.agentJoin
  try dsimp only
  repeat' first
    | with_reducible exact keeps_refl _ | with_reducible assumption
    | ((with_reducible apply keeps_step); (with_reducible apply keeps_agentBusy); rfl)
    | ((with_reducible apply keeps_step); (with_reducible apply keeps_agentResult); rfl)
    | ((with_reducible apply keeps_step); (with_reducible apply keeps_setAgent); rfl) | split
    | ((with_reducible apply keeps_step); (with_reducible apply upd_agents); rfl)

end Sys2Proof.Machine
end

