-- ==== Sys2Proof/Laws/Cache.lean ====
section
/-! SUPPORT. What the operations of Machine/Cache.lean do to the whole state, two lemmas per operation: `sound_` (it keeps the
queue of waiting commands and the invariant of Safety.lean) and `keeps_` (the fields that it may change). -/
namespace Sys2Proof.Machine

variable {q : List Instr}

theorem sound_setTag (s : State) (x : Slot) (t : Tag) (hs : s.Sound q) : (State.setTag s x t).Sound q := by
  unfold State.setTag
  refine sound_arr hs fun h => ?_
  rw [wf_iff] at *
  exact ⟨h.1, h.2.1, twf_tset _ _ h.2.2.1, h.2.2.2⟩

theorem keeps_setTag (s : State) (x : Slot) (t : Tag) : Keeps [.arr] s (State.setTag s x t) := by
  unfold State.setTag
  try dsimp only
  repeat' first
    | with_reducible exact keeps_refl _ | with_reducible assumption | split
    | ((with_reducible apply keeps_step); (with_reducible apply upd_arr); rfl)

theorem sound_store (s : State) (x : Slot) (t : Tag) (f : Stored) (hs : s.Sound q) : (State.store s x t f).Sound
    q := by
  unfold State.store
  try dsimp only
  repeat' first
    | with_reducible assumption | with_reducible apply sound_setTag | with_reducible apply sound_setArr | split
    | with_reducible apply sound_mk

theorem keeps_store (s : State) (x : Slot) (t : Tag) (f : Stored) : Keeps [.arr, .flt] s (State.store s x t f) := by
  unfold State.store
  try dsimp only
  repeat' first
    | with_reducible exact keeps_refl _ | with_reducible assumption
    | ((with_reducible apply keeps_step); (with_reducible apply keeps_setTag); rfl)
    | ((with_reducible apply keeps_step); (with_reducible apply keeps_setArr); rfl) | split
    | ((with_reducible apply keeps_step); (with_reducible apply upd_flt); rfl)

theorem sound_dropBuffer (s : State) (sh : Nat) (l : LineIx) (hs : s.Sound q) : (State.dropBuffer s sh l).Sound
    q := by
  unfold State.dropBuffer
  try dsimp only
  repeat' first
    | with_reducible assumption | with_reducible apply sound_modShelf | split

theorem keeps_dropBuffer (s : State) (sh : Nat) (l : LineIx) : Keeps [.shelves] s (State.dropBuffer s sh l) := by
  unfold State.dropBuffer
  try dsimp only
  repeat' first
    | with_reducible exact keeps_refl _ | with_reducible assumption
    | ((with_reducible apply keeps_step); (with_reducible apply keeps_modShelf); rfl) | split

theorem sound_freeDup (s : State) (l : LineIx) (hs : s.Sound q) : (State.freeDup s l).Sound q := by
  unfold State.freeDup
  try dsimp only
  repeat' first
    | with_reducible assumption | with_reducible apply sound_setTag | split

theorem keeps_freeDup (s : State) (l : LineIx) : Keeps [.arr] s (State.freeDup s l) := by
  unfold State.freeDup
  try dsimp only
  repeat' first
    | with_reducible exact keeps_refl _ | with_reducible assumption
    | ((with_reducible apply keeps_step); (with_reducible apply keeps_setTag); rfl) | split

theorem sound_cleanSlot (s : State) (x : Slot) (src : Nat) (w : Waiter) (hs : s.Sound q) :
    (State.cleanSlot s x src w).Sound q := by
  unfold State.cleanSlot
  try dsimp only
  repeat' first
    | with_reducible assumption | with_reducible apply sound_setTag | with_reducible apply sound_freeDup
    | with_reducible apply sound_backWrite | split

theorem keeps_cleanSlot (s : State) (x : Slot) (src : Nat) (w : Waiter) : Keeps
    [.free, .arr, .back, .cone, .pmu, .ep, .ckp, .out] s (State.cleanSlot s x src w) := by
  unfold State.cleanSlot
  try dsimp only
  repeat' first
    | with_reducible exact keeps_refl _ | with_reducible assumption
    | ((with_reducible apply keeps_step); (with_reducible apply keeps_setTag); rfl)
    | ((with_reducible apply keeps_step); (with_reducible apply keeps_freeDup); rfl)
    | ((with_reducible apply keeps_step); (with_reducible apply keeps_backWrite); rfl) | split

theorem sound_evict (s : State) (x : Slot) (hs : s.Sound q) : (State.evict s x).Sound q := by
  unfold State.evict
  try dsimp only
  repeat' first
    | with_reducible assumption | with_reducible apply sound_setTag | with_reducible apply sound_dropBuffer
    | with_reducible apply sound_cleanSlot | split

theorem keeps_evict (s : State) (x : Slot) : Keeps [.free, .shelves, .arr, .back, .cone, .pmu, .ep, .ckp, .out]
    s (State.evict s x) := by
  unfold State.evict
  try dsimp only
  repeat' first
    | with_reducible exact keeps_refl _ | with_reducible assumption
    | ((with_reducible apply keeps_step); (with_reducible apply keeps_setTag); rfl)
    | ((with_reducible apply keeps_step); (with_reducible apply keeps_dropBuffer); rfl)
    | ((with_reducible apply keeps_step); (with_reducible apply keeps_cleanSlot); rfl) | split

theorem sound_space (s : State) (bank : Nat) (set : Nat) (c : BitVec 3) (n : Nat) (own : Option Slot)
    (hs : s.Sound q) : (State.space s bank set c n own).2.Sound q := by
  unfold State.space
  try dsimp only
  repeat' first
    | with_reducible assumption | with_reducible apply sound_evict | with_reducible apply sound_foldl | intro _ _ _
    | split

theorem keeps_space (s : State) (bank : Nat) (set : Nat) (c : BitVec 3) (n : Nat) (own : Option Slot) : Keeps
    [.free, .shelves, .arr, .back, .cone, .pmu, .ep, .ckp, .out] s (State.space s bank set c n own).2 := by
  unfold State.space
  try dsimp only
  repeat' first
    | with_reducible exact keeps_refl _ | with_reducible assumption
    | ((with_reducible apply keeps_step); (with_reducible apply keeps_evict); rfl) | with_reducible apply keeps_foldl
    | intro _ _ _ | split

theorem sound_restore (s : State) (x : Slot) (t : Tag) (f : Stored) (hs : s.Sound q) : PostO (State.Sound q)
    (State.restore s x t f) := by
  unfold State.restore
  try dsimp only
  repeat' first
    | with_reducible assumption | with_reducible apply sound_id | with_reducible apply sound_store
    | with_reducible apply sound_space | with_reducible apply postO_some | with_reducible exact postO_none | intro _ _
    | intro _ | split | refine sound_snd (by with_reducible assumption) ?_; with_reducible apply sound_space
    | with_reducible apply sound_mk | ((with_reducible apply sound_ckp); rotate_left; rfl)
    | ((with_reducible apply sound_evt); rotate_left; exact id)

theorem keeps_restore (s : State) (x : Slot) (t : Tag) (f : Stored) : PostO
    (Keeps [.free, .shelves, .arr, .back, .cone, .pmu, .flt, .ep, .ckp, .out] s) (State.restore s x t f) := by
  unfold State.restore
  try dsimp only
  repeat' first
    | with_reducible exact keeps_refl _ | with_reducible assumption | with_reducible apply keeps_id
    | ((with_reducible apply keeps_step); (with_reducible apply keeps_store); rfl)
    | ((with_reducible apply keeps_step); (with_reducible apply keeps_space); rfl) | with_reducible apply postO_some
    | with_reducible exact postO_none | intro _ _ | intro _ | split
    | ((with_reducible refine keeps_snd (by with_reducible assumption) ?_); (with_reducible apply keeps_step); (with_reducible apply keeps_space); rfl)

theorem sound_thrashCount (s : State) (sh : Nat) (c : BitVec 3) (hs : s.Sound q) :
    (State.thrashCount s sh c).Sound q := by
  unfold State.thrashCount
  try dsimp only
  repeat' first
    | with_reducible assumption | with_reducible apply sound_modShelf | with_reducible apply sound_event | split

theorem keeps_thrashCount (s : State) (sh : Nat) (c : BitVec 3) : Keeps [.evt, .shelves] s
    (State.thrashCount s sh c) := by
  unfold State.thrashCount
  try dsimp only
  repeat' first
    | with_reducible exact keeps_refl _ | with_reducible assumption
    | ((with_reducible apply keeps_step); (with_reducible apply keeps_modShelf); rfl)
    | ((with_reducible apply keeps_step); (with_reducible apply keeps_event); rfl) | split

theorem sound_touch (s : State) (x : Slot) (hs : s.Sound q) : (State.touch s x).Sound q := by
  unfold State.touch
  refine sound_arr hs fun h => ?_
  rw [wf_iff] at *
  dsimp only
  exact ⟨h.1, h.2.1, h.2.2.1, twf_tmod _ _ h.2.2.2.1, twf_tmod _ _ h.2.2.2.2⟩

theorem keeps_touch (s : State) (x : Slot) : Keeps [.arr] s (State.touch s x) := by
  unfold State.touch
  try dsimp only
  repeat' first
    | with_reducible exact keeps_refl _ | with_reducible assumption | split
    | ((with_reducible apply keeps_step); (with_reducible apply upd_arr); rfl)

theorem sound_readHit (s : State) (x : Slot) (pour : Bool) (hs : s.Sound q) : (State.readHit s x pour).Sound q := by
  unfold State.readHit
  try dsimp only
  repeat' first
    | with_reducible assumption | with_reducible apply sound_touch | split

theorem keeps_readHit (s : State) (x : Slot) (pour : Bool) : Keeps [.arr] s (State.readHit s x pour) := by
  unfold State.readHit
  try dsimp only
  repeat' first
    | with_reducible exact keeps_refl _ | with_reducible assumption
    | ((with_reducible apply keeps_step); (with_reducible apply keeps_touch); rfl) | split

theorem sound_tagInvalidate (s : State) (bank : Nat) (hs : s.Sound q) : (State.tagInvalidate s bank).Sound q := by
  unfold State.tagInvalidate
  refine sound_arr hs fun h => ?_
  rw [wf_iff] at *
  exact ⟨h.1, h.2.1, twf_filter _ h.2.2.1, twf_filter _ h.2.2.2.1, twf_filter _ h.2.2.2.2⟩

theorem keeps_tagInvalidate (s : State) (bank : Nat) : Keeps [.arr] s (State.tagInvalidate s bank) := by
  unfold State.tagInvalidate
  try dsimp only
  repeat' first
    | with_reducible exact keeps_refl _ | with_reducible assumption | split
    | ((with_reducible apply keeps_step); (with_reducible apply upd_arr); rfl)

theorem sound_noAllocate (s : State) (bank : Nat) (l : LineIx) (c : BitVec 3) (hs : s.Sound q) :
    (State.noAllocate s bank l c).Sound q := by
  unfold State.noAllocate
  try dsimp only
  repeat' first
    | with_reducible assumption | with_reducible apply sound_count | with_reducible apply sound_thrashCount | split

theorem keeps_noAllocate (s : State) (bank : Nat) (l : LineIx) (c : BitVec 3) : Keeps
    [.free, .evt, .shelves, .pmu] s (State.noAllocate s bank l c) := by
  unfold State.noAllocate
  try dsimp only
  repeat' first
    | with_reducible exact keeps_refl _ | with_reducible assumption
    | ((with_reducible apply keeps_step); (with_reducible apply keeps_count); rfl)
    | ((with_reducible apply keeps_step); (with_reducible apply keeps_thrashCount); rfl) | split

theorem sound_tagStep (s : State) (bank : Nat) (l : LineIx) (c : BitVec 3) (dup : Bool) (hs : s.Sound q) :
    (State.tagStep s bank l c dup).2.Sound q := by
  unfold State.tagStep
  try dsimp only
  repeat' first
    | with_reducible assumption | with_reducible apply sound_evict | with_reducible apply sound_event | split

theorem keeps_tagStep (s : State) (bank : Nat) (l : LineIx) (c : BitVec 3) (dup : Bool) : Keeps
    [.free, .evt, .shelves, .arr, .back, .cone, .pmu, .ep, .ckp, .out] s (State.tagStep s bank l c dup).2 := by
  unfold State.tagStep
  try dsimp only
  repeat' first
    | with_reducible exact keeps_refl _ | with_reducible assumption
    | ((with_reducible apply keeps_step); (with_reducible apply keeps_evict); rfl)
    | ((with_reducible apply keeps_step); (with_reducible apply keeps_event); rfl) | split

theorem sound_allocate (s : State) (bank : Nat) (l : LineIx) (t : Tag) (f : Stored) (hs : s.Sound q) :
    (State.allocate s bank l t f).2.Sound q := by
  unfold State.allocate
  try dsimp only
  repeat' first
    | with_reducible assumption | with_reducible apply sound_id | with_reducible apply sound_space
    | with_reducible apply sound_noAllocate | with_reducible apply sound_tagStep | with_reducible apply sound_store
    | with_reducible apply sound_touch | intro _ _ | intro _ | split
    | refine sound_snd (by with_reducible assumption) ?_; with_reducible apply sound_space
    | refine sound_snd (by with_reducible assumption) ?_; with_reducible apply sound_tagStep
    | with_reducible apply sound_mk | ((with_reducible apply sound_ckp); rotate_left; rfl)
    | ((with_reducible apply sound_evt); rotate_left; exact id)

theorem keeps_allocate (s : State) (bank : Nat) (l : LineIx) (t : Tag) (f : Stored) : Keeps
    [.free, .evt, .shelves, .arr, .back, .cone, .pmu, .flt, .ep, .ckp, .out] s (State.allocate s bank l t f).2
    := by
  unfold State.allocate
  try dsimp only
  repeat' first
    | with_reducible exact keeps_refl _ | with_reducible assumption | with_reducible apply keeps_id
    | ((with_reducible apply keeps_step); (with_reducible apply keeps_space); rfl)
    | ((with_reducible apply keeps_step); (with_reducible apply keeps_noAllocate); rfl)
    | ((with_reducible apply keeps_step); (with_reducible apply keeps_tagStep); rfl)
    | ((with_reducible apply keeps_step); (with_reducible apply keeps_store); rfl)
    | ((with_reducible apply keeps_step); (with_reducible apply keeps_touch); rfl) | intro _ _ | intro _ | split
    | ((with_reducible refine keeps_snd (by with_reducible assumption) ?_); (with_reducible apply keeps_step); (with_reducible apply keeps_space); rfl)
    | ((with_reducible refine keeps_snd (by with_reducible assumption) ?_); (with_reducible apply keeps_step); (with_reducible apply keeps_tagStep); rfl)

theorem sound_writeDup (s : State) (l : LineIx) (t : Tag) (d : Line) (hs : s.Sound q) : PostO (State.Sound q)
    (State.writeDup s l t d) := by
  unfold State.writeDup
  try dsimp only
  repeat' first
    | with_reducible assumption | with_reducible apply sound_id | with_reducible apply sound_restore
    | with_reducible apply sound_allocate | with_reducible apply postO_some | with_reducible exact postO_none
    | intro _ _ | intro _ | split
    | refine sound_snd (by with_reducible assumption) ?_; with_reducible apply sound_allocate
    | refine postO_get (by with_reducible assumption) ?_; with_reducible apply sound_restore
    | with_reducible apply sound_mk | ((with_reducible apply sound_ckp); rotate_left; rfl)
    | ((with_reducible apply sound_evt); rotate_left; exact id)

theorem keeps_writeDup (s : State) (l : LineIx) (t : Tag) (d : Line) : PostO
    (Keeps [.free, .evt, .shelves, .arr, .back, .cone, .pmu, .flt, .ep, .ckp, .out] s) (State.writeDup s l t d)
    := by
  unfold State.writeDup
  try dsimp only
  repeat' first
    | with_reducible exact keeps_refl _ | with_reducible assumption | with_reducible apply keeps_id
    | ((with_reducible apply keepsO_step); (with_reducible apply keeps_restore); rfl)
    | ((with_reducible apply keeps_step); (with_reducible apply keeps_allocate); rfl)
    | with_reducible apply postO_some | with_reducible exact postO_none | intro _ _ | intro _ | split
    | ((with_reducible refine keeps_snd (by with_reducible assumption) ?_); (with_reducible apply keeps_step); (with_reducible apply keeps_allocate); rfl)
    | ((with_reducible apply keepsO_out); (with_reducible assumption); (with_reducible apply keeps_restore); rfl)

theorem sound_writeClean (s : State) (x : Slot) (l : LineIx) (m : Mask) (d : Line) (src : Nat) (w : Waiter)
    (hs : s.Sound q) : (State.writeClean s x l m d src w).2.Sound q := by
  unfold State.writeClean
  try dsimp only
  repeat' first
    | with_reducible assumption | with_reducible apply sound_backWrite | with_reducible apply sound_setTag
    | with_reducible apply sound_freeDup | split

theorem keeps_writeClean (s : State) (x : Slot) (l : LineIx) (m : Mask) (d : Line) (src : Nat) (w : Waiter) :
    Keeps [.free, .arr, .back, .cone, .pmu, .ep, .ckp, .out] s (State.writeClean s x l m d src w).2 := by
  unfold State.writeClean
  try dsimp only
  repeat' first
    | with_reducible exact keeps_refl _ | with_reducible assumption
    | ((with_reducible apply keeps_step); (with_reducible apply keeps_backWrite); rfl)
    | ((with_reducible apply keeps_step); (with_reducible apply keeps_setTag); rfl)
    | ((with_reducible apply keeps_step); (with_reducible apply keeps_freeDup); rfl) | split

theorem sound_afterDirty (s : State) (x : Slot) (l : LineIx) (m : Mask) (d : Line) (src : Nat) (w : Waiter)
    (hs : s.Sound q) : (State.afterDirty s x l m d src w).2.Sound q := by
  unfold State.afterDirty
  try dsimp only
  repeat' first
    | with_reducible assumption | with_reducible apply sound_writeDup | with_reducible apply sound_writeClean | split
    | refine postO_get (by with_reducible assumption) ?_; with_reducible apply sound_writeDup

theorem keeps_afterDirty (s : State) (x : Slot) (l : LineIx) (m : Mask) (d : Line) (src : Nat) (w : Waiter) :
    Keeps [.free, .evt, .shelves, .arr, .back, .cone, .pmu, .flt, .ep, .ckp, .out] s
    (State.afterDirty s x l m d src w).2 := by
  unfold State.afterDirty
  try dsimp only
  repeat' first
    | with_reducible exact keeps_refl _ | with_reducible assumption
    | ((with_reducible apply keepsO_step); (with_reducible apply keeps_writeDup); rfl)
    | ((with_reducible apply keeps_step); (with_reducible apply keeps_writeClean); rfl) | split
    | ((with_reducible apply keepsO_out); (with_reducible assumption); (with_reducible apply keeps_writeDup); rfl)

theorem sound_writePresent (s : State) (x : Slot) (r : Region) (l : LineIx) (m : Mask) (d : Line)
    (through : Bool) (mark : Bool) (src : Nat) (w : Waiter) (hs : s.Sound q) :
    (State.writePresent s x r l m d through mark src w).2.Sound q := by
  unfold State.writePresent
  try dsimp only
  repeat' first
    | with_reducible assumption | with_reducible apply sound_cleanSlot | with_reducible apply sound_dropBuffer
    | with_reducible apply sound_restore | with_reducible apply sound_touch | with_reducible apply sound_backWrite
    | with_reducible apply sound_afterDirty | with_reducible apply sound_freeDup | with_reducible apply sound_setTag
    | split | refine postO_get (by with_reducible assumption) ?_; with_reducible apply sound_restore

theorem keeps_writePresent (s : State) (x : Slot) (r : Region) (l : LineIx) (m : Mask) (d : Line)
    (through : Bool) (mark : Bool) (src : Nat) (w : Waiter) : Keeps
    [.free, .evt, .shelves, .arr, .back, .cone, .pmu, .flt, .ep, .ckp, .out] s
    (State.writePresent s x r l m d through mark src w).2 := by
  generalize hf : @State.writePresent = f
  delta State.writePresent at hf
  subst hf
  dsimp -zeta -iota only
  repeat' first
    | with_reducible exact keeps_refl _ | with_reducible assumption
    | ((with_reducible apply keeps_step); (with_reducible apply keeps_cleanSlot); rfl)
    | ((with_reducible apply keeps_step); (with_reducible apply keeps_dropBuffer); rfl)
    | ((with_reducible apply keepsO_step); (with_reducible apply keeps_restore); rfl)
    | ((with_reducible apply keeps_step); (with_reducible apply keeps_touch); rfl)
    | ((with_reducible apply keeps_step); (with_reducible apply keeps_backWrite); rfl)
    | ((with_reducible apply keeps_step); (with_reducible apply keeps_afterDirty); rfl)
    | ((with_reducible apply keeps_step); (with_reducible apply keeps_freeDup); rfl)
    | ((with_reducible apply keeps_step); (with_reducible apply keeps_setTag); rfl) | split | dsimp only
    | ((with_reducible apply keepsO_out); (with_reducible assumption); (with_reducible apply keeps_restore); rfl)

theorem sound_fill (s : State) (r : Region) (l : LineIx) (d : Line) (cone : BitVec 3) (alloc : Bool)
    (hs : s.Sound q) : (State.fill s r l d cone alloc).2.2.Sound q := by
  unfold State.fill
  split
  · extract_lets t new f
    clear_value t new f
    split
    · exact hs
    · split
      · have h1 := postO_get ‹_› (sound_restore _ _ _ _ hs)
        show State.Sound q (ite _ _ _)
        split
        · exact h1
        · exact sound_afterDirty _ _ _ _ _ _ _ h1
      · exact hs
  · split
    · exact hs
    · extract_lets f
      clear_value f
      split
      · have h1 := sound_snd ‹_› (sound_allocate _ _ _ _ _ hs)
        show State.Sound q (ite _ _ _)
        split
        · exact h1
        · exact sound_count _ _ _ _ h1
      · exact sound_snd ‹_› (sound_allocate _ _ _ _ _ hs)

theorem keeps_fill (s : State) (r : Region) (l : LineIx) (d : Line) (cone : BitVec 3) (alloc : Bool) : Keeps
    [.free, .evt, .shelves, .arr, .back, .cone, .pmu, .flt, .ep, .ckp, .out] s
    (State.fill s r l d cone alloc).2.2 := by
  unfold State.fill
  split
  · extract_lets t new f
    clear_value t new f
    split
    · exact keeps_refl _
    · split
      · rename_i s1 e
        have h1 : Keeps [.free, .evt, .shelves, .arr, .back, .cone, .pmu, .flt, .ep, .ckp, .out] s s1 := keepsO_out e (keeps_restore _ _ _ _) rfl (keeps_refl _)
        show Keeps _ s (ite _ _ _)
        split
        · exact h1
        · exact keeps_then h1 (keeps_afterDirty _ _ _ _ _ _ _) rfl
      · exact keeps_refl _
  · split
    · exact keeps_refl _
    · extract_lets f
      clear_value f
      split
      · rename_i x s1 e
        have h1 : Keeps [.free, .evt, .shelves, .arr, .back, .cone, .pmu, .flt, .ep, .ckp, .out] s s1 := keeps_snd e (keeps_then (keeps_refl _) (keeps_allocate _ _ _ _ _) rfl)
        show Keeps _ s (ite _ _ _)
        split
        · exact h1
        · exact keeps_then h1 (keeps_count _ _ _ _) rfl
      · exact keeps_snd ‹_› (keeps_then (keeps_refl _) (keeps_allocate _ _ _ _ _) rfl)

theorem sound_writeBuffer (s : State) (sh : Nat) (l : LineIx) (hs : s.Sound q) :
    (State.writeBuffer s sh l).Sound q := by
  unfold State.writeBuffer
  split
  · exact hs
  · extract_lets t s1
    have h1 : s1.Sound q := sound_dropBuffer _ _ _ hs
    clear_value s1 t
    split
    · exact postO_get ‹_› (sound_restore _ _ _ _ h1)
    · exact sound_setTag _ _ _ (sound_backWrite _ _ _ _ _ _ _ _ (sound_freeDup _ _ h1))
  · exact sound_dropBuffer _ _ _ hs

theorem keeps_writeBuffer (s : State) (sh : Nat) (l : LineIx) : Keeps
    [.free, .shelves, .arr, .back, .cone, .pmu, .flt, .ep, .ckp, .out] s (State.writeBuffer s sh l) := by
  unfold State.writeBuffer
  split
  · exact keeps_refl _
  · extract_lets t s1
    have h1 : Keeps [.free, .shelves, .arr, .back, .cone, .pmu, .flt, .ep, .ckp, .out] s s1 := keeps_then (keeps_refl _) (keeps_dropBuffer _ _ _) rfl
    clear_value s1 t
    split
    · exact keepsO_out ‹_› (keeps_restore _ _ _ _) rfl h1
    · exact keeps_then (keeps_then (keeps_then h1 (keeps_freeDup _ _) rfl) (keeps_backWrite _ _ _ _ _ _ _ _) rfl)
        (keeps_setTag _ _ _) rfl
  · exact keeps_then (keeps_refl _) (keeps_dropBuffer _ _ _) rfl

theorem sound_reclaimHit (s : State) (l : LineIx) (c : BitVec 3) (a : Option AgentId) (hs : s.Sound q) :
    (State.reclaimHit s l c a).Sound q := by
  unfold State.reclaimHit
  try dsimp only
  repeat' first
    | with_reducible assumption | with_reducible apply sound_count | split

theorem keeps_reclaimHit (s : State) (l : LineIx) (c : BitVec 3) (a : Option AgentId) : Keeps [.free, .pmu] s
    (State.reclaimHit s l c a) := by
  unfold State.reclaimHit
  try dsimp only
  repeat' first
    | with_reducible exact keeps_refl _ | with_reducible assumption
    | ((with_reducible apply keeps_step); (with_reducible apply keeps_count); rfl) | split

theorem sound_writeHome (s : State) (r : Region) (l : LineIx) (m : Mask) (d : Line) (cone : BitVec 3)
    (mark : Bool) (pour : Bool) (src : Nat) (w : Waiter) (hs : s.Sound q) :
    (State.writeHome s r l m d cone mark pour src w).2.Sound q := by
  unfold State.writeHome
  try dsimp only
  repeat' first
    | with_reducible assumption | with_reducible apply sound_id | with_reducible apply sound_backWrite
    | with_reducible apply sound_writePresent | with_reducible apply sound_setTag
    | with_reducible apply sound_allocate | with_reducible apply sound_afterDirty | intro _ _ | intro _ | split
    | refine sound_snd (by with_reducible assumption) ?_; with_reducible apply sound_writePresent
    | refine sound_snd (by with_reducible assumption) ?_; with_reducible apply sound_allocate
    | refine sound_snd (by with_reducible assumption) ?_; with_reducible apply sound_afterDirty
    | with_reducible apply sound_mk | ((with_reducible apply sound_ckp); rotate_left; rfl)
    | ((with_reducible apply sound_evt); rotate_left; exact id)

theorem keeps_writeHome (s : State) (r : Region) (l : LineIx) (m : Mask) (d : Line) (cone : BitVec 3)
    (mark : Bool) (pour : Bool) (src : Nat) (w : Waiter) : Keeps
    [.free, .evt, .shelves, .arr, .back, .cone, .pmu, .flt, .ep, .ckp, .out] s
    (State.writeHome s r l m d cone mark pour src w).2 := by
  unfold State.writeHome
  try dsimp only
  repeat' first
    | with_reducible exact keeps_refl _ | with_reducible assumption | with_reducible apply keeps_id
    | ((with_reducible apply keeps_step); (with_reducible apply keeps_backWrite); rfl)
    | ((with_reducible apply keeps_step); (with_reducible apply keeps_writePresent); rfl)
    | ((with_reducible apply keeps_step); (with_reducible apply keeps_setTag); rfl)
    | ((with_reducible apply keeps_step); (with_reducible apply keeps_allocate); rfl)
    | ((with_reducible apply keeps_step); (with_reducible apply keeps_afterDirty); rfl) | intro _ _ | intro _ | split
    | ((with_reducible refine keeps_snd (by with_reducible assumption) ?_); (with_reducible apply keeps_step); (with_reducible apply keeps_writePresent); rfl)
    | ((with_reducible refine keeps_snd (by with_reducible assumption) ?_); (with_reducible apply keeps_step); (with_reducible apply keeps_allocate); rfl)
    | ((with_reducible refine keeps_snd (by with_reducible assumption) ?_); (with_reducible apply keeps_step); (with_reducible apply keeps_afterDirty); rfl)

theorem sound_bufferResult (s : State) (sh : Nat) (x : Slot) (l : LineIx) (m : Mask) (d : Line) (n : Nat)
    (hs : s.Sound q) : (State.bufferResult s sh x l m d n).Sound q := by
  unfold State.bufferResult
  try dsimp only
  repeat' first
    | with_reducible assumption | with_reducible apply sound_cleanSlot | with_reducible apply sound_setTag
    | with_reducible apply sound_dropBuffer | with_reducible apply sound_touch | with_reducible apply sound_modShelf
    | split

theorem keeps_bufferResult (s : State) (sh : Nat) (x : Slot) (l : LineIx) (m : Mask) (d : Line) (n : Nat) :
    Keeps [.free, .shelves, .arr, .back, .cone, .pmu, .ep, .ckp, .out] s (State.bufferResult s sh x l m d n) :=
    by
  unfold State.bufferResult
  try dsimp only
  repeat' first
    | with_reducible exact keeps_refl _ | with_reducible assumption
    | ((with_reducible apply keeps_step); (with_reducible apply keeps_cleanSlot); rfl)
    | ((with_reducible apply keeps_step); (with_reducible apply keeps_setTag); rfl)
    | ((with_reducible apply keeps_step); (with_reducible apply keeps_dropBuffer); rfl)
    | ((with_reducible apply keeps_step); (with_reducible apply keeps_touch); rfl)
    | ((with_reducible apply keeps_step); (with_reducible apply keeps_modShelf); rfl) | split

end Sys2Proof.Machine
end

