-- ==== Sys2Proof/Laws/Recover.lean ====
section
/-! SUPPORT. What the operations of Machine/Recover.lean do to the whole state, two lemmas per operation: `sound_` (it keeps the
queue of waiting commands and the invariant of Safety.lean) and `keeps_` (the fields that it may change). -/
namespace Sys2Proof.Machine

variable {q : List Instr}

theorem sound_loseLine (s : State) (x : Slot) (l : LineIx) (hs : s.Sound q) : (State.loseLine s x l).Sound q := by
  unfold State.loseLine
  try dsimp only
  repeat' first
    | with_reducible assumption | with_reducible apply sound_event | with_reducible apply sound_setTag
    | with_reducible apply sound_dropBuffer | with_reducible apply sound_freeDup | split

theorem keeps_loseLine (s : State) (x : Slot) (l : LineIx) : Keeps [.evt, .shelves, .arr] s
    (State.loseLine s x l) := by
  unfold State.loseLine
  try dsimp only
  repeat' first
    | with_reducible exact keeps_refl _ | with_reducible assumption
    | ((with_reducible apply keeps_step); (with_reducible apply keeps_event); rfl)
    | ((with_reducible apply keeps_step); (with_reducible apply keeps_setTag); rfl)
    | ((with_reducible apply keeps_step); (with_reducible apply keeps_dropBuffer); rfl)
    | ((with_reducible apply keeps_step); (with_reducible apply keeps_freeDup); rfl) | split

theorem sound_found (s : State) (l : LineIx) (hs : s.Sound q) : (State.found s l).Sound q := by
  unfold State.found
  try dsimp only
  repeat' first
    | with_reducible assumption | split | with_reducible apply sound_mk

theorem keeps_found (s : State) (l : LineIx) : Keeps [.flt] s (State.found s l) := by
  unfold State.found
  try dsimp only
  repeat' first
    | with_reducible exact keeps_refl _ | with_reducible assumption | split
    | ((with_reducible apply keeps_step); (with_reducible apply upd_flt); rfl)

theorem sound_recoverClass (s : State) (l : LineIx) (hs : s.Sound q) : (State.recoverClass s l).2.Sound q := by
  unfold State.recoverClass
  try dsimp only
  repeat' first
    | with_reducible assumption | with_reducible apply sound_found | with_reducible apply sound_trigger
    | with_reducible apply sound_loseLine | split

theorem keeps_recoverClass (s : State) (l : LineIx) : Keeps
    [.free, .evt, .shelves, .arr, .cone, .flt, .ep, .ckp, .out] s (State.recoverClass s l).2 := by
  unfold State.recoverClass
  try dsimp only
  repeat' first
    | with_reducible exact keeps_refl _ | with_reducible assumption
    | ((with_reducible apply keeps_step); (with_reducible apply keeps_found); rfl)
    | ((with_reducible apply keeps_step); (with_reducible apply keeps_trigger); rfl)
    | ((with_reducible apply keeps_step); (with_reducible apply keeps_loseLine); rfl) | split

theorem sound_recoverData (s : State) (l : LineIx) (d : Line) (hs : s.Sound q) : (State.recoverData s l d).Sound
    q := by
  unfold State.recoverData
  extract_lets s0
  have h0 : s0.Sound q := sound_found _ _ hs
  clear_value s0
  split
  · extract_lets t
    clear_value t
    split
    · have h1 := postO_get ‹_› (sound_restore _ _ _ _ h0)
      split
      · exact h1
      · exact sound_afterDirty _ _ _ _ _ _ _ h1
    · exact sound_setTag _ _ _ (sound_backWrite _ _ _ _ _ _ _ _ (sound_freeDup _ _ h0))
  · exact h0

theorem keeps_recoverData (s : State) (l : LineIx) (d : Line) : Keeps
    [.free, .evt, .shelves, .arr, .back, .cone, .pmu, .flt, .ep, .ckp, .out] s (State.recoverData s l d) := by
  unfold State.recoverData
  extract_lets s0
  have h0 : Keeps [.free, .evt, .shelves, .arr, .back, .cone, .pmu, .flt, .ep, .ckp, .out] s s0 := keeps_then (keeps_refl _) (keeps_found _ _) rfl
  clear_value s0
  split
  · extract_lets t
    clear_value t
    split
    · rename_i s1 e
      have h1 : Keeps [.free, .evt, .shelves, .arr, .back, .cone, .pmu, .flt, .ep, .ckp, .out] s s1 := keepsO_out e (keeps_restore _ _ _ _) rfl h0
      split
      · exact h1
      · exact keeps_then h1 (keeps_afterDirty _ _ _ _ _ _ _) rfl
    · exact keeps_then (keeps_then (keeps_then h0 (keeps_freeDup _ _) rfl) (keeps_backWrite _ _ _ _ _ _ _ _) rfl)
        (keeps_setTag _ _ _) rfl
  · exact h0

theorem sound_resolveLost (s : State) (l : LineIx) (hs : s.Sound q) : (State.resolveLost s l).Sound q := by
  unfold State.resolveLost
  try dsimp only
  repeat' first
    | with_reducible assumption | with_reducible apply sound_recoverClass | split

theorem keeps_resolveLost (s : State) (l : LineIx) : Keeps
    [.free, .evt, .shelves, .arr, .cone, .flt, .ep, .ckp, .out] s (State.resolveLost s l) := by
  unfold State.resolveLost
  try dsimp only
  repeat' first
    | with_reducible exact keeps_refl _ | with_reducible assumption
    | ((with_reducible apply keeps_step); (with_reducible apply keeps_recoverClass); rfl) | split

end Sys2Proof.Machine
end

