-- ==== Sys2Proof/Laws/Txn.lean ====
section
/-! SUPPORT. What the operations of Machine/Txn.lean do to the whole state, two lemmas per operation: `sound_` (it keeps the
queue of waiting commands and the invariant of Safety.lean) and `keeps_` (the fields that it may change). -/
namespace Sys2Proof.Machine

variable {q : List Instr}

theorem sound_sendFwd (s : State) (sh : Nat) (r : Req) (dst : AgentId) (code : Nat) (f : Msg → Msg)
    (hs : s.Sound q) : (State.sendFwd s sh r dst code f).Sound q := by
  unfold State.sendFwd
  try dsimp only
  repeat' first
    | with_reducible assumption | with_reducible apply sound_count | with_reducible apply sound_sendFrom | split

theorem keeps_sendFwd (s : State) (sh : Nat) (r : Req) (dst : AgentId) (code : Nat) (f : Msg → Msg) : Keeps
    [.free, .home, .cone, .pmu, .ckp, .links, .out] s (State.sendFwd s sh r dst code f) := by
  unfold State.sendFwd
  try dsimp only
  repeat' first
    | with_reducible exact keeps_refl _ | with_reducible assumption
    | ((with_reducible apply keeps_step); (with_reducible apply keeps_count); rfl)
    | ((with_reducible apply keeps_step); (with_reducible apply keeps_sendFrom); rfl) | split

theorem sound_sendRecall (s : State) (sh : Nat) (l : LineIx) (o : AgentId) (hs : s.Sound q) :
    (State.sendRecall s sh l o).Sound q := by
  unfold State.sendRecall
  try dsimp only
  repeat' first
    | with_reducible assumption | with_reducible apply sound_modTxn | with_reducible apply sound_sendFwd | split

theorem keeps_sendRecall (s : State) (sh : Nat) (l : LineIx) (o : AgentId) : Keeps
    [.free, .home, .cone, .pmu, .ckp, .links, .out] s (State.sendRecall s sh l o) := by
  unfold State.sendRecall
  try dsimp only
  repeat' first
    | with_reducible exact keeps_refl _ | with_reducible assumption
    | ((with_reducible apply keeps_step); (with_reducible apply keeps_modTxn); rfl)
    | ((with_reducible apply keeps_step); (with_reducible apply keeps_sendFwd); rfl) | split

theorem sound_invalidate (s : State) (sh : Nat) (l : LineIx) (dst : List AgentId) (coarse : Bool)
    (hs : s.Sound q) : (State.invalidate s sh l dst coarse).Sound q := by
  unfold State.invalidate
  try dsimp only
  repeat' first
    | with_reducible assumption | with_reducible apply sound_modTxn | with_reducible apply sound_sendFwd
    | with_reducible apply sound_foldl | intro _ _ _ | split

theorem keeps_invalidate (s : State) (sh : Nat) (l : LineIx) (dst : List AgentId) (coarse : Bool) : Keeps
    [.free, .home, .cone, .pmu, .ckp, .links, .out] s (State.invalidate s sh l dst coarse) := by
  unfold State.invalidate
  try dsimp only
  repeat' first
    | with_reducible exact keeps_refl _ | with_reducible assumption
    | ((with_reducible apply keeps_step); (with_reducible apply keeps_modTxn); rfl)
    | ((with_reducible apply keeps_step); (with_reducible apply keeps_sendFwd); rfl)
    | with_reducible apply keeps_foldl | intro _ _ _ | split

theorem sound_serveOwnWork (s : State) (sh : Nat) (r : Req) (e : DirEntry) (hs : s.Sound q) :
    (State.serveOwnWork s sh r e).Sound q := by
  unfold State.serveOwnWork
  try dsimp only
  repeat' first
    | with_reducible assumption | with_reducible apply sound_sendRecall | with_reducible apply sound_modTxn
    | with_reducible apply sound_invalidate | split

theorem keeps_serveOwnWork (s : State) (sh : Nat) (r : Req) (e : DirEntry) : Keeps
    [.free, .home, .cone, .pmu, .ckp, .links, .out] s (State.serveOwnWork s sh r e) := by
  unfold State.serveOwnWork
  try dsimp only
  repeat' first
    | with_reducible exact keeps_refl _ | with_reducible assumption
    | ((with_reducible apply keeps_step); (with_reducible apply keeps_sendRecall); rfl)
    | ((with_reducible apply keeps_step); (with_reducible apply keeps_modTxn); rfl)
    | ((with_reducible apply keeps_step); (with_reducible apply keeps_invalidate); rfl) | split

theorem sound_mirrorWrite (s : State) (r : Req) (m : Mask) (d : Line) (res : Option (BitVec 128))
    (hs : s.Sound q) : (State.mirrorWrite s r m d res).Sound q := by
  generalize hf : @State.mirrorWrite = f
  delta State.mirrorWrite at hf
  subst hf
  dsimp -zeta -iota only
  repeat' first
    | with_reducible assumption | with_reducible apply sound_coneBytes | with_reducible apply sound_mirrorSend
    | with_reducible apply sound_modTxn | with_reducible apply sound_mirrorAsk | with_reducible apply sound_markLine
    | split | dsimp only | with_reducible apply sound_mk

theorem keeps_mirrorWrite (s : State) (r : Req) (m : Mask) (d : Line) (res : Option (BitVec 128)) : Keeps
    [.home, .cone, .pmu, .pair, .links, .out] s (State.mirrorWrite s r m d res) := by
  generalize hf : @State.mirrorWrite = f
  delta State.mirrorWrite at hf
  subst hf
  dsimp -zeta -iota only
  repeat' first
    | with_reducible exact keeps_refl _ | with_reducible assumption
    | ((with_reducible apply keeps_step); (with_reducible apply keeps_coneBytes); rfl)
    | ((with_reducible apply keeps_step); (with_reducible apply keeps_mirrorSend); rfl)
    | ((with_reducible apply keeps_step); (with_reducible apply keeps_modTxn); rfl)
    | ((with_reducible apply keeps_step); (with_reducible apply keeps_mirrorAsk); rfl)
    | ((with_reducible apply keeps_step); (with_reducible apply keeps_markLine); rfl) | split | dsimp only
    | ((with_reducible apply keeps_step); (with_reducible apply upd_pair); rfl)

theorem sound_deadHit (s : State) (r : Req) (hs : s.Sound q) : (State.deadHit s r).Sound q := by
  unfold State.deadHit
  try dsimp only
  repeat' first
    | with_reducible assumption | with_reducible apply sound_reclaimHit | split

theorem keeps_deadHit (s : State) (r : Req) : Keeps [.free, .pmu] s (State.deadHit s r) := by
  unfold State.deadHit
  try dsimp only
  repeat' first
    | with_reducible exact keeps_refl _ | with_reducible assumption
    | ((with_reducible apply keeps_step); (with_reducible apply keeps_reclaimHit); rfl) | split

theorem sound_fetchFor (s : State) (r : Req) (alloc : Bool) (hs : s.Sound q) : (State.fetchFor s r alloc).Sound
    q := by
  unfold State.fetchFor
  try dsimp only
  repeat' first
    | with_reducible assumption | with_reducible apply sound_modTxn | with_reducible apply sound_openMiss
    | with_reducible apply sound_deadHit | split

theorem keeps_fetchFor (s : State) (r : Req) (alloc : Bool) : Keeps [.free, .home, .back, .pmu] s
    (State.fetchFor s r alloc) := by
  unfold State.fetchFor
  try dsimp only
  repeat' first
    | with_reducible exact keeps_refl _ | with_reducible assumption
    | ((with_reducible apply keeps_step); (with_reducible apply keeps_modTxn); rfl)
    | ((with_reducible apply keeps_step); (with_reducible apply keeps_openMiss); rfl)
    | ((with_reducible apply keeps_step); (with_reducible apply keeps_deadHit); rfl) | split

theorem sound_land (s : State) (r : Req) (reg : Region) (m : Mask) (d : Line) (res : Option (BitVec 128))
    (pour : Bool) (src : Nat) (hs : s.Sound q) : (State.land s r reg m d res pour src).Sound q := by
  unfold State.land
  try dsimp only
  repeat' first
    | with_reducible assumption | with_reducible apply sound_id | with_reducible apply sound_writeHome
    | with_reducible apply sound_mirrorWrite | with_reducible apply sound_modTxn | with_reducible apply sound_fetchFor
    | intro _ _ | intro _ | split
    | refine sound_snd (by with_reducible assumption) ?_; with_reducible apply sound_writeHome
    | with_reducible apply sound_mk | ((with_reducible apply sound_ckp); rotate_left; rfl)
    | ((with_reducible apply sound_evt); rotate_left; exact id)

theorem keeps_land (s : State) (r : Req) (reg : Region) (m : Mask) (d : Line) (res : Option (BitVec 128))
    (pour : Bool) (src : Nat) : Keeps
    [.free, .evt, .shelves, .arr, .home, .back, .cone, .pmu, .flt, .ep, .pair, .ckp, .links, .out] s
    (State.land s r reg m d res pour src) := by
  unfold State.land
  try dsimp only
  repeat' first
    | with_reducible exact keeps_refl _ | with_reducible assumption | with_reducible apply keeps_id
    | ((with_reducible apply keeps_step); (with_reducible apply keeps_writeHome); rfl)
    | ((with_reducible apply keeps_step); (with_reducible apply keeps_mirrorWrite); rfl)
    | ((with_reducible apply keeps_step); (with_reducible apply keeps_modTxn); rfl)
    | ((with_reducible apply keeps_step); (with_reducible apply keeps_fetchFor); rfl) | intro _ _ | intro _ | split
    | ((with_reducible refine keeps_snd (by with_reducible assumption) ?_); (with_reducible apply keeps_step); (with_reducible apply keeps_writeHome); rfl)

theorem sound_supplyHome (s : State) (sh : Nat) (r : Req) (reg : Region) (hs : s.Sound q) :
    (State.supplyHome s sh r reg).Sound q := by
  unfold State.supplyHome
  try dsimp only
  repeat' first
    | with_reducible assumption | with_reducible apply sound_modTxn | with_reducible apply sound_count
    | with_reducible apply sound_readHit | with_reducible apply sound_fetchFor | split

theorem keeps_supplyHome (s : State) (sh : Nat) (r : Req) (reg : Region) : Keeps
    [.free, .arr, .home, .back, .pmu] s (State.supplyHome s sh r reg) := by
  unfold State.supplyHome
  try dsimp only
  repeat' first
    | with_reducible exact keeps_refl _ | with_reducible assumption
    | ((with_reducible apply keeps_step); (with_reducible apply keeps_modTxn); rfl)
    | ((with_reducible apply keeps_step); (with_reducible apply keeps_count); rfl)
    | ((with_reducible apply keeps_step); (with_reducible apply keeps_readHit); rfl)
    | ((with_reducible apply keeps_step); (with_reducible apply keeps_fetchFor); rfl) | split

theorem sound_serveOwn (s : State) (sh : Nat) (r : Req) (reg : Region) (e : DirEntry) (hs : s.Sound q) :
    (State.serveOwn s sh r reg e).Sound q := by
  unfold State.serveOwn
  try dsimp only
  repeat' first
    | with_reducible assumption | with_reducible apply sound_getD | with_reducible apply sound_modTxn
    | with_reducible apply sound_supplyHome | with_reducible apply sound_invalidate
    | with_reducible apply sound_sendFwd | split

theorem keeps_serveOwn (s : State) (sh : Nat) (r : Req) (reg : Region) (e : DirEntry) : Keeps
    [.free, .arr, .home, .back, .cone, .pmu, .ckp, .links, .out] s (State.serveOwn s sh r reg e) := by
  unfold State.serveOwn
  try dsimp only
  repeat' first
    | with_reducible exact keeps_refl _ | with_reducible assumption | with_reducible apply keeps_getD
    | ((with_reducible apply keeps_step); (with_reducible apply keeps_modTxn); rfl)
    | ((with_reducible apply keeps_step); (with_reducible apply keeps_supplyHome); rfl)
    | ((with_reducible apply keeps_step); (with_reducible apply keeps_invalidate); rfl)
    | ((with_reducible apply keeps_step); (with_reducible apply keeps_sendFwd); rfl) | split

theorem sound_syncEntry (s : State) (l : LineIx) (hs : s.Sound q) : (State.syncEntry s l).Sound q := by
  unfold State.syncEntry
  try dsimp only
  repeat' first
    | with_reducible assumption | with_reducible apply sound_setWay | split

theorem keeps_syncEntry (s : State) (l : LineIx) : Keeps [.dir] s (State.syncEntry s l) := by
  unfold State.syncEntry
  try dsimp only
  repeat' first
    | with_reducible exact keeps_refl _ | with_reducible assumption
    | ((with_reducible apply keeps_step); (with_reducible apply keeps_setWay); rfl) | split

theorem sound_maintLine (s : State) (k : RangeKind) (l : LineIx) (c : BitVec 3) (had : Bool) (dirty : Bool)
    (w : Waiter) (hs : s.Sound q) : (State.maintLine s k l c had dirty w).Sound q := by
  unfold State.maintLine
  try dsimp only
  repeat' first
    | with_reducible assumption | with_reducible apply sound_id | with_reducible apply sound_setTag
    | with_reducible apply sound_cleanSlot | with_reducible apply sound_event | with_reducible apply sound_freeDup
    | with_reducible apply sound_tagStep | intro _ _ | intro _ | split
    | refine sound_snd (by with_reducible assumption) ?_; with_reducible apply sound_tagStep
    | with_reducible apply sound_mk | ((with_reducible apply sound_ckp); rotate_left; rfl)
    | ((with_reducible apply sound_evt); rotate_left; exact id)

theorem keeps_maintLine (s : State) (k : RangeKind) (l : LineIx) (c : BitVec 3) (had : Bool) (dirty : Bool)
    (w : Waiter) : Keeps [.free, .evt, .shelves, .arr, .back, .cone, .pmu, .ep, .ckp, .out] s
    (State.maintLine s k l c had dirty w) := by
  unfold State.maintLine
  try dsimp only
  repeat' first
    | with_reducible exact keeps_refl _ | with_reducible assumption | with_reducible apply keeps_id
    | ((with_reducible apply keeps_step); (with_reducible apply keeps_setTag); rfl)
    | ((with_reducible apply keeps_step); (with_reducible apply keeps_cleanSlot); rfl)
    | ((with_reducible apply keeps_step); (with_reducible apply keeps_event); rfl)
    | ((with_reducible apply keeps_step); (with_reducible apply keeps_freeDup); rfl)
    | ((with_reducible apply keeps_step); (with_reducible apply keeps_tagStep); rfl) | intro _ _ | intro _ | split
    | ((with_reducible refine keeps_snd (by with_reducible assumption) ?_); (with_reducible apply keeps_step); (with_reducible apply keeps_tagStep); rfl)

theorem sound_refuseStep (s : State) (l : LineIx) (hs : s.Sound q) : (State.refuseStep s l).Sound q := by
  unfold State.refuseStep
  try dsimp only
  repeat' first
    | with_reducible assumption | with_reducible apply sound_modTxn | with_reducible apply sound_refuseReq | split

theorem keeps_refuseStep (s : State) (l : LineIx) : Keeps
    [.free, .evt, .home, .rings, .cmds, .tly, .cone, .pmu, .kiln, .pair, .ckp, .links, .out] s
    (State.refuseStep s l) := by
  unfold State.refuseStep
  try dsimp only
  repeat' first
    | with_reducible exact keeps_refl _ | with_reducible assumption
    | ((with_reducible apply keeps_step); (with_reducible apply keeps_modTxn); rfl)
    | ((with_reducible apply keeps_step); (with_reducible apply keeps_refuseReq); rfl) | split

theorem sound_grantStep (s : State) (l : LineIx) (hs : s.Sound q) : (State.grantStep s l).Sound q := by
  unfold State.grantStep
  try dsimp only
  repeat' first
    | with_reducible assumption | with_reducible apply sound_lastAnswer | with_reducible apply sound_performed
    | with_reducible apply sound_modTxn | split

theorem keeps_grantStep (s : State) (l : LineIx) : Keeps
    [.free, .evt, .home, .rings, .cmds, .tly, .cone, .pmu, .kiln, .pair, .ckp, .links, .out] s
    (State.grantStep s l) := by
  unfold State.grantStep
  try dsimp only
  repeat' first
    | with_reducible exact keeps_refl _ | with_reducible assumption
    | ((with_reducible apply keeps_step); (with_reducible apply keeps_lastAnswer); rfl)
    | ((with_reducible apply keeps_step); (with_reducible apply keeps_performed); rfl)
    | ((with_reducible apply keeps_step); (with_reducible apply keeps_modTxn); rfl) | split

theorem sound_performStep (s : State) (l : LineIx) (hs : s.Sound q) : (State.performStep s l).Sound q := by
  generalize hf : @State.performStep = f
  delta State.performStep at hf
  subst hf
  dsimp -zeta -iota only
  repeat' first
    | with_reducible assumption | with_reducible apply sound_getD | with_reducible apply sound_resolveLost
    | with_reducible apply sound_modTxn | with_reducible apply sound_fetchFor | with_reducible apply sound_takeGroup
    | with_reducible apply sound_auuEnd | with_reducible apply sound_mirrorWrite
    | with_reducible apply sound_bufferResult | with_reducible apply sound_land | split | dsimp only

theorem keeps_performStep (s : State) (l : LineIx) : Keeps
    [.free, .evt, .shelves, .arr, .home, .back, .cone, .pmu, .flt, .ep, .pair, .ckp, .links, .out] s
    (State.performStep s l) := by
  generalize hf : @State.performStep = f
  delta State.performStep at hf
  subst hf
  dsimp -zeta -iota only
  repeat' first
    | with_reducible exact keeps_refl _ | with_reducible assumption | with_reducible apply keeps_getD
    | ((with_reducible apply keeps_step); (with_reducible apply keeps_resolveLost); rfl)
    | ((with_reducible apply keeps_step); (with_reducible apply keeps_modTxn); rfl)
    | ((with_reducible apply keeps_step); (with_reducible apply keeps_fetchFor); rfl)
    | ((with_reducible apply keeps_step); (with_reducible apply keeps_takeGroup); rfl)
    | ((with_reducible apply keeps_step); (with_reducible apply keeps_auuEnd); rfl)
    | ((with_reducible apply keeps_step); (with_reducible apply keeps_mirrorWrite); rfl)
    | ((with_reducible apply keeps_step); (with_reducible apply keeps_bufferResult); rfl)
    | ((with_reducible apply keeps_step); (with_reducible apply keeps_land); rfl) | split | dsimp only

theorem sound_dataStep (s : State) (l : LineIx) (hs : s.Sound q) : (State.dataStep s l).Sound q := by
  unfold State.dataStep
  try dsimp only
  repeat' first
    | with_reducible assumption | with_reducible apply sound_getD | with_reducible apply sound_lastAnswer
    | with_reducible apply sound_recoverData | with_reducible apply sound_deliver | with_reducible apply sound_modTxn
    | split

theorem keeps_dataStep (s : State) (l : LineIx) : Keeps
    [.free, .evt, .shelves, .arr, .home, .back, .rings, .cmds, .cone, .pmu, .kiln, .flt, .ep, .pair, .ckp, .links, .out]
    s (State.dataStep s l) := by
  unfold State.dataStep
  try dsimp only
  repeat' first
    | with_reducible exact keeps_refl _ | with_reducible assumption | with_reducible apply keeps_getD
    | ((with_reducible apply keeps_step); (with_reducible apply keeps_lastAnswer); rfl)
    | ((with_reducible apply keeps_step); (with_reducible apply keeps_recoverData); rfl)
    | ((with_reducible apply keeps_step); (with_reducible apply keeps_deliver); rfl)
    | ((with_reducible apply keeps_step); (with_reducible apply keeps_modTxn); rfl) | split

theorem sound_touchWay (s : State) (k : Nat) (hs : s.Sound q) : (State.touchWay s k).Sound q := by
  unfold State.touchWay
  try dsimp only
  repeat' first
    | with_reducible assumption | split | with_reducible apply sound_mk

theorem keeps_touchWay (s : State) (k : Nat) : Keeps [.dir] s (State.touchWay s k) := by
  unfold State.touchWay
  try dsimp only
  repeat' first
    | with_reducible exact keeps_refl _ | with_reducible assumption | split
    | ((with_reducible apply keeps_step); (with_reducible apply upd_dir); rfl)

theorem sound_putEntry (s : State) (k : Nat) (e : DirEntry) (hs : s.Sound q) : (State.putEntry s k e).Sound q := by
  unfold State.putEntry
  try dsimp only
  repeat' first
    | with_reducible assumption | with_reducible apply sound_setWay | split

theorem keeps_putEntry (s : State) (k : Nat) (e : DirEntry) : Keeps [.dir] s (State.putEntry s k e) := by
  unfold State.putEntry
  try dsimp only
  repeat' first
    | with_reducible exact keeps_refl _ | with_reducible assumption
    | ((with_reducible apply keeps_step); (with_reducible apply keeps_setWay); rfl) | split

theorem sound_putAnswer (s : State) (sh : Nat) (p : Put) (code : Nat) (hs : s.Sound q) :
    (State.putAnswer s sh p code).Sound q := by
  unfold State.putAnswer
  try dsimp only
  repeat' first
    | with_reducible assumption | with_reducible apply sound_sendFrom | split

theorem keeps_putAnswer (s : State) (sh : Nat) (p : Put) (code : Nat) : Keeps
    [.free, .home, .cone, .pmu, .ckp, .links, .out] s (State.putAnswer s sh p code) := by
  unfold State.putAnswer
  try dsimp only
  repeat' first
    | with_reducible exact keeps_refl _ | with_reducible assumption
    | ((with_reducible apply keeps_step); (with_reducible apply keeps_sendFrom); rfl) | split

theorem sound_writeBackHome (s : State) (l : LineIx) (d : Line) (src : Nat) (w : Waiter) (hs : s.Sound q) :
    (State.writeBackHome s l d src w).Sound q := by
  generalize hf : @State.writeBackHome = f
  delta State.writeBackHome at hf
  subst hf
  dsimp -zeta -iota only
  repeat' first
    | with_reducible assumption | with_reducible apply sound_writeHome | split | dsimp only

theorem keeps_writeBackHome (s : State) (l : LineIx) (d : Line) (src : Nat) (w : Waiter) : Keeps
    [.free, .evt, .shelves, .arr, .back, .cone, .pmu, .flt, .ep, .ckp, .out] s (State.writeBackHome s l d src w)
    := by
  generalize hf : @State.writeBackHome = f
  delta State.writeBackHome at hf
  subst hf
  dsimp -zeta -iota only
  repeat' first
    | with_reducible exact keeps_refl _ | with_reducible assumption
    | ((with_reducible apply keeps_step); (with_reducible apply keeps_writeHome); rfl) | split | dsimp only

theorem sound_putStable (s : State) (p : Put) (hs : s.Sound q) : (State.putStable s p).Sound q := by
  unfold State.putStable
  try dsimp only
  repeat' first
    | with_reducible assumption | with_reducible apply sound_protocolError | with_reducible apply sound_putAnswer
    | with_reducible apply sound_writeBackHome | with_reducible apply sound_putEntry | split

theorem keeps_putStable (s : State) (p : Put) : Keeps
    [.free, .evt, .shelves, .arr, .dir, .home, .back, .cone, .pmu, .flt, .ep, .life, .ckp, .links, .out] s
    (State.putStable s p) := by
  unfold State.putStable
  try dsimp only
  repeat' first
    | with_reducible exact keeps_refl _ | with_reducible assumption
    | ((with_reducible apply keeps_step); (with_reducible apply keeps_protocolError); rfl)
    | ((with_reducible apply keeps_step); (with_reducible apply keeps_putAnswer); rfl)
    | ((with_reducible apply keeps_step); (with_reducible apply keeps_writeBackHome); rfl)
    | ((with_reducible apply keeps_step); (with_reducible apply keeps_putEntry); rfl) | split

theorem sound_rangeStep (s : State) (n : Nat) (hf : Half) (k : Nat) (hs : s.Sound q) :
    (State.rangeStep s n hf k).Sound q := by
  unfold State.rangeStep
  try dsimp only
  repeat' first
    | with_reducible assumption | split | with_reducible apply sound_mk

theorem keeps_rangeStep (s : State) (n : Nat) (hf : Half) (k : Nat) : Keeps [.ranges] s
    (State.rangeStep s n hf k) := by
  unfold State.rangeStep
  try dsimp only
  repeat' first
    | with_reducible exact keeps_refl _ | with_reducible assumption | split
    | ((with_reducible apply keeps_step); (with_reducible apply upd_ranges); rfl)

theorem sound_maintEnd (s : State) (t : Txn) (hs : s.Sound q) : (State.maintEnd s t).Sound q := by
  unfold State.maintEnd
  try dsimp only
  repeat' first
    | with_reducible assumption | with_reducible apply sound_maintLine | with_reducible apply sound_mirrorAsk
    | with_reducible apply sound_mirrorSend | with_reducible apply sound_markLine
    | with_reducible apply sound_rangeStep | with_reducible apply sound_resolveLost | split

theorem keeps_maintEnd (s : State) (t : Txn) : Keeps
    [.free, .evt, .shelves, .arr, .back, .ranges, .cone, .pmu, .flt, .ep, .pair, .ckp, .links, .out] s
    (State.maintEnd s t) := by
  unfold State.maintEnd
  try dsimp only
  repeat' first
    | with_reducible exact keeps_refl _ | with_reducible assumption
    | ((with_reducible apply keeps_step); (with_reducible apply keeps_maintLine); rfl)
    | ((with_reducible apply keeps_step); (with_reducible apply keeps_mirrorAsk); rfl)
    | ((with_reducible apply keeps_step); (with_reducible apply keeps_mirrorSend); rfl)
    | ((with_reducible apply keeps_step); (with_reducible apply keeps_markLine); rfl)
    | ((with_reducible apply keeps_step); (with_reducible apply keeps_rangeStep); rfl)
    | ((with_reducible apply keeps_step); (with_reducible apply keeps_resolveLost); rfl) | split

theorem sound_serveRead (s : State) (sh : Nat) (r : Req) (reg : Region) (e : DirEntry) (hs : s.Sound q) :
    (State.serveRead s sh r reg e).Sound q := by
  unfold State.serveRead
  try dsimp only
  repeat' first
    | with_reducible assumption | with_reducible apply sound_getD | with_reducible apply sound_resolveLost
    | with_reducible apply sound_supplyHome | with_reducible apply sound_modTxn | with_reducible apply sound_sendFwd
    | split

theorem keeps_serveRead (s : State) (sh : Nat) (r : Req) (reg : Region) (e : DirEntry) : Keeps
    [.free, .evt, .shelves, .arr, .home, .back, .cone, .pmu, .flt, .ep, .ckp, .links, .out] s
    (State.serveRead s sh r reg e) := by
  unfold State.serveRead
  try dsimp only
  repeat' first
    | with_reducible exact keeps_refl _ | with_reducible assumption | with_reducible apply keeps_getD
    | ((with_reducible apply keeps_step); (with_reducible apply keeps_resolveLost); rfl)
    | ((with_reducible apply keeps_step); (with_reducible apply keeps_supplyHome); rfl)
    | ((with_reducible apply keeps_step); (with_reducible apply keeps_modTxn); rfl)
    | ((with_reducible apply keeps_step); (with_reducible apply keeps_sendFwd); rfl) | split

theorem sound_serveWrite (s : State) (sh : Nat) (r : Req) (reg : Region) (e : DirEntry) (hs : s.Sound q) :
    (State.serveWrite s sh r reg e).Sound q := by
  unfold State.serveWrite
  try dsimp only
  repeat' first
    | with_reducible assumption | with_reducible apply sound_modTxn | with_reducible apply sound_invalidate
    | with_reducible apply sound_sendRecall | with_reducible apply sound_fetchFor | split

theorem keeps_serveWrite (s : State) (sh : Nat) (r : Req) (reg : Region) (e : DirEntry) : Keeps
    [.free, .home, .back, .cone, .pmu, .ckp, .links, .out] s (State.serveWrite s sh r reg e) := by
  unfold State.serveWrite
  try dsimp only
  repeat' first
    | with_reducible exact keeps_refl _ | with_reducible assumption
    | ((with_reducible apply keeps_step); (with_reducible apply keeps_modTxn); rfl)
    | ((with_reducible apply keeps_step); (with_reducible apply keeps_invalidate); rfl)
    | ((with_reducible apply keeps_step); (with_reducible apply keeps_sendRecall); rfl)
    | ((with_reducible apply keeps_step); (with_reducible apply keeps_fetchFor); rfl) | split

theorem sound_serve (s : State) (l : LineIx) (hs : s.Sound q) : (State.serve s l).Sound q := by
  generalize hf : @State.serve = f
  delta State.serve at hf
  subst hf
  dsimp -zeta -iota only
  repeat' first
    | with_reducible assumption | with_reducible apply sound_modTxn | with_reducible apply sound_serveRead
    | with_reducible apply sound_serveOwn | with_reducible apply sound_serveWrite
    | with_reducible apply sound_serveOwnWork | with_reducible apply sound_syncEntry | split | dsimp only

theorem keeps_serve (s : State) (l : LineIx) : Keeps
    [.free, .evt, .shelves, .arr, .dir, .home, .back, .cone, .pmu, .flt, .ep, .ckp, .links, .out] s
    (State.serve s l) := by
  generalize hf : @State.serve = f
  delta State.serve at hf
  subst hf
  dsimp -zeta -iota only
  repeat' first
    | with_reducible exact keeps_refl _ | with_reducible assumption
    | ((with_reducible apply keeps_step); (with_reducible apply keeps_modTxn); rfl)
    | ((with_reducible apply keeps_step); (with_reducible apply keeps_serveRead); rfl)
    | ((with_reducible apply keeps_step); (with_reducible apply keeps_serveOwn); rfl)
    | ((with_reducible apply keeps_step); (with_reducible apply keeps_serveWrite); rfl)
    | ((with_reducible apply keeps_step); (with_reducible apply keeps_serveOwnWork); rfl)
    | ((with_reducible apply keeps_step); (with_reducible apply keeps_syncEntry); rfl) | split | dsimp only

theorem sound_takeWay (s : State) (k : Nat) (l : LineIx) (hs : s.Sound q) : (State.takeWay s k l).Sound q := by
  unfold State.takeWay
  try dsimp only
  repeat' first
    | with_reducible assumption | with_reducible apply sound_setWay | split

theorem keeps_takeWay (s : State) (k : Nat) (l : LineIx) : Keeps [.dir] s (State.takeWay s k l) := by
  unfold State.takeWay
  try dsimp only
  repeat' first
    | with_reducible exact keeps_refl _ | with_reducible assumption
    | ((with_reducible apply keeps_step); (with_reducible apply keeps_setWay); rfl) | split

theorem sound_close (s : State) (l : LineIx) (hs : s.Sound q) : (State.close s l).Sound q := by
  unfold State.close
  try dsimp only
  repeat' first
    | with_reducible assumption | with_reducible apply sound_dropTxn | with_reducible apply sound_count
    | with_reducible apply sound_touchWay | with_reducible apply sound_putEntry
    | with_reducible apply sound_writeBuffer | with_reducible apply sound_putStable
    | with_reducible apply sound_maintEnd | with_reducible apply sound_retryChannels
    | with_reducible apply sound_syncEntry | with_reducible apply sound_dataStep | with_reducible apply sound_serve
    | with_reducible apply sound_takeWay | split | with_reducible apply sound_mk

theorem keeps_close (s : State) (l : LineIx) : Keeps
    [.free, .evt, .shelves, .arr, .dir, .home, .back, .rings, .cmds, .ranges, .cone, .pmu, .kiln, .flt, .ep, .pair, .life, .ckp, .links, .out]
    s (State.close s l) := by
  unfold State.close
  try dsimp only
  repeat' first
    | with_reducible exact keeps_refl _ | with_reducible assumption
    | ((with_reducible apply keeps_step); (with_reducible apply keeps_dropTxn); rfl)
    | ((with_reducible apply keeps_step); (with_reducible apply keeps_count); rfl)
    | ((with_reducible apply keeps_step); (with_reducible apply keeps_touchWay); rfl)
    | ((with_reducible apply keeps_step); (with_reducible apply keeps_putEntry); rfl)
    | ((with_reducible apply keeps_step); (with_reducible apply keeps_writeBuffer); rfl)
    | ((with_reducible apply keeps_step); (with_reducible apply keeps_putStable); rfl)
    | ((with_reducible apply keeps_step); (with_reducible apply keeps_maintEnd); rfl)
    | ((with_reducible apply keeps_step); (with_reducible apply keeps_retryChannels); rfl)
    | ((with_reducible apply keeps_step); (with_reducible apply keeps_syncEntry); rfl)
    | ((with_reducible apply keeps_step); (with_reducible apply keeps_dataStep); rfl)
    | ((with_reducible apply keeps_step); (with_reducible apply keeps_serve); rfl)
    | ((with_reducible apply keeps_step); (with_reducible apply keeps_takeWay); rfl) | split
    | ((with_reducible apply keeps_step); (with_reducible apply upd_home); rfl)

theorem sound_advance (s : State) (l : LineIx) (hs : s.Sound q) : (State.advance s l).Sound q := by
  unfold State.advance
  try dsimp only
  repeat' first
    | with_reducible assumption | with_reducible apply sound_refuseStep | with_reducible apply sound_grantStep
    | with_reducible apply sound_performStep | with_reducible apply sound_dataStep | with_reducible apply sound_modTxn
    | with_reducible apply sound_syncEntry | with_reducible apply sound_close | split

theorem keeps_advance (s : State) (l : LineIx) : Keeps
    [.free, .evt, .shelves, .arr, .dir, .home, .back, .rings, .cmds, .ranges, .tly, .cone, .pmu, .kiln, .flt, .ep, .pair, .life, .ckp, .links, .out]
    s (State.advance s l) := by
  unfold State.advance
  try dsimp only
  repeat' first
    | with_reducible exact keeps_refl _ | with_reducible assumption
    | ((with_reducible apply keeps_step); (with_reducible apply keeps_refuseStep); rfl)
    | ((with_reducible apply keeps_step); (with_reducible apply keeps_grantStep); rfl)
    | ((with_reducible apply keeps_step); (with_reducible apply keeps_performStep); rfl)
    | ((with_reducible apply keeps_step); (with_reducible apply keeps_dataStep); rfl)
    | ((with_reducible apply keeps_step); (with_reducible apply keeps_modTxn); rfl)
    | ((with_reducible apply keeps_step); (with_reducible apply keeps_syncEntry); rfl)
    | ((with_reducible apply keeps_step); (with_reducible apply keeps_close); rfl) | split

theorem sound_wayFor (s : State) (r : Req) (hs : s.Sound q) : PostO (State.Sound q) (State.wayFor s r) := by
  unfold State.wayFor
  try dsimp only
  repeat' first
    | with_reducible assumption | with_reducible apply sound_takeWay | with_reducible apply sound_count
    | with_reducible apply sound_sendRecall | with_reducible apply sound_syncEntry
    | with_reducible apply sound_invalidate | with_reducible apply postO_some | with_reducible exact postO_none
    | split | with_reducible apply sound_mk

theorem keeps_wayFor (s : State) (r : Req) : PostO
    (Keeps [.free, .dir, .home, .cone, .pmu, .ckp, .links, .out] s) (State.wayFor s r) := by
  unfold State.wayFor
  try dsimp only
  repeat' first
    | with_reducible exact keeps_refl _ | with_reducible assumption
    | ((with_reducible apply keeps_step); (with_reducible apply keeps_takeWay); rfl)
    | ((with_reducible apply keeps_step); (with_reducible apply keeps_count); rfl)
    | ((with_reducible apply keeps_step); (with_reducible apply keeps_sendRecall); rfl)
    | ((with_reducible apply keeps_step); (with_reducible apply keeps_syncEntry); rfl)
    | ((with_reducible apply keeps_step); (with_reducible apply keeps_invalidate); rfl)
    | with_reducible apply postO_some | with_reducible exact postO_none | split
    | ((with_reducible apply keeps_step); (with_reducible apply upd_home); rfl)

theorem sound_poisonTxn (s : State) (l : LineIx) (hs : s.Sound q) : (State.poisonTxn s l).Sound q := by
  unfold State.poisonTxn
  try dsimp only
  repeat' first
    | with_reducible assumption | with_reducible apply sound_refuseReq | with_reducible apply sound_close
    | with_reducible apply sound_modTxn | split

theorem keeps_poisonTxn (s : State) (l : LineIx) : Keeps
    [.free, .evt, .shelves, .arr, .dir, .home, .back, .rings, .cmds, .ranges, .tly, .cone, .pmu, .kiln, .flt, .ep, .pair, .life, .ckp, .links, .out]
    s (State.poisonTxn s l) := by
  unfold State.poisonTxn
  try dsimp only
  repeat' first
    | with_reducible exact keeps_refl _ | with_reducible assumption
    | ((with_reducible apply keeps_step); (with_reducible apply keeps_refuseReq); rfl)
    | ((with_reducible apply keeps_step); (with_reducible apply keeps_close); rfl)
    | ((with_reducible apply keeps_step); (with_reducible apply keeps_modTxn); rfl) | split

theorem sound_markWaits (s : State) (hs : s.Sound q) : (State.markWaits s).Sound q := by
  unfold State.markWaits
  try dsimp only
  repeat' first
    | with_reducible assumption | split | with_reducible apply sound_mk

theorem keeps_markWaits (s : State) : Keeps [.home] s (State.markWaits s) := by
  unfold State.markWaits
  try dsimp only
  repeat' first
    | with_reducible exact keeps_refl _ | with_reducible assumption | split
    | ((with_reducible apply keeps_step); (with_reducible apply upd_home); rfl)

theorem sound_begin (s : State) (l : LineIx) (hs : s.Sound q) : (State.begin s l).Sound q := by
  unfold State.begin
  try dsimp only
  repeat' first
    | with_reducible assumption | with_reducible apply sound_serve | with_reducible apply sound_takeWay
    | with_reducible apply sound_wayFor | with_reducible apply sound_dropTxn | split
    | refine postO_get (by with_reducible assumption) ?_; with_reducible apply sound_wayFor

theorem keeps_begin (s : State) (l : LineIx) : Keeps
    [.free, .evt, .shelves, .arr, .dir, .home, .back, .cone, .pmu, .flt, .ep, .ckp, .links, .out] s
    (State.begin s l) := by
  unfold State.begin
  try dsimp only
  repeat' first
    | with_reducible exact keeps_refl _ | with_reducible assumption
    | ((with_reducible apply keeps_step); (with_reducible apply keeps_serve); rfl)
    | ((with_reducible apply keeps_step); (with_reducible apply keeps_takeWay); rfl)
    | ((with_reducible apply keepsO_step); (with_reducible apply keeps_wayFor); rfl)
    | ((with_reducible apply keeps_step); (with_reducible apply keeps_dropTxn); rfl) | split
    | ((with_reducible apply keepsO_out); (with_reducible assumption); (with_reducible apply keeps_wayFor); rfl)

end Sys2Proof.Machine
end

