-- ==== Sys2Proof/Laws/Answers.lean ====
section
/-! SUPPORT. What the operations of Machine/Answers.lean do to the whole state, two lemmas per operation: `sound_` (it keeps the
queue of waiting commands and the invariant of Safety.lean) and `keeps_` (the fields that it may change). -/
namespace Sys2Proof.Machine

variable {q : List Instr}

theorem sound_fwdAckTo (s : State) (h : Hdr) (t : Txn) (hs : s.Sound q) : PostO (State.Sound q)
    (State.fwdAckTo s h t) := by
  unfold State.fwdAckTo
  try dsimp only
  repeat' first
    | with_reducible assumption | with_reducible apply sound_modTxn | with_reducible apply sound_finish
    | with_reducible apply postO_some | with_reducible exact postO_none | split

theorem keeps_fwdAckTo (s : State) (h : Hdr) (t : Txn) : PostO (Keeps [.home, .cone] s) (State.fwdAckTo s h t) := by
  unfold State.fwdAckTo
  try dsimp only
  repeat' first
    | with_reducible exact keeps_refl _ | with_reducible assumption
    | ((with_reducible apply keeps_step); (with_reducible apply keeps_modTxn); rfl)
    | ((with_reducible apply keeps_step); (with_reducible apply keeps_finish); rfl) | with_reducible apply postO_some
    | with_reducible exact postO_none | split

theorem sound_putHome (s : State) (p : Put) (hs : s.Sound q) : (State.putHome s p).Sound q := by
  unfold State.putHome
  try dsimp only
  repeat' first
    | with_reducible assumption | with_reducible apply sound_protocolError | with_reducible apply sound_putAnswer
    | with_reducible apply sound_modTxn | with_reducible apply sound_putStable | split

theorem keeps_putHome (s : State) (p : Put) : Keeps
    [.free, .evt, .shelves, .arr, .dir, .home, .back, .cone, .pmu, .flt, .ep, .life, .ckp, .links, .out] s
    (State.putHome s p) := by
  unfold State.putHome
  try dsimp only
  repeat' first
    | with_reducible exact keeps_refl _ | with_reducible assumption
    | ((with_reducible apply keeps_step); (with_reducible apply keeps_protocolError); rfl)
    | ((with_reducible apply keeps_step); (with_reducible apply keeps_putAnswer); rfl)
    | ((with_reducible apply keeps_step); (with_reducible apply keeps_modTxn); rfl)
    | ((with_reducible apply keeps_step); (with_reducible apply keeps_putStable); rfl) | split

theorem sound_bridged (s : State) (sh : Nat) (c : Crossing) (hs : s.Sound q) : (State.bridged s sh c).Sound q := by
  unfold State.bridged
  try dsimp only
  repeat' first
    | with_reducible assumption | with_reducible apply sound_askWake | split | with_reducible apply sound_mk

theorem keeps_bridged (s : State) (sh : Nat) (c : Crossing) : Keeps [.free, .home, .ckp, .out] s
    (State.bridged s sh c) := by
  unfold State.bridged
  try dsimp only
  repeat' first
    | with_reducible exact keeps_refl _ | with_reducible assumption
    | ((with_reducible apply keeps_step); (with_reducible apply keeps_askWake); rfl) | split
    | ((with_reducible apply keeps_step); (with_reducible apply upd_home); rfl)

theorem sound_putHomeward (s : State) (port : Port) (h : Hdr) (p : Put) (hs : s.Sound q) :
    (State.putHomeward s port h p).Sound q := by
  unfold State.putHomeward
  try dsimp only
  repeat' first
    | with_reducible assumption | with_reducible apply sound_crossIn | with_reducible apply sound_putHome
    | with_reducible apply sound_bridged | split

theorem keeps_putHomeward (s : State) (port : Port) (h : Hdr) (p : Put) : Keeps
    [.free, .evt, .shelves, .arr, .dir, .home, .back, .cone, .pmu, .flt, .ep, .life, .ckp, .links, .out] s
    (State.putHomeward s port h p) := by
  unfold State.putHomeward
  try dsimp only
  repeat' first
    | with_reducible exact keeps_refl _ | with_reducible assumption
    | ((with_reducible apply keeps_step); (with_reducible apply keeps_crossIn); rfl)
    | ((with_reducible apply keeps_step); (with_reducible apply keeps_putHome); rfl)
    | ((with_reducible apply keeps_step); (with_reducible apply keeps_bridged); rfl) | split

theorem sound_putTaken (s : State) (port : Port) (h : Hdr) (code : Nat) (data : Line) (hs : s.Sound q) :
    (State.putTaken s port h code data).Sound q := by
  unfold State.putTaken
  split
  · exact sound_protocolError _ _ hs
  · extract_lets p
    clear_value p
    split
    · exact sound_putAnswer _ _ _ _ hs
    · split
      · exact sound_putHomeward _ _ _ _ hs
      · exact sound_event _ _ _ _ (sound_putAnswer _ _ _ _ hs)

theorem keeps_putTaken (s : State) (port : Port) (h : Hdr) (code : Nat) (data : Line) : Keeps
    [.free, .evt, .shelves, .arr, .dir, .home, .back, .cone, .pmu, .flt, .ep, .life, .ckp, .links, .out] s
    (State.putTaken s port h code data) := by
  unfold State.putTaken
  split
  · exact keeps_then (keeps_refl _) (keeps_protocolError _ _) rfl
  · extract_lets p
    clear_value p
    split
    · exact keeps_then (keeps_refl _) (keeps_putAnswer _ _ _ _) rfl
    · split
      · exact keeps_then (keeps_refl _) (keeps_putHomeward _ _ _ _) rfl
      · exact keeps_then (keeps_then (keeps_refl _) (keeps_putAnswer _ _ _ _) rfl) (keeps_event _ _ _ _) rfl

theorem sound_dataSTo (s : State) (h : Hdr) (data : Line) (t : Txn) (hs : s.Sound q) : PostO (State.Sound q)
    (State.dataSTo s h data t) := by
  unfold State.dataSTo
  try dsimp only
  repeat' first
    | with_reducible assumption | with_reducible apply sound_modTxn | with_reducible apply postO_some
    | with_reducible exact postO_none | split

theorem keeps_dataSTo (s : State) (h : Hdr) (data : Line) (t : Txn) : PostO (Keeps [.home] s)
    (State.dataSTo s h data t) := by
  unfold State.dataSTo
  try dsimp only
  repeat' first
    | with_reducible exact keeps_refl _ | with_reducible assumption
    | ((with_reducible apply keeps_step); (with_reducible apply keeps_modTxn); rfl) | with_reducible apply postO_some
    | with_reducible exact postO_none | split

theorem sound_putIn (s : State) (port : Port) (h : Hdr) (code : Nat) (data : Line) (hs : s.Sound q) :
    (State.putIn s port h code data).Sound q := by
  unfold State.putIn
  try dsimp only
  repeat' first
    | with_reducible assumption | with_reducible apply sound_putTaken | with_reducible apply sound_coneBytes
    | with_reducible apply sound_comeIn | split

theorem keeps_putIn (s : State) (port : Port) (h : Hdr) (code : Nat) (data : Line) : Keeps
    [.free, .evt, .shelves, .arr, .dir, .home, .back, .cone, .pmu, .flt, .ep, .life, .ckp, .links, .out] s
    (State.putIn s port h code data) := by
  unfold State.putIn
  try dsimp only
  repeat' first
    | with_reducible exact keeps_refl _ | with_reducible assumption
    | ((with_reducible apply keeps_step); (with_reducible apply keeps_putTaken); rfl)
    | ((with_reducible apply keeps_step); (with_reducible apply keeps_coneBytes); rfl)
    | ((with_reducible apply keeps_step); (with_reducible apply keeps_comeIn); rfl) | split

theorem sound_invAckTo (s : State) (h : Hdr) (t : Txn) (hs : s.Sound q) : PostO (State.Sound q)
    (State.invAckTo s h t) := by
  unfold State.invAckTo
  try dsimp only
  repeat' first
    | with_reducible assumption | with_reducible apply sound_modTxn | with_reducible apply postO_some
    | with_reducible exact postO_none | split

theorem keeps_invAckTo (s : State) (h : Hdr) (t : Txn) : PostO (Keeps [.home] s) (State.invAckTo s h t) := by
  unfold State.invAckTo
  try dsimp only
  repeat' first
    | with_reducible exact keeps_refl _ | with_reducible assumption
    | ((with_reducible apply keeps_step); (with_reducible apply keeps_modTxn); rfl) | with_reducible apply postO_some
    | with_reducible exact postO_none | split

theorem sound_cmpTo (s : State) (h : Hdr) (t : Txn) (hs : s.Sound q) : PostO (State.Sound q) (State.cmpTo s h t) := by
  unfold State.cmpTo
  try dsimp only
  repeat' first
    | with_reducible assumption | with_reducible apply sound_modTxn | with_reducible apply postO_some
    | with_reducible exact postO_none | split

theorem keeps_cmpTo (s : State) (h : Hdr) (t : Txn) : PostO (Keeps [.home] s) (State.cmpTo s h t) := by
  unfold State.cmpTo
  try dsimp only
  repeat' first
    | with_reducible exact keeps_refl _ | with_reducible assumption
    | ((with_reducible apply keeps_step); (with_reducible apply keeps_modTxn); rfl) | with_reducible apply postO_some
    | with_reducible exact postO_none | split

theorem sound_dataMTo (s : State) (h : Hdr) (data : Line) (t : Txn) (hs : s.Sound q) : PostO (State.Sound q)
    (State.dataMTo s h data t) := by
  unfold State.dataMTo
  try dsimp only
  repeat' first
    | with_reducible assumption | with_reducible apply sound_modTxn | with_reducible apply sound_writeBackHome
    | with_reducible apply postO_some | with_reducible exact postO_none | split

theorem keeps_dataMTo (s : State) (h : Hdr) (data : Line) (t : Txn) : PostO
    (Keeps [.free, .evt, .shelves, .arr, .home, .back, .cone, .pmu, .flt, .ep, .ckp, .out] s)
    (State.dataMTo s h data t) := by
  unfold State.dataMTo
  try dsimp only
  repeat' first
    | with_reducible exact keeps_refl _ | with_reducible assumption
    | ((with_reducible apply keeps_step); (with_reducible apply keeps_modTxn); rfl)
    | ((with_reducible apply keeps_step); (with_reducible apply keeps_writeBackHome); rfl)
    | with_reducible apply postO_some | with_reducible exact postO_none | split

theorem sound_answerHome (s : State) (h : Hdr) (data : Line) (hs : s.Sound q) :
    (State.answerHome s h data).Sound q := by
  unfold State.answerHome
  split
  · exact sound_protocolError _ _ hs
  · dsimp only
    split
    · rename_i s1 e
      refine sound_advance _ _ (postO_get e ?_)
      repeat' first
        | with_reducible exact sound_fwdAckTo _ _ _ hs
        | with_reducible exact sound_invAckTo _ _ _ hs
        | with_reducible exact sound_dataMTo _ _ _ _ hs
        | with_reducible exact sound_dataSTo _ _ _ _ hs
        | with_reducible exact sound_cmpTo _ _ _ hs
        | split
    · exact sound_protocolError _ _ hs

theorem keeps_answerHome (s : State) (h : Hdr) (data : Line) : Keeps
    [.free, .evt, .shelves, .arr, .dir, .home, .back, .rings, .cmds, .ranges, .tly, .cone, .pmu, .kiln, .flt, .ep, .pair, .life, .ckp, .links, .out]
    s (State.answerHome s h data) := by
  unfold State.answerHome
  split
  · exact keeps_then (keeps_refl _) (keeps_protocolError _ _) rfl
  · rename_i t _
    dsimp only
    have k : PostO (Keeps [.free, .evt, .shelves, .arr, .dir, .home, .back, .rings, .cmds, .ranges, .tly, .cone, .pmu, .kiln, .flt, .ep, .pair, .life, .ckp, .links, .out] s) (if Hdr.msg h = mFwdAck then s.fwdAckTo h t else if Hdr.msg h = mInvAck then s.invAckTo h t
        else if Hdr.msg h = mDataM then s.dataMTo h data t else if Hdr.msg h = mDataS then s.dataSTo h data t else s.cmpTo h t) := by
      split
      · exact keepsO_step (keeps_fwdAckTo _ _ _) rfl (keeps_refl _)
      · split
        · exact keepsO_step (keeps_invAckTo _ _ _) rfl (keeps_refl _)
        · split
          · exact keepsO_step (keeps_dataMTo _ _ _ _) rfl (keeps_refl _)
          · split
            · exact keepsO_step (keeps_dataSTo _ _ _ _) rfl (keeps_refl _)
            · exact keepsO_step (keeps_cmpTo _ _ _) rfl (keeps_refl _)
    split
    · rename_i s1 e
      exact keeps_then (keepsO_out e k rfl (keeps_refl _)) (keeps_advance _ _) rfl
    · exact keeps_then (keeps_refl _) (keeps_protocolError _ _) rfl

theorem sound_answerIn (s : State) (h : Hdr) (code : Nat) (data : Line) (n : Nat) (hs : s.Sound q) :
    (State.answerIn s h code data n).Sound q := by
  unfold State.answerIn
  try dsimp only
  repeat' first
    | with_reducible assumption | with_reducible apply sound_coneBytes | with_reducible apply sound_crossIn
    | with_reducible apply sound_comeIn | with_reducible apply sound_protocolError
    | with_reducible apply sound_answerHome | with_reducible apply sound_bridged | split

theorem keeps_answerIn (s : State) (h : Hdr) (code : Nat) (data : Line) (n : Nat) : Keeps
    [.free, .evt, .shelves, .arr, .dir, .home, .back, .rings, .cmds, .ranges, .tly, .cone, .pmu, .kiln, .flt, .ep, .pair, .life, .ckp, .links, .out]
    s (State.answerIn s h code data n) := by
  unfold State.answerIn
  try dsimp only
  repeat' first
    | with_reducible exact keeps_refl _ | with_reducible assumption
    | ((with_reducible apply keeps_step); (with_reducible apply keeps_coneBytes); rfl)
    | ((with_reducible apply keeps_step); (with_reducible apply keeps_crossIn); rfl)
    | ((with_reducible apply keeps_step); (with_reducible apply keeps_comeIn); rfl)
    | ((with_reducible apply keeps_step); (with_reducible apply keeps_protocolError); rfl)
    | ((with_reducible apply keeps_step); (with_reducible apply keeps_answerHome); rfl)
    | ((with_reducible apply keeps_step); (with_reducible apply keeps_bridged); rfl) | split

theorem sound_bridgeGo (s : State) (c : Crossing) (hs : s.Sound q) : (State.bridgeGo s c).Sound q := by
  unfold State.bridgeGo
  try dsimp only
  repeat' first
    | with_reducible assumption | with_reducible apply sound_putAnswer | with_reducible apply sound_putHome
    | with_reducible apply sound_answerHome | with_reducible apply sound_sendFrom | split

theorem keeps_bridgeGo (s : State) (c : Crossing) : Keeps
    [.free, .evt, .shelves, .arr, .dir, .home, .back, .rings, .cmds, .ranges, .tly, .cone, .pmu, .kiln, .flt, .ep, .pair, .life, .ckp, .links, .out]
    s (State.bridgeGo s c) := by
  unfold State.bridgeGo
  try dsimp only
  repeat' first
    | with_reducible exact keeps_refl _ | with_reducible assumption
    | ((with_reducible apply keeps_step); (with_reducible apply keeps_putAnswer); rfl)
    | ((with_reducible apply keeps_step); (with_reducible apply keeps_putHome); rfl)
    | ((with_reducible apply keeps_step); (with_reducible apply keeps_answerHome); rfl)
    | ((with_reducible apply keeps_step); (with_reducible apply keeps_sendFrom); rfl) | split

theorem sound_releaseBridge (s : State) (hs : s.Sound q) : (State.releaseBridge s).Sound q := by
  unfold State.releaseBridge
  try dsimp only
  repeat' first
    | with_reducible assumption | with_reducible apply sound_bridgeGo | with_reducible apply sound_foldl | intro _ _ _
    | split | with_reducible apply sound_mk

theorem keeps_releaseBridge (s : State) : Keeps
    [.free, .evt, .shelves, .arr, .dir, .home, .back, .rings, .cmds, .ranges, .tly, .cone, .pmu, .kiln, .flt, .ep, .pair, .life, .ckp, .links, .out]
    s (State.releaseBridge s) := by
  unfold State.releaseBridge
  try dsimp only
  repeat' first
    | with_reducible exact keeps_refl _ | with_reducible assumption
    | ((with_reducible apply keeps_step); (with_reducible apply keeps_bridgeGo); rfl)
    | with_reducible apply keeps_foldl | intro _ _ _ | split
    | ((with_reducible apply keeps_step); (with_reducible apply upd_home); rfl)

end Sys2Proof.Machine
end

