-- ==== Sys2Proof/Laws/FwImage.lean ====
section
/-! SUPPORT. What the operations of Machine/FwImage.lean do to the whole state, two lemmas per operation: `sound_` (it keeps the
queue of waiting commands and the invariant of Safety.lean) and `keeps_` (the fields that it may change). -/
namespace Sys2Proof.Machine

variable {q : List Instr}

theorem sound_fwEntry (s : State) (m : List Byte) (st : BitVec 8) (hs : s.Sound q) :
    (State.fwEntry s m st).Sound q := by
  unfold State.fwEntry
  try dsimp only
  repeat' first
    | with_reducible assumption | split | with_reducible apply sound_mk

theorem keeps_fwEntry (s : State) (m : List Byte) (st : BitVec 8) : Keeps [.life] s (State.fwEntry s m st) := by
  unfold State.fwEntry
  try dsimp only
  repeat' first
    | with_reducible exact keeps_refl _ | with_reducible assumption | split
    | ((with_reducible apply keeps_step); (with_reducible apply upd_life); rfl)

theorem sound_fwHistory (s : State) (st : BitVec 8) (hs : s.Sound q) : (State.fwHistory s st).Sound q := by
  unfold State.fwHistory
  try dsimp only
  repeat' first
    | with_reducible assumption | with_reducible apply sound_fwEntry | split

theorem keeps_fwHistory (s : State) (st : BitVec 8) : Keeps [.life] s (State.fwHistory s st) := by
  unfold State.fwHistory
  try dsimp only
  repeat' first
    | with_reducible exact keeps_refl _ | with_reducible assumption
    | ((with_reducible apply keeps_step); (with_reducible apply keeps_fwEntry); rfl) | split

end Sys2Proof.Machine
end

