-- ==== Sys2Proof/Laws/CmdOps.lean ====
section
/-! SUPPORT. What the operations of Machine/CmdOps.lean do to the whole state, two lemmas per operation: `sound_` (it keeps the
queue of waiting commands and the invariant of Safety.lean) and `keeps_` (the fields that it may change). -/
namespace Sys2Proof.Machine

variable {q : List Instr}

theorem sound_endCtx (s : State) (c : Nat) (st : BitVec 8) (detail : BitVec 64) (hs : s.Sound q) :
    (State.endCtx s c st detail).Sound q := by
  unfold State.endCtx
  try dsimp only
  repeat' first
    | with_reducible assumption | with_reducible apply sound_modCtx | split

theorem keeps_endCtx (s : State) (c : Nat) (st : BitVec 8) (detail : BitVec 64) : Keeps [.cmds] s
    (State.endCtx s c st detail) := by
  unfold State.endCtx
  try dsimp only
  repeat' first
    | with_reducible exact keeps_refl _ | with_reducible assumption
    | ((with_reducible apply keeps_step); (with_reducible apply keeps_modCtx); rfl) | split

theorem sound_finishCtx (s : State) (c : Nat) (detail : BitVec 64) (hs : s.Sound q) :
    (State.finishCtx s c detail).Sound q := by
  unfold State.finishCtx
  try dsimp only
  repeat' first
    | with_reducible assumption | with_reducible apply sound_endCtx | split

theorem keeps_finishCtx (s : State) (c : Nat) (detail : BitVec 64) : Keeps [.cmds] s
    (State.finishCtx s c detail) := by
  unfold State.finishCtx
  try dsimp only
  repeat' first
    | with_reducible exact keeps_refl _ | with_reducible assumption
    | ((with_reducible apply keeps_step); (with_reducible apply keeps_endCtx); rfl) | split

theorem sound_sendPeer (s : State) (id : AgentId) (r : Req) (hs : s.Sound q) : (State.sendPeer s id r).Sound q := by
  unfold State.sendPeer
  try dsimp only
  repeat' first
    | with_reducible assumption | with_reducible apply sound_emit | split | with_reducible apply sound_mk

theorem keeps_sendPeer (s : State) (id : AgentId) (r : Req) : Keeps [.cone, .pmu, .kiln, .links, .out] s
    (State.sendPeer s id r) := by
  unfold State.sendPeer
  try dsimp only
  repeat' first
    | with_reducible exact keeps_refl _ | with_reducible assumption
    | ((with_reducible apply keeps_step); (with_reducible apply keeps_emit); rfl) | split
    | ((with_reducible apply keeps_step); (with_reducible apply upd_kiln); rfl)

theorem sound_issue (s : State) (r : Req) (hs : s.Sound q) : (State.issue s r).Sound q := by
  generalize hf : @State.issue = f
  delta State.issue at hf
  subst hf
  dsimp -zeta -iota only
  repeat' first
    | with_reducible assumption | with_reducible apply sound_sendPeer | with_reducible apply sound_dispatch | split
    | dsimp only

theorem keeps_issue (s : State) (r : Req) : Keeps
    [.free, .evt, .shelves, .arr, .home, .rings, .cmds, .tly, .cone, .pmu, .kiln, .pair, .ckp, .links, .out] s
    (State.issue s r) := by
  generalize hf : @State.issue = f
  delta State.issue at hf
  subst hf
  dsimp -zeta -iota only
  repeat' first
    | with_reducible exact keeps_refl _ | with_reducible assumption
    | ((with_reducible apply keeps_step); (with_reducible apply keeps_sendPeer); rfl)
    | ((with_reducible apply keeps_step); (with_reducible apply keeps_dispatch); rfl) | split | dsimp only

theorem sound_readLine (s : State) (w : Who) (op : ReqOp) (a : Nat) (cone : BitVec 3) (pour : Bool)
    (hs : s.Sound q) : (State.readLine s w op a cone pour).Sound q := by
  unfold State.readLine
  try dsimp only
  repeat' first
    | with_reducible assumption | with_reducible apply sound_issue | split

theorem keeps_readLine (s : State) (w : Who) (op : ReqOp) (a : Nat) (cone : BitVec 3) (pour : Bool) : Keeps
    [.free, .evt, .shelves, .arr, .home, .rings, .cmds, .tly, .cone, .pmu, .kiln, .pair, .ckp, .links, .out] s
    (State.readLine s w op a cone pour) := by
  unfold State.readLine
  try dsimp only
  repeat' first
    | with_reducible exact keeps_refl _ | with_reducible assumption
    | ((with_reducible apply keeps_step); (with_reducible apply keeps_issue); rfl) | split

theorem sound_gather (s : State) (c : Nat) (as : List Nat) (pour : Bool) (hs : s.Sound q) :
    (State.gather s c as pour).Sound q := by
  unfold State.gather
  try dsimp only
  repeat' first
    | with_reducible assumption | with_reducible apply sound_modCtx | with_reducible apply sound_readLine
    | with_reducible apply sound_foldl | intro _ _ _ | split

theorem keeps_gather (s : State) (c : Nat) (as : List Nat) (pour : Bool) : Keeps
    [.free, .evt, .shelves, .arr, .home, .rings, .cmds, .tly, .cone, .pmu, .kiln, .pair, .ckp, .links, .out] s
    (State.gather s c as pour) := by
  unfold State.gather
  try dsimp only
  repeat' first
    | with_reducible exact keeps_refl _ | with_reducible assumption
    | ((with_reducible apply keeps_step); (with_reducible apply keeps_modCtx); rfl)
    | ((with_reducible apply keeps_step); (with_reducible apply keeps_readLine); rfl)
    | with_reducible apply keeps_foldl | intro _ _ _ | split

theorem sound_writeLine (s : State) (w : Who) (a : Nat) (m : Mask) (d : Line) (cone : BitVec 3) (plain : Bool)
    (hs : s.Sound q) : (State.writeLine s w a m d cone plain).Sound q := by
  unfold State.writeLine
  try dsimp only
  repeat' first
    | with_reducible assumption | with_reducible apply sound_issue | split

theorem keeps_writeLine (s : State) (w : Who) (a : Nat) (m : Mask) (d : Line) (cone : BitVec 3) (plain : Bool) :
    Keeps
    [.free, .evt, .shelves, .arr, .home, .rings, .cmds, .tly, .cone, .pmu, .kiln, .pair, .ckp, .links, .out] s
    (State.writeLine s w a m d cone plain) := by
  unfold State.writeLine
  try dsimp only
  repeat' first
    | with_reducible exact keeps_refl _ | with_reducible assumption
    | ((with_reducible apply keeps_step); (with_reducible apply keeps_issue); rfl) | split

theorem sound_writeBytes (s : State) (w : Who) (a : Nat) (bs : List Byte) (cone : BitVec 3) (plain : Bool)
    (hs : s.Sound q) : (State.writeBytes s w a bs cone plain).Sound q := by
  unfold State.writeBytes
  try dsimp only
  repeat' first
    | with_reducible assumption | with_reducible apply sound_writeLine | split

theorem keeps_writeBytes (s : State) (w : Who) (a : Nat) (bs : List Byte) (cone : BitVec 3) (plain : Bool) :
    Keeps
    [.free, .evt, .shelves, .arr, .home, .rings, .cmds, .tly, .cone, .pmu, .kiln, .pair, .ckp, .links, .out] s
    (State.writeBytes s w a bs cone plain) := by
  unfold State.writeBytes
  try dsimp only
  repeat' first
    | with_reducible exact keeps_refl _ | with_reducible assumption
    | ((with_reducible apply keeps_step); (with_reducible apply keeps_writeLine); rfl) | split

theorem sound_batchResults (s : State) (c : Nat) (w : Who) (hs : s.Sound q) : (State.batchResults s c w).Sound q := by
  unfold State.batchResults
  try dsimp only
  repeat' first
    | with_reducible assumption | with_reducible apply sound_writeBytes | with_reducible apply sound_modCtx
    | with_reducible apply sound_foldl | intro _ _ _ | split

theorem keeps_batchResults (s : State) (c : Nat) (w : Who) : Keeps
    [.free, .evt, .shelves, .arr, .home, .rings, .cmds, .tly, .cone, .pmu, .kiln, .pair, .ckp, .links, .out] s
    (State.batchResults s c w) := by
  unfold State.batchResults
  try dsimp only
  repeat' first
    | with_reducible exact keeps_refl _ | with_reducible assumption
    | ((with_reducible apply keeps_step); (with_reducible apply keeps_writeBytes); rfl)
    | ((with_reducible apply keeps_step); (with_reducible apply keeps_modCtx); rfl) | with_reducible apply keeps_foldl
    | intro _ _ _ | split

theorem sound_recordMove (s : State) (m : Nat) (hs : s.Sound q) : (State.recordMove s m).Sound q := by
  unfold State.recordMove
  try dsimp only
  repeat' first
    | with_reducible assumption | with_reducible apply sound_writeBytes | with_reducible apply sound_modRing | split

theorem keeps_recordMove (s : State) (m : Nat) : Keeps
    [.free, .evt, .shelves, .arr, .home, .rings, .cmds, .tly, .cone, .pmu, .kiln, .pair, .ckp, .links, .out] s
    (State.recordMove s m) := by
  unfold State.recordMove
  try dsimp only
  repeat' first
    | with_reducible exact keeps_refl _ | with_reducible assumption
    | ((with_reducible apply keeps_step); (with_reducible apply keeps_writeBytes); rfl)
    | ((with_reducible apply keeps_step); (with_reducible apply keeps_modRing); rfl) | split

theorem sound_writeControl (s : State) (n : Nat) (hs : s.Sound q) : (State.writeControl s n).Sound q := by
  unfold State.writeControl
  try dsimp only
  repeat' first
    | with_reducible assumption | with_reducible apply sound_writeBytes | split

theorem keeps_writeControl (s : State) (n : Nat) : Keeps
    [.free, .evt, .shelves, .arr, .home, .rings, .cmds, .tly, .cone, .pmu, .kiln, .pair, .ckp, .links, .out] s
    (State.writeControl s n) := by
  unfold State.writeControl
  try dsimp only
  repeat' first
    | with_reducible exact keeps_refl _ | with_reducible assumption
    | ((with_reducible apply keeps_step); (with_reducible apply keeps_writeBytes); rfl) | split

theorem sound_pumpRing (s : State) (n : Nat) (hs : s.Sound q) : (State.pumpRing s n).Sound q := by
  unfold State.pumpRing
  try dsimp only
  repeat' first
    | with_reducible assumption | with_reducible apply sound_recordMove | with_reducible apply sound_writeControl
    | with_reducible apply sound_modRing | with_reducible apply sound_foldl | intro _ _ _ | split

theorem keeps_pumpRing (s : State) (n : Nat) : Keeps
    [.free, .evt, .shelves, .arr, .home, .rings, .cmds, .tly, .cone, .pmu, .kiln, .pair, .ckp, .links, .out] s
    (State.pumpRing s n) := by
  unfold State.pumpRing
  try dsimp only
  repeat' first
    | with_reducible exact keeps_refl _ | with_reducible assumption
    | ((with_reducible apply keeps_step); (with_reducible apply keeps_recordMove); rfl)
    | ((with_reducible apply keeps_step); (with_reducible apply keeps_writeControl); rfl)
    | ((with_reducible apply keeps_step); (with_reducible apply keeps_modRing); rfl)
    | with_reducible apply keeps_foldl | intro _ _ _ | split

theorem sound_cmdWrite (s : State) (c : Nat) (a : Nat) (m : Mask) (d : Line) (plain : Bool) (hs : s.Sound q) :
    (State.cmdWrite s c a m d plain).Sound q := by
  unfold State.cmdWrite
  try dsimp only
  repeat' first
    | with_reducible assumption | with_reducible apply sound_writeLine | with_reducible apply sound_modCtx | split

theorem keeps_cmdWrite (s : State) (c : Nat) (a : Nat) (m : Mask) (d : Line) (plain : Bool) : Keeps
    [.free, .evt, .shelves, .arr, .home, .rings, .cmds, .tly, .cone, .pmu, .kiln, .pair, .ckp, .links, .out] s
    (State.cmdWrite s c a m d plain) := by
  unfold State.cmdWrite
  try dsimp only
  repeat' first
    | with_reducible exact keeps_refl _ | with_reducible assumption
    | ((with_reducible apply keeps_step); (with_reducible apply keeps_writeLine); rfl)
    | ((with_reducible apply keeps_step); (with_reducible apply keeps_modCtx); rfl) | split

theorem sound_pumpRings (s : State) (hs : s.Sound q) : (State.pumpRings s).Sound q := by
  unfold State.pumpRings
  try dsimp only
  repeat' first
    | with_reducible assumption | with_reducible apply sound_pumpRing | with_reducible apply sound_foldl | intro _ _ _
    | split

theorem keeps_pumpRings (s : State) : Keeps
    [.free, .evt, .shelves, .arr, .home, .rings, .cmds, .tly, .cone, .pmu, .kiln, .pair, .ckp, .links, .out] s
    (State.pumpRings s) := by
  unfold State.pumpRings
  try dsimp only
  repeat' first
    | with_reducible exact keeps_refl _ | with_reducible assumption
    | ((with_reducible apply keeps_step); (with_reducible apply keeps_pumpRing); rfl)
    | with_reducible apply keeps_foldl | intro _ _ _ | split

theorem sound_completeCtx (s : State) (c : Nat) (hs : s.Sound q) : (State.completeCtx s c).Sound q := by
  unfold State.completeCtx
  try dsimp only
  repeat' first
    | with_reducible assumption | with_reducible apply sound_count | with_reducible apply sound_modCtx
    | with_reducible apply sound_modRing | split

theorem keeps_completeCtx (s : State) (c : Nat) : Keeps [.free, .rings, .cmds, .pmu] s (State.completeCtx s c) := by
  unfold State.completeCtx
  try dsimp only
  repeat' first
    | with_reducible exact keeps_refl _ | with_reducible assumption
    | ((with_reducible apply keeps_step); (with_reducible apply keeps_count); rfl)
    | ((with_reducible apply keeps_step); (with_reducible apply keeps_modCtx); rfl)
    | ((with_reducible apply keeps_step); (with_reducible apply keeps_modRing); rfl) | split

theorem sound_refuseCtx (s : State) (c : Nat) (r : BitVec 8 × BitVec 64) (hs : s.Sound q) :
    (State.refuseCtx s c r).Sound q := by
  unfold State.refuseCtx
  try dsimp only
  repeat' first
    | with_reducible assumption | with_reducible apply sound_completeCtx | with_reducible apply sound_endCtx | split

theorem keeps_refuseCtx (s : State) (c : Nat) (r : BitVec 8 × BitVec 64) : Keeps [.free, .rings, .cmds, .pmu] s
    (State.refuseCtx s c r) := by
  unfold State.refuseCtx
  try dsimp only
  repeat' first
    | with_reducible exact keeps_refl _ | with_reducible assumption
    | ((with_reducible apply keeps_step); (with_reducible apply keeps_completeCtx); rfl)
    | ((with_reducible apply keeps_step); (with_reducible apply keeps_endCtx); rfl) | split

theorem sound_keepPeers (s : State) (c : Nat) (hs : s.Sound q) : (State.keepPeers s c).Sound q := by
  unfold State.keepPeers
  try dsimp only
  repeat' first
    | with_reducible assumption | with_reducible apply sound_modCtx | split

theorem keeps_keepPeers (s : State) (c : Nat) : Keeps [.cmds] s (State.keepPeers s c) := by
  unfold State.keepPeers
  try dsimp only
  repeat' first
    | with_reducible exact keeps_refl _ | with_reducible assumption
    | ((with_reducible apply keeps_step); (with_reducible apply keeps_modCtx); rfl) | split

theorem sound_decodeEnd (s : State) (c : Nat) (r : Refuse) (hs : s.Sound q) : (State.decodeEnd s c r).Sound q := by
  unfold State.decodeEnd
  try dsimp only
  repeat' first
    | with_reducible assumption | with_reducible apply sound_refuseCtx | with_reducible apply sound_modCtx
    | with_reducible apply sound_keepPeers | split

theorem keeps_decodeEnd (s : State) (c : Nat) (r : Refuse) : Keeps [.free, .rings, .cmds, .pmu] s
    (State.decodeEnd s c r) := by
  unfold State.decodeEnd
  try dsimp only
  repeat' first
    | with_reducible exact keeps_refl _ | with_reducible assumption
    | ((with_reducible apply keeps_step); (with_reducible apply keeps_refuseCtx); rfl)
    | ((with_reducible apply keeps_step); (with_reducible apply keeps_modCtx); rfl)
    | ((with_reducible apply keeps_step); (with_reducible apply keeps_keepPeers); rfl) | split

end Sys2Proof.Machine
end

