-- ==== Sys2Proof/Laws/KilnOps.lean ====
section
/-! SUPPORT. What the operations of Machine/KilnOps.lean do to the whole state, two lemmas per operation: `sound_` (it keeps the
queue of waiting commands and the invariant of Safety.lean) and `keeps_` (the fields that it may change). -/
namespace Sys2Proof.Machine

variable {q : List Instr}

theorem sound_askHead (s : State) (c : Nat) (hs : s.Sound q) : (State.askHead s c).Sound q := by
  unfold State.askHead
  try dsimp only
  repeat' first
    | with_reducible assumption | with_reducible apply sound_readLine | with_reducible apply sound_modJob | split

theorem keeps_askHead (s : State) (c : Nat) : Keeps
    [.free, .evt, .shelves, .arr, .home, .rings, .cmds, .tly, .cone, .pmu, .kiln, .pair, .ckp, .links, .out] s
    (State.askHead s c) := by
  unfold State.askHead
  try dsimp only
  repeat' first
    | with_reducible exact keeps_refl _ | with_reducible assumption
    | ((with_reducible apply keeps_step); (with_reducible apply keeps_readLine); rfl)
    | ((with_reducible apply keeps_step); (with_reducible apply keeps_modJob); rfl) | split

theorem sound_modQueue (s : State) (b : Nat) (f : List Nat → List Nat) (hs : s.Sound q) :
    (State.modQueue s b f).Sound q := by
  unfold State.modQueue
  try dsimp only
  repeat' first
    | with_reducible assumption | split | with_reducible apply sound_mk

theorem keeps_modQueue (s : State) (b : Nat) (f : List Nat → List Nat) : Keeps [.kiln] s (State.modQueue s b f) := by
  unfold State.modQueue
  try dsimp only
  repeat' first
    | with_reducible exact keeps_refl _ | with_reducible assumption | split
    | ((with_reducible apply keeps_step); (with_reducible apply upd_kiln); rfl)

theorem sound_leaveBank (s : State) (c : Nat) (b : Nat) (hs : s.Sound q) : (State.leaveBank s c b).Sound q := by
  unfold State.leaveBank
  try dsimp only
  repeat' first
    | with_reducible assumption | with_reducible apply sound_modPeri | with_reducible apply sound_modQueue
    | with_reducible apply sound_releaseHeld | split | with_reducible apply sound_mk

theorem keeps_leaveBank (s : State) (c : Nat) (b : Nat) : Keeps
    [.free, .evt, .shelves, .arr, .home, .rings, .cmds, .tly, .cone, .pmu, .kiln, .pair, .ckp, .links, .out] s
    (State.leaveBank s c b) := by
  unfold State.leaveBank
  try dsimp only
  repeat' first
    | with_reducible exact keeps_refl _ | with_reducible assumption
    | ((with_reducible apply keeps_step); (with_reducible apply keeps_modPeri); rfl)
    | ((with_reducible apply keeps_step); (with_reducible apply keeps_modQueue); rfl)
    | ((with_reducible apply keeps_step); (with_reducible apply keeps_releaseHeld); rfl) | split
    | ((with_reducible apply keeps_step); (with_reducible apply upd_kiln); rfl)

theorem sound_leaveBanks (s : State) (c : Nat) (hs : s.Sound q) : (State.leaveBanks s c).Sound q := by
  unfold State.leaveBanks
  try dsimp only
  repeat' first
    | with_reducible assumption | with_reducible apply sound_leaveBank | with_reducible apply sound_foldl
    | intro _ _ _ | split | with_reducible apply sound_mk

theorem keeps_leaveBanks (s : State) (c : Nat) : Keeps
    [.free, .evt, .shelves, .arr, .home, .rings, .cmds, .tly, .cone, .pmu, .kiln, .pair, .ckp, .links, .out] s
    (State.leaveBanks s c) := by
  unfold State.leaveBanks
  try dsimp only
  repeat' first
    | with_reducible exact keeps_refl _ | with_reducible assumption
    | ((with_reducible apply keeps_step); (with_reducible apply keeps_leaveBank); rfl)
    | with_reducible apply keeps_foldl | intro _ _ _ | split
    | ((with_reducible apply keeps_step); (with_reducible apply upd_kiln); rfl)

theorem sound_sendSlot (s : State) (a : AsmSlot) (hs : s.Sound q) : (State.sendSlot s a).Sound q := by
  unfold State.sendSlot
  try dsimp only
  repeat' first
    | with_reducible assumption | with_reducible apply sound_issue | with_reducible apply sound_modCtx
    | with_reducible apply sound_foldl | intro _ _ _ | split

theorem keeps_sendSlot (s : State) (a : AsmSlot) : Keeps
    [.free, .evt, .shelves, .arr, .home, .rings, .cmds, .tly, .cone, .pmu, .kiln, .pair, .ckp, .links, .out] s
    (State.sendSlot s a) := by
  unfold State.sendSlot
  try dsimp only
  repeat' first
    | with_reducible exact keeps_refl _ | with_reducible assumption
    | ((with_reducible apply keeps_step); (with_reducible apply keeps_issue); rfl)
    | ((with_reducible apply keeps_step); (with_reducible apply keeps_modCtx); rfl) | with_reducible apply keeps_foldl
    | intro _ _ _ | split

theorem sound_modEntry (s : State) (i : Nat) (f : KEntry → KEntry) (hs : s.Sound q) :
    (State.modEntry s i f).Sound q := by
  unfold State.modEntry
  try dsimp only
  repeat' first
    | with_reducible assumption | split | with_reducible apply sound_mk

theorem keeps_modEntry (s : State) (i : Nat) (f : KEntry → KEntry) : Keeps [.kiln] s (State.modEntry s i f) := by
  unfold State.modEntry
  try dsimp only
  repeat' first
    | with_reducible exact keeps_refl _ | with_reducible assumption | split
    | ((with_reducible apply keeps_step); (with_reducible apply upd_kiln); rfl)

theorem sound_kilnClose (s : State) (c : Nat) (hs : s.Sound q) : (State.kilnClose s c).Sound q := by
  unfold State.kilnClose
  try dsimp only
  repeat' first
    | with_reducible assumption | with_reducible apply sound_leaveBanks | with_reducible apply sound_modEntry
    | with_reducible apply sound_foldl | intro _ _ _ | split | with_reducible apply sound_mk

theorem keeps_kilnClose (s : State) (c : Nat) : Keeps
    [.free, .evt, .shelves, .arr, .home, .rings, .cmds, .tly, .cone, .pmu, .kiln, .pair, .ckp, .links, .out] s
    (State.kilnClose s c) := by
  unfold State.kilnClose
  try dsimp only
  repeat' first
    | with_reducible exact keeps_refl _ | with_reducible assumption
    | ((with_reducible apply keeps_step); (with_reducible apply keeps_leaveBanks); rfl)
    | ((with_reducible apply keeps_step); (with_reducible apply keeps_modEntry); rfl)
    | with_reducible apply keeps_foldl | intro _ _ _ | split
    | ((with_reducible apply keeps_step); (with_reducible apply upd_kiln); rfl)

theorem sound_closeCtx (s : State) (c : Nat) (hs : s.Sound q) : (State.closeCtx s c).Sound q := by
  unfold State.closeCtx
  try dsimp only
  repeat' first
    | with_reducible assumption | with_reducible apply sound_completeCtx | with_reducible apply sound_kilnClose
    | split

theorem keeps_closeCtx (s : State) (c : Nat) : Keeps
    [.free, .evt, .shelves, .arr, .home, .rings, .cmds, .tly, .cone, .pmu, .kiln, .pair, .ckp, .links, .out] s
    (State.closeCtx s c) := by
  unfold State.closeCtx
  try dsimp only
  repeat' first
    | with_reducible exact keeps_refl _ | with_reducible assumption
    | ((with_reducible apply keeps_step); (with_reducible apply keeps_completeCtx); rfl)
    | ((with_reducible apply keeps_step); (with_reducible apply keeps_kilnClose); rfl) | split

theorem sound_writeMats (s : State) (d : BitVec 512) (k : Nat) (e : Entry) (src : Nat → Byte) (fb : Byte)
    (ms : List Nat) (hs : s.Sound q) : (State.writeMats s d k e src fb ms).Sound q := by
  unfold State.writeMats
  refine sound_arr hs fun h => ?_
  rw [wf_iff] at *
  refine ⟨?_, h.2⟩
  dsimp only
  split
  · refine twf_foldl (fun t r ht => ?_) _ _ (twf_foldl (fun t m ht => twf_foldl (fun t r ht => twf_setBytes _ _ _ _ ht) _ _ ht) _ _ h.1)
    split <;> exact twf_setBytes _ _ _ _ ht
  · exact twf_foldl (fun t m ht => twf_foldl (fun t r ht => twf_setBytes _ _ _ _ ht) _ _ ht) _ _ h.1

theorem keeps_writeMats (s : State) (d : BitVec 512) (k : Nat) (e : Entry) (src : Nat → Byte) (fb : Byte)
    (ms : List Nat) : Keeps [.arr] s (State.writeMats s d k e src fb ms) := by
  unfold State.writeMats
  try dsimp only
  repeat' first
    | with_reducible exact keeps_refl _ | with_reducible assumption | with_reducible apply keeps_foldl | intro _ _ _
    | split | ((with_reducible apply keeps_step); (with_reducible apply upd_arr); rfl)

theorem sound_reloadEnd (s : State) (i : Nat) (hs : s.Sound q) : (State.reloadEnd s i).Sound q := by
  unfold State.reloadEnd
  try dsimp only
  repeat' first
    | with_reducible assumption | with_reducible apply sound_draw | with_reducible apply sound_modEntry
    | with_reducible apply sound_writeMats | with_reducible apply sound_event | split | with_reducible apply sound_mk

theorem keeps_reloadEnd (s : State) (i : Nat) : Keeps [.free, .evt, .arr, .kiln] s (State.reloadEnd s i) := by
  unfold State.reloadEnd
  try dsimp only
  repeat' first
    | with_reducible exact keeps_refl _ | with_reducible assumption
    | ((with_reducible apply keeps_step); (with_reducible apply keeps_draw); rfl)
    | ((with_reducible apply keeps_step); (with_reducible apply keeps_modEntry); rfl)
    | ((with_reducible apply keeps_step); (with_reducible apply keeps_writeMats); rfl)
    | ((with_reducible apply keeps_step); (with_reducible apply keeps_event); rfl) | split
    | ((with_reducible apply keeps_step); (with_reducible apply upd_kiln); rfl)

theorem sound_reloadStart (s : State) (i : Nat) (mats : List Nat) (hs : s.Sound q) :
    (State.reloadStart s i mats).Sound q := by
  unfold State.reloadStart
  try dsimp only
  repeat' first
    | with_reducible assumption | with_reducible apply sound_event | with_reducible apply sound_modEntry
    | with_reducible apply sound_modReload | with_reducible apply sound_readLine | with_reducible apply sound_foldl
    | intro _ _ _ | split | with_reducible apply sound_mk

theorem keeps_reloadStart (s : State) (i : Nat) (mats : List Nat) : Keeps
    [.free, .evt, .shelves, .arr, .home, .rings, .cmds, .tly, .cone, .pmu, .kiln, .pair, .ckp, .links, .out] s
    (State.reloadStart s i mats) := by
  unfold State.reloadStart
  try dsimp only
  repeat' first
    | with_reducible exact keeps_refl _ | with_reducible assumption
    | ((with_reducible apply keeps_step); (with_reducible apply keeps_event); rfl)
    | ((with_reducible apply keeps_step); (with_reducible apply keeps_modEntry); rfl)
    | ((with_reducible apply keeps_step); (with_reducible apply keeps_modReload); rfl)
    | ((with_reducible apply keeps_step); (with_reducible apply keeps_readLine); rfl)
    | with_reducible apply keeps_foldl | intro _ _ _ | split
    | ((with_reducible apply keeps_step); (with_reducible apply upd_kiln); rfl)

theorem sound_reloadBank (s : State) (b : Nat) (mat : Option (Nat × Nat)) (hs : s.Sound q) :
    (State.reloadBank s b mat).Sound q := by
  unfold State.reloadBank
  try dsimp only
  repeat' first
    | with_reducible assumption | with_reducible apply sound_reloadStart | with_reducible apply sound_foldl
    | intro _ _ _ | split

theorem keeps_reloadBank (s : State) (b : Nat) (mat : Option (Nat × Nat)) : Keeps
    [.free, .evt, .shelves, .arr, .home, .rings, .cmds, .tly, .cone, .pmu, .kiln, .pair, .ckp, .links, .out] s
    (State.reloadBank s b mat) := by
  unfold State.reloadBank
  try dsimp only
  repeat' first
    | with_reducible exact keeps_refl _ | with_reducible assumption
    | ((with_reducible apply keeps_step); (with_reducible apply keeps_reloadStart); rfl)
    | with_reducible apply keeps_foldl | intro _ _ _ | split

theorem sound_fireMake (s : State) (c : Nat) (hs : s.Sound q) : (State.fireMake s c).Sound q := by
  unfold State.fireMake
  try dsimp only
  repeat' first
    | with_reducible assumption | split | with_reducible apply sound_mk

theorem keeps_fireMake (s : State) (c : Nat) : Keeps [.kiln] s (State.fireMake s c) := by
  unfold State.fireMake
  try dsimp only
  repeat' first
    | with_reducible exact keeps_refl _ | with_reducible assumption | split
    | ((with_reducible apply keeps_step); (with_reducible apply upd_kiln); rfl)

theorem sound_sumWrite (s : State) (c : Nat) (b : Nat) (a : Nat) (n : Nat) (m : Mask) (d : Line)
    (hs : s.Sound q) : (State.sumWrite s c b a n m d).Sound q := by
  unfold State.sumWrite
  try dsimp only
  repeat' first
    | with_reducible assumption | with_reducible apply sound_writeLine | with_reducible apply sound_modPeri
    | with_reducible apply sound_modCtx | split

theorem keeps_sumWrite (s : State) (c : Nat) (b : Nat) (a : Nat) (n : Nat) (m : Mask) (d : Line) : Keeps
    [.free, .evt, .shelves, .arr, .home, .rings, .cmds, .tly, .cone, .pmu, .kiln, .pair, .ckp, .links, .out] s
    (State.sumWrite s c b a n m d) := by
  unfold State.sumWrite
  try dsimp only
  repeat' first
    | with_reducible exact keeps_refl _ | with_reducible assumption
    | ((with_reducible apply keeps_step); (with_reducible apply keeps_writeLine); rfl)
    | ((with_reducible apply keeps_step); (with_reducible apply keeps_modPeri); rfl)
    | ((with_reducible apply keeps_step); (with_reducible apply keeps_modCtx); rfl) | split

theorem sound_writeSums (s : State) (c : Nat) (j : Job) (b : Nat) (t : Nat) (e : Entry) (sums : List Nat)
    (hs : s.Sound q) : (State.writeSums s c j b t e sums).Sound q := by
  unfold State.writeSums
  try dsimp only
  repeat' first
    | with_reducible assumption | with_reducible apply sound_modJob | with_reducible apply sound_sumWrite
    | with_reducible apply sound_foldl | intro _ _ _ | split

theorem keeps_writeSums (s : State) (c : Nat) (j : Job) (b : Nat) (t : Nat) (e : Entry) (sums : List Nat) :
    Keeps
    [.free, .evt, .shelves, .arr, .home, .rings, .cmds, .tly, .cone, .pmu, .kiln, .pair, .ckp, .links, .out] s
    (State.writeSums s c j b t e sums) := by
  unfold State.writeSums
  try dsimp only
  repeat' first
    | with_reducible exact keeps_refl _ | with_reducible assumption
    | ((with_reducible apply keeps_step); (with_reducible apply keeps_modJob); rfl)
    | ((with_reducible apply keeps_step); (with_reducible apply keeps_sumWrite); rfl)
    | with_reducible apply keeps_foldl | intro _ _ _ | split

theorem sound_joinBanks (s : State) (c : Nat) (bs : List Nat) (hs : s.Sound q) : (State.joinBanks s c bs).Sound
    q := by
  unfold State.joinBanks
  try dsimp only
  repeat' first
    | with_reducible assumption | with_reducible apply sound_modQueue | with_reducible apply sound_foldl | intro _ _ _
    | split | with_reducible apply sound_mk

theorem keeps_joinBanks (s : State) (c : Nat) (bs : List Nat) : Keeps [.kiln] s (State.joinBanks s c bs) := by
  unfold State.joinBanks
  try dsimp only
  repeat' first
    | with_reducible exact keeps_refl _ | with_reducible assumption
    | ((with_reducible apply keeps_step); (with_reducible apply keeps_modQueue); rfl)
    | with_reducible apply keeps_foldl | intro _ _ _ | split
    | ((with_reducible apply keeps_step); (with_reducible apply upd_kiln); rfl)

theorem sound_fetchInput (s : State) (c : Nat) (j : Job) (sh : Nat) (t : Nat) (hs : s.Sound q) :
    (State.fetchInput s c j sh t).Sound q := by
  unfold State.fetchInput
  try dsimp only
  repeat' first
    | with_reducible assumption | with_reducible apply sound_modPeri | with_reducible apply sound_modJob
    | with_reducible apply sound_readLine | with_reducible apply sound_foldl | intro _ _ _ | split

theorem keeps_fetchInput (s : State) (c : Nat) (j : Job) (sh : Nat) (t : Nat) : Keeps
    [.free, .evt, .shelves, .arr, .home, .rings, .cmds, .tly, .cone, .pmu, .kiln, .pair, .ckp, .links, .out] s
    (State.fetchInput s c j sh t) := by
  unfold State.fetchInput
  try dsimp only
  repeat' first
    | with_reducible exact keeps_refl _ | with_reducible assumption
    | ((with_reducible apply keeps_step); (with_reducible apply keeps_modPeri); rfl)
    | ((with_reducible apply keeps_step); (with_reducible apply keeps_modJob); rfl)
    | ((with_reducible apply keeps_step); (with_reducible apply keeps_readLine); rfl)
    | with_reducible apply keeps_foldl | intro _ _ _ | split

theorem sound_fireAsk (s : State) (c : Nat) (hs : s.Sound q) : (State.fireAsk s c).Sound q := by
  unfold State.fireAsk
  try dsimp only
  repeat' first
    | with_reducible assumption | with_reducible apply sound_id | with_reducible apply sound_fetchInput
    | with_reducible apply sound_foldl | intro _ _ _ | split

theorem keeps_fireAsk (s : State) (c : Nat) : Keeps
    [.free, .evt, .shelves, .arr, .home, .rings, .cmds, .tly, .cone, .pmu, .kiln, .pair, .ckp, .links, .out] s
    (State.fireAsk s c) := by
  unfold State.fireAsk
  try dsimp only
  repeat' first
    | with_reducible exact keeps_refl _ | with_reducible assumption | with_reducible apply keeps_id
    | ((with_reducible apply keeps_step); (with_reducible apply keeps_fetchInput); rfl)
    | with_reducible apply keeps_foldl | intro _ _ _ | split

theorem sound_fireStart (s : State) (c : Nat) (hs : s.Sound q) : (State.fireStart s c).Sound q := by
  unfold State.fireStart
  try dsimp only
  repeat' first
    | with_reducible assumption | with_reducible apply sound_modCtx | with_reducible apply sound_joinBanks
    | with_reducible apply sound_fireAsk | with_reducible apply sound_askHead | split

theorem keeps_fireStart (s : State) (c : Nat) : Keeps
    [.free, .evt, .shelves, .arr, .home, .rings, .cmds, .tly, .cone, .pmu, .kiln, .pair, .ckp, .links, .out] s
    (State.fireStart s c) := by
  unfold State.fireStart
  try dsimp only
  repeat' first
    | with_reducible exact keeps_refl _ | with_reducible assumption
    | ((with_reducible apply keeps_step); (with_reducible apply keeps_modCtx); rfl)
    | ((with_reducible apply keeps_step); (with_reducible apply keeps_joinBanks); rfl)
    | ((with_reducible apply keeps_step); (with_reducible apply keeps_fireAsk); rfl)
    | ((with_reducible apply keeps_step); (with_reducible apply keeps_askHead); rfl) | split

theorem sound_loseBank (s : State) (b : Nat) (hs : s.Sound q) : (State.loseBank s b).Sound q := by
  unfold State.loseBank
  try dsimp only
  repeat' first
    | with_reducible assumption | with_reducible apply sound_leaveBank | with_reducible apply sound_modJob
    | with_reducible apply sound_modCtx | with_reducible apply sound_foldl | intro _ _ _ | split

theorem keeps_loseBank (s : State) (b : Nat) : Keeps
    [.free, .evt, .shelves, .arr, .home, .rings, .cmds, .tly, .cone, .pmu, .kiln, .pair, .ckp, .links, .out] s
    (State.loseBank s b) := by
  unfold State.loseBank
  try dsimp only
  repeat' first
    | with_reducible exact keeps_refl _ | with_reducible assumption
    | ((with_reducible apply keeps_step); (with_reducible apply keeps_leaveBank); rfl)
    | ((with_reducible apply keeps_step); (with_reducible apply keeps_modJob); rfl)
    | ((with_reducible apply keeps_step); (with_reducible apply keeps_modCtx); rfl) | with_reducible apply keeps_foldl
    | intro _ _ _ | split

theorem sound_writeTail (s : State) (c : Nat) (hs : s.Sound q) : (State.writeTail s c).Sound q := by
  unfold State.writeTail
  try dsimp only
  repeat' first
    | with_reducible assumption | with_reducible apply sound_modJob | with_reducible apply sound_cmdWrite | split

theorem keeps_writeTail (s : State) (c : Nat) : Keeps
    [.free, .evt, .shelves, .arr, .home, .rings, .cmds, .tly, .cone, .pmu, .kiln, .pair, .ckp, .links, .out] s
    (State.writeTail s c) := by
  unfold State.writeTail
  try dsimp only
  repeat' first
    | with_reducible exact keeps_refl _ | with_reducible assumption
    | ((with_reducible apply keeps_step); (with_reducible apply keeps_modJob); rfl)
    | ((with_reducible apply keeps_step); (with_reducible apply keeps_cmdWrite); rfl) | split

theorem sound_setAsm (s : State) (h : Half) (l : List AsmSlot) (hs : s.Sound q) : (State.setAsm s h l).Sound q := by
  unfold State.setAsm
  try dsimp only
  repeat' first
    | with_reducible assumption | split | with_reducible apply sound_mk

theorem keeps_setAsm (s : State) (h : Half) (l : List AsmSlot) : Keeps [.kiln] s (State.setAsm s h l) := by
  unfold State.setAsm
  try dsimp only
  repeat' first
    | with_reducible exact keeps_refl _ | with_reducible assumption | split
    | ((with_reducible apply keeps_step); (with_reducible apply upd_kiln); rfl)

theorem sound_assemble (s : State) (h : Half) (c : Nat) (t : Nat) (a : Nat) (v : Nat) (hs : s.Sound q) :
    (State.assemble s h c t a v).Sound q := by
  unfold State.assemble
  try dsimp only
  repeat' first
    | with_reducible assumption | with_reducible apply sound_sendSlot | with_reducible apply sound_setAsm | split

theorem keeps_assemble (s : State) (h : Half) (c : Nat) (t : Nat) (a : Nat) (v : Nat) : Keeps
    [.free, .evt, .shelves, .arr, .home, .rings, .cmds, .tly, .cone, .pmu, .kiln, .pair, .ckp, .links, .out] s
    (State.assemble s h c t a v) := by
  unfold State.assemble
  try dsimp only
  repeat' first
    | with_reducible exact keeps_refl _ | with_reducible assumption
    | ((with_reducible apply keeps_step); (with_reducible apply keeps_sendSlot); rfl)
    | ((with_reducible apply keeps_step); (with_reducible apply keeps_setAsm); rfl) | split

theorem sound_firePass (s : State) (j : Job) (b : Nat) (p : Pass) (rest : List Pass) (hs : s.Sound q) :
    (State.firePass s j b p rest).Sound q := by
  unfold State.firePass
  try dsimp only
  repeat' first
    | with_reducible assumption | with_reducible apply sound_modJob | with_reducible apply sound_modCtx
    | with_reducible apply sound_assemble | with_reducible apply sound_writeSums | with_reducible apply sound_modPeri
    | with_reducible apply sound_fireAsk | with_reducible apply sound_writeTail | with_reducible apply sound_leaveBank
    | with_reducible apply sound_foldl | intro _ _ _ | split | with_reducible apply sound_mk

theorem keeps_firePass (s : State) (j : Job) (b : Nat) (p : Pass) (rest : List Pass) : Keeps
    [.free, .evt, .shelves, .arr, .home, .rings, .cmds, .tly, .cone, .pmu, .kiln, .pair, .ckp, .links, .out] s
    (State.firePass s j b p rest) := by
  unfold State.firePass
  try dsimp only
  repeat' first
    | with_reducible exact keeps_refl _ | with_reducible assumption
    | ((with_reducible apply keeps_step); (with_reducible apply keeps_modJob); rfl)
    | ((with_reducible apply keeps_step); (with_reducible apply keeps_modCtx); rfl)
    | ((with_reducible apply keeps_step); (with_reducible apply keeps_assemble); rfl)
    | ((with_reducible apply keeps_step); (with_reducible apply keeps_writeSums); rfl)
    | ((with_reducible apply keeps_step); (with_reducible apply keeps_modPeri); rfl)
    | ((with_reducible apply keeps_step); (with_reducible apply keeps_fireAsk); rfl)
    | ((with_reducible apply keeps_step); (with_reducible apply keeps_writeTail); rfl)
    | ((with_reducible apply keeps_step); (with_reducible apply keeps_leaveBank); rfl)
    | with_reducible apply keeps_foldl | intro _ _ _ | split
    | ((with_reducible apply keeps_step); (with_reducible apply upd_kiln); rfl)

theorem sound_refetch (s : State) (h : Half) (hs : s.Sound q) : (State.refetch s h).Sound q := by
  unfold State.refetch
  try dsimp only
  repeat' first
    | with_reducible assumption | split | with_reducible apply sound_mk

theorem keeps_refetch (s : State) (h : Half) : Keeps [.kiln] s (State.refetch s h) := by
  unfold State.refetch
  try dsimp only
  repeat' first
    | with_reducible exact keeps_refl _ | with_reducible assumption | split
    | ((with_reducible apply keeps_step); (with_reducible apply upd_kiln); rfl)

theorem sound_loadStep (s : State) (c : Nat) (hs : s.Sound q) : (State.loadStep s c).Sound q := by
  unfold State.loadStep
  try dsimp only
  repeat' first
    | with_reducible assumption | with_reducible apply sound_draw | with_reducible apply sound_writeMats
    | with_reducible apply sound_leaveBank | with_reducible apply sound_modCtx | with_reducible apply sound_foldl
    | intro _ _ _ | split

theorem keeps_loadStep (s : State) (c : Nat) : Keeps
    [.free, .evt, .shelves, .arr, .home, .rings, .cmds, .tly, .cone, .pmu, .kiln, .pair, .ckp, .links, .out] s
    (State.loadStep s c) := by
  unfold State.loadStep
  try dsimp only
  repeat' first
    | with_reducible exact keeps_refl _ | with_reducible assumption
    | ((with_reducible apply keeps_step); (with_reducible apply keeps_draw); rfl)
    | ((with_reducible apply keeps_step); (with_reducible apply keeps_writeMats); rfl)
    | ((with_reducible apply keeps_step); (with_reducible apply keeps_leaveBank); rfl)
    | ((with_reducible apply keeps_step); (with_reducible apply keeps_modCtx); rfl) | with_reducible apply keeps_foldl
    | intro _ _ _ | split

end Sys2Proof.Machine
end

