-- ==== Sys2Proof/Laws/SpareOps.lean ====
section
/-! SUPPORT. What the operations of Machine/SpareOps.lean do to the whole state, two lemmas per operation: `sound_` (it keeps the
queue of waiting commands and the invariant of Safety.lean) and `keeps_` (the fields that it may change). -/
namespace Sys2Proof.Machine

variable {q : List Instr}

theorem sound_copyAgain (s : State) (l : LineIx) (hs : s.Sound q) : (State.copyAgain s l).Sound q := by
  unfold State.copyAgain
  try dsimp only
  repeat' first
    | with_reducible assumption | with_reducible apply sound_afterDirty | split

theorem keeps_copyAgain (s : State) (l : LineIx) : Keeps
    [.free, .evt, .shelves, .arr, .back, .cone, .pmu, .flt, .ep, .ckp, .out] s (State.copyAgain s l) := by
  unfold State.copyAgain
  try dsimp only
  repeat' first
    | with_reducible exact keeps_refl _ | with_reducible assumption
    | ((with_reducible apply keeps_step); (with_reducible apply keeps_afterDirty); rfl) | split

theorem sound_clearTagSet (s : State) (b : Nat) (set : Nat) (hs : s.Sound q) : (State.clearTagSet s b set).Sound
    q := by
  generalize hf : @State.clearTagSet = f
  delta State.clearTagSet at hf
  subst hf
  dsimp -zeta -iota only
  repeat' first
    | with_reducible assumption | with_reducible apply sound_evict | with_reducible apply sound_setTag
    | with_reducible apply sound_copyAgain | with_reducible apply sound_event | with_reducible apply sound_foldl
    | intro _ _ _ | split | dsimp only

theorem keeps_clearTagSet (s : State) (b : Nat) (set : Nat) : Keeps
    [.free, .evt, .shelves, .arr, .back, .cone, .pmu, .flt, .ep, .ckp, .out] s (State.clearTagSet s b set) := by
  generalize hf : @State.clearTagSet = f
  delta State.clearTagSet at hf
  subst hf
  dsimp -zeta -iota only
  repeat' first
    | with_reducible exact keeps_refl _ | with_reducible assumption
    | ((with_reducible apply keeps_step); (with_reducible apply keeps_evict); rfl)
    | ((with_reducible apply keeps_step); (with_reducible apply keeps_setTag); rfl)
    | ((with_reducible apply keeps_step); (with_reducible apply keeps_copyAgain); rfl)
    | ((with_reducible apply keeps_step); (with_reducible apply keeps_event); rfl) | with_reducible apply keeps_foldl
    | intro _ _ _ | split | dsimp only

theorem sound_loseSaggar (s : State) (bank : Nat) (set : Nat) (frame : Nat) (hs : s.Sound q) :
    (State.loseSaggar s bank set frame).2.Sound q := by
  unfold State.loseSaggar
  extract_lets ix a pc
  split
  · exact hs
  · exact sound_event _ _ _ _ (sound_setPoison _ _ _ hs)

theorem keeps_loseSaggar (s : State) (bank : Nat) (set : Nat) (frame : Nat) : Keeps [.evt, .arr] s
    (State.loseSaggar s bank set frame).2 := by
  unfold State.loseSaggar
  extract_lets ix a pc
  split
  · exact keeps_refl _
  · exact keeps_then (keeps_then ((keeps_refl s)) (keeps_setPoison _ _ _) rfl) (keeps_event _ _ _ _) rfl

theorem sound_loseTags (s : State) (b : Nat) (set : Nat) (hs : s.Sound q) : (State.loseTags s b set).2.Sound q := by
  have gen : ∀ p x : Cost × State, x.2.Sound q → (have y := x; (p.1.firstOf y.1, y.2)).2.Sound q := fun _ _ k => k
  unfold State.loseTags
  by_cases h1 : s.cfg.mode b = modeCache
  · rw [if_pos h1]
    exact sound_trigger _ _ hs
  · rw [if_neg h1]
    by_cases h2 : s.cfg.mode b = modeSaggar
    · rw [if_pos h2]
      generalize List.range 16 = l
      refine sound_foldlSnd ?_ l (noData, s) hs
      intro p a h
      exact gen p _ (sound_loseSaggar p.2 b set a h)
    · rw [if_neg h2]
      exact hs

theorem keeps_loseTags (s : State) (b : Nat) (set : Nat) : Keeps [.free, .evt, .arr, .cone, .ep, .ckp, .out] s
    (State.loseTags s b set).2 := by
  have gen : ∀ p x : Cost × State, Keeps [.free, .evt, .arr, .cone, .ep, .ckp, .out] s x.2 → Keeps [.free, .evt, .arr, .cone, .ep, .ckp, .out] s (have y := x; (p.1.firstOf y.1, y.2)).2 := fun _ _ k => k
  unfold State.loseTags
  by_cases h1 : s.cfg.mode b = modeCache
  · rw [if_pos h1]
    exact keeps_then (keeps_refl _) (keeps_trigger _ _) rfl
  · rw [if_neg h1]
    by_cases h2 : s.cfg.mode b = modeSaggar
    · rw [if_pos h2]
      generalize List.range 16 = l
      refine keeps_foldlSnd ?_ l (noData, s) (keeps_refl _)
      intro p a h
      exact gen p _ (keeps_then h (keeps_loseSaggar p.2 b set a) rfl)
    · rw [if_neg h2]
      exact keeps_refl _

theorem sound_seqServes (s : State) (h : Half) (hs : s.Sound q) : (State.seqServes s h).Sound q := by
  unfold State.seqServes
  exact sound_event _ _ _ _ (sound_lock (sound_refetch _ _ hs) (locked_or 0x40#22 rfl rfl rfl rfl))

theorem keeps_seqServes (s : State) (h : Half) : Keeps [.evt, .kiln, .ckp] s (State.seqServes s h) := by
  unfold State.seqServes
  try dsimp only
  repeat' first
    | with_reducible exact keeps_refl _ | with_reducible assumption
    | ((with_reducible apply keeps_step); (with_reducible apply keeps_refetch); rfl)
    | ((with_reducible apply keeps_step); (with_reducible apply keeps_event); rfl) | split
    | ((with_reducible apply keeps_step); (with_reducible apply upd_kiln_ckp); rfl)

theorem sound_underTest (s : State) (u : FaultUnit) (hs : s.Sound q) : (State.underTest s u).Sound q := by
  unfold State.underTest
  try dsimp only
  repeat' first
    | with_reducible assumption | split | with_reducible apply sound_mk

theorem keeps_underTest (s : State) (u : FaultUnit) : Keeps [.flt] s (State.underTest s u) := by
  unfold State.underTest
  try dsimp only
  repeat' first
    | with_reducible exact keeps_refl _ | with_reducible assumption | split
    | ((with_reducible apply keeps_step); (with_reducible apply upd_flt); rfl)

theorem sound_recoverReq (s : State) (op : ReqOp) (l : LineIx) (cone : BitVec 3) (hs : s.Sound q) :
    (State.recoverReq s op l cone).Sound q := by
  unfold State.recoverReq
  try dsimp only
  repeat' first
    | with_reducible assumption | split | with_reducible apply sound_mk

theorem keeps_recoverReq (s : State) (op : ReqOp) (l : LineIx) (cone : BitVec 3) : Keeps [.home] s
    (State.recoverReq s op l cone) := by
  unfold State.recoverReq
  try dsimp only
  repeat' first
    | with_reducible exact keeps_refl _ | with_reducible assumption | split
    | ((with_reducible apply keeps_step); (with_reducible apply upd_home); rfl)

theorem sound_seek (s : State) (op : ReqOp) (l : LineIx) (cone : BitVec 3) (hs : s.Sound q) :
    (State.seek s op l cone).Sound q := by
  unfold State.seek
  try dsimp only
  repeat' first
    | with_reducible assumption | with_reducible apply sound_recoverReq | split | with_reducible apply sound_mk

theorem keeps_seek (s : State) (op : ReqOp) (l : LineIx) (cone : BitVec 3) : Keeps [.home, .flt] s
    (State.seek s op l cone) := by
  unfold State.seek
  try dsimp only
  repeat' first
    | with_reducible exact keeps_refl _ | with_reducible assumption
    | ((with_reducible apply keeps_step); (with_reducible apply keeps_recoverReq); rfl) | split
    | ((with_reducible apply keeps_step); (with_reducible apply upd_flt); rfl)

theorem sound_loseWord (s : State) (bank : Nat) (set : Nat) (frame : Nat) (sector : Nat) (hs : s.Sound q) :
    (State.loseWord s bank set frame sector).2.Sound q := by
  generalize hf : @State.loseWord = f
  delta State.loseWord at hf
  subst hf
  dsimp -zeta -iota only
  repeat' first
    | with_reducible assumption | with_reducible apply sound_copyAgain | with_reducible apply sound_setTag
    | with_reducible apply sound_seek | with_reducible apply sound_recoverClass | split | dsimp only

theorem keeps_loseWord (s : State) (bank : Nat) (set : Nat) (frame : Nat) (sector : Nat) : Keeps
    [.free, .evt, .shelves, .arr, .home, .back, .cone, .pmu, .flt, .ep, .ckp, .out] s
    (State.loseWord s bank set frame sector).2 := by
  generalize hf : @State.loseWord = f
  delta State.loseWord at hf
  subst hf
  dsimp -zeta -iota only
  repeat' first
    | with_reducible exact keeps_refl _ | with_reducible assumption
    | ((with_reducible apply keeps_step); (with_reducible apply keeps_copyAgain); rfl)
    | ((with_reducible apply keeps_step); (with_reducible apply keeps_setTag); rfl)
    | ((with_reducible apply keeps_step); (with_reducible apply keeps_seek); rfl)
    | ((with_reducible apply keeps_step); (with_reducible apply keeps_recoverClass); rfl) | split | dsimp only

theorem sound_loseRow (s : State) (b : Nat) (m : Nat) (r : Nat) (hs : s.Sound q) :
    (State.loseRow s b m r).2.Sound q := by
  unfold State.loseRow
  try dsimp only
  repeat' first
    | with_reducible assumption | with_reducible apply sound_loseWord | with_reducible apply sound_loseSaggar | split

theorem keeps_loseRow (s : State) (b : Nat) (m : Nat) (r : Nat) : Keeps
    [.free, .evt, .shelves, .arr, .home, .back, .cone, .pmu, .flt, .ep, .ckp, .out] s (State.loseRow s b m r).2
    := by
  unfold State.loseRow
  try dsimp only
  repeat' first
    | with_reducible exact keeps_refl _ | with_reducible assumption
    | ((with_reducible apply keeps_step); (with_reducible apply keeps_loseWord); rfl)
    | ((with_reducible apply keeps_step); (with_reducible apply keeps_loseSaggar); rfl) | split

theorem sound_loseMat (s : State) (b : Nat) (m : Nat) (rows : List Nat) (hs : s.Sound q) :
    (State.loseMat s b m rows).2.Sound q := by
  generalize hf : @State.loseMat = f
  delta State.loseMat at hf
  subst hf
  dsimp -zeta -iota only
  repeat' first
    | with_reducible assumption | with_reducible apply sound_id | with_reducible apply sound_loseRow
    | with_reducible apply sound_foldl | with_reducible apply sound_foldlSnd | with_reducible apply sound_foldlFst
    | intro _ _ _ | intro _ _ | intro _ | split | dsimp only
    | refine sound_snd (by with_reducible assumption) ?_; with_reducible apply sound_loseRow
    | with_reducible apply sound_mk | ((with_reducible apply sound_ckp); rotate_left; rfl)
    | ((with_reducible apply sound_evt); rotate_left; exact id)

theorem keeps_loseMat (s : State) (b : Nat) (m : Nat) (rows : List Nat) : Keeps
    [.free, .evt, .shelves, .arr, .home, .back, .cone, .pmu, .flt, .ep, .ckp, .out] s
    (State.loseMat s b m rows).2 := by
  generalize hf : @State.loseMat = f
  delta State.loseMat at hf
  subst hf
  dsimp -zeta -iota only
  repeat' first
    | with_reducible exact keeps_refl _ | with_reducible assumption | with_reducible apply keeps_id
    | ((with_reducible apply keeps_step); (with_reducible apply keeps_loseRow); rfl)
    | with_reducible apply keeps_foldl | with_reducible apply keeps_foldlSnd | with_reducible apply keeps_foldlFst
    | intro _ _ _ | intro _ _ | intro _ | split | dsimp only
    | ((with_reducible refine keeps_snd (by with_reducible assumption) ?_); (with_reducible apply keeps_step); (with_reducible apply keeps_loseRow); rfl)

theorem sound_glazeDrop (s : State) (st : BitVec 8) (detail : BitVec 64) (hs : s.Sound q) :
    (State.glazeDrop s st detail).Sound q := by
  unfold State.glazeDrop
  try dsimp only
  repeat' first
    | with_reducible assumption | with_reducible apply sound_releaseHeld | with_reducible apply sound_endCtx | split
    | with_reducible apply sound_mk

theorem keeps_glazeDrop (s : State) (st : BitVec 8) (detail : BitVec 64) : Keeps
    [.free, .evt, .glaze, .shelves, .arr, .home, .rings, .cmds, .ranges, .tly, .cone, .pmu, .kiln, .pair, .ckp, .links, .out]
    s (State.glazeDrop s st detail) := by
  unfold State.glazeDrop
  try dsimp only
  repeat' first
    | with_reducible exact keeps_refl _ | with_reducible assumption
    | ((with_reducible apply keeps_step); (with_reducible apply keeps_releaseHeld); rfl)
    | ((with_reducible apply keeps_step); (with_reducible apply keeps_endCtx); rfl) | split
    | ((with_reducible apply keeps_step); (with_reducible apply upd_glaze_ranges); rfl)

theorem sound_haltOps (s : State) (ops : List Nat) (hs : s.Sound q) : (State.haltOps s ops).Sound q := by
  unfold State.haltOps
  try dsimp only
  repeat' first
    | with_reducible assumption | with_reducible apply sound_endCtx | with_reducible apply sound_foldl | intro _ _ _
    | split

theorem keeps_haltOps (s : State) (ops : List Nat) : Keeps [.cmds] s (State.haltOps s ops) := by
  unfold State.haltOps
  try dsimp only
  repeat' first
    | with_reducible exact keeps_refl _ | with_reducible assumption
    | ((with_reducible apply keeps_step); (with_reducible apply keeps_endCtx); rfl) | with_reducible apply keeps_foldl
    | intro _ _ _ | split

theorem sound_activateLost (s : State) (hs : s.Sound q) : (State.activateLost s).Sound q := by
  unfold State.activateLost
  try dsimp only
  repeat' first
    | with_reducible assumption | with_reducible apply sound_fwHistory | split

theorem keeps_activateLost (s : State) : Keeps [.life] s (State.activateLost s) := by
  unfold State.activateLost
  try dsimp only
  repeat' first
    | with_reducible exact keeps_refl _ | with_reducible assumption
    | ((with_reducible apply keeps_step); (with_reducible apply keeps_fwHistory); rfl) | split

theorem sound_takeSpare (s : State) (v : FaultUnit) (hs : s.Sound q) : (State.takeSpare s v).2.Sound q := by
  unfold State.takeSpare
  try dsimp only
  repeat' first
    | with_reducible assumption | with_reducible apply sound_event | split | with_reducible apply sound_mk

theorem keeps_takeSpare (s : State) (v : FaultUnit) : Keeps [.evt, .flt, .life] s (State.takeSpare s v).2 := by
  unfold State.takeSpare
  try dsimp only
  repeat' first
    | with_reducible exact keeps_refl _ | with_reducible assumption
    | ((with_reducible apply keeps_step); (with_reducible apply keeps_event); rfl) | split
    | ((with_reducible apply keeps_step); (with_reducible apply upd_flt_life); rfl)

theorem sound_failover (s : State) (cause : Nat) (hs : s.Sound q) : (State.failover s cause).Sound q := by
  unfold State.failover
  try dsimp only
  repeat' first
    | with_reducible assumption | with_reducible apply sound_glazeDrop | with_reducible apply sound_haltOps
    | with_reducible apply sound_activateLost | with_reducible apply sound_event
    | with_reducible apply sound_takeSpare | split | with_reducible apply sound_mk

theorem keeps_failover (s : State) (cause : Nat) : Keeps
    [.free, .evt, .syb, .glaze, .shelves, .arr, .home, .rings, .cmds, .ranges, .tly, .cone, .pmu, .kiln, .flt, .pair, .fw, .life, .ckp, .links, .out]
    s (State.failover s cause) := by
  unfold State.failover
  try dsimp only
  repeat' first
    | with_reducible exact keeps_refl _ | with_reducible assumption
    | ((with_reducible apply keeps_step); (with_reducible apply keeps_glazeDrop); rfl)
    | ((with_reducible apply keeps_step); (with_reducible apply keeps_haltOps); rfl)
    | ((with_reducible apply keeps_step); (with_reducible apply keeps_activateLost); rfl)
    | ((with_reducible apply keeps_step); (with_reducible apply keeps_event); rfl)
    | ((with_reducible apply keeps_step); (with_reducible apply keeps_takeSpare); rfl) | split
    | ((with_reducible apply keeps_step); (with_reducible apply upd_syb_flt_fw); rfl)

theorem sound_costOf (s : State) (v : FaultUnit) (hs : s.Sound q) : (State.costOf s v).2.Sound q := by
  cases v <;> unfold State.costOf
  all_goals try dsimp only
  all_goals repeat' first
    | with_reducible assumption | with_reducible apply sound_loseMat | with_reducible apply sound_loseTags
    | with_reducible apply sound_trigger | with_reducible apply sound_event | with_reducible apply sound_failover
    | split | with_reducible apply sound_mk

theorem keeps_costOf (s : State) (v : FaultUnit) : Keeps
    [.free, .evt, .syb, .glaze, .shelves, .arr, .home, .back, .rings, .cmds, .ranges, .tly, .cone, .pmu, .kiln, .flt, .ep, .pair, .fw, .life, .ckp, .links, .out]
    s (State.costOf s v).2 := by
  cases v <;> unfold State.costOf
  all_goals try dsimp only
  all_goals repeat' first
    | with_reducible exact keeps_refl _ | with_reducible assumption
    | ((with_reducible apply keeps_step); (with_reducible apply keeps_loseMat); rfl)
    | ((with_reducible apply keeps_step); (with_reducible apply keeps_loseTags); rfl)
    | ((with_reducible apply keeps_step); (with_reducible apply keeps_trigger); rfl)
    | ((with_reducible apply keeps_step); (with_reducible apply keeps_event); rfl)
    | ((with_reducible apply keeps_step); (with_reducible apply keeps_failover); rfl) | split
    | ((with_reducible apply keeps_step); (with_reducible apply upd_flt); rfl)

theorem sound_retireBank (s : State) (b : Nat) (hs : s.Sound q) : (State.retireBank s b).Sound q := by
  unfold State.retireBank
  try dsimp only
  repeat' first
    | with_reducible assumption | with_reducible apply sound_setTag | with_reducible apply sound_evict
    | with_reducible apply sound_copyAgain | with_reducible apply sound_modShelf | with_reducible apply sound_modEntry
    | with_reducible apply sound_loseBank | with_reducible apply sound_foldl | intro _ _ _ | split
    | with_reducible apply sound_mk

theorem keeps_retireBank (s : State) (b : Nat) : Keeps
    [.free, .evt, .shelves, .arr, .home, .back, .rings, .cmds, .tly, .cone, .pmu, .kiln, .flt, .ep, .pair, .ckp, .links, .out]
    s (State.retireBank s b) := by
  unfold State.retireBank
  try dsimp only
  repeat' first
    | with_reducible exact keeps_refl _ | with_reducible assumption
    | ((with_reducible apply keeps_step); (with_reducible apply keeps_setTag); rfl)
    | ((with_reducible apply keeps_step); (with_reducible apply keeps_evict); rfl)
    | ((with_reducible apply keeps_step); (with_reducible apply keeps_copyAgain); rfl)
    | ((with_reducible apply keeps_step); (with_reducible apply keeps_modShelf); rfl)
    | ((with_reducible apply keeps_step); (with_reducible apply keeps_modEntry); rfl)
    | ((with_reducible apply keeps_step); (with_reducible apply keeps_loseBank); rfl)
    | with_reducible apply keeps_foldl | intro _ _ _ | split
    | ((with_reducible apply keeps_step); (with_reducible apply upd_flt); rfl)

theorem sound_farLanes (s : State) (n : Nat) (ls : List Nat) (hs : s.Sound q) : (State.farLanes s n ls).Sound q := by
  unfold State.farLanes
  try dsimp only
  repeat' first
    | with_reducible assumption | with_reducible apply sound_modFar | with_reducible apply sound_mirrorFlush
    | with_reducible apply sound_mirrorPorts | with_reducible apply sound_foldl | intro _ _ _ | split

theorem keeps_farLanes (s : State) (n : Nat) (ls : List Nat) : Keeps [.pmu, .pair, .links, .out] s
    (State.farLanes s n ls) := by
  unfold State.farLanes
  try dsimp only
  repeat' first
    | with_reducible exact keeps_refl _ | with_reducible assumption
    | ((with_reducible apply keeps_step); (with_reducible apply keeps_modFar); rfl)
    | ((with_reducible apply keeps_step); (with_reducible apply keeps_mirrorFlush); rfl)
    | ((with_reducible apply keeps_step); (with_reducible apply keeps_mirrorPorts); rfl)
    | with_reducible apply keeps_foldl | intro _ _ _ | split

theorem sound_retire (s : State) (u : FaultUnit) (hs : s.Sound q) : (State.retire s u).Sound q := by
  cases u <;> unfold State.retire
  all_goals try dsimp only
  all_goals repeat' first
    | with_reducible assumption | with_reducible apply sound_underTest | with_reducible apply sound_retireBank
    | with_reducible apply sound_event | with_reducible apply sound_modShelf | with_reducible apply sound_farLanes
    | with_reducible apply sound_loseBank | with_reducible apply sound_foldl | intro _ _ _ | split | dsimp only
    | with_reducible apply sound_mk

theorem keeps_retire (s : State) (u : FaultUnit) : Keeps
    [.free, .evt, .shelves, .arr, .dir, .home, .back, .rings, .cmds, .tly, .cone, .pmu, .kiln, .flt, .ep, .pair, .ckp, .links, .out]
    s (State.retire s u) := by
  cases u <;> unfold State.retire
  all_goals try dsimp only
  all_goals repeat' first
    | with_reducible exact keeps_refl _ | with_reducible assumption
    | ((with_reducible apply keeps_step); (with_reducible apply keeps_underTest); rfl)
    | ((with_reducible apply keeps_step); (with_reducible apply keeps_retireBank); rfl)
    | ((with_reducible apply keeps_step); (with_reducible apply keeps_event); rfl)
    | ((with_reducible apply keeps_step); (with_reducible apply keeps_modShelf); rfl)
    | ((with_reducible apply keeps_step); (with_reducible apply keeps_farLanes); rfl)
    | ((with_reducible apply keeps_step); (with_reducible apply keeps_loseBank); rfl)
    | with_reducible apply keeps_foldl | intro _ _ _ | split | dsimp only
    | ((with_reducible apply keeps_step); (with_reducible apply upd_dir_kiln_flt); rfl)

theorem sound_storeFault (s : State) (k : Fin 2) (word : Fin 524288) (hs : s.Sound q) :
    (State.storeFault s k word).2.Sound q := by
  unfold State.storeFault
  try dsimp only
  repeat' first
    | with_reducible assumption | with_reducible apply sound_event | with_reducible apply sound_retire | split
    | with_reducible apply sound_mk

theorem keeps_storeFault (s : State) (k : Fin 2) (word : Fin 524288) : Keeps
    [.free, .evt, .shelves, .arr, .dir, .home, .back, .rings, .cmds, .tly, .cone, .pmu, .kiln, .flt, .ep, .pair, .ckp, .links, .out]
    s (State.storeFault s k word).2 := by
  unfold State.storeFault
  try dsimp only
  repeat' first
    | with_reducible exact keeps_refl _ | with_reducible assumption
    | ((with_reducible apply keeps_step); (with_reducible apply keeps_event); rfl)
    | ((with_reducible apply keeps_step); (with_reducible apply keeps_retire); rfl) | split
    | ((with_reducible apply keeps_step); (with_reducible apply upd_flt); rfl)

theorem sound_spareBegin (s : State) (v : FaultUnit) (ctx : Option Nat) (hs : s.Sound q) :
    (State.spareBegin s v ctx).Sound q := by
  unfold State.spareBegin
  try dsimp only
  repeat' first
    | with_reducible assumption | with_reducible apply sound_takeSpare | with_reducible apply sound_underTest | split
    | with_reducible apply sound_mk

theorem keeps_spareBegin (s : State) (v : FaultUnit) (ctx : Option Nat) : Keeps [.evt, .flt, .life] s
    (State.spareBegin s v ctx) := by
  unfold State.spareBegin
  try dsimp only
  repeat' first
    | with_reducible exact keeps_refl _ | with_reducible assumption
    | ((with_reducible apply keeps_step); (with_reducible apply keeps_takeSpare); rfl)
    | ((with_reducible apply keeps_step); (with_reducible apply keeps_underTest); rfl) | split
    | ((with_reducible apply keeps_step); (with_reducible apply upd_flt); rfl)

theorem sound_spareOr (s : State) (v : FaultUnit) (hs : s.Sound q) : (State.spareOr s v).2.Sound q := by
  generalize hf : @State.spareOr = f
  delta State.spareOr at hf
  subst hf
  dsimp -zeta -iota only
  repeat' first
    | with_reducible assumption | with_reducible apply sound_event | with_reducible apply sound_spareBegin
    | with_reducible apply sound_retire | split | dsimp only | with_reducible apply sound_mk

theorem keeps_spareOr (s : State) (v : FaultUnit) : Keeps
    [.free, .evt, .shelves, .arr, .dir, .home, .back, .rings, .cmds, .tly, .cone, .pmu, .kiln, .flt, .ep, .pair, .life, .ckp, .links, .out]
    s (State.spareOr s v).2 := by
  generalize hf : @State.spareOr = f
  delta State.spareOr at hf
  subst hf
  dsimp -zeta -iota only
  repeat' first
    | with_reducible exact keeps_refl _ | with_reducible assumption
    | ((with_reducible apply keeps_step); (with_reducible apply keeps_event); rfl)
    | ((with_reducible apply keeps_step); (with_reducible apply keeps_spareBegin); rfl)
    | ((with_reducible apply keeps_step); (with_reducible apply keeps_retire); rfl) | split | dsimp only
    | ((with_reducible apply keeps_step); (with_reducible apply upd_kiln); rfl)

theorem sound_takeOut (s : State) (v : FaultUnit) (quench : Bool) (hs : s.Sound q) :
    (State.takeOut s v quench).2.Sound q := by
  cases v <;> unfold State.takeOut
  all_goals try dsimp only
  all_goals repeat' first
    | with_reducible assumption | with_reducible apply sound_event | with_reducible apply sound_retire
    | with_reducible apply sound_storeFault | with_reducible apply sound_spareOr | with_reducible apply sound_foldl
    | intro _ _ _ | split | with_reducible apply sound_mk

theorem keeps_takeOut (s : State) (v : FaultUnit) (quench : Bool) : Keeps
    [.free, .evt, .shelves, .arr, .dir, .home, .back, .rings, .cmds, .tly, .cone, .pmu, .kiln, .flt, .ep, .pair, .life, .ckp, .links, .out]
    s (State.takeOut s v quench).2 := by
  cases v <;> unfold State.takeOut
  all_goals try dsimp only
  all_goals repeat' first
    | with_reducible exact keeps_refl _ | with_reducible assumption
    | ((with_reducible apply keeps_step); (with_reducible apply keeps_event); rfl)
    | ((with_reducible apply keeps_step); (with_reducible apply keeps_retire); rfl)
    | ((with_reducible apply keeps_step); (with_reducible apply keeps_storeFault); rfl)
    | ((with_reducible apply keeps_step); (with_reducible apply keeps_spareOr); rfl)
    | with_reducible apply keeps_foldl | intro _ _ _ | split
    | ((with_reducible apply keeps_step); (with_reducible apply upd_ep); rfl)

theorem sound_lastingFault (s : State) (u : FaultUnit) (hs : s.Sound q) : (State.lastingFault s u).Sound q := by
  cases u <;> unfold State.lastingFault
  all_goals try dsimp only
  all_goals repeat' first
    | with_reducible assumption | with_reducible apply sound_logFault | with_reducible apply sound_event
    | with_reducible apply sound_underTest | with_reducible apply sound_costOf | with_reducible apply sound_takeOut
    | split | dsimp only | with_reducible apply sound_mk

theorem keeps_lastingFault (s : State) (u : FaultUnit) : Keeps
    [.free, .evt, .syb, .glaze, .shelves, .arr, .dir, .home, .back, .rings, .cmds, .ranges, .tly, .cone, .pmu, .kiln, .flt, .ep, .pair, .fw, .life, .ckp, .links, .out]
    s (State.lastingFault s u) := by
  cases u <;> unfold State.lastingFault
  all_goals try dsimp only
  all_goals repeat' first
    | with_reducible exact keeps_refl _ | with_reducible assumption
    | ((with_reducible apply keeps_step); (with_reducible apply keeps_logFault); rfl)
    | ((with_reducible apply keeps_step); (with_reducible apply keeps_event); rfl)
    | ((with_reducible apply keeps_step); (with_reducible apply keeps_underTest); rfl)
    | ((with_reducible apply keeps_step); (with_reducible apply keeps_costOf); rfl)
    | ((with_reducible apply keeps_step); (with_reducible apply keeps_takeOut); rfl) | split | dsimp only
    | ((with_reducible apply keeps_step); (with_reducible apply upd_life); rfl)

theorem sound_install (s : State) (w : SpareWork) (hs : s.Sound q) : (State.install s w).Sound q := by
  unfold State.install
  try dsimp only
  repeat' first
    | with_reducible assumption | split | with_reducible apply sound_mk

theorem keeps_install (s : State) (w : SpareWork) : Keeps [.flt] s (State.install s w) := by
  unfold State.install
  try dsimp only
  repeat' first
    | with_reducible exact keeps_refl _ | with_reducible assumption | split
    | ((with_reducible apply keeps_step); (with_reducible apply upd_flt); rfl)

theorem sound_laneServes (s : State) (n : Nat) (l : Nat) (hs : s.Sound q) : (State.laneServes s n l).Sound q := by
  unfold State.laneServes
  try dsimp only
  repeat' first
    | with_reducible assumption | with_reducible apply sound_id | with_reducible apply sound_farPump
    | with_reducible apply sound_modFar | split

theorem keeps_laneServes (s : State) (n : Nat) (l : Nat) : Keeps [.pmu, .links, .out] s (State.laneServes s n l) := by
  unfold State.laneServes
  try dsimp only
  repeat' first
    | with_reducible exact keeps_refl _ | with_reducible assumption | with_reducible apply keeps_id
    | ((with_reducible apply keeps_step); (with_reducible apply keeps_farPump); rfl)
    | ((with_reducible apply keeps_step); (with_reducible apply keeps_modFar); rfl) | split

theorem sound_spareDue (s : State) (hs : s.Sound q) : (State.spareDue s).Sound q := by
  unfold State.spareDue
  try dsimp only
  repeat' first
    | with_reducible assumption | with_reducible apply sound_clearTagSet | with_reducible apply sound_spareOr
    | with_reducible apply sound_foldl | intro _ _ _ | split | with_reducible apply sound_mk

theorem keeps_spareDue (s : State) : Keeps
    [.free, .evt, .shelves, .arr, .dir, .home, .back, .rings, .cmds, .tly, .cone, .pmu, .kiln, .flt, .ep, .pair, .life, .ckp, .links, .out]
    s (State.spareDue s) := by
  unfold State.spareDue
  try dsimp only
  repeat' first
    | with_reducible exact keeps_refl _ | with_reducible assumption
    | ((with_reducible apply keeps_step); (with_reducible apply keeps_clearTagSet); rfl)
    | ((with_reducible apply keeps_step); (with_reducible apply keeps_spareOr); rfl)
    | with_reducible apply keeps_foldl | intro _ _ _ | split
    | ((with_reducible apply keeps_step); (with_reducible apply upd_ep); rfl)

theorem sound_testsDone (s : State) (hs : s.Sound q) : (State.testsDone s).Sound q := by
  unfold State.testsDone
  try dsimp only
  repeat' first
    | with_reducible assumption | split | with_reducible apply sound_mk

theorem keeps_testsDone (s : State) : Keeps [.flt] s (State.testsDone s) := by
  unfold State.testsDone
  try dsimp only
  repeat' first
    | with_reducible exact keeps_refl _ | with_reducible assumption | split
    | ((with_reducible apply keeps_step); (with_reducible apply upd_flt); rfl)

theorem sound_fitted (s : State) (w : SpareWork) (hs : s.Sound q) : (State.fitted s w).Sound q := by
  obtain ⟨u, n, c⟩ := w; cases u <;> unfold State.fitted
  all_goals try dsimp only
  all_goals repeat' first
    | with_reducible assumption | with_reducible apply sound_reloadBank | with_reducible apply sound_modShelf
    | with_reducible apply sound_seqServes | with_reducible apply sound_laneServes | split

theorem keeps_fitted (s : State) (w : SpareWork) : Keeps
    [.free, .evt, .shelves, .arr, .home, .rings, .cmds, .tly, .cone, .pmu, .kiln, .pair, .ckp, .links, .out] s
    (State.fitted s w) := by
  obtain ⟨u, n, c⟩ := w; cases u <;> unfold State.fitted
  all_goals try dsimp only
  all_goals repeat' first
    | with_reducible exact keeps_refl _ | with_reducible assumption
    | ((with_reducible apply keeps_step); (with_reducible apply keeps_reloadBank); rfl)
    | ((with_reducible apply keeps_step); (with_reducible apply keeps_modShelf); rfl)
    | ((with_reducible apply keeps_step); (with_reducible apply keeps_seqServes); rfl)
    | ((with_reducible apply keeps_step); (with_reducible apply keeps_laneServes); rfl) | split

theorem sound_spareEnd (s : State) (hs : s.Sound q) : (State.spareEnd s).Sound q := by
  unfold State.spareEnd
  try dsimp only
  repeat' first
    | with_reducible assumption | with_reducible apply sound_fitted | with_reducible apply sound_install
    | with_reducible apply sound_endCtx | with_reducible apply sound_releaseHeld | split
    | with_reducible apply sound_mk

theorem keeps_spareEnd (s : State) : Keeps
    [.free, .evt, .shelves, .arr, .home, .rings, .cmds, .tly, .cone, .pmu, .kiln, .flt, .pair, .ckp, .links, .out]
    s (State.spareEnd s) := by
  unfold State.spareEnd
  try dsimp only
  repeat' first
    | with_reducible exact keeps_refl _ | with_reducible assumption
    | ((with_reducible apply keeps_step); (with_reducible apply keeps_fitted); rfl)
    | ((with_reducible apply keeps_step); (with_reducible apply keeps_install); rfl)
    | ((with_reducible apply keeps_step); (with_reducible apply keeps_endCtx); rfl)
    | ((with_reducible apply keeps_step); (with_reducible apply keeps_releaseHeld); rfl) | split
    | ((with_reducible apply keeps_step); (with_reducible apply upd_flt); rfl)

end Sys2Proof.Machine
end

