-- ==== Sys2Proof/Laws/QuenchOps.lean ====
section
/-! SUPPORT. What the operations of Machine/QuenchOps.lean do to the whole state, two lemmas per operation: `sound_` (it keeps the
queue of waiting commands and the invariant of Safety.lean) and `keeps_` (the fields that it may change). -/
namespace Sys2Proof.Machine

variable {q : List Instr}

theorem sound_cutRecall (s : State) (hs : s.Sound q) : (State.cutRecall s).Sound q := by
  unfold State.cutRecall
  try dsimp only
  repeat' first
    | with_reducible assumption | with_reducible apply sound_placeOwn | with_reducible apply sound_foldl | intro _ _ _
    | split

theorem keeps_cutRecall (s : State) : Keeps [.free, .shelves, .home, .pmu, .ckp, .links, .out] s
    (State.cutRecall s) := by
  unfold State.cutRecall
  try dsimp only
  repeat' first
    | with_reducible exact keeps_refl _ | with_reducible assumption
    | ((with_reducible apply keeps_step); (with_reducible apply keeps_placeOwn); rfl)
    | with_reducible apply keeps_foldl | intro _ _ _ | split

theorem sound_cutFlip (s : State) (hs : s.Sound q) : (State.cutFlip s).Sound q := by
  unfold State.cutFlip
  try dsimp only
  repeat' first
    | with_reducible assumption | with_reducible apply sound_backReq | with_reducible apply sound_modCtx
    | with_reducible apply sound_foldl | intro _ _ _ | split | with_reducible apply sound_mk

theorem keeps_cutFlip (s : State) : Keeps [.back, .cmds, .ep] s (State.cutFlip s) := by
  unfold State.cutFlip
  try dsimp only
  repeat' first
    | with_reducible exact keeps_refl _ | with_reducible assumption
    | ((with_reducible apply keeps_step); (with_reducible apply keeps_backReq); rfl)
    | ((with_reducible apply keeps_step); (with_reducible apply keeps_modCtx); rfl) | with_reducible apply keeps_foldl
    | intro _ _ _ | split | ((with_reducible apply keeps_step); (with_reducible apply upd_back_ep); rfl)

theorem sound_sweepLines (s : State) (hs : s.Sound q) : (State.sweepLines s).Sound q := by
  unfold State.sweepLines
  try dsimp only
  repeat' first
    | with_reducible assumption | with_reducible apply sound_cleanSlot | with_reducible apply sound_foldl
    | intro _ _ _ | split

theorem keeps_sweepLines (s : State) : Keeps [.free, .arr, .back, .cone, .pmu, .ep, .ckp, .out] s
    (State.sweepLines s) := by
  unfold State.sweepLines
  try dsimp only
  repeat' first
    | with_reducible exact keeps_refl _ | with_reducible assumption
    | ((with_reducible apply keeps_step); (with_reducible apply keeps_cleanSlot); rfl)
    | with_reducible apply keeps_foldl | intro _ _ _ | split

theorem sound_cutEnter (s : State) (n : Nat) (hs : s.Sound q) : (State.cutEnter s n).Sound q := by
  unfold State.cutEnter
  try dsimp only
  repeat' first
    | with_reducible assumption | with_reducible apply sound_cutRecall | with_reducible apply sound_cutFlip
    | with_reducible apply sound_sweepLines | split | with_reducible apply sound_mk

theorem keeps_cutEnter (s : State) (n : Nat) : Keeps
    [.free, .shelves, .arr, .home, .back, .cmds, .cone, .pmu, .ep, .ckp, .links, .out] s (State.cutEnter s n) :=
    by
  unfold State.cutEnter
  try dsimp only
  repeat' first
    | with_reducible exact keeps_refl _ | with_reducible assumption
    | ((with_reducible apply keeps_step); (with_reducible apply keeps_cutRecall); rfl)
    | ((with_reducible apply keeps_step); (with_reducible apply keeps_cutFlip); rfl)
    | ((with_reducible apply keeps_step); (with_reducible apply keeps_sweepLines); rfl) | split
    | ((with_reducible apply keeps_step); (with_reducible apply upd_ep_out); rfl)

theorem sound_cutClose (s : State) (hs : s.Sound q) : (State.cutClose s).Sound q := by
  unfold State.cutClose
  try dsimp only
  repeat' first
    | with_reducible assumption | with_reducible apply sound_endCtx | with_reducible apply sound_foldl | intro _ _ _
    | split | with_reducible apply sound_mk

theorem keeps_cutClose (s : State) : Keeps [.cmds, .ep, .out] s (State.cutClose s) := by
  unfold State.cutClose
  try dsimp only
  repeat' first
    | with_reducible exact keeps_refl _ | with_reducible assumption
    | ((with_reducible apply keeps_step); (with_reducible apply keeps_endCtx); rfl) | with_reducible apply keeps_foldl
    | intro _ _ _ | split | ((with_reducible apply keeps_step); (with_reducible apply upd_ep_out); rfl)

theorem sound_replayNext (s : State) (n : Nat) (hs : s.Sound q) : (State.replayNext s n).Sound q := by
  unfold State.replayNext
  try dsimp only
  repeat' first
    | with_reducible assumption | with_reducible apply sound_backReq | split | with_reducible apply sound_mk

theorem keeps_replayNext (s : State) (n : Nat) : Keeps [.back, .ep] s (State.replayNext s n) := by
  unfold State.replayNext
  try dsimp only
  repeat' first
    | with_reducible exact keeps_refl _ | with_reducible assumption
    | ((with_reducible apply keeps_step); (with_reducible apply keeps_backReq); rfl) | split
    | ((with_reducible apply keeps_step); (with_reducible apply upd_back_ep); rfl)

theorem sound_modReplay (s : State) (n : Nat) (f : Replay → Replay) (hs : s.Sound q) :
    (State.modReplay s n f).Sound q := by
  unfold State.modReplay
  try dsimp only
  repeat' first
    | with_reducible assumption | split | with_reducible apply sound_mk

theorem keeps_modReplay (s : State) (n : Nat) (f : Replay → Replay) : Keeps [.ep] s (State.modReplay s n f) := by
  unfold State.modReplay
  try dsimp only
  repeat' first
    | with_reducible exact keeps_refl _ | with_reducible assumption | split
    | ((with_reducible apply keeps_step); (with_reducible apply upd_ep); rfl)

theorem sound_replayBad (s : State) (n : Nat) (j : Nat) (hs : s.Sound q) : (State.replayBad s n j).Sound q := by
  unfold State.replayBad
  try dsimp only
  repeat' first
    | with_reducible assumption | with_reducible apply sound_event | split | with_reducible apply sound_mk

theorem keeps_replayBad (s : State) (n : Nat) (j : Nat) : Keeps [.evt, .ep] s (State.replayBad s n j) := by
  unfold State.replayBad
  try dsimp only
  repeat' first
    | with_reducible exact keeps_refl _ | with_reducible assumption
    | ((with_reducible apply keeps_step); (with_reducible apply keeps_event); rfl) | split
    | ((with_reducible apply keeps_step); (with_reducible apply upd_ep); rfl)

theorem sound_replayEntry (s : State) (n : Nat) (l : Line) (ue : Bool) (hs : s.Sound q) :
    (State.replayEntry s n l ue).Sound q := by
  unfold State.replayEntry
  try dsimp only
  repeat' first
    | with_reducible assumption | with_reducible apply sound_getD | with_reducible apply sound_replayNext
    | with_reducible apply sound_modReplay | with_reducible apply sound_backReq | with_reducible apply sound_replayBad
    | split

theorem keeps_replayEntry (s : State) (n : Nat) (l : Line) (ue : Bool) : Keeps [.evt, .back, .ep] s
    (State.replayEntry s n l ue) := by
  unfold State.replayEntry
  try dsimp only
  repeat' first
    | with_reducible exact keeps_refl _ | with_reducible assumption | with_reducible apply keeps_getD
    | ((with_reducible apply keeps_step); (with_reducible apply keeps_replayNext); rfl)
    | ((with_reducible apply keeps_step); (with_reducible apply keeps_modReplay); rfl)
    | ((with_reducible apply keeps_step); (with_reducible apply keeps_backReq); rfl)
    | ((with_reducible apply keeps_step); (with_reducible apply keeps_replayBad); rfl) | split

theorem sound_replayStart (s : State) (n : Nat) (hs : s.Sound q) : (State.replayStart s n).Sound q := by
  unfold State.replayStart
  try dsimp only
  repeat' first
    | with_reducible assumption | with_reducible apply sound_replayNext | split | with_reducible apply sound_mk

theorem keeps_replayStart (s : State) (n : Nat) : Keeps [.back, .ep] s (State.replayStart s n) := by
  unfold State.replayStart
  try dsimp only
  repeat' first
    | with_reducible exact keeps_refl _ | with_reducible assumption
    | ((with_reducible apply keeps_step); (with_reducible apply keeps_replayNext); rfl) | split
    | ((with_reducible apply keeps_step); (with_reducible apply upd_ep); rfl)

theorem sound_runLater (s : State) (hs : s.Sound q) : (State.runLater s).Sound q := by
  unfold State.runLater
  try dsimp only
  repeat' first
    | with_reducible assumption | with_reducible apply sound_trigger | with_reducible apply sound_foldl | intro _ _ _
    | split | with_reducible apply sound_mk

theorem keeps_runLater (s : State) : Keeps [.free, .cone, .ep, .ckp, .out] s (State.runLater s) := by
  unfold State.runLater
  try dsimp only
  repeat' first
    | with_reducible exact keeps_refl _ | with_reducible assumption
    | ((with_reducible apply keeps_step); (with_reducible apply keeps_trigger); rfl)
    | with_reducible apply keeps_foldl | intro _ _ _ | split
    | ((with_reducible apply keeps_step); (with_reducible apply upd_ep); rfl)

theorem sound_repair (s : State) (hs : s.Sound q) : (State.repair s).Sound q := by
  unfold State.repair
  try dsimp only
  repeat' first
    | with_reducible assumption | with_reducible apply sound_setAgent | with_reducible apply sound_spareDue
    | with_reducible apply sound_spreadAgents | with_reducible apply sound_foldl | intro _ _ _ | split
    | with_reducible apply sound_mk

theorem keeps_repair (s : State) : Keeps
    [.free, .evt, .agents, .shelves, .arr, .dir, .home, .back, .rings, .cmds, .tly, .cone, .pmu, .kiln, .flt, .ep, .pair, .life, .ckp, .links, .out]
    s (State.repair s) := by
  unfold State.repair
  try dsimp only
  repeat' first
    | with_reducible exact keeps_refl _ | with_reducible assumption
    | ((with_reducible apply keeps_step); (with_reducible apply keeps_setAgent); rfl)
    | ((with_reducible apply keeps_step); (with_reducible apply keeps_spareDue); rfl)
    | ((with_reducible apply keeps_step); (with_reducible apply keeps_spreadAgents); rfl)
    | with_reducible apply keeps_foldl | intro _ _ _ | split
    | ((with_reducible apply keeps_step); (with_reducible apply upd_agents_ep); rfl)

theorem sound_crackAll (s : State) (hs : s.Sound q) : (State.crackAll s).Sound q := by
  unfold State.crackAll
  try dsimp only
  repeat' first
    | with_reducible assumption | with_reducible apply sound_respond | with_reducible apply sound_modShelf
    | with_reducible apply sound_modTxn | with_reducible apply sound_count | with_reducible apply sound_foldl
    | intro _ _ _ | split

theorem keeps_crackAll (s : State) : Keeps [.free, .shelves, .home, .cone, .pmu, .ckp, .links, .out] s
    (State.crackAll s) := by
  unfold State.crackAll
  try dsimp only
  repeat' first
    | with_reducible exact keeps_refl _ | with_reducible assumption
    | ((with_reducible apply keeps_step); (with_reducible apply keeps_respond); rfl)
    | ((with_reducible apply keeps_step); (with_reducible apply keeps_modShelf); rfl)
    | ((with_reducible apply keeps_step); (with_reducible apply keeps_modTxn); rfl)
    | ((with_reducible apply keeps_step); (with_reducible apply keeps_count); rfl) | with_reducible apply keeps_foldl
    | intro _ _ _ | split

theorem sound_invalidateAll (s : State) (hs : s.Sound q) : (State.invalidateAll s).Sound q := by
  unfold State.invalidateAll
  try dsimp only
  repeat' first
    | with_reducible assumption | with_reducible apply sound_poisonAgent | with_reducible apply sound_resolveLost
    | with_reducible apply sound_advance | with_reducible apply sound_foldl | intro _ _ _ | split
    | with_reducible apply sound_mk

theorem keeps_invalidateAll (s : State) : Keeps
    [.free, .evt, .shelves, .arr, .dir, .home, .back, .rings, .cmds, .ranges, .tly, .cone, .pmu, .kiln, .flt, .ep, .pair, .life, .ckp, .links, .out]
    s (State.invalidateAll s) := by
  unfold State.invalidateAll
  try dsimp only
  repeat' first
    | with_reducible exact keeps_refl _ | with_reducible assumption
    | ((with_reducible apply keeps_step); (with_reducible apply keeps_poisonAgent); rfl)
    | ((with_reducible apply keeps_step); (with_reducible apply keeps_resolveLost); rfl)
    | ((with_reducible apply keeps_step); (with_reducible apply keeps_advance); rfl)
    | with_reducible apply keeps_foldl | intro _ _ _ | split
    | ((with_reducible apply keeps_step); (with_reducible apply upd_dir_home_back_kiln_pair); rfl)

theorem sound_discardE (s : State) (hs : s.Sound q) : (State.discardE s).Sound q := by
  unfold State.discardE
  refine sound_foldl (fun s i h => sound_modShelf _ _ _ h) _ _ (sound_arr hs fun h => ?_)
  rw [wf_iff] at *
  exact ⟨h.1, h.2.1, twf_filter _ h.2.2.1, h.2.2.2⟩

theorem keeps_discardE (s : State) : Keeps [.shelves, .arr, .back] s (State.discardE s) := by
  unfold State.discardE
  try dsimp only
  repeat' first
    | with_reducible exact keeps_refl _ | with_reducible assumption
    | ((with_reducible apply keeps_step); (with_reducible apply keeps_modShelf); rfl)
    | with_reducible apply keeps_foldl | intro _ _ _ | split
    | ((with_reducible apply keeps_step); (with_reducible apply upd_arr_back); rfl)

theorem sound_dropRanges (s : State) (hs : s.Sound q) : (State.dropRanges s).Sound q := by
  unfold State.dropRanges
  try dsimp only
  repeat' first
    | with_reducible assumption | with_reducible apply sound_modCtx | with_reducible apply sound_foldl | intro _ _ _
    | split | with_reducible apply sound_mk

theorem keeps_dropRanges (s : State) : Keeps [.cmds, .ranges] s (State.dropRanges s) := by
  unfold State.dropRanges
  try dsimp only
  repeat' first
    | with_reducible exact keeps_refl _ | with_reducible assumption
    | ((with_reducible apply keeps_step); (with_reducible apply keeps_modCtx); rfl) | with_reducible apply keeps_foldl
    | intro _ _ _ | split | ((with_reducible apply keeps_step); (with_reducible apply upd_ranges); rfl)

theorem sound_restartCtx (s : State) (c : Nat) (hs : s.Sound q) : (State.restartCtx s c).Sound q := by
  unfold State.restartCtx
  try dsimp only
  repeat' first
    | with_reducible assumption | with_reducible apply sound_closeCtx | with_reducible apply sound_endCtx
    | with_reducible apply sound_modCtx | with_reducible apply sound_batchResults | split

theorem keeps_restartCtx (s : State) (c : Nat) : Keeps
    [.free, .evt, .shelves, .arr, .home, .rings, .cmds, .tly, .cone, .pmu, .kiln, .pair, .ckp, .links, .out] s
    (State.restartCtx s c) := by
  unfold State.restartCtx
  try dsimp only
  repeat' first
    | with_reducible exact keeps_refl _ | with_reducible assumption
    | ((with_reducible apply keeps_step); (with_reducible apply keeps_closeCtx); rfl)
    | ((with_reducible apply keeps_step); (with_reducible apply keeps_endCtx); rfl)
    | ((with_reducible apply keeps_step); (with_reducible apply keeps_modCtx); rfl)
    | ((with_reducible apply keeps_step); (with_reducible apply keeps_batchResults); rfl) | split

theorem sound_restart (s : State) (hs : s.Sound q) : (State.restart s).Sound q := by
  unfold State.restart
  try dsimp only
  repeat' first
    | with_reducible assumption | with_reducible apply sound_glazeDrop | with_reducible apply sound_dropRanges
    | with_reducible apply sound_restartCtx | with_reducible apply sound_fwHistory
    | with_reducible apply sound_releaseHeld | with_reducible apply sound_foldl | intro _ _ _ | split
    | with_reducible apply sound_mk

theorem keeps_restart (s : State) : Keeps
    [.free, .evt, .glaze, .shelves, .arr, .home, .rings, .cmds, .ranges, .tly, .cone, .pmu, .kiln, .flt, .ep, .pair, .fw, .life, .ckp, .links, .out]
    s (State.restart s) := by
  unfold State.restart
  try dsimp only
  repeat' first
    | with_reducible exact keeps_refl _ | with_reducible assumption
    | ((with_reducible apply keeps_step); (with_reducible apply keeps_glazeDrop); rfl)
    | ((with_reducible apply keeps_step); (with_reducible apply keeps_dropRanges); rfl)
    | ((with_reducible apply keeps_step); (with_reducible apply keeps_restartCtx); rfl)
    | ((with_reducible apply keeps_step); (with_reducible apply keeps_fwHistory); rfl)
    | ((with_reducible apply keeps_step); (with_reducible apply keeps_releaseHeld); rfl)
    | with_reducible apply keeps_foldl | intro _ _ _ | split
    | ((with_reducible apply keeps_step); (with_reducible apply upd_cmds_flt_ep_fw); rfl)

theorem sound_quenchEnter (s : State) (n : Nat) (hs : s.Sound q) : (State.quenchEnter s n).Sound q := by
  unfold State.quenchEnter
  try dsimp only
  repeat' first
    | with_reducible assumption | with_reducible apply sound_crackAll | with_reducible apply sound_invalidateAll
    | with_reducible apply sound_discardE | with_reducible apply sound_replayStart | with_reducible apply sound_repair
    | with_reducible apply sound_restart | with_reducible apply sound_foldl | intro _ _ _ | split
    | with_reducible apply sound_mk

theorem keeps_quenchEnter (s : State) (n : Nat) : Keeps
    [.free, .evt, .glaze, .agents, .shelves, .arr, .dir, .home, .back, .rings, .cmds, .ranges, .tly, .cone, .pmu, .kiln, .flt, .ep, .pair, .fw, .life, .ckp, .links, .out]
    s (State.quenchEnter s n) := by
  unfold State.quenchEnter
  try dsimp only
  repeat' first
    | with_reducible exact keeps_refl _ | with_reducible assumption
    | ((with_reducible apply keeps_step); (with_reducible apply keeps_crackAll); rfl)
    | ((with_reducible apply keeps_step); (with_reducible apply keeps_invalidateAll); rfl)
    | ((with_reducible apply keeps_step); (with_reducible apply keeps_discardE); rfl)
    | ((with_reducible apply keeps_step); (with_reducible apply keeps_replayStart); rfl)
    | ((with_reducible apply keeps_step); (with_reducible apply keeps_repair); rfl)
    | ((with_reducible apply keeps_step); (with_reducible apply keeps_restart); rfl)
    | with_reducible apply keeps_foldl | intro _ _ _ | split
    | ((with_reducible apply keeps_step); (with_reducible apply upd_ep_out); rfl)

theorem sound_quenchEnd (s : State) (hs : s.Sound q) : (State.quenchEnd s).Sound q := by
  unfold State.quenchEnd
  try dsimp only
  repeat' first
    | with_reducible assumption | with_reducible apply sound_event | with_reducible apply sound_sweepLines
    | with_reducible apply sound_retryChannels | with_reducible apply sound_releaseHeld
    | with_reducible apply sound_runLater | split | with_reducible apply sound_mk

theorem keeps_quenchEnd (s : State) : Keeps
    [.free, .evt, .shelves, .arr, .home, .back, .rings, .cmds, .tly, .cone, .pmu, .kiln, .ep, .pair, .ckp, .links, .out]
    s (State.quenchEnd s) := by
  unfold State.quenchEnd
  try dsimp only
  repeat' first
    | with_reducible exact keeps_refl _ | with_reducible assumption
    | ((with_reducible apply keeps_step); (with_reducible apply keeps_event); rfl)
    | ((with_reducible apply keeps_step); (with_reducible apply keeps_sweepLines); rfl)
    | ((with_reducible apply keeps_step); (with_reducible apply keeps_retryChannels); rfl)
    | ((with_reducible apply keeps_step); (with_reducible apply keeps_releaseHeld); rfl)
    | ((with_reducible apply keeps_step); (with_reducible apply keeps_runLater); rfl) | split
    | ((with_reducible apply keeps_step); (with_reducible apply upd_ep_out); rfl)

theorem sound_replayAck (s : State) (n : Nat) (hs : s.Sound q) : (State.replayAck s n).Sound q := by
  unfold State.replayAck
  try dsimp only
  repeat' first
    | with_reducible assumption | with_reducible apply sound_modReplay | with_reducible apply sound_replayNext | split

theorem keeps_replayAck (s : State) (n : Nat) : Keeps [.back, .ep] s (State.replayAck s n) := by
  unfold State.replayAck
  try dsimp only
  repeat' first
    | with_reducible exact keeps_refl _ | with_reducible assumption
    | ((with_reducible apply keeps_step); (with_reducible apply keeps_modReplay); rfl)
    | ((with_reducible apply keeps_step); (with_reducible apply keeps_replayNext); rfl) | split

theorem sound_cutBegin (s : State) (hs : s.Sound q) : (State.cutBegin s).Sound q := by
  unfold State.cutBegin
  try dsimp only
  repeat' first
    | with_reducible assumption | with_reducible apply sound_modCtx | with_reducible apply sound_trigger
    | with_reducible apply sound_foldl | intro _ _ _ | split | with_reducible apply sound_mk

theorem keeps_cutBegin (s : State) : Keeps [.free, .cmds, .cone, .ep, .ckp, .out] s (State.cutBegin s) := by
  unfold State.cutBegin
  try dsimp only
  repeat' first
    | with_reducible exact keeps_refl _ | with_reducible assumption
    | ((with_reducible apply keeps_step); (with_reducible apply keeps_modCtx); rfl)
    | ((with_reducible apply keeps_step); (with_reducible apply keeps_trigger); rfl)
    | with_reducible apply keeps_foldl | intro _ _ _ | split
    | ((with_reducible apply keeps_step); (with_reducible apply upd_ep_out); rfl)

theorem sound_replayHeader (s : State) (n : Nat) (l : Line) (ue : Bool) (hs : s.Sound q) :
    (State.replayHeader s n l ue).Sound q := by
  unfold State.replayHeader
  try dsimp only
  repeat' first
    | with_reducible assumption | with_reducible apply sound_replayNext | with_reducible apply sound_modReplay
    | with_reducible apply sound_replayBad | split

theorem keeps_replayHeader (s : State) (n : Nat) (l : Line) (ue : Bool) : Keeps [.evt, .back, .ep] s
    (State.replayHeader s n l ue) := by
  unfold State.replayHeader
  try dsimp only
  repeat' first
    | with_reducible exact keeps_refl _ | with_reducible assumption
    | ((with_reducible apply keeps_step); (with_reducible apply keeps_replayNext); rfl)
    | ((with_reducible apply keeps_step); (with_reducible apply keeps_modReplay); rfl)
    | ((with_reducible apply keeps_step); (with_reducible apply keeps_replayBad); rfl) | split

end Sys2Proof.Machine
end

