-- ==== Sys2Proof/Laws/QuenchRows.lean ====
section
/-! SUPPORT. What the operations of Machine/QuenchRows.lean do to the whole state, two lemmas per operation: `sound_` (it keeps the
queue of waiting commands and the invariant of Safety.lean) and `keeps_` (the fields that it may change). -/
namespace Sys2Proof.Machine

variable {q : List Instr}

theorem sound_stepGo (s : State) (hs : s.Sound q) : (State.stepGo s).Sound q := by
  unfold State.stepGo
  try dsimp only
  repeat' first
    | with_reducible assumption | with_reducible apply sound_quenchEnter | with_reducible apply sound_cutEnter | split

theorem keeps_stepGo (s : State) : Keeps
    [.free, .evt, .glaze, .agents, .shelves, .arr, .dir, .home, .back, .rings, .cmds, .ranges, .tly, .cone, .pmu, .kiln, .flt, .ep, .pair, .fw, .life, .ckp, .links, .out]
    s (State.stepGo s) := by
  unfold State.stepGo
  try dsimp only
  repeat' first
    | with_reducible exact keeps_refl _ | with_reducible assumption
    | ((with_reducible apply keeps_step); (with_reducible apply keeps_quenchEnter); rfl)
    | ((with_reducible apply keeps_step); (with_reducible apply keeps_cutEnter); rfl) | split

theorem sound_goDue (s : State) (hs : s.Sound q) : (State.goDue s).Sound q := by
  unfold State.goDue
  try dsimp only
  repeat' first
    | with_reducible assumption | with_reducible apply sound_stepGo | split | with_reducible apply sound_mk

theorem keeps_goDue (s : State) : Keeps
    [.free, .evt, .glaze, .agents, .shelves, .arr, .dir, .home, .back, .rings, .cmds, .ranges, .tly, .cone, .pmu, .kiln, .flt, .ep, .pair, .fw, .life, .ckp, .links, .out]
    s (State.goDue s) := by
  unfold State.goDue
  try dsimp only
  repeat' first
    | with_reducible exact keeps_refl _ | with_reducible assumption
    | ((with_reducible apply keeps_step); (with_reducible apply keeps_stepGo); rfl) | split
    | ((with_reducible apply keeps_step); (with_reducible apply upd_ep); rfl)

theorem sound_quenchForce (s : State) (hs : s.Sound q) : (State.quenchForce s).Sound q := by
  unfold State.quenchForce
  try dsimp only
  repeat' first
    | with_reducible assumption | with_reducible apply sound_trigger | split

theorem keeps_quenchForce (s : State) : Keeps [.free, .cone, .ep, .ckp, .out] s (State.quenchForce s) := by
  unfold State.quenchForce
  try dsimp only
  repeat' first
    | with_reducible exact keeps_refl _ | with_reducible assumption
    | ((with_reducible apply keeps_step); (with_reducible apply keeps_trigger); rfl) | split

theorem sound_pulse (s : State) (hs : s.Sound q) : (State.pulse s).Sound q := by
  unfold State.pulse
  try dsimp only
  repeat' first
    | with_reducible assumption | split | with_reducible apply sound_mk

theorem keeps_pulse (s : State) : Keeps [.out] s (State.pulse s) := by
  unfold State.pulse
  try dsimp only
  repeat' first
    | with_reducible exact keeps_refl _ | with_reducible assumption | split
    | ((with_reducible apply keeps_step); (with_reducible apply upd_out); rfl)

theorem sound_quenchAccept (s : State) (hs : s.Sound q) : (State.quenchAccept s).Sound q := by
  unfold State.quenchAccept
  try dsimp only
  repeat' first
    | with_reducible assumption | split | with_reducible apply sound_mk

theorem keeps_quenchAccept (s : State) : Keeps [.ep] s (State.quenchAccept s) := by
  unfold State.quenchAccept
  try dsimp only
  repeat' first
    | with_reducible exact keeps_refl _ | with_reducible assumption | split
    | ((with_reducible apply keeps_step); (with_reducible apply upd_ep); rfl)

end Sys2Proof.Machine
end

