-- ==== Sys2Proof/Laws/ClockRows.lean ====
section
/-! SUPPORT. What the operations of Machine/ClockRows.lean do to the whole state, two lemmas per operation: `sound_` (it keeps the
queue of waiting commands and the invariant of Safety.lean) and `keeps_` (the fields that it may change). -/
namespace Sys2Proof.Machine

variable {q : List Instr}

theorem sound_vreq (s : State) (h : Half) (v : BitVec 2) (hs : s.Sound q) : (State.vreq s h v).Sound q := by
  unfold State.vreq
  try dsimp only
  repeat' first
    | with_reducible assumption | split | with_reducible apply sound_mk

theorem keeps_vreq (s : State) (h : Half) (v : BitVec 2) : Keeps [.out] s (State.vreq s h v) := by
  unfold State.vreq
  try dsimp only
  repeat' first
    | with_reducible exact keeps_refl _ | with_reducible assumption | split
    | ((with_reducible apply keeps_step); (with_reducible apply upd_out); rfl)

theorem sound_modHalf (s : State) (h : Half) (f : HalfClk → HalfClk) (hs : s.Sound q) :
    (State.modHalf s h f).Sound q := by
  unfold State.modHalf
  try dsimp only
  repeat' first
    | with_reducible assumption | with_reducible apply sound_setHalf | split

theorem keeps_modHalf (s : State) (h : Half) (f : HalfClk → HalfClk) : Keeps [.ckp] s (State.modHalf s h f) := by
  unfold State.modHalf
  try dsimp only
  repeat' first
    | with_reducible exact keeps_refl _ | with_reducible assumption
    | ((with_reducible apply keeps_step); (with_reducible apply keeps_setHalf); rfl) | split

theorem sound_wakeStart (s : State) (h : Half) (hs : s.Sound q) : (State.wakeStart s h).Sound q := by
  unfold State.wakeStart
  try dsimp only
  repeat' first
    | with_reducible assumption | with_reducible apply sound_vreq | with_reducible apply sound_modHalf | split
    | with_reducible apply sound_mk | ((with_reducible apply sound_ckp); rotate_left; rfl)

theorem keeps_wakeStart (s : State) (h : Half) : Keeps [.ckp, .out] s (State.wakeStart s h) := by
  unfold State.wakeStart
  try dsimp only
  repeat' first
    | with_reducible exact keeps_refl _ | with_reducible assumption
    | ((with_reducible apply keeps_step); (with_reducible apply keeps_vreq); rfl)
    | ((with_reducible apply keeps_step); (with_reducible apply keeps_modHalf); rfl) | split
    | ((with_reducible apply keeps_step); (with_reducible apply upd_ckp); rfl)

theorem sound_recoverHalf (s : State) (h : Half) (hs : s.Sound q) : (State.recoverHalf s h).Sound q := by
  unfold State.recoverHalf
  try dsimp only
  repeat' first
    | with_reducible assumption | with_reducible apply sound_modHalf | with_reducible apply sound_quenchForce
    | with_reducible apply sound_vreq | with_reducible apply sound_dropSlp | split

theorem keeps_recoverHalf (s : State) (h : Half) : Keeps [.free, .cone, .ep, .ckp, .out] s
    (State.recoverHalf s h) := by
  unfold State.recoverHalf
  try dsimp only
  repeat' first
    | with_reducible exact keeps_refl _ | with_reducible assumption
    | ((with_reducible apply keeps_step); (with_reducible apply keeps_modHalf); rfl)
    | ((with_reducible apply keeps_step); (with_reducible apply keeps_quenchForce); rfl)
    | ((with_reducible apply keeps_step); (with_reducible apply keeps_vreq); rfl)
    | ((with_reducible apply keeps_step); (with_reducible apply keeps_dropSlp); rfl) | split

theorem sound_backingDead (s : State) (h : Half) (hs : s.Sound q) : (State.backingDead s h).Sound q := by
  unfold State.backingDead
  try dsimp only
  repeat' first
    | with_reducible assumption | with_reducible apply sound_event | with_reducible apply sound_foldl | intro _ _ _
    | split | with_reducible apply sound_mk

theorem keeps_backingDead (s : State) (h : Half) : Keeps [.evt, .flt] s (State.backingDead s h) := by
  unfold State.backingDead
  try dsimp only
  repeat' first
    | with_reducible exact keeps_refl _ | with_reducible assumption
    | ((with_reducible apply keeps_step); (with_reducible apply keeps_event); rfl) | with_reducible apply keeps_foldl
    | intro _ _ _ | split | ((with_reducible apply keeps_step); (with_reducible apply upd_flt); rfl)

theorem sound_recoverDue (s : State) (h : Half) (hs : s.Sound q) : (State.recoverDue s h).Sound q := by
  unfold State.recoverDue
  try dsimp only
  repeat' first
    | with_reducible assumption | with_reducible apply sound_modHalf | with_reducible apply sound_recoverHalf | split

theorem keeps_recoverDue (s : State) (h : Half) : Keeps [.free, .cone, .ep, .ckp, .out] s (State.recoverDue s h) := by
  unfold State.recoverDue
  try dsimp only
  repeat' first
    | with_reducible exact keeps_refl _ | with_reducible assumption
    | ((with_reducible apply keeps_step); (with_reducible apply keeps_modHalf); rfl)
    | ((with_reducible apply keeps_step); (with_reducible apply keeps_recoverHalf); rfl) | split

theorem sound_clkenWrite (s : State) (second : Bool) (v : Word) (hs : s.Sound q) :
    (State.clkenWrite s second v).Sound q := by
  have hl := hs.2.2.1
  simp only [Clocks.locked, Bool.and_eq_true, beq_iff_eq] at hl
  have h : ∀ e0 e1, s.ckp.lock0 &&& ~~~e0 = 0 → s.ckp.lock1 &&& ~~~e1 = 0 → (s.setEnables e0 e1).Sound q :=
    fun e0 e1 h0 h1 => sound_setEnables s e0 e1 hs.1 hs.2.1 hs.2.2.2 h0 h1
  cases second
  · unfold State.clkenWrite
    simp only [Bool.false_eq_true, if_false]
    split
    · exact sound_event _ _ _ _ (h _ _ (lock_or _ _) hl.2)
    · exact h _ _ (lock_or _ _) hl.2
  · unfold State.clkenWrite
    simp only [if_true]
    split
    · exact sound_event _ _ _ _ (h _ _ hl.1 (lock_or _ _))
    · exact h _ _ hl.1 (lock_or _ _)

theorem keeps_clkenWrite (s : State) (second : Bool) (v : Word) : Keeps [.evt, .pair, .ckp, .links] s
    (State.clkenWrite s second v) := by
  unfold State.clkenWrite
  try dsimp only
  repeat' first
    | with_reducible exact keeps_refl _ | with_reducible assumption
    | ((with_reducible apply keeps_step); (with_reducible apply keeps_setEnables); rfl)
    | ((with_reducible apply keeps_step); (with_reducible apply keeps_event); rfl) | split

theorem sound_askDone (s : State) (h : Half) (hs : s.Sound q) : (State.askDone s h).Sound q := by
  unfold State.askDone
  try dsimp only
  repeat' first
    | with_reducible assumption | with_reducible apply sound_setHalf | split

theorem keeps_askDone (s : State) (h : Half) : Keeps [.ckp] s (State.askDone s h) := by
  unfold State.askDone
  try dsimp only
  repeat' first
    | with_reducible exact keeps_refl _ | with_reducible assumption
    | ((with_reducible apply keeps_step); (with_reducible apply keeps_setHalf); rfl) | split

theorem sound_coolEnd (s : State) (hs : s.Sound q) : (State.coolEnd s).Sound q := by
  unfold State.coolEnd
  try dsimp only
  repeat' first
    | with_reducible assumption | with_reducible apply sound_event | split | with_reducible apply sound_mk
    | ((with_reducible apply sound_ckp); rotate_left; rfl)

theorem keeps_coolEnd (s : State) : Keeps [.evt, .ckp] s (State.coolEnd s) := by
  unfold State.coolEnd
  try dsimp only
  repeat' first
    | with_reducible exact keeps_refl _ | with_reducible assumption
    | ((with_reducible apply keeps_step); (with_reducible apply keeps_event); rfl) | split
    | ((with_reducible apply keeps_step); (with_reducible apply upd_ckp); rfl)

theorem sound_coolAssert (s : State) (hs : s.Sound q) : (State.coolAssert s).Sound q := by
  unfold State.coolAssert
  try dsimp only
  repeat' first
    | with_reducible assumption | with_reducible apply sound_spoilWindows | with_reducible apply sound_modHalf
    | with_reducible apply sound_event | with_reducible apply sound_dropSlp | split | with_reducible apply sound_mk
    | ((with_reducible apply sound_ckp); rotate_left; rfl)

theorem keeps_coolAssert (s : State) : Keeps [.evt, .cone, .ckp, .out] s (State.coolAssert s) := by
  unfold State.coolAssert
  try dsimp only
  repeat' first
    | with_reducible exact keeps_refl _ | with_reducible assumption
    | ((with_reducible apply keeps_step); (with_reducible apply keeps_spoilWindows); rfl)
    | ((with_reducible apply keeps_step); (with_reducible apply keeps_modHalf); rfl)
    | ((with_reducible apply keeps_step); (with_reducible apply keeps_event); rfl)
    | ((with_reducible apply keeps_step); (with_reducible apply keeps_dropSlp); rfl) | split
    | ((with_reducible apply keeps_step); (with_reducible apply upd_ckp); rfl)

theorem sound_pllreq (s : State) (h : Half) (v : BitVec 2) (hs : s.Sound q) : (State.pllreq s h v).Sound q := by
  unfold State.pllreq
  try dsimp only
  repeat' first
    | with_reducible assumption | split | with_reducible apply sound_mk

theorem keeps_pllreq (s : State) (h : Half) (v : BitVec 2) : Keeps [.out] s (State.pllreq s h v) := by
  unfold State.pllreq
  try dsimp only
  repeat' first
    | with_reducible exact keeps_refl _ | with_reducible assumption | split
    | ((with_reducible apply keeps_step); (with_reducible apply upd_out); rfl)

theorem sound_muxSelect (s : State) (h : Half) (sel : Bool) (hs : s.Sound q) : (State.muxSelect s h sel).Sound q := by
  unfold State.muxSelect
  try dsimp only
  repeat' first
    | with_reducible assumption | with_reducible apply sound_event | with_reducible apply sound_modHalf | split

theorem keeps_muxSelect (s : State) (h : Half) (sel : Bool) : Keeps [.evt, .ckp] s (State.muxSelect s h sel) := by
  unfold State.muxSelect
  try dsimp only
  repeat' first
    | with_reducible exact keeps_refl _ | with_reducible assumption
    | ((with_reducible apply keeps_step); (with_reducible apply keeps_event); rfl)
    | ((with_reducible apply keeps_step); (with_reducible apply keeps_modHalf); rfl) | split

theorem sound_shelfAwake (s : State) (sh : Nat) (hs : s.Sound q) : (State.shelfAwake s sh).Sound q := by
  unfold State.shelfAwake
  try dsimp only
  repeat' first
    | with_reducible assumption | with_reducible apply sound_count | split | with_reducible apply sound_mk
    | ((with_reducible apply sound_ckp); rotate_left; rfl)

theorem keeps_shelfAwake (s : State) (sh : Nat) : Keeps [.free, .pmu, .ckp] s (State.shelfAwake s sh) := by
  unfold State.shelfAwake
  try dsimp only
  repeat' first
    | with_reducible exact keeps_refl _ | with_reducible assumption
    | ((with_reducible apply keeps_step); (with_reducible apply keeps_count); rfl) | split
    | ((with_reducible apply keeps_step); (with_reducible apply upd_ckp); rfl)

theorem sound_halfAwake (s : State) (half : Half) (hs : s.Sound q) : (State.halfAwake s half).Sound q := by
  unfold State.halfAwake
  try dsimp only
  repeat' first
    | with_reducible assumption | with_reducible apply sound_modHalf | with_reducible apply sound_stayAwake
    | with_reducible apply sound_shelfAwake | with_reducible apply sound_releaseHeld
    | with_reducible apply sound_releaseBridge | with_reducible apply sound_farPump | with_reducible apply sound_goDue
    | with_reducible apply sound_coolEnd | with_reducible apply sound_foldl | intro _ _ _ | split

theorem keeps_halfAwake (s : State) (half : Half) : Keeps
    [.free, .evt, .glaze, .agents, .shelves, .arr, .dir, .home, .back, .rings, .cmds, .ranges, .tly, .cone, .pmu, .kiln, .flt, .ep, .pair, .fw, .life, .ckp, .links, .out]
    s (State.halfAwake s half) := by
  unfold State.halfAwake
  try dsimp only
  repeat' first
    | with_reducible exact keeps_refl _ | with_reducible assumption
    | ((with_reducible apply keeps_step); (with_reducible apply keeps_modHalf); rfl)
    | ((with_reducible apply keeps_step); (with_reducible apply keeps_stayAwake); rfl)
    | ((with_reducible apply keeps_step); (with_reducible apply keeps_shelfAwake); rfl)
    | ((with_reducible apply keeps_step); (with_reducible apply keeps_releaseHeld); rfl)
    | ((with_reducible apply keeps_step); (with_reducible apply keeps_releaseBridge); rfl)
    | ((with_reducible apply keeps_step); (with_reducible apply keeps_farPump); rfl)
    | ((with_reducible apply keeps_step); (with_reducible apply keeps_goDue); rfl)
    | ((with_reducible apply keeps_step); (with_reducible apply keeps_coolEnd); rfl)
    | with_reducible apply keeps_foldl | intro _ _ _ | split

end Sys2Proof.Machine
end

