-- ==== Sys2Proof/Laws/FwOps.lean ====
section
/-! SUPPORT. What the operations of Machine/FwOps.lean do to the whole state, two lemmas per operation: `sound_` (it keeps the
queue of waiting commands and the invariant of Safety.lean) and `keeps_` (the fields that it may change). -/
namespace Sys2Proof.Machine

variable {q : List Instr}

theorem sound_fwDone (s : State) (c : Nat) (hs : s.Sound q) : (State.fwDone s c).Sound q := by
  unfold State.fwDone
  try dsimp only
  repeat' first
    | with_reducible assumption | split | with_reducible apply sound_mk

theorem keeps_fwDone (s : State) (c : Nat) : Keeps [.fw] s (State.fwDone s c) := by
  unfold State.fwDone
  try dsimp only
  repeat' first
    | with_reducible exact keeps_refl _ | with_reducible assumption | split
    | ((with_reducible apply keeps_step); (with_reducible apply upd_fw); rfl)

theorem sound_activateEnd (s : State) (c : Nat) (st : BitVec 8) (detail : BitVec 64) (hs : s.Sound q) :
    (State.activateEnd s c st detail).Sound q := by
  unfold State.activateEnd
  try dsimp only
  repeat' first
    | with_reducible assumption | with_reducible apply sound_fwDone | with_reducible apply sound_endCtx | split
    | with_reducible apply sound_mk

theorem keeps_activateEnd (s : State) (c : Nat) (st : BitVec 8) (detail : BitVec 64) : Keeps [.cmds, .fw] s
    (State.activateEnd s c st detail) := by
  unfold State.activateEnd
  try dsimp only
  repeat' first
    | with_reducible exact keeps_refl _ | with_reducible assumption
    | ((with_reducible apply keeps_step); (with_reducible apply keeps_fwDone); rfl)
    | ((with_reducible apply keeps_step); (with_reducible apply keeps_endCtx); rfl) | split
    | ((with_reducible apply keeps_step); (with_reducible apply upd_fw); rfl)

theorem sound_activateStart (s : State) (c : Nat) (hs : s.Sound q) : (State.activateStart s c).Sound q := by
  unfold State.activateStart
  try dsimp only
  repeat' first
    | with_reducible assumption | with_reducible apply sound_activateEnd | with_reducible apply sound_modCtx | split
    | with_reducible apply sound_mk

theorem keeps_activateStart (s : State) (c : Nat) : Keeps [.cmds, .fw] s (State.activateStart s c) := by
  unfold State.activateStart
  try dsimp only
  repeat' first
    | with_reducible exact keeps_refl _ | with_reducible assumption
    | ((with_reducible apply keeps_step); (with_reducible apply keeps_activateEnd); rfl)
    | ((with_reducible apply keeps_step); (with_reducible apply keeps_modCtx); rfl) | split
    | ((with_reducible apply keeps_step); (with_reducible apply upd_fw); rfl)

theorem sound_flipShelf (s : State) (sh : Nat) (hs : s.Sound q) : (State.flipShelf s sh).Sound q := by
  unfold State.flipShelf
  try dsimp only
  repeat' first
    | with_reducible assumption | with_reducible apply sound_modShelf | split

theorem keeps_flipShelf (s : State) (sh : Nat) : Keeps [.shelves] s (State.flipShelf s sh) := by
  unfold State.flipShelf
  try dsimp only
  repeat' first
    | with_reducible exact keeps_refl _ | with_reducible assumption
    | ((with_reducible apply keeps_step); (with_reducible apply keeps_modShelf); rfl) | split

theorem sound_trailStep (s : State) (hs : s.Sound q) : (State.trailStep s).Sound q := by
  unfold State.trailStep
  try dsimp only
  repeat' first
    | with_reducible assumption | split | with_reducible apply sound_mk

theorem keeps_trailStep (s : State) : Keeps [.fw] s (State.trailStep s) := by
  unfold State.trailStep
  try dsimp only
  repeat' first
    | with_reducible exact keeps_refl _ | with_reducible assumption | split
    | ((with_reducible apply keeps_step); (with_reducible apply upd_fw); rfl)

theorem sound_trailEngines (s : State) (hs : s.Sound q) : (State.trailEngines s).Sound q := by
  unfold State.trailEngines
  try dsimp only
  repeat' first
    | with_reducible assumption | split | with_reducible apply sound_mk

theorem keeps_trailEngines (s : State) : Keeps [.fw] s (State.trailEngines s) := by
  unfold State.trailEngines
  try dsimp only
  repeat' first
    | with_reducible exact keeps_refl _ | with_reducible assumption | split
    | ((with_reducible apply keeps_step); (with_reducible apply upd_fw); rfl)

theorem sound_flipTry (s : State) (sh : Nat) (hs : s.Sound q) : (State.flipTry s sh).Sound q := by
  unfold State.flipTry
  try dsimp only
  repeat' first
    | with_reducible assumption | with_reducible apply sound_flipShelf | with_reducible apply sound_modShelf | split

theorem keeps_flipTry (s : State) (sh : Nat) : Keeps [.shelves] s (State.flipTry s sh) := by
  unfold State.flipTry
  try dsimp only
  repeat' first
    | with_reducible exact keeps_refl _ | with_reducible assumption
    | ((with_reducible apply keeps_step); (with_reducible apply keeps_flipShelf); rfl)
    | ((with_reducible apply keeps_step); (with_reducible apply keeps_modShelf); rfl) | split

theorem sound_flipOn (s : State) (hs : s.Sound q) : (State.flipOn s).Sound q := by
  generalize hf : @State.flipOn = f
  delta State.flipOn at hf
  subst hf
  dsimp -zeta -iota only
  repeat' first
    | with_reducible assumption | with_reducible apply sound_id | with_reducible apply sound_flipTry
    | with_reducible apply sound_foldl | with_reducible apply sound_foldlSnd | with_reducible apply sound_foldlFst
    | intro _ _ _ | intro _ _ | intro _ | split | dsimp only | with_reducible apply sound_mk
    | ((with_reducible apply sound_ckp); rotate_left; rfl) | ((with_reducible apply sound_evt); rotate_left; exact id)

theorem keeps_flipOn (s : State) : Keeps [.shelves, .fw] s (State.flipOn s) := by
  generalize hf : @State.flipOn = f
  delta State.flipOn at hf
  subst hf
  dsimp -zeta -iota only
  repeat' first
    | with_reducible exact keeps_refl _ | with_reducible assumption | with_reducible apply keeps_id
    | ((with_reducible apply keeps_step); (with_reducible apply keeps_flipTry); rfl)
    | with_reducible apply keeps_foldl | with_reducible apply keeps_foldlSnd | with_reducible apply keeps_foldlFst
    | intro _ _ _ | intro _ _ | intro _ | split | dsimp only
    | ((with_reducible apply keeps_step); (with_reducible apply upd_fw); rfl)

theorem sound_burnNext (s : State) (hs : s.Sound q) : (State.burnNext s).Sound q := by
  unfold State.burnNext
  try dsimp only
  repeat' first
    | with_reducible assumption | split | with_reducible apply sound_mk

theorem keeps_burnNext (s : State) : Keeps [.out] s (State.burnNext s) := by
  unfold State.burnNext
  try dsimp only
  repeat' first
    | with_reducible exact keeps_refl _ | with_reducible assumption | split
    | ((with_reducible apply keeps_step); (with_reducible apply upd_out); rfl)

theorem sound_flipDone (s : State) (hs : s.Sound q) : (State.flipDone s).Sound q := by
  unfold State.flipDone
  try dsimp only
  repeat' first
    | with_reducible assumption | with_reducible apply sound_fwHistory | with_reducible apply sound_fwDone
    | with_reducible apply sound_endCtx | with_reducible apply sound_modShelf | with_reducible apply sound_burnNext
    | with_reducible apply sound_runLater | with_reducible apply sound_foldl | intro _ _ _ | split
    | with_reducible apply sound_mk

theorem keeps_flipDone (s : State) : Keeps [.free, .shelves, .cmds, .cone, .ep, .fw, .life, .ckp, .out] s
    (State.flipDone s) := by
  unfold State.flipDone
  try dsimp only
  repeat' first
    | with_reducible exact keeps_refl _ | with_reducible assumption
    | ((with_reducible apply keeps_step); (with_reducible apply keeps_fwHistory); rfl)
    | ((with_reducible apply keeps_step); (with_reducible apply keeps_fwDone); rfl)
    | ((with_reducible apply keeps_step); (with_reducible apply keeps_endCtx); rfl)
    | ((with_reducible apply keeps_step); (with_reducible apply keeps_modShelf); rfl)
    | ((with_reducible apply keeps_step); (with_reducible apply keeps_burnNext); rfl)
    | ((with_reducible apply keeps_step); (with_reducible apply keeps_runLater); rfl)
    | with_reducible apply keeps_foldl | intro _ _ _ | split
    | ((with_reducible apply keeps_step); (with_reducible apply upd_fw_life); rfl)

theorem sound_flipStep (s : State) (hs : s.Sound q) : (State.flipStep s).Sound q := by
  unfold State.flipStep
  try dsimp only
  repeat' first
    | with_reducible assumption | with_reducible apply sound_flipShelf | with_reducible apply sound_flipOn
    | with_reducible apply sound_flipDone | with_reducible apply sound_foldl | intro _ _ _ | split

theorem keeps_flipStep (s : State) : Keeps [.free, .shelves, .cmds, .cone, .ep, .fw, .life, .ckp, .out] s
    (State.flipStep s) := by
  unfold State.flipStep
  try dsimp only
  repeat' first
    | with_reducible exact keeps_refl _ | with_reducible assumption
    | ((with_reducible apply keeps_step); (with_reducible apply keeps_flipShelf); rfl)
    | ((with_reducible apply keeps_step); (with_reducible apply keeps_flipOn); rfl)
    | ((with_reducible apply keeps_step); (with_reducible apply keeps_flipDone); rfl)
    | with_reducible apply keeps_foldl | intro _ _ _ | split

theorem sound_blockStart (s : State) (c : Nat) (hs : s.Sound q) : (State.blockStart s c).Sound q := by
  unfold State.blockStart
  try dsimp only
  repeat' first
    | with_reducible assumption | with_reducible apply sound_fwDone | with_reducible apply sound_endCtx
    | with_reducible apply sound_gather | with_reducible apply sound_modCtx | split

theorem keeps_blockStart (s : State) (c : Nat) : Keeps
    [.free, .evt, .shelves, .arr, .home, .rings, .cmds, .tly, .cone, .pmu, .kiln, .pair, .fw, .ckp, .links, .out]
    s (State.blockStart s c) := by
  unfold State.blockStart
  try dsimp only
  repeat' first
    | with_reducible exact keeps_refl _ | with_reducible assumption
    | ((with_reducible apply keeps_step); (with_reducible apply keeps_fwDone); rfl)
    | ((with_reducible apply keeps_step); (with_reducible apply keeps_endCtx); rfl)
    | ((with_reducible apply keeps_step); (with_reducible apply keeps_gather); rfl)
    | ((with_reducible apply keeps_step); (with_reducible apply keeps_modCtx); rfl) | split

theorem sound_stageWrite (s : State) (off : Nat) (bs : List Byte) (hs : s.Sound q) :
    (State.stageWrite s off bs).Sound q := by
  unfold State.stageWrite
  try dsimp only
  repeat' first
    | with_reducible assumption | with_reducible apply sound_foldl | intro _ _ _ | split
    | with_reducible apply sound_mk

theorem keeps_stageWrite (s : State) (off : Nat) (bs : List Byte) : Keeps [.fw] s (State.stageWrite s off bs) := by
  unfold State.stageWrite
  try dsimp only
  repeat' first
    | with_reducible exact keeps_refl _ | with_reducible assumption | with_reducible apply keeps_foldl | intro _ _ _
    | split | ((with_reducible apply keeps_step); (with_reducible apply upd_fw); rfl)

theorem sound_blockWrite (s : State) (c : Nat) (hs : s.Sound q) : (State.blockWrite s c).Sound q := by
  unfold State.blockWrite
  try dsimp only
  repeat' first
    | with_reducible assumption | with_reducible apply sound_fwDone | with_reducible apply sound_finishCtx
    | with_reducible apply sound_endCtx | with_reducible apply sound_stageWrite | split
    | with_reducible apply sound_mk

theorem keeps_blockWrite (s : State) (c : Nat) : Keeps [.cmds, .fw] s (State.blockWrite s c) := by
  unfold State.blockWrite
  try dsimp only
  repeat' first
    | with_reducible exact keeps_refl _ | with_reducible assumption
    | ((with_reducible apply keeps_step); (with_reducible apply keeps_fwDone); rfl)
    | ((with_reducible apply keeps_step); (with_reducible apply keeps_finishCtx); rfl)
    | ((with_reducible apply keeps_step); (with_reducible apply keeps_endCtx); rfl)
    | ((with_reducible apply keeps_step); (with_reducible apply keeps_stageWrite); rfl) | split
    | ((with_reducible apply keeps_step); (with_reducible apply upd_fw); rfl)

theorem sound_trailSeqs (s : State) (a : Bool) (b : Bool) (hs : s.Sound q) : (State.trailSeqs s a b).Sound q := by
  unfold State.trailSeqs
  try dsimp only
  repeat' first
    | with_reducible assumption | split | with_reducible apply sound_mk

theorem keeps_trailSeqs (s : State) (a : Bool) (b : Bool) : Keeps [.fw] s (State.trailSeqs s a b) := by
  unfold State.trailSeqs
  try dsimp only
  repeat' first
    | with_reducible exact keeps_refl _ | with_reducible assumption | split
    | ((with_reducible apply keeps_step); (with_reducible apply upd_fw); rfl)

end Sys2Proof.Machine
end

