-- ==== Sys2Proof/Laws/BootRows.lean ====
section
/-! SUPPORT. What the operations of Machine/BootRows.lean do to the whole state, two lemmas per operation: `sound_` (it keeps the
queue of waiting commands and the invariant of Safety.lean) and `keeps_` (the fields that it may change). -/
namespace Sys2Proof.Machine

variable {q : List Instr}

theorem sound_romFail (s : State) (st : BitVec 8) (hs : s.Sound q) : (State.romFail s st).Sound q := by
  unfold State.romFail
  try dsimp only
  repeat' first
    | with_reducible assumption | split | with_reducible apply sound_mk

theorem keeps_romFail (s : State) (st : BitVec 8) : Keeps [.boot] s (State.romFail s st) := by
  unfold State.romFail
  try dsimp only
  repeat' first
    | with_reducible exact keeps_refl _ | with_reducible assumption | split
    | ((with_reducible apply keeps_step); (with_reducible apply upd_boot); rfl)

theorem sound_romLoad (s : State) (img : List Byte) (hs : s.Sound q) : (State.romLoad s img).Sound q := by
  unfold State.romLoad
  try dsimp only
  repeat' first
    | with_reducible assumption | with_reducible apply sound_fwEntry | with_reducible apply sound_burnNext | split
    | with_reducible apply sound_mk

theorem keeps_romLoad (s : State) (img : List Byte) : Keeps [.boot, .fw, .life, .out] s (State.romLoad s img) := by
  generalize hf : @State.romLoad = f
  delta State.romLoad at hf
  subst hf
  dsimp -zeta -iota only
  repeat' first
    | with_reducible exact keeps_refl _ | with_reducible assumption
    | ((with_reducible apply keeps_step); (with_reducible apply keeps_fwEntry); rfl)
    | ((with_reducible apply keeps_step); (with_reducible apply keeps_burnNext); rfl) | split | dsimp only
    | ((with_reducible apply keeps_step); (with_reducible apply upd_boot_fw_life); rfl)

theorem sound_marchZero (s : State) (hs : s.Sound q) : (State.marchZero s).Sound q := by
  unfold State.marchZero
  exact sound_foldl (fun s i h => sound_modShelf _ _ _ h) _ _ (sound_arr hs fun _ => rfl)

theorem keeps_marchZero (s : State) : Keeps [.shelves, .arr, .dir] s (State.marchZero s) := by
  unfold State.marchZero
  try dsimp only
  repeat' first
    | with_reducible exact keeps_refl _ | with_reducible assumption
    | ((with_reducible apply keeps_step); (with_reducible apply keeps_modShelf); rfl)
    | with_reducible apply keeps_foldl | intro _ _ _ | split
    | ((with_reducible apply keeps_step); (with_reducible apply upd_arr_dir); rfl)

theorem sound_spareNow (s : State) (v : FaultUnit) (hs : s.Sound q) : (State.spareNow s v).2.Sound q := by
  unfold State.spareNow
  try dsimp only
  repeat' first
    | with_reducible assumption | with_reducible apply sound_event | with_reducible apply sound_retire
    | with_reducible apply sound_failover | with_reducible apply sound_spareOr | with_reducible apply sound_spareEnd
    | split

theorem keeps_spareNow (s : State) (v : FaultUnit) : Keeps
    [.free, .evt, .syb, .glaze, .shelves, .arr, .dir, .home, .back, .rings, .cmds, .ranges, .tly, .cone, .pmu, .kiln, .flt, .ep, .pair, .fw, .life, .ckp, .links, .out]
    s (State.spareNow s v).2 := by
  unfold State.spareNow
  try dsimp only
  repeat' first
    | with_reducible exact keeps_refl _ | with_reducible assumption
    | ((with_reducible apply keeps_step); (with_reducible apply keeps_event); rfl)
    | ((with_reducible apply keeps_step); (with_reducible apply keeps_retire); rfl)
    | ((with_reducible apply keeps_step); (with_reducible apply keeps_failover); rfl)
    | ((with_reducible apply keeps_step); (with_reducible apply keeps_spareOr); rfl)
    | ((with_reducible apply keeps_step); (with_reducible apply keeps_spareEnd); rfl) | split

theorem sound_spareNamed (s : State) (u : FaultUnit) (hs : s.Sound q) : (State.spareNamed s u).Sound q := by
  unfold State.spareNamed
  try dsimp only
  repeat' first
    | with_reducible assumption | with_reducible apply sound_spareNow | with_reducible apply sound_underTest | split

theorem keeps_spareNamed (s : State) (u : FaultUnit) : Keeps
    [.free, .evt, .syb, .glaze, .shelves, .arr, .dir, .home, .back, .rings, .cmds, .ranges, .tly, .cone, .pmu, .kiln, .flt, .ep, .pair, .fw, .life, .ckp, .links, .out]
    s (State.spareNamed s u) := by
  unfold State.spareNamed
  try dsimp only
  repeat' first
    | with_reducible exact keeps_refl _ | with_reducible assumption
    | ((with_reducible apply keeps_step); (with_reducible apply keeps_spareNow); rfl)
    | ((with_reducible apply keeps_step); (with_reducible apply keeps_underTest); rfl) | split

theorem sound_resetAll (s : State) (hs : s.Sound q) : (State.resetAll s).Sound q := by
  unfold State.resetAll
  dsimp only
  split
  · apply sound_coolAssert
    exact ⟨hs.1, rfl, (by decide : Clocks.locked Clocks.reset = true), rfl⟩
  · exact ⟨hs.1, rfl, (by decide : Clocks.locked Clocks.reset = true), rfl⟩

theorem sound_testFailed (s : State) (u : FaultUnit) (hs : s.Sound q) : (State.testFailed s u).Sound q := by
  unfold State.testFailed
  try dsimp only
  repeat' first
    | with_reducible assumption | with_reducible apply sound_spareNow | with_reducible apply sound_underTest
    | with_reducible apply sound_logFault | split | with_reducible apply sound_mk

theorem keeps_testFailed (s : State) (u : FaultUnit) : Keeps
    [.free, .boot, .evt, .syb, .glaze, .shelves, .arr, .dir, .home, .back, .rings, .cmds, .ranges, .tly, .cone, .pmu, .kiln, .flt, .ep, .pair, .fw, .life, .ckp, .links, .out]
    s (State.testFailed s u) := by
  unfold State.testFailed
  try dsimp only
  repeat' first
    | with_reducible exact keeps_refl _ | with_reducible assumption
    | ((with_reducible apply keeps_step); (with_reducible apply keeps_spareNow); rfl)
    | ((with_reducible apply keeps_step); (with_reducible apply keeps_underTest); rfl)
    | ((with_reducible apply keeps_step); (with_reducible apply keeps_logFault); rfl) | split
    | ((with_reducible apply keeps_step); (with_reducible apply upd_boot_life); rfl)

theorem sound_bootGo (s : State) (hs : s.Sound q) : (State.bootGo s).Sound q := by
  have hl := hs.2.2.1
  simp only [Clocks.locked, Bool.and_eq_true, beq_iff_eq] at hl
  unfold State.bootGo
  dsimp only
  split
  · exact sound_event _ _ _ _ hs
  · split
    · exact hs
    · exact sound_mk (sound_setEnables _ _ _ hs.1 hs.2.1 hs.2.2.2 hl.1 (lock_setBit _ _ _ (lock_setBit _ _ _ hl.2)))

theorem keeps_bootGo (s : State) : Keeps [.boot, .evt, .pair, .ckp, .links] s (State.bootGo s) := by
  unfold State.bootGo
  try dsimp only
  repeat' first
    | with_reducible exact keeps_refl _ | with_reducible assumption
    | ((with_reducible apply keeps_step); (with_reducible apply keeps_event); rfl)
    | ((with_reducible apply keeps_step); (with_reducible apply keeps_setEnables); rfl) | split
    | ((with_reducible apply keeps_step); (with_reducible apply upd_boot); rfl)

end Sys2Proof.Machine
end

