-- ==== Sys2Proof/Laws/KilnRows.lean ====
section
/-! SUPPORT. What the operations of Machine/KilnRows.lean do to the whole state, two lemmas per operation: `sound_` (it keeps the
queue of waiting commands and the invariant of Safety.lean) and `keeps_` (the fields that it may change). -/
namespace Sys2Proof.Machine

variable {q : List Instr}

theorem sound_peerPoison (s : State) (r : Req) (hs : s.Sound q) : (State.peerPoison s r).Sound q := by
  unfold State.peerPoison
  try dsimp only
  repeat' first
    | with_reducible assumption | with_reducible apply sound_event | with_reducible apply sound_modCtx | split

theorem keeps_peerPoison (s : State) (r : Req) : Keeps [.evt, .cmds] s (State.peerPoison s r) := by
  unfold State.peerPoison
  try dsimp only
  repeat' first
    | with_reducible exact keeps_refl _ | with_reducible assumption
    | ((with_reducible apply keeps_step); (with_reducible apply keeps_event); rfl)
    | ((with_reducible apply keeps_step); (with_reducible apply keeps_modCtx); rfl) | split

theorem sound_peerOn (s : State) (n : Nat) (hs : s.Sound q) : (State.peerOn s n).Sound q := by
  unfold State.peerOn
  try dsimp only
  repeat' first
    | with_reducible assumption | split | with_reducible apply sound_mk

theorem keeps_peerOn (s : State) (n : Nat) : Keeps [.kiln] s (State.peerOn s n) := by
  unfold State.peerOn
  try dsimp only
  repeat' first
    | with_reducible exact keeps_refl _ | with_reducible assumption | split
    | ((with_reducible apply keeps_step); (with_reducible apply upd_kiln); rfl)

end Sys2Proof.Machine
end

