-- ==== Sys2Proof/Laws/PairLink.lean ====
section
/-! SUPPORT. What the operations of Machine/PairLink.lean do to the whole state, two lemmas per operation: `sound_` (it keeps the
queue of waiting commands and the invariant of Safety.lean) and `keeps_` (the fields that it may change). -/
namespace Sys2Proof.Machine

variable {q : List Instr}

theorem sound_poisonForwards (s : State) (i : Nat) (hs : s.Sound q) : (State.poisonForwards s i).Sound q := by
  unfold State.poisonForwards
  try dsimp only
  repeat' first
    | with_reducible assumption | with_reducible apply sound_answerForward | with_reducible apply sound_foldl
    | intro _ _ _ | split

theorem keeps_poisonForwards (s : State) (i : Nat) : Keeps
    [.free, .evt, .home, .rings, .cmds, .tly, .cone, .pmu, .kiln, .pair, .ckp, .links, .out] s
    (State.poisonForwards s i) := by
  unfold State.poisonForwards
  try dsimp only
  repeat' first
    | with_reducible exact keeps_refl _ | with_reducible assumption
    | ((with_reducible apply keeps_step); (with_reducible apply keeps_answerForward); rfl)
    | with_reducible apply keeps_foldl | intro _ _ _ | split

theorem sound_fenceWalk (s : State) (i : Nat) (hs : s.Sound q) : (State.fenceWalk s i).Sound q := by
  unfold State.fenceWalk
  try dsimp only
  repeat' first
    | with_reducible assumption | with_reducible apply sound_placeOwn | with_reducible apply sound_foldl | intro _ _ _
    | split

theorem keeps_fenceWalk (s : State) (i : Nat) : Keeps [.free, .shelves, .home, .pmu, .ckp, .links, .out] s
    (State.fenceWalk s i) := by
  unfold State.fenceWalk
  try dsimp only
  repeat' first
    | with_reducible exact keeps_refl _ | with_reducible assumption
    | ((with_reducible apply keeps_step); (with_reducible apply keeps_placeOwn); rfl)
    | with_reducible apply keeps_foldl | intro _ _ _ | split

theorem sound_fenceStart (s : State) (i : Nat) (hs : s.Sound q) : (State.fenceStart s i).Sound q := by
  unfold State.fenceStart
  try dsimp only
  repeat' first
    | with_reducible assumption | with_reducible apply sound_poisonForwards | with_reducible apply sound_fenceWalk
    | split | with_reducible apply sound_mk

theorem keeps_fenceStart (s : State) (i : Nat) : Keeps
    [.free, .evt, .shelves, .home, .rings, .cmds, .tly, .cone, .pmu, .kiln, .pair, .ckp, .links, .out] s
    (State.fenceStart s i) := by
  unfold State.fenceStart
  try dsimp only
  repeat' first
    | with_reducible exact keeps_refl _ | with_reducible assumption
    | ((with_reducible apply keeps_step); (with_reducible apply keeps_poisonForwards); rfl)
    | ((with_reducible apply keeps_step); (with_reducible apply keeps_fenceWalk); rfl) | split
    | ((with_reducible apply keeps_step); (with_reducible apply upd_pair); rfl)

theorem sound_unfence (s : State) (i : Nat) (hs : s.Sound q) : (State.unfence s i).Sound q := by
  unfold State.unfence
  try dsimp only
  repeat' first
    | with_reducible assumption | split | with_reducible apply sound_mk

theorem keeps_unfence (s : State) (i : Nat) : Keeps [.pair] s (State.unfence s i) := by
  unfold State.unfence
  try dsimp only
  repeat' first
    | with_reducible exact keeps_refl _ | with_reducible assumption | split
    | ((with_reducible apply keeps_step); (with_reducible apply upd_pair); rfl)

theorem sound_judge (s : State) (hs : s.Sound q) : (State.judge s).Sound q := by
  unfold State.judge
  try dsimp only
  repeat' first
    | with_reducible assumption | with_reducible apply sound_releaseHeld | with_reducible apply sound_event
    | with_reducible apply sound_fenceStart | with_reducible apply sound_unfence | with_reducible apply sound_foldl
    | intro _ _ _ | split | with_reducible apply sound_mk

theorem keeps_judge (s : State) : Keeps
    [.free, .evt, .shelves, .arr, .home, .rings, .cmds, .tly, .cone, .pmu, .kiln, .pair, .ckp, .links, .out] s
    (State.judge s) := by
  unfold State.judge
  try dsimp only
  repeat' first
    | with_reducible exact keeps_refl _ | with_reducible assumption
    | ((with_reducible apply keeps_step); (with_reducible apply keeps_releaseHeld); rfl)
    | ((with_reducible apply keeps_step); (with_reducible apply keeps_event); rfl)
    | ((with_reducible apply keeps_step); (with_reducible apply keeps_fenceStart); rfl)
    | ((with_reducible apply keeps_step); (with_reducible apply keeps_unfence); rfl)
    | with_reducible apply keeps_foldl | intro _ _ _ | split
    | ((with_reducible apply keeps_step); (with_reducible apply upd_pair); rfl)

theorem sound_rejoin (s : State) (hs : s.Sound q) : (State.rejoin s).Sound q := by
  unfold State.rejoin
  try dsimp only
  repeat' first
    | with_reducible assumption | with_reducible apply sound_judge | with_reducible apply sound_event | split
    | with_reducible apply sound_mk

theorem keeps_rejoin (s : State) : Keeps
    [.free, .evt, .shelves, .arr, .home, .rings, .cmds, .tly, .cone, .pmu, .kiln, .pair, .ckp, .links, .out] s
    (State.rejoin s) := by
  unfold State.rejoin
  try dsimp only
  repeat' first
    | with_reducible exact keeps_refl _ | with_reducible assumption
    | ((with_reducible apply keeps_step); (with_reducible apply keeps_judge); rfl)
    | ((with_reducible apply keeps_step); (with_reducible apply keeps_event); rfl) | split
    | ((with_reducible apply keeps_step); (with_reducible apply upd_pair); rfl)

theorem sound_syncStep (s : State) (hs : s.Sound q) : PostO (State.Sound q) (State.syncStep s) := by
  unfold State.syncStep
  try dsimp only
  repeat' first
    | with_reducible assumption | with_reducible apply sound_dispatch | with_reducible apply sound_rejoin
    | with_reducible apply postO_some | with_reducible exact postO_none | split | with_reducible apply sound_mk

theorem keeps_syncStep (s : State) : PostO
    (Keeps [.free, .evt, .shelves, .arr, .home, .rings, .cmds, .tly, .cone, .pmu, .kiln, .pair, .ckp, .links, .out] s)
    (State.syncStep s) := by
  unfold State.syncStep
  try dsimp only
  repeat' first
    | with_reducible exact keeps_refl _ | with_reducible assumption
    | ((with_reducible apply keeps_step); (with_reducible apply keeps_dispatch); rfl)
    | ((with_reducible apply keeps_step); (with_reducible apply keeps_rejoin); rfl) | with_reducible apply postO_some
    | with_reducible exact postO_none | split
    | ((with_reducible apply keeps_step); (with_reducible apply upd_pair); rfl)

theorem sound_syncGo (x0 : Nat) (x1 : State) (hx1 : x1.Sound q) : (State.syncGo x0 x1).Sound q := by
  induction x0 generalizing x1 with
  | zero => exact hx1
  | succ n ih =>
    unfold State.syncGo
    split
    · exact ih _ (postO_get ‹_› (sound_syncStep _ hx1))
    · exact hx1

theorem keeps_syncGo (x0 : Nat) (x1 : State) : Keeps
    [.free, .evt, .shelves, .arr, .home, .rings, .cmds, .tly, .cone, .pmu, .kiln, .pair, .ckp, .links, .out] x1
    (State.syncGo x0 x1) := by
  induction x0 generalizing x1 with
  | zero => exact keeps_refl _
  | succ n ih =>
    unfold State.syncGo
    split
    · exact keeps_then (postO_get ‹_› (keeps_syncStep _)) (ih _) rfl
    · exact keeps_refl _

theorem sound_syncNext (s : State) (hs : s.Sound q) : (State.syncNext s).Sound q := by
  unfold State.syncNext
  try dsimp only
  repeat' first
    | with_reducible assumption | with_reducible apply sound_syncGo | split

theorem keeps_syncNext (s : State) : Keeps
    [.free, .evt, .shelves, .arr, .home, .rings, .cmds, .tly, .cone, .pmu, .kiln, .pair, .ckp, .links, .out] s
    (State.syncNext s) := by
  unfold State.syncNext
  try dsimp only
  repeat' first
    | with_reducible exact keeps_refl _ | with_reducible assumption
    | ((with_reducible apply keeps_step); (with_reducible apply keeps_syncGo); rfl) | split

theorem sound_soloReadyNow (s : State) (hs : s.Sound q) : (State.soloReadyNow s).Sound q := by
  unfold State.soloReadyNow
  try dsimp only
  repeat' first
    | with_reducible assumption | with_reducible apply sound_releaseHeld | split | with_reducible apply sound_mk

theorem keeps_soloReadyNow (s : State) : Keeps
    [.free, .evt, .shelves, .arr, .home, .rings, .cmds, .tly, .cone, .pmu, .kiln, .pair, .ckp, .links, .out] s
    (State.soloReadyNow s) := by
  unfold State.soloReadyNow
  try dsimp only
  repeat' first
    | with_reducible exact keeps_refl _ | with_reducible assumption
    | ((with_reducible apply keeps_step); (with_reducible apply keeps_releaseHeld); rfl) | split
    | ((with_reducible apply keeps_step); (with_reducible apply upd_pair); rfl)

theorem sound_soloStart (s : State) (i : Nat) (hs : s.Sound q) : (State.soloStart s i).Sound q := by
  unfold State.soloStart
  try dsimp only
  repeat' first
    | with_reducible assumption | with_reducible apply sound_unfence | split | with_reducible apply sound_mk

theorem keeps_soloStart (s : State) (i : Nat) : Keeps [.pair] s (State.soloStart s i) := by
  unfold State.soloStart
  try dsimp only
  repeat' first
    | with_reducible exact keeps_refl _ | with_reducible assumption
    | ((with_reducible apply keeps_step); (with_reducible apply keeps_unfence); rfl) | split
    | ((with_reducible apply keeps_step); (with_reducible apply upd_pair); rfl)

theorem sound_orphanWrite (s : State) (l : LineIx) (hs : s.Sound q) : (State.orphanWrite s l).Sound q := by
  unfold State.orphanWrite
  try dsimp only
  repeat' first
    | with_reducible assumption | with_reducible apply sound_modTxn | with_reducible apply sound_advance
    | with_reducible apply sound_markLine | with_reducible apply sound_poisonTxn | split

theorem keeps_orphanWrite (s : State) (l : LineIx) : Keeps
    [.free, .evt, .shelves, .arr, .dir, .home, .back, .rings, .cmds, .ranges, .tly, .cone, .pmu, .kiln, .flt, .ep, .pair, .life, .ckp, .links, .out]
    s (State.orphanWrite s l) := by
  unfold State.orphanWrite
  try dsimp only
  repeat' first
    | with_reducible exact keeps_refl _ | with_reducible assumption
    | ((with_reducible apply keeps_step); (with_reducible apply keeps_modTxn); rfl)
    | ((with_reducible apply keeps_step); (with_reducible apply keeps_advance); rfl)
    | ((with_reducible apply keeps_step); (with_reducible apply keeps_markLine); rfl)
    | ((with_reducible apply keeps_step); (with_reducible apply keeps_poisonTxn); rfl) | split

theorem sound_orphanReclaim (s : State) (l : LineIx) (n : Nat) (hs : s.Sound q) :
    (State.orphanReclaim s l n).Sound q := by
  generalize hf : @State.orphanReclaim = f
  delta State.orphanReclaim at hf
  subst hf
  dsimp -zeta -iota only
  repeat' first
    | with_reducible assumption | with_reducible apply sound_id | with_reducible apply sound_markLine
    | with_reducible apply sound_rangeStep | intro _ _ | intro _ | split | with_reducible apply sound_mk
    | ((with_reducible apply sound_ckp); rotate_left; rfl) | ((with_reducible apply sound_evt); rotate_left; exact id)

theorem keeps_orphanReclaim (s : State) (l : LineIx) (n : Nat) : Keeps [.ranges, .pair] s
    (State.orphanReclaim s l n) := by
  generalize hf : @State.orphanReclaim = f
  delta State.orphanReclaim at hf
  subst hf
  dsimp -zeta -iota only
  repeat' first
    | with_reducible exact keeps_refl _ | with_reducible assumption | with_reducible apply keeps_id
    | ((with_reducible apply keeps_step); (with_reducible apply keeps_markLine); rfl)
    | ((with_reducible apply keeps_step); (with_reducible apply keeps_rangeStep); rfl) | intro _ _ | intro _ | split
    | dsimp only

theorem sound_orphanSaggar (s : State) (r : Req) (res : Option (BitVec 128)) (hs : s.Sound q) :
    (State.orphanSaggar s r res).Sound q := by
  unfold State.orphanSaggar
  try dsimp only
  repeat' first
    | with_reducible assumption | with_reducible apply sound_performed | with_reducible apply sound_markLine
    | with_reducible apply sound_deliver | split

theorem keeps_orphanSaggar (s : State) (r : Req) (res : Option (BitVec 128)) : Keeps
    [.free, .evt, .home, .rings, .cmds, .tly, .cone, .pmu, .kiln, .pair, .ckp, .links, .out] s
    (State.orphanSaggar s r res) := by
  unfold State.orphanSaggar
  try dsimp only
  repeat' first
    | with_reducible exact keeps_refl _ | with_reducible assumption
    | ((with_reducible apply keeps_step); (with_reducible apply keeps_performed); rfl)
    | ((with_reducible apply keeps_step); (with_reducible apply keeps_markLine); rfl)
    | ((with_reducible apply keeps_step); (with_reducible apply keeps_deliver); rfl) | split

theorem sound_orphan (s : State) (tag : Nat) (w : MWait) (hs : s.Sound q) : (State.orphan s tag w).Sound q := by
  cases w <;> unfold State.orphan
  all_goals try dsimp only
  all_goals repeat' first
    | with_reducible assumption | with_reducible apply sound_orphanWrite | with_reducible apply sound_holdReq
    | with_reducible apply sound_deliver | with_reducible apply sound_orphanReclaim
    | with_reducible apply sound_orphanSaggar | split | dsimp only | with_reducible apply sound_mk

theorem keeps_orphan (s : State) (tag : Nat) (w : MWait) : Keeps
    [.free, .evt, .shelves, .arr, .dir, .home, .back, .rings, .cmds, .ranges, .tly, .cone, .pmu, .kiln, .flt, .ep, .pair, .life, .ckp, .links, .out]
    s (State.orphan s tag w) := by
  cases w <;> unfold State.orphan
  all_goals try dsimp only
  all_goals repeat' first
    | with_reducible exact keeps_refl _ | with_reducible assumption
    | ((with_reducible apply keeps_step); (with_reducible apply keeps_orphanWrite); rfl)
    | ((with_reducible apply keeps_step); (with_reducible apply keeps_holdReq); rfl)
    | ((with_reducible apply keeps_step); (with_reducible apply keeps_deliver); rfl)
    | ((with_reducible apply keeps_step); (with_reducible apply keeps_orphanReclaim); rfl)
    | ((with_reducible apply keeps_step); (with_reducible apply keeps_orphanSaggar); rfl) | split | dsimp only
    | ((with_reducible apply keeps_step); (with_reducible apply upd_pair); rfl)

theorem sound_linkLost (s : State) (hs : s.Sound q) : (State.linkLost s).Sound q := by
  unfold State.linkLost
  try dsimp only
  repeat' first
    | with_reducible assumption | with_reducible apply sound_modFar | with_reducible apply sound_soloStart
    | with_reducible apply sound_fenceStart | with_reducible apply sound_orphan | with_reducible apply sound_foldl
    | intro _ _ _ | split | with_reducible apply sound_mk

theorem keeps_linkLost (s : State) : Keeps
    [.free, .evt, .shelves, .arr, .dir, .home, .back, .rings, .cmds, .ranges, .tly, .cone, .pmu, .kiln, .flt, .ep, .pair, .life, .ckp, .links, .out]
    s (State.linkLost s) := by
  unfold State.linkLost
  try dsimp only
  repeat' first
    | with_reducible exact keeps_refl _ | with_reducible assumption
    | ((with_reducible apply keeps_step); (with_reducible apply keeps_modFar); rfl)
    | ((with_reducible apply keeps_step); (with_reducible apply keeps_soloStart); rfl)
    | ((with_reducible apply keeps_step); (with_reducible apply keeps_fenceStart); rfl)
    | ((with_reducible apply keeps_step); (with_reducible apply keeps_orphan); rfl) | with_reducible apply keeps_foldl
    | intro _ _ _ | split | ((with_reducible apply keeps_step); (with_reducible apply upd_pair); rfl)

theorem sound_leaseGrant (s : State) (i : Nat) (ms : Nat) (takeover : Bool) (hs : s.Sound q) :
    (State.leaseGrant s i ms takeover).Sound q := by
  unfold State.leaseGrant
  try dsimp only
  repeat' first
    | with_reducible assumption | with_reducible apply sound_soloStart | with_reducible apply sound_releaseHeld
    | with_reducible apply sound_event | split | with_reducible apply sound_mk

theorem keeps_leaseGrant (s : State) (i : Nat) (ms : Nat) (takeover : Bool) : Keeps
    [.free, .evt, .shelves, .arr, .home, .rings, .cmds, .tly, .cone, .pmu, .kiln, .pair, .ckp, .links, .out] s
    (State.leaseGrant s i ms takeover) := by
  unfold State.leaseGrant
  try dsimp only
  repeat' first
    | with_reducible exact keeps_refl _ | with_reducible assumption
    | ((with_reducible apply keeps_step); (with_reducible apply keeps_soloStart); rfl)
    | ((with_reducible apply keeps_step); (with_reducible apply keeps_releaseHeld); rfl)
    | ((with_reducible apply keeps_step); (with_reducible apply keeps_event); rfl) | split
    | ((with_reducible apply keeps_step); (with_reducible apply upd_pair); rfl)

theorem sound_mismatch (s : State) (h : Hello) (hs : s.Sound q) : (State.mismatch s h).Sound q := by
  unfold State.mismatch
  try dsimp only
  repeat' first
    | with_reducible assumption | with_reducible apply sound_event | split | with_reducible apply sound_mk

theorem keeps_mismatch (s : State) (h : Hello) : Keeps [.evt, .pair] s (State.mismatch s h) := by
  unfold State.mismatch
  try dsimp only
  repeat' first
    | with_reducible exact keeps_refl _ | with_reducible assumption
    | ((with_reducible apply keeps_step); (with_reducible apply keeps_event); rfl) | split
    | ((with_reducible apply keeps_step); (with_reducible apply upd_pair); rfl)

theorem sound_fenceEnd (s : State) (i : Nat) (hs : s.Sound q) : (State.fenceEnd s i).Sound q := by
  unfold State.fenceEnd
  try dsimp only
  repeat' first
    | with_reducible assumption | with_reducible apply sound_releaseHeld | with_reducible apply sound_fenceWalk
    | split | with_reducible apply sound_mk

theorem keeps_fenceEnd (s : State) (i : Nat) : Keeps
    [.free, .evt, .shelves, .arr, .home, .rings, .cmds, .tly, .cone, .pmu, .kiln, .pair, .ckp, .links, .out] s
    (State.fenceEnd s i) := by
  unfold State.fenceEnd
  try dsimp only
  repeat' first
    | with_reducible exact keeps_refl _ | with_reducible assumption
    | ((with_reducible apply keeps_step); (with_reducible apply keeps_releaseHeld); rfl)
    | ((with_reducible apply keeps_step); (with_reducible apply keeps_fenceWalk); rfl) | split
    | ((with_reducible apply keeps_step); (with_reducible apply upd_pair); rfl)

theorem sound_syncSource (s : State) (hs : s.Sound q) : (State.syncSource s).Sound q := by
  unfold State.syncSource
  try dsimp only
  repeat' first
    | with_reducible assumption | with_reducible apply sound_syncNext | split | with_reducible apply sound_mk

theorem keeps_syncSource (s : State) : Keeps
    [.free, .evt, .shelves, .arr, .home, .rings, .cmds, .tly, .cone, .pmu, .kiln, .pair, .ckp, .links, .out] s
    (State.syncSource s) := by
  unfold State.syncSource
  try dsimp only
  repeat' first
    | with_reducible exact keeps_refl _ | with_reducible assumption
    | ((with_reducible apply keeps_step); (with_reducible apply keeps_syncNext); rfl) | split
    | ((with_reducible apply keeps_step); (with_reducible apply upd_pair); rfl)

theorem sound_syncTarget (s : State) (hs : s.Sound q) : (State.syncTarget s).Sound q := by
  unfold State.syncTarget
  try dsimp only
  repeat' first
    | with_reducible assumption | with_reducible apply sound_fenceStart | with_reducible apply sound_foldl
    | intro _ _ _ | split | with_reducible apply sound_mk

theorem keeps_syncTarget (s : State) : Keeps
    [.free, .evt, .shelves, .home, .rings, .cmds, .tly, .cone, .pmu, .kiln, .pair, .ckp, .links, .out] s
    (State.syncTarget s) := by
  unfold State.syncTarget
  try dsimp only
  repeat' first
    | with_reducible exact keeps_refl _ | with_reducible assumption
    | ((with_reducible apply keeps_step); (with_reducible apply keeps_fenceStart); rfl)
    | with_reducible apply keeps_foldl | intro _ _ _ | split
    | ((with_reducible apply keeps_step); (with_reducible apply upd_pair); rfl)

theorem sound_compareEntry (s : State) (i : Nat) (e : BitVec 256) (hs : s.Sound q) :
    (State.compareEntry s i e).Sound q := by
  unfold State.compareEntry
  try dsimp only
  repeat' first
    | with_reducible assumption | with_reducible apply sound_poisonForwards | with_reducible apply sound_fenceWalk
    | with_reducible apply sound_releaseHeld | split | with_reducible apply sound_mk

theorem keeps_compareEntry (s : State) (i : Nat) (e : BitVec 256) : Keeps
    [.free, .evt, .shelves, .arr, .home, .rings, .cmds, .tly, .cone, .pmu, .kiln, .pair, .ckp, .links, .out] s
    (State.compareEntry s i e) := by
  unfold State.compareEntry
  try dsimp only
  repeat' first
    | with_reducible exact keeps_refl _ | with_reducible assumption
    | ((with_reducible apply keeps_step); (with_reducible apply keeps_poisonForwards); rfl)
    | ((with_reducible apply keeps_step); (with_reducible apply keeps_fenceWalk); rfl)
    | ((with_reducible apply keeps_step); (with_reducible apply keeps_releaseHeld); rfl) | split
    | ((with_reducible apply keeps_step); (with_reducible apply upd_pair); rfl)

theorem sound_frameIn (s : State) (line : Option LineIx) (payload : Nat) (hs : s.Sound q) :
    (State.frameIn s line payload).Sound q := by
  unfold State.frameIn
  try dsimp only
  repeat' first
    | with_reducible assumption | with_reducible apply sound_portInBytes | with_reducible apply sound_transient
    | with_reducible apply sound_modFar | with_reducible apply sound_foldl | intro _ _ _ | split

theorem keeps_frameIn (s : State) (line : Option LineIx) (payload : Nat) : Keeps
    [.free, .pmu, .flt, .life, .links] s (State.frameIn s line payload) := by
  unfold State.frameIn
  try dsimp only
  repeat' first
    | with_reducible exact keeps_refl _ | with_reducible assumption
    | ((with_reducible apply keeps_step); (with_reducible apply keeps_portInBytes); rfl)
    | ((with_reducible apply keeps_step); (with_reducible apply keeps_transient); rfl)
    | ((with_reducible apply keeps_step); (with_reducible apply keeps_modFar); rfl) | with_reducible apply keeps_foldl
    | intro _ _ _ | split

theorem sound_sendMcfg (s : State) (is : List Nat) (hs : s.Sound q) : (State.sendMcfg s is).Sound q := by
  unfold State.sendMcfg
  try dsimp only
  repeat' first
    | with_reducible assumption | with_reducible apply sound_mirrorSend | with_reducible apply sound_foldl
    | intro _ _ _ | split

theorem keeps_sendMcfg (s : State) (is : List Nat) : Keeps [.pmu, .pair, .links, .out] s (State.sendMcfg s is) := by
  unfold State.sendMcfg
  try dsimp only
  repeat' first
    | with_reducible exact keeps_refl _ | with_reducible assumption
    | ((with_reducible apply keeps_step); (with_reducible apply keeps_mirrorSend); rfl)
    | with_reducible apply keeps_foldl | intro _ _ _ | split

theorem sound_establish (s : State) (h : Hello) (hs : s.Sound q) : (State.establish s h).Sound q := by
  unfold State.establish
  try dsimp only
  repeat' first
    | with_reducible assumption | with_reducible apply sound_event | with_reducible apply sound_fenceStart
    | with_reducible apply sound_syncSource | with_reducible apply sound_syncTarget
    | with_reducible apply sound_rejoin | with_reducible apply sound_judge | with_reducible apply sound_sendMcfg
    | with_reducible apply sound_foldl | intro _ _ _ | split | with_reducible apply sound_mk

theorem keeps_establish (s : State) (h : Hello) : Keeps
    [.free, .evt, .shelves, .arr, .home, .rings, .cmds, .tly, .cone, .pmu, .kiln, .pair, .ckp, .links, .out] s
    (State.establish s h) := by
  unfold State.establish
  try dsimp only
  repeat' first
    | with_reducible exact keeps_refl _ | with_reducible assumption
    | ((with_reducible apply keeps_step); (with_reducible apply keeps_event); rfl)
    | ((with_reducible apply keeps_step); (with_reducible apply keeps_fenceStart); rfl)
    | ((with_reducible apply keeps_step); (with_reducible apply keeps_syncSource); rfl)
    | ((with_reducible apply keeps_step); (with_reducible apply keeps_syncTarget); rfl)
    | ((with_reducible apply keeps_step); (with_reducible apply keeps_rejoin); rfl)
    | ((with_reducible apply keeps_step); (with_reducible apply keeps_judge); rfl)
    | ((with_reducible apply keeps_step); (with_reducible apply keeps_sendMcfg); rfl)
    | with_reducible apply keeps_foldl | intro _ _ _ | split
    | ((with_reducible apply keeps_step); (with_reducible apply upd_pair); rfl)

theorem sound_takeHello (s : State) (h : Hello) (hs : s.Sound q) : (State.takeHello s h).Sound q := by
  generalize hf : @State.takeHello = f
  delta State.takeHello at hf
  subst hf
  dsimp -zeta -iota only
  extract_lets before _ pair s1 _ pair2 differs s2 s3
  have h1 : s1.Sound q := sound_mk hs
  split
  · exact sound_mismatch _ _ (sound_mk h1)
  · have h2 : s2.Sound q := by
      show State.Sound q (if differs then s1.mismatch h else s1)
      split
      · exact sound_mismatch _ _ h1
      · exact h1
    have h3 : s3.Sound q := by
      show State.Sound q (if s2.pair.link = 0 then s2.establish h
        else if s2.pair.link = 3 then (if h.mapEmpty then s2.rejoin else s2)
        else if s2.pair.link = 2 then s2
        else if !h.mapEmpty && s2.pair.map.isEmpty then s2.syncTarget
        else s2.judge)
      repeat' split
      · exact sound_establish _ _ h2
      · exact sound_rejoin _ h2
      · exact h2
      · exact h2
      · exact sound_syncTarget _ h2
      · exact sound_judge _ h2
    split
    · exact sound_sendMcfg _ _ h3
    · exact h3

theorem keeps_takeHello (s : State) (h : Hello) : Keeps
    [.free, .evt, .shelves, .arr, .home, .rings, .cmds, .tly, .cone, .pmu, .kiln, .pair, .ckp, .links, .out] s
    (State.takeHello s h) := by
  generalize hf : @State.takeHello = f
  delta State.takeHello at hf
  subst hf
  dsimp -zeta -iota only
  extract_lets before _ pair s1 _ pair2 differs s2 s3
  have h1 : Keeps [.free, .evt, .shelves, .arr, .home, .rings, .cmds, .tly, .cone, .pmu, .kiln, .pair, .ckp, .links, .out] s s1 := keeps_then ((keeps_refl s)) (by with_reducible apply upd_pair) rfl
  split
  · exact keeps_then (keeps_then (h1) (by with_reducible apply upd_pair) rfl) (keeps_mismatch _ _) rfl
  · have h2 : Keeps [.free, .evt, .shelves, .arr, .home, .rings, .cmds, .tly, .cone, .pmu, .kiln, .pair, .ckp, .links, .out] s s2 := by
      show Keeps [.free, .evt, .shelves, .arr, .home, .rings, .cmds, .tly, .cone, .pmu, .kiln, .pair, .ckp, .links, .out] s (if differs then s1.mismatch h else s1)
      split
      · exact keeps_then (h1) (keeps_mismatch _ _) rfl
      · exact h1
    have h3 : Keeps [.free, .evt, .shelves, .arr, .home, .rings, .cmds, .tly, .cone, .pmu, .kiln, .pair, .ckp, .links, .out] s s3 := by
      show Keeps [.free, .evt, .shelves, .arr, .home, .rings, .cmds, .tly, .cone, .pmu, .kiln, .pair, .ckp, .links, .out] s (if s2.pair.link = 0 then s2.establish h
        else if s2.pair.link = 3 then (if h.mapEmpty then s2.rejoin else s2)
        else if s2.pair.link = 2 then s2
        else if !h.mapEmpty && s2.pair.map.isEmpty then s2.syncTarget
        else s2.judge)
      repeat' split
      · exact keeps_then (h2) (keeps_establish _ _) rfl
      · exact keeps_then (h2) (keeps_rejoin _) rfl
      · exact h2
      · exact h2
      · exact keeps_then (h2) (keeps_syncTarget _) rfl
      · exact keeps_then (h2) (keeps_judge _) rfl
    split
    · exact keeps_then (h3) (keeps_sendMcfg _ _) rfl
    · exact h3

theorem sound_leaseEnd (s : State) (i : Nat) (hs : s.Sound q) : (State.leaseEnd s i).Sound q := by
  unfold State.leaseEnd
  try dsimp only
  repeat' first
    | with_reducible assumption | with_reducible apply sound_fenceStart | split | with_reducible apply sound_mk

theorem keeps_leaseEnd (s : State) (i : Nat) : Keeps
    [.free, .evt, .shelves, .home, .rings, .cmds, .tly, .cone, .pmu, .kiln, .pair, .ckp, .links, .out] s
    (State.leaseEnd s i) := by
  unfold State.leaseEnd
  try dsimp only
  repeat' first
    | with_reducible exact keeps_refl _ | with_reducible assumption
    | ((with_reducible apply keeps_step); (with_reducible apply keeps_fenceStart); rfl) | split
    | ((with_reducible apply keeps_step); (with_reducible apply upd_pair); rfl)

theorem sound_leaseExpire (s : State) (i : Nat) (hs : s.Sound q) : (State.leaseExpire s i).Sound q := by
  unfold State.leaseExpire
  try dsimp only
  repeat' first
    | with_reducible assumption | with_reducible apply sound_leaseEnd | split | with_reducible apply sound_mk

theorem keeps_leaseExpire (s : State) (i : Nat) : Keeps
    [.free, .evt, .shelves, .home, .rings, .cmds, .tly, .cone, .pmu, .kiln, .pair, .ckp, .links, .out] s
    (State.leaseExpire s i) := by
  unfold State.leaseExpire
  try dsimp only
  repeat' first
    | with_reducible exact keeps_refl _ | with_reducible assumption
    | ((with_reducible apply keeps_step); (with_reducible apply keeps_leaseEnd); rfl) | split
    | ((with_reducible apply keeps_step); (with_reducible apply upd_pair); rfl)

theorem sound_leaseDue (s : State) (hs : s.Sound q) : (State.leaseDue s).Sound q := by
  unfold State.leaseDue
  try dsimp only
  repeat' first
    | with_reducible assumption | with_reducible apply sound_leaseEnd | with_reducible apply sound_foldl | intro _ _ _
    | split | with_reducible apply sound_mk

theorem keeps_leaseDue (s : State) : Keeps
    [.free, .evt, .shelves, .home, .rings, .cmds, .tly, .cone, .pmu, .kiln, .pair, .ckp, .links, .out] s
    (State.leaseDue s) := by
  unfold State.leaseDue
  try dsimp only
  repeat' first
    | with_reducible exact keeps_refl _ | with_reducible assumption
    | ((with_reducible apply keeps_step); (with_reducible apply keeps_leaseEnd); rfl)
    | with_reducible apply keeps_foldl | intro _ _ _ | split
    | ((with_reducible apply keeps_step); (with_reducible apply upd_pair); rfl)

end Sys2Proof.Machine
end

