-- ==== Sys2Proof/Laws/CmdRun.lean ====
section
/-! SUPPORT. What the operations of Machine/CmdRun.lean do to the whole state, two lemmas per operation: `sound_` (it keeps the
queue of waiting commands and the invariant of Safety.lean) and `keeps_` (the fields that it may change). -/
namespace Sys2Proof.Machine

variable {q : List Instr}

theorem sound_copyLine (s : State) (c : Nat) (a : Nat) (hs : s.Sound q) : (State.copyLine s c a).Sound q := by
  unfold State.copyLine
  try dsimp only
  repeat' first
    | with_reducible assumption | with_reducible apply sound_cmdWrite | with_reducible apply sound_foldl | intro _ _ _
    | split

theorem keeps_copyLine (s : State) (c : Nat) (a : Nat) : Keeps
    [.free, .evt, .shelves, .arr, .home, .rings, .cmds, .tly, .cone, .pmu, .kiln, .pair, .ckp, .links, .out] s
    (State.copyLine s c a) := by
  unfold State.copyLine
  try dsimp only
  repeat' first
    | with_reducible exact keeps_refl _ | with_reducible assumption
    | ((with_reducible apply keeps_step); (with_reducible apply keeps_cmdWrite); rfl)
    | with_reducible apply keeps_foldl | intro _ _ _ | split

theorem sound_copyWrite (s : State) (c : Nat) (hs : s.Sound q) : (State.copyWrite s c).Sound q := by
  unfold State.copyWrite
  try dsimp only
  repeat' first
    | with_reducible assumption | with_reducible apply sound_copyLine | with_reducible apply sound_modCtx
    | with_reducible apply sound_foldl | intro _ _ _ | split

theorem keeps_copyWrite (s : State) (c : Nat) : Keeps
    [.free, .evt, .shelves, .arr, .home, .rings, .cmds, .tly, .cone, .pmu, .kiln, .pair, .ckp, .links, .out] s
    (State.copyWrite s c) := by
  unfold State.copyWrite
  try dsimp only
  repeat' first
    | with_reducible exact keeps_refl _ | with_reducible assumption
    | ((with_reducible apply keeps_step); (with_reducible apply keeps_copyLine); rfl)
    | ((with_reducible apply keeps_step); (with_reducible apply keeps_modCtx); rfl) | with_reducible apply keeps_foldl
    | intro _ _ _ | split

theorem sound_rangeWait (s : State) (a : RangeAct) (hs : s.Sound q) : (State.rangeWait s a).Sound q := by
  unfold State.rangeWait
  try dsimp only
  repeat' first
    | with_reducible assumption | split | with_reducible apply sound_mk

theorem keeps_rangeWait (s : State) (a : RangeAct) : Keeps [.ranges] s (State.rangeWait s a) := by
  unfold State.rangeWait
  try dsimp only
  repeat' first
    | with_reducible exact keeps_refl _ | with_reducible assumption | split
    | ((with_reducible apply keeps_step); (with_reducible apply upd_ranges); rfl)

theorem sound_kilnStart (s : State) (c : Nat) (hs : s.Sound q) : (State.kilnStart s c).Sound q := by
  unfold State.kilnStart
  try dsimp only
  repeat' first
    | with_reducible assumption | with_reducible apply sound_endCtx | with_reducible apply sound_trailSeqs
    | with_reducible apply sound_askWake | with_reducible apply sound_fireStart | with_reducible apply sound_gather
    | with_reducible apply sound_modCtx | with_reducible apply sound_joinBanks | with_reducible apply sound_foldl
    | intro _ _ _ | split

theorem keeps_kilnStart (s : State) (c : Nat) : Keeps
    [.free, .evt, .shelves, .arr, .home, .rings, .cmds, .tly, .cone, .pmu, .kiln, .pair, .fw, .ckp, .links, .out]
    s (State.kilnStart s c) := by
  unfold State.kilnStart
  try dsimp only
  repeat' first
    | with_reducible exact keeps_refl _ | with_reducible assumption
    | ((with_reducible apply keeps_step); (with_reducible apply keeps_endCtx); rfl)
    | ((with_reducible apply keeps_step); (with_reducible apply keeps_trailSeqs); rfl)
    | ((with_reducible apply keeps_step); (with_reducible apply keeps_askWake); rfl)
    | ((with_reducible apply keeps_step); (with_reducible apply keeps_fireStart); rfl)
    | ((with_reducible apply keeps_step); (with_reducible apply keeps_gather); rfl)
    | ((with_reducible apply keeps_step); (with_reducible apply keeps_modCtx); rfl)
    | ((with_reducible apply keeps_step); (with_reducible apply keeps_joinBanks); rfl)
    | with_reducible apply keeps_foldl | intro _ _ _ | split

theorem sound_batchIssue (s : State) (c : Nat) (i : Nat) (hs : s.Sound q) : (State.batchIssue s c i).Sound q := by
  unfold State.batchIssue
  try dsimp only
  repeat' first
    | with_reducible assumption | with_reducible apply sound_issue | with_reducible apply sound_modCtx | split

theorem keeps_batchIssue (s : State) (c : Nat) (i : Nat) : Keeps
    [.free, .evt, .shelves, .arr, .home, .rings, .cmds, .tly, .cone, .pmu, .kiln, .pair, .ckp, .links, .out] s
    (State.batchIssue s c i) := by
  unfold State.batchIssue
  try dsimp only
  repeat' first
    | with_reducible exact keeps_refl _ | with_reducible assumption
    | ((with_reducible apply keeps_step); (with_reducible apply keeps_issue); rfl)
    | ((with_reducible apply keeps_step); (with_reducible apply keeps_modCtx); rfl) | split

theorem sound_batchStep (s : State) (c : Nat) (hs : s.Sound q) : (State.batchStep s c).Sound q := by
  unfold State.batchStep
  try dsimp only
  repeat' first
    | with_reducible assumption | with_reducible apply sound_batchResults | with_reducible apply sound_batchIssue
    | with_reducible apply sound_endCtx | with_reducible apply sound_foldl | intro _ _ _ | split

theorem keeps_batchStep (s : State) (c : Nat) : Keeps
    [.free, .evt, .shelves, .arr, .home, .rings, .cmds, .tly, .cone, .pmu, .kiln, .pair, .ckp, .links, .out] s
    (State.batchStep s c) := by
  unfold State.batchStep
  try dsimp only
  repeat' first
    | with_reducible exact keeps_refl _ | with_reducible assumption
    | ((with_reducible apply keeps_step); (with_reducible apply keeps_batchResults); rfl)
    | ((with_reducible apply keeps_step); (with_reducible apply keeps_batchIssue); rfl)
    | ((with_reducible apply keeps_step); (with_reducible apply keeps_endCtx); rfl) | with_reducible apply keeps_foldl
    | intro _ _ _ | split

theorem sound_closeStart (s : State) (c : Nat) (hs : s.Sound q) : (State.closeStart s c).Sound q := by
  unfold State.closeStart
  try dsimp only
  repeat' first
    | with_reducible assumption | with_reducible apply sound_modCtx | split | with_reducible apply sound_mk

theorem keeps_closeStart (s : State) (c : Nat) : Keeps [.cmds, .ep, .out] s (State.closeStart s c) := by
  unfold State.closeStart
  try dsimp only
  repeat' first
    | with_reducible exact keeps_refl _ | with_reducible assumption
    | ((with_reducible apply keeps_step); (with_reducible apply keeps_modCtx); rfl) | split
    | ((with_reducible apply keeps_step); (with_reducible apply upd_ep_out); rfl)

theorem sound_swapStart (s : State) (c : Nat) (hs : s.Sound q) : (State.swapStart s c).Sound q := by
  unfold State.swapStart
  try dsimp only
  repeat' first
    | with_reducible assumption | with_reducible apply sound_endCtx | with_reducible apply sound_failover
    | with_reducible apply sound_spareBegin | with_reducible apply sound_modCtx | split

theorem keeps_swapStart (s : State) (c : Nat) : Keeps
    [.free, .evt, .syb, .glaze, .shelves, .arr, .home, .rings, .cmds, .ranges, .tly, .cone, .pmu, .kiln, .flt, .pair, .fw, .life, .ckp, .links, .out]
    s (State.swapStart s c) := by
  unfold State.swapStart
  try dsimp only
  repeat' first
    | with_reducible exact keeps_refl _ | with_reducible assumption
    | ((with_reducible apply keeps_step); (with_reducible apply keeps_endCtx); rfl)
    | ((with_reducible apply keeps_step); (with_reducible apply keeps_failover); rfl)
    | ((with_reducible apply keeps_step); (with_reducible apply keeps_spareBegin); rfl)
    | ((with_reducible apply keeps_step); (with_reducible apply keeps_modCtx); rfl) | split

theorem sound_leaseStart (s : State) (c : Nat) (hs : s.Sound q) : (State.leaseStart s c).Sound q := by
  unfold State.leaseStart
  try dsimp only
  repeat' first
    | with_reducible assumption | with_reducible apply sound_endCtx | with_reducible apply sound_leaseEnd
    | with_reducible apply sound_leaseGrant | with_reducible apply sound_foldl | intro _ _ _ | split

theorem keeps_leaseStart (s : State) (c : Nat) : Keeps
    [.free, .evt, .shelves, .arr, .home, .rings, .cmds, .tly, .cone, .pmu, .kiln, .pair, .ckp, .links, .out] s
    (State.leaseStart s c) := by
  unfold State.leaseStart
  try dsimp only
  repeat' first
    | with_reducible exact keeps_refl _ | with_reducible assumption
    | ((with_reducible apply keeps_step); (with_reducible apply keeps_endCtx); rfl)
    | ((with_reducible apply keeps_step); (with_reducible apply keeps_leaseEnd); rfl)
    | ((with_reducible apply keeps_step); (with_reducible apply keeps_leaseGrant); rfl)
    | with_reducible apply keeps_foldl | intro _ _ _ | split

theorem sound_startOp (s : State) (c : Nat) (op : Nat) (d : BitVec 512) (hs : s.Sound q) :
    (State.startOp s c op d).Sound q := by
  unfold State.startOp
  extract_lets act
  have ha : (act s).Sound q := sound_modCtx _ _ _ hs
  clear_value act
  repeat' (with_reducible apply sound_ite <;> intro _)
  · exact sound_gather _ _ _ _ (sound_modCtx _ _ _ hs)
  · exact sound_copyWrite _ _ hs
  · exact sound_rangeWait _ _ ha
  · exact hs
  · exact sound_kilnStart _ _ hs
  · exact sound_batchStep _ _ ha
  · exact ha
  · exact sound_endCtx _ _ _ _ (sound_setTally _ _ _ hs)
  · exact sound_closeStart _ _ hs
  · exact sound_blockStart _ _ hs
  · exact hs
  · exact sound_activateStart _ _ hs
  · exact hs
  · exact sound_swapStart _ _ hs
  · exact sound_mk ha
  · exact sound_leaseStart _ _ hs
  · exact hs

theorem keeps_startOp (s : State) (c : Nat) (op : Nat) (d : BitVec 512) : Keeps
    [.free, .evt, .syb, .glaze, .shelves, .arr, .home, .rings, .cmds, .ranges, .tly, .cone, .pmu, .kiln, .flt, .ep, .pair, .fw, .life, .ckp, .links, .out]
    s (State.startOp s c op d) := by
  unfold State.startOp
  extract_lets act
  have ha : Keeps [.free, .evt, .syb, .glaze, .shelves, .arr, .home, .rings, .cmds, .ranges, .tly, .cone, .pmu, .kiln, .flt, .ep, .pair, .fw, .life, .ckp, .links, .out] s (act s) := keeps_then ((keeps_refl s)) (keeps_modCtx _ _ _) rfl
  clear_value act
  repeat' (with_reducible apply keeps_ite <;> intro _)
  · exact keeps_then (keeps_then ((keeps_refl s)) (keeps_modCtx _ _ _) rfl) (keeps_gather _ _ _ _) rfl
  · exact keeps_then ((keeps_refl s)) (keeps_copyWrite _ _) rfl
  · exact keeps_then (ha) (keeps_rangeWait _ _) rfl
  · exact keeps_refl _
  · exact keeps_then ((keeps_refl s)) (keeps_kilnStart _ _) rfl
  · exact keeps_then (ha) (keeps_batchStep _ _) rfl
  · exact ha
  · exact keeps_then (keeps_then ((keeps_refl s)) (keeps_setTally _ _ _) rfl) (keeps_endCtx _ _ _ _) rfl
  · exact keeps_then ((keeps_refl s)) (keeps_closeStart _ _) rfl
  · exact keeps_then ((keeps_refl s)) (keeps_blockStart _ _) rfl
  · exact keeps_refl _
  · exact keeps_then ((keeps_refl s)) (keeps_activateStart _ _) rfl
  · exact keeps_refl _
  · exact keeps_then ((keeps_refl s)) (keeps_swapStart _ _) rfl
  · exact keeps_then (ha) (by with_reducible apply upd_flt) rfl
  · exact keeps_then ((keeps_refl s)) (keeps_leaseStart _ _) rfl
  · exact keeps_refl _

theorem sound_startCtx (s : State) (c : Nat) (hs : s.Sound q) : (State.startCtx s c).Sound q := by
  generalize hf : @State.startCtx = f
  delta State.startCtx at hf
  subst hf
  dsimp -zeta -iota only
  repeat' first
    | with_reducible assumption | with_reducible apply sound_getD | with_reducible apply sound_endCtx
    | with_reducible apply sound_startOp | split | dsimp only

theorem keeps_startCtx (s : State) (c : Nat) : Keeps
    [.free, .evt, .syb, .glaze, .shelves, .arr, .home, .rings, .cmds, .ranges, .tly, .cone, .pmu, .kiln, .flt, .ep, .pair, .fw, .life, .ckp, .links, .out]
    s (State.startCtx s c) := by
  generalize hf : @State.startCtx = f
  delta State.startCtx at hf
  subst hf
  dsimp -zeta -iota only
  repeat' first
    | with_reducible exact keeps_refl _ | with_reducible assumption | with_reducible apply keeps_getD
    | ((with_reducible apply keeps_step); (with_reducible apply keeps_endCtx); rfl)
    | ((with_reducible apply keeps_step); (with_reducible apply keeps_startOp); rfl) | split | dsimp only

theorem sound_kilnFinish (s : State) (c : Nat) (hs : s.Sound q) : (State.kilnFinish s c).Sound q := by
  unfold State.kilnFinish
  try dsimp only
  repeat' first
    | with_reducible assumption | with_reducible apply sound_endCtx | with_reducible apply sound_finishCtx | split

theorem keeps_kilnFinish (s : State) (c : Nat) : Keeps [.cmds] s (State.kilnFinish s c) := by
  unfold State.kilnFinish
  try dsimp only
  repeat' first
    | with_reducible exact keeps_refl _ | with_reducible assumption
    | ((with_reducible apply keeps_step); (with_reducible apply keeps_endCtx); rfl)
    | ((with_reducible apply keeps_step); (with_reducible apply keeps_finishCtx); rfl) | split

theorem sound_loadRun (s : State) (c : Nat) (hs : s.Sound q) : (State.loadRun s c).Sound q := by
  unfold State.loadRun
  try dsimp only
  repeat' first
    | with_reducible assumption | with_reducible apply sound_kilnFinish | with_reducible apply sound_leaveBanks
    | with_reducible apply sound_loadStep | split

theorem keeps_loadRun (s : State) (c : Nat) : Keeps
    [.free, .evt, .shelves, .arr, .home, .rings, .cmds, .tly, .cone, .pmu, .kiln, .pair, .ckp, .links, .out] s
    (State.loadRun s c) := by
  unfold State.loadRun
  try dsimp only
  repeat' first
    | with_reducible exact keeps_refl _ | with_reducible assumption
    | ((with_reducible apply keeps_step); (with_reducible apply keeps_kilnFinish); rfl)
    | ((with_reducible apply keeps_step); (with_reducible apply keeps_leaveBanks); rfl)
    | ((with_reducible apply keeps_step); (with_reducible apply keeps_loadStep); rfl) | split

theorem sound_fireRun (s : State) (c : Nat) (hs : s.Sound q) : (State.fireRun s c).Sound q := by
  unfold State.fireRun
  try dsimp only
  repeat' first
    | with_reducible assumption | with_reducible apply sound_leaveBanks | with_reducible apply sound_kilnFinish
    | with_reducible apply sound_fireAsk | split | with_reducible apply sound_mk

theorem keeps_fireRun (s : State) (c : Nat) : Keeps
    [.free, .evt, .shelves, .arr, .home, .rings, .cmds, .tly, .cone, .pmu, .kiln, .pair, .ckp, .links, .out] s
    (State.fireRun s c) := by
  unfold State.fireRun
  try dsimp only
  repeat' first
    | with_reducible exact keeps_refl _ | with_reducible assumption
    | ((with_reducible apply keeps_step); (with_reducible apply keeps_leaveBanks); rfl)
    | ((with_reducible apply keeps_step); (with_reducible apply keeps_kilnFinish); rfl)
    | ((with_reducible apply keeps_step); (with_reducible apply keeps_fireAsk); rfl) | split
    | ((with_reducible apply keeps_step); (with_reducible apply upd_kiln); rfl)

theorem sound_ctxStep (s : State) (c : Nat) (hs : s.Sound q) : (State.ctxStep s c).Sound q := by
  unfold State.ctxStep
  try dsimp only
  repeat' first
    | with_reducible assumption | with_reducible apply sound_decodeEnd | with_reducible apply sound_refuseCtx
    | with_reducible apply sound_modCtx | with_reducible apply sound_keepPeers | with_reducible apply sound_startCtx
    | with_reducible apply sound_loadRun | with_reducible apply sound_finishCtx | with_reducible apply sound_copyWrite
    | with_reducible apply sound_blockWrite | with_reducible apply sound_fireRun
    | with_reducible apply sound_batchStep | split

theorem keeps_ctxStep (s : State) (c : Nat) : Keeps
    [.free, .evt, .syb, .glaze, .shelves, .arr, .home, .rings, .cmds, .ranges, .tly, .cone, .pmu, .kiln, .flt, .ep, .pair, .fw, .life, .ckp, .links, .out]
    s (State.ctxStep s c) := by
  unfold State.ctxStep
  try dsimp only
  repeat' first
    | with_reducible exact keeps_refl _ | with_reducible assumption
    | ((with_reducible apply keeps_step); (with_reducible apply keeps_decodeEnd); rfl)
    | ((with_reducible apply keeps_step); (with_reducible apply keeps_refuseCtx); rfl)
    | ((with_reducible apply keeps_step); (with_reducible apply keeps_modCtx); rfl)
    | ((with_reducible apply keeps_step); (with_reducible apply keeps_keepPeers); rfl)
    | ((with_reducible apply keeps_step); (with_reducible apply keeps_startCtx); rfl)
    | ((with_reducible apply keeps_step); (with_reducible apply keeps_loadRun); rfl)
    | ((with_reducible apply keeps_step); (with_reducible apply keeps_finishCtx); rfl)
    | ((with_reducible apply keeps_step); (with_reducible apply keeps_copyWrite); rfl)
    | ((with_reducible apply keeps_step); (with_reducible apply keeps_blockWrite); rfl)
    | ((with_reducible apply keeps_step); (with_reducible apply keeps_fireRun); rfl)
    | ((with_reducible apply keeps_step); (with_reducible apply keeps_batchStep); rfl) | split

theorem sound_ctxRun (s : State) (c : Nat) (hs : s.Sound q) : (State.ctxRun s c).Sound q := by
  unfold State.ctxRun
  try dsimp only
  repeat' first
    | with_reducible assumption | with_reducible apply sound_ctxStep | split

theorem keeps_ctxRun (s : State) (c : Nat) : Keeps
    [.free, .evt, .syb, .glaze, .shelves, .arr, .home, .rings, .cmds, .ranges, .tly, .cone, .pmu, .kiln, .flt, .ep, .pair, .fw, .life, .ckp, .links, .out]
    s (State.ctxRun s c) := by
  unfold State.ctxRun
  try dsimp only
  repeat' first
    | with_reducible exact keeps_refl _ | with_reducible assumption
    | ((with_reducible apply keeps_step); (with_reducible apply keeps_ctxStep); rfl) | split

theorem sound_watchWaits (s : State) (hs : s.Sound q) : (State.watchWaits s).Sound q := by
  unfold State.watchWaits
  try dsimp only
  repeat' first
    | with_reducible assumption | split | with_reducible apply sound_mk

theorem keeps_watchWaits (s : State) : Keeps [.cone] s (State.watchWaits s) := by
  unfold State.watchWaits
  try dsimp only
  repeat' first
    | with_reducible exact keeps_refl _ | with_reducible assumption | split
    | ((with_reducible apply keeps_step); (with_reducible apply upd_cone); rfl)

theorem sound_settle (s : State) (hs : s.Sound q) : (State.settle s).Sound q := by
  unfold State.settle
  try dsimp only
  repeat' first
    | with_reducible assumption | with_reducible apply sound_releaseBridge | with_reducible apply sound_freshAgents
    | with_reducible apply sound_ctxRun | with_reducible apply sound_watchWaits | with_reducible apply sound_markWaits
    | with_reducible apply sound_pumpRings | with_reducible apply sound_syncNext
    | with_reducible apply sound_trailStep | with_reducible apply sound_flipStep | with_reducible apply sound_foldl
    | intro _ _ _ | split | with_reducible apply sound_mk

theorem keeps_settle (s : State) : Keeps
    [.free, .evt, .syb, .glaze, .shelves, .arr, .dir, .home, .back, .rings, .cmds, .ranges, .tly, .cone, .pmu, .kiln, .flt, .ep, .pair, .fw, .life, .ckp, .links, .out]
    s (State.settle s) := by
  unfold State.settle
  try dsimp only
  repeat' first
    | with_reducible exact keeps_refl _ | with_reducible assumption
    | ((with_reducible apply keeps_step); (with_reducible apply keeps_releaseBridge); rfl)
    | ((with_reducible apply keeps_step); (with_reducible apply keeps_freshAgents); rfl)
    | ((with_reducible apply keeps_step); (with_reducible apply keeps_ctxRun); rfl)
    | ((with_reducible apply keeps_step); (with_reducible apply keeps_watchWaits); rfl)
    | ((with_reducible apply keeps_step); (with_reducible apply keeps_markWaits); rfl)
    | ((with_reducible apply keeps_step); (with_reducible apply keeps_pumpRings); rfl)
    | ((with_reducible apply keeps_step); (with_reducible apply keeps_syncNext); rfl)
    | ((with_reducible apply keeps_step); (with_reducible apply keeps_trailStep); rfl)
    | ((with_reducible apply keeps_step); (with_reducible apply keeps_flipStep); rfl)
    | with_reducible apply keeps_foldl | intro _ _ _ | split
    | ((with_reducible apply keeps_step); (with_reducible apply upd_fw); rfl)

theorem sound_done (s : State) (hs : s.Sound q) : Post (State.Sound q) (State.done s) := by
  unfold State.done
  try dsimp only
  repeat' first
    | with_reducible assumption | with_reducible apply sound_settle | with_reducible apply post_next
    | with_reducible exact post_refused | split

theorem keeps_done (s : State) : Post
    (Keeps [.free, .evt, .syb, .glaze, .shelves, .arr, .dir, .home, .back, .rings, .cmds, .ranges, .tly, .cone, .pmu, .kiln, .flt, .ep, .pair, .fw, .life, .ckp, .links, .out] s)
    (State.done s) := by
  unfold State.done
  try dsimp only
  repeat' first
    | with_reducible exact keeps_refl _ | with_reducible assumption
    | ((with_reducible apply keeps_step); (with_reducible apply keeps_settle); rfl) | with_reducible apply post_next
    | with_reducible exact post_refused | split

end Sys2Proof.Machine
end

