-- ==== Sys2Proof/Laws/PairRows.lean ====
section
/-! SUPPORT. What the operations of Machine/PairRows.lean do to the whole state, two lemmas per operation: `sound_` (it keeps the
queue of waiting commands and the invariant of Safety.lean) and `keeps_` (the fields that it may change). -/
namespace Sys2Proof.Machine

variable {q : List Instr}

theorem sound_paired (s : State) (f : State → State) (hs : s.Sound q) (hf : ∀ s : State, s.Sound q → (f s).Sound q) :
    Post (State.Sound q) (State.paired s f) := by
  unfold State.paired
  split
  · exact sound_done _ (hf s hs)
  · exact hs

theorem sound_sayHello (s : State) (hs : s.Sound q) : (State.sayHello s).Sound q := by
  unfold State.sayHello
  try dsimp only
  repeat' first
    | with_reducible assumption | with_reducible apply sound_judge | with_reducible apply sound_farSend
    | with_reducible apply sound_foldl | intro _ _ _ | split | with_reducible apply sound_mk

theorem keeps_sayHello (s : State) : Keeps
    [.free, .evt, .shelves, .arr, .home, .rings, .cmds, .tly, .cone, .pmu, .kiln, .pair, .ckp, .links, .out] s
    (State.sayHello s) := by
  unfold State.sayHello
  try dsimp only
  repeat' first
    | with_reducible exact keeps_refl _ | with_reducible assumption
    | ((with_reducible apply keeps_step); (with_reducible apply keeps_judge); rfl)
    | ((with_reducible apply keeps_step); (with_reducible apply keeps_farSend); rfl)
    | with_reducible apply keeps_foldl | intro _ _ _ | split
    | ((with_reducible apply keeps_step); (with_reducible apply upd_pair); rfl)

theorem sound_fullResync (s : State) (hs : s.Sound q) : (State.fullResync s).Sound q := by
  unfold State.fullResync
  try dsimp only
  repeat' first
    | with_reducible assumption | with_reducible apply sound_syncSource | split | with_reducible apply sound_mk

theorem keeps_fullResync (s : State) : Keeps
    [.free, .evt, .shelves, .arr, .home, .rings, .cmds, .tly, .cone, .pmu, .kiln, .pair, .ckp, .links, .out] s
    (State.fullResync s) := by
  unfold State.fullResync
  try dsimp only
  repeat' first
    | with_reducible exact keeps_refl _ | with_reducible assumption
    | ((with_reducible apply keeps_step); (with_reducible apply keeps_syncSource); rfl) | split
    | ((with_reducible apply keeps_step); (with_reducible apply upd_pair); rfl)

theorem sound_acknowledged (s : State) (w : MWait) (hs : s.Sound q) : (State.acknowledged s w).Sound q := by
  unfold State.acknowledged
  try dsimp only
  repeat' first
    | with_reducible assumption | with_reducible apply sound_advance | with_reducible apply sound_modTxn
    | with_reducible apply sound_performed | with_reducible apply sound_rangeStep | split

theorem keeps_acknowledged (s : State) (w : MWait) : Keeps
    [.free, .evt, .shelves, .arr, .dir, .home, .back, .rings, .cmds, .ranges, .tly, .cone, .pmu, .kiln, .flt, .ep, .pair, .life, .ckp, .links, .out]
    s (State.acknowledged s w) := by
  unfold State.acknowledged
  try dsimp only
  repeat' first
    | with_reducible exact keeps_refl _ | with_reducible assumption
    | ((with_reducible apply keeps_step); (with_reducible apply keeps_advance); rfl)
    | ((with_reducible apply keeps_step); (with_reducible apply keeps_modTxn); rfl)
    | ((with_reducible apply keeps_step); (with_reducible apply keeps_performed); rfl)
    | ((with_reducible apply keeps_step); (with_reducible apply keeps_rangeStep); rfl) | split

end Sys2Proof.Machine
end

