-- ==== Sys2Proof/Laws/BackingRows.lean ====
section
/-! SUPPORT. What the operations of Machine/BackingRows.lean do to the whole state, two lemmas per operation: `sound_` (it keeps the
queue of waiting commands and the invariant of Safety.lean) and `keeps_` (the fields that it may change). -/
namespace Sys2Proof.Machine

variable {q : List Instr}

theorem sound_takeAnswer {s : State} {bp tag : Nat} {write : Bool} {r : BReq} {t : State}
    (e : s.takeAnswer bp tag write = some (r, t)) (hs : s.Sound q) : t.Sound q := by
  unfold State.takeAnswer at e
  dsimp only at e
  rw [Option.map_eq_some_iff] at e
  obtain ⟨a, _, e⟩ := e
  have e2 := congrArg Prod.snd e
  dsimp only at e2
  subst e2
  split
  · exact sound_transient _ _ (sound_mk hs)
  · exact sound_mk hs

theorem keeps_takeAnswer {s : State} {bp tag : Nat} {write : Bool} {r : BReq} {t : State}
    (e : s.takeAnswer bp tag write = some (r, t)) : Keeps [.free, .back, .pmu, .flt, .life, .links] s t := by
  unfold State.takeAnswer at e
  dsimp only at e
  rw [Option.map_eq_some_iff] at e
  obtain ⟨a, _, e⟩ := e
  have e2 := congrArg Prod.snd e
  dsimp only at e2
  subst e2
  split
  · refine keeps_then ?_ (keeps_transient _ _) rfl
    exact keeps_then (keeps_refl _) upd_back_links rfl
  · exact keeps_then (keeps_refl _) upd_back_links rfl

theorem sound_written (s : State) (w : Waiter) (hs : s.Sound q) : (State.written s w).Sound q := by
  unfold State.written
  try dsimp only
  repeat' first
    | with_reducible assumption | with_reducible apply sound_advance | with_reducible apply sound_modTxn | split

theorem keeps_written (s : State) (w : Waiter) : Keeps
    [.free, .evt, .shelves, .arr, .dir, .home, .back, .rings, .cmds, .ranges, .tly, .cone, .pmu, .kiln, .flt, .ep, .pair, .life, .ckp, .links, .out]
    s (State.written s w) := by
  unfold State.written
  try dsimp only
  repeat' first
    | with_reducible exact keeps_refl _ | with_reducible assumption
    | ((with_reducible apply keeps_step); (with_reducible apply keeps_advance); rfl)
    | ((with_reducible apply keeps_step); (with_reducible apply keeps_modTxn); rfl) | split

theorem sound_pinRefuse (s : State) (n : Nat) (l : LineIx) (c : BitVec 3) (hs : s.Sound q) :
    (State.pinRefuse s n l c).Sound q := by
  unfold State.pinRefuse
  try dsimp only
  repeat' first
    | with_reducible assumption | with_reducible apply sound_thrashCount | with_reducible apply sound_modShelf | split
    | with_reducible apply sound_mk

theorem keeps_pinRefuse (s : State) (n : Nat) (l : LineIx) (c : BitVec 3) : Keeps [.evt, .shelves, .ranges] s
    (State.pinRefuse s n l c) := by
  unfold State.pinRefuse
  try dsimp only
  repeat' first
    | with_reducible exact keeps_refl _ | with_reducible assumption
    | ((with_reducible apply keeps_step); (with_reducible apply keeps_thrashCount); rfl)
    | ((with_reducible apply keeps_step); (with_reducible apply keeps_modShelf); rfl) | split
    | ((with_reducible apply keeps_step); (with_reducible apply upd_ranges); rfl)

theorem sound_fillTxn (s : State) (m : Miss) (r : Region) (d : Line) (hs : s.Sound q) :
    (State.fillTxn s m r d).Sound q := by
  unfold State.fillTxn
  try dsimp only
  repeat' first
    | with_reducible assumption | with_reducible apply sound_fill | with_reducible apply sound_advance
    | with_reducible apply sound_modTxn | split

theorem keeps_fillTxn (s : State) (m : Miss) (r : Region) (d : Line) : Keeps
    [.free, .evt, .shelves, .arr, .dir, .home, .back, .rings, .cmds, .ranges, .tly, .cone, .pmu, .kiln, .flt, .ep, .pair, .life, .ckp, .links, .out]
    s (State.fillTxn s m r d) := by
  unfold State.fillTxn
  try dsimp only
  repeat' first
    | with_reducible exact keeps_refl _ | with_reducible assumption
    | ((with_reducible apply keeps_step); (with_reducible apply keeps_fill); rfl)
    | ((with_reducible apply keeps_step); (with_reducible apply keeps_advance); rfl)
    | ((with_reducible apply keeps_step); (with_reducible apply keeps_modTxn); rfl) | split

theorem sound_fetchFailed (s : State) (l : LineIx) (hs : s.Sound q) : (State.fetchFailed s l).Sound q := by
  unfold State.fetchFailed
  try dsimp only
  repeat' first
    | with_reducible assumption | with_reducible apply sound_advance | with_reducible apply sound_modTxn | split

theorem keeps_fetchFailed (s : State) (l : LineIx) : Keeps
    [.free, .evt, .shelves, .arr, .dir, .home, .back, .rings, .cmds, .ranges, .tly, .cone, .pmu, .kiln, .flt, .ep, .pair, .life, .ckp, .links, .out]
    s (State.fetchFailed s l) := by
  unfold State.fetchFailed
  try dsimp only
  repeat' first
    | with_reducible exact keeps_refl _ | with_reducible assumption
    | ((with_reducible apply keeps_step); (with_reducible apply keeps_advance); rfl)
    | ((with_reducible apply keeps_step); (with_reducible apply keeps_modTxn); rfl) | split

theorem sound_pinPresent (s : State) (n : Nat) (x : Slot) (l : LineIx) (c : BitVec 3) (hs : s.Sound q) :
    (State.pinPresent s n x l c).Sound q := by
  unfold State.pinPresent
  try dsimp only
  repeat' first
    | with_reducible assumption | with_reducible apply sound_touch | with_reducible apply sound_pinRefuse
    | with_reducible apply sound_restore | split
    | refine postO_get (by with_reducible assumption) ?_; with_reducible apply sound_restore

theorem keeps_pinPresent (s : State) (n : Nat) (x : Slot) (l : LineIx) (c : BitVec 3) : Keeps
    [.free, .evt, .shelves, .arr, .back, .ranges, .cone, .pmu, .flt, .ep, .ckp, .out] s
    (State.pinPresent s n x l c) := by
  unfold State.pinPresent
  try dsimp only
  repeat' first
    | with_reducible exact keeps_refl _ | with_reducible assumption
    | ((with_reducible apply keeps_step); (with_reducible apply keeps_touch); rfl)
    | ((with_reducible apply keeps_step); (with_reducible apply keeps_pinRefuse); rfl)
    | ((with_reducible apply keepsO_step); (with_reducible apply keeps_restore); rfl) | split
    | ((with_reducible apply keepsO_out); (with_reducible assumption); (with_reducible apply keeps_restore); rfl)

theorem sound_fillPin (s : State) (m : Miss) (r : Region) (d : Line) (ue : Bool) (n : Nat) (hs : s.Sound q) :
    (State.fillPin s m r d ue n).Sound q := by
  unfold State.fillPin
  split
  · exact sound_pinRefuse _ _ _ _ hs
  · split
    · rename_i e
      exact sound_pinPresent _ _ _ _ _ (sound_snd2 e (sound_fill _ _ _ _ _ _ hs))
    · rename_i e
      exact sound_pinRefuse _ _ _ _ (sound_snd2 e (sound_fill _ _ _ _ _ _ hs))

theorem keeps_fillPin (s : State) (m : Miss) (r : Region) (d : Line) (ue : Bool) (n : Nat) : Keeps
    [.free, .evt, .shelves, .arr, .back, .ranges, .cone, .pmu, .flt, .ep, .ckp, .out] s
    (State.fillPin s m r d ue n) := by
  unfold State.fillPin
  split
  · exact keeps_then (keeps_refl _) (keeps_pinRefuse _ _ _ _) rfl
  · split
    · rename_i e
      exact keeps_then (keeps_snd2 e (keeps_then (keeps_refl _) (keeps_fill _ _ _ _ _ _) rfl)) (keeps_pinPresent _ _ _ _ _) rfl
    · rename_i e
      exact keeps_then (keeps_snd2 e (keeps_then (keeps_refl _) (keeps_fill _ _ _ _ _ _) rfl)) (keeps_pinRefuse _ _ _ _) rfl

theorem sound_useFill (s : State) (m : Miss) (d : Line) (ue : Bool) (u : MissUse) (hs : s.Sound q) :
    (State.useFill s m d ue u).Sound q := by
  unfold State.useFill
  try dsimp only
  repeat' first
    | with_reducible assumption | with_reducible apply sound_fetchFailed | with_reducible apply sound_fillTxn
    | with_reducible apply sound_advance | with_reducible apply sound_modTxn | with_reducible apply sound_fillPin
    | split

theorem keeps_useFill (s : State) (m : Miss) (d : Line) (ue : Bool) (u : MissUse) : Keeps
    [.free, .evt, .shelves, .arr, .dir, .home, .back, .rings, .cmds, .ranges, .tly, .cone, .pmu, .kiln, .flt, .ep, .pair, .life, .ckp, .links, .out]
    s (State.useFill s m d ue u) := by
  unfold State.useFill
  try dsimp only
  repeat' first
    | with_reducible exact keeps_refl _ | with_reducible assumption
    | ((with_reducible apply keeps_step); (with_reducible apply keeps_fetchFailed); rfl)
    | ((with_reducible apply keeps_step); (with_reducible apply keeps_fillTxn); rfl)
    | ((with_reducible apply keeps_step); (with_reducible apply keeps_advance); rfl)
    | ((with_reducible apply keeps_step); (with_reducible apply keeps_modTxn); rfl)
    | ((with_reducible apply keeps_step); (with_reducible apply keeps_fillPin); rfl) | split

theorem sound_sendBack (s : State) (r : BReq) (tag : Nat) (hs : s.Sound q) : (State.sendBack s r tag).Sound q := by
  unfold State.sendBack
  try dsimp only
  repeat' first
    | with_reducible assumption | with_reducible apply sound_portOutBytes | split | with_reducible apply sound_mk

theorem keeps_sendBack (s : State) (r : BReq) (tag : Nat) : Keeps [.back, .pmu, .links] s
    (State.sendBack s r tag) := by
  unfold State.sendBack
  try dsimp only
  repeat' first
    | with_reducible exact keeps_refl _ | with_reducible assumption
    | ((with_reducible apply keeps_step); (with_reducible apply keeps_portOutBytes); rfl) | split
    | ((with_reducible apply keeps_step); (with_reducible apply upd_back_links); rfl)

theorem sound_missFilled (s : State) (bank : Nat) (l : LineIx) (d : Line) (ue : Bool) (hs : s.Sound q) :
    (State.missFilled s bank l d ue).Sound q := by
  unfold State.missFilled
  try dsimp only
  repeat' first
    | with_reducible assumption | with_reducible apply sound_missRetry | with_reducible apply sound_useFill
    | with_reducible apply sound_foldl | intro _ _ _ | split | with_reducible apply sound_mk

theorem keeps_missFilled (s : State) (bank : Nat) (l : LineIx) (d : Line) (ue : Bool) : Keeps
    [.free, .evt, .shelves, .arr, .dir, .home, .back, .rings, .cmds, .ranges, .tly, .cone, .pmu, .kiln, .flt, .ep, .pair, .life, .ckp, .links, .out]
    s (State.missFilled s bank l d ue) := by
  unfold State.missFilled
  try dsimp only
  repeat' first
    | with_reducible exact keeps_refl _ | with_reducible assumption
    | ((with_reducible apply keeps_step); (with_reducible apply keeps_missRetry); rfl)
    | ((with_reducible apply keeps_step); (with_reducible apply keeps_useFill); rfl)
    | with_reducible apply keeps_foldl | intro _ _ _ | split
    | ((with_reducible apply keeps_step); (with_reducible apply upd_back); rfl)

theorem sound_pinStart (s : State) (n : Nat) (l : LineIx) (c : BitVec 3) (hs : s.Sound q) :
    (State.pinStart s n l c).Sound q := by
  unfold State.pinStart
  try dsimp only
  repeat' first
    | with_reducible assumption | with_reducible apply sound_pinPresent | with_reducible apply sound_modTxn
    | with_reducible apply sound_openMiss | split

theorem keeps_pinStart (s : State) (n : Nat) (l : LineIx) (c : BitVec 3) : Keeps
    [.free, .evt, .shelves, .arr, .home, .back, .ranges, .cone, .pmu, .flt, .ep, .ckp, .out] s
    (State.pinStart s n l c) := by
  unfold State.pinStart
  try dsimp only
  repeat' first
    | with_reducible exact keeps_refl _ | with_reducible assumption
    | ((with_reducible apply keeps_step); (with_reducible apply keeps_pinPresent); rfl)
    | ((with_reducible apply keeps_step); (with_reducible apply keeps_modTxn); rfl)
    | ((with_reducible apply keeps_step); (with_reducible apply keeps_openMiss); rfl) | split

end Sys2Proof.Machine
end

