-- ==== Sys2Proof/Laws/RangeRows.lean ====
section
/-! SUPPORT. What the operations of Machine/RangeRows.lean do to the whole state, two lemmas per operation: `sound_` (it keeps the
queue of waiting commands and the invariant of Safety.lean) and `keeps_` (the fields that it may change). -/
namespace Sys2Proof.Machine

variable {q : List Instr}

theorem sound_bankCfgErr (s : State) (b : Nat) (hs : s.Sound q) : (State.bankCfgErr s b).Sound q := by
  unfold State.bankCfgErr
  try dsimp only
  repeat' first
    | with_reducible assumption | with_reducible apply sound_event | split

theorem keeps_bankCfgErr (s : State) (b : Nat) : Keeps [.evt] s (State.bankCfgErr s b) := by
  unfold State.bankCfgErr
  try dsimp only
  repeat' first
    | with_reducible exact keeps_refl _ | with_reducible assumption
    | ((with_reducible apply keeps_step); (with_reducible apply keeps_event); rfl) | split

theorem sound_cacheOn (s : State) (b : Nat) (hs : s.Sound q) : (State.cacheOn s b).Sound q := by
  unfold State.cacheOn
  try dsimp only
  repeat' first
    | with_reducible assumption | with_reducible apply sound_modShelf | with_reducible apply sound_bankCfgErr | split

theorem keeps_cacheOn (s : State) (b : Nat) : Keeps [.evt, .shelves] s (State.cacheOn s b) := by
  unfold State.cacheOn
  try dsimp only
  repeat' first
    | with_reducible exact keeps_refl _ | with_reducible assumption
    | ((with_reducible apply keeps_step); (with_reducible apply keeps_modShelf); rfl)
    | ((with_reducible apply keeps_step); (with_reducible apply keeps_bankCfgErr); rfl) | split

theorem sound_bankOff (s : State) (b : Nat) (hs : s.Sound q) : (State.bankOff s b).Sound q := by
  unfold State.bankOff
  try dsimp only
  repeat' first
    | with_reducible assumption | with_reducible apply sound_modShelf | split

theorem keeps_bankOff (s : State) (b : Nat) : Keeps [.shelves] s (State.bankOff s b) := by
  unfold State.bankOff
  try dsimp only
  repeat' first
    | with_reducible exact keeps_refl _ | with_reducible assumption
    | ((with_reducible apply keeps_step); (with_reducible apply keeps_modShelf); rfl) | split

theorem sound_rangeEnd (s : State) (n : Nat) (hs : s.Sound q) : (State.rangeEnd s n).Sound q := by
  unfold State.rangeEnd
  try dsimp only
  repeat' first
    | with_reducible assumption | with_reducible apply sound_bankOff | with_reducible apply sound_endCtx
    | with_reducible apply sound_finishCtx | split | with_reducible apply sound_mk

theorem keeps_rangeEnd (s : State) (n : Nat) : Keeps [.shelves, .cmds, .ranges] s (State.rangeEnd s n) := by
  unfold State.rangeEnd
  try dsimp only
  repeat' first
    | with_reducible exact keeps_refl _ | with_reducible assumption
    | ((with_reducible apply keeps_step); (with_reducible apply keeps_bankOff); rfl)
    | ((with_reducible apply keeps_step); (with_reducible apply keeps_endCtx); rfl)
    | ((with_reducible apply keeps_step); (with_reducible apply keeps_finishCtx); rfl) | split
    | ((with_reducible apply keeps_step); (with_reducible apply upd_ranges); rfl)

theorem sound_tagInvStart (s : State) (b : Nat) (hs : s.Sound q) : (State.tagInvStart s b).Sound q := by
  unfold State.tagInvStart
  try dsimp only
  repeat' first
    | with_reducible assumption | with_reducible apply sound_modShelf | split

theorem keeps_tagInvStart (s : State) (b : Nat) : Keeps [.shelves] s (State.tagInvStart s b) := by
  unfold State.tagInvStart
  try dsimp only
  repeat' first
    | with_reducible exact keeps_refl _ | with_reducible assumption
    | ((with_reducible apply keeps_step); (with_reducible apply keeps_modShelf); rfl) | split

theorem sound_rangeHalfDone (s : State) (n : Nat) (h : Half) (hs : s.Sound q) :
    (State.rangeHalfDone s n h).Sound q := by
  unfold State.rangeHalfDone
  try dsimp only
  repeat' first
    | with_reducible assumption | split | with_reducible apply sound_mk

theorem keeps_rangeHalfDone (s : State) (n : Nat) (h : Half) : Keeps [.ranges] s (State.rangeHalfDone s n h) := by
  unfold State.rangeHalfDone
  try dsimp only
  repeat' first
    | with_reducible exact keeps_refl _ | with_reducible assumption | split
    | ((with_reducible apply keeps_step); (with_reducible apply upd_ranges); rfl)

theorem sound_bankLine (s : State) (n : Nat) (b : Nat) (a : RangeAct) (h : Half) (hs : s.Sound q) :
    (State.bankLine s n b a h).Sound q := by
  unfold State.bankLine
  try dsimp only
  repeat' first
    | with_reducible assumption | with_reducible apply sound_rangeHalfDone | with_reducible apply sound_askWake
    | with_reducible apply sound_cleanSlot | with_reducible apply sound_setTag | split

theorem keeps_bankLine (s : State) (n : Nat) (b : Nat) (a : RangeAct) (h : Half) : Keeps
    [.free, .arr, .back, .ranges, .cone, .pmu, .ep, .ckp, .out] s (State.bankLine s n b a h) := by
  generalize hf : @State.bankLine = f
  delta State.bankLine at hf
  subst hf
  dsimp -zeta -iota only
  repeat' first
    | with_reducible exact keeps_refl _ | with_reducible assumption
    | ((with_reducible apply keeps_step); (with_reducible apply keeps_rangeHalfDone); rfl)
    | ((with_reducible apply keeps_step); (with_reducible apply keeps_askWake); rfl)
    | ((with_reducible apply keeps_step); (with_reducible apply keeps_cleanSlot); rfl)
    | ((with_reducible apply keeps_step); (with_reducible apply keeps_setTag); rfl) | split | dsimp only

theorem sound_maintain (s : State) (r : Req) (pin : Option Nat) (hs : s.Sound q) :
    (State.maintain s r pin).Sound q := by
  unfold State.maintain
  try dsimp only
  repeat' first
    | with_reducible assumption | with_reducible apply sound_serve | with_reducible apply sound_advance
    | with_reducible apply sound_pinStart | split | with_reducible apply sound_mk

theorem keeps_maintain (s : State) (r : Req) (pin : Option Nat) : Keeps
    [.free, .evt, .shelves, .arr, .dir, .home, .back, .rings, .cmds, .ranges, .tly, .cone, .pmu, .kiln, .flt, .ep, .pair, .life, .ckp, .links, .out]
    s (State.maintain s r pin) := by
  unfold State.maintain
  try dsimp only
  repeat' first
    | with_reducible exact keeps_refl _ | with_reducible assumption
    | ((with_reducible apply keeps_step); (with_reducible apply keeps_serve); rfl)
    | ((with_reducible apply keeps_step); (with_reducible apply keeps_advance); rfl)
    | ((with_reducible apply keeps_step); (with_reducible apply keeps_pinStart); rfl) | split
    | ((with_reducible apply keeps_step); (with_reducible apply upd_home); rfl)

theorem sound_drainLine (s : State) (n : Nat) (b : Nat) (a : RangeAct) (h : Half) (hs : s.Sound q) :
    (State.drainLine s n b a h).Sound q := by
  unfold State.drainLine
  try dsimp only
  repeat' first
    | with_reducible assumption | with_reducible apply sound_rangeHalfDone | with_reducible apply sound_askWake
    | with_reducible apply sound_setTag | with_reducible apply sound_cleanSlot | with_reducible apply sound_maintain
    | split

theorem keeps_drainLine (s : State) (n : Nat) (b : Nat) (a : RangeAct) (h : Half) : Keeps
    [.free, .evt, .shelves, .arr, .dir, .home, .back, .rings, .cmds, .ranges, .tly, .cone, .pmu, .kiln, .flt, .ep, .pair, .life, .ckp, .links, .out]
    s (State.drainLine s n b a h) := by
  unfold State.drainLine
  try dsimp only
  repeat' first
    | with_reducible exact keeps_refl _ | with_reducible assumption
    | ((with_reducible apply keeps_step); (with_reducible apply keeps_rangeHalfDone); rfl)
    | ((with_reducible apply keeps_step); (with_reducible apply keeps_askWake); rfl)
    | ((with_reducible apply keeps_step); (with_reducible apply keeps_setTag); rfl)
    | ((with_reducible apply keeps_step); (with_reducible apply keeps_cleanSlot); rfl)
    | ((with_reducible apply keeps_step); (with_reducible apply keeps_maintain); rfl) | split

theorem sound_rangeLine (s : State) (n : Nat) (a : RangeAct) (h : Half) (hs : s.Sound q) :
    (State.rangeLine s n a h).Sound q := by
  unfold State.rangeLine
  try dsimp only
  repeat' first
    | with_reducible assumption | with_reducible apply sound_getD | with_reducible apply sound_rangeHalfDone
    | with_reducible apply sound_modCtx | with_reducible apply sound_askWake | with_reducible apply sound_maintain
    | split

theorem keeps_rangeLine (s : State) (n : Nat) (a : RangeAct) (h : Half) : Keeps
    [.free, .evt, .shelves, .arr, .dir, .home, .back, .rings, .cmds, .ranges, .tly, .cone, .pmu, .kiln, .flt, .ep, .pair, .life, .ckp, .links, .out]
    s (State.rangeLine s n a h) := by
  unfold State.rangeLine
  try dsimp only
  repeat' first
    | with_reducible exact keeps_refl _ | with_reducible assumption | with_reducible apply keeps_getD
    | ((with_reducible apply keeps_step); (with_reducible apply keeps_rangeHalfDone); rfl)
    | ((with_reducible apply keeps_step); (with_reducible apply keeps_modCtx); rfl)
    | ((with_reducible apply keeps_step); (with_reducible apply keeps_askWake); rfl)
    | ((with_reducible apply keeps_step); (with_reducible apply keeps_maintain); rfl) | split

theorem sound_lineopAct (s : State) (hs : s.Sound q) : (State.lineopAct s).Sound q := by
  unfold State.lineopAct
  try dsimp only
  repeat' first
    | with_reducible assumption | with_reducible apply sound_askWake | with_reducible apply sound_maintain | split
    | with_reducible apply sound_mk

theorem keeps_lineopAct (s : State) : Keeps
    [.free, .evt, .shelves, .arr, .dir, .home, .back, .rings, .cmds, .ranges, .tly, .cone, .pmu, .kiln, .flt, .ep, .pair, .life, .ckp, .links, .out]
    s (State.lineopAct s) := by
  unfold State.lineopAct
  try dsimp only
  repeat' first
    | with_reducible exact keeps_refl _ | with_reducible assumption
    | ((with_reducible apply keeps_step); (with_reducible apply keeps_askWake); rfl)
    | ((with_reducible apply keeps_step); (with_reducible apply keeps_maintain); rfl) | split
    | ((with_reducible apply keeps_step); (with_reducible apply upd_ranges); rfl)

theorem sound_cacheOff (s : State) (b : Nat) (hs : s.Sound q) : (State.cacheOff s b).Sound q := by
  unfold State.cacheOff
  try dsimp only
  repeat' first
    | with_reducible assumption | with_reducible apply sound_bankCfgErr | with_reducible apply sound_rangeWait
    | with_reducible apply sound_modShelf | split

theorem keeps_cacheOff (s : State) (b : Nat) : Keeps [.evt, .shelves, .ranges] s (State.cacheOff s b) := by
  unfold State.cacheOff
  try dsimp only
  repeat' first
    | with_reducible exact keeps_refl _ | with_reducible assumption
    | ((with_reducible apply keeps_step); (with_reducible apply keeps_bankCfgErr); rfl)
    | ((with_reducible apply keeps_step); (with_reducible apply keeps_rangeWait); rfl)
    | ((with_reducible apply keeps_step); (with_reducible apply keeps_modShelf); rfl) | split

theorem sound_lineopStart (s : State) (k : RangeKind) (hs : s.Sound q) : (State.lineopStart s k).Sound q := by
  unfold State.lineopStart
  try dsimp only
  repeat' first
    | with_reducible assumption | with_reducible apply sound_event | with_reducible apply sound_lineopAct | split
    | with_reducible apply sound_mk

theorem keeps_lineopStart (s : State) (k : RangeKind) : Keeps
    [.free, .evt, .shelves, .arr, .dir, .home, .back, .rings, .cmds, .ranges, .tly, .cone, .pmu, .kiln, .flt, .ep, .pair, .life, .ckp, .links, .out]
    s (State.lineopStart s k) := by
  unfold State.lineopStart
  try dsimp only
  repeat' first
    | with_reducible exact keeps_refl _ | with_reducible assumption
    | ((with_reducible apply keeps_step); (with_reducible apply keeps_event); rfl)
    | ((with_reducible apply keeps_step); (with_reducible apply keeps_lineopAct); rfl) | split
    | ((with_reducible apply keeps_step); (with_reducible apply upd_ranges); rfl)

end Sys2Proof.Machine
end

