-- ==== Sys2Proof/Laws/LifeOps.lean ====
section
/-! SUPPORT. What the operations of Machine/LifeOps.lean do to the whole state, two lemmas per operation: `sound_` (it keeps the
queue of waiting commands and the invariant of Safety.lean) and `keeps_` (the fields that it may change). -/
namespace Sys2Proof.Machine

variable {q : List Instr}

theorem sound_lifeTake (s : State) (hs : s.Sound q) : (State.lifeTake s).Sound q := by
  generalize hf : @State.lifeTake = f
  delta State.lifeTake at hf
  subst hf
  dsimp -zeta -iota only
  repeat' first
    | with_reducible assumption | split | dsimp only | with_reducible apply sound_mk

theorem keeps_lifeTake (s : State) : Keeps [.flt, .life] s (State.lifeTake s) := by
  generalize hf : @State.lifeTake = f
  delta State.lifeTake at hf
  subst hf
  dsimp -zeta -iota only
  repeat' first
    | with_reducible exact keeps_refl _ | with_reducible assumption | split | dsimp only
    | ((with_reducible apply keeps_step); (with_reducible apply upd_flt_life); rfl)

theorem sound_lifeWrite (s : State) (hs : s.Sound q) : (State.lifeWrite s).Sound q := by
  unfold State.lifeWrite
  try dsimp only
  repeat' first
    | with_reducible assumption | with_reducible apply sound_foldl | intro _ _ _ | split
    | with_reducible apply sound_mk

theorem keeps_lifeWrite (s : State) : Keeps [.life] s (State.lifeWrite s) := by
  unfold State.lifeWrite
  try dsimp only
  repeat' first
    | with_reducible exact keeps_refl _ | with_reducible assumption | with_reducible apply keeps_foldl | intro _ _ _
    | split | ((with_reducible apply keeps_step); (with_reducible apply upd_life); rfl)

theorem sound_lifeIdentity (s : State) (hs : s.Sound q) : (State.lifeIdentity s).Sound q := by
  unfold State.lifeIdentity
  try dsimp only
  repeat' first
    | with_reducible assumption | split | with_reducible apply sound_mk

theorem keeps_lifeIdentity (s : State) : Keeps [.life] s (State.lifeIdentity s) := by
  unfold State.lifeIdentity
  try dsimp only
  repeat' first
    | with_reducible exact keeps_refl _ | with_reducible assumption | split
    | ((with_reducible apply keeps_step); (with_reducible apply upd_life); rfl)

theorem sound_freeBytes (s : State) (x1 : Nat) (hs : s.Sound q) : (State.freeBytes s x1).2.Sound q := by
  induction x1 generalizing s with
  | zero => exact hs
  | succ n ih => exact ih _ (sound_draw _ hs)

theorem keeps_freeBytes (s : State) (x1 : Nat) : Keeps [.free] s (State.freeBytes s x1).2 := by
  induction x1 generalizing s with
  | zero => exact keeps_refl _
  | succ n ih => exact keeps_then (keeps_draw _) (ih _) rfl

theorem sound_hours (s : State) (n : Nat) (hs : s.Sound q) : (State.hours s n).Sound q := by
  unfold State.hours
  try dsimp only
  repeat' first
    | with_reducible assumption | split | with_reducible apply sound_mk
    | ((with_reducible apply sound_ckp); rotate_left; rfl)

theorem keeps_hours (s : State) (n : Nat) : Keeps [.life, .ckp] s (State.hours s n) := by
  unfold State.hours
  try dsimp only
  repeat' first
    | with_reducible exact keeps_refl _ | with_reducible assumption | split
    | ((with_reducible apply keeps_step); (with_reducible apply upd_life_ckp); rfl)

theorem sound_lifeFail (s : State) (hs : s.Sound q) : (State.lifeFail s).Sound q := by
  unfold State.lifeFail
  try dsimp only
  repeat' first
    | with_reducible assumption | with_reducible apply sound_freeBytes | with_reducible apply sound_event | split
    | with_reducible apply sound_mk

theorem keeps_lifeFail (s : State) : Keeps [.free, .evt, .life] s (State.lifeFail s) := by
  unfold State.lifeFail
  try dsimp only
  repeat' first
    | with_reducible exact keeps_refl _ | with_reducible assumption
    | ((with_reducible apply keeps_step); (with_reducible apply keeps_freeBytes); rfl)
    | ((with_reducible apply keeps_step); (with_reducible apply keeps_event); rfl) | split
    | ((with_reducible apply keeps_step); (with_reducible apply upd_life); rfl)

end Sys2Proof.Machine
end

