-- ==== Sys2Proof/Laws/PowerRows.lean ====
section
/-! SUPPORT. What the operations of Machine/PowerRows.lean do to the whole state, two lemmas per operation: `sound_` (it keeps the
queue of waiting commands and the invariant of Safety.lean) and `keeps_` (the fields that it may change). -/
namespace Sys2Proof.Machine

variable {q : List Instr}

theorem sound_sense (s : State) (h : Half) (v : BitVec 10) (t : BitVec 8) (hs : s.Sound q) :
    (State.sense s h v t).Sound q := by
  unfold State.sense
  try dsimp only
  repeat' first
    | with_reducible assumption | with_reducible apply sound_modHalf | with_reducible apply sound_event | split
    | with_reducible apply sound_mk | ((with_reducible apply sound_ckp); rotate_left; rfl)

theorem keeps_sense (s : State) (h : Half) (v : BitVec 10) (t : BitVec 8) : Keeps [.evt, .life, .ckp] s
    (State.sense s h v t) := by
  unfold State.sense
  try dsimp only
  repeat' first
    | with_reducible exact keeps_refl _ | with_reducible assumption
    | ((with_reducible apply keeps_step); (with_reducible apply keeps_modHalf); rfl)
    | ((with_reducible apply keeps_step); (with_reducible apply keeps_event); rfl) | split
    | ((with_reducible apply keeps_step); (with_reducible apply upd_life_ckp); rfl)

theorem sound_divFree (s : State) (a : Nat) (b : Nat) (hs : s.Sound q) : (State.divFree s a b).2.Sound q := by
  unfold State.divFree
  try dsimp only
  repeat' first
    | with_reducible assumption | with_reducible apply sound_draw | split

theorem keeps_divFree (s : State) (a : Nat) (b : Nat) : Keeps [.free] s (State.divFree s a b).2 := by
  unfold State.divFree
  try dsimp only
  repeat' first
    | with_reducible exact keeps_refl _ | with_reducible assumption
    | ((with_reducible apply keeps_step); (with_reducible apply keeps_draw); rfl) | split

theorem sound_estimate (s : State) (n : PowerCounts) (hs : s.Sound q) : (State.estimate s n).2.Sound q := by
  exact sound_divFree _ _ _ hs

theorem keeps_estimate (s : State) (n : PowerCounts) : Keeps [.free] s (State.estimate s n).2 := by
  unfold State.estimate
  try dsimp only
  repeat' first
    | with_reducible exact keeps_refl _ | with_reducible assumption
    | ((with_reducible apply keeps_step); (with_reducible apply keeps_divFree); rfl) | split

theorem sound_pulses (s : State) (h : Half) (hs : s.Sound q) : (State.pulses s h).2.2.Sound q := by
  unfold State.pulses
  try dsimp only
  repeat' first
    | with_reducible assumption | with_reducible apply sound_draw | with_reducible apply sound_modHalf | split

theorem keeps_pulses (s : State) (h : Half) : Keeps [.free, .ckp] s (State.pulses s h).2.2 := by
  unfold State.pulses
  try dsimp only
  repeat' first
    | with_reducible exact keeps_refl _ | with_reducible assumption
    | ((with_reducible apply keeps_step); (with_reducible apply keeps_draw); rfl)
    | ((with_reducible apply keeps_step); (with_reducible apply keeps_modHalf); rfl) | split

theorem sound_microsecond (s : State) (hs : s.Sound q) : (State.microsecond s).Sound q := by
  unfold State.microsecond
  try dsimp only
  repeat' first
    | with_reducible assumption | with_reducible apply sound_pulses | with_reducible apply sound_count
    | with_reducible apply sound_hours | split | with_reducible apply sound_mk

theorem keeps_microsecond (s : State) : Keeps [.free, .pmu, .life, .ckp] s (State.microsecond s) := by
  unfold State.microsecond
  try dsimp only
  repeat' first
    | with_reducible exact keeps_refl _ | with_reducible assumption
    | ((with_reducible apply keeps_step); (with_reducible apply keeps_pulses); rfl)
    | ((with_reducible apply keeps_step); (with_reducible apply keeps_count); rfl)
    | ((with_reducible apply keeps_step); (with_reducible apply keeps_hours); rfl) | split
    | ((with_reducible apply keeps_step); (with_reducible apply upd_pmu); rfl)

theorem sound_report (s : State) (hs : s.Sound q) : (State.report s).Sound q := by
  unfold State.report
  try dsimp only
  repeat' first
    | with_reducible assumption | with_reducible apply sound_divFree | split | with_reducible apply sound_mk
    | ((with_reducible apply sound_ckp); rotate_left; rfl)

theorem keeps_report (s : State) : Keeps [.free, .ckp] s (State.report s) := by
  unfold State.report
  try dsimp only
  repeat' first
    | with_reducible exact keeps_refl _ | with_reducible assumption
    | ((with_reducible apply keeps_step); (with_reducible apply keeps_divFree); rfl) | split
    | ((with_reducible apply keeps_step); (with_reducible apply upd_ckp); rfl)

theorem sound_takeEstimate (s : State) (raw : Nat) (meas : BitVec 16) (measValid : Bool) (hs : s.Sound q) :
    (State.takeEstimate s raw meas measValid).Sound q := by
  unfold State.takeEstimate
  try dsimp only
  repeat' first
    | with_reducible assumption | with_reducible apply sound_report | split | with_reducible apply sound_mk
    | ((with_reducible apply sound_ckp); rotate_left; rfl)

theorem keeps_takeEstimate (s : State) (raw : Nat) (meas : BitVec 16) (measValid : Bool) : Keeps [.free, .ckp] s
    (State.takeEstimate s raw meas measValid) := by
  unfold State.takeEstimate
  try dsimp only
  repeat' first
    | with_reducible exact keeps_refl _ | with_reducible assumption
    | ((with_reducible apply keeps_step); (with_reducible apply keeps_report); rfl) | split
    | ((with_reducible apply keeps_step); (with_reducible apply upd_ckp); rfl)

theorem sound_calibrate (s : State) (hs : s.Sound q) : (State.calibrate s).Sound q := by
  unfold State.calibrate
  try dsimp only
  repeat' first
    | with_reducible assumption | with_reducible apply sound_event | with_reducible apply sound_divFree
    | with_reducible apply sound_foldl | intro _ _ _ | split | with_reducible apply sound_mk
    | ((with_reducible apply sound_ckp); rotate_left; rfl)

theorem keeps_calibrate (s : State) : Keeps [.free, .evt, .ckp] s (State.calibrate s) := by
  unfold State.calibrate
  try dsimp only
  repeat' first
    | with_reducible exact keeps_refl _ | with_reducible assumption
    | ((with_reducible apply keeps_step); (with_reducible apply keeps_event); rfl)
    | ((with_reducible apply keeps_step); (with_reducible apply keeps_divFree); rfl)
    | with_reducible apply keeps_foldl | intro _ _ _ | split
    | ((with_reducible apply keeps_step); (with_reducible apply upd_ckp); rfl)

theorem sound_driftClear (s : State) (hs : s.Sound q) : (State.driftClear s).Sound q := by
  unfold State.driftClear
  try dsimp only
  repeat' first
    | with_reducible assumption | split | with_reducible apply sound_mk
    | ((with_reducible apply sound_ckp); rotate_left; rfl)

theorem keeps_driftClear (s : State) : Keeps [.ckp] s (State.driftClear s) := by
  unfold State.driftClear
  try dsimp only
  repeat' first
    | with_reducible exact keeps_refl _ | with_reducible assumption | split
    | ((with_reducible apply keeps_step); (with_reducible apply upd_ckp); rfl)

end Sys2Proof.Machine
end

