-- ==== Sys2Proof/Laws/RegRead.lean ====
section
/-! SUPPORT. What the operations of Machine/RegRead.lean do to the whole state, two lemmas per operation: `sound_` (it keeps the
queue of waiting commands and the invariant of Safety.lean) and `keeps_` (the fields that it may change). -/
namespace Sys2Proof.Machine

variable {q : List Instr}

theorem sound_restartMarks (s : State) (sh : Nat) (hs : s.Sound q) : (State.restartMarks s sh).Sound q := by
  unfold State.restartMarks
  try dsimp only
  repeat' first
    | with_reducible assumption | with_reducible apply sound_modShelf | split

theorem keeps_restartMarks (s : State) (sh : Nat) : Keeps [.shelves] s (State.restartMarks s sh) := by
  unfold State.restartMarks
  try dsimp only
  repeat' first
    | with_reducible exact keeps_refl _ | with_reducible assumption
    | ((with_reducible apply keeps_step); (with_reducible apply keeps_modShelf); rfl) | split

theorem sound_fullest (s : State) (hs : s.Sound q) : (State.fullest s).2.Sound q := by
  unfold State.fullest
  try dsimp only
  repeat' first
    | with_reducible assumption | with_reducible apply sound_draw | with_reducible apply sound_foldl | intro _ _ _
    | split

theorem keeps_fullest (s : State) : Keeps [.free] s (State.fullest s).2 := by
  unfold State.fullest
  try dsimp only
  repeat' first
    | with_reducible exact keeps_refl _ | with_reducible assumption
    | ((with_reducible apply keeps_step); (with_reducible apply keeps_draw); rfl) | with_reducible apply keeps_foldl
    | intro _ _ _ | split

theorem sound_readFill (s : State) (hs : s.Sound q) : (State.readFill s).2.Sound q := by
  unfold State.readFill
  try dsimp only
  repeat' first
    | with_reducible assumption | with_reducible apply sound_fullest | split

theorem keeps_readFill (s : State) : Keeps [.free] s (State.readFill s).2 := by
  unfold State.readFill
  try dsimp only
  repeat' first
    | with_reducible exact keeps_refl _ | with_reducible assumption
    | ((with_reducible apply keeps_step); (with_reducible apply keeps_fullest); rfl) | split

theorem sound_latch (s : State) (v : Word) (priv : Bool) (hs : s.Sound q) : (State.latch s v priv).Sound q := by
  unfold State.latch
  try dsimp only
  repeat' first
    | with_reducible assumption | split | with_reducible apply sound_mk

theorem keeps_latch (s : State) (v : Word) (priv : Bool) : Keeps [.pmu] s (State.latch s v priv) := by
  unfold State.latch
  try dsimp only
  repeat' first
    | with_reducible exact keeps_refl _ | with_reducible assumption | split
    | ((with_reducible apply keeps_step); (with_reducible apply upd_pmu); rfl)

theorem sound_ripen (s : State) (n : Nat) (hs : s.Sound q) : (State.ripen s n).Sound q := by
  unfold State.ripen
  try dsimp only
  repeat' first
    | with_reducible assumption | with_reducible apply sound_draw | split | with_reducible apply sound_mk

theorem keeps_ripen (s : State) (n : Nat) : Keeps [.free, .pmu] s (State.ripen s n) := by
  unfold State.ripen
  try dsimp only
  repeat' first
    | with_reducible exact keeps_refl _ | with_reducible assumption
    | ((with_reducible apply keeps_step); (with_reducible apply keeps_draw); rfl) | split
    | ((with_reducible apply keeps_step); (with_reducible apply upd_pmu); rfl)

theorem sound_readLeft (s : State) (hs : s.Sound q) : (State.readLeft s).2.Sound q := by
  unfold State.readLeft
  try dsimp only
  repeat' first
    | with_reducible assumption | with_reducible apply sound_id | with_reducible apply sound_divFree | split

theorem keeps_readLeft (s : State) : Keeps [.free] s (State.readLeft s).2 := by
  unfold State.readLeft
  try dsimp only
  repeat' first
    | with_reducible exact keeps_refl _ | with_reducible assumption | with_reducible apply keeps_id
    | ((with_reducible apply keeps_step); (with_reducible apply keeps_divFree); rfl) | split

theorem sound_readValue (s : State) (addr : Nat) (priv : Bool) (hs : s.Sound q) :
    (State.readValue s addr priv).2.Sound q := by
  unfold State.readValue
  try dsimp only
  repeat' first
    | with_reducible assumption | with_reducible apply sound_ripen | with_reducible apply sound_readFill
    | with_reducible apply sound_readLeft | split

theorem keeps_readValue (s : State) (addr : Nat) (priv : Bool) : Keeps [.free, .pmu] s
    (State.readValue s addr priv).2 := by
  generalize hf : @State.readValue = f
  delta State.readValue at hf
  subst hf
  dsimp -zeta -iota only
  repeat' first
    | with_reducible exact keeps_refl _ | with_reducible assumption
    | ((with_reducible apply keeps_step); (with_reducible apply keeps_ripen); rfl)
    | ((with_reducible apply keeps_step); (with_reducible apply keeps_readFill); rfl)
    | ((with_reducible apply keeps_step); (with_reducible apply keeps_readLeft); rfl) | split | dsimp only

theorem sound_effectShf (s : State) (sh : Nat) (off : Nat) (hs : s.Sound q) : (State.effectShf s sh off).Sound q := by
  unfold State.effectShf
  try dsimp only
  repeat' first
    | with_reducible assumption | with_reducible apply sound_restartMarks | with_reducible apply sound_modShelf
    | split

theorem keeps_effectShf (s : State) (sh : Nat) (off : Nat) : Keeps [.shelves] s (State.effectShf s sh off) := by
  unfold State.effectShf
  try dsimp only
  repeat' first
    | with_reducible exact keeps_refl _ | with_reducible assumption
    | ((with_reducible apply keeps_step); (with_reducible apply keeps_restartMarks); rfl)
    | ((with_reducible apply keeps_step); (with_reducible apply keeps_modShelf); rfl) | split

theorem sound_readEffect (s : State) (addr : Nat) (priv : Bool) (hs : s.Sound q) :
    (State.readEffect s addr priv).Sound q := by
  unfold State.readEffect
  try dsimp only
  repeat' first
    | with_reducible assumption | with_reducible apply sound_latch | with_reducible apply sound_effectShf | split
    | with_reducible apply sound_mk | ((with_reducible apply sound_evt); rotate_left; exact id)

theorem keeps_readEffect (s : State) (addr : Nat) (priv : Bool) : Keeps [.evt, .shelves, .tly, .pmu, .flt] s
    (State.readEffect s addr priv) := by
  unfold State.readEffect
  try dsimp only
  repeat' first
    | with_reducible exact keeps_refl _ | with_reducible assumption
    | ((with_reducible apply keeps_step); (with_reducible apply keeps_latch); rfl)
    | ((with_reducible apply keeps_step); (with_reducible apply keeps_effectShf); rfl) | split
    | ((with_reducible apply keeps_step); (with_reducible apply upd_evt_tly_flt); rfl)

end Sys2Proof.Machine
end

