-- ==== Sys2Proof/Laws/RingRows.lean ====
section
/-! SUPPORT. What the operations of Machine/RingRows.lean do to the whole state, two lemmas per operation: `sound_` (it keeps the
queue of waiting commands and the invariant of Safety.lean) and `keeps_` (the fields that it may change). -/
namespace Sys2Proof.Machine

variable {q : List Instr}

theorem sound_judgeTail (s : State) (n : Nat) (v : Word) (hs : s.Sound q) : (State.judgeTail s n v).Sound q := by
  unfold State.judgeTail
  try dsimp only
  repeat' first
    | with_reducible assumption | with_reducible apply sound_modRing | with_reducible apply sound_event | split

theorem keeps_judgeTail (s : State) (n : Nat) (v : Word) : Keeps [.evt, .rings] s (State.judgeTail s n v) := by
  unfold State.judgeTail
  try dsimp only
  repeat' first
    | with_reducible exact keeps_refl _ | with_reducible assumption
    | ((with_reducible apply keeps_step); (with_reducible apply keeps_modRing); rfl)
    | ((with_reducible apply keeps_step); (with_reducible apply keeps_event); rfl) | split

theorem sound_decode (s : State) (c : Fin 256) (op : Nat) (late : Bool) (own : State → BitVec 512 → Refuse)
    (go : State → State) (hs : s.Sound q) (hg : ∀ s : State, s.Sound q → (go s).Sound q) :
    Post (State.Sound q) (State.decode s c op late own go) := by
  unfold State.decode
  dsimp only
  split
  · exact hs
  · apply sound_done
    repeat' first
      | exact sound_decodeEnd _ _ _ hs
      | exact hg _ (sound_decodeEnd _ _ _ hs)
      | split

theorem sound_fwJoin (s : State) (c : Nat) (hs : s.Sound q) : (State.fwJoin s c).Sound q := by
  unfold State.fwJoin
  try dsimp only
  repeat' first
    | with_reducible assumption | split | with_reducible apply sound_mk

theorem keeps_fwJoin (s : State) (c : Nat) : Keeps [.fw] s (State.fwJoin s c) := by
  unfold State.fwJoin
  try dsimp only
  repeat' first
    | with_reducible exact keeps_refl _ | with_reducible assumption | split
    | ((with_reducible apply keeps_step); (with_reducible apply upd_fw); rfl)

theorem sound_ringOn (s : State) (n : Nat) (hs : s.Sound q) : (State.ringOn s n).Sound q := by
  unfold State.ringOn
  try dsimp only
  repeat' first
    | with_reducible assumption | with_reducible apply sound_modRing | with_reducible apply sound_enableEnd
    | with_reducible apply sound_readLine | split

theorem keeps_ringOn (s : State) (n : Nat) : Keeps
    [.free, .evt, .shelves, .arr, .home, .rings, .cmds, .tly, .cone, .pmu, .kiln, .pair, .ckp, .links, .out] s
    (State.ringOn s n) := by
  unfold State.ringOn
  try dsimp only
  repeat' first
    | with_reducible exact keeps_refl _ | with_reducible assumption
    | ((with_reducible apply keeps_step); (with_reducible apply keeps_modRing); rfl)
    | ((with_reducible apply keeps_step); (with_reducible apply keeps_enableEnd); rfl)
    | ((with_reducible apply keeps_step); (with_reducible apply keeps_readLine); rfl) | split

theorem sound_ringOff (s : State) (n : Nat) (hs : s.Sound q) : (State.ringOff s n).Sound q := by
  unfold State.ringOff
  try dsimp only
  repeat' first
    | with_reducible assumption | with_reducible apply sound_modRing | split

theorem keeps_ringOff (s : State) (n : Nat) : Keeps [.rings] s (State.ringOff s n) := by
  unfold State.ringOff
  try dsimp only
  repeat' first
    | with_reducible exact keeps_refl _ | with_reducible assumption
    | ((with_reducible apply keeps_step); (with_reducible apply keeps_modRing); rfl) | split

theorem sound_glazeWaits (s : State) (c : Nat) (bs : List Nat) (hs : s.Sound q) :
    (State.glazeWaits s c bs).Sound q := by
  unfold State.glazeWaits
  try dsimp only
  repeat' first
    | with_reducible assumption | split | with_reducible apply sound_mk

theorem keeps_glazeWaits (s : State) (c : Nat) (bs : List Nat) : Keeps [.glaze] s (State.glazeWaits s c bs) := by
  unfold State.glazeWaits
  try dsimp only
  repeat' first
    | with_reducible exact keeps_refl _ | with_reducible assumption | split
    | ((with_reducible apply keeps_step); (with_reducible apply upd_glaze); rfl)

theorem sound_ringCfg (s : State) (n : Nat) (w : Word) (hs : s.Sound q) : (State.ringCfg s n w).Sound q := by
  unfold State.ringCfg
  try dsimp only
  repeat' first
    | with_reducible assumption | with_reducible apply sound_ringOff | with_reducible apply sound_modRing
    | with_reducible apply sound_ringOn | split

theorem keeps_ringCfg (s : State) (n : Nat) (w : Word) : Keeps
    [.free, .evt, .shelves, .arr, .home, .rings, .cmds, .tly, .cone, .pmu, .kiln, .pair, .ckp, .links, .out] s
    (State.ringCfg s n w) := by
  unfold State.ringCfg
  try dsimp only
  repeat' first
    | with_reducible exact keeps_refl _ | with_reducible assumption
    | ((with_reducible apply keeps_step); (with_reducible apply keeps_ringOff); rfl)
    | ((with_reducible apply keeps_step); (with_reducible apply keeps_modRing); rfl)
    | ((with_reducible apply keeps_step); (with_reducible apply keeps_ringOn); rfl) | split

theorem sound_readControl (s : State) (n : Nat) (hs : s.Sound q) : (State.readControl s n).Sound q := by
  unfold State.readControl
  try dsimp only
  repeat' first
    | with_reducible assumption | with_reducible apply sound_readLine | with_reducible apply sound_modRing | split

theorem keeps_readControl (s : State) (n : Nat) : Keeps
    [.free, .evt, .shelves, .arr, .home, .rings, .cmds, .tly, .cone, .pmu, .kiln, .pair, .ckp, .links, .out] s
    (State.readControl s n) := by
  unfold State.readControl
  try dsimp only
  repeat' first
    | with_reducible exact keeps_refl _ | with_reducible assumption
    | ((with_reducible apply keeps_step); (with_reducible apply keeps_readLine); rfl)
    | ((with_reducible apply keeps_step); (with_reducible apply keeps_modRing); rfl) | split

theorem sound_judgeHead (s : State) (m : Nat) (c : Word) (hs : s.Sound q) : (State.judgeHead s m c).Sound q := by
  unfold State.judgeHead
  try dsimp only
  repeat' first
    | with_reducible assumption | with_reducible apply sound_modRing | with_reducible apply sound_cqError | split

theorem keeps_judgeHead (s : State) (m : Nat) (c : Word) : Keeps [.evt, .rings] s (State.judgeHead s m c) := by
  unfold State.judgeHead
  try dsimp only
  repeat' first
    | with_reducible exact keeps_refl _ | with_reducible assumption
    | ((with_reducible apply keeps_step); (with_reducible apply keeps_modRing); rfl)
    | ((with_reducible apply keeps_step); (with_reducible apply keeps_cqError); rfl) | split

theorem sound_kick (s : State) (n : Nat) (hs : s.Sound q) : (State.kick s n).Sound q := by
  unfold State.kick
  try dsimp only
  repeat' first
    | with_reducible assumption | with_reducible apply sound_readControl | split

theorem keeps_kick (s : State) (n : Nat) : Keeps
    [.free, .evt, .shelves, .arr, .home, .rings, .cmds, .tly, .cone, .pmu, .kiln, .pair, .ckp, .links, .out] s
    (State.kick s n) := by
  unfold State.kick
  try dsimp only
  repeat' first
    | with_reducible exact keeps_refl _ | with_reducible assumption
    | ((with_reducible apply keeps_step); (with_reducible apply keeps_readControl); rfl) | split

theorem sound_roundEnd (s : State) (hs : s.Sound q) : (State.roundEnd s).Sound q := by
  unfold State.roundEnd
  try dsimp only
  repeat' first
    | with_reducible assumption | split | with_reducible apply sound_mk

theorem keeps_roundEnd (s : State) : Keeps [.cmds] s (State.roundEnd s) := by
  unfold State.roundEnd
  try dsimp only
  repeat' first
    | with_reducible exact keeps_refl _ | with_reducible assumption | split
    | ((with_reducible apply keeps_step); (with_reducible apply upd_cmds); rfl)

theorem sound_cqErrClear (s : State) (m : Nat) (hs : s.Sound q) : (State.cqErrClear s m).Sound q := by
  unfold State.cqErrClear
  try dsimp only
  repeat' first
    | with_reducible assumption | with_reducible apply sound_pumpRings | with_reducible apply sound_modRing | split

theorem keeps_cqErrClear (s : State) (m : Nat) : Keeps
    [.free, .evt, .shelves, .arr, .home, .rings, .cmds, .tly, .cone, .pmu, .kiln, .pair, .ckp, .links, .out] s
    (State.cqErrClear s m) := by
  unfold State.cqErrClear
  try dsimp only
  repeat' first
    | with_reducible exact keeps_refl _ | with_reducible assumption
    | ((with_reducible apply keeps_step); (with_reducible apply keeps_pumpRings); rfl)
    | ((with_reducible apply keeps_step); (with_reducible apply keeps_modRing); rfl) | split

end Sys2Proof.Machine
end

