-- ==== Sys2Proof/Laws/SybinOps.lean ====
section
/-! SUPPORT. What the operations of Machine/SybinOps.lean do to the whole state, two lemmas per operation: `sound_` (it keeps the
queue of waiting commands and the invariant of Safety.lean) and `keeps_` (the fields that it may change). -/
namespace Sys2Proof.Machine

variable {q : List Instr}

theorem sound_disableBanks (s : State) (bs : List Nat) (hs : s.Sound q) : (State.disableBanks s bs).Sound q := by
  unfold State.disableBanks
  try dsimp only
  repeat' first
    | with_reducible assumption | with_reducible apply sound_modShelf | with_reducible apply sound_tagInvalidate
    | with_reducible apply sound_foldl | intro _ _ _ | split

theorem keeps_disableBanks (s : State) (bs : List Nat) : Keeps [.shelves, .arr] s (State.disableBanks s bs) := by
  unfold State.disableBanks
  try dsimp only
  repeat' first
    | with_reducible exact keeps_refl _ | with_reducible assumption
    | ((with_reducible apply keeps_step); (with_reducible apply keeps_modShelf); rfl)
    | ((with_reducible apply keeps_step); (with_reducible apply keeps_tagInvalidate); rfl)
    | with_reducible apply keeps_foldl | intro _ _ _ | split

theorem sound_enableBanks (s : State) (bs : List Nat) (hs : s.Sound q) : (State.enableBanks s bs).Sound q := by
  unfold State.enableBanks
  try dsimp only
  repeat' first
    | with_reducible assumption | with_reducible apply sound_modShelf | with_reducible apply sound_tagInvalidate
    | with_reducible apply sound_foldl | intro _ _ _ | split

theorem keeps_enableBanks (s : State) (bs : List Nat) : Keeps [.shelves, .arr] s (State.enableBanks s bs) := by
  unfold State.enableBanks
  try dsimp only
  repeat' first
    | with_reducible exact keeps_refl _ | with_reducible assumption
    | ((with_reducible apply keeps_step); (with_reducible apply keeps_modShelf); rfl)
    | ((with_reducible apply keeps_step); (with_reducible apply keeps_tagInvalidate); rfl)
    | with_reducible apply keeps_foldl | intro _ _ _ | split

theorem sound_zeroBanks (s : State) (bs : List Nat) (hs : s.Sound q) : (State.zeroBanks s bs).Sound q := by
  unfold State.zeroBanks
  try dsimp only
  repeat' first
    | with_reducible assumption | with_reducible apply sound_zeroArr | split

theorem keeps_zeroBanks (s : State) (bs : List Nat) : Keeps [.arr] s (State.zeroBanks s bs) := by
  unfold State.zeroBanks
  try dsimp only
  repeat' first
    | with_reducible exact keeps_refl _ | with_reducible assumption
    | ((with_reducible apply keeps_step); (with_reducible apply keeps_zeroArr); rfl) | split

theorem sound_pairPorts (s : State) (hs : s.Sound q) : (State.pairPorts s).Sound q := by
  unfold State.pairPorts
  try dsimp only
  repeat' first
    | with_reducible assumption | with_reducible apply sound_mirrorFlush | with_reducible apply sound_mirrorPorts
    | with_reducible apply sound_foldl | intro _ _ _ | split

theorem keeps_pairPorts (s : State) : Keeps [.pmu, .pair, .links, .out] s (State.pairPorts s) := by
  unfold State.pairPorts
  try dsimp only
  repeat' first
    | with_reducible exact keeps_refl _ | with_reducible assumption
    | ((with_reducible apply keeps_step); (with_reducible apply keeps_mirrorFlush); rfl)
    | ((with_reducible apply keeps_step); (with_reducible apply keeps_mirrorPorts); rfl)
    | with_reducible apply keeps_foldl | intro _ _ _ | split

theorem sound_advertise (s : State) (hs : s.Sound q) : (State.advertise s).Sound q := by
  unfold State.advertise
  try dsimp only
  repeat' first
    | with_reducible assumption | with_reducible apply sound_foldl | intro _ _ _ | split
    | with_reducible apply sound_mk

theorem keeps_advertise (s : State) : Keeps [.links] s (State.advertise s) := by
  unfold State.advertise
  try dsimp only
  repeat' first
    | with_reducible exact keeps_refl _ | with_reducible assumption | with_reducible apply keeps_foldl | intro _ _ _
    | split | ((with_reducible apply keeps_step); (with_reducible apply upd_links); rfl)

theorem sound_lockEnables (s : State) (hs : s.Sound q) : (State.lockEnables s).Sound q := by
  have hl := hs.2.2.1
  simp only [Clocks.locked, Bool.and_eq_true, beq_iff_eq] at hl
  refine sound_setEnables _ _ _ hs.1 hs.2.1 hs.2.2.2 ?_ ?_
  · exact BitVec.and_zero
  · exact lock_or_or _ _ _ hl.2

theorem keeps_lockEnables (s : State) : Keeps [.pair, .ckp, .links] s (State.lockEnables s) := by
  unfold State.lockEnables
  try dsimp only
  repeat' first
    | with_reducible exact keeps_refl _ | with_reducible assumption
    | ((with_reducible apply keeps_step); (with_reducible apply keeps_setEnables); rfl) | split
    | ((with_reducible apply keeps_step); (with_reducible apply upd_ckp); rfl)

theorem sound_applyBase (s : State) (bs : List Byte) (c : Cfg) (hs : s.Sound q) : (State.applyBase s bs c).Sound
    q := by
  unfold State.applyBase
  try dsimp only
  repeat' first
    | with_reducible assumption | with_reducible apply sound_enableBanks | with_reducible apply sound_zeroBanks
    | with_reducible apply sound_modShelf | with_reducible apply sound_newWindow
    | with_reducible apply sound_pairPorts | with_reducible apply sound_advertise
    | with_reducible apply sound_lockEnables | with_reducible apply sound_foldl | intro _ _ _ | split
    | with_reducible apply sound_mk

theorem keeps_applyBase (s : State) (bs : List Byte) (c : Cfg) : Keeps
    [.syb, .shelves, .arr, .tly, .cone, .pmu, .kiln, .ep, .pair, .ckp, .links, .out] s (State.applyBase s bs c)
    := by
  unfold State.applyBase
  try dsimp only
  repeat' first
    | with_reducible exact keeps_refl _ | with_reducible assumption
    | ((with_reducible apply keeps_step); (with_reducible apply keeps_enableBanks); rfl)
    | ((with_reducible apply keeps_step); (with_reducible apply keeps_zeroBanks); rfl)
    | ((with_reducible apply keeps_step); (with_reducible apply keeps_modShelf); rfl)
    | ((with_reducible apply keeps_step); (with_reducible apply keeps_newWindow); rfl)
    | ((with_reducible apply keeps_step); (with_reducible apply keeps_pairPorts); rfl)
    | ((with_reducible apply keeps_step); (with_reducible apply keeps_advertise); rfl)
    | ((with_reducible apply keeps_step); (with_reducible apply keeps_lockEnables); rfl)
    | with_reducible apply keeps_foldl | intro _ _ _ | split
    | ((with_reducible apply keeps_step); (with_reducible apply upd_syb_tly_kiln_ep); rfl)

end Sys2Proof.Machine
end

