-- ==== Sys2Proof/Laws/SybinRows.lean ====
section
/-! SUPPORT. What the operations of Machine/SybinRows.lean do to the whole state, two lemmas per operation: `sound_` (it keeps the
queue of waiting commands and the invariant of Safety.lean) and `keeps_` (the fields that it may change). -/
namespace Sys2Proof.Machine

variable {q : List Instr}

theorem sound_loadFail (s : State) (st : BitVec 8) (hs : s.Sound q) : (State.loadFail s st).Sound q := by
  unfold State.loadFail
  try dsimp only
  repeat' first
    | with_reducible assumption | split | with_reducible apply sound_mk

theorem keeps_loadFail (s : State) (st : BitVec 8) : Keeps [.syb] s (State.loadFail s st) := by
  unfold State.loadFail
  try dsimp only
  repeat' first
    | with_reducible exact keeps_refl _ | with_reducible assumption | split
    | ((with_reducible apply keeps_step); (with_reducible apply upd_syb); rfl)

theorem sound_zeroMats (s : State) (ms : List (Nat × Nat × Nat)) (hs : s.Sound q) : (State.zeroMats s ms).Sound
    q := by
  unfold State.zeroMats
  refine sound_arr hs fun h => ?_
  rw [wf_iff] at *
  exact ⟨twf_filter _ h.1, h.2⟩

theorem keeps_zeroMats (s : State) (ms : List (Nat × Nat × Nat)) : Keeps [.arr] s (State.zeroMats s ms) := by
  unfold State.zeroMats
  try dsimp only
  repeat' first
    | with_reducible exact keeps_refl _ | with_reducible assumption | split
    | ((with_reducible apply keeps_step); (with_reducible apply upd_arr); rfl)

theorem sound_glazeEnd (s : State) (hs : s.Sound q) : (State.glazeEnd s).Sound q := by
  unfold State.glazeEnd
  try dsimp only
  repeat' first
    | with_reducible assumption | with_reducible apply sound_enableBanks | with_reducible apply sound_zeroBanks
    | with_reducible apply sound_zeroMats | with_reducible apply sound_fireMake
    | with_reducible apply sound_retryChannels | with_reducible apply sound_releaseHeld
    | with_reducible apply sound_endCtx | with_reducible apply sound_foldl | intro _ _ _ | split
    | with_reducible apply sound_mk

theorem keeps_glazeEnd (s : State) : Keeps
    [.free, .evt, .glaze, .shelves, .arr, .home, .rings, .cmds, .tly, .cone, .pmu, .kiln, .pair, .ckp, .links, .out]
    s (State.glazeEnd s) := by
  unfold State.glazeEnd
  try dsimp only
  repeat' first
    | with_reducible exact keeps_refl _ | with_reducible assumption
    | ((with_reducible apply keeps_step); (with_reducible apply keeps_enableBanks); rfl)
    | ((with_reducible apply keeps_step); (with_reducible apply keeps_zeroBanks); rfl)
    | ((with_reducible apply keeps_step); (with_reducible apply keeps_zeroMats); rfl)
    | ((with_reducible apply keeps_step); (with_reducible apply keeps_fireMake); rfl)
    | ((with_reducible apply keeps_step); (with_reducible apply keeps_retryChannels); rfl)
    | ((with_reducible apply keeps_step); (with_reducible apply keeps_releaseHeld); rfl)
    | ((with_reducible apply keeps_step); (with_reducible apply keeps_endCtx); rfl) | with_reducible apply keeps_foldl
    | intro _ _ _ | split | ((with_reducible apply keeps_step); (with_reducible apply upd_glaze); rfl)

theorem sound_glazeFail (s : State) (e : SybFail) (hs : s.Sound q) : (State.glazeFail s e).Sound q := by
  unfold State.glazeFail
  try dsimp only
  repeat' first
    | with_reducible assumption | with_reducible apply sound_endCtx | split | with_reducible apply sound_mk

theorem keeps_glazeFail (s : State) (e : SybFail) : Keeps [.glaze, .cmds] s (State.glazeFail s e) := by
  unfold State.glazeFail
  try dsimp only
  repeat' first
    | with_reducible exact keeps_refl _ | with_reducible assumption
    | ((with_reducible apply keeps_step); (with_reducible apply keeps_endCtx); rfl) | split
    | ((with_reducible apply keeps_step); (with_reducible apply upd_glaze); rfl)

theorem sound_drainStart (s : State) (a : Cfg) (b : Cfg) (hs : s.Sound q) : (State.drainStart s a b).Sound q := by
  unfold State.drainStart
  try dsimp only
  repeat' first
    | with_reducible assumption | with_reducible apply sound_rangeWait | split

theorem keeps_drainStart (s : State) (a : Cfg) (b : Cfg) : Keeps [.ranges] s (State.drainStart s a b) := by
  unfold State.drainStart
  try dsimp only
  repeat' first
    | with_reducible exact keeps_refl _ | with_reducible assumption
    | ((with_reducible apply keeps_step); (with_reducible apply keeps_rangeWait); rfl) | split

theorem sound_regionsChanged (s : State) (a : Cfg) (is : List Nat) (hs : s.Sound q) :
    (State.regionsChanged s a is).Sound q := by
  unfold State.regionsChanged
  try dsimp only
  repeat' first
    | with_reducible assumption | with_reducible apply sound_compareEntry | with_reducible apply sound_sendMcfg
    | with_reducible apply sound_foldl | intro _ _ _ | split

theorem keeps_regionsChanged (s : State) (a : Cfg) (is : List Nat) : Keeps
    [.free, .evt, .shelves, .arr, .home, .rings, .cmds, .tly, .cone, .pmu, .kiln, .pair, .ckp, .links, .out] s
    (State.regionsChanged s a is) := by
  unfold State.regionsChanged
  try dsimp only
  repeat' first
    | with_reducible exact keeps_refl _ | with_reducible assumption
    | ((with_reducible apply keeps_step); (with_reducible apply keeps_compareEntry); rfl)
    | ((with_reducible apply keeps_step); (with_reducible apply keeps_sendMcfg); rfl)
    | with_reducible apply keeps_foldl | intro _ _ _ | split

theorem sound_glazeCommit (s : State) (hs : s.Sound q) : (State.glazeCommit s).Sound q := by
  unfold State.glazeCommit
  try dsimp only
  repeat' first
    | with_reducible assumption | with_reducible apply sound_modEntry | with_reducible apply sound_newWindow
    | with_reducible apply sound_retryChannels | with_reducible apply sound_regionsChanged
    | with_reducible apply sound_disableBanks | with_reducible apply sound_foldl | intro _ _ _ | split
    | with_reducible apply sound_mk

theorem keeps_glazeCommit (s : State) : Keeps
    [.free, .evt, .syb, .glaze, .shelves, .arr, .home, .rings, .cmds, .tly, .cone, .pmu, .kiln, .pair, .ckp, .links, .out]
    s (State.glazeCommit s) := by
  unfold State.glazeCommit
  try dsimp only
  repeat' first
    | with_reducible exact keeps_refl _ | with_reducible assumption
    | ((with_reducible apply keeps_step); (with_reducible apply keeps_modEntry); rfl)
    | ((with_reducible apply keeps_step); (with_reducible apply keeps_newWindow); rfl)
    | ((with_reducible apply keeps_step); (with_reducible apply keeps_retryChannels); rfl)
    | ((with_reducible apply keeps_step); (with_reducible apply keeps_regionsChanged); rfl)
    | ((with_reducible apply keeps_step); (with_reducible apply keeps_disableBanks); rfl)
    | with_reducible apply keeps_foldl | intro _ _ _ | split
    | ((with_reducible apply keeps_step); (with_reducible apply upd_syb_glaze_kiln); rfl)

theorem sound_loadStart (s : State) (hs : s.Sound q) : (State.loadStart s).Sound q := by
  unfold State.loadStart
  try dsimp only
  repeat' first
    | with_reducible assumption | with_reducible apply sound_event | split | with_reducible apply sound_mk

theorem keeps_loadStart (s : State) : Keeps [.evt, .syb] s (State.loadStart s) := by
  unfold State.loadStart
  try dsimp only
  repeat' first
    | with_reducible exact keeps_refl _ | with_reducible assumption
    | ((with_reducible apply keeps_step); (with_reducible apply keeps_event); rfl) | split
    | ((with_reducible apply keeps_step); (with_reducible apply upd_syb); rfl)

end Sys2Proof.Machine
end

