-- ==== Sys2Proof/Laws/RegWrite.lean ====
section
/-! SUPPORT. What the operations of Machine/RegWrite.lean do to the whole state, two lemmas per operation: `sound_` (it keeps the
queue of waiting commands and the invariant of Safety.lean) and `keeps_` (the fields that it may change). -/
namespace Sys2Proof.Machine

variable {q : List Instr}

theorem sound_winCfg (s : State) (v : Word) (hs : s.Sound q) : (State.winCfg s v).Sound q := by
  unfold State.winCfg
  try dsimp only
  repeat' first
    | with_reducible assumption | split | with_reducible apply sound_mk

theorem keeps_winCfg (s : State) (v : Word) : Keeps [.pmu] s (State.winCfg s v) := by
  unfold State.winCfg
  try dsimp only
  repeat' first
    | with_reducible exact keeps_refl _ | with_reducible assumption | split
    | ((with_reducible apply keeps_step); (with_reducible apply upd_pmu); rfl)

theorem sound_writeTly (s : State) (off : Nat) (v : Word) (hs : s.Sound q) : (State.writeTly s off v).Sound q := by
  unfold State.writeTly
  try dsimp only
  repeat' first
    | with_reducible assumption | split | with_reducible apply sound_mk

theorem keeps_writeTly (s : State) (off : Nat) (v : Word) : Keeps [.tly] s (State.writeTly s off v) := by
  unfold State.writeTly
  try dsimp only
  repeat' first
    | with_reducible exact keeps_refl _ | with_reducible assumption | split
    | ((with_reducible apply keeps_step); (with_reducible apply upd_tly); rfl)

theorem sound_writeDrift (s : State) (v : Word) (hs : s.Sound q) : (State.writeDrift s v).Sound q := by
  unfold State.writeDrift
  try dsimp only
  repeat' first
    | with_reducible assumption | with_reducible apply sound_driftClear | split | with_reducible apply sound_mk
    | ((with_reducible apply sound_ckp); rotate_left; rfl)

theorem keeps_writeDrift (s : State) (v : Word) : Keeps [.ckp] s (State.writeDrift s v) := by
  unfold State.writeDrift
  try dsimp only
  repeat' first
    | with_reducible exact keeps_refl _ | with_reducible assumption
    | ((with_reducible apply keeps_step); (with_reducible apply keeps_driftClear); rfl) | split
    | ((with_reducible apply keeps_step); (with_reducible apply upd_ckp); rfl)

theorem sound_evtPop (s : State) (hs : s.Sound q) : (State.evtPop s).Sound q := by
  unfold State.evtPop
  split
  · exact sound_evt hs id
  · rename_i e rest heq
    refine sound_evt hs fun h => ?_
    rw [Events.bounded, heq, List.length_cons, decide_eq_true_eq] at h
    rw [Events.bounded, decide_eq_true_eq]
    exact Nat.le_of_succ_le h

theorem keeps_evtPop (s : State) : Keeps [.evt] s (State.evtPop s) := by
  unfold State.evtPop
  try dsimp only
  repeat' first
    | with_reducible exact keeps_refl _ | with_reducible assumption | split
    | ((with_reducible apply keeps_step); (with_reducible apply upd_evt); rfl)

theorem sound_writeEvt (s : State) (off : Nat) (v : Word) (hs : s.Sound q) : (State.writeEvt s off v).Sound q := by
  unfold State.writeEvt
  try dsimp only
  repeat' first
    | with_reducible assumption | with_reducible apply sound_evtPop | split | with_reducible apply sound_mk
    | ((with_reducible apply sound_evt); rotate_left; exact id)

theorem keeps_writeEvt (s : State) (off : Nat) (v : Word) : Keeps [.evt] s (State.writeEvt s off v) := by
  unfold State.writeEvt
  try dsimp only
  repeat' first
    | with_reducible exact keeps_refl _ | with_reducible assumption
    | ((with_reducible apply keeps_step); (with_reducible apply keeps_evtPop); rfl) | split
    | ((with_reducible apply keeps_step); (with_reducible apply upd_evt); rfl)

theorem sound_writeQuench (s : State) (v : Word) (hs : s.Sound q) : (State.writeQuench s v).Sound q := by
  unfold State.writeQuench
  try dsimp only
  repeat' first
    | with_reducible assumption | with_reducible apply sound_quenchAccept | with_reducible apply sound_quenchForce
    | split

theorem keeps_writeQuench (s : State) (v : Word) : Keeps [.free, .cone, .ep, .ckp, .out] s
    (State.writeQuench s v) := by
  unfold State.writeQuench
  try dsimp only
  repeat' first
    | with_reducible exact keeps_refl _ | with_reducible assumption
    | ((with_reducible apply keeps_step); (with_reducible apply keeps_quenchAccept); rfl)
    | ((with_reducible apply keeps_step); (with_reducible apply keeps_quenchForce); rfl) | split

theorem sound_writeFlt (s : State) (off : Nat) (v : Word) (hs : s.Sound q) : (State.writeFlt s off v).Sound q := by
  unfold State.writeFlt
  try dsimp only
  repeat' first
    | with_reducible assumption | with_reducible apply sound_writeQuench | split | with_reducible apply sound_mk

theorem keeps_writeFlt (s : State) (off : Nat) (v : Word) : Keeps [.free, .cone, .flt, .ep, .ckp, .out] s
    (State.writeFlt s off v) := by
  unfold State.writeFlt
  try dsimp only
  repeat' first
    | with_reducible exact keeps_refl _ | with_reducible assumption
    | ((with_reducible apply keeps_step); (with_reducible apply keeps_writeQuench); rfl) | split
    | ((with_reducible apply keeps_step); (with_reducible apply upd_flt_ep); rfl)

theorem sound_writeBoot (s : State) (v : Word) (hs : s.Sound q) : (State.writeBoot s v).Sound q := by
  unfold State.writeBoot
  try dsimp only
  repeat' first
    | with_reducible assumption | with_reducible apply sound_bootGo | split | with_reducible apply sound_mk

theorem keeps_writeBoot (s : State) (v : Word) : Keeps [.boot, .evt, .pair, .ckp, .links] s
    (State.writeBoot s v) := by
  unfold State.writeBoot
  try dsimp only
  repeat' first
    | with_reducible exact keeps_refl _ | with_reducible assumption
    | ((with_reducible apply keeps_step); (with_reducible apply keeps_bootGo); rfl) | split
    | ((with_reducible apply keeps_step); (with_reducible apply upd_boot); rfl)

theorem sound_writePar (s : State) (off : Nat) (v : Word) (hs : s.Sound q) : (State.writePar s off v).Sound q := by
  unfold State.writePar
  try dsimp only
  repeat' first
    | with_reducible assumption | with_reducible apply sound_fullResync | split | with_reducible apply sound_mk

theorem keeps_writePar (s : State) (off : Nat) (v : Word) : Keeps
    [.free, .evt, .shelves, .arr, .home, .rings, .cmds, .tly, .cone, .pmu, .kiln, .pair, .ckp, .links, .out] s
    (State.writePar s off v) := by
  unfold State.writePar
  try dsimp only
  repeat' first
    | with_reducible exact keeps_refl _ | with_reducible assumption
    | ((with_reducible apply keeps_step); (with_reducible apply keeps_fullResync); rfl) | split
    | ((with_reducible apply keeps_step); (with_reducible apply upd_pair); rfl)

theorem sound_writeBase (s : State) (n : Nat) (cq : Bool) (f : Ring → Ring) (hs : s.Sound q) :
    (State.writeBase s n cq f).Sound q := by
  unfold State.writeBase
  try dsimp only
  repeat' first
    | with_reducible assumption | with_reducible apply sound_modRing | split

theorem keeps_writeBase (s : State) (n : Nat) (cq : Bool) (f : Ring → Ring) : Keeps [.rings] s
    (State.writeBase s n cq f) := by
  unfold State.writeBase
  try dsimp only
  repeat' first
    | with_reducible exact keeps_refl _ | with_reducible assumption
    | ((with_reducible apply keeps_step); (with_reducible apply keeps_modRing); rfl) | split

theorem sound_writeStat (s : State) (n : Nat) (v : Word) (hs : s.Sound q) : (State.writeStat s n v).Sound q := by
  unfold State.writeStat
  try dsimp only
  repeat' first
    | with_reducible assumption | with_reducible apply sound_modRing | with_reducible apply sound_cqErrClear | split

theorem keeps_writeStat (s : State) (n : Nat) (v : Word) : Keeps
    [.free, .evt, .shelves, .arr, .home, .rings, .cmds, .tly, .cone, .pmu, .kiln, .pair, .ckp, .links, .out] s
    (State.writeStat s n v) := by
  unfold State.writeStat
  try dsimp only
  repeat' first
    | with_reducible exact keeps_refl _ | with_reducible assumption
    | ((with_reducible apply keeps_step); (with_reducible apply keeps_modRing); rfl)
    | ((with_reducible apply keeps_step); (with_reducible apply keeps_cqErrClear); rfl) | split

theorem sound_writeRing (s : State) (n : Nat) (off : Nat) (v : Word) (hs : s.Sound q) :
    (State.writeRing s n off v).Sound q := by
  unfold State.writeRing
  try dsimp only
  repeat' first
    | with_reducible assumption | with_reducible apply sound_writeBase | with_reducible apply sound_ringCfg
    | with_reducible apply sound_writeStat | with_reducible apply sound_kick | split

theorem keeps_writeRing (s : State) (n : Nat) (off : Nat) (v : Word) : Keeps
    [.free, .evt, .shelves, .arr, .home, .rings, .cmds, .tly, .cone, .pmu, .kiln, .pair, .ckp, .links, .out] s
    (State.writeRing s n off v) := by
  unfold State.writeRing
  try dsimp only
  repeat' first
    | with_reducible exact keeps_refl _ | with_reducible assumption
    | ((with_reducible apply keeps_step); (with_reducible apply keeps_writeBase); rfl)
    | ((with_reducible apply keeps_step); (with_reducible apply keeps_ringCfg); rfl)
    | ((with_reducible apply keeps_step); (with_reducible apply keeps_writeStat); rfl)
    | ((with_reducible apply keeps_step); (with_reducible apply keeps_kick); rfl) | split

theorem sound_modPmc (s : State) (n : Nat) (f : Pmc → Pmc) (hs : s.Sound q) : (State.modPmc s n f).Sound q := by
  unfold State.modPmc
  try dsimp only
  repeat' first
    | with_reducible assumption | split | with_reducible apply sound_mk

theorem keeps_modPmc (s : State) (n : Nat) (f : Pmc → Pmc) : Keeps [.pmu] s (State.modPmc s n f) := by
  unfold State.modPmc
  try dsimp only
  repeat' first
    | with_reducible exact keeps_refl _ | with_reducible assumption | split
    | ((with_reducible apply keeps_step); (with_reducible apply upd_pmu); rfl)

theorem sound_writeFwu (s : State) (off : Nat) (v : Word) (hs : s.Sound q) : (State.writeFwu s off v).Sound q := by
  unfold State.writeFwu
  try dsimp only
  repeat' first
    | with_reducible assumption | split | with_reducible apply sound_mk

theorem keeps_writeFwu (s : State) (off : Nat) (v : Word) : Keeps [.fw] s (State.writeFwu s off v) := by
  unfold State.writeFwu
  try dsimp only
  repeat' first
    | with_reducible exact keeps_refl _ | with_reducible assumption | split
    | ((with_reducible apply keeps_step); (with_reducible apply upd_fw); rfl)

theorem sound_writeSeed (s : State) (sh : Nat) (v : Word) (hs : s.Sound q) : (State.writeSeed s sh v).Sound q := by
  unfold State.writeSeed
  try dsimp only
  repeat' first
    | with_reducible assumption | with_reducible apply sound_modShelf | split

theorem keeps_writeSeed (s : State) (sh : Nat) (v : Word) : Keeps [.shelves] s (State.writeSeed s sh v) := by
  unfold State.writeSeed
  try dsimp only
  repeat' first
    | with_reducible exact keeps_refl _ | with_reducible assumption
    | ((with_reducible apply keeps_step); (with_reducible apply keeps_modShelf); rfl) | split

theorem sound_writeMux (s : State) (v : Word) (hs : s.Sound q) : (State.writeMux s v).Sound q := by
  unfold State.writeMux
  try dsimp only
  repeat' first
    | with_reducible assumption | with_reducible apply sound_modHalf | split

theorem keeps_writeMux (s : State) (v : Word) : Keeps [.ckp] s (State.writeMux s v) := by
  unfold State.writeMux
  try dsimp only
  repeat' first
    | with_reducible exact keeps_refl _ | with_reducible assumption
    | ((with_reducible apply keeps_step); (with_reducible apply keeps_modHalf); rfl) | split

theorem sound_writeCkp (s : State) (off : Nat) (v : Word) (hs : s.Sound q) : (State.writeCkp s off v).Sound q := by
  unfold State.writeCkp
  try dsimp only
  repeat' first
    | with_reducible assumption | with_reducible apply sound_clkenWrite | with_reducible apply sound_muxSelect
    | with_reducible apply sound_writeMux | with_reducible apply sound_writeDrift | split
    | with_reducible apply sound_mk | ((with_reducible apply sound_ckp); rotate_left; rfl)

theorem keeps_writeCkp (s : State) (off : Nat) (v : Word) : Keeps [.evt, .pair, .ckp, .links] s
    (State.writeCkp s off v) := by
  unfold State.writeCkp
  try dsimp only
  repeat' first
    | with_reducible exact keeps_refl _ | with_reducible assumption
    | ((with_reducible apply keeps_step); (with_reducible apply keeps_clkenWrite); rfl)
    | ((with_reducible apply keeps_step); (with_reducible apply keeps_muxSelect); rfl)
    | ((with_reducible apply keeps_step); (with_reducible apply keeps_writeMux); rfl)
    | ((with_reducible apply keeps_step); (with_reducible apply keeps_writeDrift); rfl) | split
    | ((with_reducible apply keeps_step); (with_reducible apply upd_ckp); rfl)

theorem sound_writeLif (s : State) (off : Nat) (v : Word) (hs : s.Sound q) : (State.writeLif s off v).Sound q := by
  unfold State.writeLif
  try dsimp only
  repeat' first
    | with_reducible assumption | split | with_reducible apply sound_mk

theorem keeps_writeLif (s : State) (off : Nat) (v : Word) : Keeps [.life] s (State.writeLif s off v) := by
  unfold State.writeLif
  try dsimp only
  repeat' first
    | with_reducible exact keeps_refl _ | with_reducible assumption | split
    | ((with_reducible apply keeps_step); (with_reducible apply upd_life); rfl)

theorem sound_writeMonEn (s : State) (v : Word) (hs : s.Sound q) : (State.writeMonEn s v).Sound q := by
  unfold State.writeMonEn
  try dsimp only
  repeat' first
    | with_reducible assumption | with_reducible apply sound_spoilWindows | split | with_reducible apply sound_mk

theorem keeps_writeMonEn (s : State) (v : Word) : Keeps [.cone] s (State.writeMonEn s v) := by
  unfold State.writeMonEn
  try dsimp only
  repeat' first
    | with_reducible exact keeps_refl _ | with_reducible assumption
    | ((with_reducible apply keeps_step); (with_reducible apply keeps_spoilWindows); rfl) | split
    | ((with_reducible apply keeps_step); (with_reducible apply upd_cone); rfl)

theorem sound_writeCon (s : State) (off : Nat) (v : Word) (hs : s.Sound q) : (State.writeCon s off v).Sound q := by
  unfold State.writeCon
  try dsimp only
  repeat' first
    | with_reducible assumption | with_reducible apply sound_writeMonEn | split | with_reducible apply sound_mk

theorem keeps_writeCon (s : State) (off : Nat) (v : Word) : Keeps [.cone] s (State.writeCon s off v) := by
  unfold State.writeCon
  try dsimp only
  repeat' first
    | with_reducible exact keeps_refl _ | with_reducible assumption
    | ((with_reducible apply keeps_step); (with_reducible apply keeps_writeMonEn); rfl) | split
    | ((with_reducible apply keeps_step); (with_reducible apply upd_cone); rfl)

theorem sound_writeLineop (s : State) (v : Word) (hs : s.Sound q) : (State.writeLineop s v).Sound q := by
  unfold State.writeLineop
  try dsimp only
  repeat' first
    | with_reducible assumption | with_reducible apply sound_event | with_reducible apply sound_lineopStart | split

theorem keeps_writeLineop (s : State) (v : Word) : Keeps
    [.free, .evt, .shelves, .arr, .dir, .home, .back, .rings, .cmds, .ranges, .tly, .cone, .pmu, .kiln, .flt, .ep, .pair, .life, .ckp, .links, .out]
    s (State.writeLineop s v) := by
  unfold State.writeLineop
  try dsimp only
  repeat' first
    | with_reducible exact keeps_refl _ | with_reducible assumption
    | ((with_reducible apply keeps_step); (with_reducible apply keeps_event); rfl)
    | ((with_reducible apply keeps_step); (with_reducible apply keeps_lineopStart); rfl) | split

theorem sound_writeAgent (s : State) (v : Word) (hs : s.Sound q) : (State.writeAgent s v).Sound q := by
  unfold State.writeAgent
  try dsimp only
  repeat' first
    | with_reducible assumption | with_reducible apply sound_agentBusy | with_reducible apply sound_agentJoin
    | with_reducible apply sound_agentLeave | with_reducible apply sound_agentRead | split

theorem keeps_writeAgent (s : State) (v : Word) : Keeps
    [.free, .evt, .agents, .shelves, .home, .pmu, .ckp, .links, .out] s (State.writeAgent s v) := by
  unfold State.writeAgent
  try dsimp only
  repeat' first
    | with_reducible exact keeps_refl _ | with_reducible assumption
    | ((with_reducible apply keeps_step); (with_reducible apply keeps_agentBusy); rfl)
    | ((with_reducible apply keeps_step); (with_reducible apply keeps_agentJoin); rfl)
    | ((with_reducible apply keeps_step); (with_reducible apply keeps_agentLeave); rfl)
    | ((with_reducible apply keeps_step); (with_reducible apply keeps_agentRead); rfl) | split

theorem sound_writePeerCtrl (s : State) (n : Nat) (v : Word) (hs : s.Sound q) :
    (State.writePeerCtrl s n v).Sound q := by
  unfold State.writePeerCtrl
  try dsimp only
  repeat' first
    | with_reducible assumption | with_reducible apply sound_peerOn | split | with_reducible apply sound_mk

theorem keeps_writePeerCtrl (s : State) (n : Nat) (v : Word) : Keeps [.kiln] s (State.writePeerCtrl s n v) := by
  unfold State.writePeerCtrl
  try dsimp only
  repeat' first
    | with_reducible exact keeps_refl _ | with_reducible assumption
    | ((with_reducible apply keeps_step); (with_reducible apply keeps_peerOn); rfl) | split
    | ((with_reducible apply keeps_step); (with_reducible apply upd_kiln); rfl)

theorem sound_writeKpeer (s : State) (n : Nat) (off : Nat) (v : Word) (hs : s.Sound q) :
    (State.writeKpeer s n off v).Sound q := by
  unfold State.writeKpeer
  try dsimp only
  repeat' first
    | with_reducible assumption | with_reducible apply sound_writePeerCtrl | split | with_reducible apply sound_mk

theorem keeps_writeKpeer (s : State) (n : Nat) (off : Nat) (v : Word) : Keeps [.kiln] s
    (State.writeKpeer s n off v) := by
  unfold State.writeKpeer
  try dsimp only
  repeat' first
    | with_reducible exact keeps_refl _ | with_reducible assumption
    | ((with_reducible apply keeps_step); (with_reducible apply keeps_writePeerCtrl); rfl) | split
    | ((with_reducible apply keeps_step); (with_reducible apply upd_kiln); rfl)

theorem sound_writeGlb (s : State) (off : Nat) (v : Word) (hs : s.Sound q) : (State.writeGlb s off v).Sound q := by
  unfold State.writeGlb
  try dsimp only
  repeat' first
    | with_reducible assumption | with_reducible apply sound_writeLineop | with_reducible apply sound_writeAgent
    | with_reducible apply sound_writeBoot | with_reducible apply sound_writeKpeer | split
    | with_reducible apply sound_mk

theorem keeps_writeGlb (s : State) (off : Nat) (v : Word) : Keeps
    [.free, .boot, .evt, .agents, .shelves, .arr, .dir, .home, .back, .rings, .cmds, .ranges, .tly, .cone, .pmu, .kiln, .flt, .ep, .pair, .life, .ckp, .links, .out]
    s (State.writeGlb s off v) := by
  unfold State.writeGlb
  try dsimp only
  repeat' first
    | with_reducible exact keeps_refl _ | with_reducible assumption
    | ((with_reducible apply keeps_step); (with_reducible apply keeps_writeLineop); rfl)
    | ((with_reducible apply keeps_step); (with_reducible apply keeps_writeAgent); rfl)
    | ((with_reducible apply keeps_step); (with_reducible apply keeps_writeBoot); rfl)
    | ((with_reducible apply keeps_step); (with_reducible apply keeps_writeKpeer); rfl) | split
    | ((with_reducible apply keeps_step); (with_reducible apply upd_boot_agents_ranges_kiln); rfl)

theorem sound_writeSyb (s : State) (off : Nat) (v : Word) (hs : s.Sound q) : (State.writeSyb s off v).Sound q := by
  unfold State.writeSyb
  try dsimp only
  repeat' first
    | with_reducible assumption | with_reducible apply sound_loadStart | split | with_reducible apply sound_mk

theorem keeps_writeSyb (s : State) (off : Nat) (v : Word) : Keeps [.evt, .syb] s (State.writeSyb s off v) := by
  unfold State.writeSyb
  try dsimp only
  repeat' first
    | with_reducible exact keeps_refl _ | with_reducible assumption
    | ((with_reducible apply keeps_step); (with_reducible apply keeps_loadStart); rfl) | split
    | ((with_reducible apply keeps_step); (with_reducible apply upd_syb); rfl)

theorem sound_writeRng (s : State) (off : Nat) (v : Word) (hs : s.Sound q) : (State.writeRng s off v).Sound q := by
  unfold State.writeRng
  try dsimp only
  repeat' first
    | with_reducible assumption | with_reducible apply sound_writeRing | split | with_reducible apply sound_mk

theorem keeps_writeRng (s : State) (off : Nat) (v : Word) : Keeps
    [.free, .evt, .shelves, .arr, .home, .rings, .cmds, .tly, .cone, .pmu, .kiln, .pair, .ckp, .links, .out] s
    (State.writeRng s off v) := by
  unfold State.writeRng
  try dsimp only
  repeat' first
    | with_reducible exact keeps_refl _ | with_reducible assumption
    | ((with_reducible apply keeps_step); (with_reducible apply keeps_writeRing); rfl) | split
    | ((with_reducible apply keeps_step); (with_reducible apply upd_cmds); rfl)

theorem sound_pmcLoad (s : State) (n : Nat) (v : Word) (hs : s.Sound q) : (State.pmcLoad s n v).Sound q := by
  unfold State.pmcLoad
  try dsimp only
  repeat' first
    | with_reducible assumption | with_reducible apply sound_modPmc | split

theorem keeps_pmcLoad (s : State) (n : Nat) (v : Word) : Keeps [.pmu] s (State.pmcLoad s n v) := by
  unfold State.pmcLoad
  try dsimp only
  repeat' first
    | with_reducible exact keeps_refl _ | with_reducible assumption
    | ((with_reducible apply keeps_step); (with_reducible apply keeps_modPmc); rfl) | split

theorem sound_writePmc (s : State) (n : Nat) (off : Nat) (v : Word) (hs : s.Sound q) :
    (State.writePmc s n off v).Sound q := by
  unfold State.writePmc
  try dsimp only
  repeat' first
    | with_reducible assumption | with_reducible apply sound_pmcLoad | with_reducible apply sound_modPmc
    | with_reducible apply sound_ripen | split

theorem keeps_writePmc (s : State) (n : Nat) (off : Nat) (v : Word) : Keeps [.free, .pmu] s
    (State.writePmc s n off v) := by
  unfold State.writePmc
  try dsimp only
  repeat' first
    | with_reducible exact keeps_refl _ | with_reducible assumption
    | ((with_reducible apply keeps_step); (with_reducible apply keeps_pmcLoad); rfl)
    | ((with_reducible apply keeps_step); (with_reducible apply keeps_modPmc); rfl)
    | ((with_reducible apply keeps_step); (with_reducible apply keeps_ripen); rfl) | split

theorem sound_writePmu (s : State) (off : Nat) (v : Word) (hs : s.Sound q) : (State.writePmu s off v).Sound q := by
  unfold State.writePmu
  try dsimp only
  repeat' first
    | with_reducible assumption | with_reducible apply sound_winCfg | with_reducible apply sound_writePmc | split
    | with_reducible apply sound_mk

theorem keeps_writePmu (s : State) (off : Nat) (v : Word) : Keeps [.free, .pmu] s (State.writePmu s off v) := by
  unfold State.writePmu
  try dsimp only
  repeat' first
    | with_reducible exact keeps_refl _ | with_reducible assumption
    | ((with_reducible apply keeps_step); (with_reducible apply keeps_winCfg); rfl)
    | ((with_reducible apply keeps_step); (with_reducible apply keeps_writePmc); rfl) | split
    | ((with_reducible apply keeps_step); (with_reducible apply upd_pmu); rfl)

theorem sound_writeBankEn (s : State) (sh : Nat) (v : Word) (hs : s.Sound q) : (State.writeBankEn s sh v).Sound
    q := by
  unfold State.writeBankEn
  try dsimp only
  repeat' first
    | with_reducible assumption | with_reducible apply sound_cacheOn | with_reducible apply sound_cacheOff
    | with_reducible apply sound_foldl | intro _ _ _ | split

theorem keeps_writeBankEn (s : State) (sh : Nat) (v : Word) : Keeps [.evt, .shelves, .ranges] s
    (State.writeBankEn s sh v) := by
  unfold State.writeBankEn
  try dsimp only
  repeat' first
    | with_reducible exact keeps_refl _ | with_reducible assumption
    | ((with_reducible apply keeps_step); (with_reducible apply keeps_cacheOn); rfl)
    | ((with_reducible apply keeps_step); (with_reducible apply keeps_cacheOff); rfl)
    | with_reducible apply keeps_foldl | intro _ _ _ | split

theorem sound_writeTagInv (s : State) (sh : Nat) (v : Word) (hs : s.Sound q) : (State.writeTagInv s sh v).Sound
    q := by
  unfold State.writeTagInv
  try dsimp only
  repeat' first
    | with_reducible assumption | with_reducible apply sound_tagInvStart | with_reducible apply sound_foldl
    | intro _ _ _ | split

theorem keeps_writeTagInv (s : State) (sh : Nat) (v : Word) : Keeps [.shelves] s (State.writeTagInv s sh v) := by
  unfold State.writeTagInv
  try dsimp only
  repeat' first
    | with_reducible exact keeps_refl _ | with_reducible assumption
    | ((with_reducible apply keeps_step); (with_reducible apply keeps_tagInvStart); rfl)
    | with_reducible apply keeps_foldl | intro _ _ _ | split

theorem sound_writeShf (s : State) (sh : Nat) (off : Nat) (v : Word) (hs : s.Sound q) :
    (State.writeShf s sh off v).Sound q := by
  unfold State.writeShf
  try dsimp only
  repeat' first
    | with_reducible assumption | with_reducible apply sound_modShelf | with_reducible apply sound_writeBankEn
    | with_reducible apply sound_writeTagInv | with_reducible apply sound_writeSeed | split

theorem keeps_writeShf (s : State) (sh : Nat) (off : Nat) (v : Word) : Keeps [.evt, .shelves, .ranges] s
    (State.writeShf s sh off v) := by
  unfold State.writeShf
  try dsimp only
  repeat' first
    | with_reducible exact keeps_refl _ | with_reducible assumption
    | ((with_reducible apply keeps_step); (with_reducible apply keeps_modShelf); rfl)
    | ((with_reducible apply keeps_step); (with_reducible apply keeps_writeBankEn); rfl)
    | ((with_reducible apply keeps_step); (with_reducible apply keeps_writeTagInv); rfl)
    | ((with_reducible apply keeps_step); (with_reducible apply keeps_writeSeed); rfl) | split

theorem sound_writeReg (s : State) (addr : Nat) (v : Word) (hs : s.Sound q) : (State.writeReg s addr v).Sound q := by
  unfold State.writeReg
  try dsimp only
  repeat' first
    | with_reducible assumption | with_reducible apply sound_writeGlb | with_reducible apply sound_writeCkp
    | with_reducible apply sound_writeSyb | with_reducible apply sound_writeRng | with_reducible apply sound_writeEvt
    | with_reducible apply sound_writeCon | with_reducible apply sound_writePmu | with_reducible apply sound_writeFlt
    | with_reducible apply sound_writePar | with_reducible apply sound_writeFwu | with_reducible apply sound_writeLif
    | with_reducible apply sound_writeTly | with_reducible apply sound_writeShf | split

theorem keeps_writeReg (s : State) (addr : Nat) (v : Word) : Keeps
    [.free, .boot, .evt, .syb, .agents, .shelves, .arr, .dir, .home, .back, .rings, .cmds, .ranges, .tly, .cone, .pmu, .kiln, .flt, .ep, .pair, .fw, .life, .ckp, .links, .out]
    s (State.writeReg s addr v) := by
  unfold State.writeReg
  try dsimp only
  repeat' first
    | with_reducible exact keeps_refl _ | with_reducible assumption
    | ((with_reducible apply keeps_step); (with_reducible apply keeps_writeGlb); rfl)
    | ((with_reducible apply keeps_step); (with_reducible apply keeps_writeCkp); rfl)
    | ((with_reducible apply keeps_step); (with_reducible apply keeps_writeSyb); rfl)
    | ((with_reducible apply keeps_step); (with_reducible apply keeps_writeRng); rfl)
    | ((with_reducible apply keeps_step); (with_reducible apply keeps_writeEvt); rfl)
    | ((with_reducible apply keeps_step); (with_reducible apply keeps_writeCon); rfl)
    | ((with_reducible apply keeps_step); (with_reducible apply keeps_writePmu); rfl)
    | ((with_reducible apply keeps_step); (with_reducible apply keeps_writeFlt); rfl)
    | ((with_reducible apply keeps_step); (with_reducible apply keeps_writePar); rfl)
    | ((with_reducible apply keeps_step); (with_reducible apply keeps_writeFwu); rfl)
    | ((with_reducible apply keeps_step); (with_reducible apply keeps_writeLif); rfl)
    | ((with_reducible apply keeps_step); (with_reducible apply keeps_writeTly); rfl)
    | ((with_reducible apply keeps_step); (with_reducible apply keeps_writeShf); rfl) | split

end Sys2Proof.Machine
end

