-- ==== Sys2Proof/Laws/ApbRows.lean ====
section
/-! SUPPORT. What the operations of Machine/ApbRows.lean do to the whole state, two lemmas per operation: `sound_` (it keeps the
queue of waiting commands and the invariant of Safety.lean) and `keeps_` (the fields that it may change). -/
namespace Sys2Proof.Machine

variable {q : List Instr}

theorem sound_answer (s : State) (v : Nat) (err : Bool) (hs : s.Sound q) : (State.answer s v err).Sound q := by
  unfold State.answer
  try dsimp only
  repeat' first
    | with_reducible assumption | split | with_reducible apply sound_mk

theorem keeps_answer (s : State) (v : Nat) (err : Bool) : Keeps [.apb] s (State.answer s v err) := by
  unfold State.answer
  try dsimp only
  repeat' first
    | with_reducible exact keeps_refl _ | with_reducible assumption | split
    | ((with_reducible apply keeps_step); (with_reducible apply upd_apb); rfl)

theorem sound_perform (s : State) (a : Held) (hs : s.Sound q) : (State.perform s a).Sound q := by
  unfold State.perform
  try dsimp only
  repeat' first
    | with_reducible assumption | with_reducible apply sound_answer | with_reducible apply sound_writeReg
    | with_reducible apply sound_readValue | with_reducible apply sound_readEffect | split

theorem keeps_perform (s : State) (a : Held) : Keeps
    [.free, .boot, .apb, .evt, .syb, .agents, .shelves, .arr, .dir, .home, .back, .rings, .cmds, .ranges, .tly, .cone, .pmu, .kiln, .flt, .ep, .pair, .fw, .life, .ckp, .links, .out]
    s (State.perform s a) := by
  unfold State.perform
  try dsimp only
  repeat' first
    | with_reducible exact keeps_refl _ | with_reducible assumption
    | ((with_reducible apply keeps_step); (with_reducible apply keeps_answer); rfl)
    | ((with_reducible apply keeps_step); (with_reducible apply keeps_writeReg); rfl)
    | ((with_reducible apply keeps_step); (with_reducible apply keeps_readValue); rfl)
    | ((with_reducible apply keeps_step); (with_reducible apply keeps_readEffect); rfl) | split

theorem sound_accessHalf (s : State) (h : Half) (a : Held) (hs : s.Sound q) : (State.accessHalf s h a).Sound q := by
  unfold State.accessHalf
  try dsimp only
  repeat' first
    | with_reducible assumption | with_reducible apply sound_wakeHalf | with_reducible apply sound_releaseHeld
    | with_reducible apply sound_shelfAwake | with_reducible apply sound_perform | split
    | with_reducible apply sound_mk

theorem keeps_accessHalf (s : State) (h : Half) (a : Held) : Keeps
    [.free, .boot, .apb, .evt, .syb, .agents, .shelves, .arr, .dir, .home, .back, .rings, .cmds, .ranges, .tly, .cone, .pmu, .kiln, .flt, .ep, .pair, .fw, .life, .ckp, .links, .out]
    s (State.accessHalf s h a) := by
  unfold State.accessHalf
  try dsimp only
  repeat' first
    | with_reducible exact keeps_refl _ | with_reducible assumption
    | ((with_reducible apply keeps_step); (with_reducible apply keeps_wakeHalf); rfl)
    | ((with_reducible apply keeps_step); (with_reducible apply keeps_releaseHeld); rfl)
    | ((with_reducible apply keeps_step); (with_reducible apply keeps_shelfAwake); rfl)
    | ((with_reducible apply keeps_step); (with_reducible apply keeps_perform); rfl) | split
    | ((with_reducible apply keeps_step); (with_reducible apply upd_apb); rfl)

theorem sound_access (s : State) (a : Held) (strb : BitVec 4) (hs : s.Sound q) : (State.access s a strb).Sound q := by
  unfold State.access
  try dsimp only
  repeat' first
    | with_reducible assumption | with_reducible apply sound_answer | with_reducible apply sound_event
    | with_reducible apply sound_accessHalf | with_reducible apply sound_perform | split
    | with_reducible apply sound_mk | ((with_reducible apply sound_ckp); rotate_left; rfl)

theorem keeps_access (s : State) (a : Held) (strb : BitVec 4) : Keeps
    [.free, .boot, .apb, .evt, .syb, .agents, .shelves, .arr, .dir, .home, .back, .rings, .cmds, .ranges, .tly, .cone, .pmu, .kiln, .flt, .ep, .pair, .fw, .life, .ckp, .links, .out]
    s (State.access s a strb) := by
  unfold State.access
  try dsimp only
  repeat' first
    | with_reducible exact keeps_refl _ | with_reducible assumption
    | ((with_reducible apply keeps_step); (with_reducible apply keeps_answer); rfl)
    | ((with_reducible apply keeps_step); (with_reducible apply keeps_event); rfl)
    | ((with_reducible apply keeps_step); (with_reducible apply keeps_accessHalf); rfl)
    | ((with_reducible apply keeps_step); (with_reducible apply keeps_perform); rfl) | split
    | ((with_reducible apply keeps_step); (with_reducible apply upd_ckp); rfl)

theorem sound_apbRead (s : State) (addr : Nat) (priv : Bool) (hs : s.Sound q) :
    (State.apbRead s addr priv).Sound q := by
  unfold State.apbRead
  try dsimp only
  repeat' first
    | with_reducible assumption | with_reducible apply sound_access | split

theorem keeps_apbRead (s : State) (addr : Nat) (priv : Bool) : Keeps
    [.free, .boot, .apb, .evt, .syb, .agents, .shelves, .arr, .dir, .home, .back, .rings, .cmds, .ranges, .tly, .cone, .pmu, .kiln, .flt, .ep, .pair, .fw, .life, .ckp, .links, .out]
    s (State.apbRead s addr priv) := by
  unfold State.apbRead
  try dsimp only
  repeat' first
    | with_reducible exact keeps_refl _ | with_reducible assumption
    | ((with_reducible apply keeps_step); (with_reducible apply keeps_access); rfl) | split

theorem sound_apbWrite (s : State) (addr : Nat) (v : Word) (hs : s.Sound q) : (State.apbWrite s addr v).Sound q := by
  unfold State.apbWrite
  try dsimp only
  repeat' first
    | with_reducible assumption | with_reducible apply sound_access | split

theorem keeps_apbWrite (s : State) (addr : Nat) (v : Word) : Keeps
    [.free, .boot, .apb, .evt, .syb, .agents, .shelves, .arr, .dir, .home, .back, .rings, .cmds, .ranges, .tly, .cone, .pmu, .kiln, .flt, .ep, .pair, .fw, .life, .ckp, .links, .out]
    s (State.apbWrite s addr v) := by
  unfold State.apbWrite
  try dsimp only
  repeat' first
    | with_reducible exact keeps_refl _ | with_reducible assumption
    | ((with_reducible apply keeps_step); (with_reducible apply keeps_access); rfl) | split

theorem sound_tdo (s : State) (v : Nat) (hs : s.Sound q) : Post (State.Sound q) (State.tdo s v) := by
  unfold State.tdo
  try dsimp only
  repeat' first
    | with_reducible assumption | with_reducible apply post_next | with_reducible exact post_refused | split
    | with_reducible apply sound_mk

theorem keeps_tdo (s : State) (v : Nat) : Post (Keeps [.boot] s) (State.tdo s v) := by
  unfold State.tdo
  try dsimp only
  repeat' first
    | with_reducible exact keeps_refl _ | with_reducible assumption | with_reducible apply post_next
    | with_reducible exact post_refused | split
    | ((with_reducible apply keeps_step); (with_reducible apply upd_boot); rfl)

end Sys2Proof.Machine
end

