-- ==== Sys2Proof/Laws/FaultRows.lean ====
section
/-! SUPPORT. What the operations of Machine/FaultRows.lean do to the whole state, two lemmas per operation: `sound_` (it keeps the
queue of waiting commands and the invariant of Safety.lean) and `keeps_` (the fields that it may change). -/
namespace Sys2Proof.Machine

variable {q : List Instr}

theorem sound_wedge (s : State) (hs : s.Sound q) : (State.wedge s).Sound q := by
  unfold State.wedge
  try dsimp only
  repeat' first
    | with_reducible assumption | with_reducible apply sound_testsDone | with_reducible apply sound_foldl
    | intro _ _ _ | split | with_reducible apply sound_mk

theorem keeps_wedge (s : State) : Keeps [.flt] s (State.wedge s) := by
  unfold State.wedge
  try dsimp only
  repeat' first
    | with_reducible exact keeps_refl _ | with_reducible assumption
    | ((with_reducible apply keeps_step); (with_reducible apply keeps_testsDone); rfl)
    | with_reducible apply keeps_foldl | intro _ _ _ | split
    | ((with_reducible apply keeps_step); (with_reducible apply upd_flt); rfl)

theorem sound_finding (s : State) (f : Finding) (hs : s.Sound q) : (State.finding s f).Sound q := by
  generalize hf : @State.finding = f
  delta State.finding at hf
  subst hf
  dsimp -zeta -iota only
  repeat' first
    | with_reducible assumption | with_reducible apply sound_transient | with_reducible apply sound_lastingFault
    | split | dsimp only | with_reducible apply sound_mk

theorem keeps_finding (s : State) (f : Finding) : Keeps
    [.free, .evt, .syb, .glaze, .shelves, .arr, .dir, .home, .back, .rings, .cmds, .ranges, .tly, .cone, .pmu, .kiln, .flt, .ep, .pair, .fw, .life, .ckp, .links, .out]
    s (State.finding s f) := by
  generalize hf : @State.finding = f
  delta State.finding at hf
  subst hf
  dsimp -zeta -iota only
  repeat' first
    | with_reducible exact keeps_refl _ | with_reducible assumption
    | ((with_reducible apply keeps_step); (with_reducible apply keeps_transient); rfl)
    | ((with_reducible apply keeps_step); (with_reducible apply keeps_lastingFault); rfl) | split | dsimp only
    | ((with_reducible apply keeps_step); (with_reducible apply upd_flt); rfl)

theorem sound_scrubStep (s : State) (hs : s.Sound q) : (State.scrubStep s).Sound q := by
  unfold State.scrubStep
  try dsimp only
  repeat' first
    | with_reducible assumption | with_reducible apply sound_endCtx | with_reducible apply sound_foldl | intro _ _ _
    | split | with_reducible apply sound_mk

theorem keeps_scrubStep (s : State) : Keeps [.cmds, .flt] s (State.scrubStep s) := by
  unfold State.scrubStep
  try dsimp only
  repeat' first
    | with_reducible exact keeps_refl _ | with_reducible assumption
    | ((with_reducible apply keeps_step); (with_reducible apply keeps_endCtx); rfl) | with_reducible apply keeps_foldl
    | intro _ _ _ | split | ((with_reducible apply keeps_step); (with_reducible apply upd_flt); rfl)

end Sys2Proof.Machine
end

