-- ==== Sys2Proof/Laws/FwRows.lean ====
section
/-! SUPPORT. What the operations of Machine/FwRows.lean do to the whole state, two lemmas per operation: `sound_` (it keeps the
queue of waiting commands and the invariant of Safety.lean) and `keeps_` (the fields that it may change). -/
namespace Sys2Proof.Machine

variable {q : List Instr}

theorem sound_bootFailed (s : State) (hs : s.Sound q) : (State.bootFailed s).Sound q := by
  unfold State.bootFailed
  try dsimp only
  repeat' first
    | with_reducible assumption | with_reducible apply sound_activateEnd | with_reducible apply sound_fwHistory
    | with_reducible apply sound_event | split | with_reducible apply sound_mk

theorem keeps_bootFailed (s : State) : Keeps [.evt, .cmds, .fw, .life] s (State.bootFailed s) := by
  unfold State.bootFailed
  try dsimp only
  repeat' first
    | with_reducible exact keeps_refl _ | with_reducible assumption
    | ((with_reducible apply keeps_step); (with_reducible apply keeps_activateEnd); rfl)
    | ((with_reducible apply keeps_step); (with_reducible apply keeps_fwHistory); rfl)
    | ((with_reducible apply keeps_step); (with_reducible apply keeps_event); rfl) | split
    | ((with_reducible apply keeps_step); (with_reducible apply upd_fw); rfl)

theorem sound_verified (s : State) (hs : s.Sound q) : (State.verified s).Sound q := by
  unfold State.verified
  try dsimp only
  repeat' first
    | with_reducible assumption | with_reducible apply sound_activateEnd | with_reducible apply sound_fwHistory
    | with_reducible apply sound_modCtx | split | with_reducible apply sound_mk

theorem keeps_verified (s : State) : Keeps [.cmds, .fw, .life] s (State.verified s) := by
  unfold State.verified
  try dsimp only
  repeat' first
    | with_reducible exact keeps_refl _ | with_reducible assumption
    | ((with_reducible apply keeps_step); (with_reducible apply keeps_activateEnd); rfl)
    | ((with_reducible apply keeps_step); (with_reducible apply keeps_fwHistory); rfl)
    | ((with_reducible apply keeps_step); (with_reducible apply keeps_modCtx); rfl) | split
    | ((with_reducible apply keeps_step); (with_reducible apply upd_fw); rfl)

theorem sound_quiesced (s : State) (hs : s.Sound q) : (State.quiesced s).Sound q := by
  unfold State.quiesced
  try dsimp only
  repeat' first
    | with_reducible assumption | with_reducible apply sound_flipOn | split | with_reducible apply sound_mk

theorem keeps_quiesced (s : State) : Keeps [.shelves, .fw] s (State.quiesced s) := by
  unfold State.quiesced
  try dsimp only
  repeat' first
    | with_reducible exact keeps_refl _ | with_reducible assumption
    | ((with_reducible apply keeps_step); (with_reducible apply keeps_flipOn); rfl) | split
    | ((with_reducible apply keeps_step); (with_reducible apply upd_fw); rfl)

theorem sound_rebooted (s : State) (hs : s.Sound q) : (State.rebooted s).Sound q := by
  unfold State.rebooted
  try dsimp only
  repeat' first
    | with_reducible assumption | with_reducible apply sound_failover | split | with_reducible apply sound_mk

theorem keeps_rebooted (s : State) : Keeps
    [.free, .evt, .syb, .glaze, .shelves, .arr, .home, .rings, .cmds, .ranges, .tly, .cone, .pmu, .kiln, .flt, .pair, .fw, .life, .ckp, .links, .out]
    s (State.rebooted s) := by
  unfold State.rebooted
  try dsimp only
  repeat' first
    | with_reducible exact keeps_refl _ | with_reducible assumption
    | ((with_reducible apply keeps_step); (with_reducible apply keeps_failover); rfl) | split
    | ((with_reducible apply keeps_step); (with_reducible apply upd_flt_fw); rfl)

end Sys2Proof.Machine
end

