-- ==== Sys2Proof/Laws/LinkRows.lean ====
section
/-! SUPPORT. What the operations of Machine/LinkRows.lean do to the whole state, two lemmas per operation: `sound_` (it keeps the
queue of waiting commands and the invariant of Safety.lean) and `keeps_` (the fields that it may change). -/
namespace Sys2Proof.Machine

variable {q : List Instr}

theorem sound_flitBad (s : State) (n : Fin 2) (seq : Nat) (crc : Bool) (hs : s.Sound q) :
    (State.flitBad s n seq crc).Sound q := by
  unfold State.flitBad
  try dsimp only
  repeat' first
    | with_reducible assumption | with_reducible apply sound_draw | with_reducible apply sound_lastingFault
    | with_reducible apply sound_modFar | with_reducible apply sound_transient | split

theorem keeps_flitBad (s : State) (n : Fin 2) (seq : Nat) (crc : Bool) : Keeps
    [.free, .evt, .syb, .glaze, .shelves, .arr, .dir, .home, .back, .rings, .cmds, .ranges, .tly, .cone, .pmu, .kiln, .flt, .ep, .pair, .fw, .life, .ckp, .links, .out]
    s (State.flitBad s n seq crc) := by
  unfold State.flitBad
  try dsimp only
  repeat' first
    | with_reducible exact keeps_refl _ | with_reducible assumption
    | ((with_reducible apply keeps_step); (with_reducible apply keeps_draw); rfl)
    | ((with_reducible apply keeps_step); (with_reducible apply keeps_lastingFault); rfl)
    | ((with_reducible apply keeps_step); (with_reducible apply keeps_modFar); rfl)
    | ((with_reducible apply keeps_step); (with_reducible apply keeps_transient); rfl) | split

theorem sound_modBackLink (s : State) (n : Nat) (f : BackLink → BackLink) (hs : s.Sound q) :
    (State.modBackLink s n f).Sound q := by
  unfold State.modBackLink
  try dsimp only
  repeat' first
    | with_reducible assumption | split | with_reducible apply sound_mk

theorem keeps_modBackLink (s : State) (n : Nat) (f : BackLink → BackLink) : Keeps [.links] s
    (State.modBackLink s n f) := by
  unfold State.modBackLink
  try dsimp only
  repeat' first
    | with_reducible exact keeps_refl _ | with_reducible assumption | split
    | ((with_reducible apply keeps_step); (with_reducible apply upd_links); rfl)

theorem sound_sendWaiting (s : State) (p : Port) (vc : Nat) (hs : s.Sound q) : (State.sendWaiting s p vc).Sound
    q := by
  unfold State.sendWaiting
  try dsimp only
  repeat' first
    | with_reducible assumption | with_reducible apply sound_transmit | with_reducible apply sound_setLink
    | with_reducible apply sound_foldl | intro _ _ _ | split

theorem keeps_sendWaiting (s : State) (p : Port) (vc : Nat) : Keeps [.cone, .pmu, .links, .out] s
    (State.sendWaiting s p vc) := by
  unfold State.sendWaiting
  try dsimp only
  repeat' first
    | with_reducible exact keeps_refl _ | with_reducible assumption
    | ((with_reducible apply keeps_step); (with_reducible apply keeps_transmit); rfl)
    | ((with_reducible apply keeps_step); (with_reducible apply keeps_setLink); rfl)
    | with_reducible apply keeps_foldl | intro _ _ _ | split

end Sys2Proof.Machine
end

