-- ==== Sys2Proof/Laws/MonRows.lean ====
section
/-! SUPPORT. What the operations of Machine/MonRows.lean do to the whole state, two lemmas per operation: `sound_` (it keeps the
queue of waiting commands and the invariant of Safety.lean) and `keeps_` (the fields that it may change). -/
namespace Sys2Proof.Machine

variable {q : List Instr}

theorem sound_missSet (s : State) (i : Nat) (code : Nat) (fields : List Nat) (hs : s.Sound q) :
    (State.missSet s i code fields).Sound q := by
  unfold State.missSet
  try dsimp only
  repeat' first
    | with_reducible assumption | with_reducible apply sound_event | split | with_reducible apply sound_mk

theorem keeps_missSet (s : State) (i : Nat) (code : Nat) (fields : List Nat) : Keeps [.evt, .cone] s
    (State.missSet s i code fields) := by
  unfold State.missSet
  try dsimp only
  repeat' first
    | with_reducible exact keeps_refl _ | with_reducible assumption
    | ((with_reducible apply keeps_step); (with_reducible apply keeps_event); rfl) | split
    | ((with_reducible apply keeps_step); (with_reducible apply upd_cone); rfl)

theorem sound_backlogged (s : State) (c : Nat) (hs : s.Sound q) : (State.backlogged s c).2.Sound q := by
  unfold State.backlogged
  try dsimp only
  repeat' first
    | with_reducible assumption | with_reducible apply sound_draw | split

theorem keeps_backlogged (s : State) (c : Nat) : Keeps [.free] s (State.backlogged s c).2 := by
  unfold State.backlogged
  try dsimp only
  repeat' first
    | with_reducible exact keeps_refl _ | with_reducible assumption
    | ((with_reducible apply keeps_step); (with_reducible apply keeps_draw); rfl) | split

theorem sound_judgeWindow (s : State) (c : Nat) (hs : s.Sound q) : (State.judgeWindow s c).Sound q := by
  unfold State.judgeWindow
  try dsimp only
  repeat' first
    | with_reducible assumption | with_reducible apply sound_backlogged | with_reducible apply sound_modMon
    | with_reducible apply sound_missSet | split

theorem keeps_judgeWindow (s : State) (c : Nat) : Keeps [.free, .evt, .cone] s (State.judgeWindow s c) := by
  unfold State.judgeWindow
  try dsimp only
  repeat' first
    | with_reducible exact keeps_refl _ | with_reducible assumption
    | ((with_reducible apply keeps_step); (with_reducible apply keeps_backlogged); rfl)
    | ((with_reducible apply keeps_step); (with_reducible apply keeps_modMon); rfl)
    | ((with_reducible apply keeps_step); (with_reducible apply keeps_missSet); rfl) | split

theorem sound_thrashJudge (s : State) (sh : Nat) (c : Nat) (hs : s.Sound q) : (State.thrashJudge s sh c).Sound q := by
  unfold State.thrashJudge
  try dsimp only
  repeat' first
    | with_reducible assumption | with_reducible apply sound_modShelf | split

theorem keeps_thrashJudge (s : State) (sh : Nat) (c : Nat) : Keeps [.shelves] s (State.thrashJudge s sh c) := by
  unfold State.thrashJudge
  try dsimp only
  repeat' first
    | with_reducible exact keeps_refl _ | with_reducible assumption
    | ((with_reducible apply keeps_step); (with_reducible apply keeps_modShelf); rfl) | split

end Sys2Proof.Machine
end

