-- ==== Sys2Proof/Laws/Requests.lean ====
section
/-! SUPPORT. What the operations of Machine/Requests.lean do to the whole state, two lemmas per operation: `sound_` (it keeps the
queue of waiting commands and the invariant of Safety.lean) and `keeps_` (the fields that it may change). -/
namespace Sys2Proof.Machine

variable {q : List Instr}

theorem sound_audit (s : State) (sh : Nat) (r : Req) (hs : s.Sound q) : (State.audit s sh r).Sound q := by
  unfold State.audit
  try dsimp only
  repeat' first
    | with_reducible assumption | with_reducible apply sound_count | with_reducible apply sound_event
    | with_reducible apply sound_modShelf | split

theorem keeps_audit (s : State) (sh : Nat) (r : Req) : Keeps [.free, .evt, .shelves, .pmu] s
    (State.audit s sh r) := by
  unfold State.audit
  try dsimp only
  repeat' first
    | with_reducible exact keeps_refl _ | with_reducible assumption
    | ((with_reducible apply keeps_step); (with_reducible apply keeps_count); rfl)
    | ((with_reducible apply keeps_step); (with_reducible apply keeps_event); rfl)
    | ((with_reducible apply keeps_step); (with_reducible apply keeps_modShelf); rfl) | split

theorem sound_openRecord (s : State) (r : Req) (hs : s.Sound q) : (State.openRecord s r).Sound q := by
  unfold State.openRecord
  try dsimp only
  repeat' first
    | with_reducible assumption | with_reducible apply sound_marks | with_reducible apply sound_syncEntry
    | with_reducible apply sound_audit | with_reducible apply sound_skidStep | with_reducible apply sound_count
    | split | with_reducible apply sound_mk

theorem keeps_openRecord (s : State) (r : Req) : Keeps [.free, .evt, .shelves, .dir, .home, .pmu] s
    (State.openRecord s r) := by
  unfold State.openRecord
  try dsimp only
  repeat' first
    | with_reducible exact keeps_refl _ | with_reducible assumption
    | ((with_reducible apply keeps_step); (with_reducible apply keeps_marks); rfl)
    | ((with_reducible apply keeps_step); (with_reducible apply keeps_syncEntry); rfl)
    | ((with_reducible apply keeps_step); (with_reducible apply keeps_audit); rfl)
    | ((with_reducible apply keeps_step); (with_reducible apply keeps_skidStep); rfl)
    | ((with_reducible apply keeps_step); (with_reducible apply keeps_count); rfl) | split
    | ((with_reducible apply keeps_step); (with_reducible apply upd_home); rfl)

theorem sound_refuses (s : State) (r : Req) (reg : Region) (hs : s.Sound q) : PostO (State.Sound q)
    (State.refuses s r reg) := by
  unfold State.refuses
  try dsimp only
  repeat' first
    | with_reducible assumption | with_reducible apply sound_getD | with_reducible apply sound_auuReject
    | with_reducible apply sound_event | with_reducible apply postO_some | with_reducible exact postO_none | split

theorem keeps_refuses (s : State) (r : Req) (reg : Region) : PostO (Keeps [.evt, .shelves] s)
    (State.refuses s r reg) := by
  unfold State.refuses
  try dsimp only
  repeat' first
    | with_reducible exact keeps_refl _ | with_reducible assumption | with_reducible apply keeps_getD
    | ((with_reducible apply keeps_step); (with_reducible apply keeps_auuReject); rfl)
    | ((with_reducible apply keeps_step); (with_reducible apply keeps_event); rfl) | with_reducible apply postO_some
    | with_reducible exact postO_none | split

theorem sound_settleVictims (s : State) (hs : s.Sound q) : (State.settleVictims s).Sound q := by
  unfold State.settleVictims
  try dsimp only
  repeat' first
    | with_reducible assumption | with_reducible apply sound_advance | with_reducible apply sound_foldl | intro _ _ _
    | split

theorem keeps_settleVictims (s : State) : Keeps
    [.free, .evt, .shelves, .arr, .dir, .home, .back, .rings, .cmds, .ranges, .tly, .cone, .pmu, .kiln, .flt, .ep, .pair, .life, .ckp, .links, .out]
    s (State.settleVictims s) := by
  unfold State.settleVictims
  try dsimp only
  repeat' first
    | with_reducible exact keeps_refl _ | with_reducible assumption
    | ((with_reducible apply keeps_step); (with_reducible apply keeps_advance); rfl)
    | with_reducible apply keeps_foldl | intro _ _ _ | split

theorem sound_start (s : State) (l : LineIx) (hs : s.Sound q) : (State.start s l).Sound q := by
  generalize hf : @State.start = f
  delta State.start at hf
  subst hf
  dsimp -zeta -iota only
  repeat' first
    | with_reducible assumption | with_reducible apply sound_refuses | with_reducible apply sound_poisonTxn
    | with_reducible apply sound_protocolError | with_reducible apply sound_settleVictims
    | with_reducible apply sound_advance | with_reducible apply sound_begin | split | dsimp only
    | refine postO_get (by with_reducible assumption) ?_; with_reducible apply sound_refuses

theorem keeps_start (s : State) (l : LineIx) : Keeps
    [.free, .evt, .shelves, .arr, .dir, .home, .back, .rings, .cmds, .ranges, .tly, .cone, .pmu, .kiln, .flt, .ep, .pair, .life, .ckp, .links, .out]
    s (State.start s l) := by
  generalize hf : @State.start = f
  delta State.start at hf
  subst hf
  dsimp -zeta -iota only
  repeat' first
    | with_reducible exact keeps_refl _ | with_reducible assumption
    | ((with_reducible apply keepsO_step); (with_reducible apply keeps_refuses); rfl)
    | ((with_reducible apply keeps_step); (with_reducible apply keeps_poisonTxn); rfl)
    | ((with_reducible apply keeps_step); (with_reducible apply keeps_protocolError); rfl)
    | ((with_reducible apply keeps_step); (with_reducible apply keeps_settleVictims); rfl)
    | ((with_reducible apply keeps_step); (with_reducible apply keeps_advance); rfl)
    | ((with_reducible apply keeps_step); (with_reducible apply keeps_begin); rfl) | split | dsimp only
    | ((with_reducible apply keepsO_out); (with_reducible assumption); (with_reducible apply keeps_refuses); rfl)

theorem sound_sendGreen (s : State) (r : Req) (hs : s.Sound q) : (State.sendGreen s r).Sound q := by
  unfold State.sendGreen
  try dsimp only
  repeat' first
    | with_reducible assumption | with_reducible apply sound_count | with_reducible apply sound_readHit
    | with_reducible apply sound_modTxn | with_reducible apply sound_respond | split

theorem keeps_sendGreen (s : State) (r : Req) : Keeps [.free, .arr, .home, .cone, .pmu, .ckp, .links, .out] s
    (State.sendGreen s r) := by
  unfold State.sendGreen
  try dsimp only
  repeat' first
    | with_reducible exact keeps_refl _ | with_reducible assumption
    | ((with_reducible apply keeps_step); (with_reducible apply keeps_count); rfl)
    | ((with_reducible apply keeps_step); (with_reducible apply keeps_readHit); rfl)
    | ((with_reducible apply keeps_step); (with_reducible apply keeps_modTxn); rfl)
    | ((with_reducible apply keeps_step); (with_reducible apply keeps_respond); rfl) | split

theorem sound_sendCrack (s : State) (sh : Nat) (r : Req) (hs : s.Sound q) : (State.sendCrack s sh r).Sound q := by
  unfold State.sendCrack
  try dsimp only
  repeat' first
    | with_reducible assumption | with_reducible apply sound_count | with_reducible apply sound_respond
    | with_reducible apply sound_modShelf | split

theorem keeps_sendCrack (s : State) (sh : Nat) (r : Req) : Keeps
    [.free, .shelves, .home, .cone, .pmu, .ckp, .links, .out] s (State.sendCrack s sh r) := by
  unfold State.sendCrack
  try dsimp only
  repeat' first
    | with_reducible exact keeps_refl _ | with_reducible assumption
    | ((with_reducible apply keeps_step); (with_reducible apply keeps_count); rfl)
    | ((with_reducible apply keeps_step); (with_reducible apply keeps_respond); rfl)
    | ((with_reducible apply keeps_step); (with_reducible apply keeps_modShelf); rfl) | split

theorem sound_agentDead (s : State) (id : AgentId) (hs : s.Sound q) : (State.agentDead s id).Sound q := by
  unfold State.agentDead
  try dsimp only
  repeat' first
    | with_reducible assumption | with_reducible apply sound_trigger | split | with_reducible apply sound_mk

theorem keeps_agentDead (s : State) (id : AgentId) : Keeps [.free, .cone, .ep, .ckp, .out] s
    (State.agentDead s id) := by
  unfold State.agentDead
  try dsimp only
  repeat' first
    | with_reducible exact keeps_refl _ | with_reducible assumption
    | ((with_reducible apply keeps_step); (with_reducible apply keeps_trigger); rfl) | split
    | ((with_reducible apply keeps_step); (with_reducible apply upd_ep); rfl)

theorem sound_sendFire (s : State) (sh : Nat) (r : Req) (hs : s.Sound q) : (State.sendFire s sh r).Sound q := by
  unfold State.sendFire
  try dsimp only
  repeat' first
    | with_reducible assumption | with_reducible apply sound_lastAnswer | with_reducible apply sound_modShelf | split

theorem keeps_sendFire (s : State) (sh : Nat) (r : Req) : Keeps
    [.free, .shelves, .home, .cone, .pmu, .ckp, .links, .out] s (State.sendFire s sh r) := by
  unfold State.sendFire
  try dsimp only
  repeat' first
    | with_reducible exact keeps_refl _ | with_reducible assumption
    | ((with_reducible apply keeps_step); (with_reducible apply keeps_lastAnswer); rfl)
    | ((with_reducible apply keeps_step); (with_reducible apply keeps_modShelf); rfl) | split

end Sys2Proof.Machine
end

