-- ==== Sys2Proof/Laws/State.lean ====
section
/-! SUPPORT. What the named updates of the state leave alone: one lemma per field and update. -/
namespace Sys2Proof.Machine

section
variable (s : State) (cs : List Instr)
@[simp] theorem State.rest_free : (s.rest cs).free = s.free := rfl
@[simp] theorem State.rest_boot : (s.rest cs).boot = s.boot := rfl
@[simp] theorem State.rest_apb : (s.rest cs).apb = s.apb := rfl
@[simp] theorem State.rest_evt : (s.rest cs).evt = s.evt := rfl
@[simp] theorem State.rest_syb : (s.rest cs).syb = s.syb := rfl
@[simp] theorem State.rest_glaze : (s.rest cs).glaze = s.glaze := rfl
@[simp] theorem State.rest_agents : (s.rest cs).agents = s.agents := rfl
@[simp] theorem State.rest_shelves : (s.rest cs).shelves = s.shelves := rfl
@[simp] theorem State.rest_arr : (s.rest cs).arr = s.arr := rfl
@[simp] theorem State.rest_dir : (s.rest cs).dir = s.dir := rfl
@[simp] theorem State.rest_home : (s.rest cs).home = s.home := rfl
@[simp] theorem State.rest_back : (s.rest cs).back = s.back := rfl
@[simp] theorem State.rest_rings : (s.rest cs).rings = s.rings := rfl
@[simp] theorem State.rest_cmds : (s.rest cs).cmds = s.cmds := rfl
@[simp] theorem State.rest_ranges : (s.rest cs).ranges = s.ranges := rfl
@[simp] theorem State.rest_tly : (s.rest cs).tly = s.tly := rfl
@[simp] theorem State.rest_cone : (s.rest cs).cone = s.cone := rfl
@[simp] theorem State.rest_pmu : (s.rest cs).pmu = s.pmu := rfl
@[simp] theorem State.rest_kiln : (s.rest cs).kiln = s.kiln := rfl
@[simp] theorem State.rest_flt : (s.rest cs).flt = s.flt := rfl
@[simp] theorem State.rest_ep : (s.rest cs).ep = s.ep := rfl
@[simp] theorem State.rest_pair : (s.rest cs).pair = s.pair := rfl
@[simp] theorem State.rest_fw : (s.rest cs).fw = s.fw := rfl
@[simp] theorem State.rest_life : (s.rest cs).life = s.life := rfl
@[simp] theorem State.rest_ckp : (s.rest cs).ckp = s.ckp := rfl
@[simp] theorem State.rest_links : (s.rest cs).links = s.links := rfl
@[simp] theorem State.rest_out : (s.rest cs).out = s.out := rfl
end

section
variable (s : State) (t : Nat) (v : BitVec 64)
@[simp] theorem State.setTally_pending : (s.setTally t v).pending = s.pending := rfl
@[simp] theorem State.setTally_free : (s.setTally t v).free = s.free := rfl
@[simp] theorem State.setTally_boot : (s.setTally t v).boot = s.boot := rfl
@[simp] theorem State.setTally_apb : (s.setTally t v).apb = s.apb := rfl
@[simp] theorem State.setTally_evt : (s.setTally t v).evt = s.evt := rfl
@[simp] theorem State.setTally_syb : (s.setTally t v).syb = s.syb := rfl
@[simp] theorem State.setTally_glaze : (s.setTally t v).glaze = s.glaze := rfl
@[simp] theorem State.setTally_agents : (s.setTally t v).agents = s.agents := rfl
@[simp] theorem State.setTally_shelves : (s.setTally t v).shelves = s.shelves := rfl
@[simp] theorem State.setTally_arr : (s.setTally t v).arr = s.arr := rfl
@[simp] theorem State.setTally_dir : (s.setTally t v).dir = s.dir := rfl
@[simp] theorem State.setTally_home : (s.setTally t v).home = s.home := rfl
@[simp] theorem State.setTally_back : (s.setTally t v).back = s.back := rfl
@[simp] theorem State.setTally_rings : (s.setTally t v).rings = s.rings := rfl
@[simp] theorem State.setTally_cmds : (s.setTally t v).cmds = s.cmds := rfl
@[simp] theorem State.setTally_ranges : (s.setTally t v).ranges = s.ranges := rfl
@[simp] theorem State.setTally_cone : (s.setTally t v).cone = s.cone := rfl
@[simp] theorem State.setTally_pmu : (s.setTally t v).pmu = s.pmu := rfl
@[simp] theorem State.setTally_kiln : (s.setTally t v).kiln = s.kiln := rfl
@[simp] theorem State.setTally_flt : (s.setTally t v).flt = s.flt := rfl
@[simp] theorem State.setTally_ep : (s.setTally t v).ep = s.ep := rfl
@[simp] theorem State.setTally_pair : (s.setTally t v).pair = s.pair := rfl
@[simp] theorem State.setTally_fw : (s.setTally t v).fw = s.fw := rfl
@[simp] theorem State.setTally_life : (s.setTally t v).life = s.life := rfl
@[simp] theorem State.setTally_ckp : (s.setTally t v).ckp = s.ckp := rfl
@[simp] theorem State.setTally_links : (s.setTally t v).links = s.links := rfl
@[simp] theorem State.setTally_out : (s.setTally t v).out = s.out := rfl
end

section
variable (s : State) (a : Nat) (l : Line) (m : Mask)
@[simp] theorem State.setArr_pending : (s.setArr a l m).pending = s.pending := rfl
@[simp] theorem State.setArr_free : (s.setArr a l m).free = s.free := rfl
@[simp] theorem State.setArr_boot : (s.setArr a l m).boot = s.boot := rfl
@[simp] theorem State.setArr_apb : (s.setArr a l m).apb = s.apb := rfl
@[simp] theorem State.setArr_evt : (s.setArr a l m).evt = s.evt := rfl
@[simp] theorem State.setArr_syb : (s.setArr a l m).syb = s.syb := rfl
@[simp] theorem State.setArr_glaze : (s.setArr a l m).glaze = s.glaze := rfl
@[simp] theorem State.setArr_agents : (s.setArr a l m).agents = s.agents := rfl
@[simp] theorem State.setArr_shelves : (s.setArr a l m).shelves = s.shelves := rfl
@[simp] theorem State.setArr_dir : (s.setArr a l m).dir = s.dir := rfl
@[simp] theorem State.setArr_home : (s.setArr a l m).home = s.home := rfl
@[simp] theorem State.setArr_back : (s.setArr a l m).back = s.back := rfl
@[simp] theorem State.setArr_rings : (s.setArr a l m).rings = s.rings := rfl
@[simp] theorem State.setArr_cmds : (s.setArr a l m).cmds = s.cmds := rfl
@[simp] theorem State.setArr_ranges : (s.setArr a l m).ranges = s.ranges := rfl
@[simp] theorem State.setArr_tly : (s.setArr a l m).tly = s.tly := rfl
@[simp] theorem State.setArr_cone : (s.setArr a l m).cone = s.cone := rfl
@[simp] theorem State.setArr_pmu : (s.setArr a l m).pmu = s.pmu := rfl
@[simp] theorem State.setArr_kiln : (s.setArr a l m).kiln = s.kiln := rfl
@[simp] theorem State.setArr_flt : (s.setArr a l m).flt = s.flt := rfl
@[simp] theorem State.setArr_ep : (s.setArr a l m).ep = s.ep := rfl
@[simp] theorem State.setArr_pair : (s.setArr a l m).pair = s.pair := rfl
@[simp] theorem State.setArr_fw : (s.setArr a l m).fw = s.fw := rfl
@[simp] theorem State.setArr_life : (s.setArr a l m).life = s.life := rfl
@[simp] theorem State.setArr_ckp : (s.setArr a l m).ckp = s.ckp := rfl
@[simp] theorem State.setArr_links : (s.setArr a l m).links = s.links := rfl
@[simp] theorem State.setArr_out : (s.setArr a l m).out = s.out := rfl
end

section
variable (s : State) (ix : Nat) (b : Bool)
@[simp] theorem State.setPoison_pending : (s.setPoison ix b).pending = s.pending := rfl
@[simp] theorem State.setPoison_free : (s.setPoison ix b).free = s.free := rfl
@[simp] theorem State.setPoison_boot : (s.setPoison ix b).boot = s.boot := rfl
@[simp] theorem State.setPoison_apb : (s.setPoison ix b).apb = s.apb := rfl
@[simp] theorem State.setPoison_evt : (s.setPoison ix b).evt = s.evt := rfl
@[simp] theorem State.setPoison_syb : (s.setPoison ix b).syb = s.syb := rfl
@[simp] theorem State.setPoison_glaze : (s.setPoison ix b).glaze = s.glaze := rfl
@[simp] theorem State.setPoison_agents : (s.setPoison ix b).agents = s.agents := rfl
@[simp] theorem State.setPoison_shelves : (s.setPoison ix b).shelves = s.shelves := rfl
@[simp] theorem State.setPoison_dir : (s.setPoison ix b).dir = s.dir := rfl
@[simp] theorem State.setPoison_home : (s.setPoison ix b).home = s.home := rfl
@[simp] theorem State.setPoison_back : (s.setPoison ix b).back = s.back := rfl
@[simp] theorem State.setPoison_rings : (s.setPoison ix b).rings = s.rings := rfl
@[simp] theorem State.setPoison_cmds : (s.setPoison ix b).cmds = s.cmds := rfl
@[simp] theorem State.setPoison_ranges : (s.setPoison ix b).ranges = s.ranges := rfl
@[simp] theorem State.setPoison_tly : (s.setPoison ix b).tly = s.tly := rfl
@[simp] theorem State.setPoison_cone : (s.setPoison ix b).cone = s.cone := rfl
@[simp] theorem State.setPoison_pmu : (s.setPoison ix b).pmu = s.pmu := rfl
@[simp] theorem State.setPoison_kiln : (s.setPoison ix b).kiln = s.kiln := rfl
@[simp] theorem State.setPoison_flt : (s.setPoison ix b).flt = s.flt := rfl
@[simp] theorem State.setPoison_ep : (s.setPoison ix b).ep = s.ep := rfl
@[simp] theorem State.setPoison_pair : (s.setPoison ix b).pair = s.pair := rfl
@[simp] theorem State.setPoison_fw : (s.setPoison ix b).fw = s.fw := rfl
@[simp] theorem State.setPoison_life : (s.setPoison ix b).life = s.life := rfl
@[simp] theorem State.setPoison_ckp : (s.setPoison ix b).ckp = s.ckp := rfl
@[simp] theorem State.setPoison_links : (s.setPoison ix b).links = s.links := rfl
@[simp] theorem State.setPoison_out : (s.setPoison ix b).out = s.out := rfl
end

section
variable (s : State) (p : Nat → Bool)
@[simp] theorem State.zeroArr_pending : (s.zeroArr p).pending = s.pending := rfl
@[simp] theorem State.zeroArr_free : (s.zeroArr p).free = s.free := rfl
@[simp] theorem State.zeroArr_boot : (s.zeroArr p).boot = s.boot := rfl
@[simp] theorem State.zeroArr_apb : (s.zeroArr p).apb = s.apb := rfl
@[simp] theorem State.zeroArr_evt : (s.zeroArr p).evt = s.evt := rfl
@[simp] theorem State.zeroArr_syb : (s.zeroArr p).syb = s.syb := rfl
@[simp] theorem State.zeroArr_glaze : (s.zeroArr p).glaze = s.glaze := rfl
@[simp] theorem State.zeroArr_agents : (s.zeroArr p).agents = s.agents := rfl
@[simp] theorem State.zeroArr_shelves : (s.zeroArr p).shelves = s.shelves := rfl
@[simp] theorem State.zeroArr_dir : (s.zeroArr p).dir = s.dir := rfl
@[simp] theorem State.zeroArr_home : (s.zeroArr p).home = s.home := rfl
@[simp] theorem State.zeroArr_back : (s.zeroArr p).back = s.back := rfl
@[simp] theorem State.zeroArr_rings : (s.zeroArr p).rings = s.rings := rfl
@[simp] theorem State.zeroArr_cmds : (s.zeroArr p).cmds = s.cmds := rfl
@[simp] theorem State.zeroArr_ranges : (s.zeroArr p).ranges = s.ranges := rfl
@[simp] theorem State.zeroArr_tly : (s.zeroArr p).tly = s.tly := rfl
@[simp] theorem State.zeroArr_cone : (s.zeroArr p).cone = s.cone := rfl
@[simp] theorem State.zeroArr_pmu : (s.zeroArr p).pmu = s.pmu := rfl
@[simp] theorem State.zeroArr_kiln : (s.zeroArr p).kiln = s.kiln := rfl
@[simp] theorem State.zeroArr_flt : (s.zeroArr p).flt = s.flt := rfl
@[simp] theorem State.zeroArr_ep : (s.zeroArr p).ep = s.ep := rfl
@[simp] theorem State.zeroArr_pair : (s.zeroArr p).pair = s.pair := rfl
@[simp] theorem State.zeroArr_fw : (s.zeroArr p).fw = s.fw := rfl
@[simp] theorem State.zeroArr_life : (s.zeroArr p).life = s.life := rfl
@[simp] theorem State.zeroArr_ckp : (s.zeroArr p).ckp = s.ckp := rfl
@[simp] theorem State.zeroArr_links : (s.zeroArr p).links = s.links := rfl
@[simp] theorem State.zeroArr_out : (s.zeroArr p).out = s.out := rfl
end

section
variable (s : State) (k : Nat) (n : Nat)
@[simp] theorem State.portOutBytes_pending : (s.portOutBytes k n).pending = s.pending := rfl
@[simp] theorem State.portOutBytes_free : (s.portOutBytes k n).free = s.free := rfl
@[simp] theorem State.portOutBytes_boot : (s.portOutBytes k n).boot = s.boot := rfl
@[simp] theorem State.portOutBytes_apb : (s.portOutBytes k n).apb = s.apb := rfl
@[simp] theorem State.portOutBytes_evt : (s.portOutBytes k n).evt = s.evt := rfl
@[simp] theorem State.portOutBytes_syb : (s.portOutBytes k n).syb = s.syb := rfl
@[simp] theorem State.portOutBytes_glaze : (s.portOutBytes k n).glaze = s.glaze := rfl
@[simp] theorem State.portOutBytes_agents : (s.portOutBytes k n).agents = s.agents := rfl
@[simp] theorem State.portOutBytes_shelves : (s.portOutBytes k n).shelves = s.shelves := rfl
@[simp] theorem State.portOutBytes_arr : (s.portOutBytes k n).arr = s.arr := rfl
@[simp] theorem State.portOutBytes_dir : (s.portOutBytes k n).dir = s.dir := rfl
@[simp] theorem State.portOutBytes_home : (s.portOutBytes k n).home = s.home := rfl
@[simp] theorem State.portOutBytes_back : (s.portOutBytes k n).back = s.back := rfl
@[simp] theorem State.portOutBytes_rings : (s.portOutBytes k n).rings = s.rings := rfl
@[simp] theorem State.portOutBytes_cmds : (s.portOutBytes k n).cmds = s.cmds := rfl
@[simp] theorem State.portOutBytes_ranges : (s.portOutBytes k n).ranges = s.ranges := rfl
@[simp] theorem State.portOutBytes_tly : (s.portOutBytes k n).tly = s.tly := rfl
@[simp] theorem State.portOutBytes_cone : (s.portOutBytes k n).cone = s.cone := rfl
@[simp] theorem State.portOutBytes_kiln : (s.portOutBytes k n).kiln = s.kiln := rfl
@[simp] theorem State.portOutBytes_flt : (s.portOutBytes k n).flt = s.flt := rfl
@[simp] theorem State.portOutBytes_ep : (s.portOutBytes k n).ep = s.ep := rfl
@[simp] theorem State.portOutBytes_pair : (s.portOutBytes k n).pair = s.pair := rfl
@[simp] theorem State.portOutBytes_fw : (s.portOutBytes k n).fw = s.fw := rfl
@[simp] theorem State.portOutBytes_life : (s.portOutBytes k n).life = s.life := rfl
@[simp] theorem State.portOutBytes_ckp : (s.portOutBytes k n).ckp = s.ckp := rfl
@[simp] theorem State.portOutBytes_links : (s.portOutBytes k n).links = s.links := rfl
@[simp] theorem State.portOutBytes_out : (s.portOutBytes k n).out = s.out := rfl
end

section
variable (s : State) (k : Nat) (n : Nat)
@[simp] theorem State.portInBytes_pending : (s.portInBytes k n).pending = s.pending := rfl
@[simp] theorem State.portInBytes_free : (s.portInBytes k n).free = s.free := rfl
@[simp] theorem State.portInBytes_boot : (s.portInBytes k n).boot = s.boot := rfl
@[simp] theorem State.portInBytes_apb : (s.portInBytes k n).apb = s.apb := rfl
@[simp] theorem State.portInBytes_evt : (s.portInBytes k n).evt = s.evt := rfl
@[simp] theorem State.portInBytes_syb : (s.portInBytes k n).syb = s.syb := rfl
@[simp] theorem State.portInBytes_glaze : (s.portInBytes k n).glaze = s.glaze := rfl
@[simp] theorem State.portInBytes_agents : (s.portInBytes k n).agents = s.agents := rfl
@[simp] theorem State.portInBytes_shelves : (s.portInBytes k n).shelves = s.shelves := rfl
@[simp] theorem State.portInBytes_arr : (s.portInBytes k n).arr = s.arr := rfl
@[simp] theorem State.portInBytes_dir : (s.portInBytes k n).dir = s.dir := rfl
@[simp] theorem State.portInBytes_home : (s.portInBytes k n).home = s.home := rfl
@[simp] theorem State.portInBytes_back : (s.portInBytes k n).back = s.back := rfl
@[simp] theorem State.portInBytes_rings : (s.portInBytes k n).rings = s.rings := rfl
@[simp] theorem State.portInBytes_cmds : (s.portInBytes k n).cmds = s.cmds := rfl
@[simp] theorem State.portInBytes_ranges : (s.portInBytes k n).ranges = s.ranges := rfl
@[simp] theorem State.portInBytes_tly : (s.portInBytes k n).tly = s.tly := rfl
@[simp] theorem State.portInBytes_cone : (s.portInBytes k n).cone = s.cone := rfl
@[simp] theorem State.portInBytes_kiln : (s.portInBytes k n).kiln = s.kiln := rfl
@[simp] theorem State.portInBytes_flt : (s.portInBytes k n).flt = s.flt := rfl
@[simp] theorem State.portInBytes_ep : (s.portInBytes k n).ep = s.ep := rfl
@[simp] theorem State.portInBytes_pair : (s.portInBytes k n).pair = s.pair := rfl
@[simp] theorem State.portInBytes_fw : (s.portInBytes k n).fw = s.fw := rfl
@[simp] theorem State.portInBytes_life : (s.portInBytes k n).life = s.life := rfl
@[simp] theorem State.portInBytes_ckp : (s.portInBytes k n).ckp = s.ckp := rfl
@[simp] theorem State.portInBytes_links : (s.portInBytes k n).links = s.links := rfl
@[simp] theorem State.portInBytes_out : (s.portInBytes k n).out = s.out := rfl
end

section
variable (s : State) (id : AgentId) (a : Agent)
@[simp] theorem State.setAgent_pending : (s.setAgent id a).pending = s.pending := rfl
@[simp] theorem State.setAgent_free : (s.setAgent id a).free = s.free := rfl
@[simp] theorem State.setAgent_boot : (s.setAgent id a).boot = s.boot := rfl
@[simp] theorem State.setAgent_apb : (s.setAgent id a).apb = s.apb := rfl
@[simp] theorem State.setAgent_evt : (s.setAgent id a).evt = s.evt := rfl
@[simp] theorem State.setAgent_syb : (s.setAgent id a).syb = s.syb := rfl
@[simp] theorem State.setAgent_glaze : (s.setAgent id a).glaze = s.glaze := rfl
@[simp] theorem State.setAgent_shelves : (s.setAgent id a).shelves = s.shelves := rfl
@[simp] theorem State.setAgent_arr : (s.setAgent id a).arr = s.arr := rfl
@[simp] theorem State.setAgent_dir : (s.setAgent id a).dir = s.dir := rfl
@[simp] theorem State.setAgent_home : (s.setAgent id a).home = s.home := rfl
@[simp] theorem State.setAgent_back : (s.setAgent id a).back = s.back := rfl
@[simp] theorem State.setAgent_rings : (s.setAgent id a).rings = s.rings := rfl
@[simp] theorem State.setAgent_cmds : (s.setAgent id a).cmds = s.cmds := rfl
@[simp] theorem State.setAgent_ranges : (s.setAgent id a).ranges = s.ranges := rfl
@[simp] theorem State.setAgent_tly : (s.setAgent id a).tly = s.tly := rfl
@[simp] theorem State.setAgent_cone : (s.setAgent id a).cone = s.cone := rfl
@[simp] theorem State.setAgent_pmu : (s.setAgent id a).pmu = s.pmu := rfl
@[simp] theorem State.setAgent_kiln : (s.setAgent id a).kiln = s.kiln := rfl
@[simp] theorem State.setAgent_flt : (s.setAgent id a).flt = s.flt := rfl
@[simp] theorem State.setAgent_ep : (s.setAgent id a).ep = s.ep := rfl
@[simp] theorem State.setAgent_pair : (s.setAgent id a).pair = s.pair := rfl
@[simp] theorem State.setAgent_fw : (s.setAgent id a).fw = s.fw := rfl
@[simp] theorem State.setAgent_life : (s.setAgent id a).life = s.life := rfl
@[simp] theorem State.setAgent_ckp : (s.setAgent id a).ckp = s.ckp := rfl
@[simp] theorem State.setAgent_links : (s.setAgent id a).links = s.links := rfl
@[simp] theorem State.setAgent_out : (s.setAgent id a).out = s.out := rfl
end

section
variable (s : State) (i : Nat) (f : Ring → Ring)
@[simp] theorem State.modRing_pending : (s.modRing i f).pending = s.pending := rfl
@[simp] theorem State.modRing_free : (s.modRing i f).free = s.free := rfl
@[simp] theorem State.modRing_boot : (s.modRing i f).boot = s.boot := rfl
@[simp] theorem State.modRing_apb : (s.modRing i f).apb = s.apb := rfl
@[simp] theorem State.modRing_evt : (s.modRing i f).evt = s.evt := rfl
@[simp] theorem State.modRing_syb : (s.modRing i f).syb = s.syb := rfl
@[simp] theorem State.modRing_glaze : (s.modRing i f).glaze = s.glaze := rfl
@[simp] theorem State.modRing_agents : (s.modRing i f).agents = s.agents := rfl
@[simp] theorem State.modRing_shelves : (s.modRing i f).shelves = s.shelves := rfl
@[simp] theorem State.modRing_arr : (s.modRing i f).arr = s.arr := rfl
@[simp] theorem State.modRing_dir : (s.modRing i f).dir = s.dir := rfl
@[simp] theorem State.modRing_home : (s.modRing i f).home = s.home := rfl
@[simp] theorem State.modRing_back : (s.modRing i f).back = s.back := rfl
@[simp] theorem State.modRing_cmds : (s.modRing i f).cmds = s.cmds := rfl
@[simp] theorem State.modRing_ranges : (s.modRing i f).ranges = s.ranges := rfl
@[simp] theorem State.modRing_tly : (s.modRing i f).tly = s.tly := rfl
@[simp] theorem State.modRing_cone : (s.modRing i f).cone = s.cone := rfl
@[simp] theorem State.modRing_pmu : (s.modRing i f).pmu = s.pmu := rfl
@[simp] theorem State.modRing_kiln : (s.modRing i f).kiln = s.kiln := rfl
@[simp] theorem State.modRing_flt : (s.modRing i f).flt = s.flt := rfl
@[simp] theorem State.modRing_ep : (s.modRing i f).ep = s.ep := rfl
@[simp] theorem State.modRing_pair : (s.modRing i f).pair = s.pair := rfl
@[simp] theorem State.modRing_fw : (s.modRing i f).fw = s.fw := rfl
@[simp] theorem State.modRing_life : (s.modRing i f).life = s.life := rfl
@[simp] theorem State.modRing_ckp : (s.modRing i f).ckp = s.ckp := rfl
@[simp] theorem State.modRing_links : (s.modRing i f).links = s.links := rfl
@[simp] theorem State.modRing_out : (s.modRing i f).out = s.out := rfl
end

section
variable (s : State) (c : Nat) (f : Mon → Mon)
@[simp] theorem State.modMon_pending : (s.modMon c f).pending = s.pending := rfl
@[simp] theorem State.modMon_free : (s.modMon c f).free = s.free := rfl
@[simp] theorem State.modMon_boot : (s.modMon c f).boot = s.boot := rfl
@[simp] theorem State.modMon_apb : (s.modMon c f).apb = s.apb := rfl
@[simp] theorem State.modMon_evt : (s.modMon c f).evt = s.evt := rfl
@[simp] theorem State.modMon_syb : (s.modMon c f).syb = s.syb := rfl
@[simp] theorem State.modMon_glaze : (s.modMon c f).glaze = s.glaze := rfl
@[simp] theorem State.modMon_agents : (s.modMon c f).agents = s.agents := rfl
@[simp] theorem State.modMon_shelves : (s.modMon c f).shelves = s.shelves := rfl
@[simp] theorem State.modMon_arr : (s.modMon c f).arr = s.arr := rfl
@[simp] theorem State.modMon_dir : (s.modMon c f).dir = s.dir := rfl
@[simp] theorem State.modMon_home : (s.modMon c f).home = s.home := rfl
@[simp] theorem State.modMon_back : (s.modMon c f).back = s.back := rfl
@[simp] theorem State.modMon_rings : (s.modMon c f).rings = s.rings := rfl
@[simp] theorem State.modMon_cmds : (s.modMon c f).cmds = s.cmds := rfl
@[simp] theorem State.modMon_ranges : (s.modMon c f).ranges = s.ranges := rfl
@[simp] theorem State.modMon_tly : (s.modMon c f).tly = s.tly := rfl
@[simp] theorem State.modMon_pmu : (s.modMon c f).pmu = s.pmu := rfl
@[simp] theorem State.modMon_kiln : (s.modMon c f).kiln = s.kiln := rfl
@[simp] theorem State.modMon_flt : (s.modMon c f).flt = s.flt := rfl
@[simp] theorem State.modMon_ep : (s.modMon c f).ep = s.ep := rfl
@[simp] theorem State.modMon_pair : (s.modMon c f).pair = s.pair := rfl
@[simp] theorem State.modMon_fw : (s.modMon c f).fw = s.fw := rfl
@[simp] theorem State.modMon_life : (s.modMon c f).life = s.life := rfl
@[simp] theorem State.modMon_ckp : (s.modMon c f).ckp = s.ckp := rfl
@[simp] theorem State.modMon_links : (s.modMon c f).links = s.links := rfl
@[simp] theorem State.modMon_out : (s.modMon c f).out = s.out := rfl
end

section
variable (s : State) (i : Nat) (f : Ctx → Ctx)
@[simp] theorem State.modCtx_pending : (s.modCtx i f).pending = s.pending := rfl
@[simp] theorem State.modCtx_free : (s.modCtx i f).free = s.free := rfl
@[simp] theorem State.modCtx_boot : (s.modCtx i f).boot = s.boot := rfl
@[simp] theorem State.modCtx_apb : (s.modCtx i f).apb = s.apb := rfl
@[simp] theorem State.modCtx_evt : (s.modCtx i f).evt = s.evt := rfl
@[simp] theorem State.modCtx_syb : (s.modCtx i f).syb = s.syb := rfl
@[simp] theorem State.modCtx_glaze : (s.modCtx i f).glaze = s.glaze := rfl
@[simp] theorem State.modCtx_agents : (s.modCtx i f).agents = s.agents := rfl
@[simp] theorem State.modCtx_shelves : (s.modCtx i f).shelves = s.shelves := rfl
@[simp] theorem State.modCtx_arr : (s.modCtx i f).arr = s.arr := rfl
@[simp] theorem State.modCtx_dir : (s.modCtx i f).dir = s.dir := rfl
@[simp] theorem State.modCtx_home : (s.modCtx i f).home = s.home := rfl
@[simp] theorem State.modCtx_back : (s.modCtx i f).back = s.back := rfl
@[simp] theorem State.modCtx_rings : (s.modCtx i f).rings = s.rings := rfl
@[simp] theorem State.modCtx_ranges : (s.modCtx i f).ranges = s.ranges := rfl
@[simp] theorem State.modCtx_tly : (s.modCtx i f).tly = s.tly := rfl
@[simp] theorem State.modCtx_cone : (s.modCtx i f).cone = s.cone := rfl
@[simp] theorem State.modCtx_pmu : (s.modCtx i f).pmu = s.pmu := rfl
@[simp] theorem State.modCtx_kiln : (s.modCtx i f).kiln = s.kiln := rfl
@[simp] theorem State.modCtx_flt : (s.modCtx i f).flt = s.flt := rfl
@[simp] theorem State.modCtx_ep : (s.modCtx i f).ep = s.ep := rfl
@[simp] theorem State.modCtx_pair : (s.modCtx i f).pair = s.pair := rfl
@[simp] theorem State.modCtx_fw : (s.modCtx i f).fw = s.fw := rfl
@[simp] theorem State.modCtx_life : (s.modCtx i f).life = s.life := rfl
@[simp] theorem State.modCtx_ckp : (s.modCtx i f).ckp = s.ckp := rfl
@[simp] theorem State.modCtx_links : (s.modCtx i f).links = s.links := rfl
@[simp] theorem State.modCtx_out : (s.modCtx i f).out = s.out := rfl
end

section
variable (s : State) (i : Nat) (f : Shelf → Shelf)
@[simp] theorem State.modShelf_pending : (s.modShelf i f).pending = s.pending := rfl
@[simp] theorem State.modShelf_free : (s.modShelf i f).free = s.free := rfl
@[simp] theorem State.modShelf_boot : (s.modShelf i f).boot = s.boot := rfl
@[simp] theorem State.modShelf_apb : (s.modShelf i f).apb = s.apb := rfl
@[simp] theorem State.modShelf_evt : (s.modShelf i f).evt = s.evt := rfl
@[simp] theorem State.modShelf_syb : (s.modShelf i f).syb = s.syb := rfl
@[simp] theorem State.modShelf_glaze : (s.modShelf i f).glaze = s.glaze := rfl
@[simp] theorem State.modShelf_agents : (s.modShelf i f).agents = s.agents := rfl
@[simp] theorem State.modShelf_arr : (s.modShelf i f).arr = s.arr := rfl
@[simp] theorem State.modShelf_dir : (s.modShelf i f).dir = s.dir := rfl
@[simp] theorem State.modShelf_home : (s.modShelf i f).home = s.home := rfl
@[simp] theorem State.modShelf_back : (s.modShelf i f).back = s.back := rfl
@[simp] theorem State.modShelf_rings : (s.modShelf i f).rings = s.rings := rfl
@[simp] theorem State.modShelf_cmds : (s.modShelf i f).cmds = s.cmds := rfl
@[simp] theorem State.modShelf_ranges : (s.modShelf i f).ranges = s.ranges := rfl
@[simp] theorem State.modShelf_tly : (s.modShelf i f).tly = s.tly := rfl
@[simp] theorem State.modShelf_cone : (s.modShelf i f).cone = s.cone := rfl
@[simp] theorem State.modShelf_pmu : (s.modShelf i f).pmu = s.pmu := rfl
@[simp] theorem State.modShelf_kiln : (s.modShelf i f).kiln = s.kiln := rfl
@[simp] theorem State.modShelf_flt : (s.modShelf i f).flt = s.flt := rfl
@[simp] theorem State.modShelf_ep : (s.modShelf i f).ep = s.ep := rfl
@[simp] theorem State.modShelf_pair : (s.modShelf i f).pair = s.pair := rfl
@[simp] theorem State.modShelf_fw : (s.modShelf i f).fw = s.fw := rfl
@[simp] theorem State.modShelf_life : (s.modShelf i f).life = s.life := rfl
@[simp] theorem State.modShelf_ckp : (s.modShelf i f).ckp = s.ckp := rfl
@[simp] theorem State.modShelf_links : (s.modShelf i f).links = s.links := rfl
@[simp] theorem State.modShelf_out : (s.modShelf i f).out = s.out := rfl
end

section
variable (s : State) (x : Slot) (t : Tag)
@[simp] theorem State.setTag_pending : (s.setTag x t).pending = s.pending := rfl
@[simp] theorem State.setTag_free : (s.setTag x t).free = s.free := rfl
@[simp] theorem State.setTag_boot : (s.setTag x t).boot = s.boot := rfl
@[simp] theorem State.setTag_apb : (s.setTag x t).apb = s.apb := rfl
@[simp] theorem State.setTag_evt : (s.setTag x t).evt = s.evt := rfl
@[simp] theorem State.setTag_syb : (s.setTag x t).syb = s.syb := rfl
@[simp] theorem State.setTag_glaze : (s.setTag x t).glaze = s.glaze := rfl
@[simp] theorem State.setTag_agents : (s.setTag x t).agents = s.agents := rfl
@[simp] theorem State.setTag_shelves : (s.setTag x t).shelves = s.shelves := rfl
@[simp] theorem State.setTag_dir : (s.setTag x t).dir = s.dir := rfl
@[simp] theorem State.setTag_home : (s.setTag x t).home = s.home := rfl
@[simp] theorem State.setTag_back : (s.setTag x t).back = s.back := rfl
@[simp] theorem State.setTag_rings : (s.setTag x t).rings = s.rings := rfl
@[simp] theorem State.setTag_cmds : (s.setTag x t).cmds = s.cmds := rfl
@[simp] theorem State.setTag_ranges : (s.setTag x t).ranges = s.ranges := rfl
@[simp] theorem State.setTag_tly : (s.setTag x t).tly = s.tly := rfl
@[simp] theorem State.setTag_cone : (s.setTag x t).cone = s.cone := rfl
@[simp] theorem State.setTag_pmu : (s.setTag x t).pmu = s.pmu := rfl
@[simp] theorem State.setTag_kiln : (s.setTag x t).kiln = s.kiln := rfl
@[simp] theorem State.setTag_flt : (s.setTag x t).flt = s.flt := rfl
@[simp] theorem State.setTag_ep : (s.setTag x t).ep = s.ep := rfl
@[simp] theorem State.setTag_pair : (s.setTag x t).pair = s.pair := rfl
@[simp] theorem State.setTag_fw : (s.setTag x t).fw = s.fw := rfl
@[simp] theorem State.setTag_life : (s.setTag x t).life = s.life := rfl
@[simp] theorem State.setTag_ckp : (s.setTag x t).ckp = s.ckp := rfl
@[simp] theorem State.setTag_links : (s.setTag x t).links = s.links := rfl
@[simp] theorem State.setTag_out : (s.setTag x t).out = s.out := rfl
end

section
variable (s : State) (x : Slot)
@[simp] theorem State.touch_pending : (s.touch x).pending = s.pending := rfl
@[simp] theorem State.touch_free : (s.touch x).free = s.free := rfl
@[simp] theorem State.touch_boot : (s.touch x).boot = s.boot := rfl
@[simp] theorem State.touch_apb : (s.touch x).apb = s.apb := rfl
@[simp] theorem State.touch_evt : (s.touch x).evt = s.evt := rfl
@[simp] theorem State.touch_syb : (s.touch x).syb = s.syb := rfl
@[simp] theorem State.touch_glaze : (s.touch x).glaze = s.glaze := rfl
@[simp] theorem State.touch_agents : (s.touch x).agents = s.agents := rfl
@[simp] theorem State.touch_shelves : (s.touch x).shelves = s.shelves := rfl
@[simp] theorem State.touch_dir : (s.touch x).dir = s.dir := rfl
@[simp] theorem State.touch_home : (s.touch x).home = s.home := rfl
@[simp] theorem State.touch_back : (s.touch x).back = s.back := rfl
@[simp] theorem State.touch_rings : (s.touch x).rings = s.rings := rfl
@[simp] theorem State.touch_cmds : (s.touch x).cmds = s.cmds := rfl
@[simp] theorem State.touch_ranges : (s.touch x).ranges = s.ranges := rfl
@[simp] theorem State.touch_tly : (s.touch x).tly = s.tly := rfl
@[simp] theorem State.touch_cone : (s.touch x).cone = s.cone := rfl
@[simp] theorem State.touch_pmu : (s.touch x).pmu = s.pmu := rfl
@[simp] theorem State.touch_kiln : (s.touch x).kiln = s.kiln := rfl
@[simp] theorem State.touch_flt : (s.touch x).flt = s.flt := rfl
@[simp] theorem State.touch_ep : (s.touch x).ep = s.ep := rfl
@[simp] theorem State.touch_pair : (s.touch x).pair = s.pair := rfl
@[simp] theorem State.touch_fw : (s.touch x).fw = s.fw := rfl
@[simp] theorem State.touch_life : (s.touch x).life = s.life := rfl
@[simp] theorem State.touch_ckp : (s.touch x).ckp = s.ckp := rfl
@[simp] theorem State.touch_links : (s.touch x).links = s.links := rfl
@[simp] theorem State.touch_out : (s.touch x).out = s.out := rfl
end

section
variable (s : State) (bank : Nat)
@[simp] theorem State.tagInvalidate_pending : (s.tagInvalidate bank).pending = s.pending := rfl
@[simp] theorem State.tagInvalidate_free : (s.tagInvalidate bank).free = s.free := rfl
@[simp] theorem State.tagInvalidate_boot : (s.tagInvalidate bank).boot = s.boot := rfl
@[simp] theorem State.tagInvalidate_apb : (s.tagInvalidate bank).apb = s.apb := rfl
@[simp] theorem State.tagInvalidate_evt : (s.tagInvalidate bank).evt = s.evt := rfl
@[simp] theorem State.tagInvalidate_syb : (s.tagInvalidate bank).syb = s.syb := rfl
@[simp] theorem State.tagInvalidate_glaze : (s.tagInvalidate bank).glaze = s.glaze := rfl
@[simp] theorem State.tagInvalidate_agents : (s.tagInvalidate bank).agents = s.agents := rfl
@[simp] theorem State.tagInvalidate_shelves : (s.tagInvalidate bank).shelves = s.shelves := rfl
@[simp] theorem State.tagInvalidate_dir : (s.tagInvalidate bank).dir = s.dir := rfl
@[simp] theorem State.tagInvalidate_home : (s.tagInvalidate bank).home = s.home := rfl
@[simp] theorem State.tagInvalidate_back : (s.tagInvalidate bank).back = s.back := rfl
@[simp] theorem State.tagInvalidate_rings : (s.tagInvalidate bank).rings = s.rings := rfl
@[simp] theorem State.tagInvalidate_cmds : (s.tagInvalidate bank).cmds = s.cmds := rfl
@[simp] theorem State.tagInvalidate_ranges : (s.tagInvalidate bank).ranges = s.ranges := rfl
@[simp] theorem State.tagInvalidate_tly : (s.tagInvalidate bank).tly = s.tly := rfl
@[simp] theorem State.tagInvalidate_cone : (s.tagInvalidate bank).cone = s.cone := rfl
@[simp] theorem State.tagInvalidate_pmu : (s.tagInvalidate bank).pmu = s.pmu := rfl
@[simp] theorem State.tagInvalidate_kiln : (s.tagInvalidate bank).kiln = s.kiln := rfl
@[simp] theorem State.tagInvalidate_flt : (s.tagInvalidate bank).flt = s.flt := rfl
@[simp] theorem State.tagInvalidate_ep : (s.tagInvalidate bank).ep = s.ep := rfl
@[simp] theorem State.tagInvalidate_pair : (s.tagInvalidate bank).pair = s.pair := rfl
@[simp] theorem State.tagInvalidate_fw : (s.tagInvalidate bank).fw = s.fw := rfl
@[simp] theorem State.tagInvalidate_life : (s.tagInvalidate bank).life = s.life := rfl
@[simp] theorem State.tagInvalidate_ckp : (s.tagInvalidate bank).ckp = s.ckp := rfl
@[simp] theorem State.tagInvalidate_links : (s.tagInvalidate bank).links = s.links := rfl
@[simp] theorem State.tagInvalidate_out : (s.tagInvalidate bank).out = s.out := rfl
end

section
variable (s : State) (n : Nat) (f : FarLink → FarLink)
@[simp] theorem State.modFar_pending : (s.modFar n f).pending = s.pending := rfl
@[simp] theorem State.modFar_free : (s.modFar n f).free = s.free := rfl
@[simp] theorem State.modFar_boot : (s.modFar n f).boot = s.boot := rfl
@[simp] theorem State.modFar_apb : (s.modFar n f).apb = s.apb := rfl
@[simp] theorem State.modFar_evt : (s.modFar n f).evt = s.evt := rfl
@[simp] theorem State.modFar_syb : (s.modFar n f).syb = s.syb := rfl
@[simp] theorem State.modFar_glaze : (s.modFar n f).glaze = s.glaze := rfl
@[simp] theorem State.modFar_agents : (s.modFar n f).agents = s.agents := rfl
@[simp] theorem State.modFar_shelves : (s.modFar n f).shelves = s.shelves := rfl
@[simp] theorem State.modFar_arr : (s.modFar n f).arr = s.arr := rfl
@[simp] theorem State.modFar_dir : (s.modFar n f).dir = s.dir := rfl
@[simp] theorem State.modFar_home : (s.modFar n f).home = s.home := rfl
@[simp] theorem State.modFar_back : (s.modFar n f).back = s.back := rfl
@[simp] theorem State.modFar_rings : (s.modFar n f).rings = s.rings := rfl
@[simp] theorem State.modFar_cmds : (s.modFar n f).cmds = s.cmds := rfl
@[simp] theorem State.modFar_ranges : (s.modFar n f).ranges = s.ranges := rfl
@[simp] theorem State.modFar_tly : (s.modFar n f).tly = s.tly := rfl
@[simp] theorem State.modFar_cone : (s.modFar n f).cone = s.cone := rfl
@[simp] theorem State.modFar_pmu : (s.modFar n f).pmu = s.pmu := rfl
@[simp] theorem State.modFar_kiln : (s.modFar n f).kiln = s.kiln := rfl
@[simp] theorem State.modFar_flt : (s.modFar n f).flt = s.flt := rfl
@[simp] theorem State.modFar_ep : (s.modFar n f).ep = s.ep := rfl
@[simp] theorem State.modFar_pair : (s.modFar n f).pair = s.pair := rfl
@[simp] theorem State.modFar_fw : (s.modFar n f).fw = s.fw := rfl
@[simp] theorem State.modFar_life : (s.modFar n f).life = s.life := rfl
@[simp] theorem State.modFar_ckp : (s.modFar n f).ckp = s.ckp := rfl
@[simp] theorem State.modFar_out : (s.modFar n f).out = s.out := rfl
end

section
variable (s : State) (l : LineIx) (f : Txn → Txn)
@[simp] theorem State.modTxn_pending : (s.modTxn l f).pending = s.pending := rfl
@[simp] theorem State.modTxn_free : (s.modTxn l f).free = s.free := rfl
@[simp] theorem State.modTxn_boot : (s.modTxn l f).boot = s.boot := rfl
@[simp] theorem State.modTxn_apb : (s.modTxn l f).apb = s.apb := rfl
@[simp] theorem State.modTxn_evt : (s.modTxn l f).evt = s.evt := rfl
@[simp] theorem State.modTxn_syb : (s.modTxn l f).syb = s.syb := rfl
@[simp] theorem State.modTxn_glaze : (s.modTxn l f).glaze = s.glaze := rfl
@[simp] theorem State.modTxn_agents : (s.modTxn l f).agents = s.agents := rfl
@[simp] theorem State.modTxn_shelves : (s.modTxn l f).shelves = s.shelves := rfl
@[simp] theorem State.modTxn_arr : (s.modTxn l f).arr = s.arr := rfl
@[simp] theorem State.modTxn_dir : (s.modTxn l f).dir = s.dir := rfl
@[simp] theorem State.modTxn_back : (s.modTxn l f).back = s.back := rfl
@[simp] theorem State.modTxn_rings : (s.modTxn l f).rings = s.rings := rfl
@[simp] theorem State.modTxn_cmds : (s.modTxn l f).cmds = s.cmds := rfl
@[simp] theorem State.modTxn_ranges : (s.modTxn l f).ranges = s.ranges := rfl
@[simp] theorem State.modTxn_tly : (s.modTxn l f).tly = s.tly := rfl
@[simp] theorem State.modTxn_cone : (s.modTxn l f).cone = s.cone := rfl
@[simp] theorem State.modTxn_pmu : (s.modTxn l f).pmu = s.pmu := rfl
@[simp] theorem State.modTxn_kiln : (s.modTxn l f).kiln = s.kiln := rfl
@[simp] theorem State.modTxn_flt : (s.modTxn l f).flt = s.flt := rfl
@[simp] theorem State.modTxn_ep : (s.modTxn l f).ep = s.ep := rfl
@[simp] theorem State.modTxn_pair : (s.modTxn l f).pair = s.pair := rfl
@[simp] theorem State.modTxn_fw : (s.modTxn l f).fw = s.fw := rfl
@[simp] theorem State.modTxn_life : (s.modTxn l f).life = s.life := rfl
@[simp] theorem State.modTxn_ckp : (s.modTxn l f).ckp = s.ckp := rfl
@[simp] theorem State.modTxn_links : (s.modTxn l f).links = s.links := rfl
@[simp] theorem State.modTxn_out : (s.modTxn l f).out = s.out := rfl
end

section
variable (s : State) (l : LineIx)
@[simp] theorem State.dropTxn_pending : (s.dropTxn l).pending = s.pending := rfl
@[simp] theorem State.dropTxn_free : (s.dropTxn l).free = s.free := rfl
@[simp] theorem State.dropTxn_boot : (s.dropTxn l).boot = s.boot := rfl
@[simp] theorem State.dropTxn_apb : (s.dropTxn l).apb = s.apb := rfl
@[simp] theorem State.dropTxn_evt : (s.dropTxn l).evt = s.evt := rfl
@[simp] theorem State.dropTxn_syb : (s.dropTxn l).syb = s.syb := rfl
@[simp] theorem State.dropTxn_glaze : (s.dropTxn l).glaze = s.glaze := rfl
@[simp] theorem State.dropTxn_agents : (s.dropTxn l).agents = s.agents := rfl
@[simp] theorem State.dropTxn_shelves : (s.dropTxn l).shelves = s.shelves := rfl
@[simp] theorem State.dropTxn_arr : (s.dropTxn l).arr = s.arr := rfl
@[simp] theorem State.dropTxn_dir : (s.dropTxn l).dir = s.dir := rfl
@[simp] theorem State.dropTxn_back : (s.dropTxn l).back = s.back := rfl
@[simp] theorem State.dropTxn_rings : (s.dropTxn l).rings = s.rings := rfl
@[simp] theorem State.dropTxn_cmds : (s.dropTxn l).cmds = s.cmds := rfl
@[simp] theorem State.dropTxn_ranges : (s.dropTxn l).ranges = s.ranges := rfl
@[simp] theorem State.dropTxn_tly : (s.dropTxn l).tly = s.tly := rfl
@[simp] theorem State.dropTxn_cone : (s.dropTxn l).cone = s.cone := rfl
@[simp] theorem State.dropTxn_pmu : (s.dropTxn l).pmu = s.pmu := rfl
@[simp] theorem State.dropTxn_kiln : (s.dropTxn l).kiln = s.kiln := rfl
@[simp] theorem State.dropTxn_flt : (s.dropTxn l).flt = s.flt := rfl
@[simp] theorem State.dropTxn_ep : (s.dropTxn l).ep = s.ep := rfl
@[simp] theorem State.dropTxn_pair : (s.dropTxn l).pair = s.pair := rfl
@[simp] theorem State.dropTxn_fw : (s.dropTxn l).fw = s.fw := rfl
@[simp] theorem State.dropTxn_life : (s.dropTxn l).life = s.life := rfl
@[simp] theorem State.dropTxn_ckp : (s.dropTxn l).ckp = s.ckp := rfl
@[simp] theorem State.dropTxn_links : (s.dropTxn l).links = s.links := rfl
@[simp] theorem State.dropTxn_out : (s.dropTxn l).out = s.out := rfl
end

section
variable (s : State) (k : Nat) (e : DirEntry)
@[simp] theorem State.setWay_pending : (s.setWay k e).pending = s.pending := rfl
@[simp] theorem State.setWay_free : (s.setWay k e).free = s.free := rfl
@[simp] theorem State.setWay_boot : (s.setWay k e).boot = s.boot := rfl
@[simp] theorem State.setWay_apb : (s.setWay k e).apb = s.apb := rfl
@[simp] theorem State.setWay_evt : (s.setWay k e).evt = s.evt := rfl
@[simp] theorem State.setWay_syb : (s.setWay k e).syb = s.syb := rfl
@[simp] theorem State.setWay_glaze : (s.setWay k e).glaze = s.glaze := rfl
@[simp] theorem State.setWay_agents : (s.setWay k e).agents = s.agents := rfl
@[simp] theorem State.setWay_shelves : (s.setWay k e).shelves = s.shelves := rfl
@[simp] theorem State.setWay_arr : (s.setWay k e).arr = s.arr := rfl
@[simp] theorem State.setWay_home : (s.setWay k e).home = s.home := rfl
@[simp] theorem State.setWay_back : (s.setWay k e).back = s.back := rfl
@[simp] theorem State.setWay_rings : (s.setWay k e).rings = s.rings := rfl
@[simp] theorem State.setWay_cmds : (s.setWay k e).cmds = s.cmds := rfl
@[simp] theorem State.setWay_ranges : (s.setWay k e).ranges = s.ranges := rfl
@[simp] theorem State.setWay_tly : (s.setWay k e).tly = s.tly := rfl
@[simp] theorem State.setWay_cone : (s.setWay k e).cone = s.cone := rfl
@[simp] theorem State.setWay_pmu : (s.setWay k e).pmu = s.pmu := rfl
@[simp] theorem State.setWay_kiln : (s.setWay k e).kiln = s.kiln := rfl
@[simp] theorem State.setWay_flt : (s.setWay k e).flt = s.flt := rfl
@[simp] theorem State.setWay_ep : (s.setWay k e).ep = s.ep := rfl
@[simp] theorem State.setWay_pair : (s.setWay k e).pair = s.pair := rfl
@[simp] theorem State.setWay_fw : (s.setWay k e).fw = s.fw := rfl
@[simp] theorem State.setWay_life : (s.setWay k e).life = s.life := rfl
@[simp] theorem State.setWay_ckp : (s.setWay k e).ckp = s.ckp := rfl
@[simp] theorem State.setWay_links : (s.setWay k e).links = s.links := rfl
@[simp] theorem State.setWay_out : (s.setWay k e).out = s.out := rfl
end

section
variable (s : State) (k : Nat)
@[simp] theorem State.touchWay_pending : (s.touchWay k).pending = s.pending := rfl
@[simp] theorem State.touchWay_free : (s.touchWay k).free = s.free := rfl
@[simp] theorem State.touchWay_boot : (s.touchWay k).boot = s.boot := rfl
@[simp] theorem State.touchWay_apb : (s.touchWay k).apb = s.apb := rfl
@[simp] theorem State.touchWay_evt : (s.touchWay k).evt = s.evt := rfl
@[simp] theorem State.touchWay_syb : (s.touchWay k).syb = s.syb := rfl
@[simp] theorem State.touchWay_glaze : (s.touchWay k).glaze = s.glaze := rfl
@[simp] theorem State.touchWay_agents : (s.touchWay k).agents = s.agents := rfl
@[simp] theorem State.touchWay_shelves : (s.touchWay k).shelves = s.shelves := rfl
@[simp] theorem State.touchWay_arr : (s.touchWay k).arr = s.arr := rfl
@[simp] theorem State.touchWay_home : (s.touchWay k).home = s.home := rfl
@[simp] theorem State.touchWay_back : (s.touchWay k).back = s.back := rfl
@[simp] theorem State.touchWay_rings : (s.touchWay k).rings = s.rings := rfl
@[simp] theorem State.touchWay_cmds : (s.touchWay k).cmds = s.cmds := rfl
@[simp] theorem State.touchWay_ranges : (s.touchWay k).ranges = s.ranges := rfl
@[simp] theorem State.touchWay_tly : (s.touchWay k).tly = s.tly := rfl
@[simp] theorem State.touchWay_cone : (s.touchWay k).cone = s.cone := rfl
@[simp] theorem State.touchWay_pmu : (s.touchWay k).pmu = s.pmu := rfl
@[simp] theorem State.touchWay_kiln : (s.touchWay k).kiln = s.kiln := rfl
@[simp] theorem State.touchWay_flt : (s.touchWay k).flt = s.flt := rfl
@[simp] theorem State.touchWay_ep : (s.touchWay k).ep = s.ep := rfl
@[simp] theorem State.touchWay_pair : (s.touchWay k).pair = s.pair := rfl
@[simp] theorem State.touchWay_fw : (s.touchWay k).fw = s.fw := rfl
@[simp] theorem State.touchWay_life : (s.touchWay k).life = s.life := rfl
@[simp] theorem State.touchWay_ckp : (s.touchWay k).ckp = s.ckp := rfl
@[simp] theorem State.touchWay_links : (s.touchWay k).links = s.links := rfl
@[simp] theorem State.touchWay_out : (s.touchWay k).out = s.out := rfl
end

section
variable (s : State) (r : Req)
@[simp] theorem State.holdReq_pending : (s.holdReq r).pending = s.pending := rfl
@[simp] theorem State.holdReq_free : (s.holdReq r).free = s.free := rfl
@[simp] theorem State.holdReq_boot : (s.holdReq r).boot = s.boot := rfl
@[simp] theorem State.holdReq_apb : (s.holdReq r).apb = s.apb := rfl
@[simp] theorem State.holdReq_evt : (s.holdReq r).evt = s.evt := rfl
@[simp] theorem State.holdReq_syb : (s.holdReq r).syb = s.syb := rfl
@[simp] theorem State.holdReq_glaze : (s.holdReq r).glaze = s.glaze := rfl
@[simp] theorem State.holdReq_agents : (s.holdReq r).agents = s.agents := rfl
@[simp] theorem State.holdReq_shelves : (s.holdReq r).shelves = s.shelves := rfl
@[simp] theorem State.holdReq_arr : (s.holdReq r).arr = s.arr := rfl
@[simp] theorem State.holdReq_dir : (s.holdReq r).dir = s.dir := rfl
@[simp] theorem State.holdReq_back : (s.holdReq r).back = s.back := rfl
@[simp] theorem State.holdReq_rings : (s.holdReq r).rings = s.rings := rfl
@[simp] theorem State.holdReq_cmds : (s.holdReq r).cmds = s.cmds := rfl
@[simp] theorem State.holdReq_ranges : (s.holdReq r).ranges = s.ranges := rfl
@[simp] theorem State.holdReq_tly : (s.holdReq r).tly = s.tly := rfl
@[simp] theorem State.holdReq_cone : (s.holdReq r).cone = s.cone := rfl
@[simp] theorem State.holdReq_pmu : (s.holdReq r).pmu = s.pmu := rfl
@[simp] theorem State.holdReq_kiln : (s.holdReq r).kiln = s.kiln := rfl
@[simp] theorem State.holdReq_flt : (s.holdReq r).flt = s.flt := rfl
@[simp] theorem State.holdReq_ep : (s.holdReq r).ep = s.ep := rfl
@[simp] theorem State.holdReq_pair : (s.holdReq r).pair = s.pair := rfl
@[simp] theorem State.holdReq_fw : (s.holdReq r).fw = s.fw := rfl
@[simp] theorem State.holdReq_life : (s.holdReq r).life = s.life := rfl
@[simp] theorem State.holdReq_ckp : (s.holdReq r).ckp = s.ckp := rfl
@[simp] theorem State.holdReq_links : (s.holdReq r).links = s.links := rfl
@[simp] theorem State.holdReq_out : (s.holdReq r).out = s.out := rfl
end

section
variable (s : State) (i : Nat) (f : KEntry → KEntry)
@[simp] theorem State.modEntry_pending : (s.modEntry i f).pending = s.pending := rfl
@[simp] theorem State.modEntry_free : (s.modEntry i f).free = s.free := rfl
@[simp] theorem State.modEntry_boot : (s.modEntry i f).boot = s.boot := rfl
@[simp] theorem State.modEntry_apb : (s.modEntry i f).apb = s.apb := rfl
@[simp] theorem State.modEntry_evt : (s.modEntry i f).evt = s.evt := rfl
@[simp] theorem State.modEntry_syb : (s.modEntry i f).syb = s.syb := rfl
@[simp] theorem State.modEntry_glaze : (s.modEntry i f).glaze = s.glaze := rfl
@[simp] theorem State.modEntry_agents : (s.modEntry i f).agents = s.agents := rfl
@[simp] theorem State.modEntry_shelves : (s.modEntry i f).shelves = s.shelves := rfl
@[simp] theorem State.modEntry_arr : (s.modEntry i f).arr = s.arr := rfl
@[simp] theorem State.modEntry_dir : (s.modEntry i f).dir = s.dir := rfl
@[simp] theorem State.modEntry_home : (s.modEntry i f).home = s.home := rfl
@[simp] theorem State.modEntry_back : (s.modEntry i f).back = s.back := rfl
@[simp] theorem State.modEntry_rings : (s.modEntry i f).rings = s.rings := rfl
@[simp] theorem State.modEntry_cmds : (s.modEntry i f).cmds = s.cmds := rfl
@[simp] theorem State.modEntry_ranges : (s.modEntry i f).ranges = s.ranges := rfl
@[simp] theorem State.modEntry_tly : (s.modEntry i f).tly = s.tly := rfl
@[simp] theorem State.modEntry_cone : (s.modEntry i f).cone = s.cone := rfl
@[simp] theorem State.modEntry_pmu : (s.modEntry i f).pmu = s.pmu := rfl
@[simp] theorem State.modEntry_flt : (s.modEntry i f).flt = s.flt := rfl
@[simp] theorem State.modEntry_ep : (s.modEntry i f).ep = s.ep := rfl
@[simp] theorem State.modEntry_pair : (s.modEntry i f).pair = s.pair := rfl
@[simp] theorem State.modEntry_fw : (s.modEntry i f).fw = s.fw := rfl
@[simp] theorem State.modEntry_life : (s.modEntry i f).life = s.life := rfl
@[simp] theorem State.modEntry_ckp : (s.modEntry i f).ckp = s.ckp := rfl
@[simp] theorem State.modEntry_links : (s.modEntry i f).links = s.links := rfl
@[simp] theorem State.modEntry_out : (s.modEntry i f).out = s.out := rfl
end

section
variable (s : State) (c : Nat) (f : Job → Job)
@[simp] theorem State.modJob_pending : (s.modJob c f).pending = s.pending := rfl
@[simp] theorem State.modJob_free : (s.modJob c f).free = s.free := rfl
@[simp] theorem State.modJob_boot : (s.modJob c f).boot = s.boot := rfl
@[simp] theorem State.modJob_apb : (s.modJob c f).apb = s.apb := rfl
@[simp] theorem State.modJob_evt : (s.modJob c f).evt = s.evt := rfl
@[simp] theorem State.modJob_syb : (s.modJob c f).syb = s.syb := rfl
@[simp] theorem State.modJob_glaze : (s.modJob c f).glaze = s.glaze := rfl
@[simp] theorem State.modJob_agents : (s.modJob c f).agents = s.agents := rfl
@[simp] theorem State.modJob_shelves : (s.modJob c f).shelves = s.shelves := rfl
@[simp] theorem State.modJob_arr : (s.modJob c f).arr = s.arr := rfl
@[simp] theorem State.modJob_dir : (s.modJob c f).dir = s.dir := rfl
@[simp] theorem State.modJob_home : (s.modJob c f).home = s.home := rfl
@[simp] theorem State.modJob_back : (s.modJob c f).back = s.back := rfl
@[simp] theorem State.modJob_rings : (s.modJob c f).rings = s.rings := rfl
@[simp] theorem State.modJob_cmds : (s.modJob c f).cmds = s.cmds := rfl
@[simp] theorem State.modJob_ranges : (s.modJob c f).ranges = s.ranges := rfl
@[simp] theorem State.modJob_tly : (s.modJob c f).tly = s.tly := rfl
@[simp] theorem State.modJob_cone : (s.modJob c f).cone = s.cone := rfl
@[simp] theorem State.modJob_pmu : (s.modJob c f).pmu = s.pmu := rfl
@[simp] theorem State.modJob_flt : (s.modJob c f).flt = s.flt := rfl
@[simp] theorem State.modJob_ep : (s.modJob c f).ep = s.ep := rfl
@[simp] theorem State.modJob_pair : (s.modJob c f).pair = s.pair := rfl
@[simp] theorem State.modJob_fw : (s.modJob c f).fw = s.fw := rfl
@[simp] theorem State.modJob_life : (s.modJob c f).life = s.life := rfl
@[simp] theorem State.modJob_ckp : (s.modJob c f).ckp = s.ckp := rfl
@[simp] theorem State.modJob_links : (s.modJob c f).links = s.links := rfl
@[simp] theorem State.modJob_out : (s.modJob c f).out = s.out := rfl
end

section
variable (s : State) (b : Nat) (f : List Nat → List Nat)
@[simp] theorem State.modQueue_pending : (s.modQueue b f).pending = s.pending := rfl
@[simp] theorem State.modQueue_free : (s.modQueue b f).free = s.free := rfl
@[simp] theorem State.modQueue_boot : (s.modQueue b f).boot = s.boot := rfl
@[simp] theorem State.modQueue_apb : (s.modQueue b f).apb = s.apb := rfl
@[simp] theorem State.modQueue_evt : (s.modQueue b f).evt = s.evt := rfl
@[simp] theorem State.modQueue_syb : (s.modQueue b f).syb = s.syb := rfl
@[simp] theorem State.modQueue_glaze : (s.modQueue b f).glaze = s.glaze := rfl
@[simp] theorem State.modQueue_agents : (s.modQueue b f).agents = s.agents := rfl
@[simp] theorem State.modQueue_shelves : (s.modQueue b f).shelves = s.shelves := rfl
@[simp] theorem State.modQueue_arr : (s.modQueue b f).arr = s.arr := rfl
@[simp] theorem State.modQueue_dir : (s.modQueue b f).dir = s.dir := rfl
@[simp] theorem State.modQueue_home : (s.modQueue b f).home = s.home := rfl
@[simp] theorem State.modQueue_back : (s.modQueue b f).back = s.back := rfl
@[simp] theorem State.modQueue_rings : (s.modQueue b f).rings = s.rings := rfl
@[simp] theorem State.modQueue_cmds : (s.modQueue b f).cmds = s.cmds := rfl
@[simp] theorem State.modQueue_ranges : (s.modQueue b f).ranges = s.ranges := rfl
@[simp] theorem State.modQueue_tly : (s.modQueue b f).tly = s.tly := rfl
@[simp] theorem State.modQueue_cone : (s.modQueue b f).cone = s.cone := rfl
@[simp] theorem State.modQueue_pmu : (s.modQueue b f).pmu = s.pmu := rfl
@[simp] theorem State.modQueue_flt : (s.modQueue b f).flt = s.flt := rfl
@[simp] theorem State.modQueue_ep : (s.modQueue b f).ep = s.ep := rfl
@[simp] theorem State.modQueue_pair : (s.modQueue b f).pair = s.pair := rfl
@[simp] theorem State.modQueue_fw : (s.modQueue b f).fw = s.fw := rfl
@[simp] theorem State.modQueue_life : (s.modQueue b f).life = s.life := rfl
@[simp] theorem State.modQueue_ckp : (s.modQueue b f).ckp = s.ckp := rfl
@[simp] theorem State.modQueue_links : (s.modQueue b f).links = s.links := rfl
@[simp] theorem State.modQueue_out : (s.modQueue b f).out = s.out := rfl
end

section
variable (s : State) (bp : Nat) (write : Bool) (addr : Nat) (mask : Mask) (data : Line) (cone : BitVec 3) (why : Why)
@[simp] theorem State.backReq_pending : (s.backReq bp write addr mask data cone why).pending = s.pending := rfl
@[simp] theorem State.backReq_free : (s.backReq bp write addr mask data cone why).free = s.free := rfl
@[simp] theorem State.backReq_boot : (s.backReq bp write addr mask data cone why).boot = s.boot := rfl
@[simp] theorem State.backReq_apb : (s.backReq bp write addr mask data cone why).apb = s.apb := rfl
@[simp] theorem State.backReq_evt : (s.backReq bp write addr mask data cone why).evt = s.evt := rfl
@[simp] theorem State.backReq_syb : (s.backReq bp write addr mask data cone why).syb = s.syb := rfl
@[simp] theorem State.backReq_glaze : (s.backReq bp write addr mask data cone why).glaze = s.glaze := rfl
@[simp] theorem State.backReq_agents : (s.backReq bp write addr mask data cone why).agents = s.agents := rfl
@[simp] theorem State.backReq_shelves : (s.backReq bp write addr mask data cone why).shelves = s.shelves := rfl
@[simp] theorem State.backReq_arr : (s.backReq bp write addr mask data cone why).arr = s.arr := rfl
@[simp] theorem State.backReq_dir : (s.backReq bp write addr mask data cone why).dir = s.dir := rfl
@[simp] theorem State.backReq_home : (s.backReq bp write addr mask data cone why).home = s.home := rfl
@[simp] theorem State.backReq_rings : (s.backReq bp write addr mask data cone why).rings = s.rings := rfl
@[simp] theorem State.backReq_cmds : (s.backReq bp write addr mask data cone why).cmds = s.cmds := rfl
@[simp] theorem State.backReq_ranges : (s.backReq bp write addr mask data cone why).ranges = s.ranges := rfl
@[simp] theorem State.backReq_tly : (s.backReq bp write addr mask data cone why).tly = s.tly := rfl
@[simp] theorem State.backReq_cone : (s.backReq bp write addr mask data cone why).cone = s.cone := rfl
@[simp] theorem State.backReq_pmu : (s.backReq bp write addr mask data cone why).pmu = s.pmu := rfl
@[simp] theorem State.backReq_kiln : (s.backReq bp write addr mask data cone why).kiln = s.kiln := rfl
@[simp] theorem State.backReq_flt : (s.backReq bp write addr mask data cone why).flt = s.flt := rfl
@[simp] theorem State.backReq_ep : (s.backReq bp write addr mask data cone why).ep = s.ep := rfl
@[simp] theorem State.backReq_pair : (s.backReq bp write addr mask data cone why).pair = s.pair := rfl
@[simp] theorem State.backReq_fw : (s.backReq bp write addr mask data cone why).fw = s.fw := rfl
@[simp] theorem State.backReq_life : (s.backReq bp write addr mask data cone why).life = s.life := rfl
@[simp] theorem State.backReq_ckp : (s.backReq bp write addr mask data cone why).ckp = s.ckp := rfl
@[simp] theorem State.backReq_links : (s.backReq bp write addr mask data cone why).links = s.links := rfl
@[simp] theorem State.backReq_out : (s.backReq bp write addr mask data cone why).out = s.out := rfl
end

section
variable (s : State) (n : Nat) (f : Pmc → Pmc)
@[simp] theorem State.modPmc_pending : (s.modPmc n f).pending = s.pending := rfl
@[simp] theorem State.modPmc_free : (s.modPmc n f).free = s.free := rfl
@[simp] theorem State.modPmc_boot : (s.modPmc n f).boot = s.boot := rfl
@[simp] theorem State.modPmc_apb : (s.modPmc n f).apb = s.apb := rfl
@[simp] theorem State.modPmc_evt : (s.modPmc n f).evt = s.evt := rfl
@[simp] theorem State.modPmc_syb : (s.modPmc n f).syb = s.syb := rfl
@[simp] theorem State.modPmc_glaze : (s.modPmc n f).glaze = s.glaze := rfl
@[simp] theorem State.modPmc_agents : (s.modPmc n f).agents = s.agents := rfl
@[simp] theorem State.modPmc_shelves : (s.modPmc n f).shelves = s.shelves := rfl
@[simp] theorem State.modPmc_arr : (s.modPmc n f).arr = s.arr := rfl
@[simp] theorem State.modPmc_dir : (s.modPmc n f).dir = s.dir := rfl
@[simp] theorem State.modPmc_home : (s.modPmc n f).home = s.home := rfl
@[simp] theorem State.modPmc_back : (s.modPmc n f).back = s.back := rfl
@[simp] theorem State.modPmc_rings : (s.modPmc n f).rings = s.rings := rfl
@[simp] theorem State.modPmc_cmds : (s.modPmc n f).cmds = s.cmds := rfl
@[simp] theorem State.modPmc_ranges : (s.modPmc n f).ranges = s.ranges := rfl
@[simp] theorem State.modPmc_tly : (s.modPmc n f).tly = s.tly := rfl
@[simp] theorem State.modPmc_cone : (s.modPmc n f).cone = s.cone := rfl
@[simp] theorem State.modPmc_kiln : (s.modPmc n f).kiln = s.kiln := rfl
@[simp] theorem State.modPmc_flt : (s.modPmc n f).flt = s.flt := rfl
@[simp] theorem State.modPmc_ep : (s.modPmc n f).ep = s.ep := rfl
@[simp] theorem State.modPmc_pair : (s.modPmc n f).pair = s.pair := rfl
@[simp] theorem State.modPmc_fw : (s.modPmc n f).fw = s.fw := rfl
@[simp] theorem State.modPmc_life : (s.modPmc n f).life = s.life := rfl
@[simp] theorem State.modPmc_ckp : (s.modPmc n f).ckp = s.ckp := rfl
@[simp] theorem State.modPmc_links : (s.modPmc n f).links = s.links := rfl
@[simp] theorem State.modPmc_out : (s.modPmc n f).out = s.out := rfl
end

section
variable (s : State) (v : Nat) (err : Bool)
@[simp] theorem State.answer_pending : (s.answer v err).pending = s.pending := rfl
@[simp] theorem State.answer_free : (s.answer v err).free = s.free := rfl
@[simp] theorem State.answer_boot : (s.answer v err).boot = s.boot := rfl
@[simp] theorem State.answer_evt : (s.answer v err).evt = s.evt := rfl
@[simp] theorem State.answer_syb : (s.answer v err).syb = s.syb := rfl
@[simp] theorem State.answer_glaze : (s.answer v err).glaze = s.glaze := rfl
@[simp] theorem State.answer_agents : (s.answer v err).agents = s.agents := rfl
@[simp] theorem State.answer_shelves : (s.answer v err).shelves = s.shelves := rfl
@[simp] theorem State.answer_arr : (s.answer v err).arr = s.arr := rfl
@[simp] theorem State.answer_dir : (s.answer v err).dir = s.dir := rfl
@[simp] theorem State.answer_home : (s.answer v err).home = s.home := rfl
@[simp] theorem State.answer_back : (s.answer v err).back = s.back := rfl
@[simp] theorem State.answer_rings : (s.answer v err).rings = s.rings := rfl
@[simp] theorem State.answer_cmds : (s.answer v err).cmds = s.cmds := rfl
@[simp] theorem State.answer_ranges : (s.answer v err).ranges = s.ranges := rfl
@[simp] theorem State.answer_tly : (s.answer v err).tly = s.tly := rfl
@[simp] theorem State.answer_cone : (s.answer v err).cone = s.cone := rfl
@[simp] theorem State.answer_pmu : (s.answer v err).pmu = s.pmu := rfl
@[simp] theorem State.answer_kiln : (s.answer v err).kiln = s.kiln := rfl
@[simp] theorem State.answer_flt : (s.answer v err).flt = s.flt := rfl
@[simp] theorem State.answer_ep : (s.answer v err).ep = s.ep := rfl
@[simp] theorem State.answer_pair : (s.answer v err).pair = s.pair := rfl
@[simp] theorem State.answer_fw : (s.answer v err).fw = s.fw := rfl
@[simp] theorem State.answer_life : (s.answer v err).life = s.life := rfl
@[simp] theorem State.answer_ckp : (s.answer v err).ckp = s.ckp := rfl
@[simp] theorem State.answer_links : (s.answer v err).links = s.links := rfl
@[simp] theorem State.answer_out : (s.answer v err).out = s.out := rfl
end

section
variable (s : State) (tag : Nat) (p : MWait → Bool)
@[simp] theorem State.dropWait_pending : (s.dropWait tag p).pending = s.pending := rfl
@[simp] theorem State.dropWait_free : (s.dropWait tag p).free = s.free := rfl
@[simp] theorem State.dropWait_boot : (s.dropWait tag p).boot = s.boot := rfl
@[simp] theorem State.dropWait_apb : (s.dropWait tag p).apb = s.apb := rfl
@[simp] theorem State.dropWait_evt : (s.dropWait tag p).evt = s.evt := rfl
@[simp] theorem State.dropWait_syb : (s.dropWait tag p).syb = s.syb := rfl
@[simp] theorem State.dropWait_glaze : (s.dropWait tag p).glaze = s.glaze := rfl
@[simp] theorem State.dropWait_agents : (s.dropWait tag p).agents = s.agents := rfl
@[simp] theorem State.dropWait_shelves : (s.dropWait tag p).shelves = s.shelves := rfl
@[simp] theorem State.dropWait_arr : (s.dropWait tag p).arr = s.arr := rfl
@[simp] theorem State.dropWait_dir : (s.dropWait tag p).dir = s.dir := rfl
@[simp] theorem State.dropWait_home : (s.dropWait tag p).home = s.home := rfl
@[simp] theorem State.dropWait_back : (s.dropWait tag p).back = s.back := rfl
@[simp] theorem State.dropWait_rings : (s.dropWait tag p).rings = s.rings := rfl
@[simp] theorem State.dropWait_cmds : (s.dropWait tag p).cmds = s.cmds := rfl
@[simp] theorem State.dropWait_ranges : (s.dropWait tag p).ranges = s.ranges := rfl
@[simp] theorem State.dropWait_tly : (s.dropWait tag p).tly = s.tly := rfl
@[simp] theorem State.dropWait_cone : (s.dropWait tag p).cone = s.cone := rfl
@[simp] theorem State.dropWait_pmu : (s.dropWait tag p).pmu = s.pmu := rfl
@[simp] theorem State.dropWait_kiln : (s.dropWait tag p).kiln = s.kiln := rfl
@[simp] theorem State.dropWait_flt : (s.dropWait tag p).flt = s.flt := rfl
@[simp] theorem State.dropWait_ep : (s.dropWait tag p).ep = s.ep := rfl
@[simp] theorem State.dropWait_fw : (s.dropWait tag p).fw = s.fw := rfl
@[simp] theorem State.dropWait_life : (s.dropWait tag p).life = s.life := rfl
@[simp] theorem State.dropWait_ckp : (s.dropWait tag p).ckp = s.ckp := rfl
@[simp] theorem State.dropWait_links : (s.dropWait tag p).links = s.links := rfl
@[simp] theorem State.dropWait_out : (s.dropWait tag p).out = s.out := rfl
end

section
variable (s : State) (a : RangeAct)
@[simp] theorem State.rangeWait_pending : (s.rangeWait a).pending = s.pending := rfl
@[simp] theorem State.rangeWait_free : (s.rangeWait a).free = s.free := rfl
@[simp] theorem State.rangeWait_boot : (s.rangeWait a).boot = s.boot := rfl
@[simp] theorem State.rangeWait_apb : (s.rangeWait a).apb = s.apb := rfl
@[simp] theorem State.rangeWait_evt : (s.rangeWait a).evt = s.evt := rfl
@[simp] theorem State.rangeWait_syb : (s.rangeWait a).syb = s.syb := rfl
@[simp] theorem State.rangeWait_glaze : (s.rangeWait a).glaze = s.glaze := rfl
@[simp] theorem State.rangeWait_agents : (s.rangeWait a).agents = s.agents := rfl
@[simp] theorem State.rangeWait_shelves : (s.rangeWait a).shelves = s.shelves := rfl
@[simp] theorem State.rangeWait_arr : (s.rangeWait a).arr = s.arr := rfl
@[simp] theorem State.rangeWait_dir : (s.rangeWait a).dir = s.dir := rfl
@[simp] theorem State.rangeWait_home : (s.rangeWait a).home = s.home := rfl
@[simp] theorem State.rangeWait_back : (s.rangeWait a).back = s.back := rfl
@[simp] theorem State.rangeWait_rings : (s.rangeWait a).rings = s.rings := rfl
@[simp] theorem State.rangeWait_cmds : (s.rangeWait a).cmds = s.cmds := rfl
@[simp] theorem State.rangeWait_tly : (s.rangeWait a).tly = s.tly := rfl
@[simp] theorem State.rangeWait_cone : (s.rangeWait a).cone = s.cone := rfl
@[simp] theorem State.rangeWait_pmu : (s.rangeWait a).pmu = s.pmu := rfl
@[simp] theorem State.rangeWait_kiln : (s.rangeWait a).kiln = s.kiln := rfl
@[simp] theorem State.rangeWait_flt : (s.rangeWait a).flt = s.flt := rfl
@[simp] theorem State.rangeWait_ep : (s.rangeWait a).ep = s.ep := rfl
@[simp] theorem State.rangeWait_pair : (s.rangeWait a).pair = s.pair := rfl
@[simp] theorem State.rangeWait_fw : (s.rangeWait a).fw = s.fw := rfl
@[simp] theorem State.rangeWait_life : (s.rangeWait a).life = s.life := rfl
@[simp] theorem State.rangeWait_ckp : (s.rangeWait a).ckp = s.ckp := rfl
@[simp] theorem State.rangeWait_links : (s.rangeWait a).links = s.links := rfl
@[simp] theorem State.rangeWait_out : (s.rangeWait a).out = s.out := rfl
end

section
variable (s : State) (code : Nat) (src : Nat) (fields : List Nat)
@[simp] theorem State.event_pending : (s.event code src fields).pending = s.pending := by unfold State.event; split <;> rfl
@[simp] theorem State.event_free : (s.event code src fields).free = s.free := by unfold State.event; split <;> rfl
@[simp] theorem State.event_boot : (s.event code src fields).boot = s.boot := by unfold State.event; split <;> rfl
@[simp] theorem State.event_apb : (s.event code src fields).apb = s.apb := by unfold State.event; split <;> rfl
@[simp] theorem State.event_syb : (s.event code src fields).syb = s.syb := by unfold State.event; split <;> rfl
@[simp] theorem State.event_glaze : (s.event code src fields).glaze = s.glaze := by unfold State.event; split <;> rfl
@[simp] theorem State.event_agents : (s.event code src fields).agents = s.agents := by unfold State.event; split <;> rfl
@[simp] theorem State.event_shelves : (s.event code src fields).shelves = s.shelves := by unfold State.event; split <;> rfl
@[simp] theorem State.event_arr : (s.event code src fields).arr = s.arr := by unfold State.event; split <;> rfl
@[simp] theorem State.event_dir : (s.event code src fields).dir = s.dir := by unfold State.event; split <;> rfl
@[simp] theorem State.event_home : (s.event code src fields).home = s.home := by unfold State.event; split <;> rfl
@[simp] theorem State.event_back : (s.event code src fields).back = s.back := by unfold State.event; split <;> rfl
@[simp] theorem State.event_rings : (s.event code src fields).rings = s.rings := by unfold State.event; split <;> rfl
@[simp] theorem State.event_cmds : (s.event code src fields).cmds = s.cmds := by unfold State.event; split <;> rfl
@[simp] theorem State.event_ranges : (s.event code src fields).ranges = s.ranges := by unfold State.event; split <;> rfl
@[simp] theorem State.event_tly : (s.event code src fields).tly = s.tly := by unfold State.event; split <;> rfl
@[simp] theorem State.event_cone : (s.event code src fields).cone = s.cone := by unfold State.event; split <;> rfl
@[simp] theorem State.event_pmu : (s.event code src fields).pmu = s.pmu := by unfold State.event; split <;> rfl
@[simp] theorem State.event_kiln : (s.event code src fields).kiln = s.kiln := by unfold State.event; split <;> rfl
@[simp] theorem State.event_flt : (s.event code src fields).flt = s.flt := by unfold State.event; split <;> rfl
@[simp] theorem State.event_ep : (s.event code src fields).ep = s.ep := by unfold State.event; split <;> rfl
@[simp] theorem State.event_pair : (s.event code src fields).pair = s.pair := by unfold State.event; split <;> rfl
@[simp] theorem State.event_fw : (s.event code src fields).fw = s.fw := by unfold State.event; split <;> rfl
@[simp] theorem State.event_life : (s.event code src fields).life = s.life := by unfold State.event; split <;> rfl
@[simp] theorem State.event_ckp : (s.event code src fields).ckp = s.ckp := by unfold State.event; split <;> rfl
@[simp] theorem State.event_links : (s.event code src fields).links = s.links := by unfold State.event; split <;> rfl
@[simp] theorem State.event_out : (s.event code src fields).out = s.out := by unfold State.event; split <;> rfl
end

section
variable (s : State) (h : Half) (c : HalfClk)
@[simp] theorem State.setHalf_pending : (s.setHalf h c).pending = s.pending := by cases h <;> rfl
@[simp] theorem State.setHalf_free : (s.setHalf h c).free = s.free := by cases h <;> rfl
@[simp] theorem State.setHalf_boot : (s.setHalf h c).boot = s.boot := by cases h <;> rfl
@[simp] theorem State.setHalf_apb : (s.setHalf h c).apb = s.apb := by cases h <;> rfl
@[simp] theorem State.setHalf_evt : (s.setHalf h c).evt = s.evt := by cases h <;> rfl
@[simp] theorem State.setHalf_syb : (s.setHalf h c).syb = s.syb := by cases h <;> rfl
@[simp] theorem State.setHalf_glaze : (s.setHalf h c).glaze = s.glaze := by cases h <;> rfl
@[simp] theorem State.setHalf_agents : (s.setHalf h c).agents = s.agents := by cases h <;> rfl
@[simp] theorem State.setHalf_shelves : (s.setHalf h c).shelves = s.shelves := by cases h <;> rfl
@[simp] theorem State.setHalf_arr : (s.setHalf h c).arr = s.arr := by cases h <;> rfl
@[simp] theorem State.setHalf_dir : (s.setHalf h c).dir = s.dir := by cases h <;> rfl
@[simp] theorem State.setHalf_home : (s.setHalf h c).home = s.home := by cases h <;> rfl
@[simp] theorem State.setHalf_back : (s.setHalf h c).back = s.back := by cases h <;> rfl
@[simp] theorem State.setHalf_rings : (s.setHalf h c).rings = s.rings := by cases h <;> rfl
@[simp] theorem State.setHalf_cmds : (s.setHalf h c).cmds = s.cmds := by cases h <;> rfl
@[simp] theorem State.setHalf_ranges : (s.setHalf h c).ranges = s.ranges := by cases h <;> rfl
@[simp] theorem State.setHalf_tly : (s.setHalf h c).tly = s.tly := by cases h <;> rfl
@[simp] theorem State.setHalf_cone : (s.setHalf h c).cone = s.cone := by cases h <;> rfl
@[simp] theorem State.setHalf_pmu : (s.setHalf h c).pmu = s.pmu := by cases h <;> rfl
@[simp] theorem State.setHalf_kiln : (s.setHalf h c).kiln = s.kiln := by cases h <;> rfl
@[simp] theorem State.setHalf_flt : (s.setHalf h c).flt = s.flt := by cases h <;> rfl
@[simp] theorem State.setHalf_ep : (s.setHalf h c).ep = s.ep := by cases h <;> rfl
@[simp] theorem State.setHalf_pair : (s.setHalf h c).pair = s.pair := by cases h <;> rfl
@[simp] theorem State.setHalf_fw : (s.setHalf h c).fw = s.fw := by cases h <;> rfl
@[simp] theorem State.setHalf_life : (s.setHalf h c).life = s.life := by cases h <;> rfl
@[simp] theorem State.setHalf_links : (s.setHalf h c).links = s.links := by cases h <;> rfl
@[simp] theorem State.setHalf_out : (s.setHalf h c).out = s.out := by cases h <;> rfl
end

section
variable (s : State) (h : Half) (f : HalfClk → HalfClk)
@[simp] theorem State.modHalf_pending : (s.modHalf h f).pending = s.pending := by cases h <;> rfl
@[simp] theorem State.modHalf_free : (s.modHalf h f).free = s.free := by cases h <;> rfl
@[simp] theorem State.modHalf_boot : (s.modHalf h f).boot = s.boot := by cases h <;> rfl
@[simp] theorem State.modHalf_apb : (s.modHalf h f).apb = s.apb := by cases h <;> rfl
@[simp] theorem State.modHalf_evt : (s.modHalf h f).evt = s.evt := by cases h <;> rfl
@[simp] theorem State.modHalf_syb : (s.modHalf h f).syb = s.syb := by cases h <;> rfl
@[simp] theorem State.modHalf_glaze : (s.modHalf h f).glaze = s.glaze := by cases h <;> rfl
@[simp] theorem State.modHalf_agents : (s.modHalf h f).agents = s.agents := by cases h <;> rfl
@[simp] theorem State.modHalf_shelves : (s.modHalf h f).shelves = s.shelves := by cases h <;> rfl
@[simp] theorem State.modHalf_arr : (s.modHalf h f).arr = s.arr := by cases h <;> rfl
@[simp] theorem State.modHalf_dir : (s.modHalf h f).dir = s.dir := by cases h <;> rfl
@[simp] theorem State.modHalf_home : (s.modHalf h f).home = s.home := by cases h <;> rfl
@[simp] theorem State.modHalf_back : (s.modHalf h f).back = s.back := by cases h <;> rfl
@[simp] theorem State.modHalf_rings : (s.modHalf h f).rings = s.rings := by cases h <;> rfl
@[simp] theorem State.modHalf_cmds : (s.modHalf h f).cmds = s.cmds := by cases h <;> rfl
@[simp] theorem State.modHalf_ranges : (s.modHalf h f).ranges = s.ranges := by cases h <;> rfl
@[simp] theorem State.modHalf_tly : (s.modHalf h f).tly = s.tly := by cases h <;> rfl
@[simp] theorem State.modHalf_cone : (s.modHalf h f).cone = s.cone := by cases h <;> rfl
@[simp] theorem State.modHalf_pmu : (s.modHalf h f).pmu = s.pmu := by cases h <;> rfl
@[simp] theorem State.modHalf_kiln : (s.modHalf h f).kiln = s.kiln := by cases h <;> rfl
@[simp] theorem State.modHalf_flt : (s.modHalf h f).flt = s.flt := by cases h <;> rfl
@[simp] theorem State.modHalf_ep : (s.modHalf h f).ep = s.ep := by cases h <;> rfl
@[simp] theorem State.modHalf_pair : (s.modHalf h f).pair = s.pair := by cases h <;> rfl
@[simp] theorem State.modHalf_fw : (s.modHalf h f).fw = s.fw := by cases h <;> rfl
@[simp] theorem State.modHalf_life : (s.modHalf h f).life = s.life := by cases h <;> rfl
@[simp] theorem State.modHalf_links : (s.modHalf h f).links = s.links := by cases h <;> rfl
@[simp] theorem State.modHalf_out : (s.modHalf h f).out = s.out := by cases h <;> rfl
end

section
variable (s : State) (h : Half) (v : BitVec 2)
@[simp] theorem State.vreq_pending : (s.vreq h v).pending = s.pending := by cases h <;> rfl
@[simp] theorem State.vreq_free : (s.vreq h v).free = s.free := by cases h <;> rfl
@[simp] theorem State.vreq_boot : (s.vreq h v).boot = s.boot := by cases h <;> rfl
@[simp] theorem State.vreq_apb : (s.vreq h v).apb = s.apb := by cases h <;> rfl
@[simp] theorem State.vreq_evt : (s.vreq h v).evt = s.evt := by cases h <;> rfl
@[simp] theorem State.vreq_syb : (s.vreq h v).syb = s.syb := by cases h <;> rfl
@[simp] theorem State.vreq_glaze : (s.vreq h v).glaze = s.glaze := by cases h <;> rfl
@[simp] theorem State.vreq_agents : (s.vreq h v).agents = s.agents := by cases h <;> rfl
@[simp] theorem State.vreq_shelves : (s.vreq h v).shelves = s.shelves := by cases h <;> rfl
@[simp] theorem State.vreq_arr : (s.vreq h v).arr = s.arr := by cases h <;> rfl
@[simp] theorem State.vreq_dir : (s.vreq h v).dir = s.dir := by cases h <;> rfl
@[simp] theorem State.vreq_home : (s.vreq h v).home = s.home := by cases h <;> rfl
@[simp] theorem State.vreq_back : (s.vreq h v).back = s.back := by cases h <;> rfl
@[simp] theorem State.vreq_rings : (s.vreq h v).rings = s.rings := by cases h <;> rfl
@[simp] theorem State.vreq_cmds : (s.vreq h v).cmds = s.cmds := by cases h <;> rfl
@[simp] theorem State.vreq_ranges : (s.vreq h v).ranges = s.ranges := by cases h <;> rfl
@[simp] theorem State.vreq_tly : (s.vreq h v).tly = s.tly := by cases h <;> rfl
@[simp] theorem State.vreq_cone : (s.vreq h v).cone = s.cone := by cases h <;> rfl
@[simp] theorem State.vreq_pmu : (s.vreq h v).pmu = s.pmu := by cases h <;> rfl
@[simp] theorem State.vreq_kiln : (s.vreq h v).kiln = s.kiln := by cases h <;> rfl
@[simp] theorem State.vreq_flt : (s.vreq h v).flt = s.flt := by cases h <;> rfl
@[simp] theorem State.vreq_ep : (s.vreq h v).ep = s.ep := by cases h <;> rfl
@[simp] theorem State.vreq_pair : (s.vreq h v).pair = s.pair := by cases h <;> rfl
@[simp] theorem State.vreq_fw : (s.vreq h v).fw = s.fw := by cases h <;> rfl
@[simp] theorem State.vreq_life : (s.vreq h v).life = s.life := by cases h <;> rfl
@[simp] theorem State.vreq_ckp : (s.vreq h v).ckp = s.ckp := by cases h <;> rfl
@[simp] theorem State.vreq_links : (s.vreq h v).links = s.links := by cases h <;> rfl
end

section
variable (s : State) (h : Half) (v : BitVec 2)
@[simp] theorem State.pllreq_pending : (s.pllreq h v).pending = s.pending := by cases h <;> rfl
@[simp] theorem State.pllreq_free : (s.pllreq h v).free = s.free := by cases h <;> rfl
@[simp] theorem State.pllreq_boot : (s.pllreq h v).boot = s.boot := by cases h <;> rfl
@[simp] theorem State.pllreq_apb : (s.pllreq h v).apb = s.apb := by cases h <;> rfl
@[simp] theorem State.pllreq_evt : (s.pllreq h v).evt = s.evt := by cases h <;> rfl
@[simp] theorem State.pllreq_syb : (s.pllreq h v).syb = s.syb := by cases h <;> rfl
@[simp] theorem State.pllreq_glaze : (s.pllreq h v).glaze = s.glaze := by cases h <;> rfl
@[simp] theorem State.pllreq_agents : (s.pllreq h v).agents = s.agents := by cases h <;> rfl
@[simp] theorem State.pllreq_shelves : (s.pllreq h v).shelves = s.shelves := by cases h <;> rfl
@[simp] theorem State.pllreq_arr : (s.pllreq h v).arr = s.arr := by cases h <;> rfl
@[simp] theorem State.pllreq_dir : (s.pllreq h v).dir = s.dir := by cases h <;> rfl
@[simp] theorem State.pllreq_home : (s.pllreq h v).home = s.home := by cases h <;> rfl
@[simp] theorem State.pllreq_back : (s.pllreq h v).back = s.back := by cases h <;> rfl
@[simp] theorem State.pllreq_rings : (s.pllreq h v).rings = s.rings := by cases h <;> rfl
@[simp] theorem State.pllreq_cmds : (s.pllreq h v).cmds = s.cmds := by cases h <;> rfl
@[simp] theorem State.pllreq_ranges : (s.pllreq h v).ranges = s.ranges := by cases h <;> rfl
@[simp] theorem State.pllreq_tly : (s.pllreq h v).tly = s.tly := by cases h <;> rfl
@[simp] theorem State.pllreq_cone : (s.pllreq h v).cone = s.cone := by cases h <;> rfl
@[simp] theorem State.pllreq_pmu : (s.pllreq h v).pmu = s.pmu := by cases h <;> rfl
@[simp] theorem State.pllreq_kiln : (s.pllreq h v).kiln = s.kiln := by cases h <;> rfl
@[simp] theorem State.pllreq_flt : (s.pllreq h v).flt = s.flt := by cases h <;> rfl
@[simp] theorem State.pllreq_ep : (s.pllreq h v).ep = s.ep := by cases h <;> rfl
@[simp] theorem State.pllreq_pair : (s.pllreq h v).pair = s.pair := by cases h <;> rfl
@[simp] theorem State.pllreq_fw : (s.pllreq h v).fw = s.fw := by cases h <;> rfl
@[simp] theorem State.pllreq_life : (s.pllreq h v).life = s.life := by cases h <;> rfl
@[simp] theorem State.pllreq_ckp : (s.pllreq h v).ckp = s.ckp := by cases h <;> rfl
@[simp] theorem State.pllreq_links : (s.pllreq h v).links = s.links := by cases h <;> rfl
end

section
variable (s : State) (p : Port) (l : Link)
@[simp] theorem State.setLink_pending : (s.setLink p l).pending = s.pending := by cases p <;> rfl
@[simp] theorem State.setLink_free : (s.setLink p l).free = s.free := by cases p <;> rfl
@[simp] theorem State.setLink_boot : (s.setLink p l).boot = s.boot := by cases p <;> rfl
@[simp] theorem State.setLink_apb : (s.setLink p l).apb = s.apb := by cases p <;> rfl
@[simp] theorem State.setLink_evt : (s.setLink p l).evt = s.evt := by cases p <;> rfl
@[simp] theorem State.setLink_syb : (s.setLink p l).syb = s.syb := by cases p <;> rfl
@[simp] theorem State.setLink_glaze : (s.setLink p l).glaze = s.glaze := by cases p <;> rfl
@[simp] theorem State.setLink_agents : (s.setLink p l).agents = s.agents := by cases p <;> rfl
@[simp] theorem State.setLink_shelves : (s.setLink p l).shelves = s.shelves := by cases p <;> rfl
@[simp] theorem State.setLink_arr : (s.setLink p l).arr = s.arr := by cases p <;> rfl
@[simp] theorem State.setLink_dir : (s.setLink p l).dir = s.dir := by cases p <;> rfl
@[simp] theorem State.setLink_home : (s.setLink p l).home = s.home := by cases p <;> rfl
@[simp] theorem State.setLink_back : (s.setLink p l).back = s.back := by cases p <;> rfl
@[simp] theorem State.setLink_rings : (s.setLink p l).rings = s.rings := by cases p <;> rfl
@[simp] theorem State.setLink_cmds : (s.setLink p l).cmds = s.cmds := by cases p <;> rfl
@[simp] theorem State.setLink_ranges : (s.setLink p l).ranges = s.ranges := by cases p <;> rfl
@[simp] theorem State.setLink_tly : (s.setLink p l).tly = s.tly := by cases p <;> rfl
@[simp] theorem State.setLink_cone : (s.setLink p l).cone = s.cone := by cases p <;> rfl
@[simp] theorem State.setLink_pmu : (s.setLink p l).pmu = s.pmu := by cases p <;> rfl
@[simp] theorem State.setLink_kiln : (s.setLink p l).kiln = s.kiln := by cases p <;> rfl
@[simp] theorem State.setLink_flt : (s.setLink p l).flt = s.flt := by cases p <;> rfl
@[simp] theorem State.setLink_ep : (s.setLink p l).ep = s.ep := by cases p <;> rfl
@[simp] theorem State.setLink_pair : (s.setLink p l).pair = s.pair := by cases p <;> rfl
@[simp] theorem State.setLink_fw : (s.setLink p l).fw = s.fw := by cases p <;> rfl
@[simp] theorem State.setLink_life : (s.setLink p l).life = s.life := by cases p <;> rfl
@[simp] theorem State.setLink_ckp : (s.setLink p l).ckp = s.ckp := by cases p <;> rfl
@[simp] theorem State.setLink_out : (s.setLink p l).out = s.out := by cases p <;> rfl
end

section
variable (s : State) (c : BitVec 3) (n : Nat)
@[simp] theorem State.coneBytes_pending : (s.coneBytes c n).pending = s.pending := by unfold State.coneBytes; split <;> rfl
@[simp] theorem State.coneBytes_free : (s.coneBytes c n).free = s.free := by unfold State.coneBytes; split <;> rfl
@[simp] theorem State.coneBytes_boot : (s.coneBytes c n).boot = s.boot := by unfold State.coneBytes; split <;> rfl
@[simp] theorem State.coneBytes_apb : (s.coneBytes c n).apb = s.apb := by unfold State.coneBytes; split <;> rfl
@[simp] theorem State.coneBytes_evt : (s.coneBytes c n).evt = s.evt := by unfold State.coneBytes; split <;> rfl
@[simp] theorem State.coneBytes_syb : (s.coneBytes c n).syb = s.syb := by unfold State.coneBytes; split <;> rfl
@[simp] theorem State.coneBytes_glaze : (s.coneBytes c n).glaze = s.glaze := by unfold State.coneBytes; split <;> rfl
@[simp] theorem State.coneBytes_agents : (s.coneBytes c n).agents = s.agents := by unfold State.coneBytes; split <;> rfl
@[simp] theorem State.coneBytes_shelves : (s.coneBytes c n).shelves = s.shelves := by unfold State.coneBytes; split <;> rfl
@[simp] theorem State.coneBytes_arr : (s.coneBytes c n).arr = s.arr := by unfold State.coneBytes; split <;> rfl
@[simp] theorem State.coneBytes_dir : (s.coneBytes c n).dir = s.dir := by unfold State.coneBytes; split <;> rfl
@[simp] theorem State.coneBytes_home : (s.coneBytes c n).home = s.home := by unfold State.coneBytes; split <;> rfl
@[simp] theorem State.coneBytes_back : (s.coneBytes c n).back = s.back := by unfold State.coneBytes; split <;> rfl
@[simp] theorem State.coneBytes_rings : (s.coneBytes c n).rings = s.rings := by unfold State.coneBytes; split <;> rfl
@[simp] theorem State.coneBytes_cmds : (s.coneBytes c n).cmds = s.cmds := by unfold State.coneBytes; split <;> rfl
@[simp] theorem State.coneBytes_ranges : (s.coneBytes c n).ranges = s.ranges := by unfold State.coneBytes; split <;> rfl
@[simp] theorem State.coneBytes_tly : (s.coneBytes c n).tly = s.tly := by unfold State.coneBytes; split <;> rfl
@[simp] theorem State.coneBytes_pmu : (s.coneBytes c n).pmu = s.pmu := by unfold State.coneBytes; split <;> rfl
@[simp] theorem State.coneBytes_kiln : (s.coneBytes c n).kiln = s.kiln := by unfold State.coneBytes; split <;> rfl
@[simp] theorem State.coneBytes_flt : (s.coneBytes c n).flt = s.flt := by unfold State.coneBytes; split <;> rfl
@[simp] theorem State.coneBytes_ep : (s.coneBytes c n).ep = s.ep := by unfold State.coneBytes; split <;> rfl
@[simp] theorem State.coneBytes_pair : (s.coneBytes c n).pair = s.pair := by unfold State.coneBytes; split <;> rfl
@[simp] theorem State.coneBytes_fw : (s.coneBytes c n).fw = s.fw := by unfold State.coneBytes; split <;> rfl
@[simp] theorem State.coneBytes_life : (s.coneBytes c n).life = s.life := by unfold State.coneBytes; split <;> rfl
@[simp] theorem State.coneBytes_ckp : (s.coneBytes c n).ckp = s.ckp := by unfold State.coneBytes; split <;> rfl
@[simp] theorem State.coneBytes_links : (s.coneBytes c n).links = s.links := by unfold State.coneBytes; split <;> rfl
@[simp] theorem State.coneBytes_out : (s.coneBytes c n).out = s.out := by unfold State.coneBytes; split <;> rfl
end

section
variable (s : State)
@[simp] theorem State.draw_pending : s.draw.2.pending = s.pending := rfl
@[simp] theorem State.draw_boot : s.draw.2.boot = s.boot := rfl
@[simp] theorem State.draw_apb : s.draw.2.apb = s.apb := rfl
@[simp] theorem State.draw_evt : s.draw.2.evt = s.evt := rfl
@[simp] theorem State.draw_syb : s.draw.2.syb = s.syb := rfl
@[simp] theorem State.draw_glaze : s.draw.2.glaze = s.glaze := rfl
@[simp] theorem State.draw_agents : s.draw.2.agents = s.agents := rfl
@[simp] theorem State.draw_shelves : s.draw.2.shelves = s.shelves := rfl
@[simp] theorem State.draw_arr : s.draw.2.arr = s.arr := rfl
@[simp] theorem State.draw_dir : s.draw.2.dir = s.dir := rfl
@[simp] theorem State.draw_home : s.draw.2.home = s.home := rfl
@[simp] theorem State.draw_back : s.draw.2.back = s.back := rfl
@[simp] theorem State.draw_rings : s.draw.2.rings = s.rings := rfl
@[simp] theorem State.draw_cmds : s.draw.2.cmds = s.cmds := rfl
@[simp] theorem State.draw_ranges : s.draw.2.ranges = s.ranges := rfl
@[simp] theorem State.draw_tly : s.draw.2.tly = s.tly := rfl
@[simp] theorem State.draw_cone : s.draw.2.cone = s.cone := rfl
@[simp] theorem State.draw_pmu : s.draw.2.pmu = s.pmu := rfl
@[simp] theorem State.draw_kiln : s.draw.2.kiln = s.kiln := rfl
@[simp] theorem State.draw_flt : s.draw.2.flt = s.flt := rfl
@[simp] theorem State.draw_ep : s.draw.2.ep = s.ep := rfl
@[simp] theorem State.draw_pair : s.draw.2.pair = s.pair := rfl
@[simp] theorem State.draw_fw : s.draw.2.fw = s.fw := rfl
@[simp] theorem State.draw_life : s.draw.2.life = s.life := rfl
@[simp] theorem State.draw_ckp : s.draw.2.ckp = s.ckp := rfl
@[simp] theorem State.draw_links : s.draw.2.links = s.links := rfl
@[simp] theorem State.draw_out : s.draw.2.out = s.out := rfl
@[simp] theorem State.draw_free : s.draw.2.free = s.free + 1 := rfl
end

/-! ### Reading back what was written -/

theorem State.modShelf_shelf (s : State) (i j : Nat) (f : Shelf → Shelf) :
    (s.modShelf i f).shelf j = if j = i then f (s.shelf i) else s.shelf j := by
  rw [State.shelf, State.modShelf, tmod, tget_tset]
  rfl

theorem State.modRing_ring (s : State) (i j : Nat) (f : Ring → Ring) :
    (s.modRing i f).ring j = if j = i then f (s.ring i) else s.ring j := by
  rw [State.ring, State.modRing, tmod, tget_tset]
  rfl

theorem State.modCtx_ctx (s : State) (i j : Nat) (f : Ctx → Ctx) :
    (s.modCtx i f).ctx j = if j = i then f (s.ctx i) else s.ctx j := by
  rw [State.ctx, State.modCtx, tmod, tget_tset]
  rfl

theorem State.modMon_mon (s : State) (i j : Nat) (f : Mon → Mon) :
    (s.modMon i f).mon j = if j = i then f (s.mon i) else s.mon j := by
  rw [State.mon, State.modMon, tmod, tget_tset]
  rfl

theorem State.setAgent_agent (s : State) (i j : AgentId) (a : Agent) :
    (s.setAgent i a).agent j = if j = i then a else s.agent j := by
  simp only [State.agent, State.setAgent, tget_tset, BitVec.toNat_inj]

theorem State.setTally_tally (s : State) (i j : Nat) (v : BitVec 64) :
    (s.setTally i v).tally j = if j = i then v else s.tally j := by
  simp only [State.tally, State.setTally, tget_tset]

@[simp] theorem State.setHalf_half (s : State) (h k : Half) (c : HalfClk) :
    (s.setHalf h c).half k = if k = h then c else s.half k := by
  cases h <;> cases k <;> rfl

@[simp] theorem State.modHalf_half (s : State) (h k : Half) (f : HalfClk → HalfClk) :
    (s.modHalf h f).half k = if k = h then f (s.half h) else s.half k := State.setHalf_half s h k _

theorem State.setTag_tag (s : State) (x y : Slot) (t : Tag) :
    (s.setTag x t).tag y = if y.key = x.key then t else s.tag y := by
  simp only [State.tag, State.setTag, tget_tset]

/-- A byte of the arrays after a line is written: the line's byte where the mask enables it, else what was there. -/
theorem tget_setBytes (a : Nat) (m : Mask) : ∀ (bs : List Byte) (i j : Nat) (t : List Host.Cell),
    tget 0 (setBytes t a bs m i) j =
      if a + i ≤ j ∧ j < a + i + bs.length ∧ m.getLsbD (j - a) then bs.getD (j - a - i) 0 else tget 0 t j
  | [], i, j, t => by
    rw [setBytes, if_neg]
    rintro ⟨h1, h2, _⟩
    rw [List.length_nil] at h2
    omega
  | b :: r, i, j, t => by
    rw [setBytes, tget_setBytes a m r (i + 1) j]
    rw [List.length_cons]
    by_cases hj : j = a + i
    · subst hj
      have e1 : a + i - a = i := by omega
      rw [if_neg (by omega), e1]
      have e2 : i - i = 0 := by omega
      rw [e2]
      by_cases hm : m.getLsbD i = true
      · rw [if_pos hm, if_pos ⟨by omega, by omega, hm⟩, tget_tset, if_pos rfl]
        rfl
      · rw [if_neg hm, if_neg (fun h => hm h.2.2)]
    · have e3 : tget 0 (if m.getLsbD i = true then tset 0 t (a + i) b else t) j = tget 0 t j := by
        split
        · rw [tget_tset, if_neg hj]
        · rfl
      rw [e3]
      by_cases h : a + (i + 1) ≤ j ∧ j < a + (i + 1) + r.length ∧ m.getLsbD (j - a) = true
      · rw [if_pos h, if_pos ⟨by omega, by omega, h.2.2⟩]
        have e4 : j - a - i = (j - a - (i + 1)) + 1 := by omega
        rw [e4]
        rfl
      · rw [if_neg h, if_neg]
        rintro ⟨h1, h2, h3⟩
        exact h ⟨by omega, by omega, h3⟩

theorem bytesLE_length : ∀ (n v : Nat), (bytesLE n v).length = n
  | 0, _ => rfl
  | n + 1, v => by rw [bytesLE, List.length_cons, bytesLE_length n]

/-- A byte of the arrays after a masked line write. -/
theorem State.setArr_arrByte (s : State) (a : Nat) (l : Line) (m : Mask) (j : Nat) :
    (s.setArr a l m).arrByte j =
      if a ≤ j ∧ j < a + 128 ∧ m.getLsbD (j - a) then (lineBytes l).getD (j - a) 0 else s.arrByte j := by
  rw [State.arrByte, State.setArr, tget_setBytes, lineBytes, bytesLE_length]
  rfl

theorem State.zeroArr_arrByte (s : State) (p : Nat → Bool) (j : Nat) :
    (s.zeroArr p).arrByte j = if p j then 0 else s.arrByte j := by
  rw [State.arrByte, State.zeroArr, tget_filter 0 s.arr.bytes (fun a => !p a) j]
  cases p j <;> rfl

/-! ### The memory of the arrays stays canonical (log 1) -/

end Sys2Proof.Machine
end

