-- ==== Sys2Proof/WellFormed.lean ====
section
/-! DEFINITION. Well-formed commands: those whose operands fit their row. A message row carries a header with that row's
code, an Atom a payload of 16 or 128 bytes, a fault at least one row (R137, R138, R331). The meanings are total: an
ill-formed message is what R149 calls a protocol error. -/
namespace Sys2Proof

open Sys2Proof.Machine

/-- A payload length an Atom can have (R138). -/
def atomLen (plen : Nat) : Bool := plen == 16 || plen == 128

/-- A fault names a unit that can have it: a mat's fault names its rows (R331). -/
def FaultUnit.ok : FaultUnit → Bool
  | .mat _ _ rows => !rows.isEmpty && decide (rows.Pairwise (· < ·))
  | _ => true

/-- The unit of a finding is one that can have it. -/
def Finding.ok : Finding → Bool
  | .pass => true
  | .transient u => u.ok
  | .lasting u => u.ok
  | .reads u _ _ => u.ok
  | .failedTest u => match u with
    | .mat .. => true
    | .tagRow .. => true
    | .dirWay .. => true
    | _ => false

/-- The forwarded write of an MFWD is a WrL, a WrP or an Atom (R377). -/
def FwdWrite.ok (w : FwdWrite) : Bool :=
  headerKeeps w.hdr && [mWrL, mWrP, mAtom].contains (Hdr.msg w.hdr) && (Hdr.msg w.hdr != mAtom || atomLen w.plen)

/-- The operands fit the row. -/
def wellFormed : Instr → Bool
  | .rds _ h _ => Hdr.msg h == mRdS
  | .rdx _ h _ => Hdr.msg h == mRdX
  | .upg _ h _ => Hdr.msg h == mUpg
  | .rdv _ h _ => Hdr.msg h == mRdV
  | .rdnc _ h _ => Hdr.msg h == mRdNC
  | .wrl _ h _ _ => Hdr.msg h == mWrL
  | .wrp _ h _ _ _ => Hdr.msg h == mWrP
  | .atom _ h plen _ _ => Hdr.msg h == mAtom && atomLen plen
  | .puts _ h => Hdr.msg h == mPutS
  | .pute _ h => Hdr.msg h == mPutE
  | .putm _ h _ => Hdr.msg h == mPutM
  | .puto _ h _ => Hdr.msg h == mPutO
  | .fwdack h => Hdr.msg h == mFwdAck
  | .invack h => Hdr.msg h == mInvAck
  | .datam h _ => Hdr.msg h == mDataM
  | .datas h _ => Hdr.msg h == mDataS
  | .cmp h => Hdr.msg h == mCmp
  | .peerResponse h _ => [mDataS, mAck, mPoison].contains (Hdr.msg h)
  | .selfTestDone failing => failing.all FaultUnit.ok
  | .wedgingRead found => found.ok
  | .transStorm u => u.ok
  | .mfwd w _ => w.ok
  | _ => true

end Sys2Proof
end

