-- ==== Sys2Proof/Tests/Slice0.lean ====
section
/-! SUPPORT. Tests: ill-formed terms that WellFormed refuses; for each statement a state and operands that meet the
hypotheses of every clause, most of them with the outcome that the statement's rule gives them. -/
namespace Sys2Proof.Tests
open Sys2Proof Sys2Proof.Machine
set_option Elab.async false

/-- The command ends in a next state with this property. -/
def did (c : Instr) (s : State) (p : State → Bool) : Bool :=
  match exec c s with
  | .next t => p t
  | _ => false
/-- The command ends in this refusal. -/
def stops (c : Instr) (s : State) (r : Refusal) : Bool :=
  match exec c s with
  | .refused x => x == r
  | _ => false
/-- So does a step. -/
def stepped (s : State) (p : State → Bool) : Bool :=
  match step s with
  | .next t => p t
  | _ => false
/-- A region entry (R44). -/
def reg (base size space pclass attr : Nat) : BitVec 256 :=
  BitVec.ofNat 256 (base + size * 2 ^ 64 + space * 2 ^ 128 + pclass * 2 ^ 136 + 2 ^ 144 + attr * 2 ^ 160)
/-- A configuration: cache regions of class 0, M and E, a saggar bank 16, a kiln bank 17; one home shelf. -/
def cfg0 : Cfg :=
  { Cfg.empty with
    modes := [(16, 1), (17, 2)], homing := [0], cones := [(0, 0xFF010110)],
    regions := [(0, reg (2 ^ 40) (2 ^ 20) 0 0 0x2A), (1, reg (16 * 2 ^ 22) (2 ^ 22) 1 0 0), (2,
        reg (17 * 2 ^ 22) (2 ^ 22) 2 0 0),
      (3, reg (2 ^ 41) (2 ^ 20) 0 2 0), (4, reg (2 ^ 42) (2 ^ 20) 0 3 0)] }
/-- A running slice with that base and every block clocked. -/
def run : State :=
  { State.reset with
    boot := { Boot.reset with step := .running }
    syb := { State.reset.syb with state := .active, cfg := cfg0 }
    ep := { State.reset.ep with num := 1 }
    ckp := { Clocks.reset with clken0 := 0xFFFF, clken1 := 0x3FFF7F } }
/-- A slice that waits for GO. -/
def rom : State := { State.reset with boot := { Boot.reset with step := .rom } }
/-- `run` with pair mode. -/
def twin : State := { run with syb := { run.syb with cfg := { cfg0 with pair := 1 + 3 * 2 ^ 8 } } }
/-- A header of agent 5 for a home, TXN 3. -/
def hdr (code line extra : Nat) : Hdr := BitVec.ofNat 128 (code + 128 + 5 * 2 ^ 8 + line * 2 ^ 32 + 3 * 2 ^ 77 + extra)
/-- Agent 5 has joined. -/
def joined (s : State) : State := s.setAgent 5 ⟨.yes, 0x2001, some (.agent 0)⟩
/-- A cache line, a line of class M and of class E, a saggar line, a kiln line, a tally line. -/
def lC : Nat := 2 ^ 33
def lM : Nat := 2 ^ 34
def lE : Nat := 2 ^ 35
def lS : Nat := 16 * 2 ^ 15
def lK : Nat := 17 * 2 ^ 15
def lT : Nat := 2 ^ 23
/-- The directory entry of a line, in way 0 of its set. -/
def holds (s : State) (l : LineIx) (e : DirEntry) : State :=
  s.setWay (dirKey (s.homeShelf l) (dirSet l.toNat) 0) { e with dtag := BitVec.ofNat 31 (dirTag l.toNat) }
/-- An entry with an owner, and one with sharers. -/
def owned (st : HState) (id : AgentId) : DirEntry := { DirEntry.empty with hstate := st, owner := id }
def shared (ids : List AgentId) : DirEntry := { DirEntry.empty with hstate := .ds, sharers := ids }
/-- The line lies whole in slot 0 of its set, in an enabled bank. -/
def cached (s : State) (l : LineIx) : State :=
  (s.modShelf (s.homeBank l / 16) fun g => { g with bankEn := 0xFFFF }).setTag ⟨s.homeBank l, foldSet l.toNat, 0⟩
    { Tag.empty with state := .live, tag := BitVec.ofNat 34 (lineTag l.toNat), csize := 3, sv := 15 }
/-- An open transaction of agent 5 on a line. -/
def open5 (op : ReqOp) (l : LineIx) : Txn := Txn.open { mkReq op (.agent 5 (.agent 0)) l 0 with txn := 3 }
def withTxn (s : State) (x : Txn) : State := { s with home := { s.home with txns := [x] } }
/-- What was sent last has this code. -/
def sent (t : State) (code : Nat) : Bool := ((t.out.msgs ++ (t.links.agent.flatMap (fun p =>
    p.2.waiting))).getLast?.map (fun m => m.code.toNat)) == some code
/-- A descriptor from values at byte offsets. -/
def desc (fs : List (Nat × Nat)) : BitVec 512 := BitVec.ofNat 512 (fs.foldl (fun a f => a + f.2 * 2 ^ (8 * f.1)) 0)
/-- A command of a ring of privilege 2 in context 255, in a phase. -/
def holdsCmd (s : State) (ph : Phase) (d : BitVec 512) : State :=
  { s with rings := [(0, { Ring.reset with en := true, active := true, priv := 2 })]
           cmds := { s.cmds with ctxs := [(255, { Ctx.free with phase := ph, desc := d })] } }
/-- One placement entry: layer 0, bank 17, mat 0, one row. -/
def placed : State :=
  { run with syb := { run.syb with cfg := { cfg0 with placeN := 1, places := [(0, BitVec.ofNat 256 (17 * 2 ^ 16 + 2 ^ 48 + 2 ^ 64))] } } }
/-- A register write and read reach their register. -/
abbrev serves (s : State) (addr : Nat) : Bool :=
  decide (s.boot.step ≠ .held ∧ s.boot.step ≠ .eclkStart ∧ s.apb.held = none ∧ s.pageGated (addr / 0x1000) = false) &&
    (match pageHalf (addr / 0x1000) with
      | some h => (s.half h).st == .awake && !(decide (addr / 0x1000 - 0x10 < 16) &&
          s.ckp.doze.getLsbD (addr / 0x1000 - 0x10))
      | none => true)

def h0 : Hdr := hdr 0x3F 0 0

/-- Every message row refuses a header with another row's code. -/
theorem test_IllFormedMessagesAreRefused :
    ([Instr.rds (.agent 0) h0 false, .rdx (.agent 0) h0 false, .upg (.agent 0) h0 false, .rdv (.agent 0) h0 false,
        .rdnc (.agent 0) h0 false].all (fun c => !wellFormed c)) ∧
    ([Instr.wrl (.agent 0) h0 0 false, .wrp (.agent 0) h0 0 0 false, .atom (.agent 0) h0 16 0 false].all (fun c =>
        !wellFormed c)) ∧
    ([Instr.puts (.agent 0) h0, .pute (.agent 0) h0, .putm (.agent 0) h0 0, .puto (.agent 0) h0 0].all (fun c =>
        !wellFormed c)) ∧
    ([Instr.fwdack h0, .invack h0, .datam h0 0, .datas h0 0, .cmp h0, .peerResponse h0 0].all (fun c => !wellFormed c)) ∧
    (wellFormed (.rds (.agent 0) (hdr mRdS lC 0) false) && wellFormed (.cmp (hdr mCmp lC 0)) &&
        wellFormed (.peerResponse (hdr mAck 0 0) 0)) := by decide +kernel

theorem test_IllFormedOperandsAreRefused :
    (wellFormed (.atom (.agent 0) (hdr mAtom lC 0) 17 0 false) = false ∧
        wellFormed (.atom (.agent 0) (hdr mAtom lC 0) 128 0 false) = true) ∧
    (wellFormed (.selfTestDone [.mat 0 0 []]) = false ∧ wellFormed (.selfTestDone [.mat 0 0 [3, 3]]) = false ∧
        wellFormed (.selfTestDone [.mat 0 0 [3, 4]]) = true) ∧
    (wellFormed (.wedgingRead (.transient (.mat 0 0 []))) = false ∧
        wellFormed (.wedgingRead (.lasting (.mat 0 0 []))) = false) ∧
    (wellFormed (.wedgingRead (.failedTest (.bank 0))) = false ∧
        wellFormed (.wedgingRead (.failedTest (.tagRow 0 0))) = true) ∧
    (wellFormed (.transStorm (.mat 0 0 [])) = false ∧ wellFormed (.transStorm (.bank 0)) = true) ∧
    (wellFormed (.mfwd ⟨hdr mRdS lC 0, 0, 0, 0⟩ 0) = false ∧ wellFormed (.mfwd ⟨hdr mAtom lC 0, 0, 0, 17⟩ 0) = false) ∧
    (wellFormed (.mfwd ⟨hdr mWrL lC 0 + 2 ^ 127, 0, 0, 0⟩ 0) = false ∧ wellFormed (.mfwd ⟨hdr mAtom lC 0, 0, 0,
        16⟩ 0) = true) := by decide +kernel

def tray : Cfg := { Cfg.empty with hash := 1, seed := 0x5A5A, homing := [0, 1, 2, 3, 4, 5, 8] }

def inA : Region := reg 0 0 0 0 0x40

/-- The worked examples of 08, 09 and 14: hash, home shelf, home bank, set and directory set. -/
theorem test_WorkedAddresses :
    (tray.lineHash 0x2468ACF0 = 0x3E7B ∧ tray.homeShelf inA 0x2468ACF0 = 5 ∧ tray.homeBank inA 0x2468ACF0 = 87) ∧
    (tray.lineHash 0x2468C002 = 0x5289 ∧ tray.homeBank inA 0x2468C002 = 56 ∧ foldSet 0x2468C002 = 1419) ∧
    (tray.homeBank inA 0x2468ACF1 = 71 ∧ dirSet 0x2468ACF1 = 15697) := by decide +kernel

/-- The worked examples of 12 and 13: tickets, and a window that misses its latency guarantee. -/
theorem test_WorkedCommands :
    (({ run with rings := [(5, { Ring.reset with sqLog := 8 })] } : State).ticketOf 5 0x12A07 = 0x5007012A) ∧
    (({ run with rings := [(5, { Ring.reset with sqLog := 8 })] } : State).ticketOf 5 0x12A0A = 0x500A012A) ∧
    (({ run with cone := { run.cone with mons := [(7, { Mon.reset with reqs := 1000000, late := 12000 })] }, syb := { run.syb with cfg := { cfg0 with cones := [(7, BitVec.ofNat 128 (200 * 2 ^ 64 + 99 * 2 ^ 80))] } } } : State).latMiss 7 = true) := by decide +kernel

def seat (v : Nat) : State :=
    { joined run with arr := { run.arr with bytes := if v = 0 then [] else [(16 * 2 ^ 22 + 0x48, BitVec.ofNat 8 v)] } }

/-- The worked example of 09, on a saggar line: the first CAS takes the seat, the second does not. -/
theorem test_WorkedCas :
    (did (.atom (.agent 0) (hdr mAtom lS (0x65 * 2 ^ 112)) 16 1 false) (seat 1) (fun t => t.arr.bytes == [] &&
  (t.links.agent.flatMap (fun p => p.2.waiting)).map (fun m => (m.code.toNat == mAck, m.result)) == [(true,
      some 0x10000000000000001#128)])) ∧
    (did (.atom (.agent 0) (hdr mAtom lS (0x65 * 2 ^ 112)) 16 1 false) (seat 0) (fun t => t.arr.bytes == [] &&
  (t.links.agent.flatMap (fun p => p.2.waiting)).map (fun m => (m.code.toNat == mAck, m.result)) == [(true,
      some 0)])) := by decide +kernel

theorem test_StepRunsFrontCommand :
    (({ run with pending := [.evtPop, .apbReset] } : State).pending = .evtPop :: [.apbReset] ∧ run.pending = []) ∧
    (stepped { run with pending := [.apbReset] } (fun t => t.pending == [])) := by decide +kernel

theorem test_StepKeepsInvariantAndQueue :
    (run.arr.wf = true ∧ run.ckp.locked = true ∧ run.evt.bounded = true) ∧
    (stepped { run with pending := [.evtPop, .apbReset] } (fun t => t.pending == [.apbReset] &&
        t.arr.wf)) := by decide +kernel

theorem test_EveryOtherCommandCompletes :
    (({ run with boot := { run.boot with fuses := 1 <<< 3143 } } : State).testLock = true ∧ did .evtPop run (fun _ =>
        true)) := by decide +kernel

theorem test_ResetLeavesResetState :
    (run.ckp.coolStop = false ∧ run.life.changed = false) ∧
    (did (.reset 0x15 7) run (fun t => t.boot.step == .eclkStart && t.boot.sliceBase == 0x15 &&
        t.ckp.clken0 == 0)) := by decide +kernel

theorem test_TestPortReadsSegments :
    (did (.ijtagAccess .idcode) run (fun t => t.boot.tdo == 0x1D601001)) ∧
    (did (.ijtagAccess (.selfTestRead 0)) { run with boot := { run.boot with fuses := 1 <<< 3143 } } (fun t =>
        t.boot.tdo == 0)) ∧
    (did (.ijtagAccess (.arrayRead 0)) { run with arr := { run.arr with bytes := [(1, 0xAB)] } } (fun t =>
        t.boot.tdo == 0xAB00)) ∧
    (stops (.ijtagAccess (.selfTestWrite 0 0)) run .selfTestController) := by decide +kernel

theorem test_ResetSequenceReachesRom :
    (did .eclkValid { run with boot := { run.boot with step := .eclkStart } } (fun t => t.boot.step == .fuses &&
        t.ckp.eclk == 4096)) ∧
    (did (.fuseRdAck 0x80000001) { run with boot := { run.boot with step := .fuses, fuseAddr := 127 } } (fun t =>
  t.boot.step == .waitMclk && t.boot.fuses.getLsbD 4095 && t.boot.fuses.getLsbD 4064 && !t.boot.fuses.getLsbD 4094 &&
      t.boot.fuseAddr == 0)) ∧
    (did (.mclkOk true true) { run with boot := { run.boot with step := .waitMclk } } (fun t => t.boot.step == .rom)) ∧
    (did (.mclkOk false true) { run with boot := { run.boot with step := .waitMclk } } (fun t => t.boot.step == .rom &&
        t.fw.noStandby)) ∧
    (did (.mclkOk false false) { run with boot := { run.boot with step := .waitMclk } } (fun t =>
        t.boot.step == .unusable && t.boot.err == 0x21)) := by decide +kernel

theorem test_RomBootLoadsImage :
    (serves rom 0xC0 && serves run 0xC0) ∧
    (rom.boot.reading = false ∧ run.boot.step = .running) ∧
    (did (.bootGo 5) rom (fun t => t.boot.reading && t.boot.port == 5 && t.ckp.clken1.getLsbD 13 &&
        t.ckp.clken1.getLsbD 1)) ∧
    (did (.bootGo 5) run (fun t => !t.boot.reading && t.evt.queue.length == 1)) ∧
    (did (.romImageChecked [] true) { rom with boot := { rom.boot with reading := true } } (fun t =>
        t.boot.err == stBounds && t.boot.step == .rom)) ∧
    (rom.ckp.coolActive = false ∧ did (.romImageChecked [] false) { rom with boot := { rom.boot with reading := true } }
        (fun t => !t.boot.reading)) := by decide +kernel

theorem test_SelfTestEndsRunning :
    (rom.ckp.coolActive = false ∧ ({ rom with boot := { rom.boot with step := .booting } } : State).boot.step = .booting) ∧
    (did (.selfTestDone [.dirWay 0 0 0]) { rom with boot := { rom.boot with step := .testing } } (fun t =>
        t.boot.step == .running && t.boot.bistDone)) ∧
    (did (.selfTestDone []) { rom with boot := { rom.boot with step := .testing } } (fun t => t.arr.bytes == [] &&
        t.boot.step == .running)) := by decide +kernel

theorem test_ServedAccessesComplete :
    (serves run 0x00018 && serves run 0x10060 && serves run 0x06010) ∧
    (pageAssigned 0 = true ∧ pageAssigned 0x10 = true ∧
        ({ run with pmu := { run.pmu with userEn := true } } : State).userServed 0x06010 false = true) ∧
    (did (.regWrite 0x00018 0xDEADBEEF true 15) run (fun t => t.apb == ⟨0, false, none⟩)) ∧
    (did (.regRead 0x05004 true) run (fun t => t.apb.rdata == 0xFEDCBA98 && !t.apb.slverr)) := by decide +kernel

theorem test_AccessErrorsAnswerSlverr :
    (run.boot.step ≠ .held ∧ run.boot.step ≠ .eclkStart ∧ run.apb.held = none) ∧
    (did (.regWrite 0x00019 1 true 15) run (fun t => t.apb.slverr)) ∧
    (did (.regWrite 0x00018 1 true 7) run (fun t => t.apb.slverr)) ∧
    (did (.regWrite 0x00018 1 false 15) run (fun t => t.apb.slverr && t.evt.queue == [])) ∧
    (pageAssigned 0x3F = false ∧ did (.regWrite 0x3F000 1 true 15) run (fun t => t.apb.slverr)) ∧
    (did (.regRead 0x00002 true) run (fun t => t.apb.slverr && t.apb.rdata == 0)) ∧
    (did (.regRead 0x3F000 true) run (fun t => t.apb.slverr)) ∧
    (run.userServed 0x00018 false = false ∧ did (.regRead 0x00018 false) run (fun t => t.apb.slverr)) ∧
    (rom.pageGated 0x10 = true ∧ did (.regWrite 0x10060 1 true 15) rom (fun t => t.apb.slverr && t.evt.queue.length == 1)) ∧
    (did (.regRead 0x10060 true) rom (fun t => t.apb.slverr && t.evt.queue.length == 1)) := by decide +kernel

theorem test_ApbResetResetsInterface :
    (did .apbReset { run with apb := ⟨5, true, none⟩ } (fun t => t.apb == ⟨0, false, none⟩)) := by decide +kernel

theorem test_ResetRegistersReadTableValues :
    ((State.reset.readValue 0x06108 true).1 = 0x1FFE7) := by decide +kernel

theorem test_PlainRegistersReadBack :
    (((run.writeReg 0x22400 0xFFFFFFFF).readValue 0x22400 true).1 = 0x803FFFFF) ∧
    (((run.writeReg 0x00050 0x12345678).readValue 0x00050 true).1 = 0x12345600) ∧
    (((run.writeReg 0x1F020 0x12345678).readValue 0x1F020 true).1 = 0x5678) := by decide +kernel

theorem test_CounterReadsLatchUpperBits :
    (serves run 0x06010 && serves run 0x06100 && serves run 0x061E0) ∧
    (did (.pmuCycLoRead true) { run with pmu := { run.pmu with cyc := 0xABC00000001 } } (fun t => t.apb.rdata == 1 &&
        t.pmu.latchPriv == 0xABC)) ∧
    (did (.pmuCycLoRead false) { run with pmu := { run.pmu with cyc := 0xABC00000001, userEn := true } } (fun t =>
        t.pmu.latchUser == 0xABC && t.pmu.latchPriv == 0)) ∧
    ((run.pmc 7).unseen = false ∧ did (.pmcLoRead 7 true) run (fun t => t.apb.rdata == 0 &&
        !t.apb.slverr)) := by decide +kernel

theorem test_ClearingReadsClearTheirFields :
    (serves run 0x04004 && serves run 0x22004 && serves run 0x0707C && serves run 0x10040 && serves run 0x1F068) ∧
    (did .evtStatRead { run with evt := { run.evt with dropped := 9, queue := [1] } } (fun t =>
        t.apb.rdata == 0x90001 && t.evt.dropped == 0)) ∧
    (did .tlyUnroutedRead { run with tly := { run.tly with unrouted := 3 } } (fun t => t.apb.rdata == 3 &&
        t.tly.unrouted == 0)) ∧
    (did (.fltTransRead 15) { run with flt := { run.flt with trans := [(15, 7)] } } (fun t => t.apb.rdata == 7 &&
        tget 0 t.flt.trans 15 == 0)) ∧
    (did (.shfUcfStatRead 15) (run.modShelf 15 fun _ =>
        { Shelf.reset with prio := 3, txnHwm := 5, cqHwm := 2 }) (fun t => t.apb.rdata == 0x40503 &&
        (t.shelf 15).txnHwm == 0)) ∧
    (did (.shfAuditCntRead 0) (run.modShelf 0 fun _ => { Shelf.reset with auditCnt := 4 }) (fun t => t.apb.rdata == 4 &&
        (t.shelf 0).auditCnt == 0)) ∧
    (did (.shfGwStatRead 0) (run.modShelf 0 fun _ => { Shelf.reset with fireCnt := 4, crackCnt := 1 }) (fun t =>
        t.apb.rdata == 0x10004)) ∧
    (did (.shfAuuRejRead 0) (run.modShelf 0 fun _ => { Shelf.reset with auuRej := 4, auuCause := 2 }) (fun t =>
        t.apb.rdata == 0x20004 && (t.shelf 0).auuCause == 2)) := by decide +kernel

theorem test_LoadAndResyncWritesStart :
    (serves run 0x02000 && serves rom 0x02000 && serves run 0x08000) ∧
    (did .baseLoad { run with syb := { run.syb with state := .config } } (fun t => t.syb.state == .loading &&
        t.syb.loadDefault)) ∧
    (did .baseLoad rom (fun t => t.syb.state == .config && t.evt.queue.length == 1)) ∧
    (did .baseLoad run (fun t => t.syb.state == .active && t.evt.queue.length == 1)) ∧
    (twin.pair.link ≠ 1 ∧ did .parFullResync twin (fun t => t.pair.full)) ∧
    (0 < twin.cfg.granules ∧ serves { twin with pair := { twin.pair with link := 1 } } 0x08000) := by decide +kernel

theorem test_ClockWritesTakeEffect :
    (serves run 0x01010 && serves run 0x01014 && serves run 0x01020 && serves run 0x01024 && serves run 0x0105C) ∧
    (hlfClkAddr .a = 0x01020 ∧ hlfClkAddr .b = 0x01024) ∧
    (did (.ckpClkenWrite false 0xFFF0) run (fun t => t.ckp.clken0 == 0xFFF0)) ∧
    (did (.ckpClkenWrite false 0) { run with ckp := { run.ckp with lock0 := 1 } } (fun t => t.ckp.clken0 == 1 &&
        t.evt.queue.length == 1)) ∧
    (did (.ckpClkenWrite true 0xFFFFFFFF) run (fun t => t.ckp.clken1 == 0x3FFF7F && t.evt.queue == [])) ∧
    (did (.muxSelect .b true) run (fun t => t.ckp.b.sel && t.ckp.b.switching && !t.ckp.a.sel)) ∧
    (did (.muxSelect .a true) (run.modHalf .a fun c => { c with switching := true }) (fun t => !t.ckp.a.sel &&
        t.evt.queue.length == 1)) ∧
    (did .driftClear { run with ckp := { run.ckp with drift := true, calMiss := 9 } } (fun t => !t.ckp.drift &&
        t.ckp.calMiss == 0)) := by decide +kernel

theorem test_SeedAndPeerWindowWrites :
    (serves run 0x1F060 && serves run 0x0010C && serves run 0x0017C) ∧
    (did (.shfAuuSeed 15 0x9E3779B9) run (fun t => (t.shelf 15).lanes.headD 0 == 1 &&
        (t.shelf 15).lanes.length == 64)) := by decide +kernel

def peer (base : BitVec 52) : State :=
    { run with kiln := { run.kiln with peers := [(7, { Peer.none with base := base, size := 2 ^ 20 })] } }

theorem test_PeerWindows :
    (did (.glbKpeerValid 7) (peer (2 ^ 50)) (fun t => (tget Peer.none t.kiln.peers 7).valid &&
        !(tget Peer.none t.kiln.peers 7).err)) ∧
    (did (.glbKpeerValid 7) (peer (2 ^ 40)) (fun t => !(tget Peer.none t.kiln.peers 7).valid &&
        (tget Peer.none t.kiln.peers 7).err)) ∧
    (did (.glbKpeerValid 7) (peer 0) (fun t => !(tget Peer.none t.kiln.peers 7).valid &&
        (tget Peer.none t.kiln.peers 7).err)) := by decide +kernel

theorem test_CountersAndWindows :
    (serves run 0x061E0 && serves run 0x06030 && serves run 0x04008) ∧
    (did (.pmcLoWrite 7 5 true) { run with pmu := { run.pmu with latchPriv := 0x1FFFF } } (fun t =>
        (t.pmc 7).count == 0xFFFF00000005)) ∧
    (did (.pmcLoWrite 7 5 true) (run.modPmc 7 fun c => { c with evt := 0x100 }) (fun t => (t.pmc 7).count == 0)) ∧
    (did (.pmcLoWrite 7 5 false) run (fun t => t.apb.slverr && (t.pmc 7).count == 0)) ∧
    (did (.pmuWinCfgWrite 0xFFF00500) { run with pmu := { run.pmu with portIn := [(3, 9)] } } (fun t =>
        t.pmu.winUs == 0x00500 && t.pmu.portIn == [])) ∧
    (did .evtPop run (fun t => t.evt.head == 0)) ∧
    (did .evtPop { run with evt := { run.evt with queue := [5, 6] } } (fun t => t.evt.head == 0x80000005 &&
        t.evt.queue == [6])) := by decide +kernel

def idle7 (irq : Bool) : State := run.modPmc 7 fun c => { c with evt := 0x112 + if irq then 0x200 else 0, count := 9 }

theorem test_CounterWrap :
    (((idle7 false).pmc 7).unseen = true ∧ did (.pmcWrap 7) (idle7 false) (fun t => (t.pmc 7).count == 0 &&
        t.pmu.ovf == 0x80 && t.pmu.sampInfo == 0)) ∧
    ((idle7 true).pmu.sampInfo.getLsbD 31 = false ∧ (idle7 true).pmu.skid = none ∧ ((idle7 true).pmc 7).ovfIrq = true) ∧
    (did (.pmcWrap 7) { idle7 true with pmu := { (idle7 true).pmu with sampInfo := 0x80000000 } } (fun t =>
        t.pmu.sampInfo == 0xC0000000)) ∧
    (did .pmuWindowEnd { run with pmu := { run.pmu with portIn := [(45, 515)], runFclk := 7 } } (fun t =>
  tget 0 t.pmu.outIn 45 == 2 && tget 0 t.pmu.portIn 45 == 3 && t.pmu.winFclk == 7 &&
      t.pmu.winSeq == 1)) := by decide +kernel

theorem test_LineOpWritesStartOperation :
    (serves run 0x00058 && run.active && !rom.active) ∧
    (did .lineopInval rom (fun t => t.ranges.lineop == none)) ∧
    (did .lineopClean { run with ranges := { run.ranges with lineop := some ⟨.inval, 9, 0, false⟩ } } (fun t =>
        t.evt.queue.length == 1)) ∧
    (run.ranges.lineop = none ∧ run.quenching = false ∧ run.regionOf (lineIx run.ranges.addr.toNat) = none) ∧
    (did .lineopCleanInval run (fun t => t.ranges.lineop == some ⟨.cleanInval, 0, 0, true⟩)) ∧
    (did .lineopClean { run with ranges := { run.ranges with addr := 2 ^ 40 } } (fun t =>
        t.ranges.lineop.isSome)) := by decide +kernel

theorem test_CacheEnableWritesActOnOneBank :
    (serves run 0x10000 && serves run 0x1F008 && run.active) ∧
    (run.cfg.mode 255 = modeCache ∧ run.cfg.mode 16 ≠ modeCache) ∧
    (did (.cacheEnClear 255) (run.modShelf 15 fun g => { g with bankEn := 0x8000 }) (fun t =>
        (t.shelf 15).cleaning == 0x8000 && t.ranges.waiting.length == 1)) ∧
    (did (.cacheEnClear 0)
        { run.modShelf 0 (fun g => { g with bankEn := 1 }) with arr := { run.arr with tags := [(0, { Tag.empty with state := .live, pin := true })] } } (fun t =>
  t.evt.queue.length == 1 && (t.shelf 0).cleaning == 0)) ∧
    (did (.cacheEnSet 255) (run.modShelf 15 fun g => { g with invDone := 0x8000 }) (fun t =>
        (t.shelf 15).bankEn == 0x8000)) ∧
    (did (.cacheEnSet 255) run (fun t => (t.shelf 15).bankEn == 0 && t.evt.queue.length == 1)) ∧
    (did (.tagInv 255) run (fun t => (t.shelf 15).tagInv == 0x8000)) ∧
    (did (.cacheEnClear 16) (run.modShelf 1 fun g => { g with bankEn := 1 }) (fun t => (t.shelf 1).cleaning == 0)) ∧
    (did (.tagInv 16) run (fun t => (t.shelf 1).tagInv == 0)) := by decide +kernel

def ask (cfg : BitVec 21) : State := { run with agents := { run.agents with id := 5, cfg := cfg } }

theorem test_AgentOperationsReportResults :
    (serves run 0x00088) ∧
    (did .agentRead { ask 1 with agents := { (ask 1).agents with busy := true } } (fun t => t.evt.queue.length == 1 &&
        t.agents.result == 0)) ∧
    (did .agentJoin { ask 1 with syb := { run.syb with state := .config } } (fun t => t.agents.result == 2)) ∧
    (did .agentJoin (joined (ask 1)) (fun t => t.agents.result == 1)) ∧
    (did .agentJoin (ask 0) (fun t => t.agents.result == 3)) ∧
    (did .agentJoin (ask 0x102001) (fun t => t.agents.result == 3)) ∧
    (did .agentJoin (ask 0x1001) (fun t => (t.agent 5).st == .joining && t.agents.busy && t.agents.op == 1)) ∧
    (did .agentLeave (ask 1) (fun t => t.agents.result == 4)) ∧
    (did .agentLeave (joined (ask 1)) (fun t => (t.agent 5).st == .leaving && t.agents.busy && t.agents.op == 2)) ∧
    (did .agentRead (ask 1) (fun t => t.agents.result == 4)) ∧
    (did .agentRead (joined (ask 1)) (fun t => t.agents.result == 0 && t.agents.cfg == 0x2001)) := by decide +kernel

theorem test_QuenchControlWrites :
    (serves run 0x070B0) ∧
    (run.ep.step = 0 ∧ did .fltQuenchForce run (fun t => t.ep.step == 1 && t.ep.cause == 8 && t.out.quenchReq)) ∧
    (did .fltQuenchForce { run with ep := { run.ep with step := 5 } } (fun t => t.ep.step == 5 && t.ep.later == [])) ∧
    (did .fltQuenchForce { run with ep := { run.ep with step := 6 } } (fun t => t.ep.later == [8])) ∧
    (did .fltQuenchForce { run with fw := { run.fw with pauses := true } } (fun t => t.ep.later == [8])) ∧
    (did .fltQuenchAccept { run with ep := { run.ep with incomplete := true } } (fun t =>
        !t.ep.incomplete)) := by decide +kernel

def ringed (g : Ring) : State := { run with rings := [(15, g)] }

def placedRing : Ring := { Ring.reset with sqBase := 2 ^ 40, ctl := 2 ^ 40 + 4096, cqBase := 2 ^ 40 + 8192, cqLog := 6 }

theorem test_RingWritesControlRing :
    (serves run 0x033E0 && serves run 0x033D8 && serves run 0x033DC) ∧
    (did (.rngKick 15) (ringed { Ring.reset with en := true, reading := true }) (fun t => t.home.cq == [])) ∧
    ((ringed Ring.reset).cqUsed 15 = false ∧ did (.rngKick 15) (ringed Ring.reset) (fun t => !(t.ring 15).reading)) ∧
    (did (.rngKick 15) (ringed { Ring.reset with en := true, ctl := 2 ^ 40 }) (fun t => (t.ring 15).reading &&
        t.home.cq.length == 1)) ∧
    (did (.rngKick 15) (ringed { Ring.reset with en := true, ctl := 2 ^ 40, enabling := true }) (fun t =>
        !(t.ring 15).reading && t.home.cq == [])) ∧
    (did (.ringEnable 15 0x100066) (ringed { Ring.reset with en := true }) (fun t => (t.ring 15).sqLog == 6)) ∧
    (did (.ringEnable 15 0x80100063) run (fun t => (t.ring 15).cfgErr && !(t.ring 15).en && t.evt.queue.length == 1)) ∧
    (did (.ringEnable 15 0x8010006D) run (fun t => (t.ring 15).cfgErr && !(t.ring 15).en)) ∧
    (did (.ringEnable 15 0x80100F66) (ringed placedRing) (fun t => (t.ring 15).enabling &&
        (t.ring 15).checksLeft == 2 && t.home.cq.length == 2)) ∧
    ((ringed placedRing).areaOk (2 ^ 40) 4096 = true ∧ (ringed placedRing).areaOk (2 ^ 40 + 8192) 1024 = true ∧
        (ringed placedRing).areaOk (2 ^ 40 + 4096) 128 = true ∧ (ringed placedRing).cqUsed 15 = false) ∧
    (did (.ringEnable 15 0x80100F66)
        { run with rings := [(14, { Ring.reset with en := true, cq := 15 }), (15, placedRing)] } (fun t =>
        (t.ring 15).enabling && (t.ring 15).checksLeft == 1 && t.home.cq.length == 1)) ∧
    (did (.ringEnable 15 0x80100066)
        { run with rings := [(0, { placedRing with ctl := 2 ^ 40 + 128 }), (15, placedRing)] } (fun t =>
        (t.ring 15).enabling && (t.ring 15).checksLeft == 2 && t.home.cq.length == 2)) ∧
    (did (.ringDisable 15 0x100066) (ringed { Ring.reset with en := true, reading := true }) (fun t =>
        !(t.ring 15).en && (t.ring 15).reading)) ∧
    (did (.ringDisable 15 0x1F7C) run (fun t => (t.ring 15).sqLog == 12 && (t.ring 15).cq == 15 && (t.ring 15).priv == 1)) ∧
    (did (.cqErrClear 15) run (fun t => t.rings == [] || !(t.ring 15).cqErr)) ∧
    (did (.cqErrClear 15) (ringed { Ring.reset with cqErr := true }) (fun t => !(t.ring 15).cqErr)) ∧
    (did (.cqErrClear 15) (ringed { Ring.reset with cqErr := true, cqBase := 16 * 2 ^ 22, held := [⟨1, 2, true, 0⟩] })
        (fun t => !(t.ring 15).cqErr)) := by decide +kernel

def portless (s : State) : State := { s with flt := { s.flt with portsDown := [.agentPort 0] } }

def free5 (s : State) (op : ReqOp) (line : LineIx) : Bool :=
  let r := mkReq op (.agent 5 (.agent 0)) line 0
  !s.mustWait r && !s.lostEpoch r && !s.breaks157 r && !s.quenching && (s.agent 5).st == .yes &&
      decide (s.roleAt (lineAddr line) = .single)

def inCache (s : State) (line : LineIx) (op : ReqOp) : Bool :=
  match s.place (lineAddr line) with
  | .cache i g => accessOk op spCache (Region.access g) && decide (s.role i g = .single)
  | _ => false

def full (s : State) : State := { s with home := { s.home with vc := [mkReq .rdS (.agent 9 (.agent 0)) lC 0] } }

theorem test_RequestsJoinTheirQueue :
    ([mRdS, mRdX, mUpg, mRdV, mRdNC, mWrL, mWrP, mAtom].all (fun c => toHomeOk (hdr c lC 0) c &&
        free5 (joined run) (opOfCode c) lC && inCache (joined run) lC (opOfCode c))) ∧
    (Hdr.line (hdr 0 lC 0) = BitVec.ofNat 45 lC ∧ Hdr.src (hdr 0 lC 0) = 5 ∧ Hdr.txn (hdr 0 lC 0) = 3) ∧
    (did (.rds (.agent 0) (hdr mRdS lC 0) false) (joined run) (fun t => t.home.cq.length == 1)) ∧
    (did (.rdx (.agent 0) (hdr mRdX lC 0) true) (joined run) (fun t => t.home.cq.length == 1)) ∧
    (did (.wrl (.agent 31) (hdr mWrL lC 0) 7 false) (joined run) (fun t => t.home.cq.map Req.data == [7] &&
        (t.agent 5).port == some (.agent 31))) ∧
    (did (.wrp (.agent 0) (hdr mWrP lC 0) 1 7 false) (joined run) (fun t => t.home.cq.map Req.mask == [1])) ∧
    (did (.rds (.agent 0) (hdr mRdS lC 0) false) (full (joined run)) (fun t => t.home.cq == [] && t.home.vc.length == 2)) ∧
    ((joined run).portDown (.agent 0) = false ∧ (full (joined run)).storeRoom ((joined run).homeShelf lC) 0 = true) ∧
    (did (.upg (.near 3) (hdr mUpg lC 0) false) (joined run) (fun t => t.home.cq.map Req.op == [.upg])) ∧
    (did (.atom (.far 1) (hdr mAtom lC 0) 8 7 false) (joined run) (fun t =>
        t.home.cq.map Req.plen == [8])) := by decide +kernel

theorem test_UnservedRequestsGetPoison :
    (toHomeOk (hdr mRdS lC 0) mRdX = false ∧ run.quenching = false ∧ run.halting = false ∧ run.fw.pauses = false) ∧
    (did (.rdx (.agent 0) (hdr mRdS lC 0) false) (joined run) (fun t => t.flt.peHdr == hdr mRdS lC 0 &&
        t.ep.step == 1 && t.ep.cause == 2)) ∧
    (did (.rds (.agent 0) (hdr mRdS lC 0) false) { joined run with ep := { run.ep with step := 3 } } (fun t =>
        sent t mPoison && t.evt.queue == [])) ∧
    ((run.agent 5).st = .no ∧ did (.upg (.agent 0) (hdr mUpg lC 0) false) run (fun t => sent t mPoison &&
        t.evt.queue.length == 1)) ∧
    (did (.wrl (.agent 0) (hdr mWrL lC 0) 0 false) (run.setAgent 5 ⟨.leaving, 0x2001, none⟩) (fun t => sent t mPoison &&
        t.evt.queue == [])) ∧
    (run.place (lineAddr 7) = .nowhere ∧ did (.rds (.agent 0) (hdr mRdS 7 0) false) (joined run) (fun t =>
        sent t mPoison && t.evt.queue.length == 1)) ∧
    (did (.atom (.agent 0) (hdr mAtom lT 0) 0 0 false) (joined run) (fun t => sent t mPoison && t.evt.queue.length == 1)) ∧
    (did (.rds (.agent 0) (hdr mRdS lC 0) false) (portless (joined run)) (fun t => t.home.cq == [] && t.out.msgs == [])) ∧
    (did (.puts (.agent 0) (hdr mPutM lC 0)) (joined run) (fun t => t.ep.step == 1 && t.ep.cause == 2)) ∧
    (did (.puts (.agent 0) (hdr mPutM lC 0)) (portless (joined run)) (fun t => t.ep.step == 0)) ∧
    (did (.putm (.agent 0) (hdr mPutM lC 0) 0) { joined run with ep := { run.ep with step := 1 } } (fun t =>
        sent t mWbAckStale)) := by decide +kernel

theorem test_UncachedAccessesAnswerAtOnce :
    ([(mRdS, lT), (mRdV, lS), (mRdX, lK), (mRdNC, lK), (mWrL, lS)].all (fun c => toHomeOk (hdr c.1 c.2 0) c.1 &&
        free5 (joined run) (opOfCode c.1) c.2)) ∧
    (true == (match run.place (lineAddr lT) with | .tally n => n == 0 | _ => false)) ∧
    (true == (match run.place (lineAddr lS) with | .saggar i g => i == 1 && accessOk .wrL spSaggar (Region.access g) && decide (run.role i g = .single) | _ => false)) ∧
    (true == (match run.place (lineAddr lK) with | .kiln i g => i == 2 && accessOk .rdS spKiln (Region.access g) | _ => false)) ∧
    (run.window = 0 ∧ (run.shelf 1).retired.getLsbD 0 = false ∧ ((joined run).agent 5).remote = false) ∧
    (did (.rds (.agent 0) (hdr mRdS lT 0) false) (joined run) (fun t => sent t mDataS)) ∧
    (did (.rdnc (.agent 0) (hdr mRdNC lK 0) false) (joined run) (fun t => sent t mDataS)) ∧
    (did (.rdv (.agent 0) (hdr mRdV lS 0) false) (joined run) (fun t => sent t mDataS)) ∧
    (did (.rdv (.agent 0) (hdr mRdV lS 0) false) ((joined run).setPoison lS true) (fun t => sent t mPoison)) ∧
    (did (.wrp (.agent 0) (hdr mWrP lS 0) 1 0xCDAB false) (joined run) (fun t => sent t mAck &&
        t.arr.bytes == [(16 * 2 ^ 22, 0xAB)])) ∧
    (did (.wrp (.agent 0) (hdr mWrP lS 0) fullMask 0xAB false) ((joined run).setPoison lS true) (fun t => sent t mAck &&
        !t.poisoned lS)) ∧
    (((joined run).shelf 1).group = some 0 ∧ atomCause (Hdr.aop (hdr mAtom lS 0)) 16 3 = none) ∧
    (did (.atom (.agent 0) (hdr mAtom lS 0) 16 3 false) (joined run) (fun t => sent t mAck &&
        t.arr.bytes == [(16 * 2 ^ 22, 3)])) ∧
    (did (.wrl (.agent 0) (hdr mWrL lS 0) 0xAB false) ((joined run).setPoison lS true) (fun t => sent t mAck &&
        t.arr.bytes == [(16 * 2 ^ 22, 0xAB)] && !t.poisoned lS)) := by decide +kernel

theorem test_PutsLeaveTheDirectory :
    ((run.place (lineAddr lC) matches .cache _ _) ∧ run.txnOf lC = none) ∧
    ((holds run lC (shared [5, 6])).putCase ((holds run lC (shared [5, 6])).entryOf lC) mPutS 5 = .fits) ∧
    (did (.puts (.agent 0) (hdr mPutS lC 0)) (holds (joined run) lC (shared [5, 6])) (fun t => sent t mWbAck &&
        (t.entryOf lC).sharers == [6])) ∧
    (did (.puts (.agent 0) (hdr mPutS lC 0)) (holds (joined run) lC (shared [5])) (fun t => sent t mWbAck &&
        t.dir.ways == [])) ∧
    (did (.pute (.agent 0) (hdr mPutE lC 0)) (holds (joined run) lC (owned .dx 5)) (fun t => sent t mWbAck &&
        t.dir.ways == [] && t.arr.bytes == [])) ∧
    (did (.putm (.agent 0) (hdr mPutM lC 0) 0xAB) (cached (holds (joined run) lC (owned .dx 5)) lC) (fun t =>
        sent t mWbAck && t.dir.ways == [] && t.arr.bytes.length == 1)) ∧
    (did (.puto (.agent 0) (hdr mPutO lC 0) 0xAB) (cached (holds (joined run) lC { owned .dO 5 with sharers := [6] })
        lC) (fun t => sent t mWbAck && (t.entryOf lC).sharers == [6])) ∧
    (run.putCase DirEntry.empty mPutE 5 = .stale ∧ did (.pute (.agent 0) (hdr mPutE lC 0)) (joined run) (fun t =>
        sent t mWbAckStale)) ∧
    (did (.puts (.agent 0) (hdr mPutS lC 0)) (holds (joined run) lC (owned .dx 5)) (fun t => t.ep.step == 1) &&
        decide ((holds run lC (owned .dx 5)).putCase ((holds run lC (owned .dx 5)).entryOf lC) mPutS 5 = .error)) ∧
    (did (.puts (.agent 0) (hdr mPutS lC 0)) (withTxn (joined run) (open5 .rdS lC)) (fun t => t.ep.step == 1)) ∧
    (({ open5 .rdX lC with invTo := [6] } : Txn).took 6 = true ∧
        ({ open5 .rdX lC with invTo := [6] } : Txn).req.agentId ≠ some 6) ∧
    (did (.puts (.agent 0) (hdr mPutS lC 0)) (withTxn (joined run)
        { open5 .rdX lC with req := mkReq .rdX (.agent 6 (.agent 0)) lC 0, invTo := [5] }) (fun t => sent t mWbAckStale)) ∧
    (did (.putm (.agent 0) (hdr mPutM lC 0) 0) (withTxn (joined run)
        { open5 .rdS lC with req := mkReq .rdS (.agent 6 (.agent 0)) lC 0, fwd := some 5, tstate := fF }) (fun t =>
        (t.txnOf lC).any (fun x => x.deferred.isSome))) := by decide +kernel

def two (op : ReqOp) : Txn := { open5 op lC with req := { mkReq op (.agent 6 (.agent 1)) lC 0 with txn := 3 } }

theorem test_AnswersClearTheirFlags :
    (run.halting = false ∧ [mFwdAck, mInvAck, mDataM, mDataS, mCmp].all (fun c => rspOk (hdr c lC 0) c)) ∧
    (did (.fwdack (hdr mFwdAck lC 0)) (withTxn (joined run)
        { two .rdX with tstate := fF + fC, fwd := some 5, sent := true }) (fun t => (t.txnOf lC).any (fun x =>
        x.tstate == fC))) ∧
    (did (.invack (hdr mInvAck lC 0)) (withTxn (joined run)
        { two .rdX with tstate := fI + fC, invLeft := 2, invTo := [5, 7], sent := true }) (fun t =>
  (t.txnOf lC).any (fun x => x.invLeft == 1 && x.invTo == [5, 7] && x.invDone == [5] && x.has fI))) ∧
    (did (.invack (hdr mInvAck lC 0)) (withTxn (joined run)
        { two .rdX with tstate := fI + fC, invLeft := 1, invTo := [5], sent := true }) (fun t =>
        (t.txnOf lC).any (fun x => x.tstate == fC))) ∧
    (did (.invack (hdr mInvAck lC 0)) (withTxn (joined run)
        { two .rdX with tstate := fR + fC, recallTo := some 5, sent := true }) (fun t => (t.txnOf lC).any (fun x =>
        x.tstate == fC))) ∧
    (did (.datam (hdr mDataM lC 0) 7) (withTxn (cached (joined run) lC)
        { two .wrP with tstate := fR + fC, recallTo := some 5, sent := true }) (fun t => (t.txnOf lC).any (fun x =>
        x.fetched == some 7) && t.arr.bytes.length == 1)) ∧
    (did (.datam (hdr mDataM lC 0) 7) (withTxn (joined run)
        { two .wrP with tstate := fR, recallTo := some 5, work := .perform }) (fun t => t.ep.step == 0)) ∧
    (did (.datas (hdr mDataS lC (2 ^ 110)) 9) (withTxn (joined run)
        { Txn.open (mkReq .rdNC .resync lC 0) with tstate := fB + fC, fwd := some 5, sent := true }) (fun t =>
        (t.txnOf lC).any (fun x => x.fetched == some 9 && x.tstate == fC))) ∧
    (did (.cmp (hdr mCmp lC 0)) (withTxn (joined run) { open5 .rdS lC with tstate := fC, sent := true }) (fun t =>
        t.txnOf lC == none)) := by decide +kernel

theorem test_ProtocolErrorsQuench :
    (rspOk (hdr mCmp lC 0) mFwdAck = false ∧ run.txnOf lC = none) ∧
    (did (.fwdack (hdr mFwdAck lC 0)) run (fun t => t.ep.step == 1 && t.ep.cause == 2)) ∧
    (did (.datas (hdr mDataS lC 0) 0) (run) (fun t => t.ep.step == 1 && t.flt.peHdr == hdr mDataS lC 0)) ∧
    (did (.cmp (hdr mCmp lC 0)) { run with ep := { run.ep with step := 2 } } (fun t => t.ep.step == 2)) ∧
    (did (.deadAgentTimeout lC 5) (withTxn (joined run) { two .rdX with tstate := fI, invLeft := 1, invTo := [5] }) (fun
        t => t.ep.step == 1 && t.ep.cause == 1 && t.ep.dead == [5])) ∧
    (headerKeeps (hdr 0x3F lC 0) = false ∧ did (.invalidUcfMessage (.agent 0) (hdr 0x3F lC 0)) run (fun t =>
        t.ep.step == 1)) ∧
    (Hdr.msg (hdr mFwdS lC 0) ∈ neverToHome ∧ did (.invalidUcfMessage (.near 0) (hdr mFwdS lC 0)) run (fun t =>
        t.ep.cause == 2)) := by decide +kernel

def owning : State := withTxn (holds (joined run) lC { shared [] with t := true, tstate := fC })
    { open5 .rdX lC with tstate := fC, sent := true, plan := .owner }

theorem test_CmpMakesRequesterOwner :
    (owning.halting = false ∧ (owning.home.txns.filter (fun y => y.req.line == BitVec.ofNat 45 lC)).length = 1) ∧
    ((owning.wayOf (owning.homeShelf lC) lC).isSome ∧ Hdr.txn (hdr mCmp lC 0) = 3) ∧
    (did (.cmp (hdr mCmp lC 0)) owning (fun t => (t.entryOf lC).hstate == .dx && (t.entryOf lC).owner == 5 &&
        !(t.entryOf lC).t && t.home.txns == [])) := by decide +kernel

def queued (op : ReqOp) : State :=
  let s := cached (run.setAgent 5 ⟨.yes, 0x6001, some (.agent 0)⟩) lC
  { s with home := { s.home with cq := [(open5 op lC).req] }
           syb := { s.syb with cfg := { cfg0 with protocol := 0x100 } } }

def looking (op : ReqOp) (g : Green) : State := withTxn (queued op) { open5 op lC with work := .lookup, green := g }

theorem test_AdmissionAndLookup :
    (run.admissible lC = none ∧ ((queued .rdS).admissible lC).isSome ∧ (run.regionOf lC).map Prod.fst = some 0) ∧
    (true == (match run.regionOf lC with | some (_, g) => ((queued .rdS).openRecord (open5 .rdS lC).req).greenOk (open5 .rdS lC).req g && (((queued .rdS).openRecord (open5 .rdS lC).req).refuses (open5 .rdS lC).req g).isNone | none => false)) ∧
    (did (.admitReq lC true) (queued .rdS) (fun t => sent t mDataS && t.home.cq == [] && (t.txnOf lC).any (fun x =>
        x.green == .sent))) ∧
    (did (.admitReq lC true) (queued .wrL) (fun t => (t.txnOf lC).any (fun x => x.work == .lookup))) ∧
    (did (.admitReq lC false) (queued .rdS) (fun t => sent t mDataE || sent t mDataS)) ∧
    (did (.lookupComplete lC none) (looking .rdS .none) (fun t => t.links.agent.any (fun p => p.2.waiting != []))) ∧
    ((looking .rdS .sent).fires (open5 .rdS lC).req ((looking .rdS .sent).entryOf lC) = some .share) ∧
    (did (.lookupComplete lC none) (looking .rdS .sent) (fun t => sent t mFire)) ∧
    (did (.greenwareDeadline lC) (looking .rdS .sent) (fun t => sent t mCrack)) ∧
    ((holds (looking .rdS .sent) lC (owned .dx 6)).fires (open5 .rdS lC).req ((holds (looking .rdS .sent) lC (owned .dx
        6)).entryOf lC) = none) ∧
    (did (.lookupComplete lC none) (holds (looking .rdS .sent) lC (owned .dx 6)) (fun t => t.links.agent.any (fun p =>
        p.2.waiting != []))) ∧
    (did (.lookupComplete lC (some 3)) (looking .rdS .sent) (fun t => t.ep.step == 1 &&
        t.ep.cause == 4)) := by decide +kernel

def sentRead (w : Why) : State :=
  { run with back := { run.back with reqs := [⟨7, false, 9, 0, 0, 0, w, some 63, true, 0⟩], miss := [⟨0, 9, 0, false, [.txn]⟩] } }

def sentWrite : State :=
    { run with back := { run.back with reqs := [⟨7, true, 9, fullMask, 0, 0, .data .nobody 0, some 63, true, 0⟩] } }

theorem test_BackingAnswersFreeSlots :
    (((sentRead (.miss 0)).back.reqs.find? (fun r => r.bp == 7 && r.slot == some 63 && r.sent &&
        r.write == false)).isSome) ∧
    ((sentWrite.back.reqs.find? (fun r => r.bp == 7 && r.slot == some 63 && r.sent && r.write == true)).isSome) ∧
    (did (.backingReadData 7 63 5 false) (sentRead (.miss 0)) (fun t => t.back.reqs == [] && t.back.miss == [])) ∧
    (did (.backingReadData 7 62 5 false) (sentRead (.miss 0)) (fun t => t.back.reqs.length == 1)) ∧
    (did (.backingWriteAck 7 63) sentWrite (fun t => t.back.reqs == [])) ∧
    (did (.backingWriteAck 7 63) (sentRead (.miss 0)) (fun t => t.back.reqs.length == 1)) := by decide +kernel

def wants (s : State) : State :=
  { s with back := { s.back with reqs := [⟨7, false, 9, 0, 0, 0, .data .nobody 0, none, false, 0⟩, ⟨7, true, 8, 0, 0, 0, .data .nobody 0, none, false, 0⟩] } }

theorem test_BackingSlotsAndOccupancy :
    ((run.half (portHalf 7)).st = .awake ∧ (wants run).back.reqs.any ((wants run).grantable 7)) ∧
    (did (.backingSlotGrant 7 false true) (wants run) (fun t => t.back.reqs.map (fun r => (r.slot, r.sent)) == [(none,
        false), (some 0, true)])) ∧
    (did (.backingSlotGrant 0 true true) (wants run) (fun t => t.back.reqs.all (fun r => r.slot == none))) ∧
    (did (.backingSlotGrant 7 true true) ((wants run).modHalf (portHalf 7) fun c =>
        { c with st := .retained }) (fun t => t.back.reqs.all (fun r => r.slot == none))) ∧
    (did (.backingPortReady 7 false)
        { run with back := { run.back with reqs := [⟨7, false, 9, 0, 0, 0, .data .nobody 0, some 3, false, 0⟩] } } (fun
        t => t.back.reqs.all BReq.sent)) ∧
    (did (.backingOccReport 7 9) { run with cone := { run.cone with stale := 0xFF } } (fun t => t.occOf 7 == 9 &&
        t.occOf 6 == 15)) ∧
    (did (.backingFbLost 7) run (fun t => t.occOf 7 == 15 && t.occOf 0 == 0 &&
        t.evt.queue.length == 1)) := by decide +kernel

def anyMsg : Msg := msgTo (some (.agent 31)) 5 lC 3 0 mPoison

def linked (l : Link) : State := { run with links := { run.links with agent := [(31, l)] } }

theorem test_LinksKeepTheirMessages :
    (LinkId.port (.agent 31) = .agent 31 ∧ classOf mPoison < 4) ∧
    (did (.creditReturn (.agent 31) (BitVec.ofNat 2 (classOf mPoison))) run (fun t =>
        (t.link (.agent 31)).credit (classOf mPoison) == 1)) ∧
    (did (.creditReturn (.agent 31) (BitVec.ofNat 2 (classOf mPoison))) (linked { Link.reset with waiting := [anyMsg] })
        (fun t => t.out.msgs == [anyMsg] && (t.link (.agent 31)).waiting == [])) ∧
    (did (.linkReplayRequest (.link (.agent 31)) 4) (linked { Link.reset with window := [(3, anyMsg), (4, anyMsg)] })
        (fun t => t.out.msgs == [anyMsg] && (t.link (.agent 31)).replays == 1)) ∧
    (did (.linkReplayRequest (.backing 7) 4) run (fun t => (t.backLink 7).replays == 1)) ∧
    (did (.linkBeatError (.backing 7)) run (fun t => (t.backLink 7).discarding && (t.backLink 7).nak == some 0)) ∧
    (did (.linkBeatError (.link (.near 3))) run (fun t => (t.link (.near 3)).nak == some 0 &&
        (t.link (.near 3)).discarding)) ∧
    (did (.linkBeatError (.link (.agent 31))) (linked { Link.reset with discarding := true }) (fun t =>
        !t.flt.log.isEmpty)) := by decide +kernel

def farred (l : FarLink) : State := { run with links := { run.links with far := [(1, l)] } }

theorem test_FarPortsReplayAndTrain :
    (did (.farFlitCrcFail 1 (.gap 9)) run (fun t => (t.far 1).replayFrom == some 9)) ∧
    ((farred { FarLink.reset with replayFrom := some 9, active := [15] }).far 1 =
        { FarLink.reset with replayFrom := some 9, active := [15] }) ∧
    (did (.farFlitCrcFail 1 (.asked 9)) (farred
        { FarLink.reset with buffer := [(8, .mack 0), (9, .mack 1), (10, .mack 2)], unsent := 10 }) (fun t =>
        t.out.mirror == [(1, .mack 1)])) ∧
    (did (.farFlitAck 1 9) (farred { FarLink.reset with buffer := [(9, .mack 0), (10, .mack 1)] }) (fun t =>
        (t.far 1).buffer.length == 1)) ∧
    (did (.farLaneUp 1 0x3) (farred { FarLink.reset with train := 0x3FFFF }) (fun t => (t.far 1).lanes == 3)) ∧
    (did (.farTrainDone 1 0x3FFFF) (farred { FarLink.reset with train := 0x3FFFF, lanes := 0x3FFFE }) (fun t =>
        (t.far 1).active == (List.range 16).map (· + 1) && (t.far 1).up)) ∧
    (did (.farTrainDone 1 0x0FF) (farred { FarLink.reset with train := 0x3FFFF, lanes := 0x3FFFF }) (fun t =>
        (t.far 1).active == List.range 8 && (t.far 1).up)) ∧
    (did (.farTrainDone 1 0x07F) (farred { FarLink.reset with train := 0x3FFFF, lanes := 0x3FFFF }) (fun t =>
        (t.far 1).active == [] && !(t.far 1).up && (t.far 1).retry)) ∧
    (did (.farTrainRetry 1) (farred { FarLink.reset with retry := true, lanes := 5 }) (fun t =>
        (t.far 1).train == 0x3FFFF && (t.far 1).lanes == 0)) := by decide +kernel

/-- A flit whose CRC does not fit. -/

theorem test_FarPortsFlitCrc (h : BitVec 96) (p : BitVec 8192) : flitCrc h p ≠ flitCrc h p + 1 := by
  generalize flitCrc h p = x
  bv_omega

/-- CRC-32 of "123456789" (R328). -/

theorem test_crc32 : crc32 [0x31, 0x32, 0x33, 0x34, 0x35, 0x36, 0x37, 0x38, 0x39] = 0xCBF43926 := by decide +kernel

def bell (g : Ring) : State := { run with rings := [(15, g)] }

def usedRing : Ring :=
    { Ring.reset with en := true, active := true, cq := 15, cqTail := 2, tail := 0xFFFFFFFF, sqHead := 0xFFFFFFFF }

theorem test_DoorbellsMoveTails :
    ((bell usedRing).cqUsed 15 = true ∧ (bell { usedRing with cq := 14 }).cqUsed 15 = false) ∧
    (did (.doorbell 15) (bell { usedRing with read := some (some 63, 2) }) (fun t => (t.ring 15).tail == 63 &&
        (t.ring 15).cqHead == 2 && !(t.ring 15).cqErr)) ∧
    (did (.doorbell 15) (bell { usedRing with read := some (some 63, 3) }) (fun t => (t.ring 15).tail == 63 &&
        (t.ring 15).cqErr)) ∧
    (did (.doorbell 15) (bell { usedRing with read := some (some 63, 3), cq := 14 }) (fun t => (t.ring 15).tail == 63 &&
        !(t.ring 15).cqErr)) ∧
    (did (.doorbell 15) (bell { usedRing with read := some (some 64, 3), cq := 14 }) (fun t => (t.ring 15).overrun &&
        !(t.ring 15).active && t.evt.queue.length == 1)) ∧
    (did (.doorbell 15) (bell { usedRing with read := some (some 64, 3) }) (fun t => (t.ring 15).overrun &&
        (t.ring 15).cqErr)) ∧
    (did (.doorbell 15) (bell { usedRing with read := some (some 64, 2) }) (fun t => (t.ring 15).overrun &&
        (t.ring 15).cqHead == 2)) ∧
    (did (.doorbell 15) (bell { usedRing with read := some (some 64, 2), active := false }) (fun t =>
        (t.ring 15).cqHead == 2 && t.evt.queue == [])) ∧
    (did (.doorbell 15) (bell { usedRing with watched := true, reading := true, ctl := 2 ^ 40 }) (fun t =>
        (t.ring 15).reading && t.home.cq.length == 1)) ∧
    (did (.doorbell 15) (bell { usedRing with read := some (some 64, 3), active := false }) (fun t =>
        (t.ring 15).cqErr && t.evt.queue.length == 1)) ∧
    (did (.ringPoll 15) (bell { usedRing with ctl := 2 ^ 40 }) (fun t => (t.ring 15).reading &&
        t.home.cq.length == 1)) := by decide +kernel

def fetching : State :=
    { run with rings := [(15, { Ring.reset with en := true, active := true, sqBase := 2 ^ 40, tail := 1 })] }

def ended : State := holdsCmd run .done (desc [(0, opNop)])

theorem test_CommandsAreFetchedAndRecorded :
    (fetching.turn.any (fun p => p.1 == 15) && fetching.freeCtx == some 0 && fetching.takes) ∧
    (did (.descriptorFetch 15) fetching (fun t => (t.ctx 0).phase == .fetched && (t.ctx 0).need == [2 ^ 40] &&
        t.cmds.next == 1)) ∧
    (did (.descriptorFetch 14) fetching (fun t => t.cmds.ctxs == [])) ∧
    ((ended.ctx 255).phase = .done ∧ ended.quenching = false ∧ dOp (ended.ctx 255).desc ≠ opKilnLoad ∧
        dOp (ended.ctx 255).desc ≠ opKilnFire) ∧
    (did (.commandComplete 255) { ended with rings := [(0, { Ring.reset with cqErr := true })] } (fun t =>
        (t.ctx 255).phase == .recording && (t.ring 0).held.length == 1)) ∧
    (did (.commandComplete 255) ended (fun t => (t.ctx 255).phase == .recording)) ∧
    ((({ ended with rings := [(15, { Ring.reset with held := [⟨0, 0, true, 255⟩] })] } : State).recordDone 15).ctx 255 =
        Ctx.free ∧ (({ ended with rings := [(15, { Ring.reset with held := [⟨0, 0, true, 255⟩] })] } : State).recordDone
        15).cmds.irqStat = 0x8000) := by decide +kernel

def get (op : Nat) (fs : List (Nat × Nat)) (late : Bool) (s : State) (own : State → BitVec 512 → Refuse) : Bool :=
  let st := holdsCmd s .fetched (desc ((0, op) :: fs))
  st.decodable 255 op && st.active && (headCheck op (desc ((0, op) :: fs)) 2).isNone &&
      (late || (tailCheck op (desc ((0, op) :: fs))).isNone) && (own st (desc ((0, op) :: fs))).isNone

theorem test_CommandsPassDecode :
    (get opNop [] false run (fun _ _ => none) && get opFence [] false run (fun _ _ => none) &&
        get opEpochClose [] false run (fun _ _ => none)) ∧
    (get opLease [] false twin (fun s d => s.leaseRefuse 0 d) && get opFwActivate [] false run (fun _ _ => none)) ∧
    (get opCopy [(4, 128), (8, 2 ^ 40), (16, 16 * 2 ^ 22)] false run (fun s d => s.moveCheck d true)) ∧
    (get opFill [(4, 1), (8, 2 ^ 40)] false run (fun s d => s.moveCheck d false)) ∧
    (get opClean [(4, 128), (8, 16 * 2 ^ 22)] false run (fun s d => s.rangeCheck d true false)) ∧
    (get opInval [(4, 2 ^ 20), (8, 2 ^ 40)] false run (fun s d => s.rangeCheck d true false)) ∧
    (get opCleanInval [(4, 128), (8, 2 ^ 40)] false run (fun s d => s.rangeCheck d true false)) ∧
    (get opReclaim [(4, 128), (8, 2 ^ 40)] false run (fun s d => s.rangeCheck d false false)) ∧
    (get opPin [(4, 128), (8, 2 ^ 40)] false run (fun s d => s.rangeCheck d false true)) ∧
    (get opUnpin [(4, 128), (8, 2 ^ 40)] false run (fun s d => s.rangeCheck d false true)) ∧
    (get opTallyWait [(16, 1023), (32, 5)] false run tallyCheck && get opTallySet [(16, 1023)] false run tallyCheck) ∧
    (get opScrub [(16, 255), (18, 1)] false run scrubCheck && get opSpareSwap [(16, 1)] false run swapCheck) ∧
    (get opOverlay [(4, 64), (8, 2 ^ 40)] false run (fun s d => s.overlayCheck d)) ∧
    (get opFwBlock [(4, 64), (8, 2 ^ 40), (16, 64)] false run (fun s d => s.blockCheck d)) ∧
    (get opAtomBatch [(4, 32), (8, 2 ^ 40)] false run (fun s d => s.listCheck d)) ∧
    (get opKilnLoad [(18, 1), (32, 16 * 2 ^ 22), (48, 4096)] true placed (fun s d => s.loadCheck d)) ∧
    (get opKilnFire [(20, 1), (24, 16 * 2 ^ 22), (32, 16 * 2 ^ 22 + 4096), (40, 128), (60, 32)] true placed (fun s d =>
        s.fireCheck d)) ∧
    (did (.nop 255) (holdsCmd run .fetched (desc [])) (fun t => (t.ctx 255).phase != .fetched)) ∧
    (did (.scrub 255) (holdsCmd run .fetched (desc [(0, opScrub), (18, 1), (20, 1)])) (fun t =>
        (t.ctx 255).status == stBadOp && (t.ctx 255).phase == .recording)) ∧
    (tailCheck opTallySet (desc [(0, opTallySet), (18, 1)]) = some (stBadOp, fieldAt 18) ∧ run.leaseRefuse 5 0 ≠ none) ∧
    (did (.clean 255) (holdsCmd run .fetched (desc [(0, opClean), (4, 128), (8, 2 ^ 40)])) (fun t =>
        (t.ctx 255).phase != .fetched)) := by decide +kernel

def unpriv (d : BitVec 512) : State := { holdsCmd run .fetched d with rings := [(0, { Ring.reset with active := true })] }

theorem test_DecodeRefusesInOrder :
    ((holdsCmd rom .fetched (desc [(0, opLease)])).decodable 255 opLease && (unpriv (desc [(0, opPin), (1,
        0xFE)])).decodable 255 opPin) ∧
    (rom.active = false ∧ did (.leaseUpdate 255) (holdsCmd rom .fetched (desc [(0, opLease)])) (fun t =>
        (t.ctx 255).phase == .recording && (t.ctx 255).status == stBadOp)) ∧
    (did (.pin 255) (unpriv (desc [(0, opPin)])) (fun t => (t.ctx 255).phase == .recording &&
        (t.ctx 255).status == stPriv)) ∧
    (did (.copy 255) (unpriv (desc [(0, opCopy), (1, 2)])) (fun t => (t.ctx 255).phase == .recording &&
        (t.ctx 255).detail == fieldAt 1)) ∧
    (bits (dField (desc [(0, opCopy), (1, 2)]) 1 1) 7 1 ≠ 0 ∧ bits (dAddr (desc [(8, 2 ^ 52)])) 63 52 ≠ 0) ∧
    (headCheck opPin (desc [(0, opPin), (2, 8)]) 2 = some (stBadOp, fieldAt 2)) ∧
    (opRanged opFill = true ∧ dLen (desc [(0, opFill)]) = 0 ∧ headCheck opFill (desc [(0, opFill)]) 2 = some (stZeroLen,
        0)) := by decide +kernel

def ready (fs : List (Nat × Nat)) (s : State) : State := holdsCmd s .waiting (desc fs)

theorem test_StartedCommandsAct :
    ((ready [] run).mayStart ((ready [] run).ctx 255) && (ready [(0, opFence)] run).mayStart ((ready [(0,
        opFence)] run).ctx 255)) ∧
    (((ready [] run).ctxStep 255).ctx 255 |>.phase |> (· == .done)) ∧
    (((ready [(0, opTallySet), (16, 1023), (24, 7)] run).ctxStep 255).tally 1023 = 7) ∧
    (((((ready [(0, opTallyWait)] run).ctxStep 255).ctx 255).phase == .acting) && ((((ready [(0, opOverlay), (4, 64),
        (8, 2 ^ 40)] run).ctxStep 255).ctx 255).phase == .acting)) ∧
    (((ready [(0, opClean), (4, 128), (8, 2 ^ 40)] run).ctxStep 255).ranges.waiting.length = 1) ∧
    ((ready [(0, opClean), (4, 128), (8, 2 ^ 40)] run).fencedIn ((ready [(0, opClean), (4, 128), (8,
        2 ^ 40)] run).ctxReads ((ready [(0, opClean), (4, 128), (8, 2 ^ 40)] run).ctx 255)) = none) ∧
    (((ready [(0, opClean), (4, 128), (8,
        2 ^ 41)] { twin with pair := { twin.pair with fenced := 8 } }).ctxStep 255).ctx 255 |>.status |> (· == stFenced)) ∧
    (((ready [(0, opEpochClose)] run).ctxStep 255).ep.cutBy = [255] ∧ ((ready [(0,
        opEpochClose)] run).ctxStep 255).out.epochReq = true) ∧
    (((ready [(0, opEpochClose)] { run with ep := { run.ep with cutStep := 2 } }).ctxStep 255).ep.nextBy = [255]) ∧
    (did (.tallyWaitMet 255) (holdsCmd { run with tly := run.tly } .acting (desc [(0, opTallyWait)])) (fun t =>
        (t.ctx 255).phase == .done && (t.ctx 255).status == stOk)) ∧
    (did (.tallyWaitTimeout 255) (holdsCmd run .acting (desc [(0, opTallyWait), (24, 1), (32, 9)])) (fun t =>
        (t.ctx 255).status == stTimeout)) := by decide +kernel

def dirtyBase : State := { run with ranges := { run.ranges with slots := [(15, some (newRange (.bankClean 0) 0 0 none))] } }

def slotted (n : Nat) (a : RangeAct) : State := { run with ranges := { run.ranges with slots := [(n, some a)] } }

def cleanAct (k : RangeKind) : RangeAct := newRange k (2 ^ 33) 4 (some 255)

theorem test_RangeActivitiesProceedInOrder :
    (did .rangeSlotAllocate
        { slotted 0 (cleanAct .pin) with ranges := { (slotted 0 (cleanAct .pin)).ranges with waiting := [cleanAct .clean], next := 9 } } (fun t =>
  (tget none t.ranges.slots 1).any (fun a => a.order == 9) && t.ranges.waiting == [] && t.ranges.next == 10)) ∧
    ((cleanAct .clean).isDone .a = false ∧ (slotted 15 (cleanAct .clean)).rangeBusy 15 .a = false) ∧
    (did (.rangeLineOp 15 .b) { slotted 15 (newRange .clean 7 1 none) with ep := run.ep } (fun t =>
        (tget none t.ranges.slots 15).any (fun a => a.doneB && !a.doneA))) ∧
    (did (.rangeLineOp 15 .a) (slotted 15 { cleanAct .pin with refused := some 8 }) (fun t =>
        (tget none t.ranges.slots 15).any RangeAct.doneA)) ∧
    (did (.rangeLineOp 15 .a) { slotted 15 (cleanAct .pin) with ep := { run.ep with step := 1 } } (fun t =>
        (tget none t.ranges.slots 15).any (fun a => !a.doneA))) ∧
    (firstFrom (fun k => run.homedIn .a (2 ^ 33 + k)) 4 0 = some 0 ∧
        (slotted 15 (cleanAct .clean)).mayProcess 0 .a (2 ^ 33) = true) ∧
    (run.mayMaintain (mkReq .callIn (.maint 15) lC 0) = true ∧ run.roleAt (lineAddr lC) = .single) ∧
    (did (.rangeLineOp 15 .a) (slotted 15 (cleanAct .clean)) (fun t => (tget none t.ranges.slots 15).any (fun a =>
        a.posA == 1 || a.processed == 0))) ∧
    (did (.rangeLineOp 15 .a)
        { twin with pair := { twin.pair with fenced := 8 }, ranges := (slotted 15 (newRange .clean (2 ^ 34) 1 (some 255))).ranges } (fun t =>
  (t.ctx 255).poison == some (2 ^ 41) && (tget none t.ranges.slots 15).any RangeAct.doneA)) ∧
    (did (.rangeLineOp 15 .b) (slotted 15 (newRange (.bankClean 0) 0 0 none)) (fun t =>
        (tget none t.ranges.slots 15).any RangeAct.doneB)) ∧
    (did (.rangeLineOp 15 .a) (slotted 15 { newRange .drain 0 0 none with parts := [.bank 0] }) (fun t =>
        (tget none t.ranges.slots 15).any RangeAct.doneA)) ∧
    (did (.rangeLineOp 15 .a) (slotted 15 { newRange .drain 0 0 none with parts := [.region 7 1, .bank 0] }) (fun t =>
        (tget none t.ranges.slots 15).any (fun a => a.partA == 1 && !a.doneA))) ∧
    (did (.rangeLineOp 15 .a) { dirtyBase with ckp := { run.ckp with doze := 0xFFFF } } (fun t =>
        t.back.reqs == [])) := by decide +kernel

def dirtyC : State :=
    { cached run lC with arr := { run.arr with tags := (cached run lC).arr.tags.map (fun p => (p.1, { p.2 with sd := 15 })) } }

theorem test_BankCleanTakesDirtySlots :
    (dirtyC.dirtySlots (run.homeBank lC) ≠ [] ∧ (dirtyC.dirtySlots (run.homeBank lC)).all (fun x =>
        !(dirtyC.tag x).dup && !dirtyC.lineOpen (slotLine x (dirtyC.tag x)) &&
        !dirtyC.flt.lost.contains (slotLine x (dirtyC.tag x)))) ∧
    (shelfHalf (run.homeBank lC / 16) = .a ∧
        ({ dirtyC with ranges := (slotted 15 (newRange (.bankClean (run.homeBank lC)) 0 0 none)).ranges } :
        State).mayProcess 0 .a lC = true) ∧
    (did (.rangeLineOp 15 .a)
        { dirtyC with ranges := (slotted 15 (newRange (.bankClean (run.homeBank lC)) 0 0 none)).ranges } (fun t =>
        t.back.reqs.length == 1)) := by decide +kernel

def doneAct (k : RangeKind) : RangeAct := { cleanAct k with doneA := true, doneB := true }

theorem test_MaintenanceEnds :
    ((slotted 15 (doneAct .clean)).awaits (.range 15) = false ∧ (slotted 15 (doneAct .clean)).rangeBusy 15 .b = false) ∧
    (did (.rangeActivityDone 15)
        { slotted 15 (doneAct .clean) with cmds := (holdsCmd run .acting (desc [(0, opClean)])).cmds } (fun t =>
        t.ranges.slots == [] && (t.ctx 255).status == stOk && (t.ctx 255).phase == .done)) ∧
    (did (.rangeActivityDone 15)
        { slotted 15 { doneAct .pin with refused := some 3 } with cmds := (holdsCmd run .acting (desc [(0, opPin)])).cmds } (fun t => (t.ctx 255).status == stCeiling && (t.ctx 255).detail == 384)) ∧
    (did (.rangeActivityDone 15) (slotted 15 { doneAct .cleanInval with ctx := none }) (fun t => t.ranges.slots == [])) ∧
    (did (.bankCleanDone 255) ((slotted 15 { doneAct (.bankClean 255) with ctx := none }).modShelf 15 fun g =>
        { g with bankEn := 0xFFFF, invDone := 0x8000, cleaning := 0x8000 }) (fun t =>
  (t.shelf 15).bankEn == 0x7FFF && (t.shelf 15).invDone == 0 && (t.shelf 15).cleaning == 0 && t.ranges.slots == [])) ∧
    (run.dirtySlots 255 = [] ∧ run.awaits (.clean 255) = false) ∧
    (did (.tagInvDone 255) ((run.modShelf 15 fun g => { g with tagInv := 0x8000 }).setTag ⟨255, 2047,
        31⟩ { Tag.empty with state := .live }) (fun t => t.arr.tags == [] && (t.shelf 15).invDone == 0x8000)) ∧
    (did .lineopDone { run with ranges := { run.ranges with lineop := some ⟨.clean, 9, 0, true⟩ } } (fun t =>
        t.ranges.lineop == none)) ∧
    (did .lineopDone { run with ranges := { run.ranges with lineop := some ⟨.clean, 9, 0, true⟩ }, back := { run.back with reqs := [⟨0, true, 9, 0, 0, 0, .data .lineop 0, none, false, 0⟩] } } (fun t => t.ranges.lineop.isSome)) := by decide +kernel

def agentOp (op : BitVec 2) (st : Joined) (s : State) : State :=
    { s.setAgent 5 ⟨st, 0x2001, some (.agent 0)⟩ with agents := { (s.setAgent 5 ⟨st, 0x2001, some (.agent 0)⟩).agents with busy := true, op := op, opId := 5, id := 6 } }

theorem test_AgentOperationEnds :
    (did .agentOpDone (agentOp 1 .joining run) (fun t => (t.agent 5).st == .yes && !t.agents.busy)) ∧
    ((agentOp 2 .leaving run).walkOpen 5 = [] ∧ (agentOp 2 .leaving run).namedLines 5 = []) ∧
    (did .agentOpDone (agentOp 2 .leaving run) (fun t => t.agent 5 == Agent.absent && !t.agents.busy)) ∧
    ((agentOp 2 .leaving (holds run lC (owned .dx 5))).namedLines 5 ≠ [] ∧
        did .agentOpDone (agentOp 2 .leaving (holds run lC (owned .dx 5))) (fun t => t.agents.busy)) := by decide +kernel

def fireD : BitVec 512 := desc [(0, opKilnFire), (20, 1), (24, 16 * 2 ^ 22), (32, 16 * 2 ^ 22 + 4096), (40, 128), (60, 32)]

def firing (d : BitVec 512) (left : List Pass) : State :=
  { holdsCmd placed .acting d with
    kiln := { run.kiln with queues := [(17, [255])], jobs := [⟨255, d, 0, placed.cfg.places, [(17, left)], [(1, 0)], [], [], 0, false, 0⟩], peri := [(17, { Periphery.reset with halves := [⟨255, 0, []⟩] })] } }

theorem test_KilnRowsRunPasses :
    ((firing fireD [⟨0, [0]⟩]).nextPass 17 |>.isSome) ∧
    (did (.kilnPassStart 17) (firing fireD [⟨0, [0]⟩]) (fun t => (t.job 255).all (fun j => tget [] j.left 17 == []))) ∧
    ((firing fireD []).nextPass 17 = none ∧ did (.kilnPassStart 17) (firing fireD []) (fun t => t.kiln.queues == [(17,
        [255])] || t.kiln.jobs == [])) ∧
    ((run.kilnRuns .b = true) ∧ did (.accumSlotTimeout .b)
        { firing fireD [] with kiln := { (firing fireD []).kiln with asmB := [⟨255, 0, 2 ^ 33, 1, 5⟩] } } (fun t =>
  t.kiln.asmB == [] && (t.ctx 255).out == 1 && t.home.cq.map (fun r => r.aop.toNat) == [0x80])) := by decide +kernel

def streaming : BitVec 512 := fireD ||| desc [(19, 1)]

theorem test_KilnStreamsAndReloads :
    (frStream streaming = true ∧ ((firing streaming [⟨0, [0]⟩]).job 255).any (fun j => j.nextTokens.any (fun t =>
        !j.ready t) && !j.headReading)) ∧
    (did (.streamHeadPoll 255) (firing streaming [⟨0, [0]⟩]) (fun _ => true)) ∧
    (did (.kilnReloadDone 0)
        { placed with kiln := { run.kiln with reloads := [⟨0, [], [], [], false⟩], entries := [(0, ⟨.reloading, 1, some 0⟩)] } } (fun t => (t.kentry 0).st == .loaded && t.kiln.reloads == [])) ∧
    (did (.kilnReloadDone 0)
        { placed with kiln := { run.kiln with reloads := [⟨0, [], [], [], true⟩], entries := [(0, ⟨.reloading, 1, some 0⟩)] } } (fun t => (t.kentry 0).st == .lost && t.evt.queue.length == 1)) ∧
    (did (.kilnReloadDone 0)
        { placed with kiln := { run.kiln with reloads := [⟨0, [], [], [], false⟩], entries := [(0, ⟨.lost, 1, none⟩)] } } (fun t => (t.kentry 0).st == .lost && t.kiln.reloads == [] && t.evt.queue == [])) ∧
    (did (.kilnReloadDone 0)
        { placed with kiln := { run.kiln with reloads := [⟨0, [], [], [], false⟩], entries := [(0, ⟨.reloading, 1, none⟩)] } } (fun t => (t.kentry 0).st == .lost)) := by decide +kernel

def asked (op : ReqOp) : State :=
    { holdsCmd run .gathering (desc [(0, opCopy)]) with kiln := { run.kiln with peerOut := [(3, mkReq op (.cmd 255) (BitVec.ofNat 45 (2 ^ 40)) 0)] } }

theorem test_PeerAnswersReachTheirAsker :
    (did (.peerResponse (hdr mDataS 0 0) 7) run (fun t => t.kiln.peerOut == [])) ∧
    (did (.peerResponse (hdr mDataS 0 0) 7) (asked .rdV) (fun t => t.kiln.peerOut == [] && (t.ctx 255).inbuf != [])) ∧
    (did (.peerResponse (hdr mPoison 0 0) 0) (asked .rdV) (fun t => t.kiln.peerOut == [] && (t.ctx 255).poison.isSome)) ∧
    (headerKeeps (hdr mDataS 0 0) = true ∧ headerKeeps (hdr 0x3F 0 0) = false ∧
        did (.peerResponse (hdr 0x3F 0 0) 0) (asked .rdV) (fun t => t.ep.step == 1 && t.ep.cause == 2)) ∧
    (ReqOp.isWrite .wrL = true ∧ did (.peerResponse (hdr mAck 0 0) 0) (asked .wrL) (fun t =>
        t.kiln.peerOut == [])) := by decide +kernel

def logged (fill : Nat) : State :=
    { run with syb := { run.syb with cfg := { cfg0 with protect := 1 <<< 64 } }, ep := { run.ep with fill := [(7, fill)] } }

def paused (s : State) : State := { s with ckp := { s.ckp with coolActive := true, a := { s.ckp.a with st := .retained } } }

def cutting (n : Nat) (d : Bool) : State :=
    { run with ep := { run.ep with cutStep := n, cutDone := d, cutBy := [255] }, cmds := (holdsCmd run .acting (desc [(0, opEpochClose)])).cmds }

theorem test_CutGoesThroughItsSteps :
    (run.capacity = 0 ∧ (logged 9).capacity > 9 ∧ run.quenching = false) ∧
    (did .epochInput { cutting 0 false with out := { run.out with epochReq := true } } (fun t => t.ep.cutStep == 1 &&
        !t.out.epochReq && (t.ctx 255).begun)) ∧
    (did .epochInput (logged ((logged 0).capacity - 1)) (fun t => t.ep.cutStep == 1)) ∧
    (did .epochInput (cutting 6 false) (fun t => t.ep.cutStep == 6)) ∧
    (7 * (logged 0).capacity ≤ 8 * tget 0 (logged ((logged 0).capacity * 7 / 8 + 1)).ep.fill 7) ∧
    (did .forcedClose (logged ((logged 0).capacity * 7 / 8 + 1)) (fun t => t.ep.forced && t.out.epochReq)) ∧
    (did .forcedClose (logged ((logged 0).capacity / 8)) (fun t => !t.ep.forced)) ∧
    (did .epochSweepDone { run with ep := { run.ep with sweep := true } } (fun t => !t.ep.sweep) && !run.sweepBusy &&
        run.priorSlots == []) ∧
    (did .epochSweepDone
        { cached { run with ep := { run.ep with sweep := true, cur := true } } lE with arr := { (cached run lE).arr with tags := (cached run lE).arr.tags.map (fun p => (p.1, { p.2 with sd := 15 })) } } (fun t => t.ep.sweep)) ∧
    ((cutting 1 false).cutFinished = true ∧ did .qstepDone (cutting 1 false) (fun t => t.ep.cutDone && t.out.qstepDone)) ∧
    ((cutting 6 false).cutFinished = true ∧ did .qstepDone (cutting 6 false) (fun t => t.ep.cutStep == 0 &&
        (t.ctx 255).status == stOk && (t.ctx 255).detail == 1)) ∧
    (did .qstepGo (cutting 1 true) (fun t => t.ep.cutStep == 2) && did .qstepGo (cutting 3 true) (fun t =>
        t.ep.cutStep == 4)) ∧
    (did .qstepGo { cutting 4 true with ep := { (cutting 4 true).ep with num := 0xFFFFFFFF } } (fun t =>
        t.ep.cutStep == 5 && t.ep.num == 1 && t.ep.cur)) ∧
    (did .qstepGo (cutting 2 true) (fun t => t.ep.cutStep == 3) && did .qstepGo (cutting 5 true) (fun t =>
        t.ep.cutStep == 6)) := by decide +kernel

theorem test_CoolantPausesSteps :
    ((paused (cutting 1 true)).stepPaused = true ∧ did .qstepGo (paused (cutting 1 true)) (fun t => t.ep.goWaits &&
        t.ep.cutStep == 1) && did .qstepDone (paused (cutting 1 false)) (fun t => !t.ep.cutDone)) := by decide +kernel

def quenched (n : Nat) (d : Bool) : State :=
    { run with ep := { run.ep with step := n, stepDone := d, cause := 1, waited := true }, out := { run.out with quenchReq := true } }

theorem test_QuenchGoesThroughItsSteps :
    (did .quenchInput run (fun t => t.ep.step == 1 && t.ep.cause == 7 && !t.ep.isLocal && t.out.quenchReq)) ∧
    (did .quenchInput (quenched 1 false) (fun t => t.ep.cause == 1)) ∧
    (did .quenchWaitExpiry { quenched 1 false with ep := { (quenched 1 false).ep with waited := false } } (fun t =>
        t.ep.waited && t.ep.step == 1)) ∧
    ((quenched 1 false).quenchFinished = true ∧ did .qstepDone (quenched 1 false) (fun t => t.ep.stepDone &&
        t.out.qstepDone)) ∧
    ((quenched 7 false).quenchFinished = true ∧ did .qstepDone (quenched 7 false) (fun t => t.ep.step == 0 &&
        t.out.qstepDone)) ∧
    (did .qstepGo (quenched 1 true) (fun t => t.ep.step == 2)) ∧
    (did .qstepGo (withTxn (holds (quenched 2 true) lC (owned .dx 6)) { open5 .rdS lC with tstate := fF }) (fun t =>
        t.ep.step == 3 && t.home == ⟨[], [], [], [], []⟩ && t.dir.ways == [])) ∧
    ((open5 .rdS lC).req.agentId.isSome = true ∧ (quenched 2 true).outsider (open5 .rdS lC).req = false) ∧
    (did .qstepGo (paused (quenched 1 true)) (fun t => t.ep.goWaits && t.ep.step == 1)) ∧
    (did .qstepGo (quenched 6 true) (fun t => t.ep.step == 7 && t.out.quenchReq && t.ep.restored == 1)) := by decide +kernel

def loading (d : Bool) : State := { run with syb := { run.syb with state := .loading, loadDefault := d } }

theorem test_BaseLoadApplies :
    (did (.baseLoadDone [] true) (loading false) (fun t => t.syb.state == .error && t.syb.err == stBounds)) ∧
    (did (.baseLoadDone [] false) (loading false) (fun t => t.syb.state == .error)) := by decide +kernel

def overlaid (st : GlazeStep) (ph : Phase) (d : BitVec 512) : State :=
    { holdsCmd run ph d with glaze := { run.glaze with step := st, ctx := 255 } }

def ovD : BitVec 512 := desc [(0, opOverlay), (4, 64), (8, 2 ^ 40)]

theorem test_GlazePointCommits :
    ((overlaid .idle .acting ovD).overlays = [255] ∧ run.fw.step = 0) ∧
    (did .glazePointStart (overlaid .idle .acting ovD) (fun t => t.glaze.step == .reading && t.glaze.ctx == 255)) ∧
    (did .glazeStreamReadDone
        { overlaid .reading .acting ovD with cmds := { run.cmds with ctxs := [(255, { Ctx.free with phase := .acting, desc := ovD, poison := some 0 })] } } (fun t => t.glaze.step == .idle && (t.ctx 255).status == stBounds)) ∧
    (did .glazeStreamReadDone (overlaid .reading .acting ovD) (fun t => t.glaze.step == .idle &&
        (t.ctx 255).phase == .done)) ∧
    (did .glazeDrainDone
        { overlaid .draining .acting ovD with glaze := { (overlaid .draining .acting ovD).glaze with next := placed.syb.cfg }, kiln := { run.kiln with entries := [(0, ⟨.loaded, 0, some 1⟩)] } } (fun t =>
  t.syb.cfg == placed.syb.cfg && t.syb.ovlGen == 1 && t.glaze.step == .preparing && (t.kentry 0).st == .unloaded)) ∧
    ((overlaid .draining .acting ovD).drained = true ∧ run.pair.link = 0) ∧
    (did .glazePrepareDone (overlaid .preparing .acting ovD) (fun t => t.glaze.step == .idle)) := by decide +kernel

def chilled (s : State) : State :=
    { s with ckp := { s.ckp with coolActive := true, a := { s.ckp.a with st := .retained } } }

def fwAt (n : BitVec 3) (ph : Phase) : State :=
    { holdsCmd run ph (desc [(0, opFwActivate)]) with fw := { run.fw with step := n, ctx := some 255, queue := [255] } }

theorem test_HandoverAndFuses :
    (({ fwAt 0 .acting with fw := { (fwAt 0 .acting).fw with verifying := true } } : State).fw.ctx = some 255 ∧
        run.quenching = false) ∧
    (did .fwLoadDone (fwAt 1 .acting) (fun t => t.fw.step == 2 && t.fw.noStandby)) ∧
    (did .fwStandbyReady (fwAt 2 .acting) (fun t => t.fw.step == 3 && !t.fw.noStandby)) ∧
    (did .fwBootFail (fwAt 2 .acting) (fun t => t.fw.step == 0 && t.fw.bootFail && (t.ctx 255).status == stBadOp &&
        t.evt.queue.length == 1 && t.fw.queue == [])) ∧
    ((List.range 16).all (fun i => run.records i == 0 && !(run.shelf i).flipped && !(run.shelf i).flipHold)) ∧
    (did .fwQuiesceDone { fwAt 3 .acting with fw := { (fwAt 3 .acting).fw with pauses := true } } (fun t =>
        t.fw.flipNext == 16 && t.fw.step == 6)) ∧
    (did (.fwFlipHoldExpiry 15) ((fwAt 4 .acting).modShelf 15 fun g => { g with flipHold := true }) (fun t =>
        !(t.shelf 15).flipHold)) ∧
    (did (.fwFlipHoldExpiry 15) ({ fwAt 4 .acting with fw := { (fwAt 4 .acting).fw with flipNext := 16 } }.modShelf 15
        fun g => { g with flipHold := true }) (fun t => !(t.shelf 15).flipHold)) ∧
    (did (.fwFlipRetry 15) { fwAt 4 .acting with fw := { (fwAt 4 .acting).fw with flipNext := 16 } } (fun t =>
        (t.shelf 15).flipped && !(t.shelf 15).flipHold)) ∧
    (did (.fwFlipRetry 0) (withTxn { fwAt 4 .acting with fw := { (fwAt 4 .acting).fw with flipNext := 16 } } (open5 .rdS
        lC)) (fun t => !(t.shelf 0).flipped && (t.shelf 0).flipHold) && run.homeShelf lC == 0) ∧
    (did .standbyRebootDone { run with fw := { run.fw with noStandby := true, step := 6, trail := 0x21 } } (fun t =>
        !t.fw.noStandby)) ∧
    (run.flt.retired.contains FaultUnit.mgmtCore = false ∧ run.flt.noStandby = false) ∧
    (did .standbyRebootDone
        { run with fw := { run.fw with noStandby := true }, flt := { run.flt with serving := false } } (fun t =>
        t.flt.serving)) := by decide +kernel

theorem test_CoolantPausesHandover :
    ((chilled (fwAt 1 .acting)).stepPaused = true ∧ [Instr.fwLoadDone, .fwStandbyReady, .fwBootFail, .fwQuiesceDone,
        .fwFlipRetry 15].all (fun c => did c (chilled (fwAt 1 .acting)) (fun t => t.fw.step == 1))) := by decide +kernel

def burning (to' : Nat) (a : BitVec 12) : State :=
    { run with out := { run.out with fuseBurn := some a }, fw := { run.fw with burnTo := to' } }

theorem test_FuseBurns :
    (did (.fusePgAck false) (burning 1 3080) (fun t => t.boot.fuses == BitVec.ofNat 4096 (2 ^ 3080) &&
        t.out.fuseBurn == none && t.fw.burnTo == 0)) ∧
    (did (.fusePgAck false) (burning 2 3080) (fun t => t.out.fuseBurn == some 3081 && t.fw.burnTo == 2)) ∧
    (did (.fusePgAck true) (burning 2 3080) (fun t => t.boot.fuses == 0 && t.fw.fuseFail && t.out.fuseBurn == none &&
        t.evt.queue.length == 1)) := by decide +kernel

def scrubbing (en : Bool) (rows : Nat) : State :=
    { holdsCmd run .acting (desc [(0, opScrub), (16, 255), (18, 1)]) with flt := { run.flt with wedgeEn := en, scrubs := [(255, [(255, rows)])] } }

theorem test_FaultsAreFoundAndCounted :
    (run.flt.wedgeEn = true ∧ run.flt.scrubs = [] ∧ tget 0 run.flt.rows 271 < 66559) ∧
    (did (.wedgingRead .pass) { run with flt := { run.flt with rows := [(255, 66560), (272, 73728)] } } (fun t =>
        tget 0 t.flt.rows 255 == 66560 && tget 0 t.flt.rows 271 == 1 && tget 0 t.flt.rows 272 == 73728 &&
        tget 0 t.flt.rows 287 == 1)) ∧
    (allRead (run.scrubBanks ((scrubbing false 66559).ctx 255).desc) ((scrubbing false 66559).readBanks (run.scrubBanks
        ((scrubbing false 66559).ctx 255).desc) [(255, 66559)]) = true) ∧
    (did (.wedgingRead (.reads (.bank 7) 3 1)) { run with flt := { run.flt with wedgeEn := false } } (fun t =>
        tget 0 t.flt.trans (kindOf (.bank 7)) == 0 && t.flt.log == [])) ∧
    (did (.wedgingRead (.reads (.bank 7) (2 ^ 32) (3 * 2 ^ 32))) { run with flt := { run.flt with wedgeEn := false } }
        (fun t => t.flt.log != [])) ∧
    (did (.wedgingRead (.reads (.bank 7) (2 ^ 33) (2 ^ 33 + 2 ^ 65)))
        { run with flt := { run.flt with wedgeEn := false } } (fun t => tget 0 t.flt.trans (kindOf (.bank 7)) == 1 &&
        t.flt.log == [])) ∧
    (did (.wedgingRead .pass) (scrubbing false 66559) (fun t => t.flt.scrubs == [] && (t.ctx 255).phase == .done)) ∧
    (did (.wedgingRead .pass) (scrubbing false 66558) (fun t => t.flt.scrubs == [(255, [(255, 66559)])] &&
        (t.ctx 255).phase == .acting)) ∧
    (did (.wedgingRead (.transient (.bank 7))) { run with flt := { run.flt with wedgeEn := false } } (fun t =>
        tget 0 t.flt.trans (kindOf (.bank 7)) == 1 && tget 0 t.life.trans (kindOf (.bank 7)) == 1 && t.life.changed)) ∧
    (did (.wedgingRead (.lasting (.bank 7))) { run with flt := { run.flt with wedgeEn := false } } (fun t =>
        t.flt.log != [])) ∧
    (did (.transStorm (.bank 7))
        { run with flt := { run.flt with storm := 2, perUnit := [(.bank 7, 0), (.bank 7, 1), (.bank 8, 1)] } } (fun t =>
        t.flt.perUnit == [(.bank 8, 1)] && t.evt.queue.length == 1)) ∧
    (stormUnit .mgmtCore = none ∧ did (.transStorm .mgmtCore)
        { run with flt := { run.flt with storm := 1, perUnit := [(.mgmtCore, 0)] } } (fun t => t.evt.queue == [])) ∧
    (did (.transStorm (.bank 7))
        { run with flt := { run.flt with storm := 3, perUnit := [(.bank 7, 0), (.bank 7, 1), (.bank 8, 1)] } } (fun t =>
        t.evt.queue == [])) := by decide +kernel

def sparing (u : FaultUnit) (c : Option Nat) : State :=
    { holdsCmd run .acting (desc [(0, opSpareSwap)]) with flt := { run.flt with work := [⟨u, 0, c⟩] } }

theorem test_SparingFailoverAndLifeRecord :
    ((sparing (.agentPort 0) (some 255)).home.held = [] ∧ ((sparing (.agentPort 0) (some 255)).ctx 255).phase = .acting) ∧
    (did .spareDone (sparing (.crossbarPort 3) (some 255)) (fun t => t.flt.work == [] && (t.ctx 255).phase == .done &&
        (t.ctx 255).status == stOk)) ∧
    (did .spareDone { sparing (.sequencer .b) none with kiln := { run.kiln with deadSeqs := [.b] } } (fun t =>
        t.kiln.spareServes == some .b && t.kiln.deadSeqs == [] && t.ckp.lock1.getLsbD 6 && t.evt.queue.length == 1)) ∧
    (did (.heartbeatTimeout false) { run with ckp := { run.ckp with mgmtRet := true } } (fun t => t.flt.serving &&
        t.evt.queue == [])) ∧
    (({ run with flt := { run.flt with noStandby := true } } : State).alone = true ∧ run.alone = false ∧
        run.ckp.mgmtRet = false) ∧
    (did (.heartbeatTimeout false) { run with flt := { run.flt with noStandby := true } } (fun t => !t.flt.serving &&
        t.evt.queue.length == 1)) ∧
    (did (.heartbeatTimeout false) run (fun t => t.flt.serving)) ∧
    (did (.heartbeatTimeout true) run (fun t => t.flt.serving && t.flt.noStandby)) ∧
    (did (.lifeRecordWrite true) { run with life := { run.life with changed := true, slot := 7 } } (fun t =>
        t.life.slot == 0 && t.life.writeSeq == 1 && !t.life.changed)) ∧
    (did (.lifeRecordWrite false) { run with life := { run.life with changed := true, slot := 7 } } (fun t =>
        t.life.slot == 0 && t.life.fail && t.life.changed && t.evt.queue.length == 1)) ∧
    (run.life.changed = false ∧ did (.lifeRecordWrite true) run (fun t => t.life.slot == 0)) := by decide +kernel

def writer (s : State) : State :=
    { s with pair := { s.pair with link := 1, ports := 3, assign := 3, writer := 8, twin := some ⟨0, 0, 0, 0, 0, true, 0⟩ } }

theorem test_MirrorFramesAct :
    (twin.cfg.pairEn = true ∧ twin.tooLate lM = false ∧
        ({ twin with pair := { twin.pair with lost := true, fenced := 8 } } : State).tooLate lM = true) ∧
    (did (.mwr lM fullMask 7 9 none) (writer twin) (fun t => t.home.cq.length == 1)) ∧
    (did (.mwr lM fullMask 7 9 none) { twin with pair := { twin.pair with lost := true, fenced := 8 } } (fun t =>
        t.home.cq == [])) ∧
    (did (.mreclaim lM 9) (writer twin) (fun t => t.home.cq.map Req.op == [.inv])) ∧
    (did (.mrsync lM 7) (writer twin) (fun t => t.home.cq.length == 1)) ∧
    ((fwdReq ⟨hdr mWrL lM 0, 0, 7, 0⟩ 9).isSome ∧ (match twin.regionAt (lineAddr (Hdr.line (hdr mWrL lM 0))) with | some (_, g) => Region.pclass g | none => 0) = pcM) ∧
    (did (.mfwd ⟨hdr mWrL lM 0, 0, 7, 0⟩ 9) (writer twin) (fun t => t.home.cq.length == 1 && (t.mon 0).bytes == 128)) ∧
    ((fwdReq ⟨hdr mRdS lM 0, 0, 7, 0⟩ 9).isNone ∧ did (.mfwd ⟨hdr mRdS lM 0, 0, 7, 0⟩ 9) (writer twin) (fun t =>
        t.out.mirror.map Prod.snd == [.mpoison 9] || t.pair.held != [])) ∧
    (did (.mack 9) { writer twin with pair := { (writer twin).pair with waits := [(9, .reclaim lM 0)] } } (fun t =>
        t.pair.waits == [])) ∧
    (did (.mack 9) (writer twin) (fun t => t.pair.waits == [])) ∧
    (did (.mpoison 9)
        { writer twin with pair := { (writer twin).pair with waits := [(9, .forward (open5 .wrL lM).req)] } } (fun t =>
        sent t mPoison && t.pair.waits == [])) ∧
    (did (.mcfg 3 (twin.cfg.mEntry 3)) (writer twin) (fun t => t.evt.queue == []) &&
        !(writer twin).pair.unmatched.getLsbD 3) ∧
    (did (.mcfg 3 0) (writer twin) (fun t => t.pair.unmatched.getLsbD 3)) := by decide +kernel

theorem test_PairLinkIsKept :
    (run.cfg.pairEn = false ∧ did .mirrorTimeout run (fun t => !t.pair.lost)) ∧
    (did .helloSend { twin with pair := { twin.pair with ports := 3 } } (fun t => t.out.mirror.length == 2 &&
        (t.far 1).buffer.length == 1)) ∧
    (did .helloSend (({ twin with pair := { twin.pair with ports := 3 } } : State).modHalf .b fun c =>
        { c with st := .retained }) (fun t => t.out.mirror.length == 1)) ∧
    (did .helloSend twin (fun t => t.out.mirror == [])) ∧
    (did .helloSend { twin with pair := { twin.pair with ports := 3, lost := true } } (fun t => t.out.mirror == [])) ∧
    (twin.compatible ⟨5, 1, 0, 0, 0, true, 0⟩ = false ∧ did (.hello ⟨5, 1, 0, 0, 0, true, 0⟩) (writer twin) (fun t =>
        t.pair.link == 0 && t.pair.mismatch && t.pair.twinVer == 5 && t.evt.queue.length == 1)) ∧
    (did .mirrorTimeout (writer twin) (fun t => t.pair.lost && t.pair.fenced.getLsbD 3 && t.pair.link == 0)) ∧
    (3 ∈ twin.cfg.mIndexes ∧ did .mirrorTimeout
        { writer twin with pair := { (writer twin).pair with leases := [(3, 10)] } } (fun t => t.pair.lost &&
        t.pair.solo.getLsbD 3 && !t.pair.fenced.getLsbD 3)) ∧
    (did .soloDelayExpiry { twin with pair := { twin.pair with lost := true, solo := 8 } } (fun t =>
        t.pair.soloReady == 8 && t.pair.delayed)) ∧
    (twin.heldLines 3 = [] ∧ did (.fenceWalkDone 3) { twin with pair := { twin.pair with walking := 8, fenced := 8 } }
        (fun t => t.pair.walking == 0)) ∧
    ((holds twin lM (owned .dx 5)).heldLines 3 ≠ [] ∧
        did (.fenceWalkDone 3)
        { holds (joined twin) lM (owned .dx 5) with pair := { twin.pair with walking := 8, fenced := 8 } } (fun t =>
        t.pair.walking == 8)) ∧
    (did (.leaseExpiry 3) { twin with pair := { twin.pair with leases := [(3, 1)] }, ep := { twin.ep with step := 1 } }
        (fun t => t.pair.expired == 8 && t.pair.leases == [(3, 1)])) ∧
    (did (.leaseExpiry 3) { twin with pair := { twin.pair with leases := [(3, 1)] } } (fun t => t.pair.leases == [])) ∧
    (did (.leaseExpiry 3)
        { twin with pair := { twin.pair with leases := [(3, 1)], lost := true, solo := 8, soloReady := 8 } } (fun t =>
        t.pair.leases == [] && t.pair.fenced.getLsbD 3)) := by decide +kernel

def guarded (g : Mon) : State := { run with cone := { run.cone with mons := [(7, g)] } }

theorem test_WindowsAreJudged :
    (run.active && run.cone.monEn && !(run.mon 7).spoiled) ∧
    (did (.coneWindowEnd 7) (guarded { Mon.reset with spoiled := true, bytes := 5 }) (fun t => (t.mon 7).bytes == 0 &&
        (t.mon 7).outBytes == 0)) ∧
    (did (.coneWindowEnd 7) (guarded { Mon.reset with reqs := 5, late := 2, bytes := 99 }) (fun t =>
        (t.mon 7).outBytes == 99 && (t.mon 7).outReqs == 5 && (t.mon 7).outOver == 2 && (t.mon 7).reqs == 0)) ∧
    ((run.shelf 15).thresh = 64 ∧ (((run.modShelf 15 fun g =>
        { g with thrash := [(7, 63)] }).thrashCount 15 7).shelf 15).pour = 0x80 ∧ ((run.modShelf 15 fun g =>
        { g with thrash := [(7, 63)] }).thrashCount 15 7).evt.queue.length = 1) ∧
    ((((run.modShelf 15 fun g => { g with thrash := [(7, 64)] }).thrashCount 15 7).shelf 15).pour = 0 ∧
        (((run.modShelf 15 fun g => { g with thrash := [(7, 62)] }).thrashCount 15 7).shelf 15).pour = 0) ∧
    (did (.thrashWindowEnd 15) (run.modShelf 15 fun g => { g with thrash := [(7, 64)] }) (fun t =>
        (t.shelf 15).pour == 0 && (t.shelf 15).thrash == [] && t.evt.queue == [])) ∧
    (did (.thrashWindowEnd 15) (run.modShelf 15 fun g => { g with pour := 0x80, calm := [(7, 15)] }) (fun t =>
        (t.shelf 15).pour == 0)) ∧
    (did (.thrashWindowEnd 15) (run.modShelf 15 fun g =>
        { g with pour := 0x80, calm := [(7, 14)], thrash := [(7, 15)] }) (fun t => (t.shelf 15).pour == 0x80 &&
        tget 0 (t.shelf 15).calm 7 == 15)) ∧
    (did (.streamExpiry 15 1) (run.modShelf 15 fun g =>
        { g with streams := [⟨1, false, 0, 1, 0⟩, ⟨2, false, 0, 1, 0⟩] }) (fun t =>
        (t.shelf 15).streams.map Stream.agent == [1])) := by decide +kernel

def halfAt (h : Half) (st : HalfState) (s : State) : State := s.modHalf h fun c => { c with st := st }

def sparingIn (s : State) : State := { s with flt := { s.flt with work := [⟨.bank 0, 0, none⟩] } }

def few : State := { run with ckp := { run.ckp with clken1 := 0x300 } }

theorem test_HalvesSleepAndWake :
    (run.ckp.dozeIdle ≠ 0 ∧ run.dozeBar 15 = false ∧ run.shelfWanted 15 = false ∧ did (.shelfDoze 15) run (fun t =>
        t.ckp.doze == 0x8000)) ∧
    (did (.shelfDoze 15) { run with ckp := { run.ckp with dozeIdle := 0 } } (fun t => t.ckp.doze == 0)) ∧
    (did (.shelfWakeDone 15) { run with ckp := { run.ckp with doze := 0x8000 } } (fun t => t.ckp.doze == 0)) ∧
    (({ run with ckp := { run.ckp with doze := 0xFFFF } } : State).retMay .b = true) ∧
    (did (.halfRetentionStart .b) { run with ckp := { run.ckp with doze := 0xFFFF } } (fun t => t.ckp.b.st == .asking &&
        t.out.slpReq.length == 16 + 4 + 2 + 1)) ∧
    (did (.halfRetentionStart .a) { run with ckp := { run.ckp with doze := 0xFFFF, clken1 := 0 } } (fun t =>
        t.ckp.a.st == .entering && t.out.slpReq == [])) ∧
    (few.enabledPorts .a = [.backing 0, .backing 1] ∧ sleepHalf (.backing 1) = .a) ∧
    (did (.xSlpAck (.backing 0)) (halfAt .a .asking few) (fun t => t.ckp.a.st == .asking && t.ckp.a.acks == [.backing 0])) ∧
    (did (.xSlpAck (.backing 1)) ((halfAt .a .asking few).modHalf .a fun c => { c with acks := [.backing 0] }) (fun t =>
        t.ckp.a.st == .entering)) ∧
    (did (.xSlpNak (.backing 1)) { halfAt .a .asking few with out := { few.out with slpReq := [.backing 1] } } (fun t =>
        t.ckp.a.st == .awake && t.out.slpReq == [])) ∧
    (did (.retentionEntryDone .a) (halfAt .a .entering run) (fun t => t.ckp.a.st == .retained && t.out.vreqA == 1 &&
        t.out.pllA == 0)) ∧
    ((sparingIn (halfAt .a .entering run)).fittingIn .a = true ∧
        did (.retentionEntryDone .a) (sparingIn (halfAt .a .entering run)) (fun t => t.ckp.a.st == .entering)) ∧
    (did (.xWake (.agent 0)) (halfAt .a .retained run) (fun t => t.ckp.a.wakeAsked) && sleepHalf (.agent 0) == .a) ∧
    (((halfAt .a .entering run).half .a).wakeAsked = false ∧ run.ckp.coolActive = false) ∧
    (did (.halfWake .a) ((halfAt .a .retained run).modHalf .a fun c => { c with wakeAsked := true }) (fun t =>
        t.ckp.a.st == .vddUp && t.out.vreqA == 2)) ∧
    (did (.halfWake .a)
        ({ halfAt .a .retained run with ckp := { (halfAt .a .retained run).ckp with coolActive := true } }.modHalf .a
        fun c => { c with wakeAsked := true }) (fun t => t.ckp.a.st == .retained)) ∧
    (did (.hlfVok .a) (halfAt .a .vddUp run) (fun t => t.ckp.a.st == .locking && t.out.pllA == 1)) ∧
    (did (.hlfPllok .b) (halfAt .b .locking run) (fun t => t.ckp.b.st == .restoring)) ∧
    (did (.halfWakeDone .b)
        { halfAt .b .restoring run with ckp := { (halfAt .b .restoring run).ckp with doze := 0xFF80 } } (fun t =>
        t.ckp.b.st == .awake && t.ckp.doze == 0x0080)) ∧
    (did (.halfWakeDone .b) { halfAt .b .restoring run with apb := ⟨0, false, some ⟨0x1F020, some 5, true⟩⟩ } (fun t =>
        t.ckp.b.st == .awake && t.apb.held == none && (t.shelf 15).thresh == 5)) ∧
    ((run.ring 15).en = false ∧ run.fw.stage ≠ .loading) ∧
    (did .mgmtRetention (halfAt .a .retained (halfAt .b .retained
        { run with ckp := { run.ckp with retCfg := 0x40000 } })) (fun t => t.ckp.mgmtRet)) := by decide +kernel

theorem test_SleepingBlocksHoldAccesses :
    (pageHalf 0x1F = some .b ∧ pageAssigned 0x1F = true ∧ run.pageGated 0x1F = false) ∧
    (did (.regWrite 0x1F020 5 true 15) (halfAt .b .retained run) (fun t => t.apb.held == some ⟨0x1F020, some 5, true⟩ &&
        t.ckp.b.wakeAsked)) ∧
    (did (.regRead 0x1F020 true) (halfAt .b .restoring run) (fun t => t.apb.held == some ⟨0x1F020, none, true⟩)) ∧
    (did (.regWrite 0x1F020 7 true 15) { run with apb := ⟨0, false, some ⟨0x1F020, some 5, true⟩⟩ } (fun t =>
        t.apb.held == some ⟨0x1F020, some 5, true⟩)) := by decide +kernel

def switching : State := run.modHalf .b fun c => { c with switching := true, sel := true }

theorem test_ClocksFollowTheirInputs :
    (did (.muxSwitchDone .b) switching (fun t => t.ckp.b.cur && !t.ckp.b.switching)) ∧
    (did (.muxHung .b) switching (fun t => t.ckp.b.hung && t.ckp.b.cur && t.ckp.b.st == .retained &&
        t.ckp.b.recovering && t.ep.step == 1 && t.ep.cause == 8 && t.evt.queue.length == 1)) ∧
    (did (.muxHung .b) { switching with ckp := { switching.ckp with coolActive := true } } (fun t => t.ckp.b.hung &&
        t.ckp.b.recovering && t.ep.step == 0)) ∧
    (did (.muxHung .a) run (fun t => !t.ckp.a.hung)) ∧
    (did (.fclkLost .a) run (fun t => t.ckp.a.lost && t.ckp.a.st == .retained && t.ep.step == 1)) ∧
    (did (.fclkLost .a) ((halfAt .a .retained run).modHalf .a fun c => { c with recovering := true }) (fun t =>
        t.ckp.a.lost && t.flt.portsDown.contains (.backingPort 3))) ∧
    (did (.fclkLost .a) (halfAt .a .retained run) (fun t => !t.ckp.a.lost && t.evt.queue == [])) ∧
    (did (.skipRatioChange .b 63) run (fun t => t.ckp.b.k == 63 && t.ckp.a.k == 0)) ∧
    (did (.droopAssert .a) run (fun t => t.ckp.a.droop && t.ckp.a.hold)) ∧
    (did (.droopDeassert .a) (run.modHalf .a fun c => { c with droop := true, hold := true }) (fun t =>
        !t.ckp.a.droop && t.ckp.a.hold)) ∧
    (did (.droopHoldExpiry .a) (run.modHalf .a fun c => { c with hold := true }) (fun t => !t.ckp.a.hold)) ∧
    (did .coolantStopAssert (halfAt .b .retained run) (fun t => t.ckp.a.st == .entering && t.ckp.b.st == .retained &&
        t.ckp.coolActive && (t.mon 7).spoiled)) ∧
    (did .coolantStopDeassert { run with ckp := { run.ckp with coolStop := true, coolActive := true } } (fun t =>
        !t.ckp.coolStop && t.ckp.coolHolding)) ∧
    (did .coolantHoldExpiry
        { halfAt .a .retained (halfAt .b .retained run) with ckp := { (halfAt .a .retained (halfAt .b .retained run)).ckp with coolActive := true, coolHolding := true } } (fun t =>
  t.ckp.a.st == .vddUp && t.ckp.b.st == .vddUp && !t.ckp.coolHolding)) ∧
    (did .coolantHoldExpiry (({ run with ckp := { run.ckp with coolActive := true, coolHolding := true } } :
        State).modHalf .a fun c => { c with recovering := true }) (fun t => t.ckp.a.st == .vddUp && t.ckp.a.cur &&
        t.ep.cause == 8)) := by decide +kernel

def window (m : BitVec 16) (n : Nat) : State :=
    { run with ckp := { run.ckp with window := List.replicate n (1000, m, true), calMiss := 15 } }

theorem test_PowerIsEstimated :
    ((run.half .a).runs = true ∧ (run.half .b).runs = true ∧ ((halfAt .a .retained run).half .a).runs = false) ∧
    (did (.activityEstimate ⟨0, 0, 0, 0⟩ 7 true) run (fun t => t.ckp.eclk == 50 && t.ckp.meas == 7 && t.ckp.measValid)) ∧
    (did (.activityEstimate ⟨0, 0, 0, 0⟩ 7 true) (halfAt .a .retained run) (fun t => t.ckp.a.fclk == 0)) ∧
    (did .calibration (window 1000 9) (fun t => t.ckp.calMiss == 15 && t.ckp.window == [])) ∧
    (did .calibration (window 1000 10) (fun t => t.ckp.calMiss == 0 && t.ckp.calK == 0x4000)) ∧
    (did .calibration (window 800 10) (fun t => t.ckp.calMiss == 0)) ∧
    (did .calibration (window 799 10) (fun t => t.ckp.calMiss == 16 && t.ckp.drift && t.evt.queue.length == 1)) ∧
    (did .calibration { window 2000 10 with ckp := { (window 2000 10).ckp with calMiss := 14, calHold := true } } (fun t
        => t.ckp.calMiss == 15 && !t.ckp.drift && t.ckp.calK == 0x4000)) ∧
    (did .calibration (window 1008 10) (fun t => t.ckp.calMiss == 0 && !t.ckp.drift)) ∧
    (did (.sensorRead 750 750 105 (BitVec.ofInt 8 (-10))) run (fun t => !t.ckp.thermHigh && t.ckp.a.t == 105)) ∧
    (did (.sensorRead 750 750 106 0) run (fun t => t.ckp.thermHigh && t.evt.queue.length == 1)) := by decide +kernel

end Sys2Proof.Tests
end

section
/-! The wedging pass, SCRUB and the counts of transients (R15, R16, R299, R327 to R330, R341): rows read per interval, the
parity of a row of 66 columns, and what a finding changes. -/
namespace Sys2Proof.Machine

variable {s : State}

/-! ### Rows read in one interval (R341) -/

/-- The rows of a unit of n rows that are read after one more interval. -/
def rowAfter (skip : Bool) (n v : Nat) : Nat := if skip = true ∨ n ≤ v then v else v + 1

theorem rowAfter_le (skip : Bool) (n v : Nat) : rowAfter skip n v ≤ v + 1 := by
  unfold rowAfter
  split <;> omega

theorem tget_readRow (skip : Bool) (n k j : Nat) (t : Table Nat) :
    tget 0 (readRow skip n k t) j = if j = k then rowAfter skip n (tget 0 t k) else tget 0 t j := by
  by_cases h : skip = true ∨ n ≤ tget 0 t k
  · rw [readRow, rowAfter, if_pos h, if_pos (by simpa using h)]
    split
    · rename_i hj
      rw [hj]
    · rfl
  · rw [readRow, rowAfter, if_neg h, if_neg (by simpa using h), tget_tset]

section
variable (skip : Nat → Bool) (n : Nat) (key : Nat → Nat)

/-- One interval over units does not touch the row of any other. -/
theorem tget_foldl_readRow_other {l : List Nat} {j : Nat} (hj : ∀ b ∈ l, key b ≠ j) (t : Table Nat) :
    tget 0 (l.foldl (fun t b => readRow (skip b) n (key b) t) t) j = tget 0 t j := by
  induction l generalizing t with
  | nil => rfl
  | cons b l ih =>
    rw [List.foldl_cons, ih (fun c hc => hj c (List.mem_cons_of_mem b hc)), tget_readRow,
      if_neg (hj b List.mem_cons_self).symm]

/-- One interval over units with rows of their own takes each of them one row further. -/
theorem tget_foldl_readRow (hkey : key.Injective) {l : List Nat} (hl : l.Nodup) {k : Nat} (hk : k ∈ l) (t : Table Nat) :
    tget 0 (l.foldl (fun t b => readRow (skip b) n (key b) t) t) (key k) = rowAfter (skip k) n (tget 0 t (key k)) := by
  induction l generalizing t with
  | nil => exact absurd hk List.not_mem_nil
  | cons b l ih =>
    obtain ⟨hb, hl⟩ := List.nodup_cons.mp hl
    rw [List.foldl_cons]
    rcases List.mem_cons.mp hk with rfl | hk
    · rw [tget_foldl_readRow_other skip n key (fun c hc e => hb ((hkey e : c = k) ▸ hc)), tget_readRow, if_pos rfl]
    · have hne : key k ≠ key b := fun e => hb (hkey e ▸ hk)
      rw [ih hl hk, tget_readRow, if_neg hne]

end

/-- The rows read of every unit of the slice after one more interval. -/
def State.rowsAfter (s : State) : Table Nat :=
  (List.range 16).foldl (fun t sh => readRow (s.wedgeSkips sh) dirRows (272 + sh) t)
    (s.readBanks (List.range 272) s.flt.rows)

theorem State.rowsAfter_bank (s : State) {b : Nat} (hb : b < 272) :
    tget 0 s.rowsAfter b = rowAfter (s.bankSkips b) bankRows (tget 0 s.flt.rows b) := by
  rw [State.rowsAfter, tget_foldl_readRow_other s.wedgeSkips dirRows (272 + ·) (fun sh _ => by omega)]
  exact tget_foldl_readRow s.bankSkips bankRows id Function.injective_id List.nodup_range (List.mem_range.mpr hb) _

theorem State.rowsAfter_dir (s : State) {sh : Nat} (hsh : sh < 16) :
    tget 0 s.rowsAfter (272 + sh) = rowAfter (s.wedgeSkips sh) dirRows (tget 0 s.flt.rows (272 + sh)) := by
  rw [State.rowsAfter, tget_foldl_readRow s.wedgeSkips dirRows (272 + ·) (fun _ _ => Nat.add_left_cancel)
    List.nodup_range (List.mem_range.mpr hsh)]
  congr 1
  refine tget_foldl_readRow_other s.bankSkips bankRows id (fun b hb => ?_) _
  exact Nat.ne_of_lt (Nat.lt_add_right sh (List.mem_range.mp hb))

/-- While a bank has rows left, an interval reads on and no pass of the slice ends. -/
theorem State.wedge_reads (he : s.flt.wedgeEn = true) {b : Nat} (hb : b < 272) (hr : tget 0 s.flt.rows b < 66559) :
    s.wedge = { s with flt := { s.flt with rows := s.rowsAfter } } := by
  have hleft : allRead (List.range 272) s.rowsAfter = false := by
    have hle := rowAfter_le (s.bankSkips b) bankRows (tget 0 s.flt.rows b)
    refine List.all_eq_false.mpr ⟨b, List.mem_range.mpr hb, ?_⟩
    rw [State.rowsAfter_bank s hb, decide_eq_true_eq]
    unfold bankRows at hle ⊢
    omega
  unfold State.wedge
  rw [he, Bool.not_true, if_neg Bool.false_ne_true]
  exact if_neg fun h => Bool.noConfusion (hleft.symm.trans (Bool.and_eq_true_iff.mp h).1)

theorem State.wedge_off (he : s.flt.wedgeEn = false) : s.wedge = s := if_pos (by rw [he]; rfl)

/-! ### SCRUB (R299) -/

theorem State.scrubStep_none (h : s.flt.scrubs = []) : s.scrubStep = s := by
  unfold State.scrubStep
  simp only [h, List.map_nil, List.filter_nil, List.foldl_nil]
  rw [← h]

theorem State.scrubStep_last {d : Nat} {rows : Table Nat} (h : s.flt.scrubs = [(d, rows)])
    (ha : allRead (s.scrubBanks (s.ctx d).desc) (s.readBanks (s.scrubBanks (s.ctx d).desc) rows) = true) :
    s.scrubStep = ({ s with flt := { s.flt with scrubs := [] } } : State).endCtx d stOk 0 := by
  unfold State.scrubStep
  simp [h, ha]

theorem exec_wedgingRead_quiet (he : s.flt.wedgeEn = false) (hs : s.flt.scrubs = []) (f : Finding) :
    exec (.wedgingRead f) s = .next (s.finding f).settle := by
  change State.done ((s.wedge.scrubStep).finding f) = _
  rw [State.wedge_off he, State.scrubStep_none hs]
  rfl

/-! ### Transients (R329, R330) -/

theorem State.transient_trans (s : State) (u : FaultUnit) (k : Nat) : tget 0 (s.transient u).flt.trans k =
    if k = kindOf u then satAdd (tget 0 s.flt.trans (kindOf u)) 1 else tget 0 s.flt.trans k := by
  rw [State.transient, kept_flt (keeps_count _ _ _ _) rfl, tmod, tget_tset]

theorem State.transient_life (s : State) (u : FaultUnit) : (s.transient u).life =
    { s.life with trans := tmod 0 s.life.trans (kindOf u) (· + 1), changed := true } :=
  kept_life (keeps_count _ _ _ _) rfl

theorem exec_wedgingRead_transient (he : s.flt.wedgeEn = false) (hs : s.flt.scrubs = []) (u : FaultUnit) :
    Does (.wedgingRead (.transient u)) s (fun t =>
      tget 0 t.flt.trans (kindOf u) = satAdd (tget 0 s.flt.trans (kindOf u)) 1 ∧
      (∀ k, k ≠ kindOf u → tget 0 t.flt.trans k = tget 0 s.flt.trans k) ∧
      tget 0 t.life.trans (kindOf u) = tget 0 s.life.trans (kindOf u) + 1 ∧ t.life.changed = true ∧
      Keeps [.free, .pmu, .flt, .life] s t) := by
  refine ⟨s.transient u, exec_wedgingRead_quiet he hs (.transient u), (State.transient_trans s u _).trans (if_pos rfl),
    fun k hk => (State.transient_trans s u k).trans (if_neg hk), ?_, ?_, keeps_transient s u⟩
  · rw [State.transient_life, tmod, tget_tset, if_pos rfl]
  · rw [State.transient_life]

theorem event_evt_setFlt (s : State) (f : Faults) (code src : Nat) (fields : List Nat) :
    (({ s with flt := f } : State).event code src fields).evt = (s.event code src fields).evt := by
  unfold State.event
  dsimp only
  split <;> rfl

/-- The entry of a transient that was counted for this unit within the last hour. -/
def State.inHour (s : State) (v : FaultUnit) (p : FaultUnit × Nat) : Bool :=
  p.1 == v && decide (s.ckp.eclk < p.2 + hourCycles)

theorem exec_transStorm_counted {u v : FaultUnit} (hu : stormUnit u = some v) (h0 : s.flt.storm ≠ 0)
    (hn : s.flt.storm.toNat ≤ (s.flt.perUnit.filter (s.inHour v)).length) : exec (.transStorm u) s =
      .next (({ s with flt := { s.flt with perUnit := s.flt.perUnit.filter (fun p => !s.inHour v p) } } : State).event
        0x0E01 srcSlice (unitWords v)) := by
  change execTransStorm u s = _
  unfold execTransStorm
  rw [hu]
  exact congrArg Host.Outcome.next (if_neg (not_or.mpr ⟨h0, Nat.not_lt.mpr hn⟩))

theorem exec_transStorm_uncounted {u : FaultUnit} (hu : stormUnit u = none) : exec (.transStorm u) s = .next s := by
  change execTransStorm u s = _
  unfold execTransStorm
  rw [hu]

/-! ### Parity (R15, R16) -/

/-- Folding with exclusive or tells whether the number of set indexes is odd. -/
theorem foldl_xor_range (f : Nat → Bool) (n : Nat) : (List.range n).foldl (fun p i => p ^^ f i) false =
    decide (((List.range n).filter f).length % 2 = 1) := by
  induction n with
  | zero => rfl
  | succ n ih =>
    rw [List.range_succ, List.foldl_append, List.filter_append, List.length_append, ih]
    cases hf : f n
    · simp [hf]
    · simp only [List.foldl_cons, List.foldl_nil, List.filter_cons, List.filter_nil, hf, if_true, List.length_singleton,
        Bool.xor_true, ← decide_not, decide_eq_decide]
      omega

/-- A word passes with the parity column above it exactly when its 33 columns hold an even number of ones. -/
theorem parityOk_rowWord (r : BitVec 66) (k : Nat) : parityOk (rowWord r k) (r.getLsbD (33 * k + 32)) = true ↔
    ((List.range 33).filter (fun i => r.getLsbD (33 * k + i))).length % 2 = 0 := by
  have hword : (List.range 32).filter (fun i => (rowWord r k).getLsbD i) =
      (List.range 32).filter (fun i => r.getLsbD (33 * k + i)) :=
    List.filter_congr fun i hi => by
      rw [rowWord, BitVec.getLsbD_extractLsb', decide_eq_true (List.mem_range.mp hi), Bool.true_and]
  rw [parityOk, parityBit, foldl_xor_range, hword, List.range_succ (n := 32), List.filter_append, List.length_append]
  generalize ((List.range 32).filter (fun i => r.getLsbD (33 * k + i))).length = m
  cases hp : r.getLsbD (33 * k + 32)
  · simp [hp]
  · simp only [List.filter_cons, List.filter_nil, hp, if_true, List.length_singleton, beq_true, decide_eq_true_eq]
    omega

theorem rowOk_iff_even (r : BitVec 66) : rowOk r = true ↔
    ∀ w, w < 2 → ((List.range 33).filter (fun i => r.getLsbD (33 * w + i))).length % 2 = 0 := by
  rw [rowOk, Bool.and_eq_true, Nat.forall_lt_succ_right, Nat.forall_lt_succ_right]
  simp only [Nat.not_lt_zero, false_implies, implies_true, true_and]
  exact and_congr (parityOk_rowWord r 0) (parityOk_rowWord r 1)

/-! ### What a WEDGING_READ does (R299, R327, R328, R341) -/

/-- A row that passes is nothing; one that fails is what its second read makes of it (R328). -/
theorem State.finding_reads (s : State) (u : FaultUnit) (first second : BitVec 66) :
    s.finding (.reads u first second) = s.finding
      (if rowOk first then .pass else if rowOk second then .transient u else .lasting u) := by
  unfold State.finding
  dsimp only
  split
  · rfl
  · split <;> rfl

theorem exec_wedgingRead_reads (s : State) (u : FaultUnit) (first second : BitVec 66) :
    exec (.wedgingRead (.reads u first second)) s = exec (.wedgingRead
      (if rowOk first then .pass else if rowOk second then .transient u else .lasting u)) s :=
  congrArg State.done (State.finding_reads _ u first second)

theorem does_wedgingRead_pass (he : s.flt.wedgeEn = true) (hs : s.flt.scrubs = []) {b : Nat} (hb : b < 272)
    (hr : tget 0 s.flt.rows b < 66559) :
    Does (.wedgingRead .pass) s (fun t => t = { s with flt := { s.flt with rows := s.rowsAfter } }) := by
  refine ⟨_, ?_, rfl⟩
  change State.done s.wedge.scrubStep = _
  rw [State.wedge_reads he hb hr, State.scrubStep_none (by exact hs)]
  rfl

theorem does_wedgingRead_scrubbed {d : Nat} {rows : Table Nat} (he : s.flt.wedgeEn = false) (h : s.flt.scrubs = [(d, rows)])
    (ha : allRead (s.scrubBanks (s.ctx d).desc) (s.readBanks (s.scrubBanks (s.ctx d).desc) rows) = true) :
    Does (.wedgingRead .pass) s (fun t => t.flt = { s.flt with scrubs := [] } ∧
      t.ctx d = { s.ctx d with phase := .done, status := stOk, detail := 0, need := [], out := 0 } ∧
      Keeps [.cmds, .flt] s t) := by
  let s1 : State := { s with flt := { s.flt with scrubs := [] } }
  refine ⟨s1.endCtx d stOk 0, ?_, rfl, (State.modCtx_ctx s1 d d _).trans (if_pos rfl),
    keeps_then (keeps_more upd_flt rfl) (keeps_endCtx s1 d stOk 0) rfl⟩
  change State.done s.wedge.scrubStep = _
  rw [State.wedge_off he, State.scrubStep_last h ha]
  rfl

/-- Settles O53: an interval takes every unit one row further (`rowsAfter`), a read's finding follows the parity of its two
rows (`rowOk_iff_even`), and a storm takes out what it counted. -/
theorem faultsAreFoundAndCounted : Obligations.FaultsAreFoundAndCounted := by
  intro s u d rows first second mine even
  have hfirst : rowOk first = true ↔ even first := rowOk_iff_even first
  have hsecond : rowOk second = true ↔ even second := rowOk_iff_even second
  refine ⟨?_, does_wedgingRead_scrubbed, ?_, ?_, exec_transStorm_uncounted⟩
  · rintro he hs ⟨b, hb, hr⟩
    obtain ⟨t, hexec, rfl⟩ := does_wedgingRead_pass he hs hb hr
    exact ⟨_, hexec, fun b => State.rowsAfter_bank s, fun sh => State.rowsAfter_dir s, rfl, upd_flt⟩
  · intro he hs
    have hreads := exec_wedgingRead_reads s u first second
    refine ⟨exec_wedgingRead_transient he hs u, exec_wedgingRead_quiet he hs (.lasting u), fun h1 => ?_, fun h1 h2 => ?_,
      fun h1 h2 => ?_⟩
    · rw [hreads, if_pos (hfirst.mpr h1), exec_wedgingRead_quiet he hs]
      rfl
    · rw [hreads, if_neg (mt hfirst.mp h1), if_pos (hsecond.mpr h2)]
    · rw [hreads, if_neg (mt hfirst.mp h1), if_neg (mt hsecond.mp h2)]
  · intro v hv h0 hn
    refine ⟨_, exec_transStorm_counted hv h0 hn, State.event_flt _ _ _ _, event_evt_setFlt s _ _ _ _, ?_⟩
    exact keeps_then (keeps_more upd_flt rfl) (keeps_event _ _ _ _) rfl

end Sys2Proof.Machine
end

section
/-! Sleep and wake of shelves and halves (R27, R32, R410 to R415, R445): what the shared operations do to a half's clocks and
levels, then one lemma per row of the sleep sequence. -/
namespace Sys2Proof.Machine

variable {s t : State} {half : Half}

/-! ### Reading halves, levels and doze bits -/

/-- Every half but this one is the same in both states. -/
def State.OthersStay (half : Half) (s t : State) : Prop := ∀ h, h ≠ half → t.half h = s.half h

/-- What a half asks of its supply and of its clock sources (R402, R412). -/
def State.levels (s : State) : Half → BitVec 2 × BitVec 2
  | .a => (s.out.vreqA, s.out.pllA)
  | .b => (s.out.vreqB, s.out.pllB)

theorem half_of_ckp (h : t.ckp = s.ckp) (k : Half) : t.half k = s.half k := by
  cases k
  · exact congrArg Clocks.a h
  · exact congrArg Clocks.b h

@[simp] theorem State.vreq_half (s : State) (h k : Half) (v : BitVec 2) : (s.vreq h v).half k = s.half k :=
  half_of_ckp (State.vreq_ckp s h v) k
@[simp] theorem State.pllreq_half (s : State) (h k : Half) (v : BitVec 2) : (s.pllreq h v).half k = s.half k :=
  half_of_ckp (State.pllreq_ckp s h v) k
@[simp] theorem State.draw_half (s : State) (k : Half) : s.draw.2.half k = s.half k := half_of_ckp (State.draw_ckp s) k

@[simp] theorem State.vreq_levels (s : State) (h : Half) (v : BitVec 2) : (s.vreq h v).levels h = (v, (s.levels h).2) := by
  cases h <;> rfl
@[simp] theorem State.pllreq_levels (s : State) (h : Half) (v : BitVec 2) :
    (s.pllreq h v).levels h = ((s.levels h).1, v) := by
  cases h <;> rfl
@[simp] theorem State.modHalf_levels (s : State) (h k : Half) (f : HalfClk → HalfClk) :
    (s.modHalf h f).levels k = s.levels k := by
  cases h <;> cases k <;> rfl

theorem State.modHalf_othersStay (s : State) (h : Half) (f : HalfClk → HalfClk) : State.OthersStay h s (s.modHalf h f) :=
  fun k hk => by rw [State.modHalf_half, if_neg hk]

@[simp] theorem State.modHalf_enabledPorts (s : State) (h k : Half) (f : HalfClk → HalfClk) :
    (s.modHalf h f).enabledPorts k = s.enabledPorts k := by
  cases h <;> rfl

/-- A half that stays awake asks for nothing more; the others are as they were. -/
theorem State.stayAwake_half (s : State) (h k : Half) : (s.stayAwake h).half k =
    if k = h then { s.half h with st := .awake, acks := [], wakeAsked := false } else s.half k :=
  (half_of_ckp (kept_ckp (keeps_dropSlp _ h) rfl) k).trans (State.setHalf_half s h k _)

theorem getLsbD_setBit_false {n : Nat} (v : BitVec n) (i j : Nat) :
    (setBit v i false).getLsbD j = (v.getLsbD j && decide (j ≠ i)) := by
  by_cases hj : j < n
  · simp only [setBit, Bool.false_eq_true, if_false, BitVec.getLsbD_and, BitVec.getLsbD_not, BitVec.getLsbD_shiftLeft,
      BitVec.getLsbD_one, hj, decide_true, Bool.true_and]
    congr 1
    rcases Nat.lt_trichotomy j i with hij | rfl | hij
    · simp [hij, Nat.ne_of_lt hij]
    · simp [Nat.zero_lt_of_lt hj]
    · simp [Nat.not_lt_of_gt hij, Nat.ne_of_gt hij, Nat.sub_ne_zero_of_lt hij]
  · rw [BitVec.getLsbD_of_ge _ j (Nat.le_of_not_lt hj), BitVec.getLsbD_of_ge v j (Nat.le_of_not_lt hj), Bool.false_and]

theorem setBit_false_of_clear {n : Nat} {v : BitVec n} {i : Nat} (h : v.getLsbD i = false) : setBit v i false = v := by
  refine BitVec.eq_of_getLsbD_eq fun j _ => ?_
  rw [getLsbD_setBit_false]
  by_cases hj : j = i
  · rw [hj, h, Bool.false_and]
  · rw [decide_eq_true hj, Bool.and_true]

theorem getLsbD_foldl_clear {n : Nat} (l : List Nat) (v : BitVec n) (j : Nat) :
    (l.foldl (fun v i => setBit v i false) v).getLsbD j = (v.getLsbD j && decide (j ∉ l)) := by
  induction l generalizing v with
  | nil => simp
  | cons i l ih => rw [List.foldl_cons, ih, getLsbD_setBit_false]; simp [Bool.and_assoc]

/-- A shelf below 16 is one of a half's shelves exactly when the half is its own. -/
theorem notMem_halfShelves (half : Half) {i : Nat} (hi : i < 16) : i ∉ halfShelves half ↔ shelfHalf i ≠ half := by
  revert i
  cases half <;> decide

/-! ### Doze -/

theorem exec_shelfDoze_clocked {sh : Fin 16} (h0 : s.ckp.dozeIdle ≠ 0) (h1 : (s.half (shelfHalf sh.val)).st = .awake)
    (h2 : s.dozeBar sh.val = false) (h3 : s.shelfWanted sh.val = false) : exec (.shelfDoze sh) s =
      .next { s with ckp := { s.ckp with doze := setBit s.ckp.doze sh.val true } } :=
  if_pos ⟨h0, h1, by rw [h2]; rfl, by rw [h3]; rfl⟩

theorem exec_shelfDoze_idle {sh : Fin 16} (h : ¬(s.ckp.dozeIdle ≠ 0 ∧ (s.half (shelfHalf sh.val)).st = .awake ∧
    s.dozeBar sh.val = false ∧ s.shelfWanted sh.val = false)) : exec (.shelfDoze sh) s = .next s :=
  if_neg fun ⟨h0, h1, h2, h3⟩ => h ⟨h0, h1, by simpa using h2, by simpa using h3⟩

/-- The wake of a shelf clears its doze bit, and no other field of the clocks changes. -/
theorem State.shelfAwake_ckp (s : State) (sh : Nat) :
    (s.shelfAwake sh).ckp = { s.ckp with doze := setBit s.ckp.doze sh false } := by
  unfold State.shelfAwake
  split
  · exact kept_ckp (keeps_count _ _ _ _) rfl
  · rename_i h
    rw [setBit_false_of_clear (Bool.not_eq_true _ ▸ h)]

theorem foldl_shelfAwake_ckp (l : List Nat) (s : State) : (l.foldl State.shelfAwake s).ckp =
    { s.ckp with doze := l.foldl (fun v i => setBit v i false) s.ckp.doze } := by
  induction l generalizing s with
  | nil => rfl
  | cons i l ih => rw [List.foldl_cons, ih, State.shelfAwake_ckp]; rfl

theorem exec_shelfWakeDone_dozing {sh : Fin 16} (h0 : s.ckp.doze.getLsbD sh.val = true)
    (h1 : (s.half (shelfHalf sh.val)).st = .awake) :
    exec (.shelfWakeDone sh) s = .next (s.shelfAwake sh.val).releaseHeld.settle :=
  if_pos ⟨h0, h1⟩

/-! ### The handshake with the ports (R411, R445) -/

/-- The entry begins once every enabled port of an asking half has acknowledged. -/
theorem State.askDone_half (s : State) (h k : Half) : (s.askDone h).half k =
    if k = h ∧ (s.half h).st = .asking ∧ (s.enabledPorts h).all (fun p => (s.half h).acks.contains p) = true then
      { s.half h with st := .entering } else s.half k := by
  unfold State.askDone
  dsimp only
  by_cases ha : (s.half h).st = .asking ∧ (s.enabledPorts h).all (fun p => (s.half h).acks.contains p) = true
  · rw [if_pos ha, State.setHalf_half]
    simp only [ha, and_true]
  · rw [if_neg ha, if_neg (fun hk => ha hk.2)]

theorem State.askDone_othersStay (s : State) (h : Half) : State.OthersStay h s (s.askDone h) :=
  fun k hk => by rw [State.askDone_half, if_neg (fun e => hk e.1)]

theorem exec_halfRetentionStart (hr : s.retMay half = true) : ∃ t, exec (.halfRetentionStart half) s = .next t ∧
    t.half half = { s.half half with
      st := if s.enabledPorts half = [] then .entering else .asking, acks := [], wakeAsked := false } ∧
    State.OthersStay half s t ∧ t.out = { s.out with slpReq := s.out.slpReq ++ s.enabledPorts half } ∧
    Keeps [.ckp, .out] s t := by
  let s1 := s.modHalf half (fun c => { c with st := .asking, acks := [], wakeAsked := false })
  let s2 : State := { s1 with out := { s1.out with slpReq := s1.out.slpReq ++ s1.enabledPorts half } }
  have hhalf : ∀ k, s2.half k = s1.half k := half_of_ckp rfl
  have hports : s2.enabledPorts half = s.enabledPorts half := State.modHalf_enabledPorts s half half _
  refine ⟨s2.askDone half, if_pos hr, ?_, fun k hk => ?_, ?_, ?_⟩
  · rw [State.askDone_half, hports, hhalf half, State.modHalf_half]
    cases s.enabledPorts half <;> simp
  · rw [State.askDone_othersStay s2 half k hk, hhalf k, State.modHalf_half, if_neg hk]
  · rw [kept_out (keeps_askDone s2 half) rfl]
    simp only [s2, s1, State.modHalf_out, State.modHalf_enabledPorts]
  · have h2 : Keeps [.ckp, .out] s s2 := keeps_then (keeps_more (keeps_modHalf s half _) rfl) (upd_out (s := s1)) rfl
    exact keeps_then h2 (keeps_askDone s2 half) rfl

theorem exec_xSlpAck_asking {port : SleepPort} (hp : sleepHalf port = half) (ha : (s.half half).st = .asking) :
    ∃ t, exec (.xSlpAck port) s = .next t ∧ t.half half = { s.half half with
      acks := (s.half half).acks ++ [port],
      st := if (s.enabledPorts half).all (fun p => ((s.half half).acks ++ [port]).contains p) then .entering else .asking } ∧
    State.OthersStay half s t ∧ Keeps [.ckp] s t := by
  subst hp
  let s1 := s.modHalf (sleepHalf port) (fun c => { c with acks := c.acks ++ [port] })
  refine ⟨s1.askDone (sleepHalf port), if_pos ha, ?_, fun k hk => ?_, ?_⟩
  · rw [State.askDone_half, State.modHalf_enabledPorts, State.modHalf_half, if_pos rfl]
    simp only [ha, true_and]
    split
    · rfl
    · rw [← ha]
  · rw [State.askDone_othersStay s1 _ k hk, State.modHalf_othersStay s _ _ k hk]
  · exact keeps_then (keeps_modHalf s _ _) (keeps_askDone s1 _) rfl

theorem exec_xSlpNak_asking {port : SleepPort} (hp : sleepHalf port = half) (ha : (s.half half).st = .asking) :
    exec (.xSlpNak port) s = .next (s.stayAwake half) := by
  subst hp
  exact congrArg Host.Outcome.next (if_pos ha)

theorem State.stayAwake_out (s : State) (h : Half) :
    (s.stayAwake h).out = { s.out with slpReq := s.out.slpReq.filter (fun p => sleepHalf p != h) } := by
  cases h <;> rfl

theorem State.stayAwake_othersStay (s : State) (h : Half) : State.OthersStay h s (s.stayAwake h) :=
  fun k hk => by rw [State.stayAwake_half, if_neg hk]

/-! ### Entry (R347, R412) -/

theorem exec_retentionEntryDone_fitting (hf : s.fittingIn half = true) : exec (.retentionEntryDone half) s = .next s :=
  if_neg fun h => by simp [hf] at h

theorem exec_retentionEntryDone (he : (s.half half).st = .entering) (hf : s.fittingIn half = false) :
    exec (.retentionEntryDone half) s =
      .next (((s.modHalf half (fun c => { c with st := .retained })).vreq half 1).pllreq half 0) :=
  if_pos ⟨he, by rw [hf]; rfl⟩

/-! ### Wake (R413, R414) -/

theorem State.wakeHalf_retained (h : (s.half half).st = .retained) :
    s.wakeHalf half = s.setHalf half { s.half half with wakeAsked := true } := by
  unfold State.wakeHalf
  dsimp only
  rw [h]

/-- A wake during the entry: it is noted where one was or a coolant stop is on, else the entry's point of no return, a free
value, decides (R412, log 7). -/
theorem State.wakeHalf_entering (h : (s.half half).st = .entering) : s.wakeHalf half =
    if (s.half half).wakeAsked || s.ckp.coolActive then s.setHalf half { s.half half with wakeAsked := true }
    else if s.draw.1.getLsbD 0 then s.draw.2.stayAwake half
    else s.draw.2.setHalf half { s.half half with wakeAsked := true } := by
  unfold State.wakeHalf
  dsimp only
  rw [h]

theorem State.wakeHalf_entering_half (h : (s.half half).st = .entering) :
    (s.wakeHalf half).half half = { s.half half with wakeAsked := true } ∨
    ((s.half half).wakeAsked = false ∧ s.ckp.coolActive = false ∧
      (s.wakeHalf half).half half = { s.half half with st := .awake, acks := [] }) := by
  rw [State.wakeHalf_entering h]
  split
  · exact .inl (by rw [State.setHalf_half, if_pos rfl])
  · rename_i hw
    obtain ⟨hw, hc⟩ := Bool.or_eq_false_iff.mp (Bool.not_eq_true _ ▸ hw)
    split
    · exact .inr ⟨hw, hc, by rw [State.stayAwake_half, if_pos rfl, State.draw_half, ← hw]⟩
    · exact .inl (by rw [State.setHalf_half, if_pos rfl])

theorem State.wakeHalf_entering_othersStay (h : (s.half half).st = .entering) :
    State.OthersStay half s (s.wakeHalf half) := by
  intro k hk
  rw [State.wakeHalf_entering h]
  split
  · rw [State.setHalf_half, if_neg hk]
  · split
    · rw [State.stayAwake_othersStay _ _ k hk, State.draw_half]
    · rw [State.setHalf_half, if_neg hk, State.draw_half]

theorem exec_halfWake (hr : (s.half half).st = .retained) (hw : (s.half half).wakeAsked = true)
    (hc : s.ckp.coolActive = false) : exec (.halfWake half) s = .next (s.wakeStart half) :=
  congrArg Host.Outcome.next (if_pos ⟨hr, hw, by rw [hc]; rfl⟩)

theorem exec_halfWake_cooling (hc : s.ckp.coolActive = true) : exec (.halfWake half) s = .next s :=
  congrArg Host.Outcome.next (if_neg fun h => by simp [hc] at h)

theorem State.wakeStart_half (s : State) (h k : Half) : (s.wakeStart h).half k =
    if k = h then { s.half h with st := .vddUp, wakeAsked := false } else s.half k := by
  cases h <;> cases k <;> rfl

theorem State.wakeStart_mgmtRet (s : State) (h : Half) : (s.wakeStart h).ckp.mgmtRet = false := by cases h <;> rfl

theorem State.wakeStart_levels (s : State) (h : Half) : (s.wakeStart h).levels h = (2, (s.levels h).2) := by
  cases h <;> rfl

theorem exec_hlfVok (hv : (s.half half).st = .vddUp) : exec (.hlfVok half) s =
    .next ((s.modHalf half (fun c => { c with st := .locking })).pllreq half (if (s.half half).cur then 2 else 1)) :=
  congrArg Host.Outcome.next (if_pos hv)

theorem exec_hlfPllok (hl : (s.half half).st = .locking) :
    exec (.hlfPllok half) s = .next (s.modHalf half (fun c => { c with st := .restoring })) :=
  congrArg Host.Outcome.next (if_pos hl)

/-! ### The half is awake (R27, R413, R414) -/

/-- The half and its shelves are awake, and its far port goes on; what waited has not gone on yet. -/
def State.restored (s : State) (half : Half) : State :=
  ((halfShelves half).foldl State.shelfAwake
    ((s.stayAwake half).modHalf half (fun c => { c with recovering := false }))).farPump (halfIx half)

theorem State.restored_ckp (s : State) (half : Half) : (s.restored half).ckp =
    { ((s.stayAwake half).modHalf half (fun c => { c with recovering := false })).ckp with
      doze := (halfShelves half).foldl (fun v i => setBit v i false) s.ckp.doze } := by
  rw [State.restored, kept_ckp (keeps_farPump _ _) rfl, foldl_shelfAwake_ckp]
  cases half <;> rfl

theorem State.restored_half (s : State) (half k : Half) : (s.restored half).half k =
    if k = half then { s.half half with st := .awake, acks := [], wakeAsked := false, recovering := false }
    else s.half k := by
  have hk : (s.restored half).half k =
      ((s.stayAwake half).modHalf half (fun c => { c with recovering := false })).half k := by
    cases k <;> simp only [State.half, State.restored_ckp]
  rw [hk, State.modHalf_half, State.stayAwake_half, State.stayAwake_half, if_pos rfl]
  split <;> rfl

theorem State.restored_doze (s : State) (half : Half) {i : Nat} (hi : i < 16) :
    (s.restored half).ckp.doze.getLsbD i = (s.ckp.doze.getLsbD i && decide (shelfHalf i ≠ half)) := by
  rw [State.restored_ckp, getLsbD_foldl_clear]
  simp only [notMem_halfShelves half hi]

theorem State.restored_keeps (s : State) (half : Half) :
    Keeps [.free, .pmu, .ckp, .links, .out] s (s.restored half) := by
  have h1 : Keeps [.free, .pmu, .ckp, .links, .out] s (s.stayAwake half) := keeps_more (keeps_stayAwake s half) rfl
  have h2 := keeps_then h1 (keeps_modHalf _ half (fun c => { c with recovering := false })) rfl
  exact keeps_then (keeps_foldl (fun t sh h => keeps_then h (keeps_shelfAwake t sh) rfl) _ _ h2) (keeps_farPump _ _) rfl

theorem coolEnd_of_notActive (h : s.ckp.coolActive = false) : s.coolEnd = s :=
  if_neg fun hc => by simp [h] at hc

theorem goDue_of_notWaiting (h : s.ep.goWaits = false) : s.goDue = s :=
  if_neg fun hc => by simp [h] at hc

/-- Outside a coolant stop, and with no step waiting for its end, the wake of a half ends with what waited going on. -/
theorem State.halfAwake_eq (hc : s.ckp.coolActive = false) (hg : s.ep.goWaits = false) :
    s.halfAwake half = (s.restored half).releaseBridge.releaseHeld := by
  let s1 := (s.stayAwake half).modHalf half (fun c => { c with recovering := false })
  let s2 := (halfShelves half).foldl State.shelfAwake s1
  have hcool : s2.coolEnd = s2 := coolEnd_of_notActive (by
    rw [foldl_shelfAwake_ckp]
    cases half <;> exact hc)
  have hgo : s2.goDue = s2 := goDue_of_notWaiting (by
    have hep : Keeps [.free, .pmu, .ckp] s1 s2 :=
      keeps_foldl (fun t sh h => keeps_then h (keeps_shelfAwake t sh) rfl) _ _ (keeps_refl s1)
    rw [kept_ep hep rfl, State.modHalf_ep, kept_ep (keeps_stayAwake s half) rfl, hg])
  change ((s2.coolEnd.goDue).farPump (halfIx half)).releaseBridge.releaseHeld = _
  rw [hcool, hgo]
  rfl

/-- The access that the sleep held is still held when what waited has gone on. -/
theorem State.halfAwake_apb (s : State) (half : Half) : (s.halfAwake half).apb = s.apb :=
  kept_apb (keeps_halfAwake s half) rfl

theorem exec_halfWakeDone_noAccess (hr : (s.half half).st = .restoring) (hh : s.apb.held = none) :
    exec (.halfWakeDone half) s = .next (s.halfAwake half).settle := by
  refine (if_pos hr).trans ?_
  rw [State.halfAwake_apb, hh]
  rfl

theorem exec_halfWakeDone_access {a : Held} (hr : (s.half half).st = .restoring) (hh : s.apb.held = some a) :
    exec (.halfWakeDone half) s = .next (if pageHalf (a.addr.toNat / 0x1000) = some half then
      (s.halfAwake half).perform a else s.halfAwake half).settle := by
  refine (if_pos hr).trans ?_
  rw [State.halfAwake_apb, hh]
  rfl

theorem exec_mgmtRetention (ha : (s.half .a).st = .retained) (hb : (s.half .b).st = .retained)
    (he : s.ckp.retCfg.getLsbD 18 = true) (hr : ∀ n, n < 16 → (s.ring n).en = false) (hl : s.fw.stage ≠ .loading) :
    exec .mgmtRetention s = .next { s with ckp := { s.ckp with mgmtRet := true } } := by
  have hrings : (List.range 16).all (fun n => !(s.ring n).en) = true := by
    simpa only [List.all_eq_true, List.mem_range, Bool.not_eq_true'] using hr
  refine congrArg Host.Outcome.next (if_pos ?_)
  rw [ha, hb, he, hrings, bne_iff_ne.mpr hl]
  rfl

/-- Settles O58: each row of the sleep sequence by its lemma above; a wake leaves to `releaseBridge` and `releaseHeld` what
its sleep held back. -/
theorem halvesSleepAndWake : Obligations.HalvesSleepAndWake := by
  intro s sh half port c ports other levels level clocked
  have hlevels : ∀ t, levels t = t.levels half := fun t => by cases half <;> rfl
  refine ⟨?_, exec_shelfDoze_idle, ?_, exec_halfRetentionStart, ?_, ?_, ?_, ?_, ?_, ?_, ?_, ?_, ?_, ?_⟩
  · rintro ⟨h0, h1, h2, h3⟩
    exact ⟨_, exec_shelfDoze_clocked h0 h1 h2 h3, rfl, upd_ckp⟩
  · intro hd ha
    exact ⟨s.shelfAwake sh.val, exec_shelfWakeDone_dozing hd ha, State.shelfAwake_ckp s sh.val, keeps_shelfAwake s sh.val⟩
  · intro hp ha
    exact ⟨exec_xSlpAck_asking hp ha, s.stayAwake half, exec_xSlpNak_asking hp ha,
      (State.stayAwake_half s half half).trans (if_pos rfl), State.stayAwake_othersStay s half, State.stayAwake_out s half,
      keeps_stayAwake s half⟩
  · intro _ hf
    exact exec_retentionEntryDone_fitting hf
  · intro he hf
    refine ⟨_, exec_retentionEntryDone he hf, by simp [c], fun k hk => by simp [hk], by simp [hlevels], ?_⟩
    refine keeps_step (keeps_pllreq _ half 0) rfl (keeps_step (keeps_vreq _ half 1) rfl ?_)
    exact keeps_more (keeps_modHalf s half _) rfl
  · rintro rfl hr
    refine ⟨_, congrArg Host.Outcome.next (State.wakeHalf_retained hr), by simp [c], fun k hk => by simp [hk],
      keeps_setHalf _ _ _⟩
  · rintro rfl he
    exact ⟨s.wakeHalf (sleepHalf port), rfl, State.wakeHalf_entering_othersStay he, keeps_wakeHalf s _,
      State.wakeHalf_entering_half he⟩
  · intro hr hw
    refine ⟨fun hc => ⟨_, exec_halfWake hr hw hc, (State.wakeStart_half s half half).trans (if_pos rfl),
      State.wakeStart_mgmtRet s half, fun k hk => (State.wakeStart_half s half k).trans (if_neg hk), ?_,
      keeps_wakeStart s half⟩, exec_halfWake_cooling⟩
    rw [hlevels, State.wakeStart_levels]
    rw [← hlevels]
  · intro hv
    refine ⟨_, exec_hlfVok hv, by simp [c], fun k hk => by simp [hk], by simp [hlevels, level, c], ?_⟩
    exact keeps_then (keeps_more (keeps_modHalf s half _) rfl) (keeps_pllreq _ half _) rfl
  · intro hl
    exact ⟨_, exec_hlfPllok hl, by simp [c], State.modHalf_othersStay s half _, keeps_modHalf s half _⟩
  · intro hr hc hg
    have hawake := State.halfAwake_eq (half := half) hc hg
    refine ⟨s.restored half, (State.restored_half s half half).trans (if_pos rfl),
      fun k hk => (State.restored_half s half k).trans (if_neg hk), fun i => State.restored_doze s half,
      State.restored_keeps s half, fun hh => ?_, fun a hh => ?_⟩
    · rw [exec_halfWakeDone_noAccess hr hh, hawake]
    · rw [exec_halfWakeDone_access hr hh, hawake]
  · intro ha hb he hrings hl
    exact ⟨_, exec_mgmtRetention ha hb he hrings hl, rfl, upd_ckp⟩

end Sys2Proof.Machine
end

section
/-! Messages from a home shelf (R27, R138, R144, R440): how one reaches the sent messages, its channel or the seam bridge, and
what sending it leaves of the home. -/
namespace Sys2Proof.Machine

variable {s t u : State} {m : Msg} {ps : List Field}

theorem link_of_links (h : t.links = s.links) (p : Port) : t.link p = s.link p := by
  cases p with
  | agent n => rw [State.link, State.link, h]
  | near n => rw [State.link, State.link, h]
  | far n => rfl

theorem State.setLink_link (s : State) {p : Port} (hp : ∀ n, p ≠ .far n) (l : Link) : (s.setLink p l).link p = l := by
  cases p with
  | agent n => rw [State.link, State.setLink, tget_tset, if_pos rfl]
  | near n => rw [State.link, State.setLink, tget_tset, if_pos rfl]
  | far n => exact absurd rfl (hp n)

/-- Sending reads the sent messages, the links and the bridge of the state before it. -/
theorem State.Sends.after (h : t.Sends u m) (hm : t.out.msgs = s.out.msgs) (hl : t.links = s.links)
    (hb : t.home.bridge = s.home.bridge) : s.Sends u m := by
  rcases h with h | ⟨p, hp, h | ⟨sh, h⟩⟩
  · exact .inl (hm ▸ h)
  · exact .inr ⟨p, hp, .inl (link_of_links hl p ▸ h)⟩
  · exact .inr ⟨p, hp, .inr ⟨sh, hb ▸ h⟩⟩

/-- What keeps the sent messages, the links and the home keeps that a message was given out. -/
theorem State.Sends.then (h : s.Sends t m) (k : Keeps ps t u) (ho : ps.contains .out = false)
    (hl : ps.contains .links = false) (hh : ps.contains .home = false) : s.Sends u m := by
  rcases h with h | ⟨p, hp, h | ⟨sh, h⟩⟩
  · exact .inl (kept_out k ho ▸ h)
  · exact .inr ⟨p, hp, .inl ((congrArg Link.waiting (link_of_links (kept_links k hl) p)).trans h)⟩
  · exact .inr ⟨p, hp, .inr ⟨sh, (congrArg Home.bridge (kept_home k hh)).trans h⟩⟩

theorem State.transmit_msgs (s : State) (p : Port) (m : Msg) : (s.transmit p m).out.msgs = s.out.msgs ++ [m] := by
  simp only [State.transmit, State.setLink_out, State.coneBytes_out, State.portOutBytes_out]
  cases m.born with
  | none => rfl
  | some b => rfl

theorem State.emit_sends (s : State) (m : Msg) : s.Sends (s.emit m) m := by
  unfold State.emit
  split
  · exact .inl rfl
  · exact .inl (s.transmit_msgs _ m)
  · rename_i p hfar hp
    dsimp only
    split
    · exact .inl ((State.transmit_msgs _ p m).trans (by rw [State.setLink_out]))
    · refine .inr ⟨p, hp, .inl ?_⟩
      rw [State.setLink_link s hfar]

theorem State.wakeHalf_msgs (s : State) (h : Half) : (s.wakeHalf h).out.msgs = s.out.msgs := by
  unfold State.wakeHalf
  dsimp only
  split
  · rfl
  · cases h <;> rfl
  · split
    · rw [State.setHalf_out]
    · split
      · cases h <;> rfl
      · rw [State.setHalf_out, State.draw_out]
  · rw [State.setHalf_out]

theorem State.sendFrom_sends (s : State) (sh : Nat) (m : Msg) : s.Sends (s.sendFrom sh m) m := by
  unfold State.sendFrom
  split
  · rename_i p hp
    have kw := keeps_wakeHalf s p.half
    have sends : ∀ u, (s.wakeHalf p.half).Sends u m → s.Sends u m := fun u h =>
      h.after (s.wakeHalf_msgs p.half) (kept_links kw rfl) (congrArg Home.bridge (kept_home kw rfl))
    refine sends _ ?_
    dsimp only
    split
    · exact .inr ⟨p, hp, .inr ⟨sh, rfl⟩⟩
    · split
      · exact State.emit_sends _ m
      · exact (State.emit_sends _ m).then (keeps_count _ _ _ _) rfl rfl rfl
  · exact s.emit_sends m

/-- Of the home's lists only the seam bridge may differ. -/
def State.BridgeOnly (s t : State) : Prop := t.home = { s.home with bridge := t.home.bridge }

theorem bridgeOnly_of_home (h : t.home = s.home) : State.BridgeOnly s t := by rw [State.BridgeOnly, h]

theorem State.sendFrom_bridgeOnly (s : State) (sh : Nat) (m : Msg) : State.BridgeOnly s (s.sendFrom sh m) := by
  unfold State.sendFrom
  split
  · rename_i p hp
    have hw := kept_home (keeps_wakeHalf s p.half) rfl
    dsimp only
    split
    · rw [State.BridgeOnly, hw]
    · split
      · exact bridgeOnly_of_home ((kept_home (keeps_emit _ m) rfl).trans hw)
      · exact bridgeOnly_of_home
          ((kept_home (keeps_count _ _ _ _) rfl).trans ((kept_home (keeps_emit _ m) rfl).trans hw))
  · exact bridgeOnly_of_home (kept_home (keeps_emit s m) rfl)

theorem State.lastAnswer_bridgeOnly (s : State) (sh : Nat) (r : Req) (code : Nat) (f : Msg → Msg) :
    State.BridgeOnly s (s.lastAnswer sh r code f) := by
  unfold State.lastAnswer State.respond
  split
  · exact s.sendFrom_bridgeOnly sh _
  · exact bridgeOnly_of_home rfl

theorem State.lastAnswer_sends {r : Req} {id : AgentId} {q : Port} (hw : r.who = .agent id q) (s : State) (sh code : Nat)
    (f : Msg → Msg) :
    s.Sends (s.lastAnswer sh r code f) { f (msgTo (some q) id r.line r.txn r.cone code) with born := some r.born } := by
  rw [State.lastAnswer, State.respond, hw]
  exact s.sendFrom_sends sh _

end Sys2Proof.Machine
end

section
/-! Admission (R154, R156, R160): the head of a queue that may be admitted, the record that it opens, and what the home reads
of the line before and after. -/
namespace Sys2Proof.Machine

variable {s t : State} {line : LineIx} {r : Req} {g : Region} {i : Nat}

/-! ### The head of a queue (R154) -/

theorem length_dropFirst {α : Type} {p : α → Bool} {l : List α} (h : l.any p = true) :
    (dropFirst p l).length + 1 = l.length := by
  induction l with
  | nil => exact absurd h Bool.false_ne_true
  | cons a l ih =>
    rw [dropFirst]
    split
    · rfl
    · rename_i ha
      rw [List.any_cons, Bool.or_eq_true] at h
      rw [List.length_cons, List.length_cons, ih (h.resolve_left ha)]

theorem admissible_some (h : s.admissible line = some r) :
    r ∈ s.home.cq ∧ r.line = line ∧ s.lineOpen line = false := by
  unfold State.admissible at h
  cases hq : s.home.cq.find? (fun r => r.line == line && !s.heldBack r) with
  | none => simp only [hq, reduceCtorEq] at h
  | some q =>
    simp only [hq] at h
    obtain ⟨hopen, h⟩ := Option.ite_none_left_eq_some.mp h
    obtain rfl := Option.some.inj h
    have hl := List.find?_some hq
    simp only [Bool.and_eq_true, beq_iff_eq] at hl
    simp only [Bool.or_eq_true, not_or, Bool.not_eq_true] at hopen
    obtain ⟨⟨⟨⟨⟨⟨⟨⟨ho, _⟩, _⟩, _⟩, _⟩, _⟩, _⟩, _⟩, _⟩ := hopen
    exact ⟨List.mem_of_find?_eq_some hq, hl.1, ho⟩

theorem txnOf_none_of_closed (h : s.lineOpen line = false) : s.txnOf line = none := by
  rw [State.txnOf, List.find?_eq_none]
  intro t ht hl
  have hon : t.on line = true := by rw [Txn.on, hl, Bool.true_or]
  rw [State.lineOpen, List.any_eq_false] at h
  exact h t ht hon

/-! ### The home of a line: its region, shelf and bank

The three match on where the line lies, and the equation of such a definition would have the kernel compute the window's
bound; so each proof unfolds the definition by itself, before it is applied. -/

theorem window_of_boot (hb : t.boot = s.boot) : t.window = s.window := by
  rw [State.window, State.window, hb]

theorem place_of_kept (hs : t.syb = s.syb) (hb : t.boot = s.boot) (a : Nat) : t.place a = s.place a := by
  rw [State.place, State.place, window_of_boot hb, State.cfg, State.cfg, hs]

theorem regionOf_of_kept (hs : t.syb = s.syb) (hb : t.boot = s.boot) (l : LineIx) : t.regionOf l = s.regionOf l := by
  generalize hf : @State.regionOf = f
  delta State.regionOf at hf
  subst hf
  dsimp -zeta -iota only
  rw [place_of_kept hs hb]

theorem homeShelf_of_kept (hs : t.syb = s.syb) (hb : t.boot = s.boot) (l : LineIx) : t.homeShelf l = s.homeShelf l := by
  generalize hf : @State.homeShelf = f
  delta State.homeShelf at hf
  subst hf
  dsimp -zeta -iota only
  rw [regionOf_of_kept hs hb, State.cfg, State.cfg, hs]

theorem homeBank_of_kept (hs : t.syb = s.syb) (hb : t.boot = s.boot) (l : LineIx) : t.homeBank l = s.homeBank l := by
  generalize hf : @State.homeBank = f
  delta State.homeBank at hf
  subst hf
  dsimp -zeta -iota only
  rw [regionOf_of_kept hs hb, State.cfg, State.cfg, hs]

/-! ### Opening a record (R156, R159) -/

/-- A shelf without its scope audit and its high-water marks. -/
def Shelf.unaudited (h : Shelf) : Shelf := { h with audit := [], auditCnt := 0, txnHwm := 0, cqHwm := 0 }

theorem modShelf_unaudited {f : Shelf → Shelf} (hf : ∀ h, (f h).unaudited = h.unaudited) (s : State) (i j : Nat) :
    ((s.modShelf i f).shelf j).unaudited = (s.shelf j).unaudited := by
  rw [State.modShelf_shelf]
  split
  · rename_i h
    rw [hf, h]
  · rfl

theorem shelf_of_shelves (h : t.shelves = s.shelves) (j : Nat) : t.shelf j = s.shelf j := by
  rw [State.shelf, State.shelf, h]

theorem audit_unaudited (s : State) (sh : Nat) (r : Req) (j : Nat) :
    ((s.audit sh r).shelf j).unaudited = (s.shelf j).unaudited := by
  have counted : ∀ (f : Shelf → Shelf) (code : Nat) (a : Attr) (c : Nat) (ws : List Nat),
      (∀ h, (f h).unaudited = h.unaudited) →
      ((((s.modShelf sh f).event code sh ws).count c a 1).shelf j).unaudited = (s.shelf j).unaudited := by
    intro f code a c ws hf
    rw [shelf_of_shelves (kept_shelves (keeps_count _ _ _ _) rfl), shelf_of_shelves (kept_shelves (keeps_event _ _ _ _) rfl),
      modShelf_unaudited hf]
  have noted : ∀ (c : Bool) (f : Shelf → Shelf) (u : State), (∀ h, (f h).unaudited = h.unaudited) →
      (u.shelf j).unaudited = (s.shelf j).unaudited →
      ((if c then u.modShelf sh f else u).shelf j).unaudited = (s.shelf j).unaudited := by
    intro c f u hf hu
    split
    · rw [modShelf_unaudited hf, hu]
    · exact hu
  unfold State.audit
  split
  · rfl
  dsimp only
  split
  · rfl
  refine noted _ _ _ (by intro h; rfl) ?_
  split
  · split
    · exact counted _ _ _ _ _ fun h => rfl
    · rfl
  · rfl

/-- What reads neither the audit nor the marks of a shelf. -/
theorem eq_of_unaudited {α : Type} {a b : Shelf} (f : Shelf → α) (hf : ∀ h, f h.unaudited = f h)
    (h : a.unaudited = b.unaudited) : f a = f b := by
  rw [← hf a, h, hf]

/-- The record as it opens, before the directory and the marks show it. -/
def State.opening (s : State) (r : Req) : State :=
  let a := s.reqAttr r (s.homeShelf r.line) (some 0)
  let home := { s.home with cq := dropFirst (· == r) s.home.cq, txns := s.home.txns ++ [Txn.open r] }
  (({ s with home := home }.count 0x02 a 1).skidStep a).audit (s.homeShelf r.line) r

theorem openRecord_eq (s : State) (r : Req) :
    s.openRecord r = ((s.opening r).syncEntry r.line).marks (s.homeShelf r.line) := rfl

theorem keeps_opening (s : State) (r : Req) : Keeps [.free, .evt, .shelves, .home, .pmu] s (s.opening r) :=
  keeps_step (keeps_audit _ _ _) rfl (keeps_step (keeps_skidStep _ _) rfl (keeps_step (keeps_count _ _ _ _) rfl
    (keeps_more upd_home rfl)))

theorem opening_home (s : State) (r : Req) : (s.opening r).home =
    { s.home with cq := dropFirst (· == r) s.home.cq, txns := s.home.txns ++ [Txn.open r] } :=
  (kept_home (keeps_audit _ _ _) rfl).trans
    ((kept_home (keeps_skidStep _ _) rfl).trans (kept_home (keeps_count _ _ _ _) rfl))

theorem openRecord_home (s : State) (r : Req) : (s.openRecord r).home =
    { s.home with cq := dropFirst (· == r) s.home.cq, txns := s.home.txns ++ [Txn.open r] } :=
  (kept_home (keeps_marks _ _) rfl).trans ((kept_home (keeps_syncEntry _ _) rfl).trans (opening_home s r))

theorem opening_unaudited (s : State) (r : Req) (j : Nat) : ((s.opening r).shelf j).unaudited = (s.shelf j).unaudited := by
  refine (audit_unaudited _ _ _ _).trans ?_
  rw [shelf_of_shelves (kept_shelves (keeps_skidStep _ _) rfl), shelf_of_shelves (kept_shelves (keeps_count _ _ _ _) rfl)]
  rfl

theorem openRecord_unaudited (s : State) (r : Req) (j : Nat) :
    ((s.openRecord r).shelf j).unaudited = (s.shelf j).unaudited := by
  rw [openRecord_eq, State.marks]
  refine (modShelf_unaudited (by intro h; rfl) _ _ _).trans ?_
  rw [shelf_of_shelves (kept_shelves (keeps_syncEntry _ _) rfl), opening_unaudited]

theorem way_of_dir (h : t.dir = s.dir) (k : Nat) : t.way k = s.way k := by
  rw [State.way, State.way, h]

theorem wayOf_of_dir (h : t.dir = s.dir) (sh : Nat) (l : LineIx) : t.wayOf sh l = s.wayOf sh l := by
  simp only [State.wayOf, way_of_dir h]

theorem setWay_way (s : State) (k j : Nat) (e : DirEntry) : (s.setWay k e).way j = if j = k then e else s.way j :=
  tget_tset k j e

theorem txnOf_opening (h : s.lineOpen r.line = false) : (s.opening r).txnOf r.line = some (Txn.open r) := by
  have hn : s.home.txns.find? (fun t => t.req.line == r.line) = none := txnOf_none_of_closed h
  rw [State.txnOf, opening_home, List.find?_append, hn, Option.none_or, List.find?_cons_of_pos]
  exact beq_self_eq_true r.line

/-- The entry of the line shows the open record (R132, R159; log 64). -/
theorem openRecord_way (h : s.lineOpen r.line = false) (k : Nat) : (s.openRecord r).way k =
    if s.wayOf (s.homeShelf r.line) r.line = some k then { s.way k with t := true, tstate := 0 } else s.way k := by
  have ko := keeps_opening s r
  have hd : (s.opening r).dir = s.dir := kept_dir ko rfl
  rw [openRecord_eq, way_of_dir (kept_dir (keeps_marks _ _) rfl), State.syncEntry, txnOf_opening h,
    homeShelf_of_kept (kept_syb ko rfl) (kept_boot ko rfl), wayOf_of_dir hd]
  cases hw : s.wayOf (s.homeShelf r.line) r.line with
  | none => exact way_of_dir hd k
  | some j =>
    dsimp only
    rw [setWay_way, way_of_dir hd, way_of_dir hd]
    by_cases hk : k = j
    · rw [if_pos hk, if_pos (congrArg some hk.symm), hk]
      rfl
    · rw [if_neg hk, if_neg (fun h => hk (Option.some.inj h).symm)]

theorem openRecord_wayOf (h : s.lineOpen r.line = false) :
    (s.openRecord r).wayOf (s.homeShelf r.line) r.line = s.wayOf (s.homeShelf r.line) r.line := by
  refine congrArg (fun p => List.find? p _) (funext fun k => ?_)
  rw [openRecord_way h]
  split
  · rename_i hw
    have hu := List.find?_some hw
    rw [Bool.and_eq_true] at hu
    rw [hu.1]
    simp only [DirEntry.used, Bool.or_true]
  · rfl

/-! ### What the home reads of the request is the same before and after (R116, R202, R203) -/

@[simp] theorem openRecord_homeShelf (s : State) (r : Req) (l : LineIx) : (s.openRecord r).homeShelf l = s.homeShelf l :=
  homeShelf_of_kept (kept_syb (keeps_openRecord s r) rfl) (kept_boot (keeps_openRecord s r) rfl) l

@[simp] theorem openRecord_cfg (s : State) (r : Req) : (s.openRecord r).cfg = s.cfg := by
  rw [State.cfg, State.cfg, kept_syb (keeps_openRecord s r) rfl]

@[simp] theorem openRecord_tag (s : State) (r : Req) (x : Slot) : (s.openRecord r).tag x = s.tag x := by
  rw [State.tag, State.tag, kept_arr (keeps_openRecord s r) rfl]

@[simp] theorem openRecord_agent (s : State) (r : Req) (id : AgentId) : (s.openRecord r).agent id = s.agent id := by
  rw [State.agent, State.agent, kept_agents (keeps_openRecord s r) rfl]

@[simp] theorem openRecord_quenching (s : State) (r : Req) : (s.openRecord r).quenching = s.quenching := by
  rw [State.quenching, State.quenching, kept_ep (keeps_openRecord s r) rfl]

@[simp] theorem openRecord_missing (s : State) (r : Req) (l : LineIx) : (s.openRecord r).missing l = s.missing l := by
  rw [State.missing, State.missing, kept_back (keeps_openRecord s r) rfl]

@[simp] theorem openRecord_group (s : State) (r : Req) (j : Nat) : ((s.openRecord r).shelf j).group = (s.shelf j).group :=
  eq_of_unaudited Shelf.group (fun _ => rfl) (openRecord_unaudited s r j)

@[simp] theorem openRecord_gwDis (s : State) (r : Req) (j : Nat) : ((s.openRecord r).shelf j).gwDis = (s.shelf j).gwDis :=
  eq_of_unaudited Shelf.gwDis (fun _ => rfl) (openRecord_unaudited s r j)

@[simp] theorem openRecord_caches (s : State) (r : Req) (b : Nat) : (s.openRecord r).caches b = s.caches b := by
  have hu := openRecord_unaudited s r (b / 16)
  rw [State.caches, State.caches, openRecord_cfg, eq_of_unaudited Shelf.bankEn (fun _ => rfl) hu,
    eq_of_unaudited Shelf.retired (fun _ => rfl) hu]

@[simp] theorem openRecord_slotOf (s : State) (r : Req) (l : LineIx) : (s.openRecord r).slotOf l = s.slotOf l := by
  have ko := keeps_openRecord s r
  rw [State.slotOf, State.slotOf, homeBank_of_kept (kept_syb ko rfl) (kept_boot ko rfl), openRecord_caches]
  simp only [State.slotIn, openRecord_tag]

@[simp] theorem openRecord_hit (s : State) (r : Req) (l : LineIx) : (s.openRecord r).hit l = s.hit l := by
  simp only [State.hit, State.liveSlot, openRecord_slotOf, openRecord_tag, kept_flt (keeps_openRecord s r) rfl]

theorem openRecord_grants (h : s.lineOpen r.line = false) (id : AgentId) :
    ((s.openRecord r).entryOf r.line).grants id = (s.entryOf r.line).grants id := by
  rw [State.entryOf, State.entryOf, openRecord_homeShelf, openRecord_wayOf h]
  cases hw : s.wayOf (s.homeShelf r.line) r.line with
  | none => rfl
  | some k =>
    dsimp only
    rw [openRecord_way h, if_pos hw]
    rfl

/-- Opening the record does not change whether the request is answered with Poison (R116, R224, R379). -/
theorem openRecord_refuses (h : s.lineOpen r.line = false) (g : Region) :
    ((s.openRecord r).refuses r g).isNone = (s.refuses r g).isNone := by
  unfold State.refuses
  simp only [openRecord_homeShelf, openRecord_slotOf, openRecord_tag, openRecord_grants h, openRecord_group]
  split
  · rfl
  · split
    · simp only [Option.isNone_some]
    · split
      · simp only [Option.isNone_some]
      · simp only [apply_ite Option.isNone, Option.isNone_some, Option.isNone_none]

theorem openRecord_greenOk (s : State) (r : Req) (g : Region) : (s.openRecord r).greenOk r g = s.greenOk r g := by
  simp only [State.greenOk, openRecord_homeShelf, openRecord_agent, openRecord_cfg, openRecord_quenching, openRecord_gwDis,
    openRecord_hit, openRecord_missing]

/-! ### The rows (R154, R156, R160, R202) -/

theorem exec_admitReq_barred (h : s.admissible line = none) (pend : Bool) :
    exec (.admitReq line pend) s = .next s.settle := by
  show execAdmitReq line pend s = _
  rw [execAdmitReq, h]
  rfl

/-- A request of the slice's own upkeep is served here whatever the role; another where the role is one that serves (R374). -/
theorem role_serves {x : Role} (hr : r.who.isMirror = true ∨ x ∈ [Role.single, .writer, .solo]) :
    r.who.isMirror = true ∨ x ≠ .fenced ∧ x ≠ .forward ∧ x ≠ .wait ∧ x ≠ .soloWait :=
  hr.imp_right (by cases x <;> decide)

/-- The head of a queue leaves it and opens the line's record, which the directory shows (R154, R156, R159; log 64). -/
theorem openRecord_of_admissible (ha : s.admissible line = some r) :
    (s.openRecord r).home.txns = s.home.txns ++ [Txn.open r] ∧
    (s.openRecord r).home.cq.length + 1 = s.home.cq.length ∧
    ∀ k, (s.openRecord r).way k =
      if s.wayOf (s.homeShelf line) line = some k then { s.way k with t := true, tstate := 0 } else s.way k := by
  obtain ⟨hq, rfl, ho⟩ := admissible_some ha
  rw [openRecord_home]
  exact ⟨rfl, length_dropFirst (List.any_eq_true.mpr ⟨r, hq, beq_self_eq_true r⟩), openRecord_way ho⟩

section
variable (ha : s.admissible line = some r) (hg : s.regionOf line = some (i, g))
  (hr : r.who.isMirror = true ∨ s.roleAt (lineAddr line) ∈ [Role.single, .writer, .solo])
include ha hg hr

/-- A head that the role of its line lets in opens its record. With the lookup done it is served; else greenware goes out
where the rules allow it, and the service waits for the lookup. -/
theorem exec_admitReq_admitted (pend : Bool) : exec (.admitReq line pend) s = State.done
    (if !pend then (s.openRecord r).start line
    else if ((s.openRecord r).refuses r g).isNone && (s.openRecord r).greenOk r g
      then ((s.openRecord r).sendGreen r).syncEntry line
    else (s.openRecord r).modTxn line (fun t => { t with work := .lookup })) := by
  obtain ⟨-, hl, ho⟩ := admissible_some ha
  rw [openRecord_refuses (hl ▸ ho), openRecord_greenOk]
  show execAdmitReq line pend s = _
  obtain h | ⟨h1, h2, h3, h4⟩ := role_serves hr
  · simp only [execAdmitReq, ha, hg, h, Bool.not_true, Bool.false_and, Bool.false_eq_true, if_false]
  · simp only [execAdmitReq, ha, hg, beq_false_of_ne h1, beq_false_of_ne h2, beq_false_of_ne h3, beq_false_of_ne h4,
      Bool.or_false, Bool.and_false, Bool.false_eq_true, if_false]

/-- With the lookup done the request is served (R160). -/
theorem exec_admitReq_serves : exec (.admitReq line false) s = .next ((s.openRecord r).start line).settle :=
  exec_admitReq_admitted ha hg hr false

/-- With the lookup pending, greenware where the rules allow it (R202 to R204). -/
theorem exec_admitReq_green (hn : (s.openRecord r).refuses r g = none) (hk : (s.openRecord r).greenOk r g = true) :
    exec (.admitReq line true) s = .next (((s.openRecord r).sendGreen r).syncEntry line).settle := by
  rw [exec_admitReq_admitted ha hg hr, hn, hk]
  rfl

/-- With the lookup pending and no greenware, the request waits for the lookup (R160). -/
theorem exec_admitReq_waits (h : (s.openRecord r).refuses r g ≠ none ∨ (s.openRecord r).greenOk r g = false) :
    exec (.admitReq line true) s =
      .next ((s.openRecord r).modTxn line (fun t => { t with work := .lookup })).settle := by
  have hd : (((s.openRecord r).refuses r g).isNone && (s.openRecord r).greenOk r g) = false := by
    rw [Bool.and_eq_false_iff]
    exact h.imp_left (by rw [Option.isNone_eq_false_iff, Option.isSome_iff_ne_none]; exact id)
  rw [exec_admitReq_admitted ha hg hr, hd]
  rfl

end

end Sys2Proof.Machine
end

section
/-! The lookup of an open record (R160, R204 to R206, R329, R331): it serves a request that waits, fires or cracks
greenware, or finds the word of a way lost. -/
namespace Sys2Proof.Machine

variable {s : State} {line : LineIx} {x : Txn}

/-! ### Greenware (R205, R206) -/

theorem sendFire_bridgeOnly (s : State) (sh : Nat) (r : Req) : State.BridgeOnly s (s.sendFire sh r) :=
  State.lastAnswer_bridgeOnly _ sh r mFire _

theorem sendFire_sends {r : Req} {id : AgentId} {q : Port} (hw : r.who = .agent id q) (s : State) (sh : Nat) :
    s.Sends (s.sendFire sh r) { msgTo (some q) id r.line r.txn r.cone mFire with born := some r.born } :=
  (State.lastAnswer_sends hw _ sh mFire _).after rfl rfl rfl

/-- FIRE goes out, and a request that keeps the line has a way for it. -/
def State.fireInto (s : State) (r : Req) : State :=
  let s1 := s.sendFire (s.homeShelf r.line) r
  if r.op.keeps && (s.wayOf (s.homeShelf r.line) r.line).isNone then
    match s.freeWay r.line with
    | some k => s1.takeWay k r.line
    | none => s1
  else s1

/-- It is FIRE and, at most, a taken way. -/
theorem fireInto_cases (s : State) (r : Req) : s.fireInto r = s.sendFire (s.homeShelf r.line) r ∨
    ∃ k, s.fireInto r = (s.sendFire (s.homeShelf r.line) r).takeWay k r.line := by
  unfold State.fireInto
  dsimp only
  split
  · split
    · exact .inr ⟨_, rfl⟩
    · exact .inl rfl
  · exact .inl rfl

theorem keeps_fireInto (s : State) (r : Req) :
    Keeps [.dir] (s.sendFire (s.homeShelf r.line) r) (s.fireInto r) := by
  obtain h | ⟨k, h⟩ := fireInto_cases s r
  · rw [h]; exact keeps_refl _
  · rw [h]; exact keeps_takeWay _ _ _

/-! ### The rows -/

theorem txnOf_line (hx : s.txnOf line = some x) : x.req.line = line := eq_of_beq (List.find?_some hx :)

section
variable (hx : s.txnOf line = some x) (hw : x.work = .lookup)
include hx hw

/-- The lookup ends without greenware: the request that waited is served (R160). -/
theorem exec_lookupComplete_waiting (hn : x.green ≠ .sent) :
    exec (.lookupComplete line none) s = .next (s.start line).settle := by
  show execLookupComplete line none s = _
  simp only [execLookupComplete, hx, hw, ne_eq, not_true_eq_false, if_false, if_neg hn]
  rfl

theorem exec_lookupComplete_cracks (hg : x.green = .sent) (hf : s.fires x.req (s.entryOf line) = none) :
    exec (.lookupComplete line none) s = .next (((s.sendCrack (s.homeShelf line) x.req).modTxn line
      (fun y => { y with green := .cracked, tstate := 0, fetched := none })).start line).settle := by
  show execLookupComplete line none s = _
  simp only [execLookupComplete, hx, hw, ne_eq, not_true_eq_false, if_false, if_pos hg, hf]
  rfl

theorem exec_lookupComplete_fires (hg : x.green = .sent) {p : Plan} (hf : s.fires x.req (s.entryOf line) = some p) :
    exec (.lookupComplete line none) s = .next (((s.fireInto x.req).modTxn line
      (fun y => { y with green := .fired, work := .none, plan := p, sent := true })).advance line).settle := by
  show execLookupComplete line none s = _
  simp only [execLookupComplete, hx, hw, ne_eq, not_true_eq_false, if_false, if_pos hg, hf, State.fireInto, txnOf_line hx]
  rfl

theorem exec_greenwareDeadline_cracks (hg : x.green = .sent) :
    exec (.greenwareDeadline line) s = .next (((s.sendCrack (s.homeShelf line) x.req).modTxn line
      (fun y => { y with green := .cracked, tstate := 0, fetched := none })).syncEntry line).settle := by
  show execGreenwareDeadline line s = _
  simp only [execGreenwareDeadline, hx, hw, hg, and_self, if_true]
  rfl

theorem exec_lookupComplete_corrupt (w : Fin 18) : exec (.lookupComplete line (some w)) s = .next
    (s.lastingFault (.dirWay (Fin.ofNat _ (s.homeShelf line)) (Fin.ofNat _ (dirSet line.toNat)) w)).settle := by
  show execLookupComplete line (some w) s = _
  simp only [execLookupComplete, hx, hw, ne_eq, not_true_eq_false, if_false]
  rfl

end

/-! ### A lost way (R329, R331) -/

theorem trigger_starts (h0 : s.ep.step = 0) (hp : s.fw.pauses = false) (cause : Nat) :
    (s.trigger cause).ep.step = 1 ∧ (s.trigger cause).ep.cause = BitVec.ofNat 4 cause := by
  rw [State.trigger, if_pos h0, if_neg (by rw [hp]; exact Bool.false_ne_true)]
  dsimp only
  rw [kept_ep (keeps_wakeAll _) rfl, kept_ep (keeps_spoilWindows _) rfl]
  exact ⟨rfl, rfl⟩

section
variable {sh : Fin 16} {set : Fin 16384} {w : Fin 18}

theorem placeOf_dirWay {v : FaultUnit} (h : s.placeOf (.dirWay sh set w) = some v) : ∃ q, v = .dirWay sh set q := by
  obtain ⟨q, -, rfl⟩ := Option.map_eq_some_iff.mp h
  exact ⟨_, rfl⟩

/-- The way that a quench to come recovers is noted for its step 6, and nothing else changes (R363). -/
theorem takeOut_dirWay_noted (h : s.waitsStep6 = true) : (s.takeOut (.dirWay sh set w) true).2 =
    { s with ep := { s.ep with spareAt6 := s.ep.spareAt6 ++ [.dirWay sh set w] } } := by
  show (if true && s.waitsStep6 then _ else _ : Nat × State).2 = _
  rw [h]
  rfl

/-- The lasting fault of a way in service triggers a quench with cause 4 (R329, R331). -/
theorem lastingFault_dirWay_quenches (hp : s.placeOf (.dirWay sh set w) ≠ none) (h0 : s.ep.step = 0)
    (hf : s.fw.pauses = false) :
    (s.lastingFault (.dirWay sh set w)).ep.step = 1 ∧ (s.lastingFault (.dirWay sh set w)).ep.cause = 4 := by
  obtain ⟨v, hv⟩ := Option.ne_none_iff_exists'.mp hp
  obtain ⟨q, rfl⟩ := placeOf_dirWay hv
  unfold State.lastingFault
  generalize hs0 : ({ s with life := _ } : State) = s0
  have hv0 : s0.placeOf (.dirWay sh set w) = some (.dirWay sh set q) := by rw [← hs0]; exact hv
  have hc : s0.costOf (.dirWay sh set q) = (⟨outQuenched, 0xFF, 0, true⟩, s0.trigger 4) := rfl
  have hm : (FaultUnit.dirWay sh set q == .mgmtCore) = false := rfl
  obtain ⟨hstep, hcause⟩ := trigger_starts (s := s0) (hs0 ▸ h0) (hs0 ▸ hf) 4
  have hw : (s0.trigger 4).waitsStep6 = true := by rw [State.waitsStep6, State.quenching, hstep]; rfl
  rcases hto : (s0.trigger 4).takeOut (.dirWay sh set q) true with ⟨fl, s2⟩
  have hnoted : s2 = _ := (congrArg Prod.snd hto).symm.trans (takeOut_dirWay_noted hw)
  simp only [hv0, hc, hm, Bool.false_and, Bool.false_eq_true, if_false, hto, State.event_ep]
  rw [kept_ep (keeps_logFault _ _ _ _ _ _ _) rfl, hnoted]
  exact ⟨hstep, hcause⟩

end

/-- Settles O33, row by row: admission through the record that it opens, in which the home reads the request as before; the
lookup by what it finds of greenware; a lost way by the quench that its fault triggers. -/
theorem admissionAndLookup : Obligations.AdmissionAndLookup := by
  intro s line
  refine ⟨fun pend h => exec_admitReq_barred h pend, fun r i g ha hg hr => ?_, fun x hx hw => ⟨?_, ?_, ?_, ?_⟩⟩
  · obtain ⟨htxns, hcq, hway⟩ := openRecord_of_admissible ha
    exact ⟨htxns, hcq, hway, exec_admitReq_serves ha hg hr, exec_admitReq_green ha hg hr, exec_admitReq_waits ha hg hr⟩
  · exact exec_lookupComplete_waiting hx hw
  · exact fun hg hf => ⟨exec_lookupComplete_cracks hx hw hg hf, exec_greenwareDeadline_cracks hx hw hg⟩
  · intro hg p hf
    have kf := keeps_fireInto s x.req
    refine ⟨exec_greenwareDeadline_cracks hx hw hg, s.fireInto x.req, ?_, ?_, fun id q hq => ?_,
      exec_lookupComplete_fires hx hw hg hf⟩
    · exact keeps_then (keeps_more (keeps_sendFire s _ x.req) rfl) kf rfl
    · rw [kept_home kf rfl]
      exact sendFire_bridgeOnly s _ x.req
    · exact (sendFire_sends hq s _).then kf rfl rfl rfl
  · exact fun w => ⟨exec_lookupComplete_corrupt hx hw w, lastingFault_dirWay_quenches⟩

end Sys2Proof.Machine
end

section
/-! The seed of a shelf's lane generators (R227) and the check of a peer window as it is validated (R259): both are one
APB write of a whole register at an address that is served. -/
namespace Sys2Proof.Machine

variable {s : State}

/-! ### A row that is one write (R446) -/

theorem keeps_wakeMgmt (s : State) : Keeps [.ckp] s s.wakeMgmt := upd_ckp

/-- A row that is one write of a whole register, at a served and assigned address, ends as the register's write does. -/
theorem does_apbWrite {c : Instr} {addr : Nat} {v : Word} {P : State → Prop}
    (hc : exec c s = State.done (s.apbWrite addr v)) (hr : addr < 2 ^ 18) (h : s.Serves addr) (h4 : addr % 4 = 0)
    (hp : pageAssigned (addr / 0x1000) = true) (hP : P ((s.wakeMgmt.writeReg addr v).answer 0 false)) : Does c s P :=
  ⟨_, by rw [hc, apbWrite_served v hr h h4 hp, State.done], hP⟩

/-- The write of a register that answers keeps what the register's own write keeps, but for the interface and the clocks. -/
theorem keeps_served {ps qs : List Field} {t : State} (k : Keeps qs s.wakeMgmt t)
    (ha : ps.contains .apb = true) (hk : ps.contains .ckp = true) (hs : (qs.all fun p => ps.contains p) = true) :
    Keeps ps s (t.answer 0 false) :=
  have woken : Keeps ps s s.wakeMgmt := keeps_more (keeps_wakeMgmt s) (by rw [List.all_cons, hk]; rfl)
  keeps_then (keeps_then woken k hs) (keeps_answer t 0 false) (by rw [List.all_cons, ha]; rfl)

/-! ### The lane generators (R227) -/

theorem length_laneSeeds (seed : Word) : (laneSeeds seed).length = 64 := by
  rw [laneSeeds, List.length_map, List.length_range]

theorem getElem?_laneSeeds (seed : Word) {j : Nat} (hj : j < 64) : (laneSeeds seed)[j]? = some (laneSeed seed j) := by
  rw [laneSeeds, List.getElem?_map, List.getElem?_range hj, Option.map_some]

theorem writeSeed_shelf (s : State) (sh i : Nat) (seed : Word) : (s.writeSeed sh seed).shelf i =
    if i = sh then { s.shelf sh with auuSeed := seed, lanes := laneSeeds seed } else s.shelf i :=
  State.modShelf_shelf s sh i _

theorem pageAssigned_shelf (sh : Fin 16) {off : Nat} (ho : off < 0x1000) :
    pageAssigned ((shfPage sh.val + off) / 0x1000) = true := by
  have hp : (shfPage sh.val + off) / 0x1000 = 0x10 + sh.val := by unfold shfPage; omega
  simp only [hp, pageAssigned, Bool.or_eq_true, Bool.and_eq_true, decide_eq_true_eq]
  omega

/-- What the row SHF_AUU_SEED leaves, with the management domain awake, is the write of the seed. -/
theorem does_shfAuuSeed {sh : Fin 16} {seed : Word} {P : State → Prop} (h : s.Serves (shfPage sh.val + 0x060))
    (hP : P ((s.wakeMgmt.writeSeed sh.val seed).answer 0 false)) : Does (.shfAuuSeed sh seed) s P := by
  refine does_apbWrite rfl ?_ h ?_ (pageAssigned_shelf sh (by decide)) ?_
  · unfold shfPage; omega
  · unfold shfPage; omega
  · rw [writeReg_shelf _ sh 0x060 (by decide)]
    exact hP

/-! ### Peer windows (R259) -/

/-- A window after VALID is written 1: its range decides whether VALID or ERR is set. -/
def State.judgedPeer (s : State) (p : Peer) : Peer :=
  { p with valid := s.windowOk p, err := p.err || !s.windowOk p }

theorem peerOn_peer (s : State) (n m : Nat) : tget Peer.none (s.peerOn n).kiln.peers m =
    if m = n then s.judgedPeer (tget Peer.none s.kiln.peers n) else tget Peer.none s.kiln.peers m :=
  tget_tset n m _

/-- Windows are judged by the slice's window and the region table, which hold nothing of the kiln. -/
theorem judgedPeer_kiln (s : State) (k : Kiln) : ({ s with kiln := k } : State).judgedPeer = s.judgedPeer := rfl

theorem tget_tmod_same {α : Type} [DecidableEq α] {d : α} {f : α → α} (hf : ∀ x, f x = x) (t : Table α) (k j : Nat) :
    tget d (tmod d t k f) j = tget d t j := by
  rw [tmod, tget_tset, hf]
  split
  · next h => rw [h]
  · rfl

/-- CTRL written with VALID 1 and ERR 0 clears nothing, so the window is judged as it stands. -/
theorem writePeerCtrl_peer (s : State) (n m : Nat) : tget Peer.none (s.writePeerCtrl n 1).kiln.peers m =
    if m = n then s.judgedPeer (tget Peer.none s.kiln.peers n) else tget Peer.none s.kiln.peers m := by
  have valid1 : (1 : Word).getLsbD 0 = true := rfl
  have err0 : (1 : Word).getLsbD 1 = false := rfl
  have nothing_cleared (p : Peer) :
      { p with err := w1c p.err 1 1, valid := p.valid && (1 : Word).getLsbD 0 } = p := by
    rw [w1c, valid1, err0, Bool.not_false, Bool.and_true, Bool.and_true]
  rw [State.writePeerCtrl, if_pos valid1, peerOn_peer, judgedPeer_kiln]
  simp only [tget_tmod_same nothing_cleared]

theorem writeReg_peerCtrl (s : State) (n : Fin 8) (v : Word) :
    s.writeReg (0x0010C + 16 * n.val) v = s.writePeerCtrl n.val v :=
  match n with
  | 0 | 1 | 2 | 3 | 4 | 5 | 6 | 7 => rfl

theorem does_glbKpeerValid {n : Fin 8} {P : State → Prop} (h : s.Serves (0x0010C + 16 * n.val))
    (hP : P ((s.wakeMgmt.writePeerCtrl n.val 1).answer 0 false)) : Does (.glbKpeerValid n) s P := by
  have page : (0x0010C + 16 * n.val) / 0x1000 = 0 := by omega
  refine does_apbWrite rfl (by omega) h (by omega) ?_ ?_
  · rw [page]
    rfl
  · rw [writeReg_peerCtrl]
    exact hP

/-- Settles O18: each row is the write of its register (`does_shfAuuSeed`, `does_glbKpeerValid`); the seed is read back by
`writeSeed_shelf`, the windows by `writePeerCtrl_peer`. -/
theorem seedAndPeerWindowWrites : Obligations.SeedAndPeerWindowWrites := by
  refine ⟨fun s sh seed h => does_shfAuuSeed h ?_, fun s n h => does_glbKpeerValid h ?_⟩
  · have own := (writeSeed_shelf s.wakeMgmt sh.val sh.val seed).trans (if_pos rfl)
    have lanes : (((s.wakeMgmt.writeSeed sh.val seed).answer 0 false).shelf sh.val).lanes = laneSeeds seed :=
      congrArg Shelf.lanes own
    refine ⟨congrArg Shelf.auuSeed own, ?_, fun j hj => ?_, fun i hi => ?_, ?_⟩
    · rw [lanes, length_laneSeeds]
    · rw [lanes, getElem?_laneSeeds seed hj]
      rfl
    · exact (writeSeed_shelf s.wakeMgmt sh.val i seed).trans (if_neg hi)
    · exact keeps_served (keeps_writeSeed _ _ _) rfl rfl rfl
  · refine ⟨(writePeerCtrl_peer s.wakeMgmt n.val n.val).trans (if_pos rfl), fun m hm => ?_, ?_⟩
    · exact (writePeerCtrl_peer s.wakeMgmt n.val m).trans (if_neg hm)
    · exact keeps_served (keeps_writePeerCtrl _ _ _) rfl rfl rfl

end Sys2Proof.Machine
end

section
/-! The kiln at run time (R256, R269, R272, R276, R284): passes, the slots of an assembler with their lanes of −0, the polls of
HEAD and the ends of reloads. -/
namespace Sys2Proof.Machine

variable {s t : State}

/-! ### Passes (R256) -/

theorem exec_kilnPassStart_runs {bank : Fin 256} {j : Job} {p : Pass} {rest : List Pass}
    (h : s.nextPass bank.val = some (j, p, rest)) : exec (.kilnPassStart bank) s = .next
      ((s.firePass j bank.val p rest).count 0x13
        ⟨(s.ring (s.ctx j.ctx).ring).priv.toNat, none, none, some (dCone j.desc), none, none⟩ 1).settle := by
  show execKilnPassStart bank s = _
  rw [execKilnPassStart, h]
  rfl

theorem exec_kilnPassStart_barred {bank : Fin 256} (h : s.nextPass bank.val = none) :
    exec (.kilnPassStart bank) s = .next s.settle := by
  show execKilnPassStart bank s = _
  rw [execKilnPassStart, h]
  rfl

/-! ### The lanes of an assembler's slot (R276) -/

/-- A word that is an FP32 −0 in its low bits has its sign bit alone. -/
theorem getLsbD_negZero (w n : Nat) : (BitVec.ofNat w 0x80000000).getLsbD n = (decide (n < w) && decide (31 = n)) := by
  rw [BitVec.getLsbD_ofNat, show 0x80000000 = 2 ^ 31 from rfl, Nat.testBit_two_pow]

/-- An FP32 −0 put over one 32-bit lane of a line changes no other lane. -/
theorem wordOf_or_negZero (d : Line) (j : Nat) {i : Nat} (hi : i < 32) :
    wordOf (d ||| (0x80000000#1024 <<< (32 * j))) i = if i = j then wordOf d i ||| 0x80000000 else wordOf d i := by
  refine BitVec.eq_of_getLsbD_eq fun n hn => ?_
  have whole : 32 * i + n < 1024 := by omega
  have lane : (wordOf (d ||| (0x80000000#1024 <<< (32 * j))) i).getLsbD n =
      ((wordOf d i).getLsbD n || (decide (32 * j ≤ 32 * i + n) && decide (31 = 32 * i + n - 32 * j))) := by
    simp only [wordOf, BitVec.getLsbD_extractLsb', BitVec.getLsbD_or, BitVec.getLsbD_shiftLeft, getLsbD_negZero, hn, whole,
      decide_true, Bool.true_and, ← decide_not, Nat.not_lt, Nat.sub_lt_of_lt whole]
  rw [lane]
  split
  · next h =>
    rw [h, BitVec.getLsbD_or, show (0x80000000 : Word) = BitVec.ofNat 32 0x80000000 from rfl, getLsbD_negZero]
    simp only [Nat.le_add_right, Nat.add_sub_cancel_left, hn]
  · next h =>
    have apart : ¬(32 * j ≤ 32 * i + n ∧ 31 = 32 * i + n - 32 * j) := by omega
    rw [← Bool.decide_and, decide_eq_false apart, Bool.or_false]

/-- A line in which each lane of a list holds −0 where it holds no sum. -/
def negZeros (have32 : BitVec 32) (lanes : List Nat) (d : Line) : Line :=
  lanes.foldl (fun l i => if have32.getLsbD i then l else l ||| (0x80000000#1024 <<< (32 * i))) d

theorem wordOf_negZeros (have32 : BitVec 32) (lanes : List Nat) (d : Line) {i : Nat} (hi : i < 32) :
    wordOf (negZeros have32 lanes d) i =
      if have32.getLsbD i = true ∨ i ∉ lanes then wordOf d i else wordOf d i ||| 0x80000000 := by
  induction lanes generalizing d with
  | nil => rw [if_pos (.inr List.not_mem_nil)]; rfl
  | cons j lanes ih =>
    rw [negZeros, List.foldl_cons, ← negZeros, ih]
    by_cases hj : i = j
    · subst hj
      cases h : have32.getLsbD i
      · simp [wordOf_or_negZero d i hi, BitVec.or_assoc]
      · simp
    · have same : wordOf (if have32.getLsbD j then d else d ||| (0x80000000#1024 <<< (32 * j))) i = wordOf d i := by
        split
        · rfl
        · rw [wordOf_or_negZero d j hi, if_neg hj]
      rw [same]
      simp only [List.mem_cons, hj, false_or]

/-- The request that a slot leaves as: an FP32 add of all lanes of its line (R215, R276). -/
def State.slotReq (s : State) (a : AsmSlot) : Req :=
  { mkReq .atom (.cmd a.ctx) (lineIx (a.line * 128)) (dCone (s.ctx a.ctx).desc) with
    mask := fullMask, data := negZeros a.have32 (List.range 32) a.data, plen := 128, aop := 0x80 }

theorem sendSlot_eq (s : State) (a : AsmSlot) :
    s.sendSlot a = (s.modCtx a.ctx (fun x => { x with out := x.out + 1, begun := true })).issue (s.slotReq a) := by
  rw [State.sendSlot, State.slotReq, negZeros]

theorem wordOf_slotReq (s : State) (a : AsmSlot) {i : Nat} (hi : i < 32) : wordOf (s.slotReq a).data i =
    if a.have32.getLsbD i then wordOf a.data i else wordOf a.data i ||| 0x80000000 := by
  rw [State.slotReq, wordOf_negZeros a.have32 _ _ hi]
  simp only [List.mem_range, hi, not_true_eq_false, or_false]

theorem setAsm_asm (s : State) (h k : Half) (l : List AsmSlot) : (s.setAsm h l).asm k = if k = h then l else s.asm k := by
  cases h <;> cases k <;> rfl

theorem setAsm_ctx (s : State) (h : Half) (l : List AsmSlot) (c : Nat) : (s.setAsm h l).ctx c = s.ctx c := by
  cases h <;> rfl

theorem slotReq_setAsm (s : State) (h : Half) (l : List AsmSlot) (a : AsmSlot) : (s.setAsm h l).slotReq a = s.slotReq a := by
  rw [State.slotReq, State.slotReq, setAsm_ctx]

theorem exec_accumSlotTimeout_sends {half : Half} {a : AsmSlot} {rest : List AsmSlot} (hc : s.kilnClocked half = true)
    (ha : s.asm half = a :: rest) :
    exec (.accumSlotTimeout half) s = .next ((s.setAsm half rest).sendSlot a).settle := by
  show execAccumSlotTimeout half s = _
  rw [execAccumSlotTimeout, hc, ha, Bool.not_true, if_neg Bool.false_ne_true, State.done]

/-! ### HEAD of a streamed input (R260, R272) -/

theorem askHead_of_job {c : Nat} {j : Job} (h : s.job c = some j) : s.askHead c =
    (s.modJob c (fun j => { j with headReading := true })).readLine (.head c)
      (if s.place (frSrc j.desc) = .nowhere then .rdNC else .rdV) (frSrc j.desc) (dCone j.desc) false := by
  rw [State.askHead, h]

theorem exec_streamHeadPoll_asks {c : Fin 256} {j : Job} (hj : s.job c.val = some j) (hs : frStream j.desc = true)
    (hw : j.nextTokens.any (fun t => !j.ready t) = true) (hr : j.headReading = false) (hq : s.quenching = false)
    (hp : (s.ctx c.val).phase = .acting) : exec (.streamHeadPoll c) s = .next (s.askHead c.val).settle := by
  show execStreamHeadPoll c s = _
  simp only [execStreamHeadPoll, hj, hs, hw, hr, hq, hp]
  rfl

/-! ### The end of a reload (R269, R284) -/

theorem modEntry_kentry (s : State) (i j : Nat) (f : KEntry → KEntry) :
    (s.modEntry i f).kentry j = if j = i then f (s.kentry i) else s.kentry j := tget_tset i j _

theorem kentry_of_kiln (h : t.kiln = s.kiln) (i : Nat) : t.kentry i = s.kentry i := by
  rw [State.kentry, h]
  rfl

/-- An entry's reload is no longer open. -/
def State.dropReload (s : State) (i : Nat) : State :=
  { s with kiln := { s.kiln with reloads := dropFirst (fun y => y.entry == i) s.kiln.reloads } }

theorem dropReload_kentry (s : State) (i j : Nat) : (s.dropReload i).kentry j = s.kentry j := rfl

theorem keeps_dropReload (s : State) (i : Nat) : Keeps [.kiln] s (s.dropReload i) := upd_kiln

theorem does_kilnReloadDone {e : Fin 4096} {P : State → Prop} (h : P (s.reloadEnd e.val)) : Does (.kilnReloadDone e) s P :=
  ⟨_, rfl, h⟩

section
variable {i : Nat} {x : Reload} (hx : s.kiln.reloads.find? (fun y => y.entry == i) = some x) (hn : x.need = [])
include hx hn

theorem reloadEnd_notReloading (hst : (s.kentry i).st ≠ .reloading) : s.reloadEnd i = s.dropReload i := by
  simp only [State.reloadEnd, hx, hn]
  exact if_pos hst

/-- The rows of the entry's mats are written from the source, and the entry is LOADED. -/
theorem reloadEnd_loaded (hst : (s.kentry i).st = .reloading) (hb : x.bad = false)
    (hr : (s.kentry i).record.isSome = true) :
    ∃ t, Keeps [.free, .arr] (s.dropReload i) t ∧ s.reloadEnd i = t.modEntry i (fun y => { y with st := .loaded }) := by
  obtain ⟨r, hr⟩ := Option.isSome_iff_exists.mp hr
  simp only [State.reloadEnd, hx, hn, hb, hr, List.isEmpty_nil, Bool.not_true, Bool.false_eq_true, if_false]
  rw [if_neg (not_not_intro hst)]
  refine ⟨_, ?_, rfl⟩
  exact keeps_then (keeps_more (keeps_draw (s.dropReload i)) rfl) (keeps_writeMats ..) rfl

/-- A read that failed, or a record that is gone, leaves the entry LOST with KILN_RELOAD_FAIL. -/
theorem reloadEnd_lost (hst : (s.kentry i).st = .reloading) (hb : x.bad = true ∨ (s.kentry i).record = none) :
    s.reloadEnd i = ((s.dropReload i).modEntry i (fun y => { y with st := .lost })).event 0x0B03 srcSlice [i] := by
  simp only [State.reloadEnd, hx, hn, List.isEmpty_nil, Bool.not_true, Bool.false_eq_true, if_false]
  rw [if_neg (not_not_intro hst)]
  obtain hb | hr := hb
  · rw [hb]
    rfl
  · rw [hr]
    cases x.bad <;> rfl

end

theorem event_evt_congr (he : t.evt = s.evt) (hk : t.ckp = s.ckp) (code src : Nat) (fields : List Nat) :
    (t.event code src fields).evt = (s.event code src fields).evt := by
  simp only [State.event, he, hk]
  split <;> rfl

/-- Settles O46, row by row: a pass is `firePass`; a slot leaves as `slotReq`, whose lanes `wordOf_slotReq` reads; a poll is
`askHead`; and the reload of an entry ends in one of three ways, of which one leaves it as it is. -/
theorem kilnRowsRunPasses : Obligations.KilnRowsRunPasses := by
  intro s bank half c e
  refine ⟨fun j p rest => exec_kilnPassStart_runs, exec_kilnPassStart_barred, fun a rest hc ha => ?_,
    fun j hj hs hw hr hq hp => ?_, fun x hx hn => ⟨fun hst => ?_, fun hst hb hr => ?_, fun hst hb => ?_⟩⟩
  · refine ⟨(s.setAsm half rest).modCtx a.ctx (fun x => { x with out := x.out + 1, begun := true }), s.slotReq a,
      keeps_then (keeps_more (keeps_setAsm s half rest) rfl) (keeps_modCtx ..) rfl, ?_, fun h hh => ?_, ?_,
      rfl, rfl, rfl, rfl, rfl, rfl, fun i hi => wordOf_slotReq s a hi, ?_⟩
    · exact (setAsm_asm s half half rest).trans (if_pos rfl)
    · exact (setAsm_asm s half h rest).trans (if_neg hh)
    · rw [State.modCtx_ctx, if_pos rfl, setAsm_ctx]
    · rw [exec_accumSlotTimeout_sends hc ha, sendSlot_eq, slotReq_setAsm]
  · rw [exec_streamHeadPoll_asks hj hs hw hr hq hp, askHead_of_job hj]
  · refine does_kilnReloadDone ?_
    rw [reloadEnd_notReloading hx hn hst]
    exact ⟨⟨rfl, fun i _ => rfl⟩, rfl, keeps_dropReload s e.val⟩
  · obtain ⟨t, kt, ht⟩ := reloadEnd_loaded hx hn hst hb hr
    have hk : t.kiln = (s.dropReload e.val).kiln := kept_kiln kt rfl
    refine does_kilnReloadDone ?_
    rw [ht]
    refine ⟨⟨congrArg Kiln.reloads hk, fun i hi => ?_⟩, ?_, ?_⟩
    · rw [modEntry_kentry, if_neg hi, kentry_of_kiln hk, dropReload_kentry]
    · rw [modEntry_kentry, if_pos rfl, kentry_of_kiln hk, dropReload_kentry]
    · exact keeps_then (keeps_then (keeps_more (keeps_dropReload s e.val) rfl) kt rfl) (keeps_modEntry ..) rfl
  · refine does_kilnReloadDone ?_
    rw [reloadEnd_lost hx hn hst hb]
    refine ⟨⟨?_, fun i hi => ?_⟩, ?_, ?_, ?_⟩
    · rw [State.event_kiln]
      rfl
    · rw [kentry_of_kiln (State.event_kiln ..), modEntry_kentry, if_neg hi, dropReload_kentry]
    · rw [kentry_of_kiln (State.event_kiln ..), modEntry_kentry, if_pos rfl, dropReload_kentry]
    · apply event_evt_congr <;> rfl
    · exact keeps_then (keeps_then (keeps_more (keeps_dropReload s e.val) rfl) (keeps_modEntry ..) rfl) (keeps_event ..) rfl

end Sys2Proof.Machine
end

section
/-! Issue slots of the backing ports (R314 to R318, R442): the choice of the request, and what giving it a slot and
sending it changes. -/
namespace Sys2Proof.Machine

variable {s : State} {r : BReq} {bp : Fin 8} {rd wr : Bool} {k : Nat}

/-! ### The choice of a request (R316) -/

theorem foldl_min_spec {α : Type} (key : α → Nat) (l : List α) (a : α) :
    l.foldl (fun m b => if key b < key m then b else m) a ∈ a :: l ∧
    ∀ b ∈ a :: l, key (l.foldl (fun m b => if key b < key m then b else m) a) ≤ key b := by
  induction l generalizing a with
  | nil => simp
  | cons c l ih =>
    rw [List.foldl_cons]
    by_cases h : key c < key a
    · rw [if_pos h]
      obtain ⟨hmem, hle⟩ := ih c
      refine ⟨List.mem_cons_of_mem a hmem, List.forall_mem_cons.mpr ⟨?_, hle⟩⟩
      exact Nat.le_trans (hle c List.mem_cons_self) (Nat.le_of_lt h)
    · rw [if_neg h]
      obtain ⟨hmem, hle⟩ := ih a
      obtain ⟨ha, hl⟩ := List.forall_mem_cons.mp hle
      refine ⟨?_, List.forall_mem_cons.mpr ⟨ha, List.forall_mem_cons.mpr ⟨Nat.le_trans ha (Nat.le_of_not_lt h), hl⟩⟩⟩
      rcases List.mem_cons.mp hmem with e | hmem
      · rw [e]
        exact List.mem_cons_self
      · exact List.mem_cons_of_mem a (List.mem_cons_of_mem c hmem)

theorem minBy_spec {α : Type} {key : α → Nat} {l : List α} (hl : l ≠ []) :
    ∃ a, minBy key l = some a ∧ a ∈ l ∧ ∀ b ∈ l, key a ≤ key b := by
  cases l with
  | nil => exact absurd rfl hl
  | cons c l => exact ⟨_, rfl, foldl_min_spec key l c⟩

/-- A grant goes to a request that may be issued and that no other such request precedes. -/
theorem State.grant_chosen (h : s.back.reqs.any (s.grantable k) = true) :
    ∃ r, minBy s.grantKey (s.back.reqs.filter (s.grantable k)) = some r ∧
      r ∈ s.back.reqs ∧ s.grantable k r = true ∧
      ∀ q ∈ s.back.reqs, s.grantable k q = true → s.grantKey r ≤ s.grantKey q := by
  obtain ⟨q, hq, hg⟩ := List.any_eq_true.mp h
  obtain ⟨r, hr, hmem, hle⟩ := minBy_spec (key := s.grantKey) (List.ne_nil_of_mem (List.mem_filter.mpr ⟨hq, hg⟩))
  obtain ⟨hin, hok⟩ := List.mem_filter.mp hmem
  exact ⟨r, hr, hin, hok, fun q hq hg => hle q (List.mem_filter.mpr ⟨hq, hg⟩)⟩

theorem State.grant_noneChosen (h : s.back.reqs.any (s.grantable k) = false) :
    minBy s.grantKey (s.back.reqs.filter (s.grantable k)) = none := by
  rw [List.filter_eq_nil_iff.mpr (List.any_eq_false.mp h)]
  rfl

theorem State.bp_of_grantable (h : s.grantable k r = true) : r.bp = k := by
  simp only [State.grantable, Bool.and_eq_true, beq_iff_eq] at h
  obtain ⟨⟨⟨hbp, _⟩, _⟩, _⟩ := h
  exact hbp

/-! ### Taking and sending in a slot (R315, R442) -/

theorem modFirst_congr {α : Type} {p : α → Bool} {f g : α → α} (h : ∀ a, p a = true → f a = g a) (l : List α) :
    modFirst p f l = modFirst p g l := by
  induction l with
  | nil => rfl
  | cons a l ih =>
    rw [modFirst, modFirst, ih]
    split
    · rw [h a ‹_›]
    · rfl

@[simp] theorem State.sendBack_back (s : State) (r : BReq) (tag : Nat) : (s.sendBack r tag).back =
    { s.back with reqs := modFirst (· == r) (fun q => { q with slot := some tag, sent := true }) s.back.reqs } := by
  rw [State.sendBack]
  split <;> rfl

/-- Sending a request takes the next sequence number of its port's link and joins the link's window (R441). -/
theorem State.sendBack_backLink (s : State) (r : BReq) (tag j : Nat) : (s.sendBack r tag).backLink j =
    if j = r.bp then { s.backLink r.bp with
      txSeq := (s.backLink r.bp).txSeq + 1
      window := ((s.backLink r.bp).window ++ [((s.backLink r.bp).txSeq, r)]).drop ((s.backLink r.bp).window.length - 63) }
    else s.backLink j := by
  rw [State.sendBack]
  split <;> exact tget_tset _ _ _

/-- The request takes the slot, and is sent in it where the port is ready. -/
def State.giveSlot (s : State) (r : BReq) (k : Nat) (ready : Bool) : State :=
  if ready then s.sendBack r k
  else { s with back := { s.back with reqs := modFirst (· == r) (fun q => { q with slot := some k }) s.back.reqs } }

theorem State.giveSlot_back (s : State) (r : BReq) (k : Nat) (ready : Bool) : (s.giveSlot r k ready).back = { s.back with
    reqs := modFirst (· == r) (fun q => { q with slot := some k, sent := q.sent || ready }) s.back.reqs } := by
  cases ready with
  | true => simp only [State.giveSlot, if_true, State.sendBack_back, Bool.or_true]
  | false => simp only [State.giveSlot, Bool.false_eq_true, if_false, Bool.or_false]

theorem State.giveSlot_backLink {j : Nat} (hj : j ≠ r.bp) (ready : Bool) :
    (s.giveSlot r k ready).backLink j = s.backLink j := by
  cases ready with
  | true => exact (s.sendBack_backLink r k j).trans (if_neg hj)
  | false => rfl

theorem keeps_giveSlot (s : State) (r : BReq) (k : Nat) (ready : Bool) :
    Keeps [.back, .pmu, .links] s (s.giveSlot r k ready) := by
  cases ready with
  | true => exact keeps_sendBack s r k
  | false => exact keeps_more upd_back rfl

/-! ### The rows -/

/-- Slot k of port n is taken. -/
def State.slotTaken (s : State) (n k : Nat) : Bool := s.back.reqs.any (fun q => q.bp == n && q.slot == some k)

theorem exec_backingSlotGrant_gives (hup : (s.half (portHalf bp.val)).st = .awake)
    (hr : minBy s.grantKey (s.back.reqs.filter (s.grantable bp.val)) = some r)
    (hk : (List.range 64).find? (fun j => !s.slotTaken bp.val j) = some k) :
    exec (.backingSlotGrant bp rd wr) s = .next (s.giveSlot r k (if r.write then wr else rd)).settle := by
  simp only [State.slotTaken] at hk
  show execBackingSlotGrant bp rd wr s = _
  rw [execBackingSlotGrant, if_neg (not_not_intro hup), hr, hk]
  rfl

theorem exec_backingSlotGrant_idle (h : (s.half (portHalf bp.val)).st ≠ .awake ∨
    minBy s.grantKey (s.back.reqs.filter (s.grantable bp.val)) = none ∨
    (List.range 64).find? (fun j => !s.slotTaken bp.val j) = none) :
    exec (.backingSlotGrant bp rd wr) s = .next s.settle := by
  show execBackingSlotGrant bp rd wr s = _
  rw [execBackingSlotGrant, State.done]
  refine congrArg (fun t => Host.Outcome.next (State.settle t)) ?_
  obtain hs | hr | hk := h
  · rw [if_pos hs]
  · rw [hr, ite_self]
  · simp only [State.slotTaken] at hk
    rw [hk]
    cases minBy s.grantKey (s.back.reqs.filter (s.grantable bp.val)) <;> exact ite_self s

theorem exec_backingPortReady_sends {w : Bool}
    (h : s.back.reqs.find? (fun q => q.bp == bp.val && q.slot.isSome && !q.sent && q.write == w) = some r) :
    exec (.backingPortReady bp w) s = .next (s.sendBack r (r.slot.getD 0)).settle := by
  show execBackingPortReady bp w s = _
  rw [execBackingPortReady, h, State.done]

/-- A request that holds a slot is sent in it. -/
theorem State.sendBack_back_held (h : r.slot.isSome = true) : (s.sendBack r (r.slot.getD 0)).back =
    { s.back with reqs := modFirst (· == r) (fun q => { q with sent := true }) s.back.reqs } := by
  obtain ⟨k, hk⟩ := Option.isSome_iff_exists.mp h
  rw [State.sendBack_back]
  refine congrArg (fun l => { s.back with reqs := l }) (modFirst_congr (fun q hq => ?_) _)
  rw [eq_of_beq hq, hk, Option.getD_some, ← hk]

/-- Settles O35: the request is the one `grant_chosen` finds, its slot the first of the range that is not taken, and
`giveSlot` what a grant does; a port that becomes ready sends in the slot that is held. -/
theorem backingSlotsAreGranted : Obligations.BackingSlotsAreGranted := by
  intro s bp rd wr
  refine ⟨fun hup hsome hfree => ?_, fun h => ?_, fun w r hr => ?_⟩
  · obtain ⟨r, hr, hin, hok, hle⟩ := State.grant_chosen hsome
    obtain ⟨k, hk⟩ := Option.isSome_iff_exists.mp (List.find?_isSome.mpr (List.any_eq_true.mp hfree))
    obtain ⟨hfree, hlt, hlow⟩ := List.find?_range_eq_some.mp hk
    refine ⟨_, exec_backingSlotGrant_gives hup hr hk, r, k, hin, hok, hle, List.mem_range.mp hlt, ?_, fun j hj => ?_,
      s.giveSlot_back r k _, fun j hj => ?_, keeps_giveSlot s r k _⟩
    · exact Bool.not_eq_true' _ ▸ hfree
    · exact (Bool.not_not _).symm.trans (hlow j hj)
    · exact State.giveSlot_backLink (State.bp_of_grantable hok ▸ hj) _
  · refine exec_backingSlotGrant_idle (h.imp id (Or.imp State.grant_noneChosen fun hfree => ?_))
    exact List.find?_eq_none.mpr (List.any_eq_false.mp hfree)
  · have hq := List.find?_some hr
    simp only [Bool.and_eq_true, beq_iff_eq] at hq
    obtain ⟨⟨⟨hbp, hslot⟩, _⟩, _⟩ := hq
    refine ⟨_, exec_backingPortReady_sends hr, State.sendBack_back_held hslot, ?_, fun j hj => ?_,
      keeps_sendBack s r _⟩
    · rw [State.sendBack_backLink, if_pos hbp.symm, hbp]
    · rw [State.sendBack_backLink, if_neg (hbp ▸ hj)]

end Sys2Proof.Machine
end

section
/-! Occupancy reports of the backing ports (R317, R319): the 4-bit fields and the stale bits that they set. -/
namespace Sys2Proof.Machine

variable {s : State}

/-! ### Fields of the register (R317) -/

theorem nibble_eq (w : Word) (i : Nat) : nibble w i = w.toNat / 16 ^ i % 16 := by
  have hdiv : w.toNat >>> (4 * i) = w.toNat / 16 ^ i :=
    (Nat.shiftRight_eq_div_pow _ _).trans (congrArg (w.toNat / ·) (Nat.pow_mul 2 4 i))
  have hwidth : 4 * i + 3 - 4 * i = 3 := Nat.add_sub_cancel_left ..
  calc nibble w i = w.toNat >>> (4 * i) % 2 ^ (4 * i + 3 - 4 * i + 1) := rfl
    _ = w.toNat / 16 ^ i % 2 ^ (3 + 1) := by rw [hdiv, hwidth]
    _ = w.toNat / 16 ^ i % 16 := rfl

/-- A hexadecimal digit below place b is one of the number's last b digits. -/
theorem hexDigit_mod {k b : Nat} (h : k < b) (v : Nat) : v % 16 ^ b / 16 ^ k % 16 = v / 16 ^ k % 16 := by
  rw [← Nat.mod_mul_right_div_self, ← Nat.mod_mul_right_div_self, ← Nat.pow_succ,
    Nat.mod_mod_of_dvd _ (Nat.pow_dvd_pow 16 h)]

/-- Replacing a hexadecimal digit leaves every other one. -/
theorem hexDigit_replace {d b : Nat} (hd : d < 16) (v k : Nat) :
    (v - v / 16 ^ b % 16 * 16 ^ b + d * 16 ^ b) / 16 ^ k % 16 = if k = b then d else v / 16 ^ k % 16 := by
  have hpos : 0 < 16 ^ b := Nat.pow_pos (by decide)
  have hnew : v - v / 16 ^ b % 16 * 16 ^ b + d * 16 ^ b = v % 16 ^ b + 16 ^ b * (16 * (v / 16 ^ b / 16) + d) := by
    have hv : v % 16 ^ b + 16 ^ b * (16 * (v / 16 ^ b / 16)) + v / 16 ^ b % 16 * 16 ^ b = v := by
      rw [Nat.add_assoc, Nat.mul_comm (_ % 16), ← Nat.mul_add, Nat.div_add_mod, Nat.mod_add_div]
    rw [← Nat.eq_sub_of_add_eq hv, Nat.mul_add, Nat.mul_comm d, Nat.add_assoc]
  have hdiv : (v % 16 ^ b + 16 ^ b * (16 * (v / 16 ^ b / 16) + d)) / 16 ^ b = 16 * (v / 16 ^ b / 16) + d := by
    rw [Nat.add_mul_div_left _ _ hpos, Nat.div_eq_of_lt (Nat.mod_lt v hpos), Nat.zero_add]
  rw [hnew]
  rcases Nat.lt_trichotomy k b with hk | rfl | hk
  · rw [if_neg (Nat.ne_of_lt hk), ← hexDigit_mod hk, Nat.add_mul_mod_self_left, Nat.mod_mod, hexDigit_mod hk]
  · rw [if_pos rfl, hdiv, Nat.mul_add_mod, Nat.mod_eq_of_lt hd]
  · obtain ⟨m, rfl⟩ := Nat.exists_eq_add_of_lt hk
    have hsplit (x : Nat) : x / 16 ^ (b + m + 1) = x / 16 ^ b / 16 / 16 ^ m := by
      rw [Nat.div_div_eq_div_mul, Nat.div_div_eq_div_mul, ← Nat.pow_succ', ← Nat.pow_add, Nat.add_assoc]
    rw [if_neg (Nat.ne_of_gt hk), hsplit, hsplit, hdiv, Nat.mul_add_div (by decide), Nat.div_eq_of_lt hd, Nat.add_zero]

/-- A port's report replaces its own field of the register. -/
theorem nibble_report (w : Word) (b : Fin 8) (occ : BitVec 4) {k : Nat} (hk : k < 8) :
    nibble (BitVec.ofNat 32 (w.toNat - nibble w b.val * 16 ^ b.val + occ.toNat * 16 ^ b.val)) k =
      if k = b.val then occ.toNat else nibble w k := by
  rw [nibble_eq, nibble_eq, nibble_eq, BitVec.toNat_ofNat, show 2 ^ 32 = 16 ^ 8 from rfl, hexDigit_mod hk,
    hexDigit_replace occ.isLt]

theorem getLsbD_setBit_true {n : Nat} (v : BitVec n) {i j : Nat} (hj : j < n) :
    (setBit v i true).getLsbD j = (decide (j = i) || v.getLsbD j) := by
  rw [Bool.or_comm]
  simp only [setBit, if_true, BitVec.getLsbD_or, BitVec.getLsbD_shiftLeft, BitVec.getLsbD_one, hj, decide_true,
    Bool.true_and]
  congr 1
  rcases Nat.lt_trichotomy j i with hij | rfl | hij
  · simp [hij, Nat.ne_of_lt hij]
  · simp [Nat.zero_lt_of_lt hj]
  · simp [Nat.not_lt_of_gt hij, Nat.ne_of_gt hij, Nat.sub_ne_zero_of_lt hij]

/-! ### The rows -/

theorem State.occOf_stale {n : Nat} (h : s.cone.stale.getLsbD n = true) : s.occOf n = 15 := if_pos h

theorem State.occOf_reported {n : Nat} (h : s.cone.stale.getLsbD n = false) : s.occOf n = nibble s.cone.occ n :=
  if_neg (Bool.eq_false_iff.mp h)

/-- The port has reported this occupancy, which ends a silence (R319). -/
def State.occReported (s : State) (bp : Fin 8) (occ : BitVec 4) : State :=
  { s with cone := { s.cone with
      occ := BitVec.ofNat 32 (s.cone.occ.toNat - nibble s.cone.occ bp.val * 16 ^ bp.val + occ.toNat * 16 ^ bp.val)
      stale := setBit s.cone.stale bp.val false } }

theorem exec_backingOccReport (bp : Fin 8) (occ : BitVec 4) (s : State) :
    exec (.backingOccReport bp occ) s = .next (s.occReported bp occ) := rfl

/-- The port is silent. -/
def State.occSilent (s : State) (bp : Fin 8) : State :=
  { s with cone := { s.cone with stale := setBit s.cone.stale bp.val true } }

theorem exec_backingFbLost (bp : Fin 8) (s : State) :
    exec (.backingFbLost bp) s = .next ((s.occSilent bp).event 0x0D01 srcSlice [bp.val]) := rfl

theorem State.occReported_occ (s : State) (bp : Fin 8) (occ : BitVec 4) {k : Nat} (hk : k < 8) :
    nibble (s.occReported bp occ).cone.occ k = if k = bp.val then occ.toNat else nibble s.cone.occ k :=
  nibble_report _ _ _ hk

theorem State.occReported_stale (s : State) (bp : Fin 8) (occ : BitVec 4) (k : Nat) :
    (s.occReported bp occ).cone.stale.getLsbD k = (decide (k ≠ bp.val) && s.cone.stale.getLsbD k) :=
  (getLsbD_setBit_false _ _ _).trans (Bool.and_comm _ _)

theorem State.occSilent_stale (s : State) (bp : Fin 8) {k : Nat} (hk : k < 8) :
    (s.occSilent bp).cone.stale.getLsbD k = (decide (k = bp.val) || s.cone.stale.getLsbD k) :=
  getLsbD_setBit_true _ hk

/-- Settles O36: a report replaces its port's field and clears its port's bit; a silence sets that bit alone. -/
theorem occupancyReportsAndSilence : Obligations.OccupancyReportsAndSilence := by
  intro s bp occ
  refine ⟨⟨_, exec_backingOccReport bp occ s, fun k hk => s.occReported_occ bp occ hk,
      fun k _ => s.occReported_stale bp occ k, ?_, rfl, upd_cone⟩,
    ⟨_, exec_backingFbLost bp s, State.occOf_stale ?_, ?_, fun k hk => ?_, ?_, ?_⟩⟩
  · have hfresh : (s.occReported bp occ).cone.stale.getLsbD bp.val = false := by
      rw [State.occReported_stale, decide_eq_false (not_not_intro rfl), Bool.false_and]
    rw [State.occOf_reported hfresh, s.occReported_occ bp occ bp.isLt, if_pos rfl]
  · rw [State.event_cone, s.occSilent_stale bp bp.isLt, decide_eq_true rfl, Bool.true_or]
  · apply event_evt_congr <;> rfl
  · rw [State.event_cone, s.occSilent_stale bp hk]
  · rw [State.event_cone]
    rfl
  · exact keeps_then (keeps_more (upd_cone : Keeps [.cone] s (s.occSilent bp)) rfl) (keeps_event ..) rfl

end Sys2Proof.Machine
end

section
/-! A microsecond and the power estimate (R401, R419 to R421, R425), its calibration (R420, R421) and the sensors (R403): what
each operation does to the clocks' registers, then one lemma per row. -/
namespace Sys2Proof.Machine

variable {s : State} {half : Half}

/-! ### A quotient that the spec does not round (log 7) -/

/-- The quotient of a by b, or where that is not whole its upper neighbour. -/
def NearQuotient (q a b : Nat) : Prop := q = a / b ∨ (a % b ≠ 0 ∧ q = a / b + 1)

theorem divFree_nearQuotient (s : State) (a b : Nat) : NearQuotient (s.divFree a b).1 a b := by
  by_cases h : a % b = 0
  · rw [State.divFree, if_pos h]
    exact .inl rfl
  · rw [State.divFree, if_neg h]
    show NearQuotient (a / b + b2n (s.draw.1.getLsbD 0)) a b
    cases s.draw.1.getLsbD 0
    · exact .inl rfl
    · exact .inr ⟨h, rfl⟩

theorem divFree_ckp (s : State) (a b : Nat) : (s.divFree a b).2.ckp = s.ckp := kept_ckp (keeps_divFree s a b) rfl

/-! ### The pulses of a half (R417, R425) -/

/-- The half's clock after p more pulses of its source, of which FCLK counts those that a skip ratio keeps. -/
def HalfClk.pulsed (c : HalfClk) (ratio p : Nat) : HalfClk :=
  { c with fclk := c.fclk + kept ratio c.pulse p, pulse := (c.pulse + p) % 64 }

theorem pulses_of_stopped (h : (s.half half).runs = false) : s.pulses half = (0, 0, s) := by
  unfold State.pulses
  dsimp only
  rw [h]
  rfl

theorem pulses_of_running (h : (s.half half).runs = true) : ∃ p, 490 ≤ p ∧ p < 2296 ∧
    (s.pulses half).2.2 = s.draw.2.modHalf half (fun c => c.pulsed (s.ratio half) p) := by
  refine ⟨490 + s.draw.1.toNat % 1806, by omega, by omega, ?_⟩
  unfold State.pulses
  dsimp only
  rw [h]
  cases half <;> rfl

/-- Pulses reach the clocks of the halves alone. -/
theorem pulses_ckp (s : State) (half : Half) : (s.pulses half).2.2.ckp =
    { s.ckp with a := (s.pulses half).2.2.half .a, b := (s.pulses half).2.2.half .b } := by
  cases h : (s.half half).runs
  · rw [pulses_of_stopped h]
    rfl
  · obtain ⟨p, -, -, hp⟩ := pulses_of_running h
    rw [hp]
    cases half <;> rfl

theorem pulses_othersStay (s : State) (half : Half) : State.OthersStay half s (s.pulses half).2.2 := by
  cases h : (s.half half).runs
  · rw [pulses_of_stopped h]
    exact fun _ _ => rfl
  · obtain ⟨p, -, -, hp⟩ := pulses_of_running h
    rw [hp]
    exact State.modHalf_othersStay s.draw.2 half _

/-- From s to t the half has had the pulses of a microsecond: those of its source lie between R402's bounds (log 4). -/
def State.Clocked (half : Half) (s t : State) : Prop :=
  ((s.half half).runs = false → t.half half = s.half half) ∧
  ((s.half half).runs = true → ∃ p, 490 ≤ p ∧ p < 2296 ∧ t.half half = (s.half half).pulsed (s.ratio half) p)

theorem pulses_clocked (s : State) (half : Half) : State.Clocked half s (s.pulses half).2.2 := by
  refine ⟨fun h => by rw [pulses_of_stopped h], fun h => ?_⟩
  obtain ⟨p, hlo, hhi, hp⟩ := pulses_of_running h
  refine ⟨p, hlo, hhi, ?_⟩
  rw [hp, State.modHalf_half, if_pos rfl, State.draw_half]

theorem State.Clocked.st {s t : State} (h : State.Clocked half s t) : (t.half half).st = (s.half half).st := by
  cases hr : (s.half half).runs
  · rw [h.1 hr]
  · obtain ⟨p, -, -, hp⟩ := h.2 hr
    rw [hp]
    rfl

/-- What a half has had depends on its clock and on the ratio's bound in droop alone. -/
theorem State.Clocked.congr {s s' t t' : State} (h : State.Clocked half s t) (hs : s'.half half = s.half half)
    (hd : s'.ckp.droopSkip = s.ckp.droopSkip) (ht : t'.half half = t.half half) : State.Clocked half s' t' := by
  have hratio : s'.ratio half = s.ratio half := by rw [State.ratio, State.ratio, hs, hd]
  unfold State.Clocked
  rw [hs, ht, hratio]
  exact h

theorem half_of_clocks {s t : State} (ha : t.ckp.a = s.half .a) (hb : t.ckp.b = s.half .b) (half : Half) :
    t.half half = s.half half := by
  cases half
  · exact ha
  · exact hb

/-! ### A microsecond (R401, R425) -/

/-- Both halves have had the pulses of a microsecond. -/
def State.pulsed (s : State) : State := ((s.pulses .a).2.2.pulses .b).2.2

theorem keeps_pulsed (s : State) : Keeps [.free, .ckp] s s.pulsed :=
  keeps_then (keeps_pulses s .a) (keeps_pulses _ .b) rfl

theorem pulsed_ckp (s : State) : s.pulsed.ckp = { s.ckp with a := s.pulsed.half .a, b := s.pulsed.half .b } := by
  rw [State.pulsed, pulses_ckp, pulses_ckp]

theorem pulsed_clocked (s : State) (half : Half) : State.Clocked half s s.pulsed := by
  cases half with
  | a => exact (pulses_clocked s .a).congr rfl rfl (pulses_othersStay _ .b .a nofun)
  | b => exact (pulses_clocked _ .b).congr (pulses_othersStay s .a .b nofun).symm (by rw [pulses_ckp]) rfl

theorem hours_ckp (s : State) (n : Nat) : (s.hours n).ckp = { s.ckp with eclk := s.ckp.eclk + n } := by
  unfold State.hours
  dsimp only
  split <;> rfl

theorem hours_age (s : State) (n : Nat) : (s.hours n).life.age =
    if (s.ckp.eclk + n) / hourCycles = s.ckp.eclk / hourCycles then s.life.age else s.life.age + 1 := by
  unfold State.hours
  dsimp only
  split <;> rfl

/-- A microsecond counts the pulses and then 50 cycles of ECLK. -/
theorem microsecond_hours (s : State) : ∃ t, Keeps [.free, .pmu] s.pulsed t ∧ s.microsecond = t.hours 50 :=
  by
  unfold State.microsecond State.pulsed
  obtain ⟨pa, na, s1⟩ := s.pulses .a
  dsimp only
  obtain ⟨pb, nb, s2⟩ := s1.pulses .b
  exact ⟨_, keeps_then (keeps_then (keeps_more upd_pmu rfl) (keeps_count _ _ _ _) rfl) (keeps_count _ _ _ _) rfl, rfl⟩

theorem microsecond_ckp (s : State) : s.microsecond.ckp =
    { s.ckp with a := s.pulsed.half .a, b := s.pulsed.half .b, eclk := s.ckp.eclk + 50 } := by
  obtain ⟨t, kt, ht⟩ := microsecond_hours s
  rw [ht, hours_ckp, kept_ckp kt rfl, pulsed_ckp]

theorem microsecond_half (s : State) (half : Half) : s.microsecond.half half = s.pulsed.half half :=
  half_of_clocks (by rw [microsecond_ckp]) (by rw [microsecond_ckp]) half

theorem microsecond_age (s : State) : s.microsecond.life.age =
    if (s.ckp.eclk + 50) / hourCycles = s.ckp.eclk / hourCycles then s.life.age else s.life.age + 1 := by
  obtain ⟨t, kt, ht⟩ := microsecond_hours s
  rw [ht, hours_age, kept_ckp kt rfl, kept_life kt rfl, pulsed_ckp, kept_life (keeps_pulsed s) rfl]

/-- The energy of an interval does not see that its microsecond has passed. -/
theorem microsecond_energy (s : State) (n : PowerCounts) : s.microsecond.energy n = s.energy n := by
  have hst : ∀ h, (s.microsecond.half h).st = (s.half h).st := fun h => by
    rw [microsecond_half, (pulsed_clocked s h).st]
  have hw : ∀ i, s.microsecond.weight i = s.weight i := fun i => by
    rw [State.weight, State.weight, microsecond_ckp]
  simp only [State.energy, hst, hw]

/-! ### The estimate (R419 to R421) -/

theorem report_ckp (s : State) : ∃ q, NearQuotient q (s.ckp.calK.toNat * s.ckp.raw.toNat) 16384 ∧ s.report.ckp =
    { s.ckp with est := BitVec.ofNat 16 (min (if s.ckp.drift
        then max q s.ckp.meas.toNat + s.ckp.margin.toNat else q) 65535) } := by
  refine ⟨_, divFree_nearQuotient s _ _, ?_⟩
  unfold State.report
  dsimp only
  rw [divFree_ckp]

theorem takeEstimate_ckp (s : State) (raw : Nat) (meas : BitVec 16) (valid : Bool) :
    let r := BitVec.ofNat 16 (min raw 65535)
    ∃ q, NearQuotient q (s.ckp.calK.toNat * r.toNat) 16384 ∧ (s.takeEstimate raw meas valid).ckp =
      { s.ckp with
          raw := r, meas := meas, measValid := valid, window := s.ckp.window ++ [(r, meas, valid)]
          est := BitVec.ofNat 16 (min (if s.ckp.drift then max q meas.toNat + s.ckp.margin.toNat else q) 65535) } := by
  obtain ⟨q, hq, ht⟩ := report_ckp ({ s with ckp := { s.ckp with
      raw := BitVec.ofNat 16 (min raw 65535), meas := meas, measValid := valid
      window := s.ckp.window ++ [(BitVec.ofNat 16 (min raw 65535), meas, valid)] } })
  exact ⟨q, hq, ht⟩

/-- The state that a microsecond's estimate leaves, before what can go on goes on. -/
def State.estimated (s : State) (n : PowerCounts) (meas : BitVec 16) (valid : Bool) : State :=
  (s.microsecond.estimate n).2.takeEstimate (s.microsecond.estimate n).1 meas valid

/-- The row's answer to the raw estimate of its counts: a function of the pair, so that to unfold the row never evaluates the
estimate. -/
def answerEstimate (meas : BitVec 16) (valid : Bool) (p : Nat × State) : Host.Outcome State Fault Refusal :=
  let (raw, s1) := p
  State.done (s1.takeEstimate raw meas valid)

theorem answerEstimate_eq (meas : BitVec 16) (valid : Bool) (p : Nat × State) :
    answerEstimate meas valid p = .next (p.2.takeEstimate p.1 meas valid).settle := rfl

theorem exec_activityEstimate (n : PowerCounts) (meas : BitVec 16) (valid : Bool) (s : State) :
    exec (.activityEstimate n meas valid) s = .next (s.estimated n meas valid).settle := by
  have hexec : exec (.activityEstimate n meas valid) s = execActivityEstimate n meas valid s := rfl
  have hrow : execActivityEstimate n meas valid s = answerEstimate meas valid (s.microsecond.estimate n) := rfl
  rw [hexec, hrow, answerEstimate_eq]
  rfl

theorem keeps_estimated (s : State) (n : PowerCounts) (meas : BitVec 16) (valid : Bool) :
    Keeps [.free, .pmu, .life, .ckp] s (s.estimated n meas valid) :=
  keeps_then (keeps_then (keeps_microsecond s) (keeps_estimate _ n) rfl) (keeps_takeEstimate _ _ _ _) rfl

theorem estimated_life (s : State) (n : PowerCounts) (meas : BitVec 16) (valid : Bool) :
    (s.estimated n meas valid).life = s.microsecond.life :=
  kept_life (keeps_then (keeps_more (keeps_estimate _ n) rfl : Keeps [.free, .ckp] _ _) (keeps_takeEstimate _ _ _ _) rfl) rfl

theorem estimated_ckp (s : State) (n : PowerCounts) (meas : BitVec 16) (valid : Bool) : ∃ q k,
    NearQuotient q (s.energy n) 25000000 ∧
    let r := BitVec.ofNat 16 (min q 65535)
    NearQuotient k (s.ckp.calK.toNat * r.toNat) 16384 ∧ (s.estimated n meas valid).ckp =
      { s.ckp with
          a := s.pulsed.half .a, b := s.pulsed.half .b, eclk := s.ckp.eclk + 50
          raw := r, meas := meas, measValid := valid, window := s.ckp.window ++ [(r, meas, valid)]
          est := BitVec.ofNat 16 (min (if s.ckp.drift then max k meas.toNat + s.ckp.margin.toNat else k) 65535) } := by
  have hckp : (s.microsecond.estimate n).2.ckp = s.microsecond.ckp := kept_ckp (keeps_estimate _ n) rfl
  obtain ⟨k, hk, ht⟩ := takeEstimate_ckp (s.microsecond.estimate n).2 (s.microsecond.estimate n).1 meas valid
  rw [hckp, microsecond_ckp] at hk ht
  refine ⟨_, k, ?_, hk, ht⟩
  rw [← microsecond_energy]
  exact divFree_nearQuotient _ _ _

theorem estimated_half (s : State) (n : PowerCounts) (meas : BitVec 16) (valid : Bool) (half : Half) :
    (s.estimated n meas valid).half half = s.pulsed.half half := by
  obtain ⟨_, _, -, -, h⟩ := estimated_ckp s n meas valid
  exact half_of_clocks (by rw [h]) (by rw [h]) half

/-! ### Calibration (R420, R421) -/

/-- The window of ten that CALIBRATION judges: whole, with every measurement valid. -/
def Clocks.Judged (c : Clocks) : Prop := 10 ≤ c.window.length ∧ c.window.all (fun x => x.2.2) = true

/-- The window has ended, and its judgement is counted: a miss where the estimate is off. -/
def State.countMiss (s : State) (off : Bool) : State :=
  let miss := if off then min 16 (s.ckp.calMiss.toNat + 1) else 0
  let s1 : State := { s with ckp := { s.ckp with window := [], calMiss := BitVec.ofNat 5 miss } }
  if 16 ≤ miss then
    let s2 : State := { s1 with ckp := { s1.ckp with drift := true } }
    if s.ckp.drift then s2 else s2.event 0x1206 srcSlice [s.ckp.calK.toNat, s.ckp.raw.toNat, s.ckp.meas.toNat]
  else s1

/-- K takes a quotient, within its bounds. -/
def State.takeK (p : Nat × State) : State :=
  let (q, s) := p
  { s with ckp := { s.ckp with calK := BitVec.ofNat 16 (min (max q 8192) 32767) } }

theorem takeK_divFree_ckp (s : State) (a b : Nat) : ∃ q, NearQuotient q a b ∧
    (State.takeK (s.divFree a b)).ckp = { s.ckp with calK := BitVec.ofNat 16 (min (max q 8192) 32767) } := by
  have hq := divFree_nearQuotient s a b
  have hckp := divFree_ckp s a b
  revert hq hckp
  generalize s.divFree a b = p
  rintro hq hckp
  exact ⟨p.1, hq, by rw [← hckp]; rfl⟩

theorem takeK_divFree_evt (s : State) (a b : Nat) : (State.takeK (s.divFree a b)).evt = s.evt := by
  have hevt : (s.divFree a b).2.evt = s.evt := kept_evt (ps := [.free]) (keeps_divFree s a b) rfl
  revert hevt
  generalize s.divFree a b = p
  exact id

theorem countMiss_false (s : State) : s.countMiss false = { s with ckp := { s.ckp with window := [], calMiss := 0 } } := rfl

theorem countMiss_early (h : s.ckp.calMiss.toNat < 15) :
    s.countMiss true = { s with ckp := { s.ckp with window := [], calMiss := s.ckp.calMiss + 1 } } := by
  have hmin : min 16 (s.ckp.calMiss.toNat + 1) = s.ckp.calMiss.toNat + 1 := by omega
  have hadd : BitVec.ofNat 5 (s.ckp.calMiss.toNat + 1) = s.ckp.calMiss + 1 := by bv_omega
  simp only [State.countMiss, if_true, hmin, hadd]
  exact if_neg (by omega)

theorem countMiss_late (h : 15 ≤ s.ckp.calMiss.toNat) : s.countMiss true =
    let s2 : State := { s with ckp := { s.ckp with window := [], calMiss := 16, drift := true } }
    if s.ckp.drift then s2 else s2.event 0x1206 srcSlice [s.ckp.calK.toNat, s.ckp.raw.toNat, s.ckp.meas.toNat] := by
  have hmin : min 16 (s.ckp.calMiss.toNat + 1) = 16 := by omega
  simp only [State.countMiss, if_true, hmin]
  rfl

theorem countMiss_late_ckp (h : 15 ≤ s.ckp.calMiss.toNat) :
    (s.countMiss true).ckp = { s.ckp with window := [], calMiss := 16, drift := true } := by
  rw [countMiss_late h]
  dsimp only
  split
  · rfl
  · rw [State.event_ckp]

/-- An event's entry takes of the clocks their stamp alone. -/
theorem event_evt_of_eclk {t : State} (he : t.evt = s.evt) (hk : t.ckp.eclk = s.ckp.eclk) (code src : Nat)
    (fields : List Nat) :
    (t.event code src fields).evt = (s.event code src fields).evt := by
  simp only [State.event, he, hk]
  split <;> rfl

theorem countMiss_late_evt (h : 15 ≤ s.ckp.calMiss.toNat) (hd : s.ckp.drift = false) : (s.countMiss true).evt =
    (s.event 0x1206 srcSlice [s.ckp.calK.toNat, s.ckp.raw.toNat, s.ckp.meas.toNat]).evt := by
  rw [countMiss_late h, hd]
  dsimp only
  rw [if_neg Bool.false_ne_true]
  apply event_evt_of_eclk <;> rfl

/-- A judgement reaches the window, the misses and DRIFT alone. -/
theorem countMiss_ckp (s : State) (off : Bool) : (s.countMiss off).ckp =
    { s.ckp with window := [], calMiss := (s.countMiss off).ckp.calMiss, drift := (s.countMiss off).ckp.drift } := by
  cases off
  · rfl
  · rcases Nat.lt_or_ge s.ckp.calMiss.toNat 15 with h | h
    · rw [countMiss_early h]
    · rw [countMiss_late_ckp h]

/-- The sums of the window's estimates and of its measurements. -/
def Clocks.rawSum (c : Clocks) : Nat := (c.window.map (fun x => x.1.toNat)).foldl (· + ·) 0
def Clocks.measSum (c : Clocks) : Nat := (c.window.map (fun x => x.2.1.toNat)).foldl (· + ·) 0

/-- The window's calibrated estimate lies more than a quarter off its measurements, both in units of 2⁻¹⁴. -/
def Clocks.off (c : Clocks) : Bool := decide <|
  16384 * c.measSum < 4 *
    (max (c.calK.toNat * c.rawSum) (16384 * c.measSum) - min (c.calK.toNat * c.rawSum) (16384 * c.measSum))

theorem judged_iff (c : Clocks) : c.Judged ↔ ¬(c.window.length < 10 || c.window.any (fun x => !x.2.2)) = true := by
  rw [Clocks.Judged, List.all_eq_not_any_not, Bool.or_eq_true, not_or, decide_eq_true_eq, Nat.not_lt, Bool.not_eq_true',
    Bool.not_eq_true]

theorem calibrate_unjudged (h : ¬s.ckp.Judged) : s.calibrate = { s with ckp := { s.ckp with window := [] } } :=
  if_pos (Classical.not_not.mp fun hn => h ((judged_iff s.ckp).mpr hn))

theorem calibrate_judged (h : s.ckp.Judged) : s.calibrate =
    if s.ckp.rawSum = 0 ∨ s.ckp.calHold = true then s.countMiss s.ckp.off
    else State.takeK ((s.countMiss s.ckp.off).divFree
      (7 * (s.ckp.calK.toNat * s.ckp.rawSum) + 16384 * s.ckp.measSum) (8 * s.ckp.rawSum)) :=
  if_neg ((judged_iff s.ckp).mp h)

theorem calibrate_held (h : s.ckp.Judged) (hk : s.ckp.rawSum = 0 ∨ s.ckp.calHold = true) :
    s.calibrate = s.countMiss s.ckp.off := by
  rw [calibrate_judged h, if_pos hk]

theorem calibrate_moves (h : s.ckp.Judged) (hk : ¬(s.ckp.rawSum = 0 ∨ s.ckp.calHold = true)) : ∃ q,
    NearQuotient q (7 * (s.ckp.calK.toNat * s.ckp.rawSum) + 16384 * s.ckp.measSum) (8 * s.ckp.rawSum) ∧
    s.calibrate.ckp = { (s.countMiss s.ckp.off).ckp with calK := BitVec.ofNat 16 (min (max q 8192) 32767) } := by
  rw [calibrate_judged h, if_neg hk]
  exact takeK_divFree_ckp _ _ _

/-- Whether K moves or not, the misses, DRIFT and the event are those of the judgement. -/
theorem calibrate_counts (h : s.ckp.Judged) : s.calibrate.ckp.window = [] ∧
    s.calibrate.ckp.calMiss = (s.countMiss s.ckp.off).ckp.calMiss ∧
    s.calibrate.ckp.drift = (s.countMiss s.ckp.off).ckp.drift ∧ s.calibrate.evt = (s.countMiss s.ckp.off).evt := by
  have hw : (s.countMiss s.ckp.off).ckp.window = [] := by rw [countMiss_ckp]
  by_cases hk : s.ckp.rawSum = 0 ∨ s.ckp.calHold = true
  · rw [calibrate_held h hk]
    exact ⟨hw, rfl, rfl, rfl⟩
  · obtain ⟨q, -, hckp⟩ := calibrate_moves h hk
    rw [hckp]
    refine ⟨hw, rfl, rfl, ?_⟩
    rw [calibrate_judged h, if_neg hk, takeK_divFree_evt]

theorem exec_calibration (s : State) : exec .calibration s = .next s.calibrate := rfl

/-! ### Sensors (R345, R403) -/

theorem voltBin_lt (c : HalfClk) (mv : Nat) : voltBin c mv < 4 := by
  unfold voltBin
  split
  · decide
  · split
    · decide
    · split <;> decide

theorem sense_half (s : State) (h k : Half) (v : BitVec 10) (t : BitVec 8) : (s.sense h v t).half k =
    if k = h then { s.half h with v := v, t := t } else s.half k := by
  rw [← State.modHalf_half s h k (fun c => { c with v := v, t := t })]
  unfold State.sense
  dsimp only
  split
  · rw [half_of_ckp (State.event_ckp ..)]
    cases k <;> rfl
  · exact half_of_ckp rfl k

theorem sense_thermHigh (s : State) (h : Half) (v : BitVec 10) (t : BitVec 8) :
    (s.sense h v t).ckp.thermHigh = (s.ckp.thermHigh || decide (105 < t.toInt)) := by
  unfold State.sense tooHot
  dsimp only
  split
  · rename_i hot
    rw [State.event_ckp, hot, Bool.or_true]
  · rename_i hot
    rw [Bool.eq_false_iff.mpr hot, Bool.or_false]
    cases h <;> rfl

theorem sense_evt_cool {t : BitVec 8} (ht : t.toInt ≤ 105) (s : State) (h : Half) (v : BitVec 10) :
    (s.sense h v t).evt = s.evt := by
  have hcool : ¬tooHot t = true := by
    rw [tooHot, decide_eq_true_eq]
    omega
  refine (congrArg State.evt (if_neg hcool)).trans ?_
  cases h <;> rfl

theorem sense_life (s : State) (h : Half) (v : BitVec 10) (t : BitVec 8) : (s.sense h v t).life =
    { s.life with
        stressMs := tmod 0 s.life.stressMs (4 * halfIx h + voltBin (s.half h) v.toNat) (· + 1), changed := true } := by
  have hlife : (s.modHalf h (fun c => { c with v := v, t := t })).life = s.life := kept_life (keeps_modHalf s h _) rfl
  unfold State.sense
  dsimp only
  rw [hlife]
  split
  · rw [State.event_life]
  · rfl

/-- A half's millisecond joins the bin of its voltage, and no other. -/
theorem sense_stressMs_a (s : State) (v : BitVec 10) (t : BitVec 8) (k : Nat) :
    tget 0 (s.sense .a v t).life.stressMs k = if k = voltBin (s.half .a) v.toNat
      then tget 0 s.life.stressMs (voltBin (s.half .a) v.toNat) + 1 else tget 0 s.life.stressMs k := by
  rw [sense_life, tmod, tget_tset, halfIx, Nat.mul_zero, Nat.zero_add]

theorem sense_stressMs_b (s : State) (v : BitVec 10) (t : BitVec 8) (k : Nat) :
    tget 0 (s.sense .b v t).life.stressMs k = if k = 4 + voltBin (s.half .b) v.toNat
      then tget 0 s.life.stressMs (4 + voltBin (s.half .b) v.toNat) + 1 else tget 0 s.life.stressMs k := by
  rw [sense_life, tmod, tget_tset, halfIx, Nat.mul_one]

theorem exec_sensorRead (va vb : BitVec 10) (ta tb : BitVec 8) (s : State) :
    exec (.sensorRead va vb ta tb) s = .next ((s.sense .a va ta).sense .b vb tb) := rfl

/-- Settles O60: a microsecond's pulses are `pulsed_clocked` and its estimate `estimated_ckp`; a calibration counts its judgement
(`calibrate_counts`) and then holds or moves K; the two halves' readings meet in no bin. -/
theorem powerIsEstimated : Obligations.PowerIsEstimated := by
  intro s n meas valid va vb ta tb near
  refine ⟨?_, ?_, ?_⟩
  · obtain ⟨q, k, hq, hk, hckp⟩ := estimated_ckp s n meas valid
    have hclocked (h : Half) : State.Clocked h s (s.estimated n meas valid) :=
      (pulsed_clocked s h).congr rfl rfl (estimated_half s n meas valid h)
    refine ⟨_, exec_activityEstimate n meas valid s, ?_⟩
    change _ ∧ _
    rw [hckp, estimated_life, microsecond_age]
    exact ⟨rfl, fun h => (hclocked h).1, fun h => (hclocked h).2, rfl, ⟨q, hq, rfl⟩, rfl, rfl, rfl, ⟨k, hk, rfl⟩,
      keeps_estimated s n meas valid⟩
  · refine ⟨s.calibrate, exec_calibration s, ?_, keeps_calibrate s, ?_⟩
    · by_cases h : s.ckp.Judged
      · exact (calibrate_counts h).1
      · rw [calibrate_unjudged h]
    · intro w e m ke judged off
      have hoff : s.ckp.off = true ↔ off := decide_eq_true_iff
      refine ⟨fun hj => ?_, fun hj ho => ?_, fun hj ho hm => ?_, fun hj ho hm => ?_, fun hj hk => ?_, fun hj he hh => ?_⟩
      · rw [calibrate_unjudged hj]
        exact ⟨rfl, rfl⟩
      · obtain ⟨-, hmiss, hdrift, hevt⟩ := calibrate_counts hj
        rw [hmiss, hdrift, hevt, Bool.eq_false_iff.mpr (mt hoff.mp ho), countMiss_false]
        exact ⟨rfl, rfl, rfl⟩
      · obtain ⟨-, hmiss, hdrift, hevt⟩ := calibrate_counts hj
        rw [hmiss, hdrift, hevt, hoff.mpr ho, countMiss_early hm]
        exact ⟨rfl, rfl, rfl⟩
      · obtain ⟨-, hmiss, hdrift, hevt⟩ := calibrate_counts hj
        rw [hmiss, hdrift, hevt, hoff.mpr ho, countMiss_late_ckp hm]
        exact ⟨rfl, rfl, countMiss_late_evt hm⟩
      · rw [calibrate_held hj hk, countMiss_ckp]
      · obtain ⟨q, hq, hckp⟩ := calibrate_moves hj (not_or.mpr ⟨he, Bool.eq_false_iff.mp hh⟩)
        exact ⟨q, hq, by rw [hckp]⟩
  · have hb : (s.sense .a va ta).half .b = s.half .b := by rw [sense_half, if_neg nofun]
    have hbin : voltBin (s.half .a) va.toNat < 4 := voltBin_lt ..
    refine ⟨_, exec_sensorRead va vb ta tb s, ?_, ?_, ?_, fun hca hcb => ?_, ?_, ?_,
      keeps_then (keeps_sense s .a va ta) (keeps_sense _ .b vb tb) rfl⟩
    · rw [sense_half, if_neg nofun, sense_half, if_pos rfl]
    · rw [sense_half, if_pos rfl, hb]
    · rw [sense_thermHigh, sense_thermHigh]
    · rw [sense_evt_cool hcb, sense_evt_cool hca]
    · rw [sense_stressMs_b, if_neg (by omega), sense_stressMs_a, if_pos rfl]
    · rw [sense_stressMs_b, hb, if_pos rfl, sense_stressMs_a, if_neg (by omega)]

end Sys2Proof.Machine
end

section
/-! Far ports (R328, R336, R372, R444): how an operation reads in the ports' links, what the sending of flits leaves of a link,
and the rows of replay and of training. -/
namespace Sys2Proof.Machine

variable {s : State} {n k : Nat}

/-! ### Reading a link -/

theorem modFar_far (s : State) (n k : Nat) (f : FarLink → FarLink) :
    (s.modFar n f).far k = if k = n then f (s.far n) else s.far k := by
  rw [State.far, State.modFar, tmod, tget_tset]
  rfl

theorem modFar_far_same (s : State) (n : Nat) (f : FarLink → FarLink) : (s.modFar n f).far n = f (s.far n) :=
  (modFar_far s n n f).trans (if_pos rfl)

theorem modFar_far_other (f : FarLink → FarLink) (h : k ≠ n) : (s.modFar n f).far k = s.far k :=
  (modFar_far s n k f).trans (if_neg h)

/-! ### What sending leaves of a link (R328, R372) -/

/-- The link without what its frames move: the numbers and the contents of its replay buffer. -/
def FarLink.flitless (l : FarLink) : FarLink := { l with txSeq := 0, buffer := [], unsent := 0 }

theorem FarLink.flitless_train (l : FarLink) : l.flitless.train = l.train := rfl
theorem FarLink.flitless_active (l : FarLink) : l.flitless.active = l.active := rfl
theorem FarLink.flitless_up (l : FarLink) : l.flitless.up = l.up := rfl
theorem FarLink.flitless_retry (l : FarLink) : l.flitless.retry = l.retry := rfl

/-- The links of both states differ in their frames alone. -/
def State.SameFarLanes (s t : State) : Prop := ∀ k, (t.far k).flitless = (s.far k).flitless

theorem State.SameFarLanes.trans {s t u : State} (h : s.SameFarLanes t) (h' : t.SameFarLanes u) : s.SameFarLanes u :=
  fun k => (h' k).trans (h k)

theorem sameFarLanes_of_links {s t : State} (h : t.links = s.links) : s.SameFarLanes t := fun k => by
  rw [State.far, h]
  rfl

theorem modFar_sameFarLanes {f : FarLink → FarLink} (hf : ∀ l, (f l).flitless = l.flitless) (s : State) (n : Nat) :
    s.SameFarLanes (s.modFar n f) := fun k => by
  rw [modFar_far]
  split
  · rename_i hk
    rw [hf, hk]
  · rfl

theorem foldl_sameFarLanes {α : Type} {f : State → α → State} (hf : ∀ (t : State) a, t.SameFarLanes (f t a)) (l : List α)
    (s : State) : s.SameFarLanes (l.foldl f s) := by
  induction l generalizing s with
  | nil => exact fun _ => rfl
  | cons a l ih => exact (hf s a).trans (ih (f s a))

theorem farPump_sameFarLanes (s : State) (n : Nat) : s.SameFarLanes (s.farPump n) := by
  unfold State.farPump
  dsimp only
  split
  · exact fun _ => rfl
  · refine (sameFarLanes_of_links rfl).trans (foldl_sameFarLanes (fun t p => ?_) _ _)
    exact (modFar_sameFarLanes (f := fun l => { l with unsent := p.1 + 1 }) (fun _ => rfl) t n).trans
      (sameFarLanes_of_links rfl)

theorem farSend_sameFarLanes (s : State) (n : Nat) (f : MFrame) : s.SameFarLanes (s.farSend n f) :=
  (modFar_sameFarLanes (f := fun l => { l with txSeq := l.txSeq + 1, buffer := l.buffer ++ [(l.txSeq, f)] })
    (fun _ => rfl) s n).trans (farPump_sameFarLanes _ n)

theorem mirrorFlush_sameFarLanes (s : State) : s.SameFarLanes s.mirrorFlush := by
  unfold State.mirrorFlush
  dsimp only
  split
  · exact fun _ => rfl
  · split
    · exact fun _ => rfl
    · refine (sameFarLanes_of_links rfl).trans (foldl_sameFarLanes (fun t p => ?_) _ _)
      split
      · exact farSend_sameFarLanes t _ _
      · exact fun _ => rfl

/-! ### Replay (R328, R329) -/

theorem exec_farFlitCrcFail_crc (port : Fin 2) (seq : Nat) (header : BitVec 96) (payload : BitVec 8192) (crc : BitVec 32)
    (s : State) : exec (.farFlitCrcFail port (.crc seq header payload crc)) s =
      .next (if flitCrc header payload = crc then s else s.flitBad port seq true).settle := rfl

/-- A flit that cannot be used is asked for, where none is asked for yet. -/
theorem flitBad_asks {port : Fin 2} (h : (s.far port.val).replayFrom = none) (seq : Nat) (crc : Bool) :
    s.flitBad port seq crc = s.modFar port.val (fun l => { l with replayFrom := some seq }) := by
  simp [State.flitBad, h]

/-- A replay that fails its CRC is a lasting fault of one of the lanes that the port runs on. -/
theorem flitBad_lost {port : Fin 2} {seq : Nat} (h : (s.far port.val).replayFrom = some seq)
    (ha : (s.far port.val).active ≠ []) : ∃ k, k ∈ (s.far port.val).active ∧ s.flitBad port seq true =
      (s.draw.2.modFar port.val (fun l => { l with replayFrom := none })).lastingFault (.farLane port (Fin.ofNat _ k)) := by
  have hlt : s.draw.1.toNat % (s.far port.val).active.length < (s.far port.val).active.length :=
    Nat.mod_lt _ (List.length_pos_iff.mpr ha)
  refine ⟨(s.far port.val).active.getD (s.draw.1.toNat % (s.far port.val).active.length) 0, ?_, ?_⟩
  · rw [List.getD_eq_getElem?_getD, List.getElem?_eq_getElem hlt, Option.getD_some]
    exact List.getElem_mem hlt
  · exact if_pos (by rw [h]; simp)

/-! ### Training (R336, R444) -/

/-- The lanes that a port runs on of those that pass. -/
def runLanes (ls : List Nat) : List Nat :=
  if 16 ≤ ls.length then ls.take 16 else if 8 ≤ ls.length then ls.take 8 else []

theorem length_runLanes (ls : List Nat) :
    (runLanes ls).length = if 16 ≤ ls.length then 16 else if 8 ≤ ls.length then 8 else 0 := by
  unfold runLanes
  split
  · exact List.length_take_of_le ‹_›
  · split
    · exact List.length_take_of_le ‹_›
    · rfl

/-- The port is up exactly when it runs on some lane. -/
theorem runLanes_up (ls : List Nat) : (!(runLanes ls).isEmpty) = decide (8 ≤ ls.length) := by
  rw [Bool.eq_iff_iff, Bool.not_eq_true', Bool.eq_false_iff, Ne, List.isEmpty_iff_length_eq_zero, length_runLanes,
    decide_eq_true_eq]
  split
  · omega
  · split <;> omega

theorem farLanes_far (s : State) (n : Nat) (ls : List Nat) (k : Nat) : ((s.farLanes n ls).far k).flitless =
    if k = n then { (s.far n).flitless with
      active := runLanes ls, up := decide (8 ≤ ls.length), lanes := ls.foldl (fun v i => setBit v i true) 0 }
    else (s.far k).flitless := by
  rw [← runLanes_up]
  refine (mirrorFlush_sameFarLanes _ k).trans ((congrArg FarLink.flitless (modFar_far s n k _)).trans ?_)
  split <;> rfl

/-- The port trains no more, and runs on the lanes that passed. -/
def State.trained (s : State) (n : Nat) (ok : List Nat) : State :=
  let s1 := (s.modFar n (fun l => { l with train := 0 })).farLanes n ok
  s1.modFar n (fun l => { l with retry := !l.up })

theorem exec_farTrainDone {port : Fin 2} {passing : BitVec 18} (h : (s.far port.val).train ≠ 0) :
    exec (.farTrainDone port passing) s =
      .next (s.trained port.val (onesOf (passing &&& (s.far port.val).lanes))).settle := if_neg h

theorem keeps_trained (s : State) (n : Nat) (ok : List Nat) : Keeps [.pmu, .pair, .links, .out] s (s.trained n ok) :=
  keeps_then (keeps_then (keeps_more (keeps_modFar s n _) rfl) (keeps_farLanes _ n ok) rfl) (keeps_modFar _ n _) rfl

theorem trained_far_same (s : State) (n : Nat) (ok : List Nat) : ((s.trained n ok).far n).flitless =
    { (s.far n).flitless with
        train := 0, active := runLanes ok, up := decide (8 ≤ ok.length), retry := decide (ok.length < 8)
        lanes := ok.foldl (fun v i => setBit v i true) 0 } := by
  have hretry (l : FarLink) : ({ l with retry := !l.up } : FarLink).flitless =
    { l.flitless with retry := !l.flitless.up } := rfl
  have hdown : (!decide (8 ≤ ok.length)) = decide (ok.length < 8) := by rw [← decide_not, decide_eq_decide, Nat.not_le]
  rw [State.trained, modFar_far_same, hretry, farLanes_far, if_pos rfl, modFar_far_same, ← hdown]
  rfl

theorem trained_far_other (ok : List Nat) (h : k ≠ n) : ((s.trained n ok).far k).flitless = (s.far k).flitless := by
  rw [State.trained, modFar_far_other _ h, farLanes_far, if_neg h, modFar_far_other _ h]

/-- Settles O38: an operation writes its own port's link (`modFar_far`); what the frames of the new assignment move in a link
as it comes up (`mirrorFlush_sameFarLanes`) is none of its lanes. -/
theorem farPortsReplayAndTrain : Obligations.FarPortsReplayAndTrain := by
  intro s port seq header payload crc lanes n l other asked
  have asks (c : Bool) (hr : l.replayFrom = none) : ∃ t, s.flitBad port seq c = t ∧
      t.far n = { l with replayFrom := some seq } ∧ other t ∧ Keeps [.links] s t :=
    ⟨_, flitBad_asks hr seq c, modFar_far_same s n _, fun k => modFar_far_other _, keeps_modFar s n _⟩
  refine ⟨fun hc => ?_, fun hr => ⟨fun hc => ?_, ?_⟩, fun hc hr ha => ?_, ?_, ?_, fun ht => ?_, fun ht => ?_, fun hr => ?_⟩
  · rw [exec_farFlitCrcFail_crc, if_pos hc]
  · obtain ⟨t, ht, h⟩ := asks true hr
    exact ⟨t, by rw [exec_farFlitCrcFail_crc, if_neg hc, ht], h⟩
  · obtain ⟨t, ht, h⟩ := asks false hr
    exact ⟨t, congrArg State.done ht, h⟩
  · obtain ⟨k, hk, hbad⟩ := flitBad_lost hr ha
    refine ⟨s.draw.2.modFar n (fun l => { l with replayFrom := none }), k, hk, modFar_far_same s.draw.2 n _,
      fun k => modFar_far_other (s := s.draw.2) _, keeps_then (keeps_more (keeps_draw s) rfl) (keeps_modFar _ n _) rfl, ?_⟩
    rw [exec_farFlitCrcFail_crc, if_neg hc, hbad]
  · exact ⟨s.farReplay n seq, rfl, rfl, keeps_farReplay s n seq⟩
  · exact ⟨s.modFar n (fun l => { l with buffer := l.buffer.filter (fun f => decide (seq < f.1)) }), modFar_far_same s n _,
      fun k => modFar_far_other _, keeps_modFar s n _, rfl⟩
  · refine ⟨_, rfl, (modFar_far_same s n _).trans (if_neg ht), fun k => modFar_far_other _, keeps_modFar s n _⟩
  · let ok := onesOf (lanes &&& l.lanes)
    have hport := trained_far_same s n ok
    refine ⟨s.trained n ok, exec_farTrainDone ht, ?_, ?_, ?_, ?_, fun k hk => ?_, keeps_trained s n ok⟩
    · rw [← FarLink.flitless_train, hport]
    · rw [← FarLink.flitless_active, hport]
      rfl
    · rw [← FarLink.flitless_up, hport]
    · rw [← FarLink.flitless_retry, hport]
    · have hother := trained_far_other (s := s) ok hk
      exact ⟨by rw [← FarLink.flitless_active, hother]; rfl, by rw [← FarLink.flitless_up, hother]; rfl⟩
  · exact ⟨s.farTrain n, congrArg Host.Outcome.next (if_pos hr), modFar_far_same s n _, fun k => modFar_far_other _,
      keeps_farTrain s n⟩

end Sys2Proof.Machine
end

section
/-! The end of sparing work (R335), the watch over the management core (R338, R415) and the Life Record's write (R346). -/
namespace Sys2Proof.Machine

variable {s : State} {w : SpareWork} {rest : List SpareWork} {c : Nat} {half : Half}

/-! ### Sparing work ends (R335) -/

/-- With no request held, a release leaves only that awake shelves update their copies of the agent table. -/
theorem releaseHeld_none (h : s.home.held = []) : s.releaseHeld = s.freshAgents := by
  have hhome : s.freshAgents.home = s.home := kept_home (keeps_freshAgents s) rfl
  have hheld : { s.home with held := [] } = s.home := by rw [← h]
  rw [State.releaseHeld, h, List.foldl_nil, hheld, ← hhome]

/-- The sparing work that is left. -/
def State.withWork (s : State) (rest : List SpareWork) : State := { s with flt := { s.flt with work := rest } }

theorem keeps_withWork (s : State) (rest : List SpareWork) : Keeps [.flt] s (s.withWork rest) := upd_flt

theorem install_work (s : State) (w : SpareWork) : (s.install w).flt.work = s.flt.work := by
  unfold State.install
  split <;> rfl

/-- A spare that a command asked for reloads nothing: the kiln's content is still there. -/
theorem keeps_fitted_command (hw : w.ctx = some c) (s : State) :
    Keeps [.evt, .shelves, .pmu, .kiln, .ckp, .links, .out] s (s.fitted w) := by
  unfold State.fitted
  simp only [hw, Option.isNone_some, Bool.false_and, Bool.false_eq_true, if_false]
  split
  · split <;> exact keeps_refl s
  · exact keeps_refl s
  · exact keeps_refl s
  · exact keeps_more (keeps_modShelf s _ _) rfl
  · exact keeps_more (keeps_seqServes s _) rfl
  · exact keeps_more (keeps_laneServes s _ _) rfl
  · exact keeps_refl s

/-- The spare of the oldest work is fitted at its place. -/
def State.spareFitted (s : State) (w : SpareWork) (rest : List SpareWork) : State :=
  ((s.withWork rest).install w).fitted w

theorem spareEnd_command (h : s.flt.work = w :: rest) (hw : w.ctx = some c)
    (hp : ((s.spareFitted w rest).ctx c).phase = .acting) :
    s.spareEnd = ((s.spareFitted w rest).endCtx c stOk 0).releaseHeld := by
  unfold State.spareEnd
  simp only [h, hw]
  exact congrArg State.releaseHeld (if_pos hp)

theorem spareEnd_own (h : s.flt.work = w :: rest) (hw : w.ctx = none) :
    s.spareEnd = (s.spareFitted w rest).releaseHeld := by
  unfold State.spareEnd
  simp only [h, hw]
  rfl

theorem exec_spareDone (s : State) : exec .spareDone s = .next s.spareEnd.settle := rfl

theorem ctx_of_cmds {t : State} (h : t.cmds = s.cmds) (c : Nat) : t.ctx c = s.ctx c := by rw [State.ctx, State.ctx, h]

theorem does_spareDone_command (h : s.flt.work = w :: rest)
    (hh : s.home.held = []) (hw : w.ctx = some c) (hp : (s.ctx c).phase = .acting) :
    Does .spareDone s (fun t => t.flt.work = rest ∧
      t.ctx c = { s.ctx c with phase := .done, status := stOk, detail := 0, need := [], out := 0 }) := by
  have hfit : Keeps [.evt, .shelves, .pmu, .kiln, .ckp, .links, .out]
      ((s.withWork rest).install w) (s.spareFitted w rest) := keeps_fitted_command hw _
  have hin : Keeps [.flt] s ((s.withWork rest).install w) := keeps_then (keeps_withWork s rest) (keeps_install _ w) rfl
  have hctx : (s.spareFitted w rest).ctx c = s.ctx c :=
    ctx_of_cmds ((kept_cmds hfit rfl).trans (kept_cmds hin rfl)) c
  have hheld : ((s.spareFitted w rest).endCtx c stOk 0).home.held = [] := by
    rw [kept_home (keeps_endCtx ..) rfl, kept_home hfit rfl, kept_home hin rfl, hh]
  refine ⟨_, by rw [exec_spareDone, spareEnd_command h hw (by rw [hctx, hp]), releaseHeld_none hheld], ?_, ?_⟩
  · rw [kept_flt (keeps_freshAgents _) rfl, kept_flt (keeps_endCtx ..) rfl, kept_flt hfit rfl, install_work]
    rfl
  · rw [ctx_of_cmds (kept_cmds (keeps_freshAgents _) rfl), State.endCtx, State.modCtx_ctx, if_pos rfl, hctx]

theorem seqServes_kiln (s : State) (h : Half) : (s.seqServes h).kiln =
    { (s.refetch h).kiln with spareServes := some h, deadSeqs := s.kiln.deadSeqs.filter (· != h) } :=
  State.event_kiln _ _ _ _

theorem seqServes_ckp (s : State) (h : Half) : (s.seqServes h).ckp =
    { s.ckp with clken1 := s.ckp.clken1 ||| 0x40#22, lock1 := s.ckp.lock1 ||| 0x40#22 } :=
  State.event_ckp _ _ _ _

theorem seqServes_evt (s : State) (h : Half) : (s.seqServes h).evt = (s.event 0x0B04 (srcHalf h) [halfIx h]).evt := by
  unfold State.seqServes
  apply event_evt_of_eclk <;> rfl

/-- The sequencer's enable, and its lock, as the spare takes over (R36, R281). -/
theorem getLsbD_or_sequencer (v : BitVec 22) : (v ||| 0x40#22).getLsbD 6 = true := by
  rw [BitVec.getLsbD_or, Bool.or_eq_true]
  exact .inr rfl

theorem spareFitted_sequencer (hu : w.unit = .sequencer half) (s : State) (rest : List SpareWork) :
    s.spareFitted w rest = (s.withWork rest).seqServes half := by
  simp only [State.spareFitted, State.fitted, State.install, hu]

theorem exec_spareDone_sequencer (hwork : s.flt.work = w :: rest) (hh : s.home.held = [])
    (hu : w.unit = .sequencer half) (hw : w.ctx = none) :
    exec .spareDone s = .next ((s.withWork rest).seqServes half).freshAgents.settle := by
  have hheld : ((s.withWork rest).seqServes half).home.held = [] := by
    rw [kept_home (keeps_seqServes _ half) rfl]
    exact hh
  rw [exec_spareDone, spareEnd_own hwork hw, spareFitted_sequencer hu, releaseHeld_none hheld]

/-! ### The Life Record's write (R346) -/

/-- A write of a slot that failed, of the bytes that the slot then holds and the state in which they were drawn. -/
def State.failSlot (slot : BitVec 3) (p : List Byte × State) : State :=
  let (fs, s1) := p
  let bs := badSlot fs
  { s1 with life := { s1.life with bytes := putLife s1.life.bytes (lifeJournal slot.toNat) bs, slot := slot
                                   writeSeq := s1.life.writeSeq + 1, fail := true } }.event 0x0E0A srcSlice [slot.toNat]

theorem lifeFail_eq (s : State) : s.lifeFail = State.failSlot (s.life.slot + 1) (s.freeBytes 1024) := by
  unfold State.lifeFail
  generalize s.freeBytes 1024 = p
  rfl

theorem failSlot_life (slot : BitVec 3) (p : List Byte × State) : (State.failSlot slot p).life =
    { p.2.life with
        bytes := putLife p.2.life.bytes (lifeJournal slot.toNat) (badSlot p.1), slot := slot
        writeSeq := p.2.life.writeSeq + 1, fail := true } :=
  State.event_life _ _ _ _

theorem failSlot_evt (slot : BitVec 3) (p : List Byte × State) :
    (State.failSlot slot p).evt = (p.2.event 0x0E0A srcSlice [slot.toNat]).evt :=
  event_evt_congr (s := p.2) (t := { p.2 with life := { p.2.life with
    bytes := putLife p.2.life.bytes (lifeJournal slot.toNat) (badSlot p.1), slot := slot
    writeSeq := p.2.life.writeSeq + 1, fail := true } }) rfl rfl _ _ _

theorem lifeWrite_life (s : State) : ∃ bs nh nf, s.lifeWrite.life =
    { s.life with
        bytes := bs, histNext := nh, fwNext := nf, slot := s.life.slot + 1, writeSeq := s.life.writeSeq + 1
        hist := [], fwHist := [], changed := false } := by
  unfold State.lifeWrite
  exact ⟨_, _, _, rfl⟩

theorem exec_lifeRecordWrite (v : Bool) (s : State) : exec (.lifeRecordWrite v) s =
    .next (if !s.life.changed then s else if v then s.lifeWrite else s.lifeFail) := rfl

theorem exec_lifeRecordWrite_verified (h : s.life.changed = true) :
    exec (.lifeRecordWrite true) s = .next s.lifeWrite := by
  rw [exec_lifeRecordWrite, h, if_neg (by decide), if_pos rfl]

theorem exec_lifeRecordWrite_failed (h : s.life.changed = true) :
    exec (.lifeRecordWrite false) s = .next s.lifeFail := by
  rw [exec_lifeRecordWrite, h, if_neg (by decide), if_neg (by decide)]

theorem exec_lifeRecordWrite_unchanged (h : s.life.changed = false) (v : Bool) :
    exec (.lifeRecordWrite v) s = .next s := by
  rw [exec_lifeRecordWrite, h, if_pos (by decide)]

theorem lifeFail_life (s : State) : ∃ bs, s.lifeFail.life =
    { s.life with bytes := bs, slot := s.life.slot + 1, writeSeq := s.life.writeSeq + 1, fail := true } := by
  rw [lifeFail_eq, failSlot_life, kept_life (keeps_freeBytes s 1024) rfl]
  exact ⟨_, rfl⟩

theorem lifeFail_evt (s : State) : s.lifeFail.evt = (s.event 0x0E0A srcSlice [(s.life.slot + 1).toNat]).evt := by
  rw [lifeFail_eq, failSlot_evt]
  exact event_evt_congr (kept_evt (keeps_freeBytes s 1024) rfl) (kept_ckp (keeps_freeBytes s 1024) rfl) _ _ _

/-! ### The watch over the management core (R338, R415) -/

theorem exec_heartbeatTimeout_silent (h : s.ckp.mgmtRet = false) : exec (.heartbeatTimeout false) s =
    if s.alone then .next ((s.retire .mgmtCore).event 0x0E05 srcSlice (unitWords .mgmtCore))
    else .next (s.failover 2).settle := if_neg (by rw [h]; decide)

/-- Settles O54: with no request held the end of sparing work is its spare's fitting (`spareFitted`) and, where a command waits,
that command's end; the Life Record's writes are read back by `lifeWrite_life` and `lifeFail_life`. -/
theorem sparingFailoverAndLifeRecord : Obligations.SparingFailoverAndLifeRecord := by
  intro s
  refine ⟨fun w rest c h hh hw hp => does_spareDone_command h hh hw hp, fun w rest h hwork hh hu hw => ?_, rfl,
    fun hr => if_pos hr, fun hr ha => ?_, fun hr ha => ?_, fun hc => ⟨?_, ?_⟩, fun hc => exec_lifeRecordWrite_unchanged hc⟩
  · let u := s.withWork rest
    have kfresh : Keeps [.shelves] (u.seqServes h) (u.seqServes h).freshAgents := keeps_freshAgents _
    refine ⟨_, exec_spareDone_sequencer hwork hh hu hw, ?_, ?_, ?_, ?_, ?_, ?_, ?_⟩
    · rw [kept_flt kfresh rfl, kept_flt (keeps_seqServes u h) rfl]
      rfl
    · rw [kept_kiln kfresh rfl, seqServes_kiln]
    · rw [kept_kiln kfresh rfl, seqServes_kiln]
      rfl
    · rw [kept_ckp kfresh rfl, seqServes_ckp]
      exact getLsbD_or_sequencer _
    · rw [kept_ckp kfresh rfl, seqServes_ckp]
      exact getLsbD_or_sequencer _
    · rw [kept_evt kfresh rfl, seqServes_evt]
      refine (event_evt_setFlt s _ _ _ _).trans ?_
      cases h <;> rfl
    · exact keeps_then (keeps_then (keeps_more (keeps_withWork s rest) rfl) (keeps_seqServes u h) rfl) kfresh rfl
  · rw [exec_heartbeatTimeout_silent hr, if_pos ha]
    exact ⟨_, rfl, State.event_flt .., event_evt_setFlt s _ _ _ _, keeps_then (keeps_more upd_flt rfl) (keeps_event ..) rfl⟩
  · rw [exec_heartbeatTimeout_silent hr, if_neg (Bool.eq_false_iff.mp ha)]
  · obtain ⟨bs, nh, nf, hlife⟩ := lifeWrite_life s
    refine ⟨s.lifeWrite, exec_lifeRecordWrite_verified hc, ?_⟩
    rw [hlife]
    exact ⟨rfl, rfl, rfl, rfl, rfl, rfl, keeps_lifeWrite s⟩
  · obtain ⟨bs, hlife⟩ := lifeFail_life s
    refine ⟨s.lifeFail, exec_lifeRecordWrite_failed hc, ?_⟩
    rw [hlife]
    exact ⟨rfl, rfl, rfl, rfl, hc, lifeFail_evt s, keeps_lifeFail s⟩

end Sys2Proof.Machine
end
